-- ==== Sys2Proof/Word.lean ====
section
/-! DEFINITION. The word types of the Thakoa Stolsil, register numbers by class (R100), immediates (R98, R101) and the one
table type that memory, registers and every record kept by number use. -/

namespace Sys2Proof

/-- A byte of memory. -/
abbrev Byte := BitVec 8
/-- A 64-bit general value, address or system register value. -/
abbrev Word := BitVec 64
/-- One lane of a vector register. -/
abbrev Lane := BitVec 32
/-- A general register field, 0 to 63: 56 to 63 name the queue registers q0 to q7 (R22, R100). -/
abbrev Reg := BitVec 6
/-- A predicate register number. -/
abbrev PReg := BitVec 3
/-- A mask register number. -/
abbrev MReg := BitVec 3
/-- A vector register number. -/
abbrev VReg := BitVec 4
/-- A tile register number. -/
abbrev TReg := BitVec 3
/-- An accumulator number. -/
abbrev AReg := BitVec 2
/-- A follow-on slot number. -/
abbrev FReg := BitVec 2

/-- An immediate or displacement: IMM16 of a 64-bit instruction or IMM48 of a 96-bit one (R97, R98). -/
inductive Imm where
  | short (v : BitVec 16)
  | long (v : BitVec 48)
  deriving DecidableEq, Repr

/-- Natural extension of an immediate to 64 bits (R101). -/
def Imm.zext : Imm → Word
  | .short v => v.zeroExtend 64
  | .long v => v.zeroExtend 64

/-- Signed extension of an immediate to 64 bits (R101). -/
def Imm.sext : Imm → Word
  | .short v => v.signExtend 64
  | .long v => v.signExtend 64

/-- The length in bytes of the instruction that carries the immediate (R98). -/
def Imm.bytes : Imm → Nat
  | .short _ => 8
  | .long _ => 12

/-- The guard of an instruction: predicate PG and inversion PN (R93, R94). -/
structure Hdr where
  pg : PReg
  pn : Bool
  deriving DecidableEq, Repr

/-- A table of values by number, kept in ascending order of the number. -/
abbrev Tab (α : Type) := List (Nat × α)

namespace Tab
variable {α : Type}

/-- The value listed under a number, if there is one. -/
def find? : Tab α → Nat → Option α
  | [], _ => none
  | (k, v) :: t, n => if n = k then some v else find? t n

/-- The value under a number; an unlisted number reads as `d`. -/
def get (t : Tab α) (d : α) (n : Nat) : α := (find? t n).getD d

/-- Put a value under a number, replacing the one listed there. -/
def put : Tab α → Nat → α → Tab α
  | [], n, v => [(n, v)]
  | (k, w) :: t, n, v =>
    if n < k then (n, v) :: (k, w) :: t
    else if n = k then (n, v) :: t
    else (k, w) :: put t n v

/-- Take a number out of the table. -/
def erase : Tab α → Nat → Tab α
  | [], _ => []
  | (k, w) :: t, n => if n = k then erase t n else (k, w) :: erase t n

/-- Write a value in canonical form: a value equal to what an unlisted number reads as is not listed. -/
def set [DecidableEq α] (t : Tab α) (d : α) (n : Nat) (v : α) : Tab α :=
  if v = d then t.erase n else t.put n v

/-- The values under `n` numbers of an ascending table, in order, where `t` lists none below the first. -/
def values (d : α) : Nat → Nat → Tab α → List α
  | _, 0, _ => []
  | lo, n + 1, [] => d :: values d (lo + 1) n []
  | lo, n + 1, (k, v) :: t => if k = lo then v :: values d (lo + 1) n t else d :: values d (lo + 1) n ((k, v) :: t)

/-- The values under the `n` numbers from `lo` on, in order. -/
def slice (t : Tab α) (d : α) (lo n : Nat) : List α := values d lo n (t.dropWhile fun e => e.1 < lo)

/-- Replace what stands under the numbers from `lo` up to `hi`. -/
def splice (t : Tab α) (lo hi : Nat) (mid : Tab α) : Tab α :=
  t.takeWhile (fun e => e.1 < lo) ++ mid ++ t.dropWhile fun e => e.1 < hi

/-- Change the part of an ascending table from `lo` up to `hi`. -/
def within (t : Tab α) (lo hi : Nat) (f : Tab α → Tab α) : Tab α :=
  let u := t.dropWhile fun e => e.1 < lo
  t.takeWhile (fun e => e.1 < lo) ++ f (u.takeWhile fun e => e.1 < hi) ++ u.dropWhile fun e => e.1 < hi

/-- Write values under the numbers from `lo` on, in canonical form. -/
def fill [DecidableEq α] (t : Tab α) (d : α) (lo : Nat) (vs : List α) : Tab α :=
  t.splice lo (lo + vs.length) ((vs.zipIdx lo).filterMap fun e => if e.1 = d then none else some (e.2, e.1))

/-- The numbers stand in strictly ascending order. -/
def Sorted (t : Tab α) : Prop := List.Pairwise (fun x y => x.1 < y.1) t

/-- No listed value is the one an unlisted number reads as. -/
def NoDefault (t : Tab α) (d : α) : Prop := ∀ e ∈ t, e.2 ≠ d

/-- The canonical form: ascending numbers and no default value listed. -/
def Wf (t : Tab α) (d : α) : Prop := Sorted t ∧ NoDefault t d

end Tab
end Sys2Proof
end

