-- ==== Sys2Proof/Codes.lean ====
section
/-! DEFINITION. The subfield codes that instructions share (R51, R102 to R105) and those of single families, as the spec numbers
them.  `ofCode` answers some constructor for an unassigned code too: the decoder compares the code again and refuses it. -/

namespace Sys2Proof

/-- Integer type suffix TY (R102). -/
inductive IntTy where
  | n8 | n16 | n32 | n64 | s8 | s16 | s32 | s64
  deriving DecidableEq, Repr

def IntTy.code : IntTy → BitVec 3
  | .n8 => 0 | .n16 => 1 | .n32 => 2 | .n64 => 3 | .s8 => 4 | .s16 => 5 | .s32 => 6 | .s64 => 7

def IntTy.ofCode (c : BitVec 3) : IntTy :=
  match c.toNat with
  | 0 => .n8 | 1 => .n16 | 2 => .n32 | 3 => .n64 | 4 => .s8 | 5 => .s16 | 6 => .s32 | _ => .s64

/-- The width in bytes, 1, 2, 4 or 8. -/
def IntTy.bytes : IntTy → Nat
  | .n8 | .s8 => 1 | .n16 | .s16 => 2 | .n32 | .s32 => 4 | .n64 | .s64 => 8

/-- The width in bits (R110). -/
def IntTy.bits (t : IntTy) : Nat := 8 * t.bytes

def IntTy.signed : IntTy → Bool
  | .n8 | .n16 | .n32 | .n64 => false
  | .s8 | .s16 | .s32 | .s64 => true

/-- Integer comparison COND (R120). -/
inductive Cond where
  | eq | ne | lt | ge | le | gt
  deriving DecidableEq, Repr

def Cond.code : Cond → BitVec 3
  | .eq => 0 | .ne => 1 | .lt => 2 | .ge => 3 | .le => 4 | .gt => 5

def Cond.ofCode (c : BitVec 3) : Cond :=
  match c.toNat with
  | 0 => .eq | 1 => .ne | 2 => .lt | 3 => .ge | 4 => .le | _ => .gt

/-- Float comparison COND (R129). -/
inductive FCond where
  | eq | ne | lt | le | gt | ge | un | ord
  deriving DecidableEq, Repr

def FCond.code : FCond → BitVec 4
  | .eq => 0 | .ne => 1 | .lt => 2 | .le => 3 | .gt => 4 | .ge => 5 | .un => 6 | .ord => 7

def FCond.ofCode (c : BitVec 4) : FCond :=
  match c.toNat with
  | 0 => .eq | 1 => .ne | 2 => .lt | 3 => .le | 4 => .gt | 5 => .ge | 6 => .un | _ => .ord

/-- Rounding mode RM (R51). -/
inductive RMode where
  | rne | rtz | rdn | rup | rna | rto | rsd
  deriving DecidableEq, Repr

def RMode.code : RMode → BitVec 3
  | .rne => 0 | .rtz => 1 | .rdn => 2 | .rup => 3 | .rna => 4 | .rto => 5 | .rsd => 6

/-- The mode of an RM value; 0b111 is reserved (R51). -/
def RMode.ofRm (c : BitVec 3) : Option RMode :=
  match c.toNat with
  | 0 => some .rne | 1 => some .rtz | 2 => some .rdn | 3 => some .rup | 4 => some .rna | 5 => some .rto
  | 6 => some .rsd | _ => none

/-- The rounding modifier RND of an instruction (R103): none, so that RM of the slot rules, or a mode of its own. -/
inductive Rnd where
  | slot
  | own (m : RMode)
  deriving DecidableEq, Repr

def Rnd.code : Rnd → BitVec 4
  | .slot => 0
  | .own m => 8#4 + m.code.zeroExtend 4

def Rnd.ofCode (c : BitVec 4) : Rnd :=
  match c.toNat with
  | 8 => .own .rne | 9 => .own .rtz | 10 => .own .rdn | 11 => .own .rup | 12 => .own .rna | 13 => .own .rto
  | 14 => .own .rsd | _ => .slot

/-- Element format (R29, R104). -/
inductive Fmt where
  | s8 | n8 | e4m3 | e5m2 | b4 | bf16 | f16 | f32 | s16 | s32 | bit
  deriving DecidableEq, Repr

def Fmt.code : Fmt → BitVec 4
  | .s8 => 0 | .n8 => 1 | .e4m3 => 2 | .e5m2 => 3 | .b4 => 4 | .bf16 => 5 | .f16 => 6 | .f32 => 7 | .s16 => 8
  | .s32 => 9 | .bit => 10

/-- The format of a code; 0xB to 0xF are reserved (R29). -/
def Fmt.ofCode? (c : BitVec 4) : Option Fmt :=
  match c.toNat with
  | 0 => some .s8 | 1 => some .n8 | 2 => some .e4m3 | 3 => some .e5m2 | 4 => some .b4 | 5 => some .bf16
  | 6 => some .f16 | 7 => some .f32 | 8 => some .s16 | 9 => some .s32 | 10 => some .bit | _ => none

def Fmt.ofCode (c : BitVec 4) : Fmt := (Fmt.ofCode? c).getD .s8

/-- Scope of a fence, engine command or barrier (R105): the levels of R20. -/
inductive Scope where
  | th | cr | qd | sk | pk | pd
  deriving DecidableEq, Repr

def Scope.code : Scope → BitVec 3
  | .th => 0 | .cr => 1 | .qd => 2 | .sk => 3 | .pk => 4 | .pd => 5

def Scope.ofCode (c : BitVec 3) : Scope :=
  match c.toNat with
  | 0 => .th | 1 => .cr | 2 => .qd | 3 => .sk | 4 => .pk | _ => .pd

/-- A system register by its 12-bit number (R31). -/
inductive SysReg where
  | tstat | rmode | rseed | fflags | wlim | cyc | tid | tvec | tcause | txpc | tval | tseq | tscr
  | tdesc (t : TReg) | gangw | slabseq | ringb | ringl | ringh | ringt | nest (n : BitVec 2)
  | batch | xfree | xhand | owner | island | leasen
  deriving DecidableEq, Repr

def SysReg.code : SysReg → BitVec 12
  | .tstat => 0x000 | .rmode => 0x001 | .rseed => 0x002 | .fflags => 0x003 | .wlim => 0x004 | .cyc => 0x005
  | .tid => 0x006 | .tvec => 0x008 | .tcause => 0x009 | .txpc => 0x00A | .tval => 0x00B | .tseq => 0x00C
  | .tscr => 0x00D | .tdesc t => 0x010#12 + t.zeroExtend 12 | .gangw => 0x018 | .slabseq => 0x019
  | .ringb => 0x020 | .ringl => 0x021 | .ringh => 0x022 | .ringt => 0x023 | .nest n => 0x028#12 + n.zeroExtend 12
  | .batch => 0x030 | .xfree => 0x031 | .xhand => 0x032 | .owner => 0x038 | .island => 0x039 | .leasen => 0x03A

def SysReg.ofCode (c : BitVec 12) : SysReg :=
  match c.toNat with
  | 0x001 => .rmode | 0x002 => .rseed | 0x003 => .fflags | 0x004 => .wlim | 0x005 => .cyc
  | 0x006 => .tid | 0x008 => .tvec | 0x009 => .tcause | 0x00A => .txpc | 0x00B => .tval | 0x00C => .tseq
  | 0x00D => .tscr | 0x010 => .tdesc 0 | 0x011 => .tdesc 1 | 0x012 => .tdesc 2 | 0x013 => .tdesc 3
  | 0x014 => .tdesc 4 | 0x015 => .tdesc 5 | 0x016 => .tdesc 6 | 0x017 => .tdesc 7 | 0x018 => .gangw
  | 0x019 => .slabseq | 0x020 => .ringb | 0x021 => .ringl | 0x022 => .ringh | 0x023 => .ringt
  | 0x028 => .nest 0 | 0x029 => .nest 1 | 0x02A => .nest 2 | 0x02B => .nest 3
  | 0x030 => .batch | 0x031 => .xfree | 0x032 => .xhand | 0x038 => .owner | 0x039 => .island | 0x03A => .leasen
  | _ => .tstat

/-- The registers a quay slot does not have (R31). -/
def SysReg.noQuay : SysReg → Bool
  | .tdesc _ | .slabseq | .ringb | .ringl | .ringh | .ringt | .nest _ => true
  | _ => false

/-- Read-modify-write operation AOP (R139). -/
inductive AmoOp where
  | swap | add | and | or | xor | min | max | fadd
  deriving DecidableEq, Repr

def AmoOp.code : AmoOp → BitVec 3
  | .swap => 0 | .add => 1 | .and => 2 | .or => 3 | .xor => 4 | .min => 5 | .max => 6 | .fadd => 7

def AmoOp.ofCode (c : BitVec 3) : AmoOp :=
  match c.toNat with
  | 0 => .swap | 1 => .add | 2 => .and | 3 => .or | 4 => .xor | 5 => .min | 6 => .max | _ => .fadd

/-- Sign operation OPS of `fsgn` and `vsgn` (R129). -/
inductive SgnOp where
  | cp | cn | cx | abs | neg
  deriving DecidableEq, Repr

def SgnOp.code : SgnOp → BitVec 4
  | .cp => 0 | .cn => 1 | .cx => 2 | .abs => 3 | .neg => 4

def SgnOp.ofCode (c : BitVec 4) : SgnOp :=
  match c.toNat with
  | 0 => .cp | 1 => .cn | 2 => .cx | 3 => .abs | _ => .neg

/-- The directions of `fcvt` (R130), destination first. -/
inductive Cvt where
  | ff (dst src : Fmt)
  | fi (dst : IntTy) (src : Fmt)
  | if_ (dst : Fmt) (src : IntTy)
  deriving DecidableEq, Repr

/-- Mode of an SRAM bank (R153). -/
inductive BankMode where
  | cache | scr | fifo
  deriving DecidableEq, Repr

def BankMode.code : BankMode → BitVec 2
  | .cache => 0 | .scr => 1 | .fifo => 2

def BankMode.ofCode (c : BitVec 2) : BankMode :=
  match c.toNat with
  | 0 => .cache | 1 => .scr | _ => .fifo

/-- Lane type LT (R158). -/
inductive LaneTy where
  | n32 | s32 | f32
  deriving DecidableEq, Repr

def LaneTy.code : LaneTy → BitVec 2
  | .n32 => 0 | .s32 => 1 | .f32 => 2

def LaneTy.ofCode (c : BitVec 2) : LaneTy :=
  match c.toNat with
  | 0 => .n32 | 1 => .s32 | _ => .f32

/-- Packing PF of `vdot` (R168). -/
inductive DotFmt where
  | bf16 | f16 | s16 | s8
  deriving DecidableEq, Repr

def DotFmt.code : DotFmt → BitVec 2
  | .bf16 => 0 | .f16 => 1 | .s16 => 2 | .s8 => 3

def DotFmt.ofCode (c : BitVec 2) : DotFmt :=
  match c.toNat with
  | 0 => .bf16 | 1 => .f16 | 2 => .s16 | _ => .s8

/-- The lane type a packing requires (R168). -/
def DotFmt.lane : DotFmt → LaneTy
  | .bf16 | .f16 => .f32
  | .s16 | .s8 => .s32

/-- Count operation of `vcnt` (R167). -/
inductive CntOp where
  | pop | lz | tz
  deriving DecidableEq, Repr

def CntOp.code : CntOp → BitVec 4
  | .pop => 0 | .lz => 1 | .tz => 2

def CntOp.ofCode (c : BitVec 4) : CntOp :=
  match c.toNat with
  | 0 => .pop | 1 => .lz | _ => .tz

/-- The comparison of `vcmp`: integer lanes take the codes of R120, FP32 lanes those of R129 (R169). -/
inductive VCmp where
  | n32 (c : Cond)
  | s32 (c : Cond)
  | f32 (c : FCond)
  deriving DecidableEq, Repr

def VCmp.lane : VCmp → LaneTy
  | .n32 _ => .n32 | .s32 _ => .s32 | .f32 _ => .f32

def VCmp.code : VCmp → BitVec 4
  | .n32 c | .s32 c => c.code.zeroExtend 4
  | .f32 c => c.code

def VCmp.ofCode (lt : BitVec 2) (c : BitVec 4) : VCmp :=
  match lt.toNat with
  | 0 => .n32 (Cond.ofCode (c.extractLsb' 0 3))
  | 1 => .s32 (Cond.ofCode (c.extractLsb' 0 3))
  | _ => .f32 (FCond.ofCode c)

/-- The element types of `vcvt`: the formats of R173, with .n32 beside .s32. -/
inductive Elt where
  | s8 | n8 | e4m3 | e5m2 | bf16 | f16 | f32 | s16 | s32 | n32
  deriving DecidableEq, Repr

/-- The format code of an element type and its DN or ON bit (R173). -/
def Elt.code : Elt → BitVec 4
  | .s8 => 0 | .n8 => 1 | .e4m3 => 2 | .e5m2 => 3 | .bf16 => 5 | .f16 => 6 | .f32 => 7 | .s16 => 8 | .s32 | .n32 => 9

def Elt.natural : Elt → Bool
  | .n32 => true
  | _ => false

def Elt.ofCode (c : BitVec 4) (nat : Bool) : Elt :=
  match c.toNat with
  | 0 => .s8 | 1 => .n8 | 2 => .e4m3 | 3 => .e5m2 | 5 => .bf16 | 6 => .f16 | 7 => .f32 | 8 => .s16
  | _ => if nat then .n32 else .s32

/-- Code table TYPE of a B4 block (R56, R57). -/
inductive B4Ty where
  | int | e2m1 | pow2 | hyb
  deriving DecidableEq, Repr

def B4Ty.code : B4Ty → BitVec 2
  | .int => 0 | .e2m1 => 1 | .pow2 => 2 | .hyb => 3

def B4Ty.ofCode (c : BitVec 2) : B4Ty :=
  match c.toNat with
  | 0 => .int | 1 => .e2m1 | 2 => .pow2 | _ => .hyb

/-- Reduction and scan operation (R177); `ared` takes the first three (R198). -/
inductive RedOp where
  | add | min | max | or
  deriving DecidableEq, Repr

def RedOp.code : RedOp → BitVec 2
  | .add => 0 | .min => 1 | .max => 2 | .or => 3

def RedOp.ofCode (c : BitVec 2) : RedOp :=
  match c.toNat with
  | 0 => .add | 1 => .min | 2 => .max | _ => .or

/-- Semiring SR of a product (R189). -/
inductive Semi where
  | pt | mp | mt | oa
  deriving DecidableEq, Repr

def Semi.code : Semi → BitVec 2
  | .pt => 0 | .mp => 1 | .mt => 2 | .oa => 3

def Semi.ofCode (c : BitVec 2) : Semi :=
  match c.toNat with
  | 0 => .pt | 1 => .mp | 2 => .mt | _ => .oa

/-- The operand fields of `mma` and `mmaq` (R189). -/
structure MmaOp where
  acc : AReg
  ta : TReg
  tb : TReg
  rnd : Rnd
  sr : Semi
  af : Fmt
  bf : Fmt
  kd : BitVec 10
  arow : BitVec 6
  clr : Bool
  deriving DecidableEq, Repr

/-- The cell format of `adrain` (R200): raw, or a converted one. -/
inductive DrainFmt where
  | raw | f32 | bf16 | s32
  deriving DecidableEq, Repr

/-- DFMT ‖ RAW as X[90:86] holds it. -/
def DrainFmt.code : DrainFmt → BitVec 5
  | .raw => 1 | .f32 => 0x0E | .bf16 => 0x0A | .s32 => 0x12

def DrainFmt.ofCode (c : BitVec 5) : DrainFmt :=
  match c.toNat with
  | 1 => .raw | 0x0E => .f32 | 0x0A => .bf16 | _ => .s32

/-- Cell size in bytes (R200). -/
def DrainFmt.bytes : DrainFmt → Nat
  | .raw => 8 | .f32 | .s32 => 4 | .bf16 => 2

/-- TYPE of an engine command (R206). -/
inductive CmdTy where
  | copy | nd | gth | sct | radd | fill
  deriving DecidableEq, Repr

def CmdTy.code : CmdTy → BitVec 4
  | .copy => 0 | .nd => 1 | .gth => 2 | .sct => 3 | .radd => 4 | .fill => 5

def CmdTy.ofCode (c : BitVec 4) : CmdTy :=
  match c.toNat with
  | 0 => .copy | 1 => .nd | 2 => .gth | 3 => .sct | 4 => .radd | _ => .fill

/-- Reduce-add element EF (R206). -/
inductive RaddElt where
  | f32 | bf16 | s32 | s64
  deriving DecidableEq, Repr

def RaddElt.code : RaddElt → BitVec 3
  | .f32 => 0 | .bf16 => 1 | .s32 => 2 | .s64 => 3

def RaddElt.ofCode (c : BitVec 3) : RaddElt :=
  match c.toNat with
  | 0 => .f32 | 1 => .bf16 | 2 => .s32 | _ => .s64

/-- Element size in bytes (R208). -/
def RaddElt.bytes : RaddElt → Nat
  | .f32 => 4 | .bf16 => 2 | .s32 => 4 | .s64 => 8

/-- Word 0 of an engine command (R206).  LVL: false is `.src`, true `.vis`. -/
structure Cmd0 where
  ty : CmdTy
  acq : Bool
  rel : Bool
  scope : Scope
  lvl : Bool
  fol : Option FReg
  ef : RaddElt
  lay : BitVec 8
  len : BitVec 40
  deriving DecidableEq, Repr

/-- Placement PL of an arena (R248). -/
inductive Place where
  | llc | dram | cxl
  deriving DecidableEq, Repr

def Place.code : Place → BitVec 2
  | .llc => 0 | .dram => 1 | .cxl => 2

def Place.ofCode (c : BitVec 2) : Place :=
  match c.toNat with
  | 0 => .llc | 1 => .dram | _ => .cxl

/-- CLS of `wsplit` and `wdeleg` (R253): inherit, shared or opportunistic. -/
inductive Cls where
  | same | shr | opp
  deriving DecidableEq, Repr

def Cls.code : Cls → BitVec 2
  | .same => 0 | .shr => 1 | .opp => 2

def Cls.ofCode (c : BitVec 2) : Cls :=
  match c.toNat with
  | 0 => .same | 1 => .shr | _ => .opp

/-- SEL of `wqry` (R255), 0 to 10. -/
inductive WSel where
  | serial | notBefore | notAfter | cls | shape | dramb | cxlb | child | keyLease | splits | depth
  deriving DecidableEq, Repr

def WSel.code : WSel → BitVec 8
  | .serial => 0 | .notBefore => 1 | .notAfter => 2 | .cls => 3 | .shape => 4 | .dramb => 5 | .cxlb => 6
  | .child => 7 | .keyLease => 8 | .splits => 9 | .depth => 10

def WSel.ofCode (c : BitVec 8) : WSel :=
  match c.toNat with
  | 0 => .serial | 1 => .notBefore | 2 => .notAfter | 3 => .cls | 4 => .shape | 5 => .dramb | 6 => .cxlb
  | 7 => .child | 8 => .keyLease | 9 => .splits | _ => .depth

/-- A memory operand (R119, R133): displacement form or indexed form. -/
inductive Mem where
  | disp (a : Reg) (i : Imm)
  | idx (a b : Reg) (sc : BitVec 2)
  deriving DecidableEq, Repr

def Mem.bytes : Mem → Nat
  | .disp _ i => i.bytes
  | .idx _ _ _ => 8

/-- The common fields of a vector instruction: guard, Z and governing mask (R157). -/
structure VHdr where
  hdr : Hdr
  z : Bool
  mask : MReg
  deriving DecidableEq, Repr

/-- What a partner of a port may request in link negotiation (R401): the protocols and features that the device offers at its host-facing or its
memory-facing ports, and anything else. -/
inductive LinkAsk where
  | cxlIo | cxlMem | hdmDb | backInvalidation | ide | tdisp | hdmH | type3 | other
  deriving DecidableEq, Repr

/-- Whether a CXL or UCIe port offers a thing (R401): the host-facing port with HDM-DB ranges, back-invalidation and TDISP, a memory-facing one with
Type 3 devices and HDM-H ranges. -/
def LinkAsk.offered (host : Bool) : LinkAsk → Bool
  | .cxlMem | .ide => true
  | .cxlIo | .hdmDb | .backInvalidation | .tdisp => host
  | .hdmH | .type3 => !host
  | .other => false

/-- The partner of a port that trains: whether its identity chains to the vendor root (R408), and what it requests (R401). -/
structure Partner where
  chained : Bool
  asks : List LinkAsk
  deriving DecidableEq, Repr

end Sys2Proof
end

