-- ==== Sys2Proof/Syntax.lean ====
section
/-! DEFINITION. The instructions of the Thakoa Stolsil and the events of its agents: one constructor for each row of the
opcode table.  An instruction carries its guard, its register fields by class (R100) and its immediates; its length is that of
its immediate or the one R107 fixes.  An event carries the plain data that names it. -/

namespace Sys2Proof

/-- One row of the opcode table. -/
inductive Instr where
  -- Scalar integer (R112 to R122)
  | nop (h : Hdr)
  | add (h : Hdr) (d a b : Reg)
  | addi (h : Hdr) (d a : Reg) (i : Imm)
  | sub (h : Hdr) (d a b : Reg)
  | rsbi (h : Hdr) (d a : Reg) (i : Imm)
  | mul (h : Hdr) (d a b : Reg)
  | muli (h : Hdr) (d a : Reg) (i : Imm)
  | mulh (h : Hdr) (ty : IntTy) (d a b : Reg)
  | mad (h : Hdr) (d a b c : Reg)
  | div (h : Hdr) (ty : IntTy) (d a b : Reg)
  | rem (h : Hdr) (ty : IntTy) (d a b : Reg)
  | min (h : Hdr) (ty : IntTy) (d a b : Reg)
  | max (h : Hdr) (ty : IntTy) (d a b : Reg)
  | and (h : Hdr) (d a b : Reg)
  | andi (h : Hdr) (d a : Reg) (i : Imm)
  | or (h : Hdr) (d a b : Reg)
  | ori (h : Hdr) (d a : Reg) (i : Imm)
  | xor (h : Hdr) (d a b : Reg)
  | xori (h : Hdr) (d a : Reg) (i : Imm)
  | andn (h : Hdr) (d a b : Reg)
  | shl (h : Hdr) (d a b : Reg)
  | shli (h : Hdr) (d a : Reg) (i : Imm)
  | shr (h : Hdr) (d a b : Reg)
  | shri (h : Hdr) (d a : Reg) (i : Imm)
  | sar (h : Hdr) (d a b : Reg)
  | sari (h : Hdr) (d a : Reg) (i : Imm)
  | rot (h : Hdr) (d a b : Reg)
  | roti (h : Hdr) (d a : Reg) (i : Imm)
  | clz (h : Hdr) (d a : Reg)
  | ctz (h : Hdr) (d a : Reg)
  | popc (h : Hdr) (d a : Reg)
  | brev (h : Hdr) (d a : Reg)
  | bswap (h : Hdr) (d a : Reg)
  | ext (h : Hdr) (sg : Bool) (d a : Reg) (i : Imm)
  | bfx (h : Hdr) (sg : Bool) (d a : Reg) (i : Imm)
  | bfi (h : Hdr) (d a b : Reg) (i : Imm)
  | crc (h : Hdr) (k : BitVec 2) (d a b : Reg)
  | hash (h : Hdr) (d a b : Reg)
  | li (h : Hdr) (d : Reg) (i : Imm)
  | lih (h : Hdr) (d a : Reg) (i : Imm)
  | lea (h : Hdr) (d : Reg) (m : Mem)
  | mov (h : Hdr) (d a : Reg)
  | sel (h : Hdr) (d a b : Reg) (c : PReg)
  | cmp (h : Hdr) (cond : Cond) (ty : IntTy) (d : PReg) (a b : Reg)
  | cmpi (h : Hdr) (cond : Cond) (ty : IntTy) (d : PReg) (a : Reg) (i : Imm)
  | plog (h : Hdr) (tt : BitVec 4) (d a b : PReg)
  | pmov (h : Hdr) (d : PReg) (a : Reg)
  | pmovToGeneral (h : Hdr) (d : Reg) (a : PReg)
  | pmovGet (h : Hdr) (d : Reg)
  | pmovSet (h : Hdr) (a : Reg)
  -- Control and system registers (R123 to R126)
  | br (h : Hdr) (i : Imm)
  | call (h : Hdr) (i : Imm)
  | ret (h : Hdr) (a : Reg)
  | jmp (h : Hdr) (a : Reg) (i : Imm)
  | callr (h : Hdr) (a : Reg)
  | mfs (h : Hdr) (r : SysReg) (d : Reg)
  /-- `mts` to RMODE, WLIM, TVEC or TSCR; the table has rows of their own for the other writable registers. -/
  | mts (h : Hdr) (r : SysReg) (a : Reg)
  | rseedWrite (h : Hdr) (a : Reg)
  | fflagsWrite (h : Hdr) (a : Reg)
  | ringbWrite (h : Hdr) (a : Reg)
  | ringlWrite (h : Hdr) (a : Reg)
  | tdescWrite (h : Hdr) (t : TReg) (a : Reg)
  | trap (h : Hdr) (i : Imm)
  | brk (h : Hdr) (i : BitVec 16)
  | tret (h : Hdr) (a : Reg)
  -- Scalar floating point (R127 to R131)
  | fadd (h : Hdr) (f : Fmt) (rnd : Rnd) (d a b : Reg)
  | fsub (h : Hdr) (f : Fmt) (rnd : Rnd) (d a b : Reg)
  | fmul (h : Hdr) (f : Fmt) (rnd : Rnd) (d a b : Reg)
  | ffma (h : Hdr) (f : Fmt) (rnd : Rnd) (d a b c : Reg)
  | fdiv (h : Hdr) (f : Fmt) (rnd : Rnd) (d a b : Reg)
  | fsqrt (h : Hdr) (f : Fmt) (rnd : Rnd) (d a : Reg)
  | fmin (h : Hdr) (f : Fmt) (d a b : Reg)
  | fmax (h : Hdr) (f : Fmt) (d a b : Reg)
  | fcmp (h : Hdr) (cond : FCond) (f : Fmt) (d : PReg) (a b : Reg)
  | fcvt (h : Hdr) (k : Cvt) (rnd : Rnd) (d a : Reg)
  | fsgn (h : Hdr) (op : SgnOp) (f : Fmt) (d a b : Reg)
  | fclass (h : Hdr) (f : Fmt) (d a : Reg)
  | fround (h : Hdr) (f : Fmt) (rnd : Rnd) (d a : Reg)
  -- Memory, atomics and waits (R132 to R156)
  | ld (h : Hdr) (ty : IntTy) (d : Reg) (m : Mem)
  | st (h : Hdr) (ty : IntTy) (m : Mem) (c : Reg)
  | ldc (h : Hdr) (ty : IntTy) (d : Reg) (m : Mem)
  | amo (h : Hdr) (op : AmoOp) (ty : IntTy) (d : Reg) (m : Mem) (c : Reg)
  | cas (h : Hdr) (ty : IntTy) (d a : Reg) (i : Imm) (b c : Reg)
  | ldfe (h : Hdr) (ty : IntTy) (keep : Bool) (d : Reg) (m : Mem)
  | stfe (h : Hdr) (ty : IntTy) (ovr : Bool) (m : Mem) (c : Reg)
  | feset (h : Hdr) (full : Bool) (m : Mem)
  | feqry (h : Hdr) (d : PReg) (m : Mem)
  | waita (h : Hdr) (cond : Cond) (ty : IntTy) (d : Reg) (m : Mem) (c : Reg)
  | fence (h : Hdr) (sc : Scope)
  | touch (h : Hdr) (d : Reg) (m : Mem)
  | lease (h : Hdr) (rights : BitVec 4) (d a : Reg) (i : Imm) (b : Reg)
  | pref (h : Hdr) (llc : Bool) (m : Mem)
  | msg (h : Hdr) (a c : Reg) (i : Imm)
  | wait (h : Hdr) (d : Reg) (i : Imm)
  | waitWk (h : Hdr) (d : Reg) (i : Imm)
  | wake (h : Hdr) (a : Reg)
  | bankcfg (h : Hdr) (mode : BankMode) (d a : Reg)
  | ramo (h : Hdr) (op : AmoOp) (wk : Bool) (ty : IntTy) (d a b : Reg) (i : Imm) (c : Reg)
  | rst (h : Hdr) (wk : Bool) (ty : IntTy) (a b : Reg) (i : Imm) (c : Reg)
  | rld (h : Hdr) (ty : IntTy) (d a b : Reg) (i : Imm)
  -- Vector memory (R162 to R166)
  | vld (v : VHdr) (ty : IntTy) (d : VReg) (a : Reg) (i : Imm)
  | vst (v : VHdr) (ty : IntTy) (d : VReg) (a : Reg) (i : Imm)
  | vlds (v : VHdr) (ty : IntTy) (d : VReg) (a b : Reg) (i : Imm)
  | vsts (v : VHdr) (ty : IntTy) (d : VReg) (a b : Reg) (i : Imm)
  | vldc (v : VHdr) (ty : IntTy) (d : VReg) (a : Reg) (i : Imm)
  | vgth (v : VHdr) (ty : IntTy) (sc : BitVec 2) (d : VReg) (a : Reg) (b : VReg) (i : Imm)
  | vsct (v : VHdr) (ty : IntTy) (sc : BitVec 2) (d : VReg) (a : Reg) (b : VReg) (i : Imm)
  | vrst (v : VHdr) (wk : Bool) (ty : IntTy) (d : VReg) (a b : Reg) (i : Imm)
  | vamo (v : VHdr) (op : AmoOp) (ty : IntTy) (sc : BitVec 2) (d : VReg) (a : Reg) (b : VReg) (i : Imm)
  -- Vector lanes (R167 to R178)
  | vadd (v : VHdr) (lt : LaneTy) (sat : Bool) (rnd : Rnd) (d a b : VReg)
  | vsub (v : VHdr) (lt : LaneTy) (sat : Bool) (rnd : Rnd) (d a b : VReg)
  | vmul (v : VHdr) (lt : LaneTy) (sat : Bool) (rnd : Rnd) (d a b : VReg)
  | vfma (v : VHdr) (lt : LaneTy) (neg sat : Bool) (rnd : Rnd) (d a b : VReg)
  | vdot (v : VHdr) (pf : DotFmt) (sat : Bool) (rnd : Rnd) (d a b : VReg)
  | vdiv (v : VHdr) (lt : LaneTy) (rnd : Rnd) (d a b : VReg)
  | vsqrt (v : VHdr) (rnd : Rnd) (d a : VReg)
  | vmin (v : VHdr) (lt : LaneTy) (d a b : VReg)
  | vmax (v : VHdr) (lt : LaneTy) (d a b : VReg)
  | vabs (v : VHdr) (lt : LaneTy) (sat : Bool) (d a : VReg)
  | vneg (v : VHdr) (lt : LaneTy) (sat : Bool) (d a : VReg)
  | vsgn (v : VHdr) (op : SgnOp) (d a b : VReg)
  | vand (v : VHdr) (d a b : VReg)
  | vor (v : VHdr) (d a b : VReg)
  | vxor (v : VHdr) (d a b : VReg)
  | vshl (v : VHdr) (d a b : VReg)
  | vshr (v : VHdr) (d a b : VReg)
  | vsar (v : VHdr) (d a b : VReg)
  | vcnt (v : VHdr) (op : CntOp) (d a : VReg)
  | vcmp (v : VHdr) (cond : VCmp) (d : MReg) (a b : VReg)
  | vsel (h : Hdr) (d a b : VReg) (c : MReg)
  | vmsk (h : Hdr) (tt : BitVec 4) (d a b : MReg)
  | vmskCnt (h : Hdr) (d : Reg) (a : MReg)
  | vmskFfs (h : Hdr) (d : Reg) (a : MReg)
  | vmskFirst (h : Hdr) (d : MReg) (b : Reg)
  | vcvt (v : VHdr) (dst src : Elt) (rnd : Rnd) (d a : VReg)
  | vsat (v : VHdr) (sg : Bool) (ty : IntTy) (d a : VReg)
  | vpack (v : VHdr) (ty : B4Ty) (rnd : Rnd) (d a : VReg)
  | vunpk (v : VHdr) (d a : VReg)
  | vperm (v : VHdr) (d a b : VReg)
  | vshf (v : VHdr) (d a b : VReg) (i : Imm)
  | vbcast (v : VHdr) (d : VReg) (a : Reg)
  | vins (v : VHdr) (d : VReg) (a b : Reg) (i : Imm)
  | vext (h : Hdr) (sg : Bool) (d : Reg) (a : VReg) (b : Reg) (i : Imm)
  | vidx (v : VHdr) (d : VReg) (a : Reg) (i : Imm)
  | vmov (v : VHdr) (d a : VReg)
  | vred (v : VHdr) (op : RedOp) (lt : LaneTy) (sat : Bool) (rnd : Rnd) (d : Reg) (a : VReg)
  | vscan (v : VHdr) (op : RedOp) (lt : LaneTy) (sat : Bool) (rnd : Rnd) (d a : VReg)
  | vrcp (v : VHdr) (rnd : Rnd) (d a : VReg)
  | vrsq (v : VHdr) (rnd : Rnd) (d a : VReg)
  | vexp2 (v : VHdr) (rnd : Rnd) (d a : VReg)
  | vlog2 (v : VHdr) (rnd : Rnd) (d a : VReg)
  -- Matrix (R179 to R202)
  | tld (h : Hdr) (seg : BitVec 3) (d : TReg) (a : Reg) (i : Imm) (b c : Reg)
  | tst (h : Hdr) (seg : BitVec 3) (d : TReg) (a : Reg) (i : Imm) (b c : Reg)
  | tzero (h : Hdr) (d : TReg)
  | tmov (h : Hdr) (d a : TReg)
  | tfill (h : Hdr) (d : TReg) (a : Reg) (i : Imm)
  | mma (h : Hdr) (op : MmaOp)
  | mmaq (h : Hdr) (f : FReg) (nt : BitVec 2) (op : MmaOp)
  | mwait (h : Hdr)
  | mwaitF (h : Hdr) (d : Reg) (f : FReg)
  | azero (h : Hdr) (d : AReg)
  | aload (h : Hdr) (d : AReg) (a : Reg) (i : Imm) (b : Reg)
  | aread (h : Hdr) (d : AReg) (a : Reg) (i : Imm) (b : Reg)
  | acvt (h : Hdr) (rnd : Rnd) (d : TReg) (a : AReg)
  | adrain (h : Hdr) (rnd : Rnd) (f : DrainFmt) (za : Bool) (doff : BitVec 22) (d : AReg) (a b c : Reg)
  | ared (h : Hdr) (op : RedOp) (lt : LaneTy) (rnd : Rnd) (d : VReg) (a : AReg)
  | ascal (h : Hdr) (int : Bool) (rnd : Rnd) (d : AReg) (i : Imm)
  -- Engine (R203 to R226)
  | xpush (h : Hdr) (w0 : Cmd0) (value : BitVec 16) (d a b c : Reg)
  | xpushb (h : Hdr) (w0 : Cmd0) (value : BitVec 16) (d a b c : Reg)
  | xlay (h : Hdr) (a : Reg) (id : BitVec 8)
  | xseal (h : Hdr) (d : Reg)
  | xwait (h : Hdr) (vis : Bool) (d : Reg) (i : Imm)
  | xstat (h : Hdr) (d a : Reg)
  | xstatSum (h : Hdr) (d : Reg)
  | xstatP (h : Hdr) (d a : Reg)
  | xcan (h : Hdr) (batch : Bool) (d a : Reg)
  | xres (h : Hdr) (a : Reg)
  -- Task (R227 to R247)
  | spawn (h : Hdr) (narg : BitVec 3) (cdl join noin : Bool) (d a b : Reg)
  | dec (h : Hdr) (a : Reg) (i : Imm)
  | rpush (h : Hdr) (a b c : Reg)
  | rpop (h : Hdr) (d c : Reg)
  | cnew (h : Hdr) (home : BitVec 2) (rstrt hi : Bool) (d a : Reg) (i : Imm) (b c : Reg)
  | cend (h : Hdr) (a : Reg) (i : BitVec 16)
  | tend (h : Hdr)
  | tprio (h : Hdr) (hi : Bool)
  | nest (h : Hdr) (minch : BitVec 16) (a b c : Reg)
  | next (h : Hdr) (d : Reg) (i : Imm)
  | bar (h : Hdr) (sc : Scope) (id : BitVec 4) (b : Reg)
  | barq (h : Hdr) (sc : Scope) (id : BitVec 4) (d b : Reg)
  | poll (h : Hdr) (sc : Scope) (id : BitVec 4) (d : PReg) (a : Reg)
  | qcfgBind (h : Hdr) (q : BitVec 3) (a : Reg) (i : Imm)
  | qcfgUnbind (h : Hdr) (q : BitVec 3) (i : Imm)
  | qsts (h : Hdr) (d : Reg) (q : BitVec 3)
  | place (h : Hdr) (dx dy : BitVec 8) (d a : Reg)
  | placeLin (h : Hdr) (d a : Reg)
  | placeQuay (h : Hdr) (d a : Reg)
  | gang (h : Hdr) (d a : Reg)
  | chk (h : Hdr) (a : Reg)
  -- Arena, warrant, time and keys (R248 to R256)
  | anew (h : Hdr) (pl : Place) (d a : Reg) (i : Imm)
  | ahand (h : Hdr) (d a b : Reg)
  | aend (h : Hdr) (d a : Reg)
  | aqry (h : Hdr) (d a : Reg)
  | wpresAdd (h : Hdr) (d a : Reg)
  | wpresChild (h : Hdr) (d a b : Reg)
  | wsplit (h : Hdr) (cls : Cls) (d a b c : Reg)
  | wdeleg (h : Hdr) (cls : Cls) (d a b c : Reg)
  | wsurr (h : Hdr) (d a : Reg)
  | wqry (h : Hdr) (sel : WSel) (d a : Reg)
  | tnow (h : Hdr) (d : Reg)
  | attest (h : Hdr) (d a b : Reg)
  | klease (h : Hdr) (d a : Reg)
  -- Events that the package itself raises: first the core, the slab side and the engine, then dispatch, time and pages
  | bankModeSwitch (quad : Nat)
  | adrainPush (core : Nat)
  | slabCompletion (core : Nat)
  | lateTrapDelivery (slot : Nat)
  | followOnMmaStart (core : Nat) (f : FReg)
  | copy (core : Nat) (cnum : BitVec 32) (units : Nat)
  | copyNd (core : Nat) (cnum : BitVec 32) (units : Nat)
  | gather (core : Nat) (cnum : BitVec 32) (units : Nat)
  | scatter (core : Nat) (cnum : BitVec 32) (units : Nat)
  | reduceAdd (core : Nat) (cnum : BitVec 32) (units : Nat)
  | fill (core : Nat) (cnum : BitVec 32) (units : Nat)
  | xhand (slot : Nat)
  | src (core : Nat) (cnum : BitVec 32)
  | vis (core : Nat) (cnum : BitVec 32)
  | commandEnd (core : Nat) (cnum : BitVec 32)
  | slotDispatch (core : Nat)
  | waitLimit (slot : Nat)
  | deadlockSnapshot (owner : Nat)
  | logicalTimeTick (core : Nat)
  | expiryNotice (owner : Nat)
  | termExpired (owner : Nat)
  | termKeylease (owner : Nat)
  | sliceEnd (owner : Nat)
  | harbourSwap (owner : Nat)
  | contextRestore (owner : Nat)
  | pageMigration (page pkg : Nat)
  | migrationComplete (page : Nat)
  | biasRequest (page : Nat) (host : Bool)
  | biasFlipStart (page : Nat)
  | counterClear
  | clockSave
  | slewEnd
  | portRecovery (port : Nat)
  | stackIdleEnd (stack : Nat)
  -- Contexts
  | restoreElsewhere (owner : Nat) (col row : Nat)
  | harbourScrub (stack row : Nat) (uncorrectable : Bool)
  -- The host mailbox and the redemption messages
  | present (tag : Word) (warrant image holderKey proof : List Byte)
  | time (tag : Word) (token : List Byte)
  | floor (tag : Word) (order : List Byte)
  | launch (tag : Word) (serial : Word) (holderKey proof : List Byte)
  | move (tag : Word) (order : List Byte) (fits : Option (BitVec 8))
  | moveStop (owner : Nat)
  | moveSwitch (owner : Nat)
  | pull (owner page : Nat)
  | pullTimeout (owner page : Nat)
  | test (tag : Word) (package sig : List Byte) (quads : List Nat)
  | claim (serial domain chip nonce : Word)
  | claimAnswer (nonce : Word) (accept : Bool)
  | claimTimeout (nonce : Word)
  | withdrawal (serial domain chip : Word)
  | endNotice (serial domain chip : Word) (code : BitVec 8)
  | moveNotice (serial domain source target : Word)
  | homeConfirmation (serial domain : Word)
  -- Pages, bias and the host
  | hostAccess (requester : Nat) (addr : Word) (write : Bool) (data : List Byte)
  | biasFlipComplete (page : Nat) (back : List (Nat × Byte))
  | backInvalidationTimeout (page : Nat) (dirty : List Nat)
  | patrolScrub (addr : Nat)
  | hostLinkDown (dirty : List Nat)
  | tdispRequest (owner : Nat) (state : BitVec 2)
  -- Ports
  | telemetryReport (port : Nat) (margin : List Nat) (rate replays loss : Nat)
  | laneFail (port : Nat)
  | portDown (port : Nat)
  | portTraining (port : Nat) (partner : Partner)
  | rekey (port : Nat)
  | noRoute (owner : Nat)
  -- Power, repair and management
  | regulatorReport (domain vout : BitVec 16) (iout : BitVec 32) (treg eff : BitVec 16) (flux : BitVec 32)
  | dutyDrop (domain d : Nat)
  | dutyRise (domain : Nat)
  | thermalTrip (domain : Nat)
  | marginReplan (margins : List (Nat × Nat))
  | testEnd (quad : Nat) (pass : Bool)
  | powerUp (passed : List Bool)
  | powerLoss
  | orderlyPowerDown
  | recoveryFirmware (version : Nat) (image sig : List Byte)
  | operatorKeyTable (auth : List Byte × List Byte × List Byte) (index : Nat) (key : Option (List Byte))
  | domainsAndMemberLists (auth : List Byte × List Byte × List Byte) (domain : Word) (members : List Word)
  | podn (auth : List Byte × List Byte × List Byte) (n : Nat)
  | hostFacingCxlPort (auth : List Byte × List Byte × List Byte) (port : Nat)
  | migrationThreshold (auth : List Byte × List Byte × List Byte) (n : Nat)
  | fluxCaps (auth : List Byte × List Byte × List Byte) (domain cap : Nat)
  | portThresholds (auth : List Byte × List Byte × List Byte) (margin rate : Nat)
  | debugGateRequest (open_ : Bool)
  deriving DecidableEq, Repr

end Sys2Proof
end

