-- ==== Sys2Proof/WellFormed.lean ====
section
/-! DEFINITION. Which field values an instruction assigns, beyond what the types of its fields already say: every value that fails
here traps ILLEGAL at decode (R95). -/

namespace Sys2Proof

def IntTy.is64 : IntTy → Bool
  | .n64 | .s64 => true
  | _ => false

/-- The types of atomics, `cas`, `ldfe` and `stfe` (R139, R140, R142). -/
def IntTy.is32or64 (t : IntTy) : Bool := 4 ≤ t.bytes

/-- The element types of vector memory (R162). -/
def IntTy.upTo32 (t : IntTy) : Bool := t.bytes ≤ 4

/-- The scalar float formats (R127). -/
def Fmt.scalar : Fmt → Bool
  | .bf16 | .f16 | .f32 => true
  | _ => false

/-- The float formats of `fcvt` (R130). -/
def Fmt.cvt : Fmt → Bool
  | .e4m3 | .e5m2 | .bf16 | .f16 | .f32 => true
  | _ => false

def Fmt.int : Fmt → Bool
  | .s8 | .n8 | .s16 | .s32 => true
  | _ => false

def Reg.isQueue (r : Reg) : Bool := 56 ≤ r.toNat

/-- A shift count in an immediate (R114). -/
def Imm.shiftOk (i : Imm) : Bool := i.zext.toNat < 64

/-- POS of a bit-field immediate (R115). -/
def Imm.pos (i : Imm) : Nat := i.zext.toNat % 64
/-- LEN of a bit-field immediate (R115). -/
def Imm.flen (i : Imm) : Nat := i.zext.toNat / 64 % 128

def Imm.fieldOk (i : Imm) : Bool :=
  i.zext.toNat < 2 ^ 13 && 1 ≤ i.flen && i.flen ≤ 64 && i.pos + i.flen ≤ 64

def AmoOp.tyOk (op : AmoOp) (ty : IntTy) : Bool :=
  match op with
  | .fadd => ty == .n32
  | _ => ty.is32or64

def Cvt.ok : Cvt → Bool
  | .ff d s => d.cvt && s.cvt
  | .fi _ s => s.cvt
  | .if_ d _ => d.cvt

/-- SAT stands on integer lanes only, RND on FP32 lanes only (R158, R167). -/
def LaneTy.modsOk (lt : LaneTy) (sat : Bool) (rnd : Rnd) : Bool :=
  match lt with
  | .f32 => !sat
  | _ => rnd == .slot

/-- The fields of `vred` and `vscan` (R177). -/
def RedOp.ok (op : RedOp) (lt : LaneTy) (sat : Bool) (rnd : Rnd) : Bool :=
  match op with
  | .add => lt.modsOk sat rnd
  | .or => lt == .n32 && !sat && rnd == .slot
  | _ => !sat && rnd == .slot

/-- RND stands on float products only, and KD is 0 or at most 512 (R189). -/
def MmaOp.ok (m : MmaOp) : Bool :=
  m.kd.toNat ≤ 512 && (m.rnd == .slot || (m.sr != .oa && !(m.af.int && m.bf.int)))

/-- The fields each command type assigns (R206). -/
def Cmd0.ok (w : Cmd0) : Bool :=
  (match w.scope with | .th | .cr => false | _ => true)
  && (w.fol == none || w.ty == .copy || w.ty == .nd)
  && (w.ef == .f32 || w.ty == .radd)
  && (w.lay == 0 || w.ty == .nd || w.ty == .gth || w.ty == .sct)

/-- The field values that an instruction of the spec assigns. -/
def Instr.wf : Instr → Bool
  | .mulh _ ty _ _ _ => ty.is64
  | .div _ ty _ _ _ | .rem _ ty _ _ _ => ty.is32or64
  | .shli _ _ _ i | .shri _ _ _ i | .sari _ _ _ i | .roti _ _ _ i => i.shiftOk
  | .ext _ _ _ _ i => 1 ≤ i.zext.toNat && i.zext.toNat ≤ 64
  | .bfx _ _ _ _ i | .bfi _ _ _ _ i => i.fieldOk
  | .mts _ r _ => r == .rmode || r == .wlim || r == .tvec || r == .tscr
  | .fadd _ f _ _ _ _ | .fsub _ f _ _ _ _ | .fmul _ f _ _ _ _ | .ffma _ f _ _ _ _ _ | .fdiv _ f _ _ _ _
  | .fsqrt _ f _ _ _ | .fmin _ f _ _ _ | .fmax _ f _ _ _ | .fcmp _ _ f _ _ _ | .fsgn _ _ f _ _ _
  | .fclass _ f _ _ | .fround _ f _ _ _ => f.scalar
  | .fcvt _ k _ _ _ => k.ok
  | .amo _ op ty _ _ _ | .ramo _ op _ ty _ _ _ _ _ => op.tyOk ty
  | .cas _ ty _ _ _ _ _ | .ldfe _ ty _ _ _ | .stfe _ ty _ _ _ => ty.is32or64
  | .lease _ r _ _ _ _ => r != 0
  | .vld _ ty _ _ _ | .vldc _ ty _ _ _ | .vlds _ ty _ _ _ _ | .vgth _ ty _ _ _ _ _ => ty.upTo32
  | .vst v ty _ _ _ | .vsts v ty _ _ _ _ | .vsct v ty _ _ _ _ _ | .vrst v _ ty _ _ _ _ => ty.upTo32 && !v.z
  | .vamo _ op ty _ _ _ _ _ => ty.upTo32 && op.tyOk ty
  | .vadd _ lt sat rnd _ _ _ | .vsub _ lt sat rnd _ _ _ | .vmul _ lt sat rnd _ _ _
  | .vfma _ lt _ sat rnd _ _ _ => lt.modsOk sat rnd
  | .vdot _ pf sat rnd _ _ _ => pf.lane.modsOk sat rnd
  | .vdiv _ lt rnd _ _ _ => lt.modsOk false rnd
  | .vabs _ lt sat _ _ | .vneg _ lt sat _ _ => lt.modsOk sat .slot
  | .vsat _ _ ty _ _ => ty.upTo32
  | .vpack v _ _ _ _ | .vunpk v _ _ | .vins v _ _ _ _ => v.mask == 7
  | .vred v op lt sat rnd d _ => !v.z && op.ok lt sat rnd && !d.isQueue
  | .vext _ _ d _ _ _ | .vmskCnt _ d _ | .vmskFfs _ d _ => !d.isQueue
  | .vscan _ op lt sat rnd _ _ => op.ok lt sat rnd
  | .tld _ seg _ _ _ _ _ | .tst _ seg _ _ _ _ _ => seg.toNat ≤ 5
  | .mma _ m | .mmaq _ _ _ m => m.ok
  | .adrain _ rnd f _ doff _ _ _ _ => doff.toNat % 8 == 0 && (f != .raw || rnd == .slot)
  | .ared _ op lt rnd _ _ => op != .or && lt != .n32 && (lt == .f32 || rnd == .slot)
  | .ascal _ _ _ _ i => -256 ≤ i.sext.toInt && i.sext.toInt ≤ 255
  | .xpush _ w _ d _ _ _ | .xpushb _ w _ d _ _ _ => w.ok && !d.isQueue
  | .spawn _ narg _ _ _ d _ _ => narg.toNat ≤ 4 && !d.isQueue
  | .rpop _ d c => !d.isQueue && !c.isQueue
  | .cend _ a i => a != 0 || i == 0
  | .bar _ sc _ _ | .barq _ sc _ _ _ | .poll _ sc _ _ _ => sc != .th
  | .qcfgUnbind _ _ i => i.zext == 0
  | _ => true

end Sys2Proof
end

