-- ==== Sys2Proof/Decode.lean ====
section
/-! DEFINITION. The encoding of every instruction (R88 to R107 and the tables of each family), the decoder and the encoder.
`Instr.shape` is the encoding table: the field values that an instruction fixes.  The decoder reads a word's fields, takes the
instruction that the major opcode names with those fields, and refuses the word by name where a field holds a value which the
instruction does not assign. -/

namespace Sys2Proof

/-- What an instruction does with IMM16 and the words above it (R97 to R99). -/
inductive ImmForm where
  | zero                                     -- no immediate: IMM16 must be zero
  | free                                     -- IMM16 is ignored (`nop`)
  | fix (v : BitVec 16)                      -- IMM16 of a 64-bit instruction, field by field
  | imm (i : Imm)                            -- an immediate of either length
  | ext (v : BitVec 16) (x : BitVec 64)      -- IMM16 and X of a 128-bit instruction

/-- The encoding of one instruction: `none` in a register field says that the field is not used, `mdFree` marks the bits of MOD that
are ignored, and `bFree` says that B holds a number which the instruction ignores (R97). -/
structure Shape where
  op : BitVec 8
  hdr : Hdr
  sf : BitVec 2 := 0
  d : Option (BitVec 6) := none
  a : Option (BitVec 6) := none
  b : Option (BitVec 6) := none
  c : Option (BitVec 6) := none
  md : BitVec 8 := 0
  mdFree : BitVec 8 := 0
  bFree : Bool := false
  imm : ImmForm := .zero

/-- The fields of a word as R93, R97, R98 and R99 lay them out; `len` is LEN, and `ext` bits [127:64] (a 96-bit word fills the low
32 bits). -/
structure Fields where
  len : BitVec 2
  op : BitVec 8
  hdr : Hdr
  sf : BitVec 2
  d : BitVec 6
  a : BitVec 6
  b : BitVec 6
  c : BitVec 6
  md : BitVec 8
  imm16 : BitVec 16
  ext : BitVec 64
  deriving DecidableEq, Repr

/-- A field of `w` bits put together from its parts. -/
def fit {n : Nat} (w : Nat) (x : BitVec n) : BitVec w := x.setWidth w

/-- A predicate, mask or tile number in a register field (R100). -/
def fld3 (x : BitVec 3) : Option (BitVec 6) := some (fit 6 x)
def fld4 (x : BitVec 4) : Option (BitVec 6) := some (fit 6 x)
def fld2 (x : BitVec 2) : Option (BitVec 6) := some (fit 6 x)

def bit1 (b : Bool) : BitVec 1 := BitVec.ofBool b

/-- MOD of a memory instruction: OPX, SC, TY (R132). -/
def memMd (opx : BitVec 3) (sc : BitVec 2) (ty : BitVec 3) : BitVec 8 := fit 8 (opx ++ sc ++ ty)

/-- A memory operand fixes SF, A, B, SC and the immediate (R119, R133). -/
def Mem.sf : Mem → BitVec 2
  | .disp _ _ => 0
  | .idx _ _ _ => 1
def Mem.base : Mem → Reg
  | .disp a _ => a
  | .idx a _ _ => a
def Mem.index : Mem → Option Reg
  | .disp _ _ => none
  | .idx _ b _ => some b
def Mem.scale : Mem → BitVec 2
  | .disp _ _ => 0
  | .idx _ _ sc => sc
def Mem.imm : Mem → ImmForm
  | .disp _ i => .imm i
  | .idx _ _ _ => .zero

/-- A memory instruction of R132 and R133. -/
def memShape (op : BitVec 8) (h : Hdr) (m : Mem) (d c : Option Reg) (opx : BitVec 3) (ty : BitVec 3) : Shape :=
  { op, hdr := h, sf := m.sf, d, a := some m.base, b := m.index, c, md := memMd opx m.scale ty, imm := m.imm }

/-- SF of a vector instruction: Z in bit 0 (R157). -/
def VHdr.sf (v : VHdr) : BitVec 2 := fit 2 (0#1 ++ bit1 v.z)

/-- A vector instruction (R157). -/
def vShape (op : BitVec 8) (v : VHdr) (d a b : Option (BitVec 6)) (md : BitVec 8) (imm : ImmForm := .zero) : Shape :=
  { op, hdr := v.hdr, sf := v.sf, d, a, b, c := fld3 v.mask, md, imm }

/-- MOD of lane arithmetic: RND or SAT above LT (R158).  SAT is MOD[2]. -/
def laneMd (lt : LaneTy) (hi : BitVec 4) (m3 sat : Bool) : BitVec 8 := fit 8 (hi ++ bit1 m3 ++ bit1 sat ++ lt.code)

/-- MOD[7:4] of `vdot`, `vred` and `vscan`: RND, or SAT in MOD[4] (R168, R177). -/
def satOrRnd (sat : Bool) (rnd : Rnd) : BitVec 4 := if sat then 1#4 else rnd.code

/-- X of `mma` and `mmaq` (R189). -/
def MmaOp.x (m : MmaOp) : BitVec 64 :=
  fit 64 (0#37 ++ bit1 m.clr ++ m.arow ++ m.kd ++ m.bf.code ++ m.af.code ++ m.sr.code)

/-- `mma` and `mmaq`: C, for which the table of R189 gives 0, is a register field that the instruction does not use, so R97 ignores it
(DEDUCED log 89). -/
def mmaShape (op : BitVec 8) (h : Hdr) (m : MmaOp) (imm : BitVec 16) : Shape :=
  { op, hdr := h, d := fld2 m.acc, a := fld3 m.ta, b := fld3 m.tb, md := fit 8 (m.rnd.code ++ 0#4), imm := .ext imm m.x }

def folCode : Option FReg → BitVec 3
  | none => 0
  | some f => fit 3 (1#1 ++ f)

/-- X of `xpush` and `xpushb`: word 0 of the command (R206). -/
def Cmd0.x (w : Cmd0) : BitVec 64 :=
  fit 64 (w.len ++ w.lay ++ w.ef.code ++ folCode w.fol ++ bit1 w.lvl ++ w.scope.code ++ bit1 w.rel ++ bit1 w.acq ++ w.ty.code)

/-- MOD, IMM16 and SF of `fcvt` (R130). -/
def Cvt.sf : Cvt → BitVec 2
  | .ff _ _ => 0 | .fi _ _ => 1 | .if_ _ _ => 2
def Cvt.md : Cvt → BitVec 4
  | .ff d _ => d.code | .fi d _ => fit 4 (0#1 ++ d.code) | .if_ _ s => fit 4 (0#1 ++ s.code)
def Cvt.imm : Cvt → BitVec 16
  | .ff _ s => fit 16 (0#12 ++ s.code) | .fi _ s => fit 16 (0#12 ++ s.code) | .if_ d _ => fit 16 (0#12 ++ d.code)

/-- IMM16 of `vcvt` (R173). -/
def vcvtImm (d s : Elt) : BitVec 16 := fit 16 (0#6 ++ bit1 s.natural ++ bit1 d.natural ++ s.code ++ d.code)

/-- A queue register as an operand that is named and not read (R243, R244). -/
def qReg (q : BitVec 3) : Option Reg := some (fit 6 (7#3 ++ q))

/-- The encoding of each instruction; an event has none. -/
def Instr.shape : Instr → Option Shape
  | .nop h => some { op := 0x01, hdr := h, imm := .free }
  | .add h d a b => some { op := 0x02, hdr := h, d, a, b }
  | .addi h d a i => some { op := 0x03, hdr := h, d, a, imm := .imm i }
  | .sub h d a b => some { op := 0x04, hdr := h, d, a, b }
  | .rsbi h d a i => some { op := 0x05, hdr := h, d, a, imm := .imm i }
  | .mul h d a b => some { op := 0x06, hdr := h, d, a, b }
  | .muli h d a i => some { op := 0x07, hdr := h, d, a, imm := .imm i }
  | .mulh h ty d a b => some { op := 0x08, hdr := h, d, a, b, md := fit 8 (0#5 ++ ty.code) }
  | .mad h d a b c => some { op := 0x09, hdr := h, d, a, b, c }
  | .div h ty d a b => some { op := 0x0A, hdr := h, d, a, b, md := fit 8 (0#5 ++ ty.code) }
  | .rem h ty d a b => some { op := 0x0B, hdr := h, d, a, b, md := fit 8 (0#5 ++ ty.code) }
  | .min h ty d a b => some { op := 0x0C, hdr := h, d, a, b, md := fit 8 (0#5 ++ ty.code) }
  | .max h ty d a b => some { op := 0x0D, hdr := h, d, a, b, md := fit 8 (0#5 ++ ty.code) }
  | .and h d a b => some { op := 0x0E, hdr := h, d, a, b }
  | .andi h d a i => some { op := 0x0F, hdr := h, d, a, imm := .imm i }
  | .or h d a b => some { op := 0x10, hdr := h, d, a, b }
  | .ori h d a i => some { op := 0x11, hdr := h, d, a, imm := .imm i }
  | .xor h d a b => some { op := 0x12, hdr := h, d, a, b }
  | .xori h d a i => some { op := 0x13, hdr := h, d, a, imm := .imm i }
  | .andn h d a b => some { op := 0x14, hdr := h, d, a, b }
  | .shl h d a b => some { op := 0x15, hdr := h, d, a, b }
  | .shli h d a i => some { op := 0x16, hdr := h, d, a, imm := .imm i }
  | .shr h d a b => some { op := 0x17, hdr := h, d, a, b }
  | .shri h d a i => some { op := 0x18, hdr := h, d, a, imm := .imm i }
  | .sar h d a b => some { op := 0x19, hdr := h, d, a, b }
  | .sari h d a i => some { op := 0x1A, hdr := h, d, a, imm := .imm i }
  | .rot h d a b => some { op := 0x1B, hdr := h, d, a, b }
  | .roti h d a i => some { op := 0x1C, hdr := h, d, a, imm := .imm i }
  | .clz h d a => some { op := 0x1D, hdr := h, d, a }
  | .ctz h d a => some { op := 0x1E, hdr := h, d, a }
  | .popc h d a => some { op := 0x1F, hdr := h, d, a }
  | .brev h d a => some { op := 0x20, hdr := h, d, a }
  | .bswap h d a => some { op := 0x21, hdr := h, d, a }
  | .ext h sg d a i => some { op := 0x22, hdr := h, d, a, md := fit 8 (0#5 ++ bit1 sg ++ 0#2), imm := .imm i }
  | .bfx h sg d a i => some { op := 0x23, hdr := h, d, a, md := fit 8 (0#5 ++ bit1 sg ++ 0#2), imm := .imm i }
  | .bfi h d a b i => some { op := 0x24, hdr := h, d, a, b, imm := .imm i }
  | .crc h k d a b => some { op := 0x25, hdr := h, d, a, b, md := fit 8 (0#6 ++ k) }
  | .hash h d a b => some { op := 0x26, hdr := h, d, a, b }
  | .li h d i => some { op := 0x27, hdr := h, d, imm := .imm i }
  | .lih h d a i => some { op := 0x28, hdr := h, d, a, imm := .imm i }
  | .lea h d m => some { op := 0x29, hdr := h, sf := m.sf, d, a := some m.base, b := m.index, md := fit 8 (0#6 ++ m.scale), imm := m.imm }
  | .mov h d a => some { op := 0x2A, hdr := h, d, a }
  | .sel h d a b c => some { op := 0x2B, hdr := h, d, a, b, c := fld3 c }
  | .cmp h cond ty d a b => some { op := 0x2C, hdr := h, d := fld3 d, a, b, md := fit 8 (0#2 ++ cond.code ++ ty.code) }
  | .cmpi h cond ty d a i => some { op := 0x2D, hdr := h, d := fld3 d, a, md := fit 8 (0#2 ++ cond.code ++ ty.code), imm := .imm i }
  | .plog h tt d a b => some { op := 0x2E, hdr := h, d := fld3 d, a := fld3 a, b := fld3 b, md := fit 8 (0#4 ++ tt) }
  | .pmov h d a => some { op := 0x2F, hdr := h, d := fld3 d, a }
  | .pmovToGeneral h d a => some { op := 0x2F, hdr := h, sf := 1, d, a := fld3 a }
  | .pmovGet h d => some { op := 0x2F, hdr := h, sf := 2, d }
  | .pmovSet h a => some { op := 0x2F, hdr := h, sf := 3, a }
  | .br h i => some { op := 0x30, hdr := h, imm := .imm i }
  | .call h i => some { op := 0x31, hdr := h, imm := .imm i }
  | .ret h a => some { op := 0x32, hdr := h, a }
  | .jmp h a i => some { op := 0x33, hdr := h, a, imm := .imm i }
  | .callr h a => some { op := 0x34, hdr := h, a }
  | .mfs h r d => some { op := 0x35, hdr := h, d, imm := .fix (fit 16 (0#4 ++ r.code)) }
  | .mts h r a => some { op := 0x36, hdr := h, a, imm := .fix (fit 16 (0#4 ++ r.code)) }
  | .rseedWrite h a => some { op := 0x36, hdr := h, a, imm := .fix 0x002 }
  | .fflagsWrite h a => some { op := 0x36, hdr := h, a, imm := .fix 0x003 }
  | .ringbWrite h a => some { op := 0x36, hdr := h, a, imm := .fix 0x020 }
  | .ringlWrite h a => some { op := 0x36, hdr := h, a, imm := .fix 0x021 }
  | .tdescWrite h t a => some { op := 0x36, hdr := h, a, imm := .fix (fit 16 (0#4 ++ (SysReg.tdesc t).code)) }
  | .trap h i => some { op := 0x37, hdr := h, imm := .imm i }
  | .brk h i => some { op := 0x38, hdr := h, imm := .fix i }
  | .tret h a => some { op := 0x39, hdr := h, a }
  | .fadd h f rnd d a b => some { op := 0x40, hdr := h, d, a, b, md := fit 8 (rnd.code ++ f.code) }
  | .fsub h f rnd d a b => some { op := 0x41, hdr := h, d, a, b, md := fit 8 (rnd.code ++ f.code) }
  | .fmul h f rnd d a b => some { op := 0x42, hdr := h, d, a, b, md := fit 8 (rnd.code ++ f.code) }
  | .ffma h f rnd d a b c => some { op := 0x43, hdr := h, d, a, b, c, md := fit 8 (rnd.code ++ f.code) }
  | .fdiv h f rnd d a b => some { op := 0x44, hdr := h, d, a, b, md := fit 8 (rnd.code ++ f.code) }
  | .fsqrt h f rnd d a => some { op := 0x45, hdr := h, d, a, md := fit 8 (rnd.code ++ f.code) }
  | .fmin h f d a b => some { op := 0x46, hdr := h, d, a, b, md := fit 8 (0#4 ++ f.code) }
  | .fmax h f d a b => some { op := 0x47, hdr := h, d, a, b, md := fit 8 (0#4 ++ f.code) }
  | .fcmp h cond f d a b => some { op := 0x48, hdr := h, d := fld3 d, a, b, md := fit 8 (cond.code ++ f.code) }
  | .fcvt h k rnd d a => some { op := 0x49, hdr := h, sf := k.sf, d, a, md := fit 8 (rnd.code ++ k.md), imm := .fix k.imm }
  | .fsgn h op f d a b => some { op := 0x4A, hdr := h, d, a, b, md := fit 8 (op.code ++ f.code) }
  | .fclass h f d a => some { op := 0x4B, hdr := h, d, a, md := fit 8 (0#4 ++ f.code) }
  | .fround h f rnd d a => some { op := 0x4C, hdr := h, d, a, md := fit 8 (rnd.code ++ f.code) }
  | .ld h ty d m => some (memShape 0x50 h m d none 0 ty.code)
  | .st h ty m c => some (memShape 0x51 h m none c 0 ty.code)
  | .ldc h ty d m => some (memShape 0x52 h m d none 0 ty.code)
  | .amo h op ty d m c => some (memShape 0x53 h m d c op.code ty.code)
  | .cas h ty d a i b c => some { op := 0x54, hdr := h, d, a, b, c, md := memMd 0 0 ty.code, imm := .imm i }
  | .ldfe h ty keep d m => some (memShape 0x55 h m d none (fit 3 (0#2 ++ bit1 keep)) ty.code)
  | .stfe h ty ovr m c => some (memShape 0x56 h m none c (fit 3 (0#2 ++ bit1 ovr)) ty.code)
  | .feset h full m => some (memShape 0x57 h m none none (fit 3 (0#2 ++ bit1 full)) 0)
  | .feqry h d m => some (memShape 0x58 h m (fld3 d) none 0 0)
  | .waita h cond ty d m c => some (memShape 0x59 h m d c cond.code ty.code)
  | .fence h sc => some { op := 0x5A, hdr := h, md := fit 8 (0#5 ++ sc.code) }
  | .touch h d m => some (memShape 0x5B h m d none 0 0)
  | .lease h r d a i b => some { op := 0x5C, hdr := h, d, a, b, md := fit 8 (r ++ 0#4), imm := .imm i }
  | .pref h llc m => some (memShape 0x5D h m none none (fit 3 (0#2 ++ bit1 llc)) 0)
  | .msg h a c i => some { op := 0x5E, hdr := h, a, c, imm := .imm i }
  | .wait h d i => some { op := 0x5F, hdr := h, d, md := memMd 0 0 0, imm := .imm i }
  | .waitWk h d i => some { op := 0x5F, hdr := h, d, md := memMd 1 0 0, imm := .imm i }
  | .wake h a => some { op := 0x60, hdr := h, a }
  | .bankcfg h mode d a => some { op := 0x61, hdr := h, d, a, md := fit 8 (0#6 ++ mode.code) }
  | .ramo h op wk ty d a b i c => some { op := 0x62, hdr := h, d, a, b, c, md := fit 8 (op.code ++ 0#1 ++ bit1 wk ++ ty.code), imm := .imm i }
  | .rst h wk ty a b i c => some { op := 0x63, hdr := h, a, b, c, md := fit 8 (0#4 ++ bit1 wk ++ ty.code), imm := .imm i }
  | .rld h ty d a b i => some { op := 0x64, hdr := h, d, a, b, md := fit 8 (0#5 ++ ty.code), imm := .imm i }
  | .vld v ty d a i => some (vShape 0x70 v (fld4 d) a none (memMd 0 0 ty.code) (.imm i))
  | .vst v ty d a i => some (vShape 0x71 v (fld4 d) a none (memMd 0 0 ty.code) (.imm i))
  | .vlds v ty d a b i => some (vShape 0x72 v (fld4 d) a b (memMd 0 0 ty.code) (.imm i))
  | .vsts v ty d a b i => some (vShape 0x73 v (fld4 d) a b (memMd 0 0 ty.code) (.imm i))
  | .vldc v ty d a i => some (vShape 0x74 v (fld4 d) a none (memMd 0 0 ty.code) (.imm i))
  | .vgth v ty sc d a b i => some (vShape 0x75 v (fld4 d) a (fld4 b) (memMd 0 sc ty.code) (.imm i))
  | .vsct v ty sc d a b i => some (vShape 0x76 v (fld4 d) a (fld4 b) (memMd 0 sc ty.code) (.imm i))
  | .vrst v wk ty d a b i => some (vShape 0x77 v (fld4 d) a b (memMd (fit 3 (0#2 ++ bit1 wk)) 0 ty.code) (.imm i))
  | .vamo v op ty sc d a b i => some (vShape 0x78 v (fld4 d) a (fld4 b) (memMd op.code sc ty.code) (.imm i))
  | .vadd v lt sat rnd d a b => some (vShape 0x79 v (fld4 d) (fld4 a) (fld4 b) (laneMd lt rnd.code false sat))
  | .vsub v lt sat rnd d a b => some (vShape 0x7A v (fld4 d) (fld4 a) (fld4 b) (laneMd lt rnd.code false sat))
  | .vmul v lt sat rnd d a b => some (vShape 0x7B v (fld4 d) (fld4 a) (fld4 b) (laneMd lt rnd.code false sat))
  | .vfma v lt neg sat rnd d a b => some (vShape 0x7C v (fld4 d) (fld4 a) (fld4 b) (laneMd lt rnd.code neg sat))
  | .vdot v pf sat rnd d a b => some (vShape 0x7D v (fld4 d) (fld4 a) (fld4 b) (fit 8 (satOrRnd sat rnd ++ pf.code ++ pf.lane.code)))
  | .vdiv v lt rnd d a b => some (vShape 0x7E v (fld4 d) (fld4 a) (fld4 b) (laneMd lt rnd.code false false))
  | .vsqrt v rnd d a => some (vShape 0x7F v (fld4 d) (fld4 a) none (laneMd .f32 rnd.code false false))
  | .vmin v lt d a b => some (vShape 0x80 v (fld4 d) (fld4 a) (fld4 b) (laneMd lt 0 false false))
  | .vmax v lt d a b => some (vShape 0x81 v (fld4 d) (fld4 a) (fld4 b) (laneMd lt 0 false false))
  | .vabs v lt sat d a => some (vShape 0x82 v (fld4 d) (fld4 a) none (laneMd lt 0 false sat))
  | .vneg v lt sat d a => some (vShape 0x83 v (fld4 d) (fld4 a) none (laneMd lt 0 false sat))
  | .vsgn v op d a b => some { vShape 0x84 v (fld4 d) (fld4 a) (fld4 b) (laneMd .f32 op.code false false) with bFree := op == .abs || op == .neg }
  | .vand v d a b => some (vShape 0x85 v (fld4 d) (fld4 a) (fld4 b) 0)
  | .vor v d a b => some (vShape 0x86 v (fld4 d) (fld4 a) (fld4 b) 0)
  | .vxor v d a b => some (vShape 0x87 v (fld4 d) (fld4 a) (fld4 b) 0)
  | .vshl v d a b => some (vShape 0x88 v (fld4 d) (fld4 a) (fld4 b) 0)
  | .vshr v d a b => some (vShape 0x89 v (fld4 d) (fld4 a) (fld4 b) 0)
  | .vsar v d a b => some (vShape 0x8A v (fld4 d) (fld4 a) (fld4 b) 0)
  | .vcnt v op d a => some (vShape 0x8B v (fld4 d) (fld4 a) none (laneMd .n32 op.code false false))
  | .vcmp v cond d a b => some (vShape 0x8C v (fld3 d) (fld4 a) (fld4 b) (laneMd cond.lane cond.code false false))
  | .vsel h d a b c => some { op := 0x8D, hdr := h, d := fld4 d, a := fld4 a, b := fld4 b, c := fld3 c }
  | .vmsk h tt d a b => some { op := 0x8E, hdr := h, d := fld3 d, a := fld3 a, b := fld3 b, md := fit 8 (0#4 ++ tt) }
  | .vmskCnt h d a => some { op := 0x8E, hdr := h, sf := 1, d, a := fld3 a }
  | .vmskFfs h d a => some { op := 0x8E, hdr := h, sf := 2, d, a := fld3 a }
  | .vmskFirst h d b => some { op := 0x8E, hdr := h, sf := 3, d := fld3 d, b }
  | .vcvt v e1 e2 rnd d a => some (vShape 0x8F v (fld4 d) (fld4 a) none (fit 8 (rnd.code ++ 0#4)) (.fix (vcvtImm e1 e2)))
  | .vsat v sg ty d a => some (vShape 0x90 v (fld4 d) (fld4 a) none (fit 8 (0#1 ++ ty.code ++ 0#3 ++ bit1 sg)))
  | .vpack v ty rnd d a => some (vShape 0x91 v (fld4 d) (fld4 a) none (fit 8 (rnd.code ++ ty.code ++ 2#2)))
  | .vunpk v d a => some { vShape 0x92 v (fld4 d) (fld4 a) none 2 with mdFree := 0xFC }
  | .vperm v d a b => some (vShape 0x93 v (fld4 d) (fld4 a) (fld4 b) 0)
  | .vshf v d a b i => some (vShape 0x94 v (fld4 d) (fld4 a) (fld4 b) 0 (.imm i))
  | .vbcast v d a => some (vShape 0x95 v (fld4 d) a none 0)
  | .vins v d a b i => some (vShape 0x96 v (fld4 d) a b 0 (.imm i))
  | .vext h sg d a b i => some { op := 0x97, hdr := h, d, a := fld4 a, b, c := some 7, md := fit 8 (0#7 ++ bit1 sg), imm := .imm i }
  | .vidx v d a i => some (vShape 0x98 v (fld4 d) a none 0 (.imm i))
  | .vmov v d a => some (vShape 0x99 v (fld4 d) (fld4 a) none 0)
  | .vred v op lt sat rnd d a => some (vShape 0x9A v d (fld4 a) none (fit 8 (satOrRnd sat rnd ++ op.code ++ lt.code)))
  | .vscan v op lt sat rnd d a => some (vShape 0x9B v (fld4 d) (fld4 a) none (fit 8 (satOrRnd sat rnd ++ op.code ++ lt.code)))
  | .vrcp v rnd d a => some (vShape 0x9C v (fld4 d) (fld4 a) none (laneMd .f32 rnd.code false false))
  | .vrsq v rnd d a => some (vShape 0x9D v (fld4 d) (fld4 a) none (laneMd .f32 rnd.code false false))
  | .vexp2 v rnd d a => some (vShape 0x9E v (fld4 d) (fld4 a) none (laneMd .f32 rnd.code false false))
  | .vlog2 v rnd d a => some (vShape 0x9F v (fld4 d) (fld4 a) none (laneMd .f32 rnd.code false false))
  | .tld h seg d a i b c => some { op := 0xA0, hdr := h, d := fld3 d, a, b, c, md := fit 8 (0#5 ++ seg), imm := .imm i }
  | .tst h seg d a i b c => some { op := 0xA1, hdr := h, d := fld3 d, a, b, c, md := fit 8 (0#5 ++ seg), imm := .imm i }
  | .tzero h d => some { op := 0xA2, hdr := h, d := fld3 d }
  | .tmov h d a => some { op := 0xA3, hdr := h, d := fld3 d, a := fld3 a }
  | .tfill h d a i => some { op := 0xA4, hdr := h, d := fld3 d, a, imm := .imm i }
  | .mma h m => some (mmaShape 0xA5 h m 0)
  | .mmaq h f nt m => some (mmaShape 0xA6 h m (fit 16 (0#12 ++ nt ++ f)))
  | .mwait h => some { op := 0xA7, hdr := h }
  | .mwaitF h d f => some { op := 0xA7, hdr := h, sf := 1, d, a := fld2 f }
  | .azero h d => some { op := 0xA8, hdr := h, d := fld2 d }
  | .aload h d a i b => some { op := 0xA9, hdr := h, d := fld2 d, a, b, imm := .imm i }
  | .aread h d a i b => some { op := 0xAA, hdr := h, d := fld2 d, a, b, imm := .imm i }
  | .acvt h rnd d a => some { op := 0xAB, hdr := h, d := fld3 d, a := fld2 a, md := fit 8 (rnd.code ++ 0#4) }
  | .adrain h rnd f za doff d a b c => some { op := 0xAC, hdr := h, d := fld2 d, a, b, c, md := fit 8 (rnd.code ++ 0#4), imm := .ext 0 (fit 64 (0#36 ++ bit1 za ++ f.code ++ doff)) }
  | .ared h op lt rnd d a => some { op := 0xAD, hdr := h, d := fld4 d, a := fld2 a, c := some 7, md := fit 8 (rnd.code ++ op.code ++ lt.code) }
  | .ascal h int rnd d i => some { op := 0xAE, hdr := h, d := fld2 d, md := fit 8 (rnd.code ++ 0#3 ++ bit1 int), imm := .imm i }
  | .xpush h w val d a b c => some { op := 0xB0, hdr := h, d, a, b, c, imm := .ext val w.x }
  | .xpushb h w val d a b c => some { op := 0xB1, hdr := h, d, a, b, c, imm := .ext val w.x }
  | .xlay h a id => some { op := 0xB2, hdr := h, a, imm := .fix (fit 16 (0#8 ++ id)) }
  | .xseal h d => some { op := 0xB3, hdr := h, d }
  | .xwait h lv d i => some { op := 0xB4, hdr := h, d, md := fit 8 (0#7 ++ bit1 lv), imm := .imm i }
  | .xstat h d a => some { op := 0xB5, hdr := h, d, a }
  | .xstatSum h d => some { op := 0xB5, hdr := h, sf := 1, d }
  | .xstatP h d a => some { op := 0xB5, hdr := h, sf := 2, d, a }
  | .xcan h batch d a => some { op := 0xB6, hdr := h, sf := fit 2 (0#1 ++ bit1 batch), d, a }
  | .xres h a => some { op := 0xB7, hdr := h, a }
  | .spawn h narg cdl join noin d a b => some { op := 0xB8, hdr := h, d, a, b, imm := .ext 0 (fit 64 (0#58 ++ bit1 noin ++ bit1 join ++ bit1 cdl ++ narg)) }
  | .dec h a i => some { op := 0xB9, hdr := h, a, imm := .imm i }
  | .rpush h a b c => some { op := 0xBA, hdr := h, a, b, c }
  | .rpop h d c => some { op := 0xBB, hdr := h, d, c }
  | .cnew h home rstrt hi d a i b c => some { op := 0xBC, hdr := h, d, a, b, c, md := fit 8 (0#4 ++ bit1 hi ++ bit1 rstrt ++ home), imm := .imm i }
  | .cend h a i => some { op := 0xBD, hdr := h, a, imm := .fix i }
  | .tend h => some { op := 0xBE, hdr := h }
  | .tprio h hi => some { op := 0xBF, hdr := h, md := fit 8 (0#7 ++ bit1 hi) }
  | .nest h minch a b c => some { op := 0xC0, hdr := h, a, b, c, imm := .ext 0 (fit 64 (0#48 ++ minch)) }
  | .next h d i => some { op := 0xC1, hdr := h, d, imm := .imm i }
  | .bar h sc id b => some { op := 0xC2, hdr := h, b, md := fit 8 (0#5 ++ sc.code), imm := .fix (fit 16 (0#12 ++ id)) }
  | .barq h sc id d b => some { op := 0xC3, hdr := h, d, b, md := fit 8 (0#5 ++ sc.code), imm := .fix (fit 16 (0#12 ++ id)) }
  | .poll h sc id d a => some { op := 0xC4, hdr := h, d := fld3 d, a, md := fit 8 (0#5 ++ sc.code), imm := .fix (fit 16 (0#12 ++ id)) }
  | .qcfgBind h q a i => some { op := 0xC5, hdr := h, d := qReg q, a, md := 1, imm := .imm i }
  | .qcfgUnbind h q i => some { op := 0xC5, hdr := h, d := qReg q, a := some 0, imm := .imm i }
  | .qsts h d q => some { op := 0xC6, hdr := h, d, a := qReg q }
  | .place h dx dy d a => some { op := 0xC7, hdr := h, d, a, imm := .fix (fit 16 (dy ++ dx)) }
  | .placeLin h d a => some { op := 0xC7, hdr := h, sf := 1, d, a }
  | .placeQuay h d a => some { op := 0xC7, hdr := h, sf := 2, d, a }
  | .gang h d a => some { op := 0xC8, hdr := h, d, a }
  | .chk h a => some { op := 0xC9, hdr := h, a }
  | .anew h pl d a i => some { op := 0xD0, hdr := h, d, a, md := fit 8 (0#6 ++ pl.code), imm := .imm i }
  | .ahand h d a b => some { op := 0xD1, hdr := h, d, a, b }
  | .aend h d a => some { op := 0xD2, hdr := h, d, a }
  | .aqry h d a => some { op := 0xD3, hdr := h, d, a }
  | .wpresAdd h d a => some { op := 0xD4, hdr := h, d, a, b := some 0, imm := .ext 0 0 }
  | .wpresChild h d a b => some { op := 0xD4, hdr := h, d, a, b, imm := .ext 0 1 }
  | .wsplit h cls d a b c => some { op := 0xD5, hdr := h, d, a, b, c, imm := .ext 0 (fit 64 (0#62 ++ cls.code)) }
  | .wdeleg h cls d a b c => some { op := 0xD6, hdr := h, d, a, b, c, imm := .ext 0 (fit 64 (0#62 ++ cls.code)) }
  | .wsurr h d a => some { op := 0xD7, hdr := h, d, a }
  | .wqry h q d a => some { op := 0xD8, hdr := h, d, a, imm := .fix (fit 16 (0#8 ++ q.code)) }
  | .tnow h d => some { op := 0xD9, hdr := h, d }
  | .attest h d a b => some { op := 0xDA, hdr := h, d, a, b }
  | .klease h d a => some { op := 0xDB, hdr := h, d, a }
  | _ => none

/-- LEN of an encoding (R88): the immediate's length, or the one R107 gives the opcode. -/
def ImmForm.len : ImmForm → BitVec 2
  | .zero | .free | .fix _ | .imm (.short _) => 0
  | .imm (.long _) => 1
  | .ext _ _ => 2

def ImmForm.imm16 : ImmForm → BitVec 16
  | .zero | .free => 0
  | .fix v | .imm (.short v) | .ext v _ => v
  | .imm (.long v) => v.extractLsb' 0 16

def ImmForm.high : ImmForm → BitVec 64
  | .zero | .free | .fix _ | .imm (.short _) => 0
  | .imm (.long v) => fit 64 (v.extractLsb' 16 32)
  | .ext _ x => x

/-- The fields an assembler writes: an unused field is zero (R97). -/
def Shape.fields (s : Shape) : Fields :=
  { len := s.imm.len, op := s.op, hdr := s.hdr, sf := s.sf, d := s.d.getD 0, a := s.a.getD 0, b := s.b.getD 0,
    c := s.c.getD 0, md := s.md, imm16 := s.imm.imm16, ext := s.imm.high }

/-- Why the decoder refuses a word.  Each of them traps ILLEGAL where the word would issue (R95). -/
inductive Reject where
  | fill          -- LEN 0b11 and not the fill word (R89)
  | opcode        -- an unassigned major opcode (R106)
  | length        -- a length the opcode does not allow (R107)
  | form          -- a value of SF that is not assigned (R93)
  | modifier      -- a value of MOD that is not assigned (R102 to R105)
  | immediate     -- an IMM16 that is not assigned (R97)
  | extension     -- a value of X that is not assigned (R99)
  | register      -- a register field outside its class (R100)
  | value         -- a field value outside the set the instruction allows
  deriving DecidableEq, Repr

/-- A used register field must hold the number the instruction was read with; an unused one is ignored (R97). -/
def regOk (want : Option (BitVec 6)) (have_ : BitVec 6) : Bool :=
  match want with
  | none => true
  | some r => r == have_

def ImmForm.imm16Ok (f : ImmForm) (v : BitVec 16) : Bool :=
  match f with
  | .free => true
  | f => f.imm16 == v

/-- Compare a word's fields with the encoding of the instruction read from it. -/
def Shape.check (s : Shape) (f : Fields) : Option Reject :=
  if s.imm.len != f.len then some .length
  else if s.sf != f.sf then some .form
  else if (s.md ^^^ f.md) &&& (~~~ s.mdFree) != 0 then some .modifier
  else if !(s.imm.imm16Ok f.imm16) then some .immediate
  else if s.imm.high != f.ext then some .extension
  else if !(regOk s.d f.d && regOk s.a f.a && (s.bFree || regOk s.b f.b) && regOk s.c f.c) then some .register
  else none

namespace Fields

def p3 (x : BitVec 6) : BitVec 3 := x.extractLsb' 0 3
def p4 (x : BitVec 6) : BitVec 4 := x.extractLsb' 0 4
def p2 (x : BitVec 6) : BitVec 2 := x.extractLsb' 0 2

/-- The immediate at the word's own length. -/
def imm (f : Fields) : Imm :=
  if f.len = 1 then .long (fit 48 (f.ext.extractLsb' 0 32 ++ f.imm16)) else .short f.imm16

def ty (f : Fields) : IntTy := .ofCode (f.md.extractLsb' 0 3)
def fmt (f : Fields) : Fmt := .ofCode (f.md.extractLsb' 0 4)
def rnd (f : Fields) : Rnd := .ofCode (f.md.extractLsb' 4 4)
def sc (f : Fields) : BitVec 2 := f.md.extractLsb' 3 2
def opx (f : Fields) : BitVec 3 := f.md.extractLsb' 5 3
def bit (f : Fields) (n : Nat) : Bool := f.md.getLsbD n
def lane (f : Fields) : LaneTy := .ofCode (f.md.extractLsb' 0 2)
def v (f : Fields) : VHdr := ⟨f.hdr, f.sf.getLsbD 0, p3 f.c⟩
def mem (f : Fields) : Mem := if f.sf = 1 then .idx f.a f.b f.sc else .disp f.a f.imm
def leaMem (f : Fields) : Mem := if f.sf = 1 then .idx f.a f.b (f.md.extractLsb' 0 2) else .disp f.a f.imm
def id4 (f : Fields) : BitVec 4 := f.imm16.extractLsb' 0 4
/-- SAT in MOD[4] belongs to the integer forms, RND to the FP32 forms (R168, R177). -/
def satI (f : Fields) (lt : LaneTy) : Bool := if lt = .f32 then false else f.md.getLsbD 4
def rndF (f : Fields) (lt : LaneTy) : Rnd := if lt = .f32 then f.rnd else .slot

def mma (f : Fields) : MmaOp :=
  { acc := p2 f.d, ta := p3 f.a, tb := p3 f.b, rnd := f.rnd, sr := .ofCode (f.ext.extractLsb' 0 2),
    af := .ofCode (f.ext.extractLsb' 2 4), bf := .ofCode (f.ext.extractLsb' 6 4), kd := f.ext.extractLsb' 10 10,
    arow := f.ext.extractLsb' 20 6, clr := f.ext.getLsbD 26 }

def cmd0 (f : Fields) : Cmd0 :=
  { ty := .ofCode (f.ext.extractLsb' 0 4), acq := f.ext.getLsbD 4, rel := f.ext.getLsbD 5,
    scope := .ofCode (f.ext.extractLsb' 6 3), lvl := f.ext.getLsbD 9,
    fol := if f.ext.getLsbD 12 then some (f.ext.extractLsb' 10 2) else none,
    ef := .ofCode (f.ext.extractLsb' 13 3), lay := f.ext.extractLsb' 16 8, len := f.ext.extractLsb' 24 40 }

def cvt (f : Fields) : Cvt :=
  match f.sf.toNat with
  | 0 => .ff f.fmt (.ofCode (f.imm16.extractLsb' 0 4))
  | 1 => .fi f.ty (.ofCode (f.imm16.extractLsb' 0 4))
  | _ => .if_ (.ofCode (f.imm16.extractLsb' 0 4)) f.ty

def mtsForm (f : Fields) : Instr :=
  match f.imm16.toNat with
  | 0x002 => .rseedWrite f.hdr f.a
  | 0x003 => .fflagsWrite f.hdr f.a
  | 0x020 => .ringbWrite f.hdr f.a
  | 0x021 => .ringlWrite f.hdr f.a
  | 0x010 => .tdescWrite f.hdr 0 f.a
  | 0x011 => .tdescWrite f.hdr 1 f.a
  | 0x012 => .tdescWrite f.hdr 2 f.a
  | 0x013 => .tdescWrite f.hdr 3 f.a
  | 0x014 => .tdescWrite f.hdr 4 f.a
  | 0x015 => .tdescWrite f.hdr 5 f.a
  | 0x016 => .tdescWrite f.hdr 6 f.a
  | 0x017 => .tdescWrite f.hdr 7 f.a
  | _ => .mts f.hdr (.ofCode (f.imm16.extractLsb' 0 12)) f.a

/-- The instruction of a major opcode with these fields, opcodes 0x00 to 0x3F (R106). -/
def readScalar (f : Fields) : Option Instr :=
  match f.op.toNat with
  | 0x01 => some (.nop f.hdr)
  | 0x02 => some (.add f.hdr f.d f.a f.b)
  | 0x03 => some (.addi f.hdr f.d f.a f.imm)
  | 0x04 => some (.sub f.hdr f.d f.a f.b)
  | 0x05 => some (.rsbi f.hdr f.d f.a f.imm)
  | 0x06 => some (.mul f.hdr f.d f.a f.b)
  | 0x07 => some (.muli f.hdr f.d f.a f.imm)
  | 0x08 => some (.mulh f.hdr f.ty f.d f.a f.b)
  | 0x09 => some (.mad f.hdr f.d f.a f.b f.c)
  | 0x0A => some (.div f.hdr f.ty f.d f.a f.b)
  | 0x0B => some (.rem f.hdr f.ty f.d f.a f.b)
  | 0x0C => some (.min f.hdr f.ty f.d f.a f.b)
  | 0x0D => some (.max f.hdr f.ty f.d f.a f.b)
  | 0x0E => some (.and f.hdr f.d f.a f.b)
  | 0x0F => some (.andi f.hdr f.d f.a f.imm)
  | 0x10 => some (.or f.hdr f.d f.a f.b)
  | 0x11 => some (.ori f.hdr f.d f.a f.imm)
  | 0x12 => some (.xor f.hdr f.d f.a f.b)
  | 0x13 => some (.xori f.hdr f.d f.a f.imm)
  | 0x14 => some (.andn f.hdr f.d f.a f.b)
  | 0x15 => some (.shl f.hdr f.d f.a f.b)
  | 0x16 => some (.shli f.hdr f.d f.a f.imm)
  | 0x17 => some (.shr f.hdr f.d f.a f.b)
  | 0x18 => some (.shri f.hdr f.d f.a f.imm)
  | 0x19 => some (.sar f.hdr f.d f.a f.b)
  | 0x1A => some (.sari f.hdr f.d f.a f.imm)
  | 0x1B => some (.rot f.hdr f.d f.a f.b)
  | 0x1C => some (.roti f.hdr f.d f.a f.imm)
  | 0x1D => some (.clz f.hdr f.d f.a)
  | 0x1E => some (.ctz f.hdr f.d f.a)
  | 0x1F => some (.popc f.hdr f.d f.a)
  | 0x20 => some (.brev f.hdr f.d f.a)
  | 0x21 => some (.bswap f.hdr f.d f.a)
  | 0x22 => some (.ext f.hdr (f.bit 2) f.d f.a f.imm)
  | 0x23 => some (.bfx f.hdr (f.bit 2) f.d f.a f.imm)
  | 0x24 => some (.bfi f.hdr f.d f.a f.b f.imm)
  | 0x25 => some (.crc f.hdr (f.md.extractLsb' 0 2) f.d f.a f.b)
  | 0x26 => some (.hash f.hdr f.d f.a f.b)
  | 0x27 => some (.li f.hdr f.d f.imm)
  | 0x28 => some (.lih f.hdr f.d f.a f.imm)
  | 0x29 => some (.lea f.hdr f.d f.leaMem)
  | 0x2A => some (.mov f.hdr f.d f.a)
  | 0x2B => some (.sel f.hdr f.d f.a f.b (p3 f.c))
  | 0x2C => some (.cmp f.hdr (.ofCode (f.md.extractLsb' 3 3)) f.ty (p3 f.d) f.a f.b)
  | 0x2D => some (.cmpi f.hdr (.ofCode (f.md.extractLsb' 3 3)) f.ty (p3 f.d) f.a f.imm)
  | 0x2E => some (.plog f.hdr (f.md.extractLsb' 0 4) (p3 f.d) (p3 f.a) (p3 f.b))
  | 0x2F => some (match f.sf.toNat with
    | 0 => .pmov f.hdr (p3 f.d) f.a
    | 1 => .pmovToGeneral f.hdr f.d (p3 f.a)
    | 2 => .pmovGet f.hdr f.d
    | _ => .pmovSet f.hdr f.a)
  | 0x30 => some (.br f.hdr f.imm)
  | 0x31 => some (.call f.hdr f.imm)
  | 0x32 => some (.ret f.hdr f.a)
  | 0x33 => some (.jmp f.hdr f.a f.imm)
  | 0x34 => some (.callr f.hdr f.a)
  | 0x35 => some (.mfs f.hdr (.ofCode (f.imm16.extractLsb' 0 12)) f.d)
  | 0x36 => some f.mtsForm
  | 0x37 => some (.trap f.hdr f.imm)
  | 0x38 => some (.brk f.hdr f.imm16)
  | 0x39 => some (.tret f.hdr f.a)
  | _ => none

/-- Opcodes 0x40 to 0x6F. -/
def readFloatMem (f : Fields) : Option Instr :=
  match f.op.toNat with
  | 0x40 => some (.fadd f.hdr f.fmt f.rnd f.d f.a f.b)
  | 0x41 => some (.fsub f.hdr f.fmt f.rnd f.d f.a f.b)
  | 0x42 => some (.fmul f.hdr f.fmt f.rnd f.d f.a f.b)
  | 0x43 => some (.ffma f.hdr f.fmt f.rnd f.d f.a f.b f.c)
  | 0x44 => some (.fdiv f.hdr f.fmt f.rnd f.d f.a f.b)
  | 0x45 => some (.fsqrt f.hdr f.fmt f.rnd f.d f.a)
  | 0x46 => some (.fmin f.hdr f.fmt f.d f.a f.b)
  | 0x47 => some (.fmax f.hdr f.fmt f.d f.a f.b)
  | 0x48 => some (.fcmp f.hdr (.ofCode (f.md.extractLsb' 4 4)) f.fmt (p3 f.d) f.a f.b)
  | 0x49 => some (.fcvt f.hdr f.cvt f.rnd f.d f.a)
  | 0x4A => some (.fsgn f.hdr (.ofCode (f.md.extractLsb' 4 4)) f.fmt f.d f.a f.b)
  | 0x4B => some (.fclass f.hdr f.fmt f.d f.a)
  | 0x4C => some (.fround f.hdr f.fmt f.rnd f.d f.a)
  | 0x50 => some (.ld f.hdr f.ty f.d f.mem)
  | 0x51 => some (.st f.hdr f.ty f.mem f.c)
  | 0x52 => some (.ldc f.hdr f.ty f.d f.mem)
  | 0x53 => some (.amo f.hdr (.ofCode f.opx) f.ty f.d f.mem f.c)
  | 0x54 => some (.cas f.hdr f.ty f.d f.a f.imm f.b f.c)
  | 0x55 => some (.ldfe f.hdr f.ty (f.bit 5) f.d f.mem)
  | 0x56 => some (.stfe f.hdr f.ty (f.bit 5) f.mem f.c)
  | 0x57 => some (.feset f.hdr (f.bit 5) f.mem)
  | 0x58 => some (.feqry f.hdr (p3 f.d) f.mem)
  | 0x59 => some (.waita f.hdr (.ofCode f.opx) f.ty f.d f.mem f.c)
  | 0x5A => some (.fence f.hdr (.ofCode (f.md.extractLsb' 0 3)))
  | 0x5B => some (.touch f.hdr f.d f.mem)
  | 0x5C => some (.lease f.hdr (f.md.extractLsb' 4 4) f.d f.a f.imm f.b)
  | 0x5D => some (.pref f.hdr (f.bit 5) f.mem)
  | 0x5E => some (.msg f.hdr f.a f.c f.imm)
  | 0x5F => some (if f.bit 5 then .waitWk f.hdr f.d f.imm else .wait f.hdr f.d f.imm)
  | 0x60 => some (.wake f.hdr f.a)
  | 0x61 => some (.bankcfg f.hdr (.ofCode (f.md.extractLsb' 0 2)) f.d f.a)
  | 0x62 => some (.ramo f.hdr (.ofCode f.opx) (f.bit 3) f.ty f.d f.a f.b f.imm f.c)
  | 0x63 => some (.rst f.hdr (f.bit 3) f.ty f.a f.b f.imm f.c)
  | 0x64 => some (.rld f.hdr f.ty f.d f.a f.b f.imm)
  | _ => none

/-- Opcodes 0x70 to 0x9F. -/
def readVector (f : Fields) : Option Instr :=
  match f.op.toNat with
  | 0x70 => some (.vld f.v f.ty (p4 f.d) f.a f.imm)
  | 0x71 => some (.vst f.v f.ty (p4 f.d) f.a f.imm)
  | 0x72 => some (.vlds f.v f.ty (p4 f.d) f.a f.b f.imm)
  | 0x73 => some (.vsts f.v f.ty (p4 f.d) f.a f.b f.imm)
  | 0x74 => some (.vldc f.v f.ty (p4 f.d) f.a f.imm)
  | 0x75 => some (.vgth f.v f.ty f.sc (p4 f.d) f.a (p4 f.b) f.imm)
  | 0x76 => some (.vsct f.v f.ty f.sc (p4 f.d) f.a (p4 f.b) f.imm)
  | 0x77 => some (.vrst f.v (f.bit 5) f.ty (p4 f.d) f.a f.b f.imm)
  | 0x78 => some (.vamo f.v (.ofCode f.opx) f.ty f.sc (p4 f.d) f.a (p4 f.b) f.imm)
  | 0x79 => some (.vadd f.v f.lane (f.bit 2) f.rnd (p4 f.d) (p4 f.a) (p4 f.b))
  | 0x7A => some (.vsub f.v f.lane (f.bit 2) f.rnd (p4 f.d) (p4 f.a) (p4 f.b))
  | 0x7B => some (.vmul f.v f.lane (f.bit 2) f.rnd (p4 f.d) (p4 f.a) (p4 f.b))
  | 0x7C => some (.vfma f.v f.lane (f.bit 3) (f.bit 2) f.rnd (p4 f.d) (p4 f.a) (p4 f.b))
  | 0x7D =>
    let pf := DotFmt.ofCode (f.md.extractLsb' 2 2)
    some (.vdot f.v pf (f.satI pf.lane) (f.rndF pf.lane) (p4 f.d) (p4 f.a) (p4 f.b))
  | 0x7E => some (.vdiv f.v f.lane f.rnd (p4 f.d) (p4 f.a) (p4 f.b))
  | 0x7F => some (.vsqrt f.v f.rnd (p4 f.d) (p4 f.a))
  | 0x80 => some (.vmin f.v f.lane (p4 f.d) (p4 f.a) (p4 f.b))
  | 0x81 => some (.vmax f.v f.lane (p4 f.d) (p4 f.a) (p4 f.b))
  | 0x82 => some (.vabs f.v f.lane (f.bit 2) (p4 f.d) (p4 f.a))
  | 0x83 => some (.vneg f.v f.lane (f.bit 2) (p4 f.d) (p4 f.a))
  | 0x84 => some (.vsgn f.v (.ofCode (f.md.extractLsb' 4 4)) (p4 f.d) (p4 f.a) (p4 f.b))
  | 0x85 => some (.vand f.v (p4 f.d) (p4 f.a) (p4 f.b))
  | 0x86 => some (.vor f.v (p4 f.d) (p4 f.a) (p4 f.b))
  | 0x87 => some (.vxor f.v (p4 f.d) (p4 f.a) (p4 f.b))
  | 0x88 => some (.vshl f.v (p4 f.d) (p4 f.a) (p4 f.b))
  | 0x89 => some (.vshr f.v (p4 f.d) (p4 f.a) (p4 f.b))
  | 0x8A => some (.vsar f.v (p4 f.d) (p4 f.a) (p4 f.b))
  | 0x8B => some (.vcnt f.v (.ofCode (f.md.extractLsb' 4 4)) (p4 f.d) (p4 f.a))
  | 0x8C => some (.vcmp f.v (.ofCode (f.md.extractLsb' 0 2) (f.md.extractLsb' 4 4)) (p3 f.d) (p4 f.a) (p4 f.b))
  | 0x8D => some (.vsel f.hdr (p4 f.d) (p4 f.a) (p4 f.b) (p3 f.c))
  | 0x8E => some (match f.sf.toNat with
    | 0 => .vmsk f.hdr (f.md.extractLsb' 0 4) (p3 f.d) (p3 f.a) (p3 f.b)
    | 1 => .vmskCnt f.hdr f.d (p3 f.a)
    | 2 => .vmskFfs f.hdr f.d (p3 f.a)
    | _ => .vmskFirst f.hdr (p3 f.d) f.b)
  | 0x8F => some (.vcvt f.v (.ofCode (f.imm16.extractLsb' 0 4) (f.imm16.getLsbD 8))
      (.ofCode (f.imm16.extractLsb' 4 4) (f.imm16.getLsbD 9)) f.rnd (p4 f.d) (p4 f.a))
  | 0x90 => some (.vsat f.v (f.bit 0) (.ofCode (f.md.extractLsb' 4 3)) (p4 f.d) (p4 f.a))
  | 0x91 => some (.vpack f.v (.ofCode (f.md.extractLsb' 2 2)) f.rnd (p4 f.d) (p4 f.a))
  | 0x92 => some (.vunpk f.v (p4 f.d) (p4 f.a))
  | 0x93 => some (.vperm f.v (p4 f.d) (p4 f.a) (p4 f.b))
  | 0x94 => some (.vshf f.v (p4 f.d) (p4 f.a) (p4 f.b) f.imm)
  | 0x95 => some (.vbcast f.v (p4 f.d) f.a)
  | 0x96 => some (.vins f.v (p4 f.d) f.a f.b f.imm)
  | 0x97 => some (.vext f.hdr (f.bit 0) f.d (p4 f.a) f.b f.imm)
  | 0x98 => some (.vidx f.v (p4 f.d) f.a f.imm)
  | 0x99 => some (.vmov f.v (p4 f.d) (p4 f.a))
  | 0x9A => some (.vred f.v (.ofCode (f.md.extractLsb' 2 2)) f.lane (f.satI f.lane) (f.rndF f.lane) f.d (p4 f.a))
  | 0x9B => some (.vscan f.v (.ofCode (f.md.extractLsb' 2 2)) f.lane (f.satI f.lane) (f.rndF f.lane) (p4 f.d) (p4 f.a))
  | 0x9C => some (.vrcp f.v f.rnd (p4 f.d) (p4 f.a))
  | 0x9D => some (.vrsq f.v f.rnd (p4 f.d) (p4 f.a))
  | 0x9E => some (.vexp2 f.v f.rnd (p4 f.d) (p4 f.a))
  | 0x9F => some (.vlog2 f.v f.rnd (p4 f.d) (p4 f.a))
  | _ => none

/-- Opcodes 0xA0 to 0xB7. -/
def readMatrixEngine (f : Fields) : Option Instr :=
  match f.op.toNat with
  | 0xA0 => some (.tld f.hdr (f.md.extractLsb' 0 3) (p3 f.d) f.a f.imm f.b f.c)
  | 0xA1 => some (.tst f.hdr (f.md.extractLsb' 0 3) (p3 f.d) f.a f.imm f.b f.c)
  | 0xA2 => some (.tzero f.hdr (p3 f.d))
  | 0xA3 => some (.tmov f.hdr (p3 f.d) (p3 f.a))
  | 0xA4 => some (.tfill f.hdr (p3 f.d) f.a f.imm)
  | 0xA5 => some (.mma f.hdr f.mma)
  | 0xA6 => some (.mmaq f.hdr (f.imm16.extractLsb' 0 2) (f.imm16.extractLsb' 2 2) f.mma)
  | 0xA7 => some (if f.sf = 1 then .mwaitF f.hdr f.d (p2 f.a) else .mwait f.hdr)
  | 0xA8 => some (.azero f.hdr (p2 f.d))
  | 0xA9 => some (.aload f.hdr (p2 f.d) f.a f.imm f.b)
  | 0xAA => some (.aread f.hdr (p2 f.d) f.a f.imm f.b)
  | 0xAB => some (.acvt f.hdr f.rnd (p3 f.d) (p2 f.a))
  | 0xAC => some (.adrain f.hdr f.rnd (.ofCode (f.ext.extractLsb' 22 5)) (f.ext.getLsbD 27) (f.ext.extractLsb' 0 22)
      (p2 f.d) f.a f.b f.c)
  | 0xAD => some (.ared f.hdr (.ofCode (f.md.extractLsb' 2 2)) f.lane f.rnd (p4 f.d) (p2 f.a))
  | 0xAE => some (.ascal f.hdr (f.bit 0) f.rnd (p2 f.d) f.imm)
  | 0xB0 => some (.xpush f.hdr f.cmd0 f.imm16 f.d f.a f.b f.c)
  | 0xB1 => some (.xpushb f.hdr f.cmd0 f.imm16 f.d f.a f.b f.c)
  | 0xB2 => some (.xlay f.hdr f.a (f.imm16.extractLsb' 0 8))
  | 0xB3 => some (.xseal f.hdr f.d)
  | 0xB4 => some (.xwait f.hdr (f.bit 0) f.d f.imm)
  | 0xB5 => some (match f.sf.toNat with
    | 0 => .xstat f.hdr f.d f.a
    | 1 => .xstatSum f.hdr f.d
    | _ => .xstatP f.hdr f.d f.a)
  | 0xB6 => some (.xcan f.hdr (f.sf.getLsbD 0) f.d f.a)
  | 0xB7 => some (.xres f.hdr f.a)
  | _ => none

/-- Opcodes 0xB8 to 0xFF. -/
def readTask (f : Fields) : Option Instr :=
  match f.op.toNat with
  | 0xB8 => some (.spawn f.hdr (f.ext.extractLsb' 0 3) (f.ext.getLsbD 3) (f.ext.getLsbD 4) (f.ext.getLsbD 5) f.d f.a f.b)
  | 0xB9 => some (.dec f.hdr f.a f.imm)
  | 0xBA => some (.rpush f.hdr f.a f.b f.c)
  | 0xBB => some (.rpop f.hdr f.d f.c)
  | 0xBC => some (.cnew f.hdr (f.md.extractLsb' 0 2) (f.bit 2) (f.bit 3) f.d f.a f.imm f.b f.c)
  | 0xBD => some (.cend f.hdr f.a f.imm16)
  | 0xBE => some (.tend f.hdr)
  | 0xBF => some (.tprio f.hdr (f.bit 0))
  | 0xC0 => some (.nest f.hdr (f.ext.extractLsb' 0 16) f.a f.b f.c)
  | 0xC1 => some (.next f.hdr f.d f.imm)
  | 0xC2 => some (.bar f.hdr (.ofCode (f.md.extractLsb' 0 3)) f.id4 f.b)
  | 0xC3 => some (.barq f.hdr (.ofCode (f.md.extractLsb' 0 3)) f.id4 f.d f.b)
  | 0xC4 => some (.poll f.hdr (.ofCode (f.md.extractLsb' 0 3)) f.id4 (p3 f.d) f.a)
  | 0xC5 => some (if f.bit 0 then .qcfgBind f.hdr (p3 f.d) f.a f.imm else .qcfgUnbind f.hdr (p3 f.d) f.imm)
  | 0xC6 => some (.qsts f.hdr f.d (p3 f.a))
  | 0xC7 => some (match f.sf.toNat with
    | 0 => .place f.hdr (f.imm16.extractLsb' 0 8) (f.imm16.extractLsb' 8 8) f.d f.a
    | 1 => .placeLin f.hdr f.d f.a
    | _ => .placeQuay f.hdr f.d f.a)
  | 0xC8 => some (.gang f.hdr f.d f.a)
  | 0xC9 => some (.chk f.hdr f.a)
  | 0xD0 => some (.anew f.hdr (.ofCode (f.md.extractLsb' 0 2)) f.d f.a f.imm)
  | 0xD1 => some (.ahand f.hdr f.d f.a f.b)
  | 0xD2 => some (.aend f.hdr f.d f.a)
  | 0xD3 => some (.aqry f.hdr f.d f.a)
  | 0xD4 => some (if f.ext.getLsbD 0 then .wpresChild f.hdr f.d f.a f.b else .wpresAdd f.hdr f.d f.a)
  | 0xD5 => some (.wsplit f.hdr (.ofCode (f.ext.extractLsb' 0 2)) f.d f.a f.b f.c)
  | 0xD6 => some (.wdeleg f.hdr (.ofCode (f.ext.extractLsb' 0 2)) f.d f.a f.b f.c)
  | 0xD7 => some (.wsurr f.hdr f.d f.a)
  | 0xD8 => some (.wqry f.hdr (.ofCode (f.imm16.extractLsb' 0 8)) f.d f.a)
  | 0xD9 => some (.tnow f.hdr f.d)
  | 0xDA => some (.attest f.hdr f.d f.a f.b)
  | 0xDB => some (.klease f.hdr f.d f.a)
  | _ => none

/-- The instruction that the major opcode names, with the word's fields. -/
def read (f : Fields) : Option Instr :=
  if f.op < 0x40 then f.readScalar
  else if f.op < 0x70 then f.readFloatMem
  else if f.op < 0xA0 then f.readVector
  else if f.op < 0xB8 then f.readMatrixEngine
  else f.readTask

/-- The fields of a word of 128 bits, of which the instruction's length counts (R97 to R99): bits above the length are not the
instruction's. -/
def ofRaw (w : BitVec 128) : Fields :=
  let len := w.extractLsb' 0 2
  { len, op := w.extractLsb' 2 8, hdr := ⟨w.extractLsb' 10 3, w.getLsbD 13⟩, sf := w.extractLsb' 14 2,
    d := w.extractLsb' 16 6, a := w.extractLsb' 22 6, b := w.extractLsb' 28 6, c := w.extractLsb' 34 6,
    md := w.extractLsb' 40 8, imm16 := w.extractLsb' 48 16,
    ext := if len = 0 then 0 else if len = 1 then fit 64 (w.extractLsb' 64 32) else w.extractLsb' 64 64 }

/-- The word that holds these fields. -/
def toRaw (f : Fields) : BitVec 128 :=
  fit 128 (f.ext ++ f.imm16 ++ f.md ++ f.c ++ f.b ++ f.a ++ f.d ++ f.sf ++ bit1 f.hdr.pn ++ f.hdr.pg ++ f.op ++ f.len)

end Fields

/-- Length in bytes of a LEN code (R88). -/
def lenBytes (len : BitVec 2) : Nat :=
  match len.toNat with
  | 0 => 8
  | 1 => 12
  | 2 => 16
  | _ => 4

/-- Decode the fields of a word: the legality checks of R95 that do not depend on the slot. -/
def decodeFields (f : Fields) : Except Reject Instr :=
  if f.len = 3 then .error .fill
  else match f.read with
    | none => .error .opcode
    | some i =>
      match i.shape with
      | none => .error .opcode
      | some s =>
        match s.check f with
        | some r => .error r
        | none => if i.wf then .ok i else .error .value

/-- Decode a word whose first byte is its least significant one. -/
def decodeWord (w : BitVec 128) : Except Reject Instr := decodeFields (.ofRaw w)

/-- The fields of a well-formed instruction's word; an event has no word. -/
def encodeFields (i : Instr) : Option Fields := i.shape.map Shape.fields

/-- The word of an instruction, of 128 bits, zero above its length. -/
def encode (i : Instr) : Option (BitVec 128) := (encodeFields i).map Fields.toRaw

/-- The length in bytes of an instruction's word. -/
def Instr.bytes (i : Instr) : Nat :=
  match i.shape with
  | none => 0
  | some s => lenBytes s.imm.len

/-- Little-endian value of the first `n` bytes of a list, the missing bytes zero (R7, R88). -/
def leNat : Nat → List Byte → Nat
  | 0, _ => 0
  | _, [] => 0
  | n + 1, b :: t => b.toNat + 256 * leNat n t

/-- `n` bytes of a number, least significant first. -/
def leBytes : Nat → Nat → List Byte
  | 0, _ => []
  | n + 1, v => BitVec.ofNat 8 v :: leBytes n (v / 256)

/-- Decode the bytes at an instruction's address: the instruction and its length in bytes.  Bytes that are missing refuse the word. -/
def decodeBytes (bs : List Byte) : Except Reject (Instr × Nat) :=
  match bs with
  | [] => .error .length
  | b :: _ =>
    let n := lenBytes (b.extractLsb' 0 2)
    if bs.length < n then .error .length
    else match decodeWord (BitVec.ofNat 128 (leNat n bs)) with
      | .ok i => .ok (i, n)
      | .error r => .error r

/-- The bytes of an instruction as memory holds them. -/
def encodeBytes (i : Instr) : List Byte :=
  match encode i with
  | none => []
  | some w => leBytes i.bytes w.toNat

/-- The instruction that the decoder reads from an instruction whose bits are `w`, bit 0 the least significant bit of its first
byte; the bits above `nbits` are zero. -/
def decodeTableWord (nbits w : Nat) : Option Instr :=
  match decodeBytes (leBytes 16 (w % 2 ^ nbits)) with
  | .ok (i, _) => some i
  | .error _ => none

end Sys2Proof
end

