-- ==== Sys2Proof/Config.lean ====
section
/-! DEFINITION. What the spec leaves to the part or leaves open.  A constant without a body is a free value: nothing in Lean can
evaluate it, and a claim about it holds whatever it is (log entries 1 and 2). -/

namespace Sys2Proof.Config

/-- The forms of the part (R1): bare package, module, module with host. -/
inductive Form where
  | bare | module_ | host
  deriving DecidableEq, Repr, Inhabited

/-- Which form the part is (DESIGN CHOICE log 2). -/
opaque form : Form

/-- The ordering code of a form, "TKS-960" with a letter behind it (R1, R421). -/
def Form.code (f : Form) : List Byte :=
  let letter : Byte := match f with | .bare => 0x00 | .module_ => 0x4D | .host => 0x48
  [0x54, 0x4B, 0x53, 0x2D, 0x39, 0x36, 0x30, letter]

/-- The ordering code an `attest` report names. -/
def orderingCode : List Byte := form.code

/-- Core cycles in one lighthouse microsecond at the 1.75 GHz core clock (R4). -/
def cyclesPerMicro : Nat := 1750

/-- A choice among `n` possibilities that the spec leaves open, by the counter of free values (DESIGN CHOICE log 1). -/
opaque freeChoice : Nat → Nat
/-- A free word, by the counter of free values: the result of an operation to which the spec gives no value (DESIGN CHOICE log 1). -/
opaque freeWord : Nat → Word
/-- A byte drawn from the root of trust (R310, R317), by the counter of free values and its place in the draw (DESIGN CHOICE log 1). -/
opaque randomByte : Nat → Nat → Byte
/-- Bytes drawn from the root of trust. -/
def randomBytes (f n : Nat) : List Byte := (List.range n).map (randomByte f)
/-- Whether something that may happen now does, by the counter of free values (DESIGN CHOICE log 1). -/
opaque freeKeep : Nat → Bool
/-- Which LLC slice is home to a line (R332): no program sees it (DESIGN CHOICE log 2). -/
opaque homeSlice : Nat → Nat
/-- Which of the cache-way banks of a quad holds a line (R332): no program sees it (DESIGN CHOICE log 2). -/
opaque homeWay : Nat → Nat
/-- Whether the plaintext of a sector fits into a compressed frame (R384): the method is not given (DESIGN CHOICE log 2). -/
opaque compresses : List Byte → Bool

/-- An error that storage may suffer (R381, R385 to R389): damaged symbols of a sector, a map row or an overflow row at rest; a reserved map
entry; a word of quad SRAM or LLC data by its memory key, a line of the LLC by its tag, its directory entry or a fabric buffer; a register
of a slot, a tile byte or accumulator cell of a core, an entry of a queue register; a word on a die that the code corrects, by its owner;
a saved image of a context; an error of the shared fabric above the threshold, or below it again; a word of a line in the cache ways of a
quad; the packet of a message in the inbox of a slot; a result of one half-slab of the oldest slab instruction of a core. -/
inductive Upset where
  | sector (n symbols : Nat)
  | mapRow (n symbols : Nat)
  | overflowRow (n symbols : Nat)
  | mapEntry (sector : Nat)
  | word (key : Nat)
  | line (n : Nat)
  | register (slot n : Nat)
  | descriptor (core tile : Nat)
  | tile (core n : Nat)
  | acc (core n : Nat)
  | queue (core q pos : Nat)
  | corrected (owner : Nat)
  | image (owner : Nat)
  | fabric (above : Bool)
  | wayWord (quad line off : Nat)
  | packet (slot pos : Nat)
  | result (core : Nat)
  deriving DecidableEq, Repr

/-- The error that strikes in a core cycle, if one does, by the counter of free values (DESIGN CHOICE log 79). -/
opaque upset : Nat → Option Upset

/-- Verification of a Falcon-1024 signature in its padded encoding: public key, signed message, signature (R299, DESIGN CHOICE log 2).  The spec
names the algorithm and does not give it. -/
opaque falconVerify : List Byte → List Byte → List Byte → Bool
/-- The signature the device identity key gives to a message (R253, R421), by the counter of free values (DESIGN CHOICE log 2). -/
opaque falconSign : Nat → List Byte → List Byte
/-- The device identity public key, generated at manufacture (R420, DESIGN CHOICE log 2). -/
opaque identityKey : List Byte
/-- The Goraris vendor root public key (R397, R418, DESIGN CHOICE log 2). -/
opaque vendorKey : List Byte
/-- The public key of a member chip of a domain, by its CHIP identity (R303, R305, DESIGN CHOICE log 2). -/
opaque memberKey : Word → List Byte
/-- A boot image: its bytes, its signature and its security version (R418). -/
structure StageImage where
  bytes : List Byte := []
  sig : List Byte := []
  version : Nat := 0
  deriving DecidableEq, Repr, Inhabited

/-- The images of the boot stages 1 to 3 that the part holds from manufacture (R418, R421, DESIGN CHOICE log 2). -/
opaque stageImage : Nat → StageImage
/-- The certificate that a certifier's key gives to a key (R420, DESIGN CHOICE log 2). -/
opaque certificate : List Byte → List Byte → List Byte
/-- What a regulator measures of its domain, by the counter of free values and the domain: VOUT, IOUT, TREG, EFF and FLUX (R414, DESIGN CHOICE log 1). -/
opaque measured : Nat → Nat → BitVec 16 × BitVec 32 × BitVec 16 × BitVec 16 × BitVec 32
/-- The vendor limit of the heat flux of a domain in mW/mm² (R415, DESIGN CHOICE log 2). -/
opaque fluxLimit : Nat → Nat
/-- The order in which the pulses of a domain's clock are suppressed, by their number: the spec says how many of 64 go, not which (R415, DESIGN
CHOICE log 92). -/
opaque pulseOrder : Nat → Nat
/-- The lease table and the gang width of an image's entry procedure (R83, R87, R236), which the linked program carries beside the
image string: by the image digest, a list of base, length and rights, and the gang record if there is one (DESIGN CHOICE log 10). -/
opaque imageTables : List Byte → List (Nat × Nat × BitVec 4) × Option Nat
/-- CXL memory at the memory-facing ports in bytes (DESIGN CHOICE log 2). -/
opaque cxlAttached : Nat
/-- The CXL capacity of the package: at most 8 TiB (R4, R313). -/
def cxlCapacity : Nat := Nat.min cxlAttached (8 * 2 ^ 40)
/-- Whether a host is attached (R287, R400, DESIGN CHOICE log 2). -/
opaque hostAttached : Bool
/-- Whether the other packages of a presentation with NPKG > 1 grant the window (R315), by the counter of free values (DESIGN CHOICE log 11). -/
opaque peersGrant : Nat → Bool
/-- Where in the host's memory an image or a test package stands (R405), by the counter of free values (DESIGN CHOICE log 1). -/
opaque hostAddress : Nat → Word
/-- What the host's memory holds of an image when a build reads it again, by the counter of free values and the image as it was presented
(R317, DESIGN CHOICE log 81). -/
opaque hostImage : Nat → List Byte → List Byte
/-- The timing margin below which a half-slab is retired (R398, DESIGN CHOICE log 2). -/
opaque marginLimit : Nat

end Sys2Proof.Config
end

