-- ==== Sys2Proof/Machine/Shake.lean ====
section
/-! DEFINITION. SHAKE256 of FIPS 202, the digest that R85, R299, R303, R305 and R326 name. -/

namespace Sys2Proof.Machine

/-- Rotation offsets of the lanes x + 5 y: lane (1, 0) and its followers (y, 2 x + 3 y) take the triangular numbers modulo 64, lane (0, 0)
takes 0. -/
def rotWalk : Nat → Nat → Nat → Nat → List (Nat × Nat)
  | 0, _, _, _ => []
  | n + 1, t, x, y => (x + 5 * y, t * (t + 1) / 2 % 64) :: rotWalk n (t + 1) y ((2 * x + 3 * y) % 5)

def rotOf (n : Nat) : Nat := (((rotWalk 24 1 1 0).find? fun e => e.1 == n).map (·.2)).getD 0

def rotTable : List Nat := (List.range 25).map rotOf

/-- One step of the generator of the round constants, an 8-bit register with feedback 0x71. -/
def rcStep (r : Nat) : Nat := if r / 128 = 0 then 2 * r else Nat.xor (2 * r - 256) 0x71

/-- A round constant and the register after its seven bits: bit j of the seven stands at place 2^j − 1. -/
def rcOf : Nat → Nat → Nat → Word → Word × Nat
  | 0, _, r, w => (w, r)
  | n + 1, j, r, w => rcOf n (j + 1) (rcStep r) (if r % 2 = 1 then w ||| BitVec.ofNat 64 (2 ^ (2 ^ j - 1)) else w)

/-- The round constants of `n` rounds. -/
def roundConsts : Nat → Nat → List Word
  | 0, _ => []
  | n + 1, r => (rcOf 7 0 r 0).1 :: roundConsts n (rcOf 7 0 r 0).2

def lane (a : List Word) (n : Nat) : Word := a.getD n 0

/-- One round of Keccak-f[1600]. -/
def keccakRound (a : List Word) (rc : Word) : List Word :=
  let c := (List.range 5).map fun x => (List.range 5).foldl (fun v y => v ^^^ lane a (x + 5 * y)) 0
  let d := (List.range 5).map fun x => lane c ((x + 4) % 5) ^^^ (lane c ((x + 1) % 5)).rotateLeft 1
  let t := (List.range 25).map fun n => lane a n ^^^ lane d (n % 5)
  let b := (List.range 25).map fun n =>
    let src := (n % 5 + 3 * (n / 5)) % 5 + 5 * (n % 5)
    (lane t src).rotateLeft (rotTable.getD src 0)
  let e := (List.range 25).map fun n =>
    let y := n / 5 * 5
    lane b n ^^^ (~~~ lane b (y + (n + 1) % 5) &&& lane b (y + (n + 2) % 5))
  match e with
  | [] => []
  | z :: t => (z ^^^ rc) :: t

def keccak (a : List Word) : List Word := (roundConsts 24 1).foldl keccakRound a

/-- Eight bytes as a lane, least significant first. -/
def laneOf (bs : List Byte) : Word := bs.foldr (fun b v => (v <<< 8) ||| b.zeroExtend 64) 0

/-- Absorb blocks of 136 bytes. -/
def absorb : Nat → List Byte → List Word → List Word
  | 0, _, a => a
  | n + 1, m, a =>
    absorb n (m.drop 136) (keccak ((List.range 25).map fun i =>
      if i < 17 then lane a i ^^^ laneOf ((m.drop (8 * i)).take 8) else lane a i))

/-- Bytes of a lane. -/
def laneBytes (w : Word) : List Byte := (List.range 8).map fun i => w.extractLsb' (8 * i) 8

/-- The message with the padding of SHAKE256. -/
def shakePad (m : List Byte) : List Byte :=
  let z := 135 - m.length % 136
  if z = 0 then m ++ [0x9F] else m ++ [0x1F] ++ List.replicate (z - 1) 0 ++ [0x80]

/-- The first `n` bytes of SHAKE256, n at most 136. -/
def shake256 (m : List Byte) (n : Nat) : List Byte :=
  let p := shakePad m
  ((absorb (p.length / 136) p (List.replicate 25 0)).flatMap laneBytes).take n

/-- The 32-byte key hash of R299. -/
def keyHash (key : List Byte) : List Byte := shake256 key 32

/-- The CHIP identity of a public key: the first 8 bytes of its SHAKE256 (R305). -/
def keyChip (key : List Byte) : Word :=
  BitVec.ofNat 64 ((shake256 key 8).foldr (fun b n => b.toNat + 256 * n) 0)

end Sys2Proof.Machine
end

