-- ==== Sys2Proof/Machine/State.lean ====
section
/-! DEFINITION. The state of a TKS-960 package: everything the spec gives it, as plain data, and the state after reset.  Tables are
kept by number: a slot is named by its owner and TID (R36, R313), a core by the TID of its slot 0, a quad by the TID of slot 0 of its
core 0.  A number that a table does not list reads as the build value, so every register holds a value (R9, R21). -/

namespace Sys2Proof.Machine

/-- Why a thread waits (R144, R287): the object of the wait, from which TVAL and the releasers of R287 and R288 follow. -/
inductive Wait where
  | qPop (q : Nat)
  | qPush (q : Nat)
  | fe (ea : Word) (key : Nat)        -- `ldfe`, `stfe`: address and memory key of the 8-byte word
  | addr (ea : Word) (key : Nat)      -- `waita`
  | inbox
  | latch
  | bar (scope : Scope) (unit : Nat) (id : BitVec 4) (phase : BitVec 32)
  | msg (place : Word) (target : Nat)
  | ring (place : Word) (core : Nat)
  | fifo                               -- `xpush` on a full FIFO, `xseal`, `xwait`
  | follow (f : FReg) (done : Bool)    -- `mmaq` (false), `mwait.f` (true)
  | lease (ea : Word)                  -- pages not yet resident
  | engine                             -- the admission engine's answer (R228)
  deriving DecidableEq, Repr

/-- A slot blocked in a wait (R144): the instruction it waits with and its general operands, the cycle since which it waits, its place
in the order of waiters (R280) and the limit that applies. -/
structure Block where
  instr : Instr
  srcs : List Reg
  dst : Option Reg
  wait : Wait
  since : Nat
  ticket : Nat
  limit : Nat
  own : Bool := true     -- false: the instruction of a checked pair as a whole waits (R394)
  popped : List Word := []   -- queue entries that a barrier arrival has taken (R285)
  deriving DecidableEq, Repr

/-- A pending trap (R355, R365). -/
structure Pend where
  cause : BitVec 8
  late : Bool
  pc : Word
  tval : Word
  tseq : BitVec 32
  lvl : Bool             -- the trap level at which its instruction was dispatched or issued (R355)
  need : BitVec 4 := 0   -- the rights its access needed (R338)
  deriving DecidableEq, Repr

/-- What a slot of a checked pair offers its partner to compare (R394). -/
structure Offer where
  instr : Instr
  args : List Word
  deriving DecidableEq, Repr

/-- A logical time: 48 bits, compared modulo 2^48 (R260, R265). -/
abbrev Time := BitVec 48

/-- WTS and RTS of a line at its home, or of an inbox or latch (R258, R260) (DESIGN CHOICE log 4). -/
structure Line where
  wts : Time := 0
  rts : Time := 1
  deriving DecidableEq, Repr

/-- A thread slot (R21, R31 to R36, R55, R146, R230, R238, R260). -/
structure Slot where
  g : Tab Word := []                     -- g1 to g55
  p : BitVec 7 := 0                      -- p0 to p6
  m : Tab (BitVec 256) := []             -- m0 to m6
  v : Tab Lane := []                     -- lane l of v register r at 256 r + l
  i : Tab (BitVec 32) := []              -- i0 to i3
  pc : Word := 0
  rm : BitVec 3 := 0                     -- RMODE.RM
  fzi : Bool := false
  fzo : Bool := false
  fen : BitVec 5 := 0
  rseed : Word := 0
  fflags : BitVec 5 := 0
  wlim : BitVec 32 := 0
  cause : BitVec 8 := 0                  -- TCAUSE.CAUSE
  late : Bool := false                   -- TCAUSE.LATE
  txpc : Word := 0
  tval : Word := 0
  tseq : BitVec 32 := 0
  tscr : Word := 0
  batch : BitVec 32 := 0
  xhand : BitVec 56 := 0
  mode : Bool := true                    -- TSTAT.MODE: resident
  tlvl : Bool := false
  chk : BitVec 2 := 0
  prio : Bool := false
  rstrt : Bool := false
  running : Bool := false                -- not idle
  node : Nat := 0
  retired : BitVec 32 := 0
  tt : Time := 0                         -- logical time
  fences : Tab Nat := []                 -- by scope: how many writes stood in the order at the last fence (R149)
  constSeen : Tab Nat := []              -- by byte: how many writes stood before the content that the constant path last gave (R268)
  constFloor : Tab Nat := []             -- the same as it stood at the last fence
  bad : Tab Bool := []                   -- registers that hold an error that cannot be corrected (R389), by `RegFile` number, and from 88 RMODE, RSEED, FFLAGS, WLIM, TSCR
  inbox : List Word := []
  inboxBad : List Bool := []             -- which messages from the oldest on have come in a poisoned packet (R389)
  wake : Bool := false
  inboxLine : Line := {}                 -- times of the inbox and of the wake latch (R258, R262)
  latchLine : Line := {}
  inl : List Word := []                  -- inline return stack, newest first
  blk : Option Block := none
  pend : List Pend := []
  ready : Nat := 0                       -- the cycle from which it may issue (R111)
  touch : Option (Word × BitVec 4) := none   -- the access that waits in the memory path: its address and the rights it needs (R337, R412)
  skip : Option Nat := none              -- the bank for whose latch it was skipped and which it has reserved (R278)
  codelet : Option (Word × Word × Bool) := none   -- the ring record and priority that started the codelet (R358)
  dead : Bool := false                   -- dead in the last snapshot, nothing issued since (R286)
  lvq : List Word := []                  -- load values from the leading slot (R394)
  lvt : Option (BitVec 8 × Word) := none -- the trap that the leading slot took at the load behind them: cause and TVAL
  chkq : List (BitVec 32 × Word) := []   -- `chk` values of the leading slot by retired count (R247)
  offer : Option Offer := none           -- what this slot of a pair has issued and its partner has not (R394)
  joined : Option (BitVec 32) := none    -- the barrier phase a blocked `bar` has arrived at
  asked : Option (Word × Option Word) := none     -- the `wpres` at a pc that the admission engine has taken, and its answer (R228)
  deriving DecidableEq, Repr

/-- A tile descriptor (R28). -/
structure TDesc where
  fmt : BitVec 4 := 0
  rows : BitVec 7 := 0
  cols : BitVec 10 := 0
  dist : Bool := false
  deriving DecidableEq, Repr

/-- A queue register q0 to q7 (R22, R243). -/
structure QueueSt where
  entries : List Word := []
  bad : List Bool := []                  -- which entries from the front hold an error that cannot be corrected (R389)
  bank : Option (BitVec 4) := none
  lim : Nat := 8
  deriving DecidableEq, Repr

/-- The mode, flush settings and hash inputs that a slab instruction captures (R52, R54). -/
structure Capture where
  mode : RMode
  fzi : Bool
  fzo : Bool
  seed : Word
  slotNo : BitVec 4
  count : BitVec 32
  deriving DecidableEq, Repr

/-- A dispatched slab instruction that is not complete (R26, R159, R179): its scalar operands, descriptors and captured settings. -/
structure SlabOp where
  instr : Instr
  slot : Nat
  seq : BitVec 32
  pc : Word
  cap : Capture
  args : List Word
  descs : List TDesc
  done : Nat := 0                        -- accesses already performed
  fl : BitVec 5 := 0                     -- flags raised by them
  cost : Nat := 0                        -- its part of the backlog (R182)
  lvl : Bool := false                    -- the trap level it was dispatched at (R355)
  touch : Option (Word × BitVec 4) := none   -- its access that waits in the memory path (R337, R412)
  upset : Bool := false                  -- its half-slabs have computed different results (R395)
  deriving DecidableEq, Repr

/-- A follow-on slot f0 to f3 (R193, R194). -/
structure Follow where
  queued : Option SlabOp := none
  count : Nat := 0
  due : Bool := false                    -- the last trigger has fallen (R182)
  last : Option (BitVec 32) := none      -- the sequence number last started
  deriving DecidableEq, Repr

/-- An entry of the sequence ring (R351). -/
structure SeqEnt where
  pc : Word := 0
  slot : Nat := 0
  complete : Bool := true
  deriving DecidableEq, Repr

/-- What the device keeps beside a ring record (R233, R262). -/
structure RingRec where
  pos : Nat                              -- 0 to 255 in scratch, then the spill area
  prio : Bool
  node : Nat
  time : Time
  deriving DecidableEq, Repr

/-- A line copy in a core or in the cache ways of a quad (R260, R263), with the owner identity that brought it in (R332). -/
structure LineCopy where
  bytes : List Byte
  poison : List Bool
  wts : Time
  crts : Time
  fetched : Nat
  owner : Nat
  deriving DecidableEq, Repr

/-- A valid entry of the protection lookaside buffer (R329). -/
structure PlbEntry where
  base : BitVec 41
  k : BitVec 5
  rights : BitVec 4
  agc : Bool
  gen : BitVec 8
  dom : BitVec 12
  deriving DecidableEq, Repr

/-- The progress of an engine command (R216). -/
inductive CmdState where
  | queued | running | srcDone
  deriving DecidableEq, Repr

/-- An engine command that holds a FIFO entry (R203 to R216). -/
structure Cmd where
  cnum : BitVec 32
  entry : Nat
  w0 : Cmd0
  w1 : Word
  w2 : Word
  w3 : Word
  slot : Nat
  life : Nat                             -- which codelet or thread of the slot pushed it (R225)
  batch : BitVec 32
  layout : List Byte                     -- the layout snapshot (R209)
  desc : Option TDesc := none            -- the target tile's descriptor (R212)
  gangw : Nat := 0
  nodes : List Nat := []                 -- bases of the arenas the pushing slot's node held at acceptance (R345)
  seq : BitVec 32 := 0                   -- SLABSEQ of the target tile's core at acceptance (R187)
  state : CmdState := .queued
  done : Nat := 0
  fl : BitVec 5 := 0
  nf : Bool := false
  gm : Bool := false
  ended : Option (BitVec 8) := none      -- an end status other than OK, before the terminal state
  poison : Bool := false                 -- a poisoned byte has landed
  poisoned : Option Word := none         -- lowest poisoned destination address
  srcWord : Bool := false                -- completion word already written
  handed : Option Word := none           -- handed back: address of its record (R224)
  bits : List Bool := []                 -- gather or scatter mask bits so far
  index : Option Nat := none             -- the index read for the element that comes next (R211)
  lines : List Nat := []                 -- destination lines written (R267)
  touch : Option (Word × BitVec 4) := none   -- its access that waits in the memory path (R337, R412)
  deriving DecidableEq, Repr

/-- The final status kept for the last 64 commands of a FIFO (R204). -/
structure Kept where
  cnum : BitVec 32
  status : BitVec 16
  done : Nat
  poisoned : Word
  deriving DecidableEq, Repr

/-- A command FIFO (R203, R204, R209). -/
structure Fifo where
  cmds : List Cmd := []                  -- acceptance order
  next : BitVec 32 := 0
  kept : List Kept := []
  layouts : Tab (List Byte) := []
  number : Nat := 0                      -- its number for the hand-back area (R224)
  deriving DecidableEq, Repr

/-- An accumulator drain that has read its cells: the writes still to land and the record to push (R201). -/
structure Drain where
  slot : Nat
  seq : BitVec 32
  pc : Word
  lvl : Bool
  writes : List (Nat × Nat × List Byte)  -- memory key, scratch address, bytes
  time : Option Time := none             -- the highest WTS of the lines its writes have landed in (R262)
  target : Nat
  code : Word
  frame : Word
  prio : Bool
  node : Nat
  fl : BitVec 5                          -- flags of its conversions, ORed into FFLAGS at its completion
  deriving DecidableEq, Repr

/-- The request latch of a scratch bank in a core (R278): the slot whose access it holds, the aligned run of 256 bytes that the access lies
in (R277), the cycle of the core's next turn of the bank, at which it empties, and the slots that have reserved it, in order. -/
structure Latch where
  slot : Nat
  op : Option (BitVec 32) := none        -- SLABSEQ of the slab instruction whose access it holds, none for a scalar one
  run : Nat := 0
  until_ : Nat
  waiting : List Nat := []
  deriving DecidableEq, Repr

/-- A record of a restartable codelet that waits for room on its ring, with the slot and the node that held it (R358). -/
structure Again where
  w0 : Word
  w1 : Word
  prio : Bool
  slot : Nat
  node : Nat
  time : Time
  deriving DecidableEq, Repr

/-- The zeroing of a tile's unused bytes by a tile command of length 0, which waits for earlier slab instructions (R187, R212). -/
structure TileClear where
  tile : Nat
  desc : TDesc
  seq : BitVec 32                        -- SLABSEQ at the push of the command
  deriving DecidableEq, Repr

/-- A core or quay core of an island (R25, R31, R37). -/
structure CoreSt where
  gangw : Nat := 1
  tdesc : Tab TDesc := []
  descBad : Tab Bool := []               -- tile descriptors that hold an error that cannot be corrected (R389)
  tile : Tab Byte := []                  -- tile t, member g, byte k at (4 t + g) 17408 + k; planes from 16384
  tilePoison : Tab Bool := []
  acc : Tab (BitVec 36) := []            -- accumulator a, row m, column n at (64 a + m) 256 + n
  accBad : Tab Bool := []                -- cells that hold an error that cannot be corrected (R389)
  latches : Tab Latch := []              -- by bank
  queues : Tab QueueSt := []
  follow : Tab Follow := []
  tvec : BitVec 54 := 0                  -- TVEC.ADDR
  slabseq : BitVec 32 := 0
  ringb : BitVec 10 := 0x2FC             -- RINGB.BASE (build value of core 0; the build sets it)
  spill : BitVec 44 := 0                 -- RINGL.SPILL
  spillPages : BitVec 8 := 0             -- RINGL.PAGES
  ringh : BitVec 32 := 0
  ringt : BitVec 32 := 0
  ring : List RingRec := []              -- push order
  again : List Again := []
  nestExt : List (BitVec 32) := [0, 0, 0, 0]
  nestMin : List (BitVec 16) := [0, 0, 0, 0]
  nestRem : BitVec 32 := 0
  nestP : Nat := 1
  last : Nat := 15
  cyc : Nat := 0                         -- CYC
  age : Nat := 0                         -- core cycles by which its copies of lines age (R263)
  slabQ : List SlabOp := []
  slabAt : Nat := 0                      -- one more than the cycle in which a slab instruction last dispatched or a tile command was last accepted (R246)
  seqRing : Tab SeqEnt := []
  copies : Tab LineCopy := []
  ccopies : Tab (List Byte × List Bool) := []
  constAt : Nat := 0                     -- how many writes stood in the order when these were last dropped (R268)
  plb : List PlbEntry := []
  fifo : Fifo := {}
  drains : List Drain := []
  clears : List TileClear := []          -- in acceptance order
  deriving DecidableEq, Repr

/-- A bank switch in progress in a quad (R154). -/
structure Switch where
  slot : Nat
  dst : Reg
  banks : BitVec 16
  mode : BankMode
  waitFor : List (Nat × BitVec 32)       -- commands accepted earlier that address the banks: core and number
  drains : List (Nat × BitVec 32) := []  -- drains that have read their cells earlier and write to the banks: core and sequence number
  deriving DecidableEq, Repr

/-- A quad (R153, R243, R268). -/
structure QuadSt where
  modes : Tab BankMode := []             -- unlisted: as at build
  fifos : Tab (List Word) := []          -- FIFO banks
  fifoBad : Tab (List Bool) := []        -- as `QueueSt.bad`
  ways : Tab LineCopy := []              -- lines in the cache-way banks (R332)
  switches : List Switch := []
  order : List (Nat × Word) := []        -- `bankcfg` instructions that wait their turn: slot and pc (R154)
  bankTimes : Tab Time := []             -- by bank that a switch has zeroed: the highest RTS of its lines before (R269)
  ccopies : Tab (List Byte × List Bool) := []
  constAt : Nat := 0                     -- how many writes stood in the order when these were last dropped (R268)
  deriving DecidableEq, Repr

/-- A barrier of one unit (R241, R262). -/
structure Barrier where
  phase : BitVec 32 := 0
  n : Option (BitVec 16) := none
  slots : List (Nat × Time) := []        -- arrivals at the open phase: slot and its TT
  doneTimes : Tab Time := []             -- by completed phase: the highest TT among its arrivals
  deriving DecidableEq, Repr

/-- A lease range (R336): node 0 is the whole task's. -/
structure Lease where
  base : Nat
  len : Nat
  rights : BitVec 4
  node : Nat
  deriving DecidableEq, Repr

/-- A warrant's header and body fields (R299, R300). -/
structure Warrant where
  kind : Nat := 0
  signer : List Byte := []
  serial : Word := 0
  domain : Word := 0
  notBefore : Nat := 0
  notAfter : Nat := 0
  cls : BitVec 2 := 0
  checked : Bool := false
  depth : Nat := 0
  splits : Nat := 0
  npkg : Nat := 1
  quads : Nat := 1
  minw : Nat := 1
  minh : Nat := 1
  cellw : Nat := 0
  cellh : Nat := 0
  berths : Nat := 0
  dramb : Nat := 0
  cxlb : Nat := 0
  llcw : Nat := 0
  bws : Nat := 1
  quays : Nat := 0
  klen : Nat := 0
  digest : List Byte := []
  entry : Nat := 0
  holder : List Byte := []
  parent : List Byte := []
  tag : List Byte := []
  deriving DecidableEq, Repr

/-- A rectangle of physical quads (R315, R413): grid column and row, width and height, and the logical row it starts at (R325). -/
structure Rect where
  col : Nat
  row : Nat
  w : Nat
  h : Nat
  ly : Nat
  deriving DecidableEq, Repr

/-- A warrant handle (R251, R373): what it holds and, for a child, the context. -/
structure Handle where
  w : Warrant
  self : List Byte := []                 -- header and body, for PARENT of sub-warrants (R323)
  child : Option Nat := none             -- owner identity of the child context
  childState : BitVec 2 := 0             -- 0 building, 1 running, 2 ended (R255)
  childEnd : BitVec 8 := 0
  rect : Option Rect := none             -- quads added by `wpres.add`
  region : Nat × Nat := (0, 0)           -- hand-back pages that an addition brought: addresses from and up to (R325, R334)
  before : Nat × Nat := (0, 0)           -- FIFOs and logical quay numbers of the island before an addition
  away : Option Nat := none              -- the key-lease expiry of a child that a move has taken to another chip (R373, R411)
  shape : Nat × Nat := (0, 0)            -- WQ and HQ of an added warrant or of an ended child
  index : Nat := 0                       -- last child index given to a sub-warrant (R301)
  taken : List Rect := []                -- quads handed over by splits
  berths : List Nat := []                -- berths that an addition brought (R325)
  deriving DecidableEq, Repr

/-- The error-count block (R396). -/
structure Counts where
  dcor : Nat := 0
  dunc : Nat := 0
  scor : Nat := 0
  sunc : Nat := 0
  cont : Nat := 0
  chkm : Nat := 0
  degFabric : Bool := false
  deriving DecidableEq, Repr

/-- The life of a context (R317, R338, R361). -/
inductive Phase where
  | building | running | stopping | swapped | abrupt
  deriving DecidableEq, Repr

/-- The TDISP interface of a context (R401). -/
inductive Tdisp where
  | unlocked | locked | run | error
  deriving DecidableEq, Repr

/-- A live migration (R410, R411): this chip is the source, or with `role` the target of the context. -/
structure MoveSt where
  role : Bool := false                   -- true on the target
  target : Word := 0
  rounds : Nat := 1
  tag : Word := 0                        -- of the mailbox request
  clean : List Nat := []                 -- pages still write-protected (32 KiB of the global and arena windows)
  dirty : List Nat := []                 -- pages written since they were protected
  stopped : Bool := false                -- the rounds are over: the context leaves its quads and stays out
  away : Bool := false                   -- on the source: the context runs on the target
  pulls : List Nat := []                 -- pages not yet pulled, ascending
  notice : Bool := false                 -- an EXPIRY_NOTICE that waits for the switch
  lost : List Nat := []                  -- pages whose pull has failed and that no access has touched yet (R412)
  deriving DecidableEq, Repr

/-- A fault-ring record without its time (R338, R357). -/
structure FaultRec where
  cause : BitVec 8
  late : Bool := false
  node : Nat := 0
  tid : Nat := 0
  pc : Word := 0
  addr : Word := 0
  need : BitVec 4 := 0
  seq : BitVec 32 := 0
  deriving DecidableEq, Repr

/-- A containment cell whose fence is closed: the consuming slot, and the record to write (R391). -/
structure Closed where
  slot : Nat
  fault : FaultRec
  deriving DecidableEq, Repr

/-- A context (R317). -/
structure Ctx where
  phase : Phase := .building
  handles : Tab Handle := []
  wq : Nat := 1
  hq : Nat := 1
  npkg : Nat := 1
  cw : Nat := 1
  ch : Nat := 1
  cls : BitVec 2 := 0
  checked : Bool := false
  rect : Rect := ⟨0, 0, 1, 1, 0⟩
  straits : Tab (List (Nat × Nat)) := [] -- by physical quad: the pair of half-slabs of each logical slab in use (R14, R15)
  quays : List Nat := []                 -- granted physical quay slots, in grant order
  quayNos : List Nat := []               -- physical quay cores by logical quay number (R18)
  quayAdds : List (Nat × List Nat) := [] -- quay slots of added handles
  segs : List (Nat × Nat × Nat) := []    -- image segments: kind, address, length
  entry : Word := 0
  roots : List (Nat × Nat × BitVec 4) := []
  gangRec : Option Nat := none
  leases : List Lease := []
  nodes : Tab Bool := []                 -- live nodes; true once a member has begun
  constDrops : Tab Nat := []             -- by stack unit: how many writes stood in the order when its constant-path copies were last dropped (R268)
  bars : Tab Barrier := []
  units : Tab Nat := []                  -- the stack units of its places, once the context has been moved: they stay (R19, R20)
  ringBase : Nat := 0                    -- fault-ring page (R357)
  ringCount : Nat := 0
  nextFifo : Nat := 0
  expiry : Nat := 0                      -- key-lease expiry, µs
  counts : Counts := {}
  report : Option (List Byte × Nat) := none   -- digest of the latest report not yet used, and its time (R326)
  notice : Option Nat := none            -- the clock value N at which the notice fell due (R312)
  noticeDone : Bool := false             -- delivered
  tdisp : Tdisp := .unlocked             -- DEDUCED log 23
  sliceEnd : Nat := 0
  outAt : Nat := 0                       -- the cycle in which it was stopped or swapped out (R275)
  order : Nat := 0                       -- order of admission
  ranAt : Nat := 0                       -- one more than the cycle in which it last got its quads; 0 before (R316)
  spillWait : Bool := false              -- drained, and waiting for a berth or room in the spill area (R363)
  closed : List Closed := []             -- cells under containment
  floor : Time := 0                      -- 2^46 ticks behind the highest time, once that is reached (R265)
  cause : BitVec 8 := 0                  -- why it is swapped out; 0 when it is not (DESIGN CHOICE log 47)
  sealed : Bool := false                 -- its image lies in the harbour or in seal space
  berthsOwn : List Nat := []             -- berths under its warrants: 3 (16 row + column) + berth of a physical quad (R317, R362)
  berthsHeld : List Nat := []            -- further berths that a swap has taken (R363)
  imageAt : Tab Nat := []                -- by physical quad: the berth in which its image lies while the context is swapped out (R362, R363)
  badImage : Bool := false               -- a saved image holds an error that cannot be corrected (R365)
  spilled : List Nat := []               -- units whose image spilled: 24 times the physical quad and the unit in its image (R361, R363, R364)
  messages : Tab (List (Option Word)) := []   -- message areas by core: a message, or none for a wake (R148)
  messageTo : Tab (List Nat) := []       -- the slot of each entry
  move : Option MoveSt := none
  used : Nat × Nat := (0, 0)             -- bonded-DRAM and CXL bytes mapped (R334)
  deriving DecidableEq, Repr

/-- Which memory tier holds a page (R334). -/
inductive Tier where
  | cxl | dram
  deriving DecidableEq, Repr

/-- Bias of a page (R348). -/
inductive Bias where
  | dev | toHost | host | toDev
  deriving DecidableEq, Repr

/-- A held page of the global window (R327 to R349). -/
structure Page where
  holder : Nat := 0                      -- owner identity; 0 is not held
  seg : Nat := 0                         -- kind of its segment; 0 for none
  rights : BitVec 4 := 0                 -- R, W, X, E
  tier : Tier := .dram
  pkg : Nat := 0
  bias : Bias := .dev
  holdEnd : Nat := 0
  requests : List Bool := []             -- bias requests in arrival order: true for host bias
  counters : Tab Nat := []               -- accesses by package in the current window (R340)
  hostCount : Nat := 0                   -- host accesses in device bias, and device accesses in host bias, in the window (R347)
  devCount : Nat := 0
  asked : List Nat := []                 -- which counters have reached the threshold: packages, 256 for `devCount`, 257 for `hostCount`
  inFlight : Option Nat := none          -- a migration to a package in progress
  deriving DecidableEq, Repr

/-- An arena slot (R343, R344). -/
structure Arena where
  gen : BitVec 8 := 0
  holder : Nat := 0                      -- owner identity of the present life; 0 when free
  last : Nat := 0                        -- owner identity of the last life
  node : Nat := 0
  place : Place := .llc
  pages : Nat := 0
  pkg : Nat := 0
  time : Option Time := none             -- the highest RTS of the lines of earlier lives, none where no access was made (R269)
  deriving DecidableEq, Repr

/-- An entry of the spent-serial store (R306). -/
inductive Spent where
  | live (chip : Word)
  | held (chip : Word)
  | spent
  deriving DecidableEq, Repr

/-- A presentation (R252, R309, R405): the bytes presented, and where the answer goes: a slot with whether it adds and the pc of its
`wpres` and, for a child, the memory key of its image, or the mailbox with its tag. -/
structure Presentation where
  from_ : Option (Nat × Bool × Word) := none
  at_ : Nat := 0
  tag : Word := 0
  warrant : List Byte := []
  image : List Byte := []
  holderKey : List Byte := []
  proof : List Byte := []
  deriving DecidableEq, Repr

/-- A mailbox order, a setting or a request for the debug gate that waits its turn in the order of R309 (R404, R422, R423); `auth` is
the signer, the record and the signature of a management record. -/
inductive Order where
  | time (tag : Word) (token : List Byte)
  | floor (tag : Word) (order : List Byte)
  | launch (tag serial : Word) (holderKey proof : List Byte)
  | move (tag : Word) (order : List Byte) (fits : Option (BitVec 8))
  | test (tag : Word) (package sig : List Byte) (quads : List Nat)
  | keys (auth : List Byte × List Byte × List Byte) (index : Nat) (key : Option (List Byte))
  | domains (auth : List Byte × List Byte × List Byte) (domain : Word) (members : List Word)
  | podn (auth : List Byte × List Byte × List Byte) (n : Nat)
  | cxlPort (auth : List Byte × List Byte × List Byte) (port : Nat)
  | threshold (auth : List Byte × List Byte × List Byte) (n : Nat)
  | fluxCap (auth : List Byte × List Byte × List Byte) (domain cap : Nat)
  | portLimits (auth : List Byte × List Byte × List Byte) (margin rate : Nat)
  | gate (open_ : Bool)
  deriving DecidableEq, Repr

/-- An entry of the order of R309: a presentation that waits for step 1, or an order behind it. -/
inductive Queued where
  | pres (p : Presentation)
  | order (o : Order)
  deriving DecidableEq, Repr

/-- What is held for a presentation from step 9 of R252 until its claim is answered (R252, R309, R317, R327): a rectangle, physical quay
slots, berths, page ranges, the FIFOs of an addition and a handle of the presenting context. -/
structure Hold where
  rect : Rect
  quays : List Nat := []
  berths : List Nat := []
  ranges : List (Nat × Nat) := []
  fifos : Nat := 0
  handle : Nat := 0
  deriving DecidableEq, Repr

/-- A presentation whose claim is open (R307, R309): what is held for it, and the cycle in which the claim was sent. -/
structure OpenClaim where
  nonce : Word
  p : Presentation
  w : Warrant
  hold : Hold
  sent : Nat
  deriving DecidableEq, Repr

/-- The answer of a home to a claim, which goes back to the chip that sent it and echoes its nonce (R307, R408). -/
structure ClaimReply where
  chip : Word
  nonce : Word
  accept : Bool
  deriving DecidableEq, Repr

/-- A redemption domain (R305, R308). -/
structure Domain where
  members : List Word
  floor : Nat := 0
  seq : Nat := 0
  deriving DecidableEq, Repr

/-- State of an Ostik or CXL port (R409). -/
inductive PortState where
  | up | degraded | degraded4 | down
  deriving DecidableEq, Repr

/-- A port (R400, R408, R409): ports 0 to 3 are CXL, 4 to 19 Ostik. -/
structure Port where
  state : PortState := .down
  margin : List Nat := []
  rate : Nat := 0                        -- FEC-corrected symbols in a million
  replays : Nat := 0
  loss : Nat := 0
  good : Nat := 0                        -- seconds every value has been within threshold
  keys : Nat := 0                        -- link keys agreed since power-up
  flits : Nat := 0                       -- flits carried under the present key
  deriving DecidableEq, Repr

/-- The record of a regulator (R414). -/
structure RegReport where
  domain : BitVec 16
  vout : BitVec 16
  iout : BitVec 32
  treg : BitVec 16
  eff : BitVec 16
  flux : BitVec 32
  time : BitVec 64
  deriving DecidableEq, Repr

/-- A power domain (R414, R415, R417). -/
structure Power where
  duty : Nat := 64
  cap : Nat := 100
  report : Option RegReport := none      -- the latest since power-up
  below : Nat := 0                       -- the clock value since which the duty stands and the estimate lies below 95 % of the cap (R415)
  hot : Option Nat := none               -- the clock value since which the estimate lies above the cap at duty 8/64 (R417)
  lost : Nat := 0                        -- pulses that its clock has suppressed
  idle : Bool := false                   -- a stack held idle after a trip
  idleEnd : Nat := 0
  deriving DecidableEq, Repr

/-- The response to a host read: its address, its bytes, and which of them are poisoned (R402). -/
structure HostRead where
  addr : Word
  bytes : List Byte
  poison : List Bool
  deriving DecidableEq, Repr

/-- Why a physical quad is out of use (R397, R398). -/
inductive QuadUse where
  | working | testing | retired
  deriving DecidableEq, Repr

/-- How far the package is booted (R418). -/
inductive Boot where
  | off | recovery | on
  deriving DecidableEq, Repr

/-- A black-box record (R399). -/
structure BoxRec where
  time : Nat
  seq : Nat
  kind : Nat
  owner : Nat
  unit : Nat
  data : List Byte
  deriving DecidableEq, Repr

/-- An event record of the mailbox (R407). -/
structure EventRec where
  kind : Nat
  owner : Nat
  serial : Word
  time : Nat
  data : List Byte
  deriving DecidableEq, Repr

/-- The package outside the islands (R303 to R311, R343, R397 to R423). -/
structure Pkg where
  boot : Boot := .on
  clock : Nat := 0                       -- lighthouse clock, µs
  frac : Nat := 0                        -- core cycles into the current microsecond
  slewFrac : Nat := 0                    -- thousandths of a microsecond gained by slewing
  anchored : Bool := false
  slew : Option Nat := none              -- what is still to be gained
  saved : Nat := 0                       -- the clock in non-volatile memory
  challenge : List Byte := []
  chip : Word := 0                       -- CHIP identity (R305)
  keys : Tab (List Byte) := []           -- operator signing keys
  domains : Tab Domain := []
  spent : Tab Spent := []                -- by domain and serial: domain 2^64 + serial
  waiting : List Queued := []            -- what waits for its turn in the order of R309, oldest first
  claims : List OpenClaim := []
  openClaims : List (Word × Word) := []  -- claims to withdraw: serial, domain
  claimReply : Option ClaimReply := none -- the answer that this chip as a home has sent last
  notices : List (Word × Word × BitVec 8) := []   -- end notices not confirmed
  nonces : Nat := 0
  podn : Nat := 0
  threshold : Nat := 256
  cxlPort : Nat := 0
  cxlPortNext : Nat := 0
  marginMin : Nat := 30
  rateMax : Nat := 10                    -- corrected symbols in a million
  quads : Tab QuadUse := []              -- physical quads 16 row + column that are not working
  halves : List Nat := []                -- retired half-slabs: half-slab h lies in physical quad h / 8
  repaired : Tab Nat := []               -- clock value of a strait's last re-pairing, by 4 times its physical quad plus its place
  rows : Tab (List Nat) := []            -- retired harbour rows by stack
  resp : List Byte := List.replicate 64 0 -- RESP (R404)
  request : Bool := false                -- STATE[1]
  doorbell : Nat := 0                    -- DOORBELL: the length of the last request (R404)
  req : List Byte := []                  -- REQ: what the host has written; the rest of the 32 KiB buffer is 0 (R404)
  events : List EventRec := []           -- the last 384, newest first
  evCount : Nat := 0
  box : List BoxRec := []                -- the last 4,096, newest first
  boxSeq : Nat := 0
  ports : Tab Port := []
  linkUp : Bool := true
  power : Tab Power := []
  hostReads : Tab HostRead := []         -- by host requester: the response to its latest read (R402)
  svn : Nat := 0                         -- the fused security version counter (R418)
  images : Tab Config.StageImage := []   -- the images of the boot stages 1 to 3 (R418)
  failed : Nat := 0                      -- the stage that has failed at the last power-up; 0 for none
  vendorCert : List Byte := []           -- certificates of the identity key (R420)
  operatorCert : List Byte := []
  lastHeld : List (Word × Word) := []    -- serials and domains whose context the chip holds (R419)
  storeFull : Bool := false
  debugOpen : Bool := false
  scrubbed : Nat := 0                    -- sectors the patrol scrub has read
  hostTime : Time := 0                   -- ticks of a host requester since power-up (R270)
  hostAhead : Tab Time := []             -- by host requester: how far its accesses have raised its time above the ticks
  admitted : Nat := 0                    -- contexts admitted so far, the order of R316
  deriving DecidableEq, Repr

/-- A party that may still act in the present cycle (DESIGN CHOICE log 5). -/
inductive Party where
  | issue (core : Nat)
  | quay (phys : Nat)
  | slab (core : Nat)
  | drain (core : Nat)
  | engine (core : Nat)
  | dispatch (core : Nat)
  | banks (quad : Nat)
  | admission
  deriving DecidableEq, Repr

/-- An older content of a line that a write replaced (R138): the number of that write, the slot that made it, if a thread did, and the
bytes as they stood before it. -/
structure Version where
  write : Nat
  writer : Option Nat
  lo : Nat                               -- the bytes that the write replaces: the first one's key, and how many
  len : Nat
  bytes : List Byte
  poison : List Bool
  deriving DecidableEq, Repr

/-- A line in its home LLC slice (R332, R344): the owner identity that brought it in, the bytes that the slice holds, the sectors that
differ from the memory behind it, and the slice. -/
structure LlcLine where
  owner : Nat
  held : BitVec 128
  dirty : BitVec 4
  slice : Nat
  deriving DecidableEq, Repr

/-- The machine. -/
structure State where
  cur : Nat := 0                         -- the slot whose instruction is executed (DESIGN CHOICE log 5)
  slots : Tab Slot := []
  cores : Tab CoreSt := []
  quads : Tab QuadSt := []
  ctxs : Tab Ctx := []                   -- by owner identity
  mem : List Host.Cell := []
  full : Tab Bool := []                  -- FULL tags by 8-byte word
  poison : Tab Bool := []                -- poisoned bytes
  lines : Tab Line := []
  pages : Tab Page := []
  arenas : Tab Arena := []
  past : Tab (List Version) := []        -- older contents of a line since the launch of the task, newest first (R138)
  writes : Nat := 0                      -- how many writes of lines have taken place
  llc : Tab LlcLine := []                -- lines in the LLC
  damage : Tab Nat := []                 -- damaged code symbols of a sector at rest (R385)
  sectorMap : Tab (BitVec 2) := []       -- map entries of the sectors that have been stored since their page was mapped (R386)
  mapDamage : Tab Nat := []              -- damaged code symbols of a map row, by its number (R386)
  overDamage : Tab Nat := []             -- damaged code symbols of an overflow row, by its number (R386)
  stackCopies : Tab (List Byte × List Bool) := []   -- constant-path copies of a stack (R268)
  quayLast : Tab Nat := []               -- LAST of a physical quay core (R272)
  lives : Tab Nat := []                  -- how many codelets or threads a slot has begun (R225)
  pkg : Pkg := {}
  cycle : Nat := 0
  agenda : List Instr := []              -- events that have arrived and wait for their step (DESIGN CHOICE log 5)
  held : List (Nat × Word × Bool × List Byte) := []   -- host accesses that wait in the memory path (R341, R349)
  pending : List Party := []             -- parties that still act in this cycle (DESIGN CHOICE log 5)
  latched : List Party := []             -- of these, the ones whose slot reads its inbox or latch behind the deliveries (R147)
  closing : Bool := false                -- the parties of the cycle have acted: what its end brings is under way (R281)
  ticket : Nat := 0                      -- order of waiters (R280)
  fresh : Nat := 0                       -- counter of free values (DESIGN CHOICE log 1)
  deriving DecidableEq, Repr

/-- Why the machine stops.  Safe: hardware in these states runs no instruction either. -/
inductive Fault where
  /-- Raised by `step` while the package has no power or stands in RECOVERY and no event is due: nothing runs until power-up
  (R418, R419). -/
  | noPower
  deriving DecidableEq, Repr

/-- Why the model gives no meaning. -/
inductive Refusal where
  /-- Raised by an arm of `exec` whose instruction has no meaning yet; safe. -/
  | notModelled (mnemonic : String)
  deriving DecidableEq, Repr

/-- The host-facing port: the UCIe port on the module with host, else the CXL port that the operator has chosen (R400). -/
def hostPortOf (cxl : Nat) : Nat := if Config.form = .host then 20 else cxl

/-- The machine right after reset: a package powered up and booted, with no context, an unanchored clock, every register at the
value R9 gives it, a first challenge drawn (R404), the CHIP of its identity key (R305), the images of its boot stages and its vendor
certificate (R418, R420), and the host-facing port trained (DEDUCED log 22).  No program is placed: the first one
comes with a presentation (DESIGN CHOICE log 6) (DESIGN CHOICE log 3). -/
def State.reset : State :=
  { pkg := { challenge := Config.randomBytes 0 32, chip := keyChip Config.identityKey
             images := [1, 2, 3].map fun n => (n, Config.stageImage n)
             vendorCert := Config.certificate Config.vendorKey Config.identityKey
             ports := [(hostPortOf 0, { state := .up })] }
    fresh := 1 }

end Sys2Proof.Machine
end

