-- ==== Sys2Proof/Machine/Keys.lean ====
section
/-! DEFINITION. The numbers that name slots, cores and quads (R16, R18, R36), and the reads and updates of the tables of State. -/

namespace Sys2Proof.Machine

/-- Whether one time stands before another, modulo 2^48 (R265). -/
def Time.earlier (a b : Time) : Bool := (a - b).msb

/-- The later of two times. -/
def Time.later (a b : Time) : Time := if Time.earlier a b then b else a

/-- The latest of some times that do not stand before a first one. -/
def Time.latest (a : Time) (l : List Time) : Time := l.foldl Time.later a

/-- Slots of one owner: the TID of R36 has 31 bits. -/
def ownerSpan : Nat := 2 ^ 31

def slotKey (owner tid : Nat) : Nat := owner * ownerSpan + tid
def ownerOf (k : Nat) : Nat := k / ownerSpan
def tidOf (k : Nat) : Nat := k % ownerSpan
/-- The fields of TID (R36). -/
def slotNo (k : Nat) : Nat := k % 16
def coreNo (k : Nat) : Nat := k / 2 ^ 4 % 4
def lxOf (k : Nat) : Nat := k / 2 ^ 6 % 256
def lyOf (k : Nat) : Nat := k / 2 ^ 14 % 256
def lpkgOf (k : Nat) : Nat := k / 2 ^ 22 % 256
def isQuay (k : Nat) : Bool := k / 2 ^ 30 % 2 == 1

/-- The core of a slot, named by its slot 0. -/
def coreOf (k : Nat) : Nat := k / 16 * 16
/-- The quad of a slot or core, named by slot 0 of its core 0. -/
def quadOf (k : Nat) : Nat := k / 64 * 64

def quadKey (owner lx ly : Nat) : Nat := slotKey owner (lx * 2 ^ 6 + ly * 2 ^ 14)
def coreKey (owner lx ly core : Nat) : Nat := quadKey owner lx ly + core * 16
def quayKey (owner q : Nat) : Nat := slotKey owner (2 ^ 30 + q * 2 ^ 6)

/-- Slots of a core (R4). -/
def slotsOf (core : Nat) : List Nat := (List.range (if isQuay core then 8 else 16)).map (core + ·)

/-- A core at context build (R17, R25, R37). -/
def buildCore (k : Nat) : CoreSt :=
  { gangw := if isQuay k then 0 else 1, ringb := BitVec.ofNat 10 (0x2FC + coreNo k), last := if isQuay k then 7 else 15 }

/-- Whether a rectangle holds a physical quad. -/
def Rect.holds (r : Rect) (p : Nat × Nat) : Bool := r.col ≤ p.1 && p.1 < r.col + r.w && r.row ≤ p.2 && p.2 < r.row + r.h

namespace State

def slot (s : State) (k : Nat) : Slot := s.slots.get {} k
def setSlot (s : State) (k : Nat) (x : Slot) : State := { s with slots := s.slots.put k x }
def modSlot (s : State) (k : Nat) (f : Slot → Slot) : State := s.setSlot k (f (s.slot k))

def core (s : State) (k : Nat) : CoreSt := s.cores.get (buildCore k) k
def setCore (s : State) (k : Nat) (x : CoreSt) : State := { s with cores := s.cores.put k x }
def modCore (s : State) (k : Nat) (f : CoreSt → CoreSt) : State := s.setCore k (f (s.core k))

def quad (s : State) (k : Nat) : QuadSt := s.quads.get {} k
def setQuad (s : State) (k : Nat) (x : QuadSt) : State := { s with quads := s.quads.put k x }
def modQuad (s : State) (k : Nat) (f : QuadSt → QuadSt) : State := s.setQuad k (f (s.quad k))

def ctx (s : State) (o : Nat) : Ctx := s.ctxs.get {} o
def setCtx (s : State) (o : Nat) (x : Ctx) : State := { s with ctxs := s.ctxs.put o x }
def modCtx (s : State) (o : Nat) (f : Ctx → Ctx) : State := s.setCtx o (f (s.ctx o))

def page (s : State) (n : Nat) : Page := s.pages.get {} n
def modPage (s : State) (n : Nat) (f : Page → Page) : State := { s with pages := s.pages.set {} n (f (s.page n)) }
def arena (s : State) (n : Nat) : Arena := s.arenas.get {} n
def modArena (s : State) (n : Nat) (f : Arena → Arena) : State := { s with arenas := s.arenas.set {} n (f (s.arena n)) }
def modPkg (s : State) (f : Pkg → Pkg) : State := { s with pkg := f s.pkg }

/-- The slot whose instruction is executed, its core, quad, owner and context. -/
def me (s : State) : Slot := s.slot s.cur
def modMe (s : State) (f : Slot → Slot) : State := s.modSlot s.cur f
def myCore (s : State) : Nat := coreOf s.cur
def myQuad (s : State) : Nat := quadOf s.cur
def owner (s : State) : Nat := ownerOf s.cur
def myCtx (s : State) : Ctx := s.ctx s.owner

/-- Take the next free value's number. -/
def tick (s : State) : Nat × State := (s.fresh, { s with fresh := s.fresh + 1 })

/-- The logical quads of a context on this package, row by row. -/
def quadsOf (s : State) (o : Nat) : List Nat :=
  (List.range (s.ctx o).hq).flatMap fun ly => (List.range (s.ctx o).wq).map fun lx => quadKey o lx ly

/-- The physical quay cores of a context by logical quay number: one for each that has held granted slots (R18). -/
def quayCores (s : State) (o : Nat) : List Nat := (s.ctx o).quayNos

/-- The quay core keys of a context. -/
def quaysOf (s : State) (o : Nat) : List Nat := (List.range (s.quayCores o).length).map (quayKey o)

/-- Every core and quay core of a context, in the order of R224. -/
def coresOf (s : State) (o : Nat) : List Nat :=
  (s.quadsOf o).flatMap (fun q => (List.range 4).map (q + 16 * ·)) ++ s.quaysOf o

/-- The rectangles of an island: that of its build, then those of the added warrants (R325). -/
def rects (s : State) (o : Nat) : List Rect := (s.ctx o).rect :: (s.ctx o).handles.filterMap fun e => e.2.rect

/-- Grid column and row of a core's quad by the place table (R15, R413). -/
def physQuad (s : State) (k : Nat) : Nat × Nat :=
  match (s.rects (ownerOf k)).find? fun r => r.ly ≤ lyOf k && lyOf k < r.ly + r.h with
  | some r => (r.col + lxOf k, r.row + (lyOf k - r.ly))
  | none => (0, 0)

/-- Whether a logical place is a quad of the island: inside it and not handed over by a split (R15, R253). -/
def hasQuad (s : State) (o lx ly : Nat) : Bool :=
  let c := s.ctx o
  let p := s.physQuad (quadKey o lx ly)
  lx < c.wq && ly < c.hq && !(c.handles.any fun e => e.2.taken.any fun r => r.holds p)

/-- Whether a slot index is granted on a quay core (R18); every slot of a core belongs to the island. -/
def granted (s : State) (k : Nat) : Bool :=
  let c := s.ctx (ownerOf k)
  if isQuay k then
    match (s.quayCores (ownerOf k))[lxOf k]? with
    | none => false
    | some phys => slotNo k < 8 && c.quays.contains (phys * 8 + slotNo k)
  else s.hasQuad (ownerOf k) (lxOf k) (lyOf k)

/-- The physical quay core of a logical quay number (R18). -/
def physQuay (s : State) (k : Nat) : Nat := (s.quayCores (ownerOf k)).getD (lxOf k) 0

/-- The slots of a context that exist. -/
def slotsOfCtx (s : State) (o : Nat) : List Nat :=
  ((s.coresOf o).flatMap slotsOf).filter s.granted

end State

/-- The row where the rectangle of a logical row starts: cells are cut there (R318, R325). -/
def rectStart (s : State) (k : Nat) : Nat :=
  match (s.rects (ownerOf k)).find? fun r => r.ly ≤ lyOf k && lyOf k < r.ly + r.h with
  | some r => r.ly
  | none => 0

/-- Whether two slots or cores of one island lie in one containment cell (R318, R325). -/
def sameCell (s : State) (j k : Nat) : Bool :=
  let w := (((s.ctx (ownerOf k)).handles.find? 0).getD {w := {}}).w
  ownerOf j == ownerOf k && isQuay j == isQuay k &&
    (isQuay k || (w.cellw == 0 && w.cellh == 0) ||
      (lxOf j / w.cellw == lxOf k / w.cellw && lyOf j / w.cellh == lyOf k / w.cellh && rectStart s j == rectStart s k))

/-- Whether a slot, core or quad lies in a cell whose fence is closed (R391). -/
def State.fenced (s : State) (k : Nat) : Bool := (s.ctx (ownerOf k)).closed.any fun x => sameCell s x.slot k

/-- Whether a closed fence stands between a slot and a slot, core or quad (R391). -/
def State.fencedFrom (s : State) (k j : Nat) : Bool :=
  (s.ctx (ownerOf j)).closed.any fun x => sameCell s x.slot j && !sameCell s x.slot k

/-- A trap cause (R350). -/
inductive Cause where
  | illegal | misalign | prot | leaseOut | arenaStale | poison | waitLimit | deadlock | slabExc | fpExc | bankMode
  | brk | trap | xhand | blockInCodelet | chkMismatch | expiryNotice
  deriving DecidableEq, Repr

def Cause.code : Cause → BitVec 8
  | .illegal => 0x01 | .misalign => 0x02 | .prot => 0x03 | .leaseOut => 0x04 | .arenaStale => 0x05 | .poison => 0x06
  | .waitLimit => 0x07 | .deadlock => 0x08 | .slabExc => 0x09 | .fpExc => 0x0A | .bankMode => 0x0B | .brk => 0x0C
  | .trap => 0x0D | .xhand => 0x0E | .blockInCodelet => 0x0F | .chkMismatch => 0x10 | .expiryNotice => 0x11

def Cause.ofCode (c : BitVec 8) : Cause :=
  match c.toNat with
  | 2 => .misalign | 3 => .prot | 4 => .leaseOut | 5 => .arenaStale | 6 => .poison | 7 => .waitLimit | 8 => .deadlock
  | 9 => .slabExc | 10 => .fpExc | 11 => .bankMode | 12 => .brk | 13 => .trap | 14 => .xhand | 15 => .blockInCodelet
  | 16 => .chkMismatch | 17 => .expiryNotice | _ => .illegal

/-- A trap that an instruction raises: cause, TVAL, and the rights an access needed (for the end record of R338). -/
structure Trap where
  cause : Cause
  tval : Word
  need : BitVec 4 := 0
  deriving DecidableEq, Repr

/-- Why an instruction does not complete now: it traps, it blocks in a wait (R144), in which only a barrier arrival leaves a state
behind, it is held by an interlock or in the memory path and issues again, or it is skipped for the request latch of a bank (R278). -/
inductive Stop where
  | trap (t : Trap)
  | fault (t : Trap) (left : State)   -- a trap behind accesses that have left something: counts, records, free values (R396, R399)
  | block (w : Wait) (left : Option State)
  | poll (w : Wait) (left : State)     -- a wait behind an access that has found no value yet, with what the access has left (R145, R396)
  | hold
  | path (ea : Word) (need : BitVec 4)   -- an access waits in the memory path (R337, R341, R349)
  | skip (bank : Nat)
  deriving DecidableEq, Repr

/-- Where the slot goes on after an instruction. -/
inductive Next where
  | fall                 -- the following instruction
  | to (pc : Word)       -- a control transfer
  | restart              -- as `fall`, with the retired count left as the instruction set it (R55)
  | gone                 -- the slot ended or was given another state
  deriving DecidableEq, Repr

/-- The result of an instruction's body. -/
abbrev Res := Except Stop (State × Next)

def ill : Stop := .trap ⟨.illegal, 0, 0⟩
def prot (v : Word) : Stop := .trap ⟨.prot, v, 0⟩
/-- Block in a wait with nothing done. -/
def wait (w : Wait) : Stop := .block w none

/-- A trap behind accesses that have left a state. -/
def Stop.behind (left : State) : Stop → Stop
  | .trap t => .fault t left
  | e => e

/-- The instruction is done and the next one follows. -/
def done (s : State) : Res := .ok (s, .fall)

end Sys2Proof.Machine
end

