-- ==== Sys2Proof/Machine/Memory.lean ====
section
/-! DEFINITION. Memory: the windows and checks of R38, R39 and R134, bytes and poison, the order of R257 to R265, and the paths that
stand outside it. -/

namespace Sys2Proof.Machine

/-- What a byte that memory does not list reads as: new pages, arenas and scratch read zero (R154, R248, R322, R334; DEDUCED log 7). -/
def unlisted : Byte := 0

/-- The canonical form of memory: ascending addresses, and no byte listed that reads as an unlisted one. -/
abbrev Memory.wf (m : List Host.Cell) : Prop :=
  List.Pairwise (fun x y => x.1 < y.1) m ∧ ∀ c ∈ m, c.2 ≠ unlisted

/-- One byte of memory by its key. -/
def readByte (s : State) (k : Nat) : Byte := Tab.get s.mem unlisted k

/-- Write one byte, keeping the canonical form. -/
def writeByte (s : State) (k : Nat) (b : Byte) : State := { s with mem := Tab.set s.mem unlisted k b }

/-- `n` bytes from a key upward. -/
def readBytes (s : State) (k n : Nat) : List Byte := (List.range n).map fun i => readByte s (k + i)

/-- Write bytes from a key upward, with no poison left in them (R381). -/
def writeBytes (s : State) (k : Nat) : List Byte → State
  | [] => s
  | b :: t => writeBytes { writeByte s k b with poison := s.poison.set false k false } (k + 1) t

/-- Whether a byte is poisoned (R381). -/
def poisonAt (s : State) (k : Nat) : Bool := s.poison.get false k

/-- Poison of `n` bytes. -/
def poisoned (s : State) (k n : Nat) : List Bool := (List.range n).map fun i => poisonAt s (k + i)
def anyPoison (s : State) (k n : Nat) : Bool := (poisoned s k n).any id

/-- Mark bytes as poisoned or not. -/
def setPoison (s : State) (k : Nat) : List Bool → State
  | [] => s
  | b :: t => setPoison { s with poison := s.poison.set false k b } (k + 1) t

/-! ### Windows (R38, R39) -/

/-- The window of an address. -/
inductive Window where
  | global | arena | scratch (quad off : Nat)
  deriving DecidableEq, Repr

/-- The scratch key of an offset in a quad: the quad's key stands above the offset, so no two quads share a byte. -/
def scratchKey (quad off : Nat) : Nat := 2 ^ 56 + quad * 2 ^ 22 + off

def tagOf (ea : Word) : BitVec 8 := ea.extractLsb' 56 8
def offsetOf (ea : Word) : Nat := (ea.extractLsb' 0 56).toNat
/-- Arena slot and offset of an arena pointer (R38). -/
def arenaSlot (ea : Word) : Nat := (ea.extractLsb' 40 14).toNat
def arenaOffset (ea : Word) : Nat := (ea.extractLsb' 0 40).toNat

/-- The window of an address as slot `k` reaches it; none where a condition of R39 fails. -/
def window (s : State) (k : Nat) (ea : Word) : Option Window :=
  let hi := (ea.extractLsb' 48 8).toNat
  if hi < 0x80 then if tagOf ea = 0 then some .global else none
  else if hi < 0xC0 then some .arena
  else if hi = 0xC0 then
    if tagOf ea = 0 && ea.extractLsb' 22 26 == 0 && !isQuay k then
      some (.scratch (quadOf k) (ea.extractLsb' 0 22).toNat)
    else none
  else if hi = 0xC1 then
    let lx := (ea.extractLsb' 32 8).toNat
    let ly := (ea.extractLsb' 24 8).toNat
    if tagOf ea = 0 && ea.extractLsb' 40 8 == 0 && ea.extractLsb' 22 2 == 0 && s.hasQuad (ownerOf k) lx ly then
      some (.scratch (quadKey (ownerOf k) lx ly) (ea.extractLsb' 0 22).toNat)
    else none
  else none

/-- The remote-window address of a scratch offset (R38). -/
def remoteEa (lx ly off : Nat) : Word :=
  BitVec.ofNat 64 (0xC1 * 2 ^ 48 + lx * 2 ^ 32 + ly * 2 ^ 24 + off)

/-- The memory key of an address in its window: one key for one byte, whichever address names it (R40). -/
def Window.key (w : Window) (ea : Word) : Nat :=
  match w with
  | .global | .arena => offsetOf ea
  | .scratch q o => scratchKey q o

def bankOf (off : Nat) : Nat := off / 2 ^ 18

/-- The mode of a bank (R153). -/
def QuadSt.mode (q : QuadSt) (b : Nat) : BankMode := q.modes.get (if b < 12 then .scr else .cache) b

/-- Rights bits: R, W, X, E (R150). -/
def rR : BitVec 4 := 1
def rW : BitVec 4 := 2
def rX : BitVec 4 := 4
def rE : BitVec 4 := 8

/-- The rights a domain holds at an address of the global or arena window (R134, R328, R331). -/
def rightsAt (s : State) (o : Nat) (w : Window) (ea : Word) : BitVec 4 :=
  match w with
  | .global =>
    let p := s.page (offsetOf ea / 2 ^ 15)
    if p.holder = o && o != 0 then p.rights else 0
  | .arena =>
    let a := s.arena (arenaSlot ea)
    if a.holder = o && o != 0 && arenaOffset ea < a.pages * 2 ^ 15 then rR ||| rW ||| rE else 0
  | .scratch _ _ => rR ||| rW ||| rE

/-- Whether an address lies in a lease range that a slot of the node may use (R336, R338). -/
def leased (s : State) (o node : Nat) (extra : List Nat) (ea : Word) : Bool :=
  let a := offsetOf ea
  (s.ctx o).leases.any fun l =>
    l.base ≤ a && a < l.base + l.len && (l.node == 0 || l.node == node || extra.contains l.base)

/-- The checks of R134 on an access of `n` bytes at `ea`, in its order; `align` says whether MISALIGN applies.  The answer is the
memory key. -/
def checkAccess (s : State) (k : Nat) (node : Nat) (extra : List Nat) (ea : Word) (n : Nat) (align : Bool)
    (need : BitVec 4) : Except Trap Nat :=
  match window s k ea with
  | none => .error ⟨.prot, ea, need⟩
  | some w =>
    if align && ea.toNat % n != 0 then .error ⟨.misalign, ea, need⟩
    else match w with
      | .scratch q off =>
        if s.fencedFrom k q then .error ⟨.prot, ea, need⟩
        else if (s.quad q).mode (bankOf off) != .scr then .error ⟨.bankMode, ea, need⟩ else .ok (w.key ea)
      | _ =>
        let o := ownerOf k
        let a := s.arena (arenaSlot ea)
        if w = .arena && ((a.holder != 0 && a.holder != o) || (a.holder = 0 && a.last != 0 && a.last != o)) then
          .error ⟨.prot, ea, need⟩
        else if w = .arena && tagOf ea != a.gen then .error ⟨.arenaStale, ea, need⟩
        else if rightsAt s o w ea &&& need != need then .error ⟨.prot, ea, need⟩
        else if !leased s o node extra ea then .error ⟨.leaseOut, ea, need⟩
        else .ok (w.key ea)

/-- The check for the access of a thread. -/
def check (s : State) (k : Nat) (ea : Word) (n : Nat) (need : BitVec 4) : Except Stop Nat :=
  match checkAccess s k (s.slot k).node [] ea n true need with
  | .ok key => .ok key
  | .error t => .error (.trap t)

/-! ### Residency and pages -/

def isScratchKey (key : Nat) : Bool := 2 ^ 56 ≤ key
def isArenaKey (key : Nat) : Bool := 2 ^ 55 ≤ key && key < 2 ^ 56

/-- The domain that holds the page or the arena of a key. -/
def holderOf (s : State) (key : Nat) : Nat :=
  if key < 2 ^ 55 then (s.page (key / 2 ^ 15)).holder else (s.arena ((key - 2 ^ 55) / 2 ^ 40)).holder

/-- Whether a page or a part of an arena, named by its number of 32 KiB, waits for no post-copy pull (R337, R411). -/
def resident (s : State) (n : Nat) : Bool :=
  match (s.ctx (holderOf s (n * 2 ^ 15))).move with
  | none => true
  | some m => !(m.role && !m.stopped && m.pulls.contains n)

/-- Whether a page makes an access wait in the memory path: it is in flight, in a flip of its bias or not resident (R337, R341, R349). -/
def pageBusy (s : State) (key : Nat) : Bool :=
  if 2 ^ 56 ≤ key then false
  else
    let p := s.page (key / 2 ^ 15)
    !resident s (key / 2 ^ 15) || p.inFlight.isSome || p.bias == .toHost || p.bias == .toDev

/-- Whether no domain is below duty 64/64. -/
def fullDuty (s : State) : Bool := s.pkg.power.all fun e => e.2.duty == 64

/-- Whether the present pulse of the core clock is a core cycle of a domain: at duty D/64 its clock passes D of every 64 pulses (R415) (DESIGN CHOICE
log 92). -/
def passes (s : State) (domain : Nat) : Bool :=
  let d := (s.pkg.power.get {} domain).duty
  let w := s.cycle / 64 * 64
  let mine := Config.pulseOrder s.cycle
  d == 64 || ((List.range 64).filter fun i =>
    let other := Config.pulseOrder (w + i)
    other < mine || (other == mine && w + i < s.cycle)).length < d

/-- The core cycles that a domain has counted. -/
def domainCycle (s : State) (domain : Nat) : Nat := s.cycle - (s.pkg.power.get {} domain).lost

/-- Whether a key lies in no page of host bias (R270, R347). -/
def inDevBias (s : State) (key : Nat) : Bool := 2 ^ 55 ≤ key || (s.page (key / 2 ^ 15)).bias != .host

/-- Add a black-box record (R399). -/
def boxAdd (s : State) (kind owner unit : Nat) (data : List Byte) : State :=
  s.modPkg fun p =>
    let r : BoxRec := { time := if p.anchored then p.clock else 0, seq := p.boxSeq, kind, owner, unit, data }
    { p with box := (r :: p.box).take 4096, boxSeq := p.boxSeq + 1 }

/-! ### Sectors at rest and the LLC (R332, R344, R384 to R387) -/

/-- Whether a line never lies at rest in memory: one of an `.llc` arena (R344). -/
def onlyLlc (s : State) (ln : Nat) : Bool :=
  isArenaKey (ln * 128) && (s.arena ((ln * 128 - 2 ^ 55) / 2 ^ 40)).place == .llc

/-- The home slice of a line: for line i of an `.llc` arena slice i mod 256, else one that no program sees (R332, R344). -/
def homeSlice (s : State) (ln : Nat) : Nat :=
  if onlyLlc s ln then (ln * 128 - 2 ^ 55) % 2 ^ 40 / 128 % 256 else Config.homeSlice ln % 256

/-- Whether an access waits for the memory stack of its line's home slice, whose clock suppresses the present pulse (R416) (PRESUMED log 9). -/
def stackBusy (s : State) (key : Nat) : Bool := key < 2 ^ 56 && !fullDuty s && !passes s (8 + homeSlice s (key / 128) / 32)

/-- Whether an access waits in the memory path: for its page or for its memory stack (R337, R341, R349, R416). -/
def pathBusy (s : State) (key : Nat) : Bool := pageBusy s key || stackBusy s key

/-- Whether nothing at rest is damaged or poisoned. -/
def restClean (s : State) : Bool :=
  s.damage.isEmpty && s.mapDamage.isEmpty && s.overDamage.isEmpty && s.sectorMap.all fun e => !e.2.getLsbD 1

/-- The map entry of a stored sector: 0 compressed, 1 raw, 2 or 3 poisoned; one that has not been stored since its page was mapped holds
zeros (R334, R386). -/
def mapEntry (s : State) (n : Nat) : BitVec 2 :=
  (s.sectorMap.find? n).getD (if Config.compresses (List.replicate 32 0) then 0 else 1)

/-- The codewords that a read of a sector checks, by their damaged symbols, in order: its map row of 112 entries, where the map says raw its
overflow row of 7 checks, and the sector (R386, R387) (DEDUCED log 77). -/
def codewords (s : State) (n : Nat) : List Nat :=
  [s.mapDamage.get 0 (n / 112)] ++ (if mapEntry s n = 1 then [s.overDamage.get 0 (n / 7)] else []) ++ [s.damage.get 0 n]

/-- Whether a sector is delivered poisoned: a codeword is uncorrectable, or its map entry is 0b10 or 0b11 (R385 to R387). -/
def sectorBad (s : State) (n : Nat) : Bool := (codewords s n).any (2 < ·) || (mapEntry s n).getLsbD 1

/-- How many codewords of a sector the decoder corrects, up to the first that it cannot (R385). -/
def corrected (s : State) (n : Nat) : Nat := (((codewords s n).takeWhile (· ≤ 2)).filter (0 < ·)).length

/-- The bits of a sector in the mask of its line. -/
def sectorMask (i : Nat) : BitVec 128 := BitVec.ofNat 128 ((2 ^ 32 - 1) * 2 ^ (32 * i))

/-- Bring in what a line lacks of a sector: the controller corrects up to two damaged symbols of a codeword, and a sector that it
delivers poisoned poisons the bytes that no write has replaced (R381, R385, R387).  The unit of the record is the memory stack of the
line's home slice, 32 slices to a stack (PRESUMED log 9). -/
def fillSector (s : State) (ln : Nat) (held : BitVec 128) (i : Nat) : State :=
  if restClean s || held &&& sectorMask i == sectorMask i then s
  else
    let n := ln * 4 + i
    let o := holderOf s (n * 32)
    let s1 := s.modCtx o fun c => { c with counts := { c.counts with dcor := c.counts.dcor + corrected s n } }
    if !sectorBad s n then s1
    else
      let old := (List.range 32).map fun j => !held.getLsbD (32 * i + j) || poisonAt s (n * 32 + j)
      boxAdd ((setPoison s1 (n * 32) old).modCtx o fun c => { c with counts := { c.counts with dunc := c.counts.dunc + 1 } })
        0x10 o (8 + homeSlice s ln / 32) (leBytes 8 (n * 32))

/-- The line as its home slice holds it: one whose owner identity is not that of the domain is a miss (R332). -/
def llcLine (s : State) (ln : Nat) : LlcLine :=
  let o := holderOf s (ln * 128)
  let new : LlcLine := { owner := o, held := if onlyLlc s ln then -1 else 0, dirty := 0, slice := homeSlice s ln }
  match s.llc.find? ln with
  | some l => if l.owner = o then l else new
  | none => new

/-- A read of a line at its home: what the LLC lacks of it comes from the memory controller (R332). -/
def homeFetch (s : State) (key : Nat) : State :=
  if 2 ^ 56 ≤ key then s
  else
    let ln := key / 128
    let l := llcLine s ln
    let s1 := (List.range 4).foldl (fun s i => fillSector s ln l.held i) s
    { s1 with llc := s1.llc.put ln { l with held := -1 } }

/-- A write of bytes of a line at its home, which reads nothing (R381). -/
def homeStore (s : State) (key n : Nat) : State :=
  if 2 ^ 56 ≤ key then s
  else
    let ln := key / 128
    let l := llcLine s ln
    let bits (i : Nat) : BitVec 4 := if key % 128 < 32 * i + 32 && 32 * i < key % 128 + n then 1#4 <<< i else 0
    let t : LlcLine :=
      { l with held := l.held ||| BitVec.ofNat 128 ((2 ^ n - 1) * 2 ^ (key % 128)),
               dirty := l.dirty ||| bits 0 ||| bits 1 ||| bits 2 ||| bits 3 }
    { s with llc := s.llc.put ln t }

/-- The write-back of a sector of a line: one with a poisoned byte is marked 0b10, its stored bytes unchanged; another is stored clean,
compressed or raw (R381, R384, R386, R387).  A row that takes a new entry or check is stored anew where it can be corrected. -/
def storeSector (s : State) (ln : Nat) (l : LlcLine) (i : Nat) : State :=
  if !l.dirty.getLsbD i then s
  else
    let s1 := fillSector s ln l.held i
    let n := ln * 4 + i
    let fresh (t : Tab Nat) (r : Nat) : Tab Nat := if t.get 0 r ≤ 2 then t.erase r else t
    let s2 := { s1 with mapDamage := fresh s1.mapDamage (n / 112) }
    if anyPoison s1 (n * 32) 32 then { s2 with sectorMap := s2.sectorMap.put n 2 }
    else
      { s2 with
        sectorMap := s2.sectorMap.put n (if Config.compresses (readBytes s1 (n * 32) 32) then 0 else 1)
        damage := s2.damage.erase n
        overDamage := fresh s2.overDamage (n / 7) }

/-- A line leaves the LLC: its written sectors are stored (R387); one of an `.llc` arena never leaves (R344). -/
def evictLine (s : State) (ln : Nat) : State :=
  match s.llc.find? ln with
  | none => s
  | some l =>
    if onlyLlc s ln then s
    else
      let s1 := (List.range 4).foldl (fun s i => storeSector s ln l i) s
      { s1 with llc := s1.llc.erase ln }

/-- Whether a counter of a page reaches the threshold with this access: once in a window (R340, R347). -/
def reached (s : State) (p : Page) (which c : Nat) : Bool := s.pkg.threshold ≤ c && !p.asked.contains which

/-- The package of a device counter of host-bias pages, and of host accesses, among the counters of a page. -/
def devCounter : Nat := 256
def hostCounter : Nat := 257

/-- A counter that has reached the threshold. -/
def Page.ask (p : Page) (yes : Bool) (which : Nat) : Page := if yes then { p with asked := which :: p.asked } else p

/-- One access that reaches the home of a page (R340, R347): the counter of its package rises, and that of device accesses while the page
is in host bias; an event arrives when a counter reaches the threshold. -/
def countAccess (s : State) (key : Nat) (pkg : Nat) : State :=
  if 2 ^ 55 ≤ key then s
  else
    let n := key / 2 ^ 15
    let p := s.page n
    if p.holder = 0 then s
    else
      let c := p.counters.get 0 pkg + 1
      let d := p.devCount + 1
      let host := p.bias == .host
      let s1 := s.modPage n fun p =>
        let q := (({ p with counters := p.counters.put pkg c } : Page).ask (reached s p pkg c) pkg)
        if host then ({ q with devCount := d } : Page).ask (reached s p devCounter d) devCounter else q
      if host then
        if reached s p devCounter d then { s1 with agenda := s1.agenda ++ [.biasRequest n false] } else s1
      else if reached s p pkg c then { s1 with agenda := s1.agenda ++ [.pageMigration n pkg] }
      else s1

/-- The first write to a page that a move write-protects marks it dirty and restores W (R411). -/
def MoveSt.wrote (m : MoveSt) (n : Nat) : MoveSt :=
  if m.clean.contains n then { m with dirty := m.dirty ++ [n], clean := m.clean.erase n } else m

def dirtyPage (s : State) (key : Nat) : State :=
  if 2 ^ 56 ≤ key then s
  else
    let o := holderOf s key
    match (s.ctx o).move with
    | none => s
    | some m => s.modCtx o fun c => { c with move := some (m.wrote (key / 2 ^ 15)) }

/-- The lines that some bytes touch, with the part in each. -/
def lineParts (key n : Nat) : List (Nat × Nat) :=
  if n = 0 then []
  else (List.range ((key + n - 1) / 128 + 1 - key / 128)).map fun i =>
    let lo := Nat.max key ((key / 128 + i) * 128)
    (lo, Nat.min (key + n) ((key / 128 + i + 1) * 128) - lo)

/-! ### The memory order (R260 to R265) -/

def lineOf (key : Nat) : Nat := key / 128

/-- The owner of a memory key: the domain of its page or arena, or of its quad. -/
def keyOwner (s : State) (key : Nat) : Nat := if isScratchKey key then (key - 2 ^ 56) / 2 ^ 22 / ownerSpan else holderOf s key

/-- A time as an island keeps it: raised to the floor of R265 where it stands before it. -/
def raised (floor t : Time) : Time := if Time.earlier t floor then floor else t

/-- The times of a line that stand before the floor are raised to it (R265). -/
def Line.raised (floor : Time) (l : Line) : Line := if Time.earlier l.wts floor then { wts := floor, rts := Time.later (floor + 1) l.rts } else l

/-- The write time of a line without an entry: the floor of its island, or what an earlier life of its arena or mode of its bank has left (R260, R265,
R269). -/
def lineBase (s : State) (key : Nat) : Time :=
  let floor := (s.ctx (keyOwner s key)).floor
  let left : Option Time :=
    if isScratchKey key then (s.quad ((key - 2 ^ 56) / 2 ^ 22)).bankTimes.find? (bankOf ((key - 2 ^ 56) % 2 ^ 22))
    else if 2 ^ 55 ≤ key then (s.arena ((key - 2 ^ 55) / 2 ^ 40)).time
    else none
  left.elim floor (raised floor)

/-- The times of a line at its home (R260, R265). -/
def State.line (s : State) (ln : Nat) : Line :=
  match s.lines.find? ln with
  | some l => l.raised (s.ctx (keyOwner s (ln * 128))).floor
  | none => { wts := lineBase s (ln * 128), rts := lineBase s (ln * 128) + 1 }

/-- The latest of some time and the lease ends of the lines of a range of keys that have been accessed, if any has (R269). -/
def timeLeft (s : State) (lo hi : Nat) (t : Option Time) : Option Time :=
  (s.lines.filter fun e => lo ≤ e.1 * 128 && e.1 * 128 < hi).foldl (fun t e =>
    let r := (s.line e.1).rts
    some (t.elim r (Time.later r))) t

/-- Whether a copy of a line may be used by a thread at time `tt` for a domain: R263, and the owner tag (R332). -/
def LineCopy.usable (c : LineCopy) (tt : Time) (age o : Nat) : Bool :=
  Time.earlier tt c.crts && age - c.fetched < 4096 && c.owner == o

def setLine (s : State) (n : Nat) (l : Line) : State := { s with lines := s.lines.put n l }

/-- A copy of a line as its home holds it now. -/
def lineCopy (s : State) (ln : Nat) (wts crts : Time) (fetched : Nat) : LineCopy :=
  { bytes := readBytes s (ln * 128) 128, poison := poisoned s (ln * 128) 128, wts, crts, fetched, owner := holderOf s (ln * 128) }

/-- Keep the content of a line that a write is about to replace: the constant path may still return it (R138). -/
def keepVersion (s : State) (writer : Option Nat) (key n : Nat) : State :=
  if isScratchKey key then s
  else
    let ln := lineOf key
    let v : Version :=
      { write := s.writes, writer, lo := key, len := n, bytes := readBytes s (ln * 128) 128, poison := poisoned s (ln * 128) 128 }
    { s with writes := s.writes + 1, past := s.past.put ln (v :: s.past.get [] ln) }

/-- Whether a run of pages can be one mapping of the translation unit: all held by one domain in one tier, none in flight, and wholly in
one lease range or arena (R333). -/
def oneMapping (s : State) (lo n : Nat) : Bool :=
  if 2 ^ 40 ≤ lo then
    let a := s.arena ((lo - 2 ^ 40) / 2 ^ 25)
    lo % 2 ^ 25 + n ≤ a.pages
  else
    let p := s.page lo
    p.holder != 0 &&
      ((s.ctx p.holder).leases.any fun l => l.base ≤ lo * 2 ^ 15 && (lo + n) * 2 ^ 15 ≤ l.base + l.len) &&
      ((s.pages.filter fun e => lo ≤ e.1 && e.1 < lo + n && e.2.holder == p.holder && e.2.tier == p.tier && e.2.pkg == p.pkg &&
        e.2.inFlight.isNone).length == n)

/-- The size of the mapping that holds a page, as a power of two pages: 32 MiB, 1 MiB or 32 KiB (R333). -/
def mappingOf (s : State) (n : Nat) : Nat :=
  if oneMapping s (n / 1024 * 1024) 1024 then 10 else if oneMapping s (n / 32 * 32) 32 then 5 else 0

/-- Whether a PLB entry covers a page for a domain (R329). -/
def PlbEntry.covers (e : PlbEntry) (page o : Nat) : Bool :=
  e.base.toNat / 2 ^ e.k.toNat == page / 2 ^ e.k.toNat && e.dom == BitVec.ofNat 12 o

/-- The rights that a PLB entry of a page gives: those of the domain tables, without W while the page is write-protected for a move (R329, R331, R411). -/
def plbRights (s : State) (o : Nat) (w : Window) (ea : Word) (n : Nat) : BitVec 4 :=
  if (s.ctx o).move.any fun m => m.clean.contains n then rightsAt s o w ea &&& ~~~rW else rightsAt s o w ea

/-- The region of a page that one PLB entry can cover: its mapping where the pages of that have the same rights, else the page. -/
def plbRegion (s : State) (o : Nat) (w : Window) (n : Nat) : Nat :=
  let k := mappingOf s n
  let lo := n / 2 ^ k * 2 ^ k
  if (s.ctx o).move.any fun m => m.clean.any fun x => lo ≤ x && x < lo + 2 ^ k then 0
  else if w = .arena || (s.pages.filter fun e => lo ≤ e.1 && e.1 < lo + 2 ^ k).all fun e => e.2.rights == (s.page n).rights && e.2.holder == o
  then k else 0

/-- Fill an entry of the core's PLB where no valid one covers the page with the rights that an access finds now (R329); it holds 512
entries (DESIGN CHOICE log 18). -/
def plbFill (s : State) (core key : Nat) (o : Nat) (w : Window) (ea : Word) : State :=
  if 2 ^ 56 ≤ key then s
  else
    let n := key / 2 ^ 15
    let rights := plbRights s o w ea n
    let c := s.core core
    if c.plb.any fun e => e.covers n o && e.rights == rights then s
    else
      let k := plbRegion s o w n
      let e : PlbEntry :=
        { base := BitVec.ofNat 41 (n / 2 ^ k * 2 ^ k), k := BitVec.ofNat 5 k, rights, agc := w == .arena,
          gen := if w = .arena then (s.arena (arenaSlot ea)).gen else 0, dom := BitVec.ofNat 12 o }
      let kept := c.plb.filter fun x => !(x.covers n o || e.covers x.base.toNat o)
      s.setCore core { c with plb := (kept ++ [e]).drop (kept.length + 1 - 512) }

/-- Whether a quad has a cache-way bank (R153). -/
def hasWays (s : State) (quad : Nat) : Bool := (List.range 16).any fun b => (s.quad quad).mode b == .cache

/-- The load of `n` bytes by slot `k` (R261): from the core's copy where R263 allows it, else from the cache ways of the quad, else from
the home (R332). -/
def loadBytes (s : State) (k key n : Nat) : List Byte × List Bool × State :=
  let ln := lineOf key
  let core := coreOf k
  let c := s.core core
  let fits (t : Tab LineCopy) : Option LineCopy := (t.find? ln).filter fun cp => inDevBias s key && cp.usable (s.slot k).tt c.age (ownerOf k)
  match fits c.copies with
  | some cp => fromCopy s cp
  | none =>
    if isScratchKey key then fetch s ln core
    else match if isQuay k then none else fits (s.quad (quadOf k)).ways with
      | some cp => fromCopy (s.modCore core fun c => { c with copies := c.copies.put ln cp }) cp
      | none => fetch (homeFetch (countAccess s key (lpkgOf k)) key) ln core
where
  /-- The bytes of a copy. -/
  fromCopy (s : State) (cp : LineCopy) : List Byte × List Bool × State :=
    let o := key % 128
    ((cp.bytes.drop o).take n, (cp.poison.drop o).take n,
      s.modSlot k fun x => { x with tt := Time.later x.tt (cp.wts + 1) })
  /-- Read the home, and keep copies of a line of the global or arena window. -/
  fetch (s : State) (ln core : Nat) : List Byte × List Bool × State :=
    let l := s.line ln
    let ts := Time.later (s.slot k).tt (l.wts + 1)
    let s1 := setLine s ln { l with rts := Time.later l.rts (ts + 16) }
    let cp := lineCopy s ln l.wts (ts + 16) (s.core core).age
    let s2 :=
      if isScratchKey key || !inDevBias s key then s1
      else
        let t := s1.modCore core fun c => { c with copies := c.copies.put ln cp }
        if isQuay k || !hasWays s (quadOf k) then t else t.modQuad (quadOf k) fun q => { q with ways := q.ways.put ln cp }
    (readBytes s key n, poisoned s key n, s2.modSlot k fun x => { x with tt := ts })

/-- Take a place in the order as a store at the home of a line does (R261). -/
def storeTime (s : State) (k key : Nat) : State :=
  let ln := lineOf key
  let ts := Time.later (s.slot k).tt (s.line ln).rts
  (setLine s ln { wts := ts, rts := ts + 1 }).modSlot k fun x => { x with tt := ts }

/-- A store refreshes the issuing core's copy (R261). -/
def refreshCopy (s : State) (k key : Nat) : State :=
  let ln := lineOf key
  let c := s.core (coreOf k)
  match c.copies.find? ln with
  | none => s
  | some _ =>
    let l := s.line ln
    s.setCore (coreOf k)
      { c with copies := c.copies.put ln (lineCopy s ln l.wts (l.wts + 1) c.age) }

/-- What a write does at the home of a line before its bytes change (R138, R332, R340, R411). -/
def beforeWrite (s : State) (writer : Option Nat) (key n : Nat) : State :=
  homeStore (keepVersion (dirtyPage s key) writer key n) key n

/-- The store of bytes by slot `k` at its home (R261). -/
def storeBytes (s : State) (k key : Nat) (bs : List Byte) : State :=
  let s1 := storeTime (beforeWrite (countAccess s key (lpkgOf k)) (some k) key bs.length) k key
  refreshCopy (writeBytes s1 key bs) k key

/-- A read-modify-write at the home (R261): the bytes as they stand there, and the state behind the read. -/
def homeBytes (s : State) (k key n : Nat) : List Byte × List Bool × State :=
  let t := homeFetch (countAccess s key (lpkgOf k)) key
  (readBytes t key n, poisoned t key n, t)

/-- The times of a line behind a write with no thread time (R267). -/
def Line.written (l : Line) : Line := { wts := Time.later l.wts l.rts, rts := Time.later l.wts l.rts + 1 }

/-- A write by the engine, an accumulator drain or the device itself, at the home and with no thread time (R267). -/
def deviceWrite (s : State) (key : Nat) (bs : List Byte) : State :=
  let ln := lineOf key
  writeBytes (setLine (beforeWrite s none key bs.length) ln (s.line ln).written) key bs

/-- The value of bytes, least significant first (R7). -/
def leWord (bs : List Byte) : Nat := leNat bs.length bs

/-! ### Levels (R20) -/

/-- The stack of a slot's physical place: the compute stack of its quad, or the one its memory stack is paired with (R20, R413)
(PRESUMED log 9). -/
def physStack (s : State) (k : Nat) : Nat :=
  if isQuay k then s.physQuay k / 64
  else
    let (col, row) := s.physQuad k
    col / 8 + 2 * (row / 8)

/-- The stack unit of a slot: a fixed property of its place, which a move to other parts leaves as it was (R19, R20) (DEDUCED log 91). -/
def stackOf (s : State) (k : Nat) : Nat := ((s.ctx (ownerOf k)).units.find? (tidOf (quadOf k))).getD (physStack s k)

/-- The power domain of a slot's place: its compute stack, or the memory stack of its quay core (R414, R415) (PRESUMED log 9). -/
def domainOf (s : State) (k : Nat) : Nat := if isQuay k then 8 + s.physQuay k / 32 else physStack s k

/-- The unit of a level that holds a slot, as a number within its owner; a quay slot belongs to no quad (R207). -/
def unitOf (s : State) (k : Nat) : Scope → Nat
  | .th => tidOf k
  | .cr => tidOf (coreOf k)
  | .qd => tidOf (quadOf k)
  | .sk => stackOf s k
  | .pk | .pd => 0

/-- A scope as a slot names it: for a quay slot `.qd` acts as `.sk` (R207). -/
def scopeFor (k : Nat) (sc : Scope) : Scope := if isQuay k && sc == .qd then .sk else sc

/-- Whether slot or core `j` lies in the level's unit of `k`. -/
def within (s : State) (k : Nat) (sc : Scope) (j : Nat) : Bool :=
  let sc' := scopeFor k sc
  ownerOf k == ownerOf j && unitOf s k sc' == unitOf s j sc' && (sc' != .qd || !isQuay j)

/-! ### The constant path (R138, R149, R268) -/

/-- A stack's copies are kept by owner, stack and line. -/
def stackKey (s : State) (k ln : Nat) : Nat := (ownerOf k * 8 + stackOf s k) * 2 ^ 56 + ln

/-- What the constant path holds of a line for a slot: the copies of its core, quad and stack. -/
def constCopies (s : State) (k ln : Nat) : List (List Byte × List Bool) :=
  ((s.core (coreOf k)).ccopies.find? ln).toList ++ (if isQuay k then [] else ((s.quad (quadOf k)).ccopies.find? ln).toList) ++
    (s.stackCopies.find? (stackKey s k ln)).toList

/-- The six scopes. -/
def Scope.all : List Scope := [.th, .cr, .qd, .sk, .pk, .pd]

/-- Whether a slot must see a write in some bytes: one by a thread within the scope of a fence of the slot that stands behind it (R149). -/
def mustSee (s : State) (k key n : Nat) (v : Version) : Bool :=
  v.lo < key + n && key < v.lo + v.len &&
    v.writer.any fun w => Scope.all.any fun sc => v.write < (s.slot k).fences.get 0 sc.code.toNat && within s k sc w

/-- How many writes stood in the order at the drop since which each level may have taken a copy that still reaches a slot: the earliest of its
core's, its quad's and its stack's (R268). -/
def constReach (s : State) (k : Nat) : Nat :=
  let up := Nat.min (s.core (coreOf k)).constAt ((s.ctx (ownerOf k)).constDrops.get 0 (stackOf s k))
  if isQuay k then up else Nat.min up (s.quad (quadOf k)).constAt

/-- The older contents of a line that the constant path may still return for some bytes to a slot, newest first: those that some level may hold,
that no fence forbids, and none older than what the slot read before its last fence (R138, R149, R268) (DESIGN CHOICE log 16). -/
def olderVersions (s : State) (k key n : Nat) : List Version :=
  let floor := (List.range n).foldl (fun m i => Nat.max m ((s.slot k).constFloor.get 0 (key + i))) (constReach s k)
  (s.past.get [] (lineOf key)).takeWhile fun v => !mustSee s k key n v && floor ≤ v.write

/-- The line as it stands, and the state behind its read at the home. -/
def constHome (s : State) (k key : Nat) : (List Byte × List Bool) × State :=
  let t := homeFetch (countAccess s key (lpkgOf k)) key
  ((readBytes t (key / 128 * 128) 128, poisoned t (key / 128 * 128) 128), t)

/-- Hold a content of a line at the three levels (R268). -/
def holdConst (s : State) (k ln : Nat) (e : List Byte × List Bool) : State :=
  let s1 := s.modCore (coreOf k) fun c => { c with ccopies := c.ccopies.put ln e }
  let s2 := if isQuay k then s1 else s1.modQuad (quadOf k) fun q => { q with ccopies := q.ccopies.put ln e }
  { s2 with stackCopies := s2.stackCopies.put (stackKey s k ln) e }

/-- The slot has read bytes of a content behind some number of writes. -/
def sawConst (s : State) (k key n at_ : Nat) : State :=
  s.modSlot k fun x => { x with constSeen := (List.range n).foldl (fun t i => t.put (key + i) at_) x.constSeen }

/-- A read of the constant path: the current content or an older one that may still return, as a free value chooses; a content that no copy
holds comes from the home (R138, R149, R268) (DESIGN CHOICE log 16). -/
def constBytes (s : State) (k key n : Nat) : List Byte × List Bool × State :=
  let o := key % 128
  let (f, s0) := s.tick
  let older := olderVersions s k key n
  let (now, s1) := constHome s0 k key
  let old := if older.isEmpty then none else (none :: older.map some).getD (Config.freeChoice f % (older.length + 1)) none
  let e := match old with
    | some v => (v.bytes, v.poison)
    | none => now
  let s2 := if (constCopies s k (lineOf key)).contains e then s0 else s1
  ((e.1.drop o).take n, (e.2.drop o).take n,
    sawConst (holdConst s2 k (lineOf key) e) k key n (match old with | some v => v.write | none => s.writes))

/-- A fence of a slot (R149, R268): the copies its scope names are dropped, the writes before it stand behind it, and nothing
older than what the slot has read returns. -/
def fenceConst (s : State) (k : Nat) (sc : Scope) : State :=
  let sc' := scopeFor k sc
  let s1 := s.modCore (coreOf k) fun c => { c with ccopies := [], constAt := s.writes }
  let s2 := if sc' == .th || sc' == .cr || isQuay k then s1 else s1.modQuad (quadOf k) fun q => { q with ccopies := [], constAt := s.writes }
  let s3 :=
    if sc' == .sk || sc' == .pk || sc' == .pd then
      ({ s2 with stackCopies := s2.stackCopies.filter fun e => e.1 / 2 ^ 56 != ownerOf k * 8 + stackOf s k } : State).modCtx (ownerOf k) fun c =>
        { c with constDrops := c.constDrops.put (stackOf s k) s.writes }
    else s2
  s3.modSlot k fun x =>
    { x with fences := x.fences.put sc.code.toNat s.writes
             constFloor := x.constSeen.foldl (fun t e => t.put e.1 (Nat.max e.2 (t.get 0 e.1))) x.constFloor }

/-! ### Full/empty tags (R141) -/

def wordKey (key : Nat) : Nat := key / 8
def isFull (s : State) (key : Nat) : Bool := s.full.get false (wordKey key)
def setFull (s : State) (key : Nat) (b : Bool) : State := { s with full := s.full.set false (wordKey key) b }

/-! ### Erasure -/

/-- Forget memory from a key up to another: bytes read as unlisted, without poison, tags EMPTY, and nothing of it is left in the LLC or at
rest. -/
def eraseRange (s : State) (lo hi : Nat) : State :=
  let out (unit n : Nat) : Bool := n * unit < lo || hi ≤ n * unit
  { s with
    mem := s.mem.filter fun e => e.1 < lo || hi ≤ e.1
    poison := s.poison.filter fun e => out 1 e.1
    full := s.full.filter fun e => out 8 e.1
    past := s.past.filter fun e => out 128 e.1
    llc := s.llc.filter fun e => out 128 e.1
    damage := s.damage.filter fun e => out 32 e.1
    sectorMap := s.sectorMap.filter fun e => out 32 e.1 }

/-- The times of lines whose memory goes to another life are gone with it (R260). -/
def forgetTimes (s : State) (lo hi : Nat) : State := { s with lines := s.lines.filter fun e => e.1 * 128 < lo || hi ≤ e.1 * 128 }

/-- Write bytes at the home of their lines with no place in the order, as a load of an image does: the LLC holds them until they are stored (R317,
R332). -/
def writeHome (s : State) (key : Nat) (bs : List Byte) : State :=
  writeBytes ((lineParts key bs.length).foldl (fun s p => homeStore s p.1 p.2) s) key bs

/-- Drop every copy of the lines of a range, in every core, quad and stack (R250, R321). -/
def dropCopies (s : State) (lo hi : Nat) : State :=
  let out (ln : Nat) : Bool := ln * 128 + 128 ≤ lo || hi ≤ ln * 128
  { s with
    cores := s.cores.map fun e => (e.1, { e.2 with
      copies := e.2.copies.filter fun c => out c.1
      ccopies := e.2.ccopies.filter fun c => out c.1 })
    quads := s.quads.map fun e => (e.1, { e.2 with
      ccopies := e.2.ccopies.filter fun c => out c.1
      ways := e.2.ways.filter fun c => out c.1 })
    stackCopies := s.stackCopies.filter fun c => out (c.1 % 2 ^ 56) }

/-- The launch of a task (R92, R138, R268): its lines have the content of now and no older one, and its constant-path copies are dropped. -/
def launchConst (s : State) (o : Nat) : State :=
  { s with
    past := s.past.filter fun e => holderOf s (e.1 * 128) != o
    cores := s.cores.map fun e => if ownerOf e.1 = o then (e.1, { e.2 with ccopies := [] }) else e
    quads := s.quads.map fun e => if ownerOf e.1 = o then (e.1, { e.2 with ccopies := [] }) else e
    stackCopies := s.stackCopies.filter fun e => e.1 / 2 ^ 59 != o }

end Sys2Proof.Machine
end

