-- ==== Sys2Proof/Machine/Regs.lean ====
section
/-! DEFINITION. Registers and queues: what each number reads as and what a write to it does (R21 to R25, R243, R280). -/

namespace Sys2Proof.Machine

/-! ### Registers that hold an error (R389)

A register is numbered in its slot: general register r as r, predicate p as 64 + p, index register i as 72 + i, mask register m as 80 + m,
RMODE, RSEED, FFLAGS, WLIM and TSCR as 88 to 92, lane l of vector register v as 128 + 256 v + l.  A write replaces the error with
the value. -/

def badPred (p : Nat) : Nat := 64 + p
def badIndex (i : Nat) : Nat := 72 + i
def badMask (m : Nat) : Nat := 80 + m
def badLane (v l : Nat) : Nat := 128 + 256 * v + l
/-- The thread-scope system registers that R21 lists among a slot's registers (DESIGN CHOICE log 106). -/
def badSys : SysReg → Option Nat
  | .rmode => some 88
  | .rseed => some 89
  | .fflags => some 90
  | .wlim => some 91
  | .tscr => some 92
  | _ => none

/-- A register has been written. -/
def Slot.mended (x : Slot) (n : Nat) : Slot := if x.bad.isEmpty then x else { x with bad := x.bad.erase n }

/-- A system register has been written. -/
def Slot.mendedSys (x : Slot) (r : SysReg) : Slot := (badSys r).elim x x.mended

/-- The nest indices as `next` writes them, all four (R240). -/
def Slot.setI (x : Slot) (l : Tab (BitVec 32)) : Slot :=
  { x with i := l, bad := x.bad.filter fun e => e.1 < badIndex 0 || badMask 0 ≤ e.1 }

/-! ### General, predicate and mask registers -/

/-- A general register that is not a queue: g0 reads zero (R21). -/
def Slot.getG (x : Slot) (r : Reg) : Word := if r = 0 then 0 else x.g.get 0 r.toNat

/-- Write a general register that is not a queue; a write to g0 is dropped (R21, R23). -/
def Slot.setG (x : Slot) (r : Reg) (v : Word) : Slot := if r = 0 then x else ({ x with g := x.g.set 0 r.toNat v } : Slot).mended r.toNat

/-- A predicate: p7 reads 1 (R21). -/
def Slot.getP (x : Slot) (r : PReg) : Bool := if r = 7 then true else x.p.getLsbD r.toNat

/-- Write a predicate; a write to p7 is dropped. -/
def Slot.setP (x : Slot) (r : PReg) (b : Bool) : Slot :=
  if r = 7 then x
  else ({ x with p := if b then x.p ||| (1#7 <<< r.toNat) else x.p &&& ~~~ (1#7 <<< r.toNat) } : Slot).mended (badPred r.toNat)

/-- The number of lanes of a core (R21). -/
def lanes (gangw : Nat) : Nat := 64 * gangw

/-- All ones in the lanes of a core. -/
def fullMask (n : Nat) : BitVec 256 := BitVec.ofNat 256 (2 ^ n - 1)

/-- A mask register: m7 reads all ones (R21). -/
def Slot.getM (x : Slot) (n : Nat) (r : MReg) : BitVec 256 := if r = 7 then fullMask n else x.m.get 0 r.toNat &&& fullMask n

def Slot.setM (x : Slot) (n : Nat) (r : MReg) (v : BitVec 256) : Slot :=
  if r = 7 then x else ({ x with m := x.m.set 0 r.toNat (v &&& fullMask n) } : Slot).mended (badMask r.toNat)

/-- Lane `l` of a vector register (R24). -/
def Slot.getV (x : Slot) (r : VReg) (l : Nat) : Lane := x.v.get 0 (r.toNat * 256 + l)
def Slot.setV (x : Slot) (r : VReg) (l : Nat) (v : Lane) : Slot :=
  ({ x with v := x.v.set 0 (r.toNat * 256 + l) v } : Slot).mended (badLane r.toNat l)

/-! ### Queue registers -/

/-- The number of a queue register. -/
def queueOf (r : Reg) : Nat := r.toNat - 56

def CoreSt.queue (c : CoreSt) (q : Nat) : QueueSt := c.queues.get {} q

/-- The entries of a queue: its own, or those of the FIFO bank it is bound to (R243). -/
def qEntries (s : State) (core q : Nat) : List Word :=
  let x := (s.core core).queue q
  match x.bank with
  | none => x.entries
  | some b => (s.quad (quadOf core)).fifos.get [] b.toNat

def qCap (s : State) (core q : Nat) : Nat := ((s.core core).queue q).lim

/-- Which of its entries, from the front, hold an error that cannot be corrected (R389). -/
def qBad (s : State) (core q : Nat) : List Bool :=
  let x := (s.core core).queue q
  match x.bank with
  | none => x.bad
  | some b => (s.quad (quadOf core)).fifoBad.get [] b.toNat

/-- Replace the entries of a queue; `bad` says which of them hold an error. -/
def qSet (s : State) (core q : Nat) (es : List Word) (bad : List Bool := []) : State :=
  let x := (s.core core).queue q
  match x.bank with
  | none => s.modCore core fun c => { c with queues := c.queues.put q { x with entries := es, bad } }
  | some b => s.modQuad (quadOf core) fun y =>
      { y with fifos := y.fifos.put b.toNat es, fifoBad := y.fifoBad.set [] b.toNat bad }

/-- Whether two queue registers are one queue: the same register of one core, or bound to one bank of the quad (R243). -/
def sameQueue (s : State) (c1 q1 c2 q2 : Nat) : Bool :=
  match ((s.core c1).queue q1).bank, ((s.core c2).queue q2).bank with
  | some b1, some b2 => b1 == b2 && quadOf c1 == quadOf c2
  | none, none => c1 == c2 && q1 == q2
  | _, _ => false

/-- A blocked slot for which one entry of room in queue `q` is held: it has passed its wait for room (R22). -/
def Block.holdsRoom (b : Block) (q : Nat) : Bool :=
  match b.wait with
  | .qPush _ | .qPop _ => false
  | _ => b.dst.any fun d => d.isQueue && queueOf d == q

/-- The blocked slots other than `k`. -/
def others (s : State) (k : Nat) : List (Nat × Block) :=
  s.slots.filterMap fun e => if e.1 = k then none else e.2.blk.map fun b => (e.1, b)

/-- The place in the order of waiters: a slot that is not blocked comes last. -/
def ticketOf (s : State) (k : Nat) : Nat :=
  match (s.slot k).blk with
  | some b => b.ticket
  | none => s.ticket

/-- Whether a register of a core is the queue `q` of core `c`. -/
def namesQueue (s : State) (c q core : Nat) (r : Reg) : Bool := r.isQueue && sameQueue s c q core (queueOf r)

/-- Whether a slot waits for entries or for room of queues (R22, R280). -/
def Block.onQueues (b : Block) : Bool :=
  match b.wait with
  | .qPop _ | .qPush _ => true
  | _ => false

/-- Whether an entry of room of a queue is held for another slot, behind which every later pusher waits (R22). -/
def roomHeld (s : State) (k q : Nat) : Bool :=
  (others s k).any fun e => e.2.dst.any fun d => e.2.holdsRoom (queueOf d) && namesQueue s (coreOf k) q (coreOf e.1) d

/-- Room of a queue that bank switches in progress have taken for their results. -/
def switchRoom (s : State) (k q : Nat) : Nat :=
  (s.quads.map fun e => (e.2.switches.filter fun w => namesQueue s (coreOf k) q (coreOf w.slot) w.dst).length).sum

/-- Times a queue is named in a list of source registers: registers bound to one bank are one queue (R243). -/
def timesNamed (s : State) (k : Nat) (rs : List Reg) (q : Nat) : Nat := (rs.filter (namesQueue s (coreOf k) q (coreOf k))).length

/-- A claim of a waiter on a queue: its core, the queue register, and whether it is for room. -/
abbrev Claim := Nat × Nat × Bool

/-- Whether a claim is on a queue. -/
def Claim.on (c : Claim) (s : State) (core q : Nat) (push : Bool) : Bool := c.2.2 == push && sameQueue s core q c.1 c.2.1

/-- Whether a queue has too few entries for the source registers of an instruction (R22). -/
def entriesShort (s : State) (k : Nat) (rs : List Reg) (q : Nat) : Bool := (qEntries s (coreOf k) q).length < timesNamed s k rs q

/-- Whether a queue has no room for a push: the entries that the instruction itself pops count as free space (R22, R280). -/
def roomShort (s : State) (k : Nat) (rs : List Reg) (q : Nat) : Bool :=
  qCap s (coreOf k) q + timesNamed s k rs q < (qEntries s (coreOf k) q).length + switchRoom s k q + 1 || roomHeld s k q

/-- What a waiter on queues claims beside earlier claims: the queues on which it is blocked, by too few entries, no room or an earlier claim;
where all of them can serve it, every one (R280). -/
def Block.claims (s : State) (k : Nat) (b : Block) (earlier : List Claim) : List Claim :=
  let core := coreOf k
  let all : List Claim := (b.srcs.filter Reg.isQueue).map (fun r => (core, queueOf r, false)) ++
    (b.dst.toList.filter Reg.isQueue).map fun r => (core, queueOf r, true)
  let short := all.filter fun c =>
    (if c.2.2 then roomShort s k b.srcs c.2.1 else entriesShort s k b.srcs c.2.1) || earlier.any fun e => e.on s core c.2.1 c.2.2
  if short.isEmpty then all else short

/-- Insert a waiter by its place in the order. -/
def insertWaiter (e : Nat × Block) : List (Nat × Block) → List (Nat × Block)
  | [] => [e]
  | x :: l => if e.2.ticket < x.2.ticket then e :: x :: l else x :: insertWaiter e l

/-- The older waiters on queues beside slot `k`, in the order in which they blocked. -/
def olderWaiters (s : State) (k : Nat) : List (Nat × Block) :=
  ((others s k).filter fun e => e.2.onQueues && e.2.ticket < ticketOf s k).foldr insertWaiter []

/-- Whether an older waiter blocked on the entries or on the room of the queue stands before slot `k` (R280). -/
def olderWaiter (s : State) (k q : Nat) (push : Bool) : Bool :=
  ((olderWaiters s k).foldl (fun cs e => cs ++ e.2.claims s e.1 cs) []).any fun c => c.on s (coreOf k) q push

/-- The first queue among the sources that cannot serve the instruction: too few entries, or an older waiter (R22, R280). -/
def popShort (s : State) (k : Nat) (rs : List Reg) : Option Nat :=
  (rs.find? fun r => r.isQueue && (entriesShort s k rs (queueOf r) || olderWaiter s k (queueOf r) false)).map queueOf

/-- Whether a push of the destination has no room; a slot for which room is held has it (R22). -/
def pushShort (s : State) (k : Nat) (rs : List Reg) (d : Reg) : Bool :=
  d.isQueue && !((s.slot k).blk.any fun b => b.holdsRoom (queueOf d)) &&
    (roomShort s k rs (queueOf d) || olderWaiter s k (queueOf d) true)

/-- Read one source register: a queue register pops its oldest entry (R22). -/
def readReg (s : State) (k : Nat) (r : Reg) : Word × State :=
  if r.isQueue then
    match qEntries s (coreOf k) (queueOf r) with
    | [] => (0, s)
    | e :: t => (e, qSet s (coreOf k) (queueOf r) t (qBad s (coreOf k) (queueOf r)).tail)
  else ((s.slot k).getG r, s)

/-- Read the sources in operand order. -/
def readRegs (s : State) (k : Nat) : List Reg → List Word × State
  | [] => ([], s)
  | r :: t =>
    let (v, s1) := readReg s k r
    let (vs, s2) := readRegs s1 k t
    (v :: vs, s2)

/-- Whether reading the sources reads a register or a queue entry that holds an error (R389): the n-th mention of a queue reads its n-th
entry. -/
def badSource (s : State) (k : Nat) (rs : List Reg) : Bool :=
  rs.zipIdx.any fun e =>
    if e.1.isQueue then
      (qBad s (coreOf k) (queueOf e.1)).getD (timesNamed s k (rs.take e.2) (queueOf e.1)) false
    else e.1 != 0 && (s.slot k).bad.get false e.1.toNat

/-- Write the destination: a queue register pushes one entry (R22). -/
def writeReg (s : State) (k : Nat) (d : Reg) (v : Word) : State :=
  if d.isQueue then qSet s (coreOf k) (queueOf d) (qEntries s (coreOf k) (queueOf d) ++ [v]) (qBad s (coreOf k) (queueOf d))
  else s.modSlot k fun x => x.setG d v

end Sys2Proof.Machine
end

