-- ==== Sys2Proof/Machine/Commands.lean ====
section
/-! DEFINITION. Engine commands as records: which arenas and places they name, their status, their completion word and their terminal
state (R203 to R219, R267). -/

namespace Sys2Proof.Machine

/-- Status codes (R217). -/
def stOk : BitVec 8 := 0x00
def stArenaDead : BitVec 8 := 0x01
def stArenaStale : BitVec 8 := 0x02
def stPoisoned : BitVec 8 := 0x03
def stCancelled : BitVec 8 := 0x04
def stRefused : BitVec 8 := 0x05
def stBadCmd : BitVec 8 := 0x06
def stProt : BitVec 8 := 0x07
def stHandbackLost : BitVec 8 := 0x08
def stNack : BitVec 8 := 0x09

/-- STATUS of a command with a code (R217). -/
def Cmd.status (c : Cmd) (code : BitVec 8) : BitVec 16 :=
  fit 16 (0#1 ++ bit1 c.gm ++ bit1 c.nf ++ c.fl ++ code)

/-! ### Word 3: the completion place (R217) -/

def cwOffset (w3 : Word) : Nat := (w3.extractLsb' 0 22).toNat
def cwLx (w3 : Word) : Nat := (w3.extractLsb' 22 8).toNat
def cwLy (w3 : Word) : Nat := (w3.extractLsb' 30 8).toNat
def cwe (w3 : Word) : Bool := w3.getLsbD 47
def cwValue (w3 : Word) : BitVec 16 := w3.extractLsb' 48 16

/-- Whether the completion place is malformed, which ends the command BADCMD with no word (R217). -/
def cwBad (s : State) (o : Nat) (w3 : Word) : Bool :=
  cwe w3 && (!s.hasQuad o (cwLx w3) (cwLy w3) || cwOffset w3 % 4 != 0 || w3.extractLsb' 38 9 != 0)

/-- Whether a bank switch in progress refuses an access of the command: it was not accepted before the `bankcfg` (R154). -/
def bankClosed (s : State) (core : Nat) (c : Cmd) (key : Nat) : Bool :=
  isScratchKey key &&
    (s.quad ((key - 2 ^ 56) / 2 ^ 22)).switches.any fun w =>
      w.banks.getLsbD (bankOf ((key - 2 ^ 56) % 2 ^ 22)) && !(w.waitFor.contains (core, c.cnum))

/-- Write the completion word and set the tag of its 8-byte word; a word whose bank is not in scratch mode, or closed by a switch in
progress, is dropped (R154, R217), and so is one that meets a closed fence (R391, DEDUCED log 39). -/
def writeCompletion (s : State) (c : Cmd) (code : BitVec 8) : State :=
  let o := ownerOf c.slot
  if !cwe c.w3 || cwBad s o c.w3 then s
  else
    let q := quadKey o (cwLx c.w3) (cwLy c.w3)
    let key := scratchKey q (cwOffset c.w3)
    if (s.quad q).mode (bankOf (cwOffset c.w3)) != .scr || bankClosed s (coreOf c.slot) c key || s.fencedFrom c.slot q then s
    else
      let w : BitVec 32 := fit 32 (c.status code ++ cwValue c.w3)
      setFull (deviceWrite s key (leBytes 4 w.toNat)) key true

/-! ### Tile destinations (R212) -/

def isTileWord (w2 : Word) : Bool := tagOf w2 == 0 && w2.extractLsb' 48 8 == 0xE0
def tileNo (w2 : Word) : Nat := (w2.extractLsb' 0 3).toNat
def tileCore (o : Nat) (w2 : Word) : Nat :=
  coreKey o (w2.extractLsb' 6 8).toNat (w2.extractLsb' 14 8).toNat (w2.extractLsb' 4 2).toNat

/-! ### Arenas a command names (R346) -/

/-- Index array and mask of a gather or scatter layout (R211). -/
def layIdx (l : List Byte) : Word := BitVec.ofNat 64 (leNat 8 (l.drop 8))
def layMask (l : List Byte) : Word := BitVec.ofNat 64 (leNat 8 (l.drop 32))
def layScale (l : List Byte) : Word := BitVec.ofNat 64 (leNat 8 (l.drop 56))

def inArena (a : Nat) (ea : Word) : Bool :=
  let hi := (ea.extractLsb' 48 8).toNat
  0x80 ≤ hi && hi < 0xC0 && arenaSlot ea == a

def Cmd.indexed (c : Cmd) : Bool := c.w0.ty == .gth || c.w0.ty == .sct

/-- Whether the command reads the arena. -/
def Cmd.readsArena (c : Cmd) (a : Nat) : Bool :=
  (c.w0.ty != .fill && inArena a c.w1) || (c.indexed && inArena a (layIdx c.layout)) ||
    (c.w0.ty == .nd && inArena a (layScale c.layout))

/-- Whether the command writes the arena. -/
def Cmd.writesArena (c : Cmd) (a : Nat) : Bool :=
  (!isTileWord c.w2 && inArena a c.w2) || (c.indexed && inArena a (layMask c.layout))

/-! ### Lengths (R208, R211) -/

/-- A natural field of a layout record. -/
def layNat (l : List Byte) (at_ n : Nat) : Nat := leNat n (l.drop at_)
def idxSize (l : List Byte) : Nat := layNat l 4 4

/-- Bytes of LEN. -/
def Cmd.len (c : Cmd) : Nat := c.w0.len.toNat

/-- Elements of a gather, scatter or reduction. -/
def Cmd.elems (c : Cmd) : Nat :=
  match c.w0.ty with
  | .radd => c.len / c.w0.ef.bytes
  | _ => c.len / idxSize c.layout

/-- DONE as records and `xstat` give it: bytes, or elements (R222, R224). -/
def Cmd.delivered (c : Cmd) : Nat := if c.indexed then Nat.min c.done c.elems else c.done

/-! ### Release and terminal state (R215, R216, R267) -/

/-- Invalidate every copy of the command's destination lines held within its scope (R267). -/
def release (s : State) (c : Cmd) : State :=
  let out (t : Tab LineCopy) : Tab LineCopy := t.filter fun x => !(c.lines.contains x.1)
  { s with
    cores := s.cores.map fun e => if within s c.slot c.w0.scope e.1 then (e.1, { e.2 with copies := out e.2.copies }) else e
    quads := s.quads.map fun e => if within s c.slot c.w0.scope e.1 then (e.1, { e.2 with ways := out e.2.ways }) else e }

/-- The copies of the lines that the pushing thread may use: a VIS without REL covers it alone (R215). -/
def releaseSelf (s : State) (c : Cmd) : State :=
  let out (t : Tab LineCopy) : Tab LineCopy := t.filter fun x => !(c.lines.contains x.1)
  let s1 := s.modCore (coreOf c.slot) fun x => { x with copies := out x.copies }
  if isQuay c.slot then s1 else s1.modQuad (quadOf c.slot) fun q => { q with ways := out q.ways }

def modFifo (s : State) (core : Nat) (f : Fifo → Fifo) : State := s.modCore core fun c => { c with fifo := f c.fifo }

/-- Replace a command of a FIFO. -/
def setCmd (s : State) (core : Nat) (c : Cmd) : State :=
  modFifo s core fun f => { f with cmds := f.cmds.map fun x => if x.cnum = c.cnum then c else x }

def findCmd (s : State) (core : Nat) (n : BitVec 32) : Option Cmd := (s.core core).fifo.cmds.find? fun c => c.cnum == n

/-- Record a terminal command among the last 64 and free its entry (R203, R204). -/
def freeEntry (s : State) (core : Nat) (c : Cmd) (code : BitVec 8) : State :=
  let k : Kept := { cnum := c.cnum, status := c.status code, done := c.delivered, poisoned := c.poisoned.getD 0 }
  modFifo s core fun f =>
    { f with cmds := f.cmds.filter fun x => x.cnum != c.cnum, kept := ((f.kept ++ [k]).drop (f.kept.length + 1 - 64)) }

/-- A command reaches its terminal state with a code: release, completion word, entry freed (R215 to R217). -/
def terminal (s : State) (core : Nat) (c : Cmd) (code : BitVec 8) : State :=
  let s1 := if c.w0.rel then release s c else releaseSelf s c
  let s2 := if c.srcWord then s1 else writeCompletion s1 c code
  freeEntry s2 core c code

/-- Every command of an owner ends CANCELLED with no completion word and no release (R321, R338, R391). -/
def cancelAll (s : State) (o : Nat) (of_ : Cmd → Bool) : State :=
  (s.coresOf o).foldl (fun s core =>
    ((s.core core).fifo.cmds.filter of_).foldl (fun s c => freeEntry s core c stCancelled) s) s

/-- The codelet or thread of a slot that is running now (R225). -/
def lifeOf (s : State) (k : Nat) : Nat := s.lives.get 0 k

/-- A handed-back command of a slot whose codelet or thread is over ends HANDBACK_LOST (R225, R235). -/
def loseHandbacks (s : State) (k : Nat) : State :=
  ((s.core (coreOf k)).fifo.cmds.filter fun c => c.slot == k && c.handed.isSome).foldl
    (fun s c => terminal s (coreOf k) c stHandbackLost) s

end Sys2Proof.Machine
end

