-- ==== Sys2Proof/Machine/Ends.lean ====
section
/-! DEFINITION. Records the device writes about itself, and the ends: of an arena, a node, a slot's work, a task, a containment cell
and a context (R230, R235, R236, R250, R306, R307, R320, R321, R338, R346, R357, R390 to R393, R399, R407). -/

namespace Sys2Proof.Machine

def le (n v : Nat) : List Byte := leBytes n v
def zeros (n : Nat) : List Byte := List.replicate n 0

/-! ### Records (R357, R399, R407) -/

/-- SERIAL of the warrant a context was built from. -/
def serialOf (s : State) (o : Nat) : Word := (((s.ctx o).handles.find? 0).getD {w := {}}).w.serial

/-- Add an event record to the mailbox (R407). -/
def eventAdd (s : State) (kind owner : Nat) (data : List Byte) : State :=
  let serial := if owner = 0 then 0 else serialOf s owner
  s.modPkg fun p =>
    { p with events := ({ kind, owner, serial, time := p.clock, data } :: p.events).take 384, evCount := p.evCount + 1 }

/-- The 64 bytes of a record (R338). -/
def FaultRec.bytes (r : FaultRec) (time : Nat) : List Byte :=
  [r.cause, if r.late then 1 else 0] ++ le 2 r.node ++ le 4 r.tid ++ le 8 r.pc.toNat ++ le 8 r.addr.toNat ++
    [r.need.zeroExtend 8] ++ zeros 7 ++ le 4 r.seq.toNat ++ zeros 4 ++ le 8 time ++ zeros 16

/-- Write a record to the owner's fault ring, then COUNT, and copy it to the host mailbox (R357). -/
def faultAdd (s : State) (o : Nat) (r : FaultRec) : State :=
  let c := s.ctx o
  let bs := r.bytes s.pkg.clock
  let s1 := deviceWrite s (c.ringBase + 64 + 64 * (c.ringCount % 511)) bs
  let s2 := deviceWrite s1 c.ringBase (le 8 (c.ringCount + 1))
  eventAdd (s2.modCtx o fun c => { c with ringCount := c.ringCount + 1 }) 2 o (bs.take 40)

/-! ### The home chip of a serial (R305 to R307) -/

/-- The home chip of a serial in a domain of this chip. -/
def homeChip (s : State) (domain serial : Word) : Option Word :=
  match s.pkg.domains.find? domain.toNat with
  | none => none
  | some d =>
    if d.members.isEmpty then none
    else
      let h := leNat 8 (shake256
        ([0x4D, 0x42, 0x58, 0x48, 0x4F, 0x4D, 0x45, 0x31] ++ le 8 serial.toNat ++ le 8 domain.toNat) 8)
      d.members[h % d.members.length]?

/-- The entry number of a serial in the spent-serial store. -/
def spentKey (domain serial : Word) : Nat := domain.toNat * 2 ^ 64 + serial.toNat

def setSpent (s : State) (key : Nat) (e : Spent) : State := s.modPkg fun p => { p with spent := p.spent.put key e }

/-- A claim from a chip at the home (R306, R308): the answer and the store after it.  A claim that needs a new entry in a full
store is refused and sets the store-full flag. -/
def homeClaim (s : State) (domain serial chip : Word) : Bool × State :=
  let key := spentKey domain serial
  let below := serial.toNat / 2 ^ 32 < ((s.pkg.domains.find? domain.toNat).getD { members := [] }).floor
  match s.pkg.spent.find? key with
  | none =>
    if below then (false, s)
    else if s.pkg.spent.length ≥ 1048576 then (false, s.modPkg fun p => { p with storeFull := true })
    else (true, setSpent s key (.live chip))
  | some (.held x) => if x = chip && !below then (true, setSpent s key (.live chip)) else (false, s)
  | some _ => (false, s)

/-- A withdrawal from a chip at the home (R306). -/
def homeWithdraw (s : State) (domain serial chip : Word) : State :=
  let key := spentKey domain serial
  if s.pkg.spent.find? key = some (.live chip) then setSpent s key (.held chip) else s

/-- An end notice from a chip at the home (R306). -/
def homeEnd (s : State) (domain serial chip : Word) (code : BitVec 8) : State :=
  let key := spentKey domain serial
  if s.pkg.spent.find? key = some (.live chip) then
    setSpent s key (if code = 3 then .held chip else .spent)
  else s

/-- Send an end notice: decided here when this chip is the home, else kept until the home confirms it (R307). -/
def sendEnd (s : State) (domain serial : Word) (code : BitVec 8) : State :=
  if homeChip s domain serial = some s.pkg.chip then homeEnd s domain serial s.pkg.chip code
  else s.modPkg fun p => { p with notices := p.notices ++ [(serial, domain, code)] }

/-! ### Arenas (R250, R346) -/

/-- First address of an arena's range. -/
def arenaBase (a : Nat) : Nat := 2 ^ 55 + a * 2 ^ 40

/-- What the death of an arena does to a command that names it (R346). -/
def Cmd.diesWith (c : Cmd) (a : Nat) : Bool :=
  if c.handed.isSome then c.readsArena a || c.writesArena a
  else c.writesArena a || (c.readsArena a && c.state != .srcDone)

def arenaCommands (s : State) (o a : Nat) : State :=
  (s.coresOf o).foldl (fun s core =>
    ((s.core core).fifo.cmds.filter fun c => c.diesWith a).foldl (fun s c => terminal s core c stArenaDead) s) s

/-- Remove the PLB entries of a range of addresses from every core of an island (R331). -/
def shootDown (s : State) (o lo hi : Nat) : State :=
  { s with cores := s.cores.map fun e =>
      if ownerOf e.1 = o then
        (e.1, { e.2 with plb := e.2.plb.filter fun p =>
          (p.base.toNat + 2 ^ p.k.toNat) * 2 ^ 15 ≤ lo || hi ≤ p.base.toNat * 2 ^ 15 })
      else e }

/-- The arenas of a context wait for their death: no node holds them (R411). -/
def orphanArenas (s : State) (o : Nat) : State :=
  { s with arenas := s.arenas.map fun e => if e.2.holder = o then (e.1, { e.2 with node := 0 }) else e }

/-- A move without the pages of an arena that has died: nothing of it is copied, pulled or waited for any more (R346, R411). -/
def MoveSt.withoutArena (m : MoveSt) (a : Nat) : MoveSt :=
  let out (l : List Nat) : List Nat := l.filter fun n => n < arenaBase a / 2 ^ 15 || arenaBase (a + 1) / 2 ^ 15 ≤ n
  { m with clean := out m.clean, dirty := out m.dirty, pulls := out m.pulls, lost := out m.lost }

/-- The death of an arena, one step (R250, R346): commands first, then lines, lease, shoot-down, generation and pages.  The next life of the
domain stands behind the accesses of this one (R269). -/
def killArena (s : State) (a : Nat) : State :=
  let x := s.arena a
  let o := x.holder
  let lo := arenaBase a
  let hi := arenaBase (a + 1)
  let s1 := arenaCommands s o a
  let s2 := shootDown (dropCopies (forgetTimes (eraseRange s1 lo hi) lo hi) lo hi) o lo hi
  let bytes := x.pages * 2 ^ 15
  let s3 := s2.modCtx o fun c =>
    { c with
      leases := c.leases.filter fun l => !(lo ≤ l.base && l.base < hi && l.node != 0)
      move := c.move.map fun m => m.withoutArena a
      used := match x.place with
        | .llc => c.used
        | .dram => (c.used.1 - bytes, c.used.2)
        | .cxl => (c.used.1, c.used.2 - bytes) }
  { s3 with arenas := s3.arenas.put a { gen := x.gen + 1, last := o, time := timeLeft s1 lo hi x.time } }

/-- Kill every arena of a domain that a condition selects. -/
def killArenas (s : State) (o : Nat) (sel : Arena → Bool) : State :=
  (s.arenas.filter fun e => e.2.holder = o && sel e.2).foldl (fun s e => killArena s e.1) s

/-! ### Nodes (R230) -/

/-- Whether a slot serves a node, or a record on a ring or on its way back to one carries it. -/
def nodeHeld (s : State) (o n : Nat) : Bool :=
  (s.slotsOfCtx o).any (fun k => (s.slot k).running && (s.slot k).node == n) ||
    (s.coresOf o).any fun c => (s.core c).ring.any (fun r => r.node == n) || (s.core c).again.any fun r => r.node == n

/-- Whether a move of a context from here is under way, before its switch (R411). -/
def Ctx.moving (c : Ctx) : Bool := c.move.any fun m => !m.role && !m.away

/-- Whether a context runs on the target of its move, which then judges its time. -/
def Ctx.gone (c : Ctx) : Bool := c.move.any fun m => m.away

/-- Retire every node whose first member has begun and that nothing holds any longer (R230); during a move the death of arenas waits
for the switch (R411). -/
def retireNodes (s : State) (o : Nat) : State :=
  if (s.ctx o).moving then s
  else ((s.ctx o).nodes.filter fun e => e.2 && !nodeHeld s o e.1).foldl (fun s e =>
    killArenas (s.modCtx o fun c => { c with nodes := c.nodes.erase e.1 }) o fun a => a.node = e.1) s

/-! ### Slots -/

/-- A slot that no longer works: pending traps, waits and the inline stack are gone; registers, inbox and latch stay. -/
def Slot.stop (x : Slot) : Slot :=
  { x with running := false, tlvl := false, blk := none, pend := [], inl := [], codelet := none, offer := none, joined := none,
           lvq := [], lvt := none, chkq := [], dead := false, asked := none, touch := none, skip := none, node := 0 }

/-- Mark the sequence-ring entry of a slab instruction as complete (R351). -/
def seqDone (c : CoreSt) (seq : BitVec 32) : CoreSt :=
  let i := seq.toNat % 64
  { c with seqRing := c.seqRing.put i { c.seqRing.get {} i with complete := true } }

/-- Cancel the slab instructions of a core whose slot and number a condition selects: they have no effect from here on and keep their
numbers; of a drain nothing more lands and no record is pushed (R352). -/
def cancelSlab (s : State) (core : Nat) (sel : Nat → BitVec 32 → Bool) : State :=
  s.modCore core fun c =>
    let c1 := (c.slabQ.filter fun o => sel o.slot o.seq).foldl (fun c o => seqDone c o.seq) c
    let c2 := (c.drains.filter fun d => sel d.slot d.seq).foldl (fun c d => seqDone c d.seq) c1
    { c2 with slabQ := c.slabQ.filter fun o => !sel o.slot o.seq, drains := c.drains.filter fun d => !sel d.slot d.seq }

/-- The leading slot of a pair, or the slot itself: its slab instructions write the registers of both, and it names both in a hash input (R32, R54,
R394). -/
def leadOf (x : Slot) (k : Nat) : Nat := if x.chk = 2 then (if isQuay k then k - 4 else k - 8) else k

/-- Whether a slot, or its pair, has a slab instruction that is not complete (R34, R201, R353). -/
def slabBusy (s : State) (k : Nat) : Bool :=
  let c := s.core (coreOf k)
  c.slabQ.any (fun o => o.slot == leadOf (s.slot k) k) || c.drains.any fun d => d.slot == leadOf (s.slot k) k

/-- Whether a slot is idle: it runs nothing and has no slab instruction outstanding (R353). -/
def slotIdle (s : State) (k : Nat) : Bool := !(s.slot k).running && !slabBusy s k

/-- Whether the slots of a context are paired (R394). -/
def checkedCtx (s : State) (o : Nat) : Bool := (s.ctx o).checked

/-- The trailing slot of a leading one (R32). -/
def trailOf (k : Nat) : Nat := if isQuay k then k + 4 else k + 8

/-- TSTAT.CHK of a slot at build (R32). -/
def chkAtBuild (s : State) (k : Nat) : BitVec 2 :=
  if !checkedCtx s (ownerOf k) then 0
  else if slotNo k < (if isQuay k then 4 else 8) then 1 else 2

/-- A slot as the build leaves it. -/
def buildSlot (s : State) (k : Nat) : Slot := { chk := chkAtBuild s k }

/-! ### The end of a context (R320, R321) -/

def eraseOwner (s : State) (o : Nat) : State :=
  let held := s.pages.filter fun e => e.2.holder = o
  let erase (s : State) (lo hi : Nat) : State := forgetTimes (eraseRange s lo hi) lo hi
  let s1 := held.foldl (fun s e => erase s (e.1 * 2 ^ 15) ((e.1 + 1) * 2 ^ 15)) s
  let s2 := erase s1 (scratchKey (o * ownerSpan) 0) (scratchKey ((o + 1) * ownerSpan) 0)
  let mine {α : Type} (t : Tab α) : Tab α := t.filter fun e => ownerOf e.1 != o
  { s2 with
    pages := s2.pages.filter fun e => e.2.holder != o
    arenas := s2.arenas.map fun e => if e.2.last = o then (e.1, { e.2 with time := none }) else e
    slots := mine s2.slots
    cores := mine s2.cores
    quads := mine s2.quads
    lives := mine s2.lives
    stackCopies := s2.stackCopies.filter fun e => e.1 / 2 ^ 56 / 8 != o
    held := s2.held.filter fun e => e.1 != o
    ctxs := s2.ctxs.erase o }

/-- A handle of a warrant added by `wpres.add`: neither handle 0 nor a child's. -/
def Handle.added (h : Handle) : Bool := h.child.isNone && h.childState == 0

/-- Note in a parent's handles that a child has ended, with the warrant and the shape it then had (R255, R373). -/
def Ctx.childOver (c : Ctx) (o : Nat) (code : BitVec 8) (w : Warrant) (shape : Nat × Nat) : Ctx :=
  let ended (h : Handle) : Handle :=
    if h.child = some o then { h with w, shape, child := none, childState := 2, childEnd := code } else h
  { c with handles := c.handles.map fun e => (e.1, ended e.2) }

/-- Whether an entry of the order comes from a slot of a context. -/
def Queued.ofCtx (o : Nat) : Queued → Bool
  | .pres p => p.from_.any fun y => ownerOf y.1 == o
  | .order _ => false

/-- The kind of the record of a presentation or of another order (R309, R399). -/
def Queued.kind : Queued → Nat
  | .pres _ => 1
  | .order _ => 4

/-- Presentations, claims and orders that go with no answer are recorded by their kind (R309, R399). -/
def recordDropped (s : State) (kinds : List Nat) : State := kinds.foldl (fun s k => boxAdd s k 0 0 []) s

/-- End a context with an end code (R321): nothing of it acts afterwards. -/
def ctxEnd (s : State) (o : Nat) (code : BitVec 8) : State :=
  match s.ctxs.find? o with
  | none => s
  | some c =>
    let w := ((c.handles.find? 0).getD {w := {}}).w
    let s1 := killArenas (cancelAll s o fun _ => true) o fun _ => true
    let s2 := eventAdd s1 1 o [code, if c.noticeDone then 1 else 0]
    let s3 := boxAdd s2 3 o 0 [code]
    let s4 := eraseOwner s3 o
    let s5 := { s4 with ctxs := s4.ctxs.map fun (e : Nat × Ctx) => (e.1, e.2.childOver o code w (c.wq, c.hq)) }
    let mine (x : OpenClaim) : Bool := x.p.from_.any fun y => ownerOf y.1 == o
    let lost := s5.pkg.claims.countP mine + s5.pkg.waiting.countP fun x => x.ofCtx o
    let s6 := (recordDropped s5 (List.replicate lost 1)).modPkg fun p =>
      { p with
        claims := p.claims.filter fun x => !mine x
        waiting := p.waiting.filter fun x => !x.ofCtx o
        openClaims := p.openClaims ++ (p.claims.filter mine).map fun (x : OpenClaim) => (x.w.serial, x.w.domain) }
    let s7 := sendEnd s6 w.domain w.serial code
    (c.handles.filter fun h => h.1 != 0 && h.2.added).foldl (fun s h => sendEnd s h.2.w.domain h.2.w.serial 2) s7

/-! ### The end of a task (R236, R338) -/

/-- The task of a context has ended: nothing runs, no ring holds a record, every command is terminal and no drain is open (R236).
The context then ends TERM_SURRENDER (R320). -/
def taskOver (s : State) (o : Nat) : Bool :=
  (s.ctx o).phase == .running && (s.ctxs.find? o).isSome && (s.ctx o).closed.isEmpty &&
    (s.slotsOfCtx o).all (fun k => !(s.slot k).running) &&
    (s.coresOf o).all fun c =>
      let x := s.core c
      x.ring.isEmpty && x.again.isEmpty && x.fifo.cmds.isEmpty && x.drains.isEmpty && x.slabQ.isEmpty

def taskCheck (s : State) (o : Nat) : State := if taskOver s o then ctxEnd s o 2 else s

/-- An abrupt end (R338): slots stop, commands end CANCELLED, rings empty, nodes and arenas go, and the record is written; during a move
the arenas go at the switch (R411).  The context stays built, and a cell under containment is reset and opened yet (R391). -/
def taskAbrupt (s : State) (o : Nat) (r : FaultRec) : State :=
  let s1 := (s.slotsOfCtx o).foldl (fun s k => s.modSlot k Slot.stop) s
  let s2 := (s.coresOf o).foldl (fun s c => cancelSlab s c fun _ _ => true) s1
  let s3 := cancelAll s2 o fun _ => true
  let s4 := (s3.coresOf o).foldl (fun s c =>
    s.modCore c fun x => { x with ring := [], again := [], ringh := x.ringt, follow := [] }) s3
  let s5 := s4.modCtx o fun c => { c with nodes := [], phase := .abrupt }
  faultAdd (if (s.ctx o).moving then orphanArenas s5 o else killArenas s5 o fun _ => true) o r

/-! ### The expiry notice (R312, R411) -/

/-- The warrant a context was built from. -/
def warrantOf (s : State) (o : Nat) : Warrant := (((s.ctx o).handles.find? 0).getD { w := {} }).w

/-- The clock value at which a context with end time E ends, once its notice has fallen due at N; where E lies before 1,000 µs, N stands
before the clock's zero and is kept as 0 (R312). -/
def endAt (e n : Nat) : Nat := if e < 1000 && n = 0 then e else Nat.max e (n + 1000)

/-- The time E at which a context ends, and whether the key lease alone gives it: once the notice has fallen due at N, the warrant and the
lease fall due at the later of their own E and N + 1,000 µs, and where they do so together the warrant ends it (R312). -/
def endTime (s : State) (o : Nat) : Nat × Bool :=
  let na := (warrantOf s o).notAfter
  let ex := (s.ctx o).expiry
  let early := match (s.ctx o).notice with
    | none => ex < na
    | some n => endAt ex n < endAt na n
  (if early then ex else if (s.ctx o).notice.isSome then na else Nat.min na ex, early)

/-- The slots that run a stream named by a slot: in checked mode its trailing slot too (R32, R394). -/
def pairOf (s : State) (k : Nat) : List Nat := if (s.slot k).chk = 1 then [k, trailOf k] else [k]

/-- The slot that takes the notice: slot 0 of core 0 of quad (0, 0), else the lowest running slot of that core. -/
def noticeSlot (s : State) (o : Nat) : Option Nat := (slotsOf (slotKey o 0)).find? fun k => (s.slot k).running

/-- TVAL of the notice: KEY ‖ WHEN. -/
def noticeTval (s : State) (o : Nat) : Word :=
  let (e, key) := endTime s o
  bit1 key ++ BitVec.ofNat 63 e

/-- The notice is recorded for the slot that takes it, where a slot runs and TVEC is not 0 (R312). -/
def noticePend (s : State) (o : Nat) : State :=
  let p (x : Slot) : Pend :=
    { cause := Cause.expiryNotice.code, late := false, pc := x.pc, tval := noticeTval s o, tseq := 0, lvl := x.tlvl }
  match noticeSlot s o with
  | none => s
  | some k =>
    if (s.core (slotKey o 0)).tvec = 0 then s
    else (pairOf s k).foldl (fun s j => s.modSlot j fun x => { x with pend := x.pend ++ [p x] }) s

/-- Abandon a move before its switch: the context stays here, and a notice that waited is recorded now (R410, R411). -/
def abandonMove (s : State) (o : Nat) : State :=
  match (s.ctx o).move with
  | none => s
  | some m =>
    if m.role || m.away then s
    else
      let s1 := killArenas (s.modCtx o fun c => { c with move := none }) o fun a => a.node = 0
      if m.notice then noticePend s1 o else s1

/-! ### Containment (R318, R390 to R393) -/

/-- GANGW of a core at context build (R17, R236). -/
def gangAtBuild (s : State) (k : Nat) : Nat :=
  if isQuay k then 0
  else if lxOf k != 0 || lyOf k != 0 || lpkgOf k != 0 then 1
  else match (s.ctx (ownerOf k)).gangRec with
    | none => 1
    | some w => if coreNo k = 0 then w else if coreNo k ≤ 4 - w then 1 else 0

/-- The number of a physical quad. -/
def quadNo (p : Nat × Nat) : Nat := 16 * p.2 + p.1

/-- The half-slabs of a physical quad's four slabs that are not retired. -/
def goodHalves (s : State) (q : Nat) : List Nat := ((List.range 8).map (8 * q + ·)).filter fun h => !s.pkg.halves.contains h

/-- The physical quads that a context holds. -/
def quadsHeld (s : State) (o : Nat) : List (Nat × Nat) :=
  ((s.quadsOf o).filter fun q => s.hasQuad o (lxOf q) (lyOf q)).map s.physQuad

/-- The half-slabs of the slab at a position of the package's grid of slabs: half-slab 8 q + 2 (i + 2 j) + n is half Hn of slab (i, j) of
physical quad q (R413) (DESIGN CHOICE log 59). -/
def slabHalves (p : Nat × Nat) : List Nat :=
  let h := 8 * quadNo (p.1 / 2, p.2 / 2) + 2 * (p.1 % 2 + 2 * (p.2 % 2))
  [h, h + 1]

/-- The binding window of front end `n` of a physical quad: the half-slabs of the four slabs it overlaps, cut at the edge of the stack and at
the island's fence (R15, R413); front end n stands at position (n mod 2, n div 2) of its quad (DESIGN CHOICE log 59). -/
def bindingWindow (s : State) (o : Nat) (p : Nat × Nat) (n : Nat) : List Nat :=
  let x := 2 * p.1 + n % 2
  let y := 2 * p.2 + n / 2
  (([(x, y), (x + 1, y), (x, y + 1), (x + 1, y + 1)].filter fun e =>
    e.1 / 16 == x / 16 && e.2 / 16 == y / 16 && (quadsHeld s o).contains (e.1 / 2, e.2 / 2)).flatMap slabHalves)

/-- Whether a half-slab works: neither it nor its quad is retired (R397, R398). -/
def halfWorks (s : State) (h : Nat) : Bool := !s.pkg.halves.contains h && s.pkg.quads.get .working (h / 8) != .retired

/-- Logical slabs of a quad, which its cores share in any division (R17). -/
def slabsOfQuad : Nat := 4

/-- The half-slabs of some straits. -/
def halvesOf (l : List (Nat × Nat)) : List Nat := l.flatMap fun e => [e.1, e.2]

/-- Up to a number of straits more, each of the first two half-slabs of a window that no strait uses. -/
def bindMore (windows : List (List Nat)) : Nat → List Nat → List (Nat × Nat)
  | 0, _ => []
  | n + 1, used =>
    let next := windows.findSome? fun w => match w.filter fun h => !used.contains h with
      | a :: b :: _ => some (a, b)
      | _ => none
    match next with
    | some e => e :: bindMore windows n (e.1 :: e.2 :: used)
    | none => []

/-- Record the straits of a logical quad in the place table, one for each logical slab of it, whatever the widths of its cores: those it has
that lie in a window and work, then new ones, each within the window of one of its front ends (R14, R15) (DESIGN CHOICE log 59). -/
def bindStraits (s : State) (q : Nat) : State :=
  let o := ownerOf q
  let p := s.physQuad q
  let table := (s.ctx o).straits
  let windows := (List.range 4).map fun n => (bindingWindow s o p n).filter (halfWorks s)
  let others := table.flatMap fun e => if e.1 = quadNo p then [] else halvesOf e.2
  let kept := ((table.get [] (quadNo p)).filter fun e => windows.any fun w => w.contains e.1 && w.contains e.2).take slabsOfQuad
  if s.hasQuad o (lxOf q) (lyOf q) then
    s.modCtx o fun c =>
      { c with straits := c.straits.put (quadNo p)
                (kept ++ bindMore windows (slabsOfQuad - kept.length) (others ++ halvesOf kept)) }
  else s

/-- The straits of an island whose fence has moved: those of quads it no longer holds go, and the others are bound within their windows (R15). -/
def bindIsland (s : State) (o : Nat) : State :=
  let held := (quadsHeld s o).map quadNo
  (s.quadsOf o).foldl bindStraits (s.modCtx o fun c => { c with straits := c.straits.filter fun e => held.contains e.1 })

/-- The highest logical time of an island: of its slots and of the lines it holds, those of zeroed banks and dead arenas among them (R265,
R269). -/
def highestTime (s : State) (o : Nat) : Time :=
  let f := (s.ctx o).floor
  let lines := (s.lines.filter fun e => keyOwner s (e.1 * 128) == o).map fun e => (s.line e.1).rts
  let left := ((s.arenas.filter fun e => e.2.holder == o || e.2.last == o).filterMap fun e => e.2.time) ++
    (s.quadsOf o).flatMap fun q => (s.quad q).bankTimes.map (·.2)
  Time.latest f ((s.slotsOfCtx o).map (fun k => (s.slot k).tt) ++ lines ++ left)

/-- A copy of a line, a slot, a core, a quad and a barrier with every time that stands before the floor raised to it (R265). -/
def LineCopy.raised (f : Time) (c : LineCopy) : LineCopy := { c with wts := Machine.raised f c.wts, crts := Machine.raised f c.crts }
def Slot.raised (f : Time) (x : Slot) : Slot :=
  { x with tt := Machine.raised f x.tt, inboxLine := x.inboxLine.raised f, latchLine := x.latchLine.raised f }
def CoreSt.raised (f : Time) (c : CoreSt) : CoreSt :=
  { c with copies := c.copies.map fun e => (e.1, e.2.raised f)
           ring := c.ring.map fun r => { r with time := Machine.raised f r.time }
           again := c.again.map fun r => { r with time := Machine.raised f r.time }
           drains := c.drains.map fun d => { d with time := d.time.map (Machine.raised f) } }
def QuadSt.raised (f : Time) (q : QuadSt) : QuadSt :=
  { q with ways := q.ways.map fun e => (e.1, e.2.raised f), bankTimes := q.bankTimes.map fun e => (e.1, Machine.raised f e.2) }
def Arena.raised (f : Time) (a : Arena) : Arena := { a with time := a.time.map (Machine.raised f) }
def Barrier.raised (f : Time) (b : Barrier) : Barrier :=
  { b with slots := b.slots.map fun e => (e.1, Machine.raised f e.2), doneTimes := b.doneTimes.map fun e => (e.1, Machine.raised f e.2) }

/-- The times of an island stay within 2^46 ticks of the highest: the floor follows it, and every time that stands before it is raised: of
threads, lines, copies, inboxes, records and barriers (R265). -/
def raiseTimes (s : State) (o : Nat) : State :=
  let c := s.ctx o
  let top := highestTime s o
  if (top - c.floor).toNat ≤ 2 ^ 46 then s
  else
    let f : Time := top - BitVec.ofNat 48 (2 ^ 46)
    let s1 := (s.slotsOfCtx o).foldl (fun s k => s.modSlot k (Slot.raised f)) s
    let s2 := (s1.coresOf o).foldl (fun s k => s.modCore k (CoreSt.raised f)) s1
    let s3 := (s2.quadsOf o).foldl (fun s q => s.modQuad q (QuadSt.raised f)) s2
    let s4 : State := { s3 with
      lines := s3.lines.map fun e => if keyOwner s (e.1 * 128) = o then (e.1, e.2.raised f) else e
      arenas := s3.arenas.map fun e => if e.2.holder = o || e.2.last = o then (e.1, e.2.raised f) else e }
    s4.modCtx o fun c => { c with floor := f, bars := c.bars.map fun e => (e.1, e.2.raised f) }

/-- A core as a cell reset leaves it (R392): build values, CYC among them, but for cached lines, PLB entries and the hand-back number (DEDUCED log 69). -/
def resetCore (s : State) (k : Nat) : CoreSt :=
  let c := s.core k
  { buildCore k with
    gangw := gangAtBuild s k, copies := c.copies, ccopies := c.ccopies, plb := c.plb, age := c.age,
    fifo := { number := c.fifo.number } }

/-- Withdraw the barrier arrivals of slots (R285, R392): where the first arrival goes, the phase has no N. -/
def withdraw (s : State) (o : Nat) (sel : Nat → Bool) : State :=
  let out (b : Barrier) : Barrier :=
    { b with slots := b.slots.filter fun e => !sel e.1, n := if b.slots.head?.any fun e => sel e.1 then none else b.n }
  s.modCtx o fun c => { c with bars := c.bars.map fun e => (e.1, out e.2) }

/-- A cell reset (R392). -/
def resetCell (s : State) (k : Nat) : State :=
  let o := ownerOf k
  let cell := sameCell s k
  let tt := highestTime s o
  let s2 := withdraw s o cell
  let s3 := ((s2.coresOf o).filter cell).foldl (fun s c => s.setCore c (resetCore s c)) s2
  let s4 := ((s3.slotsOfCtx o).filter cell).foldl (fun s j => s.setSlot j { buildSlot s j with tt := tt }) s3
  let s5 := ((s4.quadsOf o).filter fun q => cell q).foldl (fun s q =>
    bindStraits ((eraseRange s (scratchKey q 0) (scratchKey (q + 1) 0)).modQuad q fun x => { ccopies := x.ccopies, ways := x.ways, bankTimes := x.bankTimes }) q) s4
  retireNodes s5 o

/-- Steps 1 and 2 of R391: the fence closes, every slot of the cell stops, its pending accesses and traps are discarded and its engine
commands end CANCELLED. -/
def closeCell (s : State) (k : Nat) (r : FaultRec) : State :=
  let o := ownerOf k
  let cell := sameCell s k
  let s1 := ((s.slotsOfCtx o).filter cell).foldl (fun s j => s.modSlot j Slot.stop) s
  let s2 := ((s1.coresOf o).filter cell).foldl (fun s c =>
    (cancelSlab s c fun _ _ => true).modCore c fun x => { x with follow := [], again := [] }) s1
  let s3 := ((s2.quadsOf o).filter cell).foldl (fun s q => s.modQuad q fun x => { x with switches := [] }) s2
  (cancelAll s3 o fun c => cell c.slot).modCtx o fun c => { c with closed := c.closed ++ [{ slot := k, fault := { r with cause := 6 } }] }

/-- UNIT of a black-box record about a slot or core: its physical quad, or the memory stack of a quay core by its power domain (R399, R414,
PRESUMED log 9). -/
def unitNo (s : State) (k : Nat) : Nat := if isQuay k then s.physQuay k / 32 + 8 else quadNo (s.physQuad k)

/-- Steps 3 to 5 of R391: the cell is reset, the record is written, and the fence opens. -/
def openCell (s : State) (o : Nat) (x : Closed) : State :=
  let s1 := resetCell s x.slot
  let s2 := s1.modCtx o fun c =>
    { c with counts := { c.counts with cont := c.counts.cont + 1 }, closed := c.closed.erase x }
  boxAdd (faultAdd s2 o x.fault) 0x12 o (unitNo s x.slot) (le 8 x.fault.addr.toNat)

/-- Containment of the cell of slot `k` (R390, R391, R393): a consumption in a cell under containment changes nothing, a cell that is the
whole island ends the context, and how long the fence of another stays closed is a free value, down to no time at all (DESIGN CHOICE
log 39). -/
def contain (s : State) (k : Nat) (r : FaultRec) : State :=
  let o := ownerOf k
  if s.fenced k then s
  else if !isQuay k && (s.coresOf o).all fun c => isQuay c || sameCell s c k then ctxEnd s o 3
  else
    let (f, s0) := s.tick
    let s1 := closeCell (abandonMove s0 o) k r
    if Config.freeKeep f then openCell s1 o { slot := k, fault := { r with cause := 6 } } else s1

/-- A core reads a register, tile, accumulator or queue entry that holds an error (R389, R390): no address is stated for the record, so it
is a free value (DESIGN CHOICE log 1). -/
def consume (s : State) (k : Nat) : State :=
  let x := s.slot k
  contain s.tick.2 k { cause := 6, node := x.node, tid := tidOf k, pc := x.pc, addr := Config.freeWord s.fresh }

/-! ### The end of a slot's work (R235) -/

/-- The slot becomes idle: hand-backs are lost, nodes may retire. -/
def slotEnd (s : State) (k : Nat) : State :=
  retireNodes (loseHandbacks (s.modSlot k Slot.stop) k) (ownerOf k)

/-- A slot begins a codelet or a thread: it runs, and its life count rises (R225). -/
def beginLife (s : State) (k : Nat) : State := { s with lives := s.lives.put k (s.lives.get 0 k + 1) }

end Sys2Proof.Machine
end

