-- ==== Sys2Proof/Machine/Flags.lean ====
section
/-! DEFINITION. Number formats, rounding and flags: R41 to R59 and R66 to R70.  A value is read into a sign and an exact dyadic
number, the operation is exact, and one rounding narrows it. -/

namespace Sys2Proof.Machine

/-! ### Flags (R34, R48) -/

abbrev Flags := BitVec 5
def fNV : Flags := 0x01
def fDZ : Flags := 0x02
def fOF : Flags := 0x04
def fUF : Flags := 0x08
def fNX : Flags := 0x10

/-! ### Formats (R43, R44) -/

/-- A floating format: total width, fraction bits, bias, and whether it has infinities (E4M3 has none). -/
structure FF where
  width : Nat
  p : Nat
  bias : Nat
  inf : Bool
  deriving DecidableEq, Repr

def f32 : FF := ⟨32, 23, 127, true⟩
def f16 : FF := ⟨16, 10, 15, true⟩
def bf16 : FF := ⟨16, 7, 127, true⟩
def e4m3 : FF := ⟨8, 3, 7, false⟩
def e5m2 : FF := ⟨8, 2, 15, true⟩
def acc36 : FF := ⟨36, 27, 127, true⟩

/-- The floating format of a code; other codes are not floats. -/
def FF.ofFmt : Fmt → Option FF
  | .f32 => some f32 | .f16 => some f16 | .bf16 => some bf16 | .e4m3 => some e4m3 | .e5m2 => some e5m2 | _ => none

/-- The 8-bit formats keep subnormals whatever FZI and FZO hold (R47). -/
def FF.small (f : FF) : Bool := f.width == 8

/-- Width of the exponent field. -/
def FF.ebits (f : FF) : Nat := f.width - 1 - f.p
/-- All ones in the exponent field. -/
def FF.emask (f : FF) : Nat := 2 ^ f.ebits - 1
/-- Exponent of the smallest normal. -/
def FF.emin (f : FF) : Int := 1 - f.bias
/-- Largest exponent of a normal number. -/
def FF.emax (f : FF) : Int := if f.inf then f.bias else f.bias + 1
/-- Significand of the largest finite number. -/
def FF.maxSig (f : FF) : Nat := if f.inf then 2 ^ (f.p + 1) - 1 else 2 ^ (f.p + 1) - 2
/-- The largest finite pattern, without sign. -/
def FF.maxBits (f : FF) : Nat := if f.inf then f.emask * 2 ^ f.p - 1 else f.emask * 2 ^ f.p + 2 ^ f.p - 2
def FF.signBit (f : FF) : Nat := 2 ^ (f.width - 1)
/-- The canonical NaN (R44). -/
def FF.qnan (f : FF) : Nat :=
  if f.inf then f.emask * 2 ^ f.p + 2 ^ (f.p - 1) else f.emask * 2 ^ f.p + 2 ^ f.p - 1
def FF.infBits (f : FF) (neg : Bool) : Nat := f.emask * 2 ^ f.p + if neg then f.signBit else 0

/-- A value that a pattern stands for: NaN, signalling or quiet, an infinity, or a signed magnitude m × 2^e. -/
inductive FVal where
  | nan (sig : Bool)
  | inf (neg : Bool)
  | fin (neg : Bool) (m : Nat) (e : Int)
  deriving DecidableEq, Repr

/-- Read a pattern (R43 to R45); with FZI a subnormal reads as a zero of its sign (R47) (DEDUCED log 27). -/
def FF.read (f : FF) (fzi : Bool) (b : Nat) : FVal :=
  let neg := b / f.signBit % 2 == 1
  let x := b / 2 ^ f.p % 2 ^ f.ebits
  let m := b % 2 ^ f.p
  if f.inf && x == f.emask then
    if m = 0 then .inf neg else .nan (!f.small && m < 2 ^ (f.p - 1))
  else if !f.inf && x == f.emask && m == 2 ^ f.p - 1 then .nan false
  else if x = 0 then .fin neg (if fzi && !f.small then 0 else m) (f.emin - f.p)
  else .fin neg (2 ^ f.p + m) (x - f.bias - f.p)

def FVal.isNan : FVal → Bool | .nan _ => true | _ => false
def FVal.sig : FVal → Bool | .nan s => s | _ => false
def FVal.isInf : FVal → Bool | .inf _ => true | _ => false
def FVal.neg : FVal → Bool | .nan _ => false | .inf n => n | .fin n _ _ => n
def FVal.isZero : FVal → Bool | .fin _ 0 _ => true | _ => false
def FVal.negate : FVal → FVal
  | .nan s => .nan s | .inf n => .inf !n | .fin n m e => .fin (!n) m e

/-- The pattern of a finite value that the format holds exactly. -/
def FF.pack (f : FF) (neg : Bool) (m : Nat) (e : Int) : Nat :=
  let s := if neg then f.signBit else 0
  if m = 0 then s
  else
    let top : Int := m.log2 + e
    let q : Int := (if top < f.emin then f.emin else top) - f.p
    let sh := e - q
    let sig := if sh ≥ 0 then m <<< sh.toNat else m >>> (-sh).toNat
    if top < f.emin then s + sig
    else s + (top + f.bias).toNat * 2 ^ f.p + (sig - 2 ^ f.p)

/-! ### Exact magnitudes -/

/-- An exact non-negative real: m / d × 2^e, or its square root. -/
structure Exact where
  m : Nat
  d : Nat := 1
  e : Int
  root : Bool := false
  deriving DecidableEq, Repr

/-- The integer square root, bit by bit from the highest. -/
def isqrtLoop : Nat → Nat → Nat → Nat
  | 0, _, r => r
  | k + 1, n, r =>
    let t := r + 2 ^ k
    isqrtLoop k n (if t * t ≤ n then t else r)

def isqrt (n : Nat) : Nat := isqrtLoop (n.log2 / 2 + 1) n 0

/-- ⌊y / 2^e⌋ and whether something is left ovf. -/
def Exact.floorAt (y : Exact) (e : Int) : Nat × Bool :=
  let s := y.e - (if y.root then 2 * e else e)
  let num := if s ≥ 0 then y.m <<< s.toNat else y.m
  let den := if s ≥ 0 then y.d else y.d <<< (-s).toNat
  let q := num / den
  if y.root then
    let r := isqrt q
    (r, r * r != q || num % den != 0)
  else (q, num % den != 0)

/-- The exponent E with 2^E ≤ y < 2^(E + 1), for y not zero. -/
def Exact.top (y : Exact) : Int :=
  if y.root then ((y.m.log2 : Int) + y.e).fdiv 2
  else
    let t := (y.m.log2 : Int) - y.d.log2 + y.e
    if (y.floorAt t).1 ≥ 1 then t else t - 1

/-! ### Rounding (R49, R51 to R55) -/

/-- The five mixing steps of R54. -/
def mix (x : Word) : Word :=
  let x := x ^^^ (x >>> 31)
  let x := x * 0x8F3A5C71D2E4B96B
  let x := x ^^^ (x >>> 29)
  let x := x * 0xC4B12E975A3DF08D
  x ^^^ (x >>> 32)

/-- The threshold T of a rounding at position L and step G (R54). -/
def threshold (c : Capture) (l g : Nat) : Nat :=
  let w (n : Nat) : Word := BitVec.ofNat 64 n
  (mix (c.seed ^^^ (c.slotNo.zeroExtend 64 <<< 60) ^^^ (w (g % 4096) <<< 48) ^^^ (w (l % 65536) <<< 32) ^^^
    c.count.zeroExtend 64)).toNat % 65536

/-- Whether the neighbour away from zero is taken: `odd` tells whether the nearer-zero one ends in 1, `fr` is the 16-bit fraction
between the two and `st` whether more is left (R51, R53). -/
def roundUp (mode : RMode) (neg odd : Bool) (fr : Nat) (st : Bool) (t : Nat) : Bool :=
  match mode with
  | .rne => fr > 32768 || (fr == 32768 && (st || odd))
  | .rtz => false
  | .rdn => neg
  | .rup => !neg
  | .rna => fr ≥ 32768
  | .rto => !odd
  | .rsd => fr > t

/-- Round a magnitude onto multiples of 2^e: the multiple and whether it is exact. -/
def roundAt (mode : RMode) (neg : Bool) (t : Nat) (y : Exact) (e : Int) : Nat × Bool :=
  let (q, st) := y.floorAt (e - 16)
  let lo := q / 65536
  let fr := q % 65536
  if fr = 0 && !st then (lo, true)
  else (if roundUp mode neg (lo % 2 == 1) fr st t then lo + 1 else lo, false)

/-- Whether m × 2^e exceeds the largest finite magnitude. -/
def FF.exceeds (f : FF) (m : Nat) (e : Int) : Bool :=
  let s := e - (f.emax - f.p)
  if s ≥ 0 then (m <<< s.toNat) > f.maxSig else m > f.maxSig <<< (-s).toNat

/-- The value delivered on overflow (R49). -/
def FF.overflow (f : FF) (mode : RMode) (neg : Bool) : Nat :=
  let s := if neg then f.signBit else 0
  if !f.inf then s + f.maxBits
  else match mode with
    | .rne | .rna | .rsd => f.infBits neg
    | .rtz | .rto => s + f.maxBits
    | .rdn => if neg then f.infBits true else f.maxBits
    | .rup => if neg then s + f.maxBits else f.infBits false

/-- Whether .rsd chooses between the largest finite magnitude and the infinity: the magnitude lies above the former (R49, R53). -/
def FF.beyond (f : FF) (mode : RMode) (y : Exact) (e : Int) (exact : Bool) : Bool :=
  mode == .rsd && f.inf && !exact && e == f.emax - f.p && (y.floorAt e).1 == f.maxSig

/-- Round a non-zero exact magnitude into a format: the pattern and the flags OF, UF and NX (R46 to R49).  In a format without infinities
.rsd measures from the largest finite magnitude to the next multiple, and overflows where it takes that (DEDUCED log 88). -/
def FF.round (f : FF) (c : Capture) (fzo : Bool) (l g : Nat) (neg : Bool) (y : Exact) : Nat × Flags :=
  let top := y.top
  let e := (if top < f.emin then f.emin else top) - f.p
  let (m, exact) := roundAt c.mode neg (threshold c l g) y e
  if f.exceeds m e then (f.overflow c.mode neg, fOF ||| fNX)
  else
    let sub := m < 2 ^ f.p && e == f.emin - f.p
    if sub && fzo && !f.small && m != 0 then ((if neg then f.signBit else 0), fUF ||| fNX)
    else if f.beyond c.mode y e exact then (f.pack neg m e, fOF ||| fNX)
    else (f.pack neg m e, if exact then 0 else if sub then fUF ||| fNX else fNX)

/-- The pattern of a zero that is the exact result of a sum (R46). -/
def FF.zeroOf (f : FF) (mode : RMode) (signs : List Bool) : Nat :=
  let neg := if signs.all id then true else if signs.all (!·) then false else mode == .rdn
  if neg then f.signBit else 0

/-! ### Exact dyadic numbers -/

/-- n × 2^e. -/
structure Dy where
  n : Int
  e : Int
  deriving DecidableEq, Repr

def Dy.ofNat (n : Nat) : Dy := ⟨n, 0⟩
def Dy.add (a b : Dy) : Dy :=
  let e := if a.e ≤ b.e then a.e else b.e
  ⟨a.n * 2 ^ (a.e - e).toNat + b.n * 2 ^ (b.e - e).toNat, e⟩
def Dy.mul (a b : Dy) : Dy := ⟨a.n * b.n, a.e + b.e⟩
def Dy.negate (a : Dy) : Dy := ⟨-a.n, a.e⟩
def Dy.lt (a b : Dy) : Bool := (a.add b.negate).n < 0
def Dy.le (a b : Dy) : Bool := (a.add b.negate).n ≤ 0
def Dy.sum (l : List Dy) : Dy := l.foldl Dy.add ⟨0, 0⟩
def Dy.mag (a : Dy) : Exact := { m := a.n.natAbs, e := a.e }

/-- The number of a finite value. -/
def FVal.dy : FVal → Dy
  | .fin neg m e => ⟨if neg then -(m : Int) else m, e⟩
  | _ => ⟨0, 0⟩

/-- Round an exact number; `signs` are the signs of the terms it was formed from. -/
def FF.roundDy (f : FF) (c : Capture) (fzo : Bool) (l g : Nat) (signs : List Bool) (y : Dy) : Nat × Flags :=
  if y.n = 0 then (f.zeroOf c.mode signs, 0) else f.round c fzo l g (y.n < 0) y.mag

/-- Deliver a value that is not finite. -/
def FF.special (f : FF) : FVal → Nat × Flags
  | .inf neg => if f.inf then (f.infBits neg, 0) else (f.qnan, fNV)
  | .nan sig => (f.qnan, if sig then fNV else 0)
  | _ => (f.qnan, 0)

/-- Whether both infinities stand among the terms of a sum. -/
def opposed (ts : List FVal) : Bool := ts.any (· = .inf true) && ts.any (· = .inf false)

/-- The exact sum of terms, rounded once (R46): NaN, opposed infinities and infinities come first, and NV is set for a signalling NaN
and for opposed infinities, a NaN beside them or not (R48, R60). -/
def FF.roundSum (f : FF) (c : Capture) (fzo : Bool) (l g : Nat) (ts : List FVal) : Nat × Flags :=
  if ts.any (·.isNan) || opposed ts then f.special (.nan (ts.any (·.sig) || opposed ts))
  else if ts.any (·.isInf) then f.special (.inf (ts.any (· = .inf true)))
  else
    let y := Dy.sum (ts.map (·.dy))
    if ts.all (·.isZero) then (f.zeroOf c.mode (ts.map (·.neg)), 0)
    else if y.n = 0 then (f.zeroOf c.mode [true, false], 0)
    else f.round c fzo l g (y.n < 0) y.mag

/-- The exact product of two values and NV: 0 × ∞ gives NaN (R48). -/
def FVal.mul (a b : FVal) : FVal × Flags :=
  match a, b with
  | .nan x, .nan y => (.nan false, if x || y then fNV else 0)
  | .nan x, _ | _, .nan x => (.nan false, if x then fNV else 0)
  | .inf n, .inf k => (.inf (n != k), 0)
  | .inf n, .fin k m _ | .fin k m _, .inf n => if m = 0 then (.nan false, fNV) else (.inf (n != k), 0)
  | .fin n m e, .fin k q x => (.fin (n != k) (m * q) (e + x), 0)

def orFlags (l : List Flags) : Flags := l.foldl (fun a b => a ||| b) 0

/-- The value of a sum of products that is no number, with its flags: NaN where a factor is NaN, a product is 0 × ∞ or both infinities occur,
which sets NV too, else an infinity that occurs (R60). -/
def specialSum (ps : List (FVal × Flags)) : Option FVal × Flags :=
  let fl := orFlags (ps.map (·.2))
  let vs := ps.map (·.1)
  if opposed vs then (some (.nan false), fl ||| fNV)
  else if vs.any (·.isNan) then (some (.nan false), fl)
  else if vs.any (·.isInf) then (some (.inf (vs.any (· = .inf true))), fl)
  else (none, fl)

/-- Compare two values that are not NaN: whether the first is smaller. -/
def FVal.lt (a b : FVal) : Bool :=
  match a, b with
  | .inf n, .inf k => n && !k
  | .inf n, _ => n
  | _, .inf k => !k
  | a, b => a.dy.lt b.dy

def FVal.eq (a b : FVal) : Bool := !a.lt b && !b.lt a

/-! ### Operations with one rounding (R128, R167) -/

def FF.add (f : FF) (c : Capture) (l g : Nat) (a b : Nat) : Nat × Flags :=
  f.roundSum c c.fzo l g [f.read c.fzi a, f.read c.fzi b]

def FF.sub (f : FF) (c : Capture) (l g : Nat) (a b : Nat) : Nat × Flags :=
  f.roundSum c c.fzo l g [f.read c.fzi a, (f.read c.fzi b).negate]

def FF.mul (f : FF) (c : Capture) (l g : Nat) (a b : Nat) : Nat × Flags :=
  let (p, fl) := (f.read c.fzi a).mul (f.read c.fzi b)
  let (r, fr) := f.roundSum c c.fzo l g [p]
  (r, fl ||| fr)

/-- a × b + x, or −(a × b) + x. -/
def FF.fma (f : FF) (c : Capture) (l g : Nat) (neg : Bool) (a b x : Nat) : Nat × Flags :=
  let (p, fl) := (f.read c.fzi a).mul (f.read c.fzi b)
  let (r, fr) := f.roundSum c c.fzo l g [if neg then p.negate else p, f.read c.fzi x]
  (r, fl ||| fr)

def FF.div (f : FF) (c : Capture) (l g : Nat) (a b : Nat) : Nat × Flags :=
  match f.read c.fzi a, f.read c.fzi b with
  | .nan x, .nan y => f.special (.nan (x || y))
  | .nan x, _ | _, .nan x => f.special (.nan x)
  | .inf _, .inf _ => (f.qnan, fNV)
  | .inf n, .fin k _ _ => f.special (.inf (n != k))
  | .fin n _ _, .inf k => ((if n != k then f.signBit else 0), 0)
  | .fin n m e, .fin k q x =>
    if q = 0 then if m = 0 then (f.qnan, fNV) else (f.infBits (n != k), fDZ)
    else if m = 0 then ((if n != k then f.signBit else 0), 0)
    else f.round c c.fzo l g (n != k) { m := m, d := q, e := e - x }

def FF.sqrt (f : FF) (c : Capture) (l g : Nat) (a : Nat) : Nat × Flags :=
  match f.read c.fzi a with
  | .nan x => f.special (.nan x)
  | .inf neg => if neg then (f.qnan, fNV) else (f.infBits false, 0)
  | .fin neg m e =>
    if m = 0 then ((if neg then f.signBit else 0), 0)
    else if neg then (f.qnan, fNV)
    else f.round c c.fzo l g false { m := m, e := e, root := true }

/-- Round to an integral value of the same format (R128).  A zero from an operand that is not zero sets NX alone: R128 names no UF
(DEDUCED log 87). -/
def FF.integral (f : FF) (c : Capture) (l g : Nat) (a : Nat) : Nat × Flags :=
  match f.read c.fzi a with
  | .nan x => f.special (.nan x)
  | .inf neg => (f.infBits neg, 0)
  | .fin neg m e =>
    let s := if neg then f.signBit else 0
    if m = 0 then (s, 0)
    else if e ≥ 0 then (f.pack neg m e, 0)
    else
      let (q, exact) := roundAt c.mode neg (threshold c l g) { m := m, e := e } 0
      (f.pack neg q 0, if exact then 0 else fNX)

/-- The pattern of a value that a format has read. -/
def FF.pattern (f : FF) (v : FVal) : Nat :=
  match v with
  | .fin n m e => f.pack n m e
  | .inf n => f.infBits n
  | .nan _ => f.qnan

/-- The lesser or greater of two values; NaN gives the other operand (R129, R167).  FZO never applies (R47). -/
def FF.minmax (f : FF) (fzi : Bool) (max : Bool) (a b : Nat) : Nat × Flags :=
  let x := f.read fzi a
  let y := f.read fzi b
  let fl := if x.sig || y.sig then fNV else 0
  if x.isNan && y.isNan then (f.qnan, fl)
  else if x.isNan then (f.pattern y, fl)
  else if y.isNan then (f.pattern x, fl)
  else
    let less := if x.eq y then x.neg && !y.neg else x.lt y
    (f.pattern (if less != max then x else y), fl)

/-- A float comparison and its NV (R129). -/
def FF.compare (f : FF) (fzi : Bool) (cond : FCond) (a b : Nat) : Bool × Flags :=
  let x := f.read fzi a
  let y := f.read fzi b
  let un := x.isNan || y.isNan
  let quiet := match cond with
    | .lt | .le | .gt | .ge => false
    | _ => true
  let fl := if x.sig || y.sig || (un && !quiet) then fNV else 0
  let r := match cond with
    | .eq => !un && x.eq y
    | .ne => un || !x.eq y
    | .lt => !un && x.lt y
    | .le => !un && !y.lt x
    | .gt => !un && y.lt x
    | .ge => !un && !x.lt y
    | .un => un
    | .ord => !un
  (r, fl)

/-- A sign operation on the pattern (R129): NaN gives the canonical NaN, no flag is set. -/
def FF.sgn (f : FF) (op : SgnOp) (a b : Nat) : Nat :=
  if (f.read false a).isNan then f.qnan
  else
    let sa := a / f.signBit % 2 == 1
    let sb := b / f.signBit % 2 == 1
    let s := match op with
      | .cp => sb
      | .cn => !sb
      | .cx => sa != sb
      | .abs => false
      | .neg => !sa
    a % f.signBit + if s then f.signBit else 0

/-- The one-hot class mask (R129). -/
def FF.cls (f : FF) (a : Nat) : Nat :=
  let neg := a / f.signBit % 2 == 1
  let bit := match f.read false a with
    | .nan sig => if sig then 8 else 9
    | .inf n => if n then 0 else 7
    | .fin _ m e =>
      if m = 0 then if neg then 3 else 4
      else if m < 2 ^ f.p && e = f.emin - f.p then if neg then 2 else 5
      else if neg then 1 else 6
  2 ^ bit

/-! ### Conversions (R50, R130) -/

/-- The source of a conversion: FZI applies to 8-bit sources too where the destination has 8 bits (R47). -/
def FF.source (dst src : FF) (fzi : Bool) (a : Nat) : FVal :=
  match src.read fzi a with
  | .fin neg m e =>
    if fzi && dst.small && src.small && m < 2 ^ src.p && e == src.emin - src.p then .fin neg 0 e else .fin neg m e
  | v => v

/-- Float to float: FZI on the source, FZO on the result but never into an 8-bit format (R47). -/
def FF.convert (dst src : FF) (c : Capture) (l g : Nat) (a : Nat) : Nat × Flags :=
  match dst.source src c.fzi a with
  | .fin neg m e => if m = 0 then ((if neg then dst.signBit else 0), 0) else dst.round c c.fzo l g neg { m := m, e := e }
  | v => dst.special v

/-- Bounds of an integer type of `w` bits (R41). -/
def intMin (w : Nat) (sg : Bool) : Int := if sg then -(2 ^ (w - 1)) else 0
def intMax (w : Nat) (sg : Bool) : Int := if sg then 2 ^ (w - 1) - 1 else 2 ^ w - 1

def clampInt (w : Nat) (sg : Bool) (v : Int) : Int :=
  if v < intMin w sg then intMin w sg else if v > intMax w sg then intMax w sg else v

/-- Float to integer (R50). -/
def FF.toInt (f : FF) (c : Capture) (l g : Nat) (w : Nat) (sg : Bool) (a : Nat) : Int × Flags :=
  match f.read c.fzi a with
  | .nan _ => (0, fNV)
  | .inf neg => (if neg then intMin w sg else intMax w sg, fNV)
  | .fin neg m e =>
    let (q, exact) := roundAt c.mode neg (threshold c l g) { m := m, e := e } 0
    let v : Int := if neg then -(q : Int) else q
    if v < intMin w sg || v > intMax w sg then (clampInt w sg v, fNV)
    else (v, if exact then 0 else fNX)

/-- Integer to float (R50). -/
def FF.ofInt (f : FF) (c : Capture) (l g : Nat) (v : Int) : Nat × Flags :=
  if v = 0 then (0, 0) else f.round c c.fzo l g (v < 0) { m := v.natAbs, e := 0 }

/-! ### B4 blocks (R56 to R59) -/

/-- Magnitudes of a TYPE in halves, in order of the code: the overflow point last (R57). -/
def b4Grid (ty : B4Ty) (neg : Bool) : List Nat :=
  match ty with
  | .int => if neg then [0, 2, 4, 6, 8, 10, 12, 14, 16, 18] else [0, 2, 4, 6, 8, 10, 12, 14, 16]
  | .e2m1 => [0, 1, 2, 3, 4, 6, 8, 12, 16]
  | .pow2 => [0, 2, 4, 8, 16, 32, 64, 128, 256]
  | .hyb => [0, 2, 4, 6, 8, 12, 16, 24, 32]

/-- The value of a code in halves (R57). -/
def b4Half (ty : B4Ty) (code : Nat) : Int :=
  match ty with
  | .int => if code ≥ 8 then 2 * ((code : Int) - 16) else 2 * code
  | _ =>
    let v : Int := (b4Grid ty false).getD (code % 8) 0
    if code ≥ 8 then -v else v

/-- An element of a block (R56, R57): NaN when SE is 63; a negative zero code reads as +0. -/
def b4Val (scale code : Nat) : FVal :=
  let ty := B4Ty.ofCode (BitVec.ofNat 2 (scale / 64))
  let se := scale % 64
  if se = 63 then .nan false
  else
    let v := b4Half ty (code % 16)
    .fin (v < 0) v.natAbs ((se : Int) - 31 - 1)

/-- Round y / 2^x onto the grid of a TYPE (R58): the index of the magnitude, the count standing for the overflow point, and whether
it is exact.  Between −8 and −9 of the uniform integer both neighbours count as even: a tie under .rne takes the overflow point, and
.rto keeps −8 (DESIGN CHOICE log 71). -/
def b4Round (ty : B4Ty) (mode : RMode) (t : Nat) (neg : Bool) (m : Nat) (e : Int) : Nat × Bool :=
  let grid := b4Grid ty neg
  let ovf := grid.length - 1
  let y : Exact := { m := m, e := e + 1 }                    -- in halves
  let (h, st) := y.floorAt 0
  if h ≥ grid.getD ovf 0 then (ovf, h == grid.getD ovf 0 && !st)
  else
    let i := (grid.filter (· ≤ h)).length - 1
    let lo := grid.getD i 0
    let gap := grid.getD (i + 1) 0 - lo
    let (q, sq) := y.floorAt (-16)
    let d := q - lo * 65536
    if d = 0 && !sq then (i, true)
    else
      let fr := d / gap
      let more := sq || d % gap != 0
      let odd := i % 2 == 1
      let up : Bool := match mode with
        | .rto => !odd && (i + 1 != ovf || ty != .int || !neg)
        | .rne => fr > 32768 || (fr == 32768 && (more || odd || i + 1 == ovf))
        | m => roundUp m neg odd fr more t
      (if up then i + 1 else i, false)

/-- The code of a rounded magnitude; zero is always code 0 (R58). -/
def b4Code (ty : B4Ty) (neg : Bool) (i : Nat) : Nat :=
  if i = 0 then 0
  else if neg then match ty with
    | .int => (16 - i) % 16
    | _ => 8 + i
  else i

/-- Pack a block of values (R59): the scale byte, the codes and the flags.  A block with quiet NaNs alone sets no NV: step 1 of R59
decides, not the list of R48 (DEDUCED log 72). -/
def b4Pack (ty : B4Ty) (mode : RMode) (xs : List (FVal × Nat)) : Nat × List Nat × Flags :=
  let nanBlock (fl : Flags) : Nat × List Nat × Flags := (ty.code.toNat * 64 + 63, xs.map fun _ => 0, fl)
  if xs.any fun x => x.1.isNan || x.1.isInf then nanBlock (if xs.any fun x => x.1.sig || x.1.isInf then fNV else 0)
  else
    let at_ (x : Int) (v : FVal × Nat) : Nat × Bool :=
      match v.1 with
      | .fin neg m e => b4Round ty mode v.2 neg m (e - x)
      | _ => (0, true)
    let ovf (v : FVal) : Nat := (b4Grid ty v.neg).length - 1
    let fits (x : Int) : Bool := xs.all fun v => (at_ x v).1 < ovf v.1
    let x : Int := ((((List.range 63).map fun (n : Nat) => (n : Int) - 31).find? fits).getD 31)
    let code (v : FVal × Nat) : Nat × Flags :=
      let (i, exact) := at_ x v
      if i ≥ ovf v.1 then (b4Code ty v.1.neg (ovf v.1 - 1), fOF ||| fNX)
      else (b4Code ty v.1.neg i,
        if exact then 0 else if i = 0 && !v.1.isZero then fUF ||| fNX else fNX)
    let cs := xs.map code
    (ty.code.toNat * 64 + (x + 31).toNat, cs.map (·.1), cs.foldl (fun a b => a ||| b.2) 0)

/-! ### Accumulator integers (R42, R61) -/

def sat36 (v : Int) : Int × Flags :=
  let r := clampInt 36 true v
  (r, if r = v then 0 else fOF)

/-! ### Approximations (R66 to R70) -/

/-- The settings of an intermediate step: .rne with no flush. -/
def nearest : Capture := { mode := .rne, fzi := false, fzo := false, seed := 0, slotNo := 0, count := 0 }

/-- Round an intermediate step into FP32: the value and whether it is inexact. -/
def step32 (y : Dy) : Dy × Bool :=
  let (b, fl) := f32.roundDy nearest false 0 0 [false] y
  ((f32.read false b).dy, fl &&& fNX != 0)

/-- normalise(|x|): m as a dyadic number with 1 ≤ m < 2, and E. -/
def normal (m : Nat) (e : Int) : Dy × Int := (⟨m, -(m.log2 : Int)⟩, m.log2 + e)

/-- The number of a table entry given as an FP32 pattern. -/
def dy32 (b : Nat) : Dy := (f32.read false b).dy

/-- ⌊128 (m − 1)⌋ for 1 ≤ m < 2. -/
def index128 (m : Dy) : Nat := ((m.mag.floorAt (-7)).1) - 128

def rcpSeed (i : Nat) : Nat := (2 * 2 ^ 24 + (257 + 2 * i)) / (2 * (257 + 2 * i))
def rsqSeed (i : Nat) : Nat := (isqrt (2 ^ 34 * 128 / ((129 + 2 * (i % 64)) * 2 ^ (i / 64))) + 1) / 2

/-- Two Newton steps of R67. -/
def rcpSteps (m : Dy) : Nat → Dy → Bool → Dy × Bool
  | 0, y, nx => (y, nx)
  | n + 1, y, nx =>
    let (e, a) := step32 (Dy.add ⟨1, 0⟩ (Dy.mul m y).negate)
    let (z, b) := step32 (Dy.add y (Dy.mul y e))
    rcpSteps m n z (nx || a || b)

/-- R67: the magnitude is rounded in the selected mode and then takes the sign of the operand (DEDUCED log 70).  A NaN, signalling
or not, raises no flag here and in the three below: R66 gives a special case only the flags named with it (DEDUCED log 73). -/
def fRcp (c : Capture) (l : Nat) (x : Nat) : Nat × Flags :=
  match f32.read c.fzi x with
  | .nan _ => (f32.qnan, 0)
  | .inf neg => ((if neg then f32.signBit else 0), 0)
  | .fin neg 0 _ => (f32.infBits neg, fDZ)
  | .fin neg k q =>
    let (m, e) := normal k q
    let (y, nx) := rcpSteps m 2 ⟨rcpSeed (index128 m), -16⟩ false
    let (r, fl) := f32.round c c.fzo l 0 false { m := y.n.natAbs, e := y.e - e }
    ((if neg then f32.signBit else 0) + r, fl ||| if nx then fNX else 0)

/-- Two Newton steps of R68. -/
def rsqSteps (m : Dy) : Nat → Dy → Bool → Dy × Bool
  | 0, y, nx => (y, nx)
  | n + 1, y, nx =>
    let (p, a) := step32 (Dy.mul m y)
    let (e, b) := step32 (Dy.add ⟨1, 0⟩ (Dy.mul p y).negate)
    let (z, d) := step32 (Dy.add y (Dy.mul (Dy.mul y ⟨1, -1⟩) e))
    rsqSteps m n z (nx || a || b || d)

def fRsq (c : Capture) (l : Nat) (x : Nat) : Nat × Flags :=
  match f32.read c.fzi x with
  | .nan _ => (f32.qnan, 0)
  | .fin neg 0 _ => (f32.infBits neg, fDZ)
  | .inf neg => if neg then (f32.qnan, fNV) else (0, 0)
  | .fin neg k q =>
    if neg then (f32.qnan, fNV)
    else
      let (m0, e0) := normal k q
      let odd := e0 % 2 != 0
      let m := if odd then Dy.mul m0 ⟨2, 0⟩ else m0
      let e := if odd then e0 - 1 else e0
      let h := if odd then 1 else 0
      let j := (m0.mag.floorAt (-6)).1 - 64
      let (y, nx) := rsqSteps m 2 ⟨rsqSeed (64 * h + j), -16⟩ false
      let (r, fl) := f32.round c c.fzo l 0 false { m := y.n.natAbs, e := y.e - e / 2 }
      (r, fl ||| if nx then fNX else 0)

/-! Tables and constants of R69 and R70, as FP32 patterns nearest to the stated reals. -/

def expTab0 : List Nat :=
  [0x3F800000, 0x3F80B1ED, 0x3F8164D2, 0x3F8218AF, 0x3F82CD87, 0x3F838359, 0x3F843A29, 0x3F84F1F6,
   0x3F85AAC3, 0x3F866491, 0x3F871F62, 0x3F87DB35, 0x3F88980F, 0x3F8955EE, 0x3F8A14D5, 0x3F8AD4C6,
   0x3F8B95C2, 0x3F8C57CA, 0x3F8D1ADF, 0x3F8DDF04, 0x3F8EA43A, 0x3F8F6A81, 0x3F9031DC, 0x3F90FA4D,
   0x3F91C3D3, 0x3F928E72, 0x3F935A2B, 0x3F9426FF, 0x3F94F4F0, 0x3F95C3FF, 0x3F96942D, 0x3F97657D]
def expTab1 : List Nat :=
  [0x3F9837F0, 0x3F990B88, 0x3F99E046, 0x3F9AB62B, 0x3F9B8D3A, 0x3F9C6573, 0x3F9D3EDA, 0x3F9E196E,
   0x3F9EF532, 0x3F9FD228, 0x3FA0B051, 0x3FA18FAF, 0x3FA27043, 0x3FA3520F, 0x3FA43516, 0x3FA51958,
   0x3FA5FED7, 0x3FA6E595, 0x3FA7CD94, 0x3FA8B6D5, 0x3FA9A15B, 0x3FAA8D26, 0x3FAB7A3A, 0x3FAC6897,
   0x3FAD583F, 0x3FAE4934, 0x3FAF3B79, 0x3FB02F0E, 0x3FB123F6, 0x3FB21A32, 0x3FB311C4, 0x3FB40AAF]
def expTab2 : List Nat :=
  [0x3FB504F3, 0x3FB60094, 0x3FB6FD92, 0x3FB7FBF0, 0x3FB8FBAF, 0x3FB9FCD2, 0x3FBAFF5B, 0x3FBC034A,
   0x3FBD08A4, 0x3FBE0F68, 0x3FBF179A, 0x3FC0213B, 0x3FC12C4D, 0x3FC238D2, 0x3FC346CD, 0x3FC4563F,
   0x3FC5672A, 0x3FC67991, 0x3FC78D75, 0x3FC8A2D8, 0x3FC9B9BE, 0x3FCAD226, 0x3FCBEC15, 0x3FCD078C,
   0x3FCE248C, 0x3FCF4319, 0x3FD06334, 0x3FD184DF, 0x3FD2A81E, 0x3FD3CCF1, 0x3FD4F35B, 0x3FD61B5E]
def expTab3 : List Nat :=
  [0x3FD744FD, 0x3FD87039, 0x3FD99D16, 0x3FDACB94, 0x3FDBFBB8, 0x3FDD2D82, 0x3FDE60F5, 0x3FDF9613,
   0x3FE0CCDF, 0x3FE2055B, 0x3FE33F89, 0x3FE47B6D, 0x3FE5B907, 0x3FE6F85B, 0x3FE8396A, 0x3FE97C38,
   0x3FEAC0C7, 0x3FEC0719, 0x3FED4F30, 0x3FEE9910, 0x3FEFE4BA, 0x3FF13231, 0x3FF28177, 0x3FF3D290,
   0x3FF5257D, 0x3FF67A41, 0x3FF7D0DF, 0x3FF9295A, 0x3FFA83B3, 0x3FFBDFED, 0x3FFD3E0C, 0x3FFE9E11]
/-- EXP[i], nearest to 2^(i/128). -/
def expTab : List Nat := expTab0 ++ expTab1 ++ expTab2 ++ expTab3

def logTab0 : List Nat :=
  [0x00000000, 0x3C37F286, 0x3CB73CB4, 0x3D08E68F, 0x3D35D69C, 0x3D626FD6, 0x3D8759C5, 0x3D9D517F,
   0x3DB31FB8, 0x3DC8C50B, 0x3DDE4212, 0x3DF39761, 0x3E0462C4, 0x3E0EE68D, 0x3E19574F, 0x3E23B550,
   0x3E2E00D2, 0x3E383A17, 0x3E42615F, 0x3E4C76E8, 0x3E567AF1, 0x3E606DB6, 0x3E6A4F72, 0x3E74205F,
   0x3E7DE0B6, 0x3E83C857, 0x3E88983F, 0x3E8D602E, 0x3E92203D, 0x3E96D888, 0x3E9B8926, 0x3EA03232]
def logTab1 : List Nat :=
  [0x3EA4D3C2, 0x3EA96DF0, 0x3EAE00D2, 0x3EB28C7F, 0x3EB7110E, 0x3EBB8E96, 0x3EC0052B, 0x3EC474E4,
   0x3EC8DDD4, 0x3ECD4012, 0x3ED19BB0, 0x3ED5F0C4, 0x3EDA3F60, 0x3EDE8797, 0x3EE2C97D, 0x3EE70525,
   0x3EEB3A9F, 0x3EEF69FF, 0x3EF39355, 0x3EF7B6B4, 0x3EFBD42B, 0x3EFFEBCD, 0x3F01FED4, 0x3F0404E8,
   0x3F060828, 0x3F08089E, 0x3F0A0650, 0x3F0C0146, 0x3F0DF989, 0x3F0FEF1F, 0x3F11E20F, 0x3F13D260]
def logTab2 : List Nat :=
  [0x3F15C01A, 0x3F17AB44, 0x3F1993E3, 0x3F1B7A00, 0x3F1D5DA0, 0x3F1F3ECA, 0x3F211D84, 0x3F22F9D5,
   0x3F24D3C2, 0x3F26AB53, 0x3F28808C, 0x3F2A5374, 0x3F2C2411, 0x3F2DF268, 0x3F2FBE80, 0x3F31885C,
   0x3F335004, 0x3F35157D, 0x3F36D8CB, 0x3F3899F5, 0x3F3A58FF, 0x3F3C15EE, 0x3F3DD0C8, 0x3F3F8991,
   0x3F41404F, 0x3F42F506, 0x3F44A7BA, 0x3F465872, 0x3F480731, 0x3F49B3FB, 0x3F4B5ED7, 0x3F4D07C7]
def logTab3 : List Nat :=
  [0x3F4EAED0, 0x3F5053F7, 0x3F51F740, 0x3F5398AF, 0x3F553848, 0x3F56D60F, 0x3F587209, 0x3F5A0C3A,
   0x3F5BA4A4, 0x3F5D3B4E, 0x3F5ED039, 0x3F60636A, 0x3F61F4E5, 0x3F6384AD, 0x3F6512C7, 0x3F669F35,
   0x3F6829FB, 0x3F69B31E, 0x3F6B3A9F, 0x3F6CC083, 0x3F6E44CD, 0x3F6FC781, 0x3F7148A1, 0x3F72C832,
   0x3F744636, 0x3F75C2B0, 0x3F773DA4, 0x3F78B714, 0x3F7A2F04, 0x3F7BA578, 0x3F7D1A71, 0x3F7E8DF2]
/-- LOG[i], nearest to log2(1 + i/128). -/
def logTab : List Nat := logTab0 ++ logTab1 ++ logTab2 ++ logTab3

/-- INV[i], nearest to 1 / (1 + i/128). -/
def invTab (i : Nat) : Dy :=
  (f32.read false (f32.round nearest false 0 0 false { m := 128, d := 128 + i, e := 0 }).1).dy

def expC1 : Nat := 0x3F317218
def expC2 : Nat := 0x3E75FDF0
def expC3 : Nat := 0x3D635847
def logD1 : Nat := 0x3FB8AA3B
def logD2 : Nat := 0xBF38AA3B
def logD3 : Nat := 0x3EF6384F

def fExp2 (c : Capture) (l : Nat) (x : Nat) : Nat × Flags :=
  match f32.read c.fzi x with
  | .nan _ => (f32.qnan, 0)
  | .inf neg => (if neg then 0 else f32.infBits false, 0)
  | v =>
    let y := v.dy
    if !(y.lt ⟨128, 0⟩) then
      (f32.overflow c.mode false, fOF ||| fNX)
    else if y.lt ⟨-150, 0⟩ then
      (if c.mode == .rup || c.mode == .rto then
        if c.fzo then 0 else 1
       else 0, fUF ||| fNX)
    else
      let n : Int := if y.e ≥ 0 then y.n * 2 ^ y.e.toNat else y.n.fdiv (2 ^ (-y.e).toNat)
      let f := y.add ⟨-n, 0⟩
      let i := (f.mag.floorAt (-7)).1
      let r := f.add ⟨-(i : Int), -7⟩
      let (p, a) := step32 ((dy32 expC2).add (r.mul (dy32 expC3)))
      let (p, b) := step32 ((dy32 expC1).add (r.mul p))
      let (p, d) := step32 (Dy.add ⟨1, 0⟩ (r.mul p))
      let (q, e) := step32 ((dy32 (expTab.getD i 0)).mul p)
      let (z, fl) := f32.round c c.fzo l 0 false { m := q.n.natAbs, e := q.e + n }
      (z, fl ||| if a || b || d || e then fNX else 0)

def fLog2 (c : Capture) (l : Nat) (x : Nat) : Nat × Flags :=
  match f32.read c.fzi x with
  | .nan _ => (f32.qnan, 0)
  | .fin _ 0 _ => (f32.infBits true, fDZ)
  | .inf neg => if neg then (f32.qnan, fNV) else (f32.infBits false, 0)
  | .fin neg k q =>
    if neg then (f32.qnan, fNV)
    else
      let (m, e) := normal k q
      let i := index128 m
      let (r, a) := step32 ((m.mul (invTab i)).add ⟨-1, 0⟩)
      let (p, b) := step32 ((dy32 logD2).add (r.mul (dy32 logD3)))
      let (p, d) := step32 ((dy32 logD1).add (r.mul p))
      let (p, h) := step32 (r.mul p)
      let (s, j) := step32 ((dy32 (logTab.getD i 0)).add p)
      let (z, fl) := f32.roundDy c c.fzo l 0 [e < 0, s.n < 0] (Dy.add ⟨e, 0⟩ s)
      (z, fl ||| if a || b || d || h || j then fNX else 0)

end Sys2Proof.Machine
end

