-- ==== Sys2Proof/Machine/Ops.lean ====
section
/-! DEFINITION. The shared operations of an instruction: taking a trap and returning from one (R350 to R358), the issue of an
instruction (R22, R94, R95, R109, R111, R144, R280), checked pairs (R394), rings, frames and the start of codelets and threads (R21,
R229 to R233, R282). -/

namespace Sys2Proof.Machine

/-! ### Instruction bytes -/

/-- A byte as the fetch finds it: of its line as it stands, or of an older content since the launch of the task; a free value chooses one
version for the whole block (R92, DESIGN CHOICE log 1). -/
def codeByte (s : State) (a : Nat) : Byte :=
  match s.past.find? (a / 128) with
  | none => readByte s a
  | some old =>
    match Config.freeChoice s.fresh % (old.length + 1) with
    | 0 => readByte s a
    | n + 1 => match old[n]? with
      | some v => v.bytes.getD (a % 128) 0
      | none => readByte s a

/-- `n` bytes of the fetch block from an address upward; a byte beyond the block reads as zero (R90, R96). -/
def blockBytes (s : State) (pc : Word) (n : Nat) : List Byte :=
  let a := pc.toNat
  (List.range n).map fun i => if (a + i) / 32 = a / 32 then codeByte s (a % 2 ^ 56 + i) else 0

/-- TVAL of an ILLEGAL trap (R96). -/
def illegalTval (s : State) (pc : Word) : Word := BitVec.ofNat 64 (leNat 8 (blockBytes s pc 8))

/-- Whether an instruction may be fetched at an address (R91). -/
def fetchOk (s : State) (k : Nat) (pc : Word) : Bool :=
  (pc.extractLsb' 55 9 == 0) && rightsAt s (ownerOf k) .global pc &&& rX == rX

/-! ### Start of a codelet or thread (R21, R233, R238) -/

/-- The registers that dispatch loads (R21): all scalar state cleared, g54 the frame pointer. -/
def Slot.fresh (x : Slot) (frame : Word) : Slot :=
  { x with
    g := if frame = 0 then [] else [(54, frame)], p := 0, m := [], i := [], rm := 0, fzi := false, fzo := false, fen := 0,
    rseed := 0, fflags := 0, wlim := 0, tscr := 0, tlvl := false, retired := 0, inl := [], blk := none, pend := [],
    offer := none, joined := none, lvq := [], lvt := none, chkq := [], dead := false, skip := none, running := true,
    bad := x.bad.filter fun e => badLane 0 0 ≤ e.1 }

/-- Put a slot, and its trailing slot, to work. -/
def startSlot (s : State) (k : Nat) (f : Slot → Slot) : State :=
  (pairOf s k).foldl (fun s j => beginLife (s.modSlot j f) j) s

/-- Mark that a node's first member has begun (R230). -/
def beginNode (s : State) (o n : Nat) : State :=
  s.modCtx o fun c => { c with nodes := if (c.nodes.find? n).isSome then c.nodes.put n true else c.nodes }

/-! ### Rings (R233, R282) -/

def spillRecords (c : CoreSt) : Nat := c.spillPages.toNat * 2048
def ringCap (c : CoreSt) : Nat := 256 + spillRecords c
/-- Whether both areas of a ring are full for a push: records on their way back go first (R233, R358). -/
def ringFull (c : CoreSt) : Bool := c.ring.length + c.again.length ≥ ringCap c

/-- The memory key of a ring position of a core. -/
def ringKey (s : State) (core pos : Nat) : Nat :=
  let c := s.core core
  if pos < 256 then scratchKey (quadOf core) (c.ringb.toNat * 4096 + 16 * pos)
  else (c.spill.toNat * 4096 + 16 * (pos - 256)) % 2 ^ 56

/-- The free positions of a ring. -/
def ringFree (c : CoreSt) : List Nat := (List.range (ringCap c)).filter fun p => !(c.ring.any fun r => r.pos == p)

/-- Push a record; which free position takes it is a free value (R233, DESIGN CHOICE log 1). -/
def ringPush (s : State) (core : Nat) (w0 w1 : Word) (prio : Bool) (node : Nat) (time : Time) : State :=
  let (f, s1) := s.tick
  let free := ringFree (s.core core)
  let pos := free.getD (Config.freeChoice f % free.length) 0
  let key := ringKey s core pos
  let s2 := writeBytes (beforeWrite s1 none key 16) key (leBytes 8 w0.toNat ++ leBytes 8 w1.toNat)
  s2.modCore core fun c => { c with ring := c.ring ++ [{ pos, prio, node, time }], ringt := c.ringt + 1 }

/-- The record that dispatch would take next: the oldest of priority 1, else the oldest of priority 0 (R233). -/
def ringNext (c : CoreSt) : Option RingRec :=
  match c.ring.find? (·.prio) with
  | some r => some r
  | none => c.ring.head?

/-- Remove a record: its two words as they read now. -/
def ringTake (s : State) (core : Nat) (r : RingRec) : Word × Word × State :=
  let key := ringKey s core r.pos
  (BitVec.ofNat 64 (leNat 8 (readBytes s key 8)), BitVec.ofNat 64 (leNat 8 (readBytes s (key + 8) 8)),
    s.modCore core fun c => { c with ring := c.ring.filter fun x => x.pos != r.pos, ringh := c.ringh + 1 })

/-- The node of a record: NODE of the 16 bytes at its frame pointer when that names a live node, else the pusher's (R230). -/
def recordNode (s : State) (k : Nat) (frame : Word) (own : Nat) : Nat :=
  match window s k frame with
  | some (.scratch q off) =>
    if (s.quad q).mode (bankOf off) != .scr then own
    else
      let n := leNat 2 (readBytes s (scratchKey q off + 4) 2)
      if n != 0 && ((s.ctx (ownerOf k)).nodes.find? n).isSome then n else own
  | _ => own

/-! ### Frames (R229, R232) -/

/-- Push the record of a frame onto its home ring (R232): `key` is the frame's memory key, `time` the step's place in the order. -/
def fireFrame (s : State) (k : Nat) (fa : Word) (key : Nat) (time : Time) : State :=
  let home := (readByte s (key + 6)).toNat % 4
  let flags := (readByte s (key + 7)).toNat
  let code := leNat 8 (readBytes s (key + 8) 8)
  let core := (key - 2 ^ 56) / 2 ^ 22 + 16 * home
  let w0 : Word := BitVec.ofNat 64 (code / 4 * 4 + flags % 4)
  ringPush s core w0 fa (flags / 2 % 2 == 1) (recordNode s k fa (s.slot k).node) time

/-- The home core of a frame, read from its bytes. -/
def frameCore (s : State) (key : Nat) : Nat := (key - 2 ^ 56) / 2 ^ 22 + 16 * ((readByte s (key + 6)).toNat % 4)

/-! ### Instructions and their completion -/

/-- How an instruction runs in a checked pair (R394): in each slot alone, once with its value passed on, or once for both (DEDUCED log 24). -/
inductive Pairing where
  | own | load | joint
  deriving DecidableEq, Repr

/-- An instruction with the general registers it reads in operand order, the one it writes, its latency (R111) and its pairing. -/
structure Op where
  i : Instr
  h : Hdr
  srcs : List Reg := []
  dst : Option Reg := none
  also : List Reg := []   -- registers it reads beside its operands
  lat : Nat := 1
  pair : Pairing := .own
  deriving DecidableEq, Repr

/-- The slot goes on: the pc, the retired count (R55) and the latency. -/
def finish (s : State) (k : Nat) (len lat : Nat) (n : Next) : State :=
  let on (x : Slot) : Slot :=
    { x with blk := none, joined := none, offer := none, dead := false, touch := none, skip := none, ready := s.cycle + lat }
  match n with
  | .fall => s.modSlot k fun x => { on x with pc := x.pc + BitVec.ofNat 64 len, retired := x.retired + 1 }
  | .to pc => s.modSlot k fun x => { on x with pc, retired := x.retired + 1 }
  | .restart => s.modSlot k fun x => { on x with pc := x.pc + BitVec.ofNat 64 len }
  | .gone => s

/-- What a joint instruction gives the trailing slot beside its pc: the destination register and slot state it set (R394). -/
def copyToTrail (op : Op) (lead trail : Slot) : Slot :=
  let t1 := match op.dst with
    | some d => if d.isQueue then trail else trail.setG d (lead.getG d)
    | none => trail
  let t2 := match op.i with
    | .feqry _ d _ | .poll _ _ _ d _ => t1.setP d (lead.getP d)
    | .rpop _ _ c => t1.setG c (lead.getG c)
    | .next .. => t1.setI lead.i
    | _ => t1
  { t2 with inl := lead.inl, prio := lead.prio, batch := lead.batch, pc := lead.pc, retired := lead.retired, ready := lead.ready,
            offer := none, tlvl := lead.tlvl }

/-! ### Taking a trap (R350 to R358) -/

def recordOf (s : State) (k : Nat) (cause : BitVec 8) (late : Bool) (pc tval : Word) (need : BitVec 4) (seq : BitVec 32) : FaultRec :=
  { cause, late, node := (s.slot k).node, tid := tidOf k, pc, addr := tval, need, seq := if late then seq else 0 }

/-- Put back the entries that an arrival has popped. -/
def putBack (s : State) (k : Nat) (b : Block) : State :=
  ((b.srcs.filter Reg.isQueue).zip b.popped).reverse.foldl (fun s e =>
    let bad := qBad s (coreOf k) (queueOf e.1)
    qSet s (coreOf k) (queueOf e.1) (e.2 :: qEntries s (coreOf k) (queueOf e.1)) (if bad.isEmpty then [] else false :: bad)) s

/-- The number of a barrier in the table of its context; for a quay slot `.qd` acts as `.sk` (R20, R207, R241) (DEDUCED log 38). -/
def barKey (s : State) (k : Nat) (sc : Scope) (id : BitVec 4) : Nat :=
  unitOf s k (scopeFor k sc) * 128 + (scopeFor k sc).code.toNat * 16 + id.toNat

/-- Whether a slot belongs to the unit of a barrier of slot `k` (R20, R287). -/
def inBarUnit (s : State) (k : Nat) (sc : Scope) (j : Nat) : Bool := barKey s j (scopeFor k sc) 0 == barKey s k sc 0

/-- Remove the last entry that a condition selects. -/
def dropLast {α : Type} (sel : α → Bool) (l : List α) : List α := (l.reverse.eraseP sel).reverse

/-- Withdraw the arrival with which a slot waits; where it was the first, the phase has no N (R285). -/
def Barrier.withdrawn (b : Barrier) (k : Nat) : Barrier :=
  { b with slots := dropLast (fun e => e.1 == k) b.slots,
           n := if (b.slots.head?.any fun e => e.1 == k) && !b.slots.tail.any fun e => e.1 == k then none else b.n }

/-- A slot whose phase of a barrier has completed is released: its `bar` is over, under the time of the phase (R242, R262). -/
def releaseBar (s : State) (k : Nat) : State :=
  match (s.slot k).blk with
  | some b =>
    match b.wait with
    | .bar sc _ id p =>
      let x := (s.ctx (ownerOf k)).bars.get {} (barKey s k sc id)
      if x.phase = p then s
      else
        let t := finish (s.modSlot k fun y => { y with tt := Time.later y.tt (x.doneTimes.get y.tt p.toNat) }) k b.instr.bytes 1 .fall
        if (t.slot k).chk = 1 then t.modSlot (trailOf k) (copyToTrail { i := b.instr, h := ⟨7, false⟩, pair := .joint } (t.slot k)) else t
    | _ => s
  | none => s

/-- A slot leaves its wait with no effect; an arrival at a barrier is withdrawn (R225, R285). -/
def abandon (s : State) (k : Nat) : State :=
  let s1 := match (s.slot k).blk with
    | some b =>
      match b.wait with
      | .bar sc _ id _ =>
        putBack (s.modCtx (ownerOf k) fun c =>
          { c with bars := c.bars.put (barKey s k sc id) ((c.bars.get {} (barKey s k sc id)).withdrawn k) }) k b
      | _ => s
    | none => s
  s1.modSlot k fun x => { x with blk := none, joined := none, touch := none, skip := none }

/-- Enter the handler (R354): the registers that record the trap, level 1, the pc at TVEC; with TVEC zero the task ends. -/
def enterHandler (s : State) (k : Nat) (cause : BitVec 8) (late : Bool) (pc tval : Word) (seq : BitVec 32)
    (need : BitVec 4) : State :=
  let c := s.core (coreOf k)
  let s1 := s.modSlot k fun x =>
    { x with cause, late, txpc := pc, tval, tseq := if late then seq else x.tseq, tlvl := true, dead := false,
             ready := s.cycle + 1, offer := none, skip := none }
  if c.tvec = 0 then taskAbrupt s1 (ownerOf k) (recordOf s1 k cause late pc tval need seq)
  else s1.modSlot k fun x => { x with pc := (c.tvec ++ (0 : BitVec 2)).zeroExtend 64 }

/-- Push a record of a restartable codelet again, as by `rpush`; it waits while the ring is full (R233, R358). -/
def pushAgain (s : State) (core : Nat) (r : Again) : State :=
  if ringFull (s.core core) then s.modCore core fun c => { c with again := c.again ++ [r] }
  else ringPush s core r.w0 r.w1 r.prio (recordNode s r.slot r.w1 r.node) r.time

/-- The records that wait for room on a ring go onto it while it has room (R233, R358). -/
def flushAgain (s : State) (core : Nat) : State :=
  (s.core core).again.foldl (fun s r =>
    if (s.core core).ring.length ≥ ringCap (s.core core) then s
    else ringPush (s.modCore core fun c => { c with again := c.again.erase r }) core r.w0 r.w1 r.prio (recordNode s r.slot r.w1 r.node) r.time) s

/-- A comparison that fails in a checked pair (R355, R358): a restartable codelet at level 0 runs again from its record, and what was handed
back to it is lost (R225), else the task ends. -/
def mismatch (s : State) (k : Nat) (tval : Word) : State :=
  let lead := leadOf (s.slot k) k
  let o := ownerOf k
  let s1 := boxAdd (s.modCtx o fun c => { c with counts := { c.counts with chkm := c.counts.chkm + 1 } })
    0x13 o (unitNo s k) []
  let s2 := [lead, trailOf lead].foldl (fun s j =>
    s.modSlot j fun x => { x with cause := Cause.chkMismatch.code, late := false, txpc := x.pc, tval }) s1
  match (s.slot lead).codelet, (s.slot lead).rstrt && !(s.slot k).tlvl with
  | some (w0, w1, prio), true =>
    let core := coreOf lead
    let s3 := cancelSlab s2 core fun slot _ => slot = lead || slot = trailOf lead
    let r : Again := { w0, w1, prio, slot := lead, node := (s.slot lead).node, time := (s.slot lead).tt }
    let s4 := loseHandbacks ([lead, trailOf lead].foldl (fun s j => s.modSlot j Slot.stop) s3) lead
    pushAgain s4 core r
  | _, _ => taskAbrupt s2 o (recordOf s2 k Cause.chkMismatch.code false (s.slot k).pc tval 0 0)

/-- Take a trap: the one operation for every cause (R350, R354 to R356, R358). -/
def takeTrap (s : State) (k : Nat) (t : Trap) (late : Bool) (pc : Word) (seq : BitVec 32) : State :=
  match t.cause with
  | .leaseOut => taskAbrupt s (ownerOf k) (recordOf s k t.cause.code late pc t.tval t.need seq)
  | .poison => contain s k (recordOf s k t.cause.code late pc t.tval t.need seq)
  | .chkMismatch => mismatch s k t.tval
  | c =>
    let s1 := abandon s k
    if (s.slot k).tlvl then taskAbrupt s1 (ownerOf k) (recordOf s k c.code late pc t.tval t.need seq)
    else enterHandler s1 k c.code late pc t.tval seq t.need

/-- A precise trap of the instruction at the slot's pc; ILLEGAL records its bytes (R96, R350). -/
def raise (s : State) (k : Nat) (t : Trap) : State :=
  let pc := (s.slot k).pc
  let tval := match t.cause with
    | .illegal => illegalTval s pc
    | .blockInCodelet => 0
    | _ => t.tval
  takeTrap s k { t with tval } false pc 0

/-- The order of pending traps (R355, R365): late, XHAND, DEADLOCK found in absence, EXPIRY_NOTICE. -/
def Pend.rank (p : Pend) : Nat :=
  if p.late then 0 else if p.cause = Cause.xhand.code then 1 else if p.cause = Cause.deadlock.code then 2 else 3

/-- Whether a pending trap may be taken at the slot's level: at level 1 only a late trap of an instruction dispatched there, or a DEADLOCK
of one issued there, which end the task (R355, R365). -/
def Pend.due (p : Pend) (tlvl : Bool) : Bool := !tlvl || ((p.late || p.cause == Cause.deadlock.code) && p.lvl)

/-- The pending trap that is taken first. -/
def Slot.nextPend (x : Slot) : Option Pend :=
  (x.pend.filter fun p => p.due x.tlvl).foldl (fun b p =>
    match b with
    | none => some p
    | some q =>
      if p.rank < q.rank || (p.rank = 0 && q.rank = 0 && (p.tseq - q.tseq).msb) then some p else some q) none

/-- Whether a slab instruction was dispatched after the one with a sequence number (R352). -/
def seqAfter (seq n : BitVec 32) : Bool := n != seq && !(n - seq).msb

/-- The pending traps of a slot without a late fault and those of later slab instructions, which it cancels (R352). -/
def withoutLater (p : Pend) (l : List Pend) : List Pend := (l.erase p).filter fun q => !(q.late && seqAfter p.tseq q.tseq)

/-- Whether a slot's `bankcfg`, or that of its pair, is still in progress (R154). -/
def switchOpen (s : State) (k : Nat) : Bool :=
  (s.quad (quadOf k)).switches.any fun w => w.slot == leadOf (s.slot k) k

/-- The pending trap that reaches a slot now: none while its context is stopped or out (R359, R365), and none before the end of a `bankcfg`,
which is an interlock of one instruction (R154, R352). -/
def pendNow (s : State) (k : Nat) : Option Pend :=
  if (s.slot k).running && (s.ctx (ownerOf k)).phase == .running && !switchOpen s k then (s.slot k).nextPend else none

/-- Deliver the first pending trap of a slot, if one is due; a `bar` whose phase has completed is over first (R242, R352, R354, R355,
R365).  A notice that meets TVEC = 0 is not delivered (R312). -/
def deliverPending (s0 : State) (k : Nat) : State :=
  match pendNow s0 k with
  | none => s0
  | some p =>
    let s := releaseBar s0 (leadOf (s0.slot k) k)
    let s1 := s.modSlot k fun x => { x with pend := if p.late then withoutLater p x.pend else x.pend.erase p }
    let pc := (s.slot k).pc
    if p.late then
      let s2 := cancelSlab (abandon s1 k) (coreOf k) fun slot n => slot = leadOf (s.slot k) k && seqAfter p.tseq n
      let s3 := s2.modSlot k fun x => ({ x with tscr := pc } : Slot).mendedSys .tscr
      takeTrap s3 k { cause := Cause.ofCode p.cause, tval := p.tval, need := p.need } true p.pc p.tseq
    else
      let s2 :=
        if p.cause = Cause.xhand.code then s1.modSlot k fun x => { x with xhand := p.tval.setWidth 56 }
        else if p.cause = Cause.expiryNotice.code then s1.modCtx (ownerOf k) fun c => { c with noticeDone := true }
        else s1
      if p.cause = Cause.expiryNotice.code && (s.core (coreOf k)).tvec = 0 then s1
      else takeTrap s2 k { cause := Cause.ofCode p.cause, tval := p.tval } false pc 0

/-- A late fault of a slab instruction: the later ones of its slot are cancelled (R352); POISON contains the cell at once (R390), and
another trap is delivered by the step that follows, or by a later `tret`. -/
def lateFault (s : State) (slot : Nat) (seq : BitVec 32) (pc : Word) (lvl : Bool) (t : Trap) : State :=
  let s1 := cancelSlab s (coreOf slot) fun j n => j = slot && seqAfter seq n
  if t.cause = .poison then contain s1 slot (recordOf s1 slot t.cause.code true pc t.tval t.need seq)
  else
  let p : Pend := { cause := t.cause.code, late := true, pc, tval := t.tval, tseq := seq, lvl, need := t.need }
  let s2 := (pairOf s slot).foldl (fun s j =>
    s.modSlot j fun x => if x.running then { x with pend := x.pend ++ [p] } else x) s1
  { s2 with agenda := s2.agenda ++ [.lateTrapDelivery slot] }

/-- Return from a handler to an address (R126): level 0, and the first pending trap is delivered before the target issues (R355). -/
def trapReturn (s : State) (k : Nat) (target : Word) : State :=
  deliverPending (s.modSlot k fun x => { x with tlvl := false, pc := target }) k

/-! ### The issue of an instruction -/

/-- Whether an instruction runs on the slab side: vector and matrix instructions (R17). -/
def onSlab : Instr → Bool
  | .vld .. | .vst .. | .vlds .. | .vsts .. | .vldc .. | .vgth .. | .vsct .. | .vrst .. | .vamo .. | .vadd .. | .vsub ..
  | .vmul .. | .vfma .. | .vdot .. | .vdiv .. | .vsqrt .. | .vmin .. | .vmax .. | .vabs .. | .vneg .. | .vsgn ..
  | .vand .. | .vor .. | .vxor .. | .vshl .. | .vshr .. | .vsar .. | .vcnt .. | .vcmp .. | .vsel .. | .vmsk ..
  | .vmskCnt .. | .vmskFfs .. | .vmskFirst .. | .vcvt .. | .vsat .. | .vpack .. | .vunpk .. | .vperm .. | .vshf ..
  | .vbcast .. | .vins .. | .vext .. | .vidx .. | .vmov .. | .vred .. | .vscan .. | .vrcp .. | .vrsq .. | .vexp2 ..
  | .vlog2 .. | .tld .. | .tst .. | .tzero .. | .tmov .. | .tfill .. | .mma .. | .mmaq .. | .mwait .. | .mwaitF ..
  | .azero .. | .aload .. | .aread .. | .acvt .. | .adrain .. | .ared .. | .ascal .. => true
  | _ => false


/-- Vector and matrix instructions that access memory (R164, R181). -/
def slabMemory : Instr → Bool
  | .vld .. | .vst .. | .vlds .. | .vsts .. | .vldc .. | .vgth .. | .vsct .. | .vrst .. | .vamo .. | .tld .. | .tst ..
  | .aload .. | .aread .. => true
  | _ => false

/-- Instructions outside the slabs with a step in the memory order, or that another party's accesses follow (R164, R181, R258). -/
def orderedOp : Instr → Bool
  | .ld .. | .st .. | .ldc .. | .amo .. | .cas .. | .ldfe .. | .stfe .. | .feset .. | .feqry .. | .waita .. | .fence ..
  | .msg .. | .wait .. | .waitWk .. | .wake .. | .bankcfg .. | .ramo .. | .rst .. | .rld .. | .xpush .. | .xpushb ..
  | .xlay .. | .xres .. | .spawn .. | .dec .. | .rpush .. | .rpop .. | .cnew .. | .cend .. | .tend .. | .bar .. | .barq ..
  | .poll .. | .anew .. | .ahand .. | .aend .. | .wpresAdd .. | .wpresChild .. | .wsplit .. | .wdeleg .. | .wsurr ..
  | .attest .. | .klease .. => true
  | _ => false

/-- Whether an instruction waits for the accesses of an earlier slab instruction of the slot (R164, R181). -/
def orderHeld (s : State) (k : Nat) (i : Instr) : Bool :=
  orderedOp i && (s.core (coreOf k)).slabQ.any fun o => o.slot == k && slabMemory o.instr

/-- The guard (R94). -/
def guardOf (x : Slot) (h : Hdr) : Bool := x.getP h.pg != h.pn

/-- The general register that an incomplete slab instruction writes (R159). -/
def SlabOp.generalDest (o : SlabOp) : Option Reg :=
  match o.instr with
  | .vext _ _ d _ _ _ | .vred _ _ _ _ _ d _ | .vmskCnt _ d _ | .vmskFfs _ d _ => some d
  | _ => none

/-- The interlock on registers that a slab instruction of the slot, or of its pair, has still to write (R159). -/
def interlocked (s : State) (k : Nat) (rs : List Reg) : Bool :=
  (s.core (coreOf k)).slabQ.any fun o => o.slot = leadOf (s.slot k) k && (o.generalDest.any fun d => rs.contains d)

/-- The slot is held by an interlock or in the memory path and issues again. -/
def holdSlot (s : State) (k : Nat) : State := s.modSlot k fun x => { x with ready := s.cycle + 1 }

/-- The access of a slot waits in the memory path, and its instruction issues again (R337). -/
def pathWait (s : State) (k : Nat) (ea : Word) (need : BitVec 4) : State := holdSlot (s.modSlot k fun x => { x with touch := some (ea, need) }) k

/-- A slot takes its place behind the latch of a bank (R278). -/
def queueLatch (s : State) (k b : Nat) : State :=
  s.modCore (coreOf k) fun c =>
    let l := (c.latches.find? b).getD { slot := k, until_ := 0 }
    { c with latches := c.latches.put b { l with waiting := if l.waiting.contains k then l.waiting else l.waiting ++ [k] } }

/-- The slot is skipped for the latch of a bank, which it reserves (R278). -/
def reserveLatch (s : State) (k b : Nat) : State := (queueLatch s k b).modSlot k fun x => { x with skip := some b }

/-- The latency of an instruction: an access to a scratch bank of the quad is performed at the core's turn of the bank (R111, R136, R278). -/
def latencyOf (s : State) (k : Nat) (i : Instr) (lat : Nat) : Nat :=
  if orderedOp i then
    (s.core (coreOf k)).latches.foldl (fun n e => if e.2.slot = k then Nat.max n (e.2.until_ - s.cycle) else n) lat
  else lat

/-- The limit of a wait: that of `wait` where it is not zero, none for the admission engine, else WLIM (R144, R146, R228). -/
def limitOf (x : Slot) (i : Instr) (w : Wait) : Nat :=
  let own : Word := match i with
    | .wait _ _ n | .waitWk _ _ n => n.zext
    | _ => 0
  if w = .engine then 0 else if own != 0 then own.toNat else x.wlim.toNat

/-- A trap of an instruction that a pair performs as one: the trailing slot takes it where it stands at the same instruction, else when
it comes to the load (R394). -/
def raisePair (s : State) (k : Nat) (t : Trap) : State :=
  let tr := trailOf k
  let s1 := raise s k t
  if !(s1.slot tr).running then s1
  else if (s.slot tr).offer.isSome then raise s1 tr t
  else s1.modSlot tr fun x => { x with lvt := some (t.cause.code, t.tval) }

/-- Whether an instruction of a slot stands for itself: outside a checked pair, or performed by each slot of it (R394). -/
def ownOp (s : State) (k : Nat) (op : Op) : Bool := op.pair = .own || (s.slot k).chk != 1

/-- A precise trap of an instruction. -/
def raiseOp (s : State) (k : Nat) (op : Op) (t : Trap) : State := if ownOp s k op then raise s k t else raisePair s k t

/-- A trap of a slot that waits: WAITLIMIT, DEADLOCK or BANK_MODE (R144, R154, R288). -/
def raiseWaiting (s : State) (k : Nat) (t : Trap) : State :=
  if ((s.slot k).blk.map (·.own)).getD true then raise s k t else raisePair s k t

/-- Whether a wait that begins reads a WLIM that holds an error (R144, R389). -/
def badLimit (x : Slot) (i : Instr) (w : Wait) : Bool :=
  x.blk.isNone && limitOf { x with wlim := 0 } i w != limitOf { x with wlim := 1 } i w && (badSys .wlim).any fun n => x.bad.get false n

/-- Block the slot (R144): a codelet traps instead, with no effect.  It has issued since the last snapshot (R286)
and holds no reservation of a latch any more (R278). -/
def blockOn (s : State) (k : Nat) (op : Op) (w : Wait) (left : Option State) : State :=
  let x := s.slot k
  if !x.mode then raiseOp s k op ⟨.blockInCodelet, 0, 0⟩
  else if badLimit x op.i w then consume s k
  else
    let t := left.getD s
    let old := x.blk
    let same := old.any fun b => b.wait = w || b.onQueues && ({ b with wait := w } : Block).onQueues
    let b : Block :=
      { instr := op.i, srcs := op.srcs, dst := op.dst, wait := w,
        since := (old.map (·.since)).getD s.cycle,
        ticket := if same then (old.map (·.ticket)).getD t.ticket else t.ticket,
        limit := limitOf x op.i w, own := ownOp s k op,
        popped :=
          if left.isSome then op.srcs.filterMap fun r => if r.isQueue then (qEntries s (coreOf k) (queueOf r)).head? else none
          else (old.map (·.popped)).getD [] }
    { t.modSlot k fun y => { y with blk := some b, ready := s.cycle + 1, dead := false, skip := none } with ticket := if same then t.ticket else t.ticket + 1 }

/-- The queues among some registers, with the entries they held in `s`: an instruction that traps has popped nothing (R350). -/
def unpop (s left : State) (k : Nat) (rs : List Reg) : State :=
  (rs.filter Reg.isQueue).foldl (fun t r => qSet t (coreOf k) (queueOf r) (qEntries s (coreOf k) (queueOf r)) (qBad s (coreOf k) (queueOf r))) left

/-- The second destination of an instruction that has two (R234). -/
def secondDst : Instr → List Reg
  | .rpop _ _ c => [c]
  | _ => []

/-- The registers on which the interlock of R159 holds an instruction: those that it reads, and also those that it only writes (DESIGN CHOICE log 97). -/
def Op.regs (op : Op) : List Reg := op.srcs ++ op.also ++ op.dst.toList ++ secondDst op.i

/-- The predicates that an instruction reads as operands (R118, R121, R122). -/
def predsRead : Instr → List PReg
  | .sel _ _ _ _ c => [c]
  | .plog _ _ _ a b => [a, b]
  | .pmovToGeneral _ _ a => [a]
  | .pmovGet .. => [0, 1, 2, 3, 4, 5, 6]
  | _ => []

/-- The slab instructions that dispatch, and so capture RMODE and RSEED (R26, R52): not the waits of R195 (DESIGN CHOICE log 98). -/
def captures : Instr → Bool
  | .mwait .. | .mwaitF .. => false
  | i => onSlab i

/-- The rounding of a scalar instruction that rounds (R127 to R130, R139). -/
def scalarRnd : Instr → Option Rnd
  | .fadd _ _ r .. | .fsub _ _ r .. | .fmul _ _ r .. | .ffma _ _ r .. | .fdiv _ _ r .. | .fsqrt _ _ r .. | .fround _ _ r ..
  | .fcvt _ _ r .. => some r
  | .amo _ .fadd .. | .ramo _ .fadd .. => some .slot
  | _ => none

/-- The scalar instructions that flush their inputs or may trap FP_EXC, and do not round (R129, R131). -/
def comparesFloat : Instr → Bool
  | .fmin .. | .fmax .. | .fcmp .. => true
  | _ => false

/-- Whether a rounding draws on RSEED (R51, R54). -/
def drawsSeed (x : Slot) : Rnd → Bool
  | .own m => m == .rsd
  | .slot => RMode.ofRm x.rm == some .rsd

/-- The system registers of its slot that an instruction reads (R33, R52, R54, R124) (DESIGN CHOICE log 106). -/
def sysReads (x : Slot) (i : Instr) : List SysReg :=
  (match i with
   | .mfs _ r _ => [r]
   | _ => []) ++
    (if captures i || comparesFloat i || (scalarRnd i).isSome then [.rmode] else []) ++
    if captures i || (scalarRnd i).any (drawsSeed x) then [.rseed] else []

/-- The tile descriptors that an instruction reads (R27, R124, R179 to R201). -/
def descsRead : Instr → List TReg
  | .mfs _ (.tdesc t) _ => [t]
  | .tld _ _ d .. | .tst _ _ d .. | .tfill _ d .. | .acvt _ _ d _ => [d]
  | .mma _ op | .mmaq _ _ _ op => [op.ta, op.tb]
  | _ => []

/-- Whether an instruction reads a predicate, a system register or a tile descriptor that holds an error (R389). -/
def badReads (s : State) (k : Nat) (i : Instr) : Bool :=
  let x := s.slot k
  ((predsRead i).any fun p => x.bad.get false (badPred p.toNat)) ||
    ((sysReads x i).any fun r => (badSys r).any fun n => x.bad.get false n) ||
    (descsRead i).any fun t => (s.core (coreOf k)).descBad.get false t.toNat

/-- Whether an instruction reads anything but a queue entry that holds an error: it is consumed whatever else the instruction meets (R389, R390). -/
def badRegs (s : State) (k : Nat) (op : Op) : Bool :=
  ((op.srcs ++ op.also).any fun r => !r.isQueue && r != 0 && (s.slot k).bad.get false r.toNat) || badReads s k op.i

/-- Run an instruction whose guard is true: queue waits, sources, its body, and what follows; `fin` acts when it completes.  The wait for the
entries of a queue among the sources comes before every check of the body (DEDUCED log 90), and so does the wait for room of a queue that the
instruction writes (DESIGN CHOICE log 90).  Where the instruction reads a word that holds an error, only the consumption takes effect (R390). -/
def perform (op : Op) (body : List Word → State → Res) (fin : State → Next → State) (s : State) (k : Nat) : State :=
  if badRegs s k op then consume s k
  else match popShort s k op.srcs with
  | some q => blockOn s k op (.qPop q) none
  | none =>
    if badSource s k (op.srcs ++ op.also) then consume s k
    else match op.dst.filter fun d => pushShort s k op.srcs d with
    | some d => blockOn s k op (.qPush (queueOf d)) none
    | none =>
      let (vs, s1) := readRegs s k op.srcs
      match body vs s1 with
      | .ok (t, n) => fin (finish t k op.i.bytes (latencyOf t k op.i op.lat) n) n
      | .error (.trap t) => raiseOp s k op t
      | .error (.fault t left) => raiseOp (unpop s left k op.srcs) k op t
      | .error (.block w left) => blockOn s k op w left
      | .error (.poll w left) => blockOn (unpop s left k op.srcs) k op w none
      | .error .hold => holdSlot s k
      | .error (.path ea need) => pathWait s k ea need
      | .error (.skip b) => holdSlot (reserveLatch s k b) k

/-- TVAL of a slab comparison that fails: bit 63 and the sequence number (R394). -/
def slabMismatch (s : State) (k : Nat) : Word := (1#1 ++ (0 : BitVec 31) ++ (s.core (coreOf k)).slabseq : BitVec 64)

/-- The values of a joint instruction that a slot of a pair offers for the comparison. -/
def offerOf (op : Op) (x : Slot) : Offer := { instr := op.i, args := op.srcs.map fun r => if r.isQueue then 0 else x.getG r }

/-- TVAL of a comparison of two offers that fails: the leading slot's value of the first operand that differs (R358). -/
def leadingValue (lead trail : Offer) : Word :=
  (((lead.args.zip trail.args).find? fun e => e.1 != e.2).map (·.1)).getD (lead.args.headD 0)

/-- The leading slot of a pair performs a joint instruction once both have issued it; until the trailing one has, it waits as an
interlock (R394).  A consumption comes before the comparison: it alone takes effect (R390); the queues are read by the leading slot as it
performs. -/
def performJoint (op : Op) (body : List Word → State → Res) (s : State) (k : Nat) : State :=
  let tr := trailOf k
  let mine := offerOf op (s.slot k)
  if badRegs s k op then consume s k
  else match (s.slot tr).offer with
  | none => s.modSlot k fun x => { x with offer := some mine }
  | some o =>
    if o = mine then
      perform op body (fun t n =>
        match n with
        | .gone => t
        | _ => t.modSlot tr (copyToTrail op (t.slot k))) (s.modSlot k fun x => { x with offer := none }) k
    else mismatch s k (if onSlab op.i then slabMismatch s k else leadingValue mine o)

/-- The leading slot of a pair performs a load and passes its value on through the queue of 32 entries (R394). -/
def performLead (op : Op) (body : List Word → State → Res) (s : State) (k : Nat) : State :=
  let tr := trailOf k
  if (s.slot tr).lvq.length ≥ 32 then holdSlot s k
  else perform op body (fun t _ =>
    let v := match op.dst with
      | some d => if d.isQueue then 0 else (t.slot k).getG d
      | none => 0
    t.modSlot tr fun x => { x with lvq := x.lvq ++ [v] }) s k

/-- The trailing slot of a pair takes the value of a load, or offers a joint instruction to its partner (R394). -/
def performTrail (op : Op) (body : List Word → State → Res) (s : State) (k : Nat) : State :=
  match op.pair with
  | .own => perform op body (fun t _ => t) s k
  | .load =>
    match (s.slot k).lvq with
    | v :: rest =>
      let s1 := s.modSlot k fun x =>
        let y := { x with lvq := rest }
        match op.dst with
        | some d => if d.isQueue then y else y.setG d v
        | none => y
      finish s1 k op.i.bytes op.lat .fall
    | [] =>
      match (s.slot k).lvt with
      | some (c, v) => raise (s.modSlot k fun x => { x with lvt := none }) k ⟨Cause.ofCode c, v, 0⟩
      | none => holdSlot s k
  | .joint =>
    if badRegs s k op then consume s k
    else
    let lead := leadOf (s.slot k) k
    let s1 := s.modSlot k fun x => { x with offer := some (offerOf op x) }
    if (s.slot lead).offer.isSome then { performJoint op body { s1 with cur := lead } lead with cur := s.cur } else s1

/-- Whether an instruction is one that a quay slot does not have: it needs a quad's bank, a ring, a nest counter or tile state (R18, R31,
R153, R233, R239, R246). -/
def notOnQuay : Instr → Bool
  | .mfs _ r _ | .mts _ r _ => r.noQuay
  | .ringbWrite .. | .ringlWrite .. | .tdescWrite .. | .bankcfg .. | .rpush .. | .rpop .. | .nest .. | .next .. | .gang ..
  | .qcfgBind .. => true
  | _ => false

/-- The decode checks that depend on the place of the slot: they precede the guard (R17, R18, R31, R95) (DEDUCED log 25). -/
def absent (s : State) (k : Nat) (i : Instr) : Bool :=
  (onSlab i && (s.core (coreOf k)).gangw == 0) || (notOnQuay i && isQuay k)

/-- Whether the current slot's instruction reaches its body now: it exists at the slot's place (R17, R18, R31), its guard is true (R94), no slab
instruction stands in its way (R159, R164, R181), and its queue registers hold what it pops and have room for what it pushes (R22, R280). -/
def reachesBody (op : Op) (s : State) : Bool :=
  !absent s s.cur op.i && !s.me.bad.get false (badPred op.h.pg.toNat) && guardOf s.me op.h &&
    !interlocked s s.cur op.regs && !orderHeld s s.cur op.i && (popShort s s.cur op.srcs).isNone &&
    op.dst.toList.all fun d => !pushShort s s.cur op.srcs d

/-- The issue of an instruction by the current slot: the checks of its place, guard, interlocks, then its effect (R94, R95). -/
def issue (op : Op) (body : List Word → State → Res) (s : State) : Host.Outcome State Fault Refusal :=
  let k := s.cur
  if absent s k op.i then .next (raise s k ⟨.illegal, 0, 0⟩)
  else if s.me.bad.get false (badPred op.h.pg.toNat) then .next (consume s k)
  else if !guardOf s.me op.h then .next (finish s k op.i.bytes 1 .fall)
  else if interlocked s k op.regs || orderHeld s k op.i then .next (holdSlot s k)
  else if op.pair = .own || s.me.chk = 0 then .next (perform op body (fun t _ => t) s k)
  else if s.me.chk = 2 then .next (performTrail op body s k)
  else if op.pair = .load then .next (performLead op body s k)
  else .next (performJoint op body s k)

/-! ### The commonest bodies -/

/-- Write a general register and go on. -/
def give (s : State) (d : Reg) (v : Word) : Res := done (writeReg s s.cur d v)

/-- Write a predicate and go on. -/
def giveP (s : State) (d : PReg) (b : Bool) : Res := done (s.modMe fun x => x.setP d b)

/-- The n-th source value. -/
def arg (vs : List Word) (n : Nat) : Word := vs.getD n 0

/-- An instruction that computes a general register from general registers and nothing else. -/
def alu (i : Instr) (h : Hdr) (d : Reg) (srcs : List Reg) (f : List Word → Word) (s : State) (lat : Nat := 1) :
    Host.Outcome State Fault Refusal :=
  issue { i, h, srcs, dst := some d, lat } (fun vs s => give s d (f vs)) s

end Sys2Proof.Machine
end

