-- ==== Sys2Proof/Machine/Operands.lean ====
section
/-! DEFINITION. Operand forms: typed values (R110), memory operands (R133), place words (R155), rounding and flags of a scalar instruction
(R33, R34, R51, R103, R131), and the accesses of a thread (R134 to R136, R261). -/

namespace Sys2Proof

/-- val() of R110: the low bits of a value, extended by the type's sign. -/
def IntTy.val (t : IntTy) (x : Word) : Word :=
  if t.signed then (x.setWidth t.bits).signExtend 64 else (x.setWidth t.bits).zeroExtend 64

/-- The number that val() stands for. -/
def IntTy.int (t : IntTy) (x : Word) : Int :=
  if t.signed then (x.setWidth t.bits).toInt else ((x.setWidth t.bits).toNat : Int)

/-- put() of R110: a number taken modulo 2^w, then extended. -/
def IntTy.put (t : IntTy) (v : Int) : Word := t.val (BitVec.ofInt 64 v)

/-- A comparison of two numbers (R120). -/
def Cond.holds (c : Cond) (a b : Int) : Bool :=
  match c with
  | .eq => a == b
  | .ne => a != b
  | .lt => decide (a < b)
  | .ge => decide (b ≤ a)
  | .le => decide (a ≤ b)
  | .gt => decide (b < a)

/-- The registers of a memory operand in the order they are read (R133). -/
def Mem.regs : Mem → List Reg
  | .disp a _ => [a]
  | .idx a b _ => [a, b]

/-- The effective address from the values of the operand's registers (R133). -/
def Mem.ea (m : Mem) (vs : List Word) : Word :=
  match m with
  | .disp _ i => vs.getD 0 0 + i.sext
  | .idx _ _ sc => vs.getD 0 0 + vs.getD 1 0 <<< sc.toNat

/-- The values that stand after those of the operand. -/
def Mem.rest (m : Mem) (vs : List Word) : List Word := vs.drop m.regs.length

namespace Machine

/-! ### Place words (R155) -/

/-- The slot of the island that a place word names: a core slot by its quad, core and slot, a quay slot by its number and slot (DESIGN CHOICE log 65). -/
def placeNamed (s : State) (k : Nat) (a : Word) : Option Nat :=
  let o := ownerOf k
  let n := a.toNat
  let j :=
    if a.getLsbD 30 then slotKey o (2 ^ 30 + n / 2 ^ 6 % 2 ^ 8 * 2 ^ 6 + n % 16)
    else slotKey o (n % 2 ^ 22)
  if s.granted j then some j else none

/-- The slot that a place word names, where no closed fence stands before it (R391). -/
def placeSlot (s : State) (k : Nat) (a : Word) : Option Nat := (placeNamed s k a).filter fun j => !s.fencedFrom k j

/-- The place word of a slot with LPKG 0 (R36). -/
def placeOf (k : Nat) : Word := BitVec.ofNat 64 (tidOf k)

/-! ### Rounding and flags of scalar instructions -/

/-- What a rounding of slot `k` depends on (R51 to R55); none where RM is reserved (R33). -/
def captureOf (x : Slot) (k : Nat) (rnd : Rnd) : Option Capture :=
  let m : Option RMode := match rnd with
    | .own m => some m
    | .slot => RMode.ofRm x.rm
  m.map fun mode =>
    { mode, fzi := x.fzi, fzo := x.fzo, seed := x.rseed, slotNo := BitVec.ofNat 4 (slotNo (leadOf x k)), count := x.retired }

/-- The flags of a scalar instruction: FP_EXC where FEN enables one of them (R131), else ORed into FFLAGS. -/
def raiseFlags (s : State) (fl : Flags) : Except Stop State :=
  if fl &&& s.me.fen != 0 then .error (.trap ⟨.fpExc, fl.zeroExtend 64, 0⟩)
  else .ok (s.modMe fun x => { x with fflags := x.fflags ||| fl })

/-! ### The request latches of a core (R276 to R278) -/

/-- The scratch bank of the slot's own quad that a key lies in: an access to it takes the latch of that bank (R278). -/
def latchBank (k key : Nat) : Option Nat :=
  if isScratchKey key && !isQuay k && (key - 2 ^ 56) / 2 ^ 22 == quadOf k then some (bankOf ((key - 2 ^ 56) % 2 ^ 22)) else none

/-- The core's next turn of a bank behind a cycle: bank b is in phase (c + b) mod 8 in cycle c, and phase n serves core n (R276, R277). -/
def nextTurn (core b c : Nat) : Nat := c + 1 + (coreNo core + 8 - (c + 1 + b) % 8) % 8

/-- The reservations of a latch that stand: of slots that have been skipped for it and not issued since, and of the slot whose slab access
waits. -/
def reservations (s : State) (core b : Nat) : List Nat :=
  match (s.core core).latches.find? b with
  | none => []
  | some l => l.waiting.filter fun j =>
      (s.slot j).skip == some b || (s.core core).slabQ.head?.any fun o => o.slot == j && slabMemory o.instr

/-- The slab instruction of a slot whose accesses are being made, by its sequence number; none where a scalar instruction makes them. -/
def slabHead (s : State) (k : Nat) : Option (BitVec 32) :=
  ((s.core (coreOf k)).slabQ.head?.filter fun o => o.slot == k && slabMemory o.instr).map (·.seq)

/-- Whether the latch of a bank takes an access of the slot now: a held one only lanes of the same instruction in the run that its turn
serves, for one turn moves no other, and an empty one the oldest reservation (R277, R278). -/
def latchOpen (s : State) (k b run : Nat) : Bool :=
  match (s.core (coreOf k)).latches.find? b with
  | none => true
  | some l =>
    if s.cycle < l.until_ then l.slot == k && l.op == slabHead s k && l.run == run else (reservations s (coreOf k) b).head?.all (· == k)

/-- The access of a slot fills the latch of a bank until the core's next turn; one in the run that the latch holds goes with it. -/
def fillLatch (s : State) (k b run : Nat) : State :=
  if (s.core (coreOf k)).latches.find? b |>.any fun l => s.cycle < l.until_ then s
  else
  let now := domainCycle s (domainOf s k)
  let l : Latch :=
    { slot := k, op := slabHead s k, run, until_ := s.cycle + (nextTurn (coreOf k) b now - now), waiting := (reservations s (coreOf k) b).filter (· != k) }
  s.modCore (coreOf k) fun c => { c with latches := c.latches.put b l }

/-- Whether a slot waits at the bank for the word or line of a key: it holds no latch there any more (R143, R145). -/
def waitsAt (s : State) (k key : Nat) : Bool :=
  (s.slot k).blk.any fun b => match b.wait with
    | .fe _ x => x == key / 8
    | .addr _ x => x == key
    | _ => false

/-- An access of a slot to a scratch bank of its quad takes the latch, or is skipped for it (R278). -/
def takeLatch (s : State) (k key : Nat) : Except Stop State :=
  match latchBank k key with
  | none => .ok s
  | some b => if waitsAt s k key then .ok s else if latchOpen s k b (key / 256) then .ok (fillLatch s k b (key / 256)) else .error (.skip b)

/-! ### The accesses of a thread -/

/-- Whether a copy that the core or the cache ways of its quad hold serves a load: it does not reach the home (R263, R332). -/
def ownCopy (s : State) (k key : Nat) : Bool :=
  let c := s.core (coreOf k)
  let held (t : Tab LineCopy) : Bool := (t.find? (lineOf key)).any fun cp => cp.usable (s.slot k).tt c.age (ownerOf k)
  inDevBias s key && (held c.copies || (!isScratchKey key && !isQuay k && held (s.quad (quadOf k)).ways))

/-- Whether a write waits for the host's protocol to grant a line in host bias: when it does is a free value (R270, DESIGN CHOICE log 1). -/
def ownershipHeld (s : State) (key : Nat) : Bool := !inDevBias s key && !Config.freeKeep s.fresh

/-- The bytes of a load by the current slot after its checks: from a copy of the core or its quad at once, else held while the page's path
is busy; POISON where a byte is poisoned (R136, R332, R337, R341). -/
def loadRun (s : State) (ea : Word) (n : Nat) : Except Stop (List Byte × State) := do
  let key ← check s s.cur ea n rR
  if pathBusy s key && !ownCopy s s.cur key then .error (.path ea rR)
  let s1 ← takeLatch s s.cur key
  let (bs, ps, s2) := loadBytes (plbFill s1 s.myCore key s.owner ((window s s.cur ea).getD .global) ea) s.cur key n
  if ps.any id then .error (.fault ⟨.poison, ea, rR⟩ s2)
  .ok (bs, s2)

/-- A load of a value (R136, R137). -/
def loadAt (s : State) (ea : Word) (n : Nat) : Except Stop (Word × State) := do
  let (bs, t) ← loadRun s ea n
  .ok (BitVec.ofNat 64 (leWord bs), t)

/-- A store by the current slot after its checks (R135, R261). -/
def storeAt (s : State) (ea : Word) (n : Nat) (v : Word) : Except Stop State := do
  let key ← check s s.cur ea n rW
  if pathBusy s key || ownershipHeld s key then .error (.path ea rW)
  let s1 ← takeLatch s s.cur key
  let s2 := plbFill s1 s.myCore key s.owner ((window s s.cur ea).getD .global) ea
  .ok (storeBytes s2 s.cur key (leBytes n v.toNat))

/-- An indivisible read-modify-write at the home (R139, R140, R261): `f` gives the value to write, if any, from the old one (DEDUCED log 60). -/
def updateAt (s : State) (ea : Word) (n : Nat) (f : Word → State → Except Stop (Option Word × State)) :
    Except Stop (Word × State) := do
  let key ← check s s.cur ea n (rR ||| rW)
  if pathBusy s key || ownershipHeld s key then .error (.path ea (rR ||| rW))
  let s1 ← takeLatch s s.cur key
  let (bs, ps, s2) := homeBytes (plbFill s1 s.myCore key s.owner ((window s s.cur ea).getD .global) ea) s.cur key n
  if ps.any id then .error (.fault ⟨.poison, ea, rR ||| rW⟩ s2)
  let old : Word := BitVec.ofNat 64 (leWord bs)
  let (new, s3) ← (f old s2).mapError (Stop.behind s2)
  match new with
  | none => .ok (old, storeTime s3 s.cur key)
  | some v => .ok (old, writeBytes (storeTime (beforeWrite s3 (some s.cur) key n) s.cur key) key (leBytes n v.toNat))

/-- The key of an access of the full/empty instructions: scratch windows only (R141). -/
def feKey (s : State) (k : Nat) (ea : Word) (n : Nat) : Except Stop Nat :=
  match window s k ea with
  | some (.scratch _ _) => check s k ea n rR
  | _ => .error (prot ea)

end Machine
end Sys2Proof
end

