-- ==== Sys2Proof/Machine/FloatScalar.lean ====
section
/-! DEFINITION. The meanings of the scalar floating-point instructions (R127 to R131). -/

namespace Sys2Proof.Machine

/-- The low bits of a register as a float operand (R127). -/
def lowBits (f : FF) (x : Word) : Nat := x.toNat % 2 ^ f.width

/-- Raise the flags of a result, then write it (R127, R131). -/
def giveF (s : State) (d : Reg) (r : Nat × Flags) : Res := do
  let t ← raiseFlags s r.2
  give t d (BitVec.ofNat 64 r.1)

/-- The capture of the current slot; an instruction that rounds under the reserved mode traps ILLEGAL (R33). -/
def needCapture (s : State) (rnd : Rnd) : Except Stop Capture :=
  match captureOf s.me s.cur rnd with
  | some c => .ok c
  | none => .error ill

/-- The floating format of a code. -/
def needFF (f : Fmt) : Except Stop FF :=
  match FF.ofFmt f with
  | some x => .ok x
  | none => .error ill

/-- An instruction that rounds once; a scalar rounding uses L = 0 and G = 0 (R55, R127). -/
def rounding (i : Instr) (h : Hdr) (f : Fmt) (rnd : Rnd) (d : Reg) (srcs : List Reg) (lat : Nat)
    (op : FF → Capture → Nat → Nat → Nat → Nat × Flags) (s : State) : Host.Outcome State Fault Refusal :=
  issue { i, h, srcs, dst := some d, lat } (fun v s => do
    let ff ← needFF f
    let c ← needCapture s rnd
    giveF s d (op ff c (lowBits ff (arg v 0)) (lowBits ff (arg v 1)) (lowBits ff (arg v 2)))) s

/-- The latency of the divider and of the square root unit (R111). -/
def longLat (f : Fmt) (half full : Nat) : Nat := if f = .f32 then full else half

/-- `fadd`: A + B rounded once (R128). -/
def execFadd (h : Hdr) (f : Fmt) (rnd : Rnd) (d a b : Reg) (s : State) : Host.Outcome State Fault Refusal :=
  rounding (.fadd h f rnd d a b) h f rnd d [a, b] 4 (fun ff c x y _ => ff.add c 0 0 x y) s

/-- `fsub`: A - B rounded once (R128). -/
def execFsub (h : Hdr) (f : Fmt) (rnd : Rnd) (d a b : Reg) (s : State) : Host.Outcome State Fault Refusal :=
  rounding (.fsub h f rnd d a b) h f rnd d [a, b] 4 (fun ff c x y _ => ff.sub c 0 0 x y) s

/-- `fmul`: A B rounded once (R128). -/
def execFmul (h : Hdr) (f : Fmt) (rnd : Rnd) (d a b : Reg) (s : State) : Host.Outcome State Fault Refusal :=
  rounding (.fmul h f rnd d a b) h f rnd d [a, b] 4 (fun ff c x y _ => ff.mul c 0 0 x y) s

/-- `ffma`: A B + C rounded once (R128). -/
def execFfma (h : Hdr) (f : Fmt) (rnd : Rnd) (d a b c : Reg) (s : State) : Host.Outcome State Fault Refusal :=
  rounding (.ffma h f rnd d a b c) h f rnd d [a, b, c] 4 (fun ff k x y z => ff.fma k 0 0 false x y z) s

/-- `fdiv`: A / B rounded once (R128). -/
def execFdiv (h : Hdr) (f : Fmt) (rnd : Rnd) (d a b : Reg) (s : State) : Host.Outcome State Fault Refusal :=
  rounding (.fdiv h f rnd d a b) h f rnd d [a, b] (longLat f 9 14) (fun ff c x y _ => ff.div c 0 0 x y) s

/-- `fsqrt`: the square root rounded once (R128). -/
def execFsqrt (h : Hdr) (f : Fmt) (rnd : Rnd) (d a : Reg) (s : State) : Host.Outcome State Fault Refusal :=
  rounding (.fsqrt h f rnd d a) h f rnd d [a] (longLat f 10 16) (fun ff c x _ _ => ff.sqrt c 0 0 x) s

/-- `fround`: A rounded to an integral value of its format (R128). -/
def execFround (h : Hdr) (f : Fmt) (rnd : Rnd) (d a : Reg) (s : State) : Host.Outcome State Fault Refusal :=
  rounding (.fround h f rnd d a) h f rnd d [a] 4 (fun ff c x _ _ => ff.integral c 0 0 x) s

/-- `fmin`: the lesser of A and B (R129). -/
def execFmin (h : Hdr) (f : Fmt) (d a b : Reg) (s : State) : Host.Outcome State Fault Refusal :=
  issue { i := .fmin h f d a b, h, srcs := [a, b], dst := some d, lat := 2 } (fun v s => do
    let ff ← needFF f
    giveF s d (ff.minmax s.me.fzi false (lowBits ff (arg v 0)) (lowBits ff (arg v 1)))) s

/-- `fmax`: the greater of A and B (R129). -/
def execFmax (h : Hdr) (f : Fmt) (d a b : Reg) (s : State) : Host.Outcome State Fault Refusal :=
  issue { i := .fmax h f d a b, h, srcs := [a, b], dst := some d, lat := 2 } (fun v s => do
    let ff ← needFF f
    giveF s d (ff.minmax s.me.fzi true (lowBits ff (arg v 0)) (lowBits ff (arg v 1)))) s

/-- `fcmp`: the predicate says whether the comparison holds (R129). -/
def execFcmp (h : Hdr) (cond : FCond) (f : Fmt) (d : PReg) (a b : Reg) (s : State) : Host.Outcome State Fault Refusal :=
  issue { i := .fcmp h cond f d a b, h, srcs := [a, b], lat := 2 } (fun v s => do
    let ff ← needFF f
    let r := ff.compare s.me.fzi cond (lowBits ff (arg v 0)) (lowBits ff (arg v 1))
    let t ← raiseFlags s r.2
    giveP t d r.1) s

/-- Whether an operation on the sign reads B: `.abs` and `.neg` do not, and leave a queue register there alone (R97, R129). -/
def sgnReadsB : SgnOp → Bool
  | .abs | .neg => false
  | _ => true

/-- `fsgn`: the magnitude of A with a new sign; no flag (R129). -/
def execFsgn (h : Hdr) (op : SgnOp) (f : Fmt) (d a b : Reg) (s : State) : Host.Outcome State Fault Refusal :=
  issue { i := .fsgn h op f d a b, h, srcs := if sgnReadsB op then [a, b] else [a], dst := some d, lat := 2 } (fun v s => do
    let ff ← needFF f
    give s d (BitVec.ofNat 64 (ff.sgn op (lowBits ff (arg v 0)) (lowBits ff (arg v 1))))) s

/-- `fclass`: the class of A's bits as a one-hot mask (R129). -/
def execFclass (h : Hdr) (f : Fmt) (d a : Reg) (s : State) : Host.Outcome State Fault Refusal :=
  issue { i := .fclass h f d a, h, srcs := [a], dst := some d, lat := 2 } (fun v s => do
    let ff ← needFF f
    give s d (BitVec.ofNat 64 (ff.cls (lowBits ff (arg v 0))))) s

/-- `fcvt`: float to float, float to integer or integer to float (R50, R130). -/
def execFcvt (h : Hdr) (k : Cvt) (rnd : Rnd) (d a : Reg) (s : State) : Host.Outcome State Fault Refusal :=
  issue { i := .fcvt h k rnd d a, h, srcs := [a], dst := some d, lat := 4 } (fun v s => do
    let c ← needCapture s rnd
    match k with
    | .ff dst src =>
      let df ← needFF dst
      let sf ← needFF src
      giveF s d (df.convert sf c 0 0 (lowBits sf (arg v 0)))
    | .fi ty src =>
      let sf ← needFF src
      let (r, fl) := sf.toInt c 0 0 ty.bits ty.signed (lowBits sf (arg v 0))
      let t ← raiseFlags s fl
      give t d (ty.put r)
    | .if_ dst ty =>
      let df ← needFF dst
      giveF s d (df.ofInt c 0 0 (ty.int (arg v 0)))) s

end Sys2Proof.Machine
end

