-- ==== Sys2Proof/Machine/Access.lean ====
section
/-! DEFINITION. The meanings of loads, stores, atomics, full/empty words, waits, messages, fences, leases, bank modes and scratch by
place (R132 to R156). -/

namespace Sys2Proof.Machine

/-! ### Loads and stores (R137, R138) -/

/-- Load from an effective address into a register. -/
def loadTo (s : State) (ty : IntTy) (d : Reg) (ea : Word) : Res := do
  let (v, t) ← loadAt s ea ty.bytes
  give t d (ty.val v)

/-- `ld`: D := val of the bytes at ea (R137). -/
def execLd (h : Hdr) (ty : IntTy) (d : Reg) (m : Mem) (s : State) : Host.Outcome State Fault Refusal :=
  issue { i := .ld h ty d m, h, srcs := m.regs, dst := some d, pair := .load } (fun v s => loadTo s ty d (m.ea v)) s

/-- `st`: the bytes at ea := the low bytes of C (R137). -/
def execSt (h : Hdr) (ty : IntTy) (m : Mem) (c : Reg) (s : State) : Host.Outcome State Fault Refusal :=
  issue { i := .st h ty m c, h, srcs := m.regs ++ [c], pair := .joint } (fun v s => do
    let t ← storeAt s (m.ea v) ty.bytes (arg (m.rest v) 0)
    done t) s

/-- A load on the constant path: scratch is read as by `ld` (R138). -/
def loadConst (s : State) (ty : IntTy) (d : Reg) (ea : Word) : Res := do
  let key ← check s s.cur ea ty.bytes rR
  if isScratchKey key then loadTo s ty d ea
  else if pathBusy s key then .error (.path ea rR)
  else
    let (bs, ps, t) := constBytes (plbFill s s.myCore key s.owner ((window s s.cur ea).getD .global) ea) s.cur key ty.bytes
    if ps.any id then .error (.fault ⟨.poison, ea, rR⟩ t)
    else give t d (ty.val (BitVec.ofNat 64 (leWord bs)))

/-- `ldc`: as `ld`, on the constant path (R137, R138). -/
def execLdc (h : Hdr) (ty : IntTy) (d : Reg) (m : Mem) (s : State) : Host.Outcome State Fault Refusal :=
  issue { i := .ldc h ty d m, h, srcs := m.regs, dst := some d, pair := .load } (fun v s => loadConst s ty d (m.ea v)) s

/-! ### Atomics (R139, R140) -/

/-- The new value of an integer read-modify-write (R139). -/
def amoInt (op : AmoOp) (ty : IntTy) (old c : Word) : Word :=
  match op with
  | .swap | .fadd => c
  | .add => old + c
  | .and => old &&& c
  | .or => old ||| c
  | .xor => old ^^^ c
  | .min => if ty.int c < ty.int old then c else old
  | .max => if ty.int old < ty.int c then c else old

/-- The new value of any operation; `.fadd` rounds as a scalar instruction and raises its flags, in both slots of a pair (R139, R394). -/
def amoNew (op : AmoOp) (ty : IntTy) (c : Word) (old : Word) (s : State) : Except Stop (Option Word × State) :=
  match op with
  | .fadd => do
    let k ← needCapture s .slot
    let (r, fl) := f32.add k 0 0 (lowBits f32 old) (lowBits f32 c)
    let t ← raiseFlags s fl
    .ok (some (BitVec.ofNat 64 r), if s.me.chk = 1 then t.modSlot (trailOf s.cur) fun x => { x with fflags := x.fflags ||| fl } else t)
  | _ => .ok (some (amoInt op ty old c), s)

/-- An indivisible read-modify-write at an effective address; D := val(old). -/
def amoTo (s : State) (op : AmoOp) (ty : IntTy) (d : Reg) (ea c : Word) : Res := do
  let (old, t) ← updateAt s ea ty.bytes (amoNew op ty c)
  give t d (ty.val old)

/-- `amo`: combine the value at ea with C in one step (R139). -/
def execAmo (h : Hdr) (op : AmoOp) (ty : IntTy) (d : Reg) (m : Mem) (c : Reg) (s : State) :
    Host.Outcome State Fault Refusal :=
  issue { i := .amo h op ty d m c, h, srcs := m.regs ++ [c], dst := some d, pair := .joint }
    (fun v s => amoTo s op ty d (m.ea v) (arg (m.rest v) 0)) s

/-- `cas`: write C where the value at ea has the bits of B, in one step (R140). -/
def execCas (h : Hdr) (ty : IntTy) (d a : Reg) (i : Imm) (b c : Reg) (s : State) : Host.Outcome State Fault Refusal :=
  issue { i := .cas h ty d a i b c, h, srcs := [a, b, c], dst := some d, pair := .joint } (fun v s => do
    let (old, t) ← updateAt s (arg v 0 + i.sext) ty.bytes (fun old s =>
      .ok (if old.setWidth ty.bits = (arg v 1).setWidth ty.bits then some (arg v 2) else none, s))
    give t d (ty.val old)) s

/-! ### Full/empty words (R141 to R143) -/

/-- `ldfe` at an address: wait until FULL, take the value, and set EMPTY unless `keep`. -/
def takeFull (s : State) (ty : IntTy) (keep : Bool) (d : Reg) (ea : Word) : Res := do
  let key ← feKey s s.cur ea ty.bytes
  let s ← takeLatch s s.cur key
  if !isFull s key then .error (.poll (.fe ea (wordKey key)) s)
  else if anyPoison s key ty.bytes then .error (.trap ⟨.poison, ea, rR⟩)
  else
    let v : Word := BitVec.ofNat 64 (leWord (readBytes s key ty.bytes))
    let t := storeTime s s.cur key
    give (if keep then t else setFull t key false) d (ty.val v)

/-- `stfe` at an address: wait until EMPTY unless `ovr`, write and set FULL. -/
def putFull (s : State) (ty : IntTy) (ovr : Bool) (ea v : Word) : Res := do
  let key ← feKey s s.cur ea ty.bytes
  let s ← takeLatch s s.cur key
  if isFull s key && !ovr then .error (.poll (.fe ea (wordKey key)) s)
  else done (setFull (storeBytes s s.cur key (leBytes ty.bytes v.toNat)) key true)

/-- `ldfe`: wait for a FULL word and read it (R142). -/
def execLdfe (h : Hdr) (ty : IntTy) (keep : Bool) (d : Reg) (m : Mem) (s : State) : Host.Outcome State Fault Refusal :=
  issue { i := .ldfe h ty keep d m, h, srcs := m.regs, dst := some d, pair := .load }
    (fun v s => takeFull s ty keep d (m.ea v)) s

/-- `stfe`: wait for an EMPTY word and write it (R142). -/
def execStfe (h : Hdr) (ty : IntTy) (ovr : Bool) (m : Mem) (c : Reg) (s : State) : Host.Outcome State Fault Refusal :=
  issue { i := .stfe h ty ovr m c, h, srcs := m.regs ++ [c], pair := .joint }
    (fun v s => putFull s ty ovr (m.ea v) (arg (m.rest v) 0)) s

/-- `feset`: set the tag, never waiting (R142). -/
def execFeset (h : Hdr) (full : Bool) (m : Mem) (s : State) : Host.Outcome State Fault Refusal :=
  issue { i := .feset h full m, h, srcs := m.regs, pair := .joint } (fun v s => do
    let key ← feKey s s.cur (m.ea v) 8
    let s ← takeLatch s s.cur key
    done (setFull (storeTime s s.cur key) key full)) s

/-- `feqry`: the predicate says whether the word is FULL (R142). -/
def execFeqry (h : Hdr) (d : PReg) (m : Mem) (s : State) : Host.Outcome State Fault Refusal :=
  issue { i := .feqry h d m, h, srcs := m.regs, pair := .joint } (fun v s => do
    let key ← feKey s s.cur (m.ea v) 8
    let s ← takeLatch s s.cur key
    giveP (storeTime s s.cur key) d (isFull s key)) s

/-! ### Waiting on a value, messages and wakes (R144 to R148) -/

/-- `waita`: wait until the comparison of the value at ea with C holds; D := the value (R145).  A load that finds no value yet takes no
place in the order (R258); what it has read corrected counts (R396), and its access holds the latch till its turn (R278). -/
def execWaita (h : Hdr) (cond : Cond) (ty : IntTy) (d : Reg) (m : Mem) (c : Reg) (s : State) :
    Host.Outcome State Fault Refusal :=
  issue { i := .waita h cond ty d m c, h, srcs := m.regs ++ [c], dst := some d, pair := .load } (fun v s => do
    let ea := m.ea v
    let (x, t) ← loadAt s ea ty.bytes
    if cond.holds (ty.int x) (ty.int (arg (m.rest v) 0)) then give t d (ty.val x)
    else .error (.poll (.addr ea (((window s s.cur ea).getD .global).key ea))
      { t with slots := s.slots, lines := s.lines, quads := s.quads,
               cores := (s.modCore s.myCore fun c => { c with latches := (t.core s.myCore).latches }).cores })) s

/-- Put an entry into the message area of the berth of a swapped-out slot: it holds 1,024 entries, and each wake takes one, also behind an
earlier one (R148) (DEDUCED log 96). -/
def areaPut (s : State) (j : Nat) (e : Option Word) : Option State :=
  let c := s.ctx (ownerOf j)
  let core := coreOf j
  let area := c.messages.get [] core
  if area.length ≥ 1024 then none
  else some (s.modCtx (ownerOf j) fun c =>
    { c with messages := c.messages.put core (area ++ [e]),
             messageTo := c.messageTo.put core (c.messageTo.get [] core ++ [j]) })

/-- The time a store takes at an inbox or latch line, and the line after it (R258, R261). -/
def storeLine (tt : Time) (l : Line) : Time × Line := (Time.later tt l.rts, { wts := Time.later tt l.rts, rts := Time.later tt l.rts + 1 })

/-- The time a load takes at an inbox or latch line, and the line after it (R258, R261). -/
def loadLine (tt : Time) (l : Line) : Time × Line :=
  (Time.later tt (l.wts + 1), { l with rts := Time.later l.rts (Time.later tt (l.wts + 1) + 16) })

/-- Deliver a message of the current slot to a slot: to its inbox of 4, behind what its message area still holds, or to the area while
the context is swapped out (R146, R148, R366); it is a store to the inbox either way (R258). -/
def deliverMsg (s : State) (j : Nat) (v : Word) : Option State :=
  let (ts, l) := storeLine s.me.tt (s.slot j).inboxLine
  (if (s.ctx (ownerOf j)).phase = .swapped then areaPut s j (some v)
   else if (s.slot j).inbox.length ≥ 4 || ((s.ctx (ownerOf j)).messageTo.get [] (coreOf j)).contains j then none
   else some (s.modSlot j fun x => { x with inbox := x.inbox ++ [v] })).map fun t =>
    (t.modSlot j fun x => { x with inboxLine := l }).modMe fun x => { x with tt := ts }

/-- Set the wake latch of a slot for the current one (R146, R148); it is a store to the latch (R258). -/
def deliverWake (s : State) (j : Nat) : Option State :=
  let (ts, l) := storeLine s.me.tt (s.slot j).latchLine
  (if (s.ctx (ownerOf j)).phase = .swapped then areaPut s j none else some (s.modSlot j fun x => { x with wake := true })).map fun t =>
    (t.modSlot j fun x => { x with latchLine := l }).modMe fun x => { x with tt := ts }

/-- `msg`: send C + sext(IMM) to the inbox of the slot that A names; wait while it is full (R146). -/
def execMsg (h : Hdr) (a c : Reg) (i : Imm) (s : State) : Host.Outcome State Fault Refusal :=
  issue { i := .msg h a c i, h, srcs := [a, c], pair := .joint } (fun v s =>
    match placeSlot s s.cur (arg v 0) with
    | none => .error (prot (arg v 0))
    | some j =>
      match deliverMsg s j (arg v 1 + i.sext) with
      | none => .error (wait (.msg (arg v 0) j))
      | some t => done t) s

/-- `wait`: pop the oldest message of the inbox (R146); one whose packet came poisoned is consumed (R136, R389). -/
def execWait (h : Hdr) (d : Reg) (i : Imm) (s : State) : Host.Outcome State Fault Refusal :=
  issue { i := .wait h d i, h, dst := some d, pair := .joint } (fun _ s =>
    match s.me.inbox with
    | [] => .error (wait .inbox)
    | x :: t =>
      if s.me.inboxBad.headD false then .error (.fault ⟨.poison, Config.freeWord s.fresh, 0⟩ s.tick.2)
      else
        let (ts, l) := loadLine s.me.tt s.me.inboxLine
        give (s.modMe fun y => { y with inbox := t, inboxBad := y.inboxBad.tail, tt := ts, inboxLine := l }) d x) s

/-- `wait.wk`: take the wake latch; D := 1 (R146). -/
def execWaitWk (h : Hdr) (d : Reg) (i : Imm) (s : State) : Host.Outcome State Fault Refusal :=
  issue { i := .waitWk h d i, h, dst := some d, pair := .joint } (fun _ s =>
    if s.me.wake then
      let (ts, l) := loadLine s.me.tt s.me.latchLine
      give (s.modMe fun y => { y with wake := false, tt := ts, latchLine := l }) d 1
    else .error (wait .latch)) s

/-- `wake`: set the wake latch of the slot that A names (R146). -/
def execWake (h : Hdr) (a : Reg) (s : State) : Host.Outcome State Fault Refusal :=
  issue { i := .wake h a, h, srcs := [a], pair := .joint } (fun v s =>
    match placeSlot s s.cur (arg v 0) with
    | none => .error (prot (arg v 0))
    | some j =>
      match deliverWake s j with
      | none => .error (wait (.msg (arg v 0) j))
      | some t => done t) s

/-! ### Fence, touch, lease and prefetch (R149 to R152) -/

/-- `fence`: drop the copies of the constant path that its scope names; later reads of the path by the slot see the stores before it
(R149, R268). -/
def execFence (h : Hdr) (sc : Scope) (s : State) : Host.Outcome State Fault Refusal :=
  issue { i := .fence h sc, h } (fun _ s => done (fenceConst s s.cur sc)) s

/-- Whether the slot of an arena pointer is held, or was last held, by another domain (R134). -/
def Arena.foreign (a : Arena) (o : Nat) : Bool := (a.holder != 0 && a.holder != o) || (a.holder = 0 && a.last != 0 && a.last != o)

/-- What `touch` reports of an address; of a stale pointer to a slot with a later life of the domain, what that life has (R151) (DEDUCED log 41). -/
def touchWord (s : State) (k : Nat) (ea : Word) : Word :=
  let o := ownerOf k
  let lsd := (s.ctx o).leases.any fun l => l.base ≤ offsetOf ea && offsetOf ea < l.base + l.len
  let build (res : Bool) (rights : BitVec 4) (tier : Nat) (stale : Bool) : Word :=
    BitVec.ofNat 64 (lsd.toNat + res.toNat * 2 + rights.toNat * 4 + tier * 2 ^ 6 + stale.toNat * 2 ^ 8)
  match window s k ea with
  | some .global =>
    let p := s.page (offsetOf ea / 2 ^ 15)
    if p.holder != o || o = 0 then build false 0 3 false
    else build (resident s (offsetOf ea / 2 ^ 15)) p.rights (if p.tier = .cxl then 1 else if p.pkg = lpkgOf k then 0 else 2) false
  | some .arena =>
    let a := s.arena (arenaSlot ea)
    let stale := !a.foreign o && tagOf ea != a.gen
    if a.holder != o || o = 0 || a.pages * 2 ^ 15 ≤ arenaOffset ea then build false 0 3 stale
    else build (resident s (offsetOf ea / 2 ^ 15)) (rightsAt s o .arena ea) (if a.place = .cxl then 1 else if a.pkg = lpkgOf k then 0 else 2) stale
  | _ => 0

/-- `touch`: the lease, residency, rights, tier and age of an address (R151). -/
def execTouch (h : Hdr) (d : Reg) (m : Mem) (s : State) : Host.Outcome State Fault Refusal :=
  issue { i := .touch h d m, h, srcs := m.regs, dst := some d, pair := .load }
    (fun v s => give s d (touchWord s s.cur (m.ea v))) s

/-- Bytes of bonded DRAM and of CXL memory that the handles of a context grant (R300, R325). -/
def grants (c : Ctx) : Nat × Nat :=
  (c.handles.filter fun e => e.1 = 0 || e.2.added).foldl (fun g e => (g.1 + e.2.w.dramb, g.2 + e.2.w.cxlb)) (0, 0)

/-- Pages that still fit each tier: bonded DRAM and CXL memory (R334). -/
def roomPages (c : Ctx) : Nat × Nat :=
  (((grants c).1 - c.used.1) / 2 ^ 15, ((grants c).2 - c.used.2) / 2 ^ 15)

/-- Map one page that no domain holds into a tier, against the grant of that tier (R334). -/
def mapInto (s : State) (o seg : Nat) (rights : BitVec 4) (cxl : Bool) (n : Nat) : State :=
  let s1 := s.modPage n fun _ => { holder := o, seg, rights, tier := if cxl then .cxl else .dram }
  s1.modCtx o fun c =>
    { c with used := if cxl then (c.used.1, c.used.2 + 2 ^ 15) else (c.used.1 + 2 ^ 15, c.used.2) }

/-- Map one page that no domain holds: CXL memory while the grant lasts, then bonded DRAM (R334). -/
def mapPage (s : State) (o seg : Nat) (rights : BitVec 4) (n : Nat) : State :=
  mapInto s o seg rights ((roomPages (s.ctx o)).2 != 0) n

/-! ### Pages held for open claims (R224, R309, R317) -/

def Presentation.add (p : Presentation) : Bool := p.from_.any fun f => f.2.1
/-- The context that presents. -/
def Presentation.parent (p : Presentation) : Option Nat := p.from_.map fun f => ownerOf f.1

def pageUp (a : Nat) : Nat := (a + 2 ^ 15 - 1) / 2 ^ 15 * 2 ^ 15

/-- The low end of the hand-back region of some FIFOs under a fault ring; none where it would lie below address 0 (R224). -/
def regionLow (ring fifos : Nat) : Option Nat :=
  if ring < pageUp (1024 * fifos) then none else some (ring - pageUp (1024 * fifos))

/-- FIFOs of the additions to a context whose claims are open. -/
def openFifos (s : State) (o : Nat) : Nat :=
  ((s.pkg.claims.filter fun c => c.p.add && c.p.parent == some o).map fun c => c.hold.fifos).sum

/-- The pages held for an open claim: for an addition, those by which all open additions to the context may grow its hand-back region. -/
def OpenClaim.pages (s : State) (c : OpenClaim) : List (Nat × Nat) :=
  match c.p.parent, c.p.add with
  | some o, true =>
    let x := s.ctx o
    [((regionLow x.ringBase (x.nextFifo + openFifos s o)).getD 0, (regionLow x.ringBase x.nextFifo).getD 0)]
  | _, _ => c.hold.ranges

/-- Whether a range holds a page that an open claim holds, other than an addition to context `mine`. -/
def rangeReserved (s : State) (mine : Option Nat) (lo hi : Nat) : Bool :=
  s.pkg.claims.any fun c => !(c.p.add && c.p.parent == mine) && (c.pages s).any fun r => r.1 < r.2 && r.1 < hi && lo < r.2

/-- The pages of a range that some domain holds. -/
def heldIn (s : State) (lo hi : Nat) : List (Nat × Page) :=
  s.pages.filter fun e => lo ≤ e.1 * 2 ^ 15 && e.1 * 2 ^ 15 < hi && e.2.holder != 0

/-- Whether a lease may give rights over a held page: never W to `.text` or `.rodata`, never X outside `.text` (R328). -/
def leaseRightsOk (p : Page) (o : Nat) (rights : BitVec 4) : Bool :=
  p.holder = o && !(rights &&& rW != 0 && (p.seg = 1 || p.seg = 2)) && !(rights &&& rX != 0 && p.seg != 1)

/-- The ranges of node 0 that a range overlaps. -/
def overlapped (c : Ctx) (lo hi : Nat) : List Lease := c.leases.filter fun l => l.node = 0 && l.base < hi && lo < l.base + l.len

/-- The code of a `lease` over a widened range, 0 where it may be made (R150, R328, R336). -/
def leaseCode (s : State) (o : Nat) (ea : Word) (lo hi : Nat) (rights : BitVec 4) : Nat :=
  let c := s.ctx o
  let glob := lo < 2 ^ 55
  let held := heldIn s lo hi
  let fresh := (hi - lo) / 2 ^ 15 - held.length
  let a := s.arena (arenaSlot ea)
  if glob && (roomPages c).1 + (roomPages c).2 < fresh then 1
  else if glob && (held.any (fun e => !leaseRightsOk e.2 o rights) || (fresh != 0 && rights &&& rX != 0) || rangeReserved s none lo hi) then 2
  else if !glob && (a.holder != o || arenaBase (arenaSlot ea) + a.pages * 2 ^ 15 < hi || rights &&& rX != 0) then 2
  else if c.leases.length ≥ 64 then 3
  else 0

/-- The range of node 0 that a lease makes with those it overlaps, under the union of their rights (R336) (DEDUCED log 12). -/
def mergedLease (c : Ctx) (lo hi : Nat) (rights : BitVec 4) : Lease :=
  let base := (overlapped c lo hi).foldl (fun b l => Nat.min b l.base) lo
  let stop := (overlapped c lo hi).foldl (fun b l => Nat.max b (l.base + l.len)) hi
  { base, len := stop - base, rights := (overlapped c lo hi).foldl (fun r l => r ||| l.rights) rights, node := 0 }

/-- Add a range of node 0 to the lease table, merged with those it overlaps (R336). -/
def addLease (c : Ctx) (lo hi : Nat) (rights : BitVec 4) : Ctx :=
  { c with leases := (c.leases.filter fun l => !(overlapped c lo hi).contains l) ++ [mergedLease c lo hi rights] }

/-- The rights of a range that a page takes: never W on `.text` or `.rodata`, X only on `.text` (R328). -/
def leaseShare (seg : Nat) (rights : BitVec 4) : BitVec 4 :=
  rights &&& ~~~ ((if seg = 1 || seg = 2 then rW else 0) ||| if seg = 1 then 0 else rX)

/-- Every page that a domain holds in a range of its lease table has the rights of the range (R328). -/
def spreadLease (s : State) (o : Nat) (l : Lease) : State :=
  { s with pages := s.pages.map fun e =>
      if e.2.holder = o && l.base ≤ e.1 * 2 ^ 15 && e.1 * 2 ^ 15 < l.base + l.len then
        (e.1, { e.2 with rights := e.2.rights ||| leaseShare e.2.seg l.rights })
      else e }

/-- Map the pages of a range that no domain holds (R327). -/
def leasePages (s : State) (o lo hi : Nat) : State :=
  (List.range ((hi - lo) / 2 ^ 15)).foldl (fun s i =>
    if (s.page (lo / 2 ^ 15 + i)).holder = 0 then mapPage s o 0 0 (lo / 2 ^ 15 + i) else s) s

/-- Whether no page of a range of a domain waits for a post-copy pull (R337). -/
def rangeResident (s : State) (o lo hi : Nat) : Bool :=
  !((s.ctx o).move.any fun m => m.role && !m.stopped && m.pulls.any fun n => lo ≤ n * 2 ^ 15 && n * 2 ^ 15 < hi)

/-- `lease`: wait until the pages of a range are resident, then the range stands in the lease table (R144, R150) (DEDUCED log 94); one that
crosses from the global into the arena window traps PROT (DEDUCED log 95). -/
def execLease (h : Hdr) (rights : BitVec 4) (d a : Reg) (i : Imm) (b : Reg) (s : State) : Host.Outcome State Fault Refusal :=
  issue { i := .lease h rights d a i b, h, srcs := [a, b], dst := some d, pair := .joint } (fun v s =>
    let ea := arg v 0 + i.sext
    let n := (arg v 1).toNat
    let lo := offsetOf ea / 2 ^ 15 * 2 ^ 15
    let hi := (offsetOf ea + n - 1) / 2 ^ 15 * 2 ^ 15 + 2 ^ 15
    let glob := tagOf ea == 0 && offsetOf ea + n ≤ 2 ^ 55
    let arena := 2 ^ 55 ≤ offsetOf ea && offsetOf ea + n ≤ 3 * 2 ^ 54
    let x := s.arena (arenaSlot ea)
    if n = 0 || !(glob || arena) then .error (prot ea)
    else if arena && x.foreign s.owner then .error (prot ea)
    else if arena && tagOf ea != x.gen then .error (.trap ⟨.arenaStale, ea, 0⟩)
    else
      let code := leaseCode s s.owner ea lo hi rights
      if code != 0 then give s d (BitVec.ofNat 64 code)
      else
        let t := if glob then leasePages s s.owner lo hi else s
        if !rangeResident t s.owner lo hi then .error (wait (.lease ea))
        else
          let t1 := spreadLease t s.owner (mergedLease (t.ctx s.owner) lo hi rights)
          give (t1.modCtx s.owner fun c => addLease c lo hi rights) d 0) s

/-- `pref`: a hint that changes no visible state and never traps (R152). -/
def execPref (h : Hdr) (llc : Bool) (m : Mem) (s : State) : Host.Outcome State Fault Refusal :=
  issue { i := .pref h llc m, h, srcs := m.regs } (fun _ s => done s) s

/-! ### Scratch by place (R155, R156) -/

/-- The address of a word by place word, offset and displacement (R156). -/
def placeEa (a b : Word) (i : Imm) : Except Stop Word :=
  let o := b + i.zext
  if a.getLsbD 30 then .error (prot a)
  else if 2 ^ 22 ≤ o.toNat then .error (prot o)
  else .ok (remoteEa (a.extractLsb' 6 8).toNat (a.extractLsb' 14 8).toNat o.toNat)

/-- Whether a message or wake has room at its receiver (R146, R148). -/
def areaFull (s : State) (j : Nat) : Bool :=
  (s.ctx (ownerOf j)).phase == .swapped && 1024 ≤ ((s.ctx (ownerOf j)).messages.get [] (coreOf j)).length

/-- The slot whose latch an access with WK sets: slot (CORE, SLOT) of the quad at (LX, LY), whatever stands in QUAY (R156, R165). -/
def wakeSlot (s : State) (a : Word) : Option Nat := placeSlot s s.cur (a &&& ~~~ (1#64 <<< 30))

/-- Before an access with WK: its sender waits while the message area of the receiver is full (R148, R366). -/
def wakeRoom (s : State) (wk : Bool) (a : Word) : Except Stop Unit :=
  match wakeSlot s a with
  | some j => if wk && areaFull s j then .error (wait (.msg a j)) else .ok ()
  | none => .ok ()

/-- The wake that follows an access with WK: the latch of the slot that the place word names (R156). -/
def wakePlace (s : State) (wk : Bool) (a : Word) : State :=
  match wakeSlot s a with
  | some j => if wk then (deliverWake s j).getD s else s
  | none => s

/-- `rld`: as `ld` at a place (R156). -/
def execRld (h : Hdr) (ty : IntTy) (d a b : Reg) (i : Imm) (s : State) : Host.Outcome State Fault Refusal :=
  issue { i := .rld h ty d a b i, h, srcs := [a, b], dst := some d, pair := .load } (fun v s => do
    let ea ← placeEa (arg v 0) (arg v 1) i
    loadTo s ty d ea) s

/-- `rst`: as `st` at a place, then the wake (R156). -/
def execRst (h : Hdr) (wk : Bool) (ty : IntTy) (a b : Reg) (i : Imm) (c : Reg) (s : State) :
    Host.Outcome State Fault Refusal :=
  issue { i := .rst h wk ty a b i c, h, srcs := [a, b, c], pair := .joint } (fun v s => do
    let ea ← placeEa (arg v 0) (arg v 1) i
    let _ ← check s s.cur ea ty.bytes rW
    wakeRoom s wk (arg v 0)
    let t ← storeAt s ea ty.bytes (arg v 2)
    done (wakePlace t wk (arg v 0))) s

/-- `ramo`: as `amo` at a place, then the wake (R156). -/
def execRamo (h : Hdr) (op : AmoOp) (wk : Bool) (ty : IntTy) (d a b : Reg) (i : Imm) (c : Reg) (s : State) :
    Host.Outcome State Fault Refusal :=
  issue { i := .ramo h op wk ty d a b i c, h, srcs := [a, b, c], dst := some d, pair := .joint } (fun v s => do
    let ea ← placeEa (arg v 0) (arg v 1) i
    let _ ← check s s.cur ea ty.bytes (rR ||| rW)
    wakeRoom s wk (arg v 0)
    let (t, n) ← amoTo s op ty d ea (arg v 2)
    .ok (wakePlace t wk (arg v 0), n)) s

end Sys2Proof.Machine
end

