-- ==== Sys2Proof/Machine/Scalar.lean ====
section
/-! DEFINITION. The meanings of the scalar integer instructions (R112 to R122). -/

namespace Sys2Proof.Machine

/-! ### Computations -/

/-- Quotient and remainder (R113): a zero divisor gives 0 and the dividend, and the quotient truncates toward zero. -/
def divRem (ty : IntTy) (x y : Word) : Int × Int :=
  let a := ty.int x
  let b := ty.int y
  if b = 0 then (0, a)
  else if ty.signed && a == -(2 ^ (ty.bits - 1)) && b == -1 then (a, 0)
  else (a.tdiv b, a.tmod b)

/-- The number of leading zero bits, 0 to 64 (R114). -/
def clz64 (x : Word) : Nat := if x = 0 then 64 else 63 - x.toNat.log2

/-- The number of trailing zero bits, 0 to 64 (R114). -/
def ctz64 (x : Word) : Nat := ((List.range 64).find? fun i => x.getLsbD i).getD 64

/-- The number of one bits (R114). -/
def popc64 (x : Word) : Nat := ((List.range 64).filter fun i => x.getLsbD i).length

/-- Bit i of the result is bit 63 - i (R114). -/
def brev64 (x : Word) : Word :=
  BitVec.ofNat 64 (((List.range 64).map fun i => if x.getLsbD (63 - i) then 2 ^ i else 0).sum)

/-- Byte i of the result is byte 7 - i (R114). -/
def bswap64 (x : Word) : Word :=
  BitVec.ofNat 64 (((List.range 8).map fun i => x.toNat / 2 ^ (8 * (7 - i)) % 256 * 2 ^ (8 * i)).sum)

/-- The field of `n` bits from `p` upward, extended to 64 bits (R115). -/
def field64 (sg : Bool) (x : Word) (p n : Nat) : Word :=
  let f := (x >>> p).setWidth n
  if sg then f.signExtend 64 else f.zeroExtend 64

/-- Replace the field of `n` bits from `p` upward by the low bits of `y` (R115). -/
def insert64 (x y : Word) (p n : Nat) : Word :=
  let m : Word := BitVec.ofNat 64 ((2 ^ n - 1) * 2 ^ p)
  (x &&& ~~~m) ||| ((y <<< p) &&& m)

/-- One bit of the CRC-32C of R116. -/
def crcBit (c : BitVec 32) (b : Bool) : BitVec 32 :=
  if c.getLsbD 0 != b then (c >>> 1) ^^^ 0x82F63B78 else c >>> 1

/-- Fold the low bits of a value into a CRC-32C state, bit 0 first (R116). -/
def crcFold (c : BitVec 32) (y : Word) (bits : Nat) : BitVec 32 :=
  (List.range bits).foldl (fun c i => crcBit c (y.getLsbD i)) c

/-- TT[2 x + y] (R121). -/
def truth {n : Nat} (tt : BitVec n) (x y : Bool) : Bool := tt.getLsbD (2 * x.toNat + y.toNat)

/-- p7 to p0 as the low byte (R122). -/
def Slot.allP (x : Slot) : Word := ((1#1 ++ x.p).zeroExtend 64)


/-! ### Arithmetic (R112, R113) -/

/-- `nop`: no effect (R112). -/
def execNop (h : Hdr) (s : State) : Host.Outcome State Fault Refusal := issue { i := .nop h, h } (fun _ s => done s) s

/-- `add`: D := A + B (R112). -/
def execAdd (h : Hdr) (d a b : Reg) (s : State) : Host.Outcome State Fault Refusal :=
  alu (.add h d a b) h d [a, b] (fun v => arg v 0 + arg v 1) s

/-- `addi`: D := A + sext(IMM) (R112). -/
def execAddi (h : Hdr) (d a : Reg) (i : Imm) (s : State) : Host.Outcome State Fault Refusal :=
  alu (.addi h d a i) h d [a] (fun v => arg v 0 + i.sext) s

/-- `sub`: D := A - B (R112). -/
def execSub (h : Hdr) (d a b : Reg) (s : State) : Host.Outcome State Fault Refusal :=
  alu (.sub h d a b) h d [a, b] (fun v => arg v 0 - arg v 1) s

/-- `rsbi`: D := sext(IMM) - A (R112). -/
def execRsbi (h : Hdr) (d a : Reg) (i : Imm) (s : State) : Host.Outcome State Fault Refusal :=
  alu (.rsbi h d a i) h d [a] (fun v => i.sext - arg v 0) s

/-- `mul`: D := A B modulo 2^64 (R112). -/
def execMul (h : Hdr) (d a b : Reg) (s : State) : Host.Outcome State Fault Refusal :=
  alu (.mul h d a b) h d [a, b] (fun v => arg v 0 * arg v 1) s (lat := 4)

/-- `muli`: D := A sext(IMM) modulo 2^64 (R112). -/
def execMuli (h : Hdr) (d a : Reg) (i : Imm) (s : State) : Host.Outcome State Fault Refusal :=
  alu (.muli h d a i) h d [a] (fun v => arg v 0 * i.sext) s (lat := 4)

/-- `mulh`: bits 127 to 64 of the exact product (R112). -/
def execMulh (h : Hdr) (ty : IntTy) (d a b : Reg) (s : State) : Host.Outcome State Fault Refusal :=
  alu (.mulh h ty d a b) h d [a, b] (fun v => BitVec.ofInt 64 (ty.int (arg v 0) * ty.int (arg v 1) / 2 ^ 64)) s (lat := 4)

/-- `mad`: D := A B + C modulo 2^64 (R112). -/
def execMad (h : Hdr) (d a b c : Reg) (s : State) : Host.Outcome State Fault Refusal :=
  alu (.mad h d a b c) h d [a, b, c] (fun v => arg v 0 * arg v 1 + arg v 2) s (lat := 4)

/-- `div`: the quotient of R113. -/
def execDiv (h : Hdr) (ty : IntTy) (d a b : Reg) (s : State) : Host.Outcome State Fault Refusal :=
  alu (.div h ty d a b) h d [a, b] (fun v => ty.put (divRem ty (arg v 0) (arg v 1)).1) s (lat := if ty.bits = 64 then 36 else 20)

/-- `rem`: the remainder of R113. -/
def execRem (h : Hdr) (ty : IntTy) (d a b : Reg) (s : State) : Host.Outcome State Fault Refusal :=
  alu (.rem h ty d a b) h d [a, b] (fun v => ty.put (divRem ty (arg v 0) (arg v 1)).2) s (lat := if ty.bits = 64 then 36 else 20)

/-- `min`: the smaller of the two values (R112). -/
def execMin (h : Hdr) (ty : IntTy) (d a b : Reg) (s : State) : Host.Outcome State Fault Refusal :=
  alu (.min h ty d a b) h d [a, b] (fun v => if ty.int (arg v 1) < ty.int (arg v 0) then ty.val (arg v 1) else ty.val (arg v 0)) s

/-- `max`: the larger of the two values (R112). -/
def execMax (h : Hdr) (ty : IntTy) (d a b : Reg) (s : State) : Host.Outcome State Fault Refusal :=
  alu (.max h ty d a b) h d [a, b] (fun v => if ty.int (arg v 0) < ty.int (arg v 1) then ty.val (arg v 1) else ty.val (arg v 0)) s

/-! ### Logic, shifts and bit fields (R114 to R117) -/

/-- `and`: D := A and B (R114). -/
def execAnd (h : Hdr) (d a b : Reg) (s : State) : Host.Outcome State Fault Refusal :=
  alu (.and h d a b) h d [a, b] (fun v => arg v 0 &&& arg v 1) s

/-- `andi`: D := A and zext(IMM) (R114). -/
def execAndi (h : Hdr) (d a : Reg) (i : Imm) (s : State) : Host.Outcome State Fault Refusal :=
  alu (.andi h d a i) h d [a] (fun v => arg v 0 &&& i.zext) s

/-- `or`: D := A or B (R114). -/
def execOr (h : Hdr) (d a b : Reg) (s : State) : Host.Outcome State Fault Refusal :=
  alu (.or h d a b) h d [a, b] (fun v => arg v 0 ||| arg v 1) s

/-- `ori`: D := A or zext(IMM) (R114). -/
def execOri (h : Hdr) (d a : Reg) (i : Imm) (s : State) : Host.Outcome State Fault Refusal :=
  alu (.ori h d a i) h d [a] (fun v => arg v 0 ||| i.zext) s

/-- `xor`: D := A xor B (R114). -/
def execXor (h : Hdr) (d a b : Reg) (s : State) : Host.Outcome State Fault Refusal :=
  alu (.xor h d a b) h d [a, b] (fun v => arg v 0 ^^^ arg v 1) s

/-- `xori`: D := A xor zext(IMM) (R114). -/
def execXori (h : Hdr) (d a : Reg) (i : Imm) (s : State) : Host.Outcome State Fault Refusal :=
  alu (.xori h d a i) h d [a] (fun v => arg v 0 ^^^ i.zext) s

/-- `andn`: D := A and not B (R114). -/
def execAndn (h : Hdr) (d a b : Reg) (s : State) : Host.Outcome State Fault Refusal :=
  alu (.andn h d a b) h d [a, b] (fun v => arg v 0 &&& ~~~(arg v 1)) s

/-- `shl`: D := A shifted left by B[5:0] (R114). -/
def execShl (h : Hdr) (d a b : Reg) (s : State) : Host.Outcome State Fault Refusal :=
  alu (.shl h d a b) h d [a, b] (fun v => arg v 0 <<< ((arg v 1).toNat % 64)) s

/-- `shli`: D := A shifted left by the immediate (R114). -/
def execShli (h : Hdr) (d a : Reg) (i : Imm) (s : State) : Host.Outcome State Fault Refusal :=
  alu (.shli h d a i) h d [a] (fun v => arg v 0 <<< i.zext.toNat) s

/-- `shr`: D := A shifted right by B[5:0], zeros shifted in (R114). -/
def execShr (h : Hdr) (d a b : Reg) (s : State) : Host.Outcome State Fault Refusal :=
  alu (.shr h d a b) h d [a, b] (fun v => arg v 0 >>> ((arg v 1).toNat % 64)) s

/-- `shri`: D := A shifted right by the immediate, zeros shifted in (R114). -/
def execShri (h : Hdr) (d a : Reg) (i : Imm) (s : State) : Host.Outcome State Fault Refusal :=
  alu (.shri h d a i) h d [a] (fun v => arg v 0 >>> i.zext.toNat) s

/-- `sar`: D := A shifted right by B[5:0], copies of the sign shifted in (R114). -/
def execSar (h : Hdr) (d a b : Reg) (s : State) : Host.Outcome State Fault Refusal :=
  alu (.sar h d a b) h d [a, b] (fun v => (arg v 0).sshiftRight ((arg v 1).toNat % 64)) s

/-- `sari`: D := A shifted right by the immediate, copies of the sign shifted in (R114). -/
def execSari (h : Hdr) (d a : Reg) (i : Imm) (s : State) : Host.Outcome State Fault Refusal :=
  alu (.sari h d a i) h d [a] (fun v => (arg v 0).sshiftRight i.zext.toNat) s

/-- `rot`: D := A rotated left by B[5:0] (R114). -/
def execRot (h : Hdr) (d a b : Reg) (s : State) : Host.Outcome State Fault Refusal :=
  alu (.rot h d a b) h d [a, b] (fun v => (arg v 0).rotateLeft ((arg v 1).toNat % 64)) s

/-- `roti`: D := A rotated left by the immediate (R114). -/
def execRoti (h : Hdr) (d a : Reg) (i : Imm) (s : State) : Host.Outcome State Fault Refusal :=
  alu (.roti h d a i) h d [a] (fun v => (arg v 0).rotateLeft i.zext.toNat) s

/-- `clz`: leading zero bits (R114). -/
def execClz (h : Hdr) (d a : Reg) (s : State) : Host.Outcome State Fault Refusal :=
  alu (.clz h d a) h d [a] (fun v => BitVec.ofNat 64 (clz64 (arg v 0))) s

/-- `ctz`: trailing zero bits (R114). -/
def execCtz (h : Hdr) (d a : Reg) (s : State) : Host.Outcome State Fault Refusal :=
  alu (.ctz h d a) h d [a] (fun v => BitVec.ofNat 64 (ctz64 (arg v 0))) s

/-- `popc`: number of one bits (R114). -/
def execPopc (h : Hdr) (d a : Reg) (s : State) : Host.Outcome State Fault Refusal :=
  alu (.popc h d a) h d [a] (fun v => BitVec.ofNat 64 (popc64 (arg v 0))) s

/-- `brev`: bits reversed (R114). -/
def execBrev (h : Hdr) (d a : Reg) (s : State) : Host.Outcome State Fault Refusal :=
  alu (.brev h d a) h d [a] (fun v => brev64 (arg v 0)) s

/-- `bswap`: bytes reversed (R114). -/
def execBswap (h : Hdr) (d a : Reg) (s : State) : Host.Outcome State Fault Refusal :=
  alu (.bswap h d a) h d [a] (fun v => bswap64 (arg v 0)) s

/-- `ext`: the low N bits extended (R115). -/
def execExt (h : Hdr) (sg : Bool) (d a : Reg) (i : Imm) (s : State) : Host.Outcome State Fault Refusal :=
  alu (.ext h sg d a i) h d [a] (fun v => field64 sg (arg v 0) 0 i.zext.toNat) s

/-- `bfx`: a bit field extended (R115). -/
def execBfx (h : Hdr) (sg : Bool) (d a : Reg) (i : Imm) (s : State) : Host.Outcome State Fault Refusal :=
  alu (.bfx h sg d a i) h d [a] (fun v => field64 sg (arg v 0) i.pos i.flen) s

/-- `bfi`: a bit field of A replaced by the low bits of B (R115). -/
def execBfi (h : Hdr) (d a b : Reg) (i : Imm) (s : State) : Host.Outcome State Fault Refusal :=
  alu (.bfi h d a b i) h d [a, b] (fun v => insert64 (arg v 0) (arg v 1) i.pos i.flen) s

/-- `crc`: the low 8, 16, 32 or 64 bits of B folded into a CRC-32C state (R116). -/
def execCrc (h : Hdr) (k : BitVec 2) (d a b : Reg) (s : State) : Host.Outcome State Fault Refusal :=
  alu (.crc h k d a b) h d [a, b] (fun v => (crcFold ((arg v 0).setWidth 32) (arg v 1) (8 * 2 ^ k.toNat)).zeroExtend 64) s (lat := 4)

/-- `hash`: the mixing steps of R54 over A xor B with its halves exchanged (R117). -/
def execHash (h : Hdr) (d a b : Reg) (s : State) : Host.Outcome State Fault Refusal :=
  alu (.hash h d a b) h d [a, b] (fun v => mix (arg v 0 ^^^ (arg v 1).rotateLeft 32)) s (lat := 4)

/-! ### Constants, addresses and selection (R118, R119) -/

/-- `li`: D := sext(IMM) (R118). -/
def execLi (h : Hdr) (d : Reg) (i : Imm) (s : State) : Host.Outcome State Fault Refusal :=
  alu (.li h d i) h d [] (fun _ => i.sext) s

/-- `lih`: D := the immediate above the low 16 bits of A (R118). -/
def execLih (h : Hdr) (d a : Reg) (i : Imm) (s : State) : Host.Outcome State Fault Refusal :=
  alu (.lih h d a i) h d [a] (fun v => (i.zext <<< 16) ||| (arg v 0 &&& 0xFFFF)) s

/-- `lea`: the effective address, with no access and no check (R118, R119). -/
def execLea (h : Hdr) (d : Reg) (m : Mem) (s : State) : Host.Outcome State Fault Refusal :=
  alu (.lea h d m) h d m.regs (fun v => m.ea v) s

/-- `mov`: D := A (R118). -/
def execMov (h : Hdr) (d a : Reg) (s : State) : Host.Outcome State Fault Refusal :=
  alu (.mov h d a) h d [a] (fun v => arg v 0) s

/-- `sel`: D := A if the predicate is 1, else B (R118). -/
def execSel (h : Hdr) (d a b : Reg) (c : PReg) (s : State) : Host.Outcome State Fault Refusal :=
  alu (.sel h d a b c) h d [a, b] (fun v => if s.me.getP c then arg v 0 else arg v 1) s

/-! ### Compares and predicates (R120 to R122) -/

/-- An instruction that computes a predicate from general registers. -/
def aluP (i : Instr) (h : Hdr) (d : PReg) (srcs : List Reg) (f : List Word → Bool) (s : State) :
    Host.Outcome State Fault Refusal :=
  issue { i, h, srcs } (fun v s => giveP s d (f v)) s

/-- `cmp`: the predicate says whether the comparison holds (R120). -/
def execCmp (h : Hdr) (cond : Cond) (ty : IntTy) (d : PReg) (a b : Reg) (s : State) : Host.Outcome State Fault Refusal :=
  aluP (.cmp h cond ty d a b) h d [a, b] (fun v => cond.holds (ty.int (arg v 0)) (ty.int (arg v 1))) s

/-- `cmpi`: as `cmp`, with the immediate extended by the type's sign (R120). -/
def execCmpi (h : Hdr) (cond : Cond) (ty : IntTy) (d : PReg) (a : Reg) (i : Imm) (s : State) :
    Host.Outcome State Fault Refusal :=
  aluP (.cmpi h cond ty d a i) h d [a]
    (fun v => cond.holds (ty.int (arg v 0)) (ty.int (if ty.signed then i.sext else i.zext))) s

/-- `plog`: a truth table over two predicates (R121). -/
def execPlog (h : Hdr) (tt : BitVec 4) (d a b : PReg) (s : State) : Host.Outcome State Fault Refusal :=
  aluP (.plog h tt d a b) h d [] (fun _ => truth tt (s.me.getP a) (s.me.getP b)) s

/-- `pmov pd, ga`: whether A is not zero (R122). -/
def execPmov (h : Hdr) (d : PReg) (a : Reg) (s : State) : Host.Outcome State Fault Refusal :=
  aluP (.pmov h d a) h d [a] (fun v => arg v 0 != 0) s

/-- `pmov gd, pa`: the predicate as 0 or 1 (R122). -/
def execPmovToGeneral (h : Hdr) (d : Reg) (a : PReg) (s : State) : Host.Outcome State Fault Refusal :=
  alu (.pmovToGeneral h d a) h d [] (fun _ => (bit1 (s.me.getP a)).zeroExtend 64) s

/-- `pmov.get`: p7 to p0 (R122). -/
def execPmovGet (h : Hdr) (d : Reg) (s : State) : Host.Outcome State Fault Refusal :=
  alu (.pmovGet h d) h d [] (fun _ => s.me.allP) s

/-- `pmov.set`: p0 to p6 from the low bits of A (R122). -/
def execPmovSet (h : Hdr) (a : Reg) (s : State) : Host.Outcome State Fault Refusal :=
  issue { i := .pmovSet h a, h, srcs := [a] } (fun v s => done (s.modMe fun x =>
    { x with p := (arg v 0).setWidth 7, bad := x.bad.filter fun e => e.1 < badPred 0 || badIndex 0 ≤ e.1 })) s

end Sys2Proof.Machine
end

