-- ==== Sys2Proof/Machine/Control.lean ====
section
/-! DEFINITION. The meanings of control transfers, system register access, traps and return (R31 to R37, R123 to R126). -/

namespace Sys2Proof.Machine

/-! ### Control transfer (R123) -/

/-- The link register ln. -/
def lnReg : Reg := 55

/-- Go to a target: MISALIGN where it is not a multiple of 4 (R91). -/
def goTo (s : State) (t : Word) : Res :=
  if t.toNat % 4 != 0 then .error (.trap ⟨.misalign, t, 0⟩) else .ok (s, .to t)

/-- Set ln to the address behind an instruction of `n` bytes, and go to a target. -/
def callTo (s : State) (n : Nat) (t : Word) : Res :=
  goTo (s.modMe fun x => x.setG lnReg (x.pc + BitVec.ofNat 64 n)) t

/-- `br`: pc := pc + 4 sext(IMM) (R123). -/
def execBr (h : Hdr) (i : Imm) (s : State) : Host.Outcome State Fault Refusal :=
  issue { i := .br h i, h } (fun _ s => goTo s (s.me.pc + 4 * i.sext)) s

/-- `call`: ln := pc + n, pc := pc + 4 sext(IMM) (R123). -/
def execCall (h : Hdr) (i : Imm) (s : State) : Host.Outcome State Fault Refusal :=
  issue { i := .call h i, h, dst := some lnReg } (fun _ s => callTo s i.bytes (s.me.pc + 4 * i.sext)) s

/-- `ret`: pc := A (R123). -/
def execRet (h : Hdr) (a : Reg) (s : State) : Host.Outcome State Fault Refusal :=
  issue { i := .ret h a, h, srcs := [a] } (fun v s => goTo s (arg v 0)) s

/-- `jmp`: pc := A + sext(IMM) (R123). -/
def execJmp (h : Hdr) (a : Reg) (i : Imm) (s : State) : Host.Outcome State Fault Refusal :=
  issue { i := .jmp h a i, h, srcs := [a] } (fun v s => goTo s (arg v 0 + i.sext)) s

/-- `callr`: the target is read before ln is written (R123). -/
def execCallr (h : Hdr) (a : Reg) (s : State) : Host.Outcome State Fault Refusal :=
  issue { i := .callr h a, h, srcs := [a], dst := some lnReg } (fun v s => callTo s 8 (arg v 0)) s

/-! ### System registers (R31 to R37, R124) -/

/-- TSTAT (R32). -/
def Slot.tstat (x : Slot) : Word :=
  (bit1 x.rstrt ++ bit1 x.prio ++ x.chk ++ bit1 x.tlvl ++ bit1 x.mode).zeroExtend 64

/-- RMODE (R33). -/
def Slot.rmode (x : Slot) : Word := (x.fen ++ (0 : BitVec 3) ++ bit1 x.fzo ++ bit1 x.fzi ++ x.rm).zeroExtend 64

/-- A tile descriptor as a register (R28). -/
def TDesc.word (t : TDesc) : Word := (bit1 t.dist ++ t.cols ++ t.rows ++ t.fmt).zeroExtend 64

/-- A tile descriptor from a register value (R28). -/
def TDesc.ofWord (w : Word) : TDesc :=
  { fmt := w.extractLsb' 0 4, rows := w.extractLsb' 4 7, cols := w.extractLsb' 11 10, dist := w.getLsbD 21 }

/-- OWNER (R37). -/
def ownerWord (s : State) (o : Nat) : Word :=
  BitVec.ofNat 64 (o % 2 ^ 12 + (s.ctx o).cls.toNat * 2 ^ 12 + (s.ctx o).checked.toNat * 2 ^ 14)

/-- ISLAND (R37). -/
def islandWord (s : State) (o : Nat) : Word :=
  let c := s.ctx o
  BitVec.ofNat 64 (c.wq % 256 + c.hq % 256 * 2 ^ 8 + c.npkg % 256 * 2 ^ 16 + c.cw % 256 * 2 ^ 24 + c.ch % 256 * 2 ^ 32)

/-- A system register as slot `k` reads it (R31). -/
def sysRead (s : State) (k : Nat) (r : SysReg) : Word :=
  let x := s.slot k
  let c := s.core (coreOf k)
  match r with
  | .tstat => x.tstat
  | .rmode => x.rmode
  | .rseed => x.rseed
  | .fflags => x.fflags.zeroExtend 64
  | .wlim => x.wlim.zeroExtend 64
  | .cyc => BitVec.ofNat 64 c.cyc
  | .tid => BitVec.ofNat 64 (tidOf k)
  | .tvec => (c.tvec ++ (0 : BitVec 2)).zeroExtend 64
  | .tcause => (bit1 x.late ++ x.cause).zeroExtend 64
  | .txpc => x.txpc
  | .tval => x.tval
  | .tseq => x.tseq.zeroExtend 64
  | .tscr => x.tscr
  | .tdesc t => (c.tdesc.get {} t.toNat).word
  | .gangw => BitVec.ofNat 64 c.gangw
  | .slabseq => c.slabseq.zeroExtend 64
  | .ringb => (c.ringb ++ (0 : BitVec 12)).zeroExtend 64
  | .ringl => c.spillPages ++ c.spill ++ (0 : BitVec 12)
  | .ringh => c.ringh.zeroExtend 64
  | .ringt => c.ringt.zeroExtend 64
  | .nest n => (c.nestMin.getD n.toNat 0 ++ c.nestExt.getD n.toNat 0).zeroExtend 64
  | .batch => x.batch.zeroExtend 64
  | .xfree => BitVec.ofNat 64 (16 - c.fifo.cmds.length)
  | .xhand => x.xhand.zeroExtend 64
  | .owner => ownerWord s (ownerOf k)
  | .island => islandWord s (ownerOf k)
  | .leasen => BitVec.ofNat 64 ((s.ctx (ownerOf k)).leases.length % 2 ^ 16)

/-- `mfs`: a system register; one of FFLAGS waits for the slot's slab instructions (R34, R124). -/
def execMfs (h : Hdr) (r : SysReg) (d : Reg) (s : State) : Host.Outcome State Fault Refusal :=
  issue { i := .mfs h r d, h, dst := some d }
    (fun _ s => if r = .fflags && slabBusy s s.cur then .error .hold else give s d (sysRead s s.cur r)) s

/-- Change the core of the current slot. -/
def State.modMyCore (s : State) (f : CoreSt → CoreSt) : State := s.modCore s.myCore f

/-- Write RMODE, WLIM, TVEC or TSCR, field by field (R33, R35, R37). -/
def sysWrite (s : State) (r : SysReg) (v : Word) : State :=
  match r with
  | .rmode => s.modMe fun x =>
      ({ x with rm := v.extractLsb' 0 3, fzi := v.getLsbD 3, fzo := v.getLsbD 4, fen := v.extractLsb' 8 5 } : Slot).mendedSys .rmode
  | .wlim => s.modMe fun x => ({ x with wlim := v.extractLsb' 0 32 } : Slot).mendedSys .wlim
  | .tvec => s.modMyCore fun c => { c with tvec := v.extractLsb' 2 54 }
  | .tscr => s.modMe fun x => ({ x with tscr := v } : Slot).mendedSys .tscr
  | _ => s

/-- `mts` to RMODE, WLIM, TVEC or TSCR (R124). -/
def execMts (h : Hdr) (r : SysReg) (a : Reg) (s : State) : Host.Outcome State Fault Refusal :=
  issue { i := .mts h r a, h, srcs := [a] } (fun v s => done (sysWrite s r (arg v 0))) s

/-- `mts RSEED`: the retired count becomes 0, and the next instruction has the count 0 (R55, R124). -/
def execRseedWrite (h : Hdr) (a : Reg) (s : State) : Host.Outcome State Fault Refusal :=
  issue { i := .rseedWrite h a, h, srcs := [a] }
    (fun v s => .ok (s.modMe fun x => ({ x with rseed := arg v 0, retired := 0 } : Slot).mendedSys .rseed, .restart)) s

/-- `mts FFLAGS`: waits for the slot's slab instructions (R34, R124). -/
def execFflagsWrite (h : Hdr) (a : Reg) (s : State) : Host.Outcome State Fault Refusal :=
  issue { i := .fflagsWrite h a, h, srcs := [a] }
    (fun v s => if slabBusy s s.cur then .error .hold
      else done (s.modMe fun x => ({ x with fflags := (arg v 0).extractLsb' 0 5 } : Slot).mendedSys .fflags)) s

/-- `mts RINGB`: ILLEGAL while the ring holds records, behind the wait for a queue's entry (R37, R124) (DEDUCED log 90). -/
def execRingbWrite (h : Hdr) (a : Reg) (s : State) : Host.Outcome State Fault Refusal :=
  issue { i := .ringbWrite h a, h, srcs := [a] }
    (fun v s => let c := s.core s.myCore
      if c.ringt != c.ringh then .error ill
      else done (s.modMyCore fun c => { c with ringb := (arg v 0).extractLsb' 12 10 })) s

/-- `mts RINGL`: ILLEGAL while the ring holds records, behind the wait for a queue's entry (R37, R124) (DEDUCED log 90). -/
def execRinglWrite (h : Hdr) (a : Reg) (s : State) : Host.Outcome State Fault Refusal :=
  issue { i := .ringlWrite h a, h, srcs := [a] }
    (fun v s => let c := s.core s.myCore
      if c.ringt != c.ringh then .error ill
      else done (s.modMyCore fun c =>
        { c with spill := (arg v 0).extractLsb' 12 44, spillPages := (arg v 0).extractLsb' 56 8 })) s

/-- `mts TDESCn`: the descriptor of a tile for later slab instructions; no value traps (R27, R28, R124). -/
def execTdescWrite (h : Hdr) (t : TReg) (a : Reg) (s : State) : Host.Outcome State Fault Refusal :=
  issue { i := .tdescWrite h t a, h, srcs := [a] }
    (fun v s => done (s.modMyCore fun c => { c with tdesc := c.tdesc.put t.toNat (TDesc.ofWord (arg v 0)), descBad := c.descBad.erase t.toNat })) s

/-! ### Traps and return (R125, R126) -/

/-- `trap`: TRAP with TVAL the immediate (R125). -/
def execTrap (h : Hdr) (i : Imm) (s : State) : Host.Outcome State Fault Refusal :=
  issue { i := .trap h i, h } (fun _ _ => .error (.trap ⟨.trap, i.zext, 0⟩)) s

/-- `brk`: BRK with TVAL the immediate (R125). -/
def execBrk (h : Hdr) (i : BitVec 16) (s : State) : Host.Outcome State Fault Refusal :=
  issue { i := .brk h i, h } (fun _ _ => .error (.trap ⟨.brk, i.zeroExtend 64, 0⟩)) s

/-- `tret`: back to trap level 0 at an address; a pending trap is taken before the target issues (R126, R355).  The check of the
level stands behind the wait for a queue's entry (DEDUCED log 90). -/
def execTret (h : Hdr) (a : Reg) (s : State) : Host.Outcome State Fault Refusal :=
  issue { i := .tret h a, h, srcs := [a] }
    (fun v s =>
      if !s.me.tlvl then .error ill
      else if (arg v 0).toNat % 4 != 0 then .error (.trap ⟨.misalign, arg v 0, 0⟩)
      else .ok (trapReturn (finish s s.cur 8 1 (.to (arg v 0))) s.cur (arg v 0), .gone)) s

end Sys2Proof.Machine
end

