-- ==== Sys2Proof/Machine/Tiles.lean ====
section
/-! DEFINITION. Tile registers and accumulators: descriptors, bytes, elements and views (R25, R28 to R30, R183, R184, R214). -/

namespace Sys2Proof.Machine

/-- Twice the element size in bytes; for the bit format, of its 4-bit units (R183). -/
def halfBytes : Fmt → Nat
  | .b4 | .bit => 1
  | .s8 | .n8 | .e4m3 | .e5m2 => 2
  | .bf16 | .f16 | .s16 => 4
  | .f32 | .s32 => 8

/-- The largest COLS of a format (R29). -/
def maxCols : Fmt → Nat
  | .b4 | .bit => 512
  | .s8 | .n8 | .e4m3 | .e5m2 => 256
  | .bf16 | .f16 | .s16 => 128
  | .f32 | .s32 => 64

namespace TDesc

def format? (d : TDesc) : Option Fmt := Fmt.ofCode? d.fmt

/-- The format of a descriptor that passes R30. -/
def format (d : TDesc) : Fmt := Fmt.ofCode d.fmt

/-- The check of R30. -/
def ok (d : TDesc) : Bool :=
  match d.format? with
  | none => false
  | some f => 1 ≤ d.rows.toNat && d.rows.toNat ≤ 64 && 1 ≤ d.cols.toNat && d.cols.toNat ≤ maxCols f

/-- Whether a used row is a whole number of bytes. -/
def whole (d : TDesc) : Bool := d.cols.toNat * halfBytes d.format % 2 == 0

/-- Bytes of a used row, a last half byte counted (R185, R212). -/
def rowBytes (d : TDesc) : Nat := (d.cols.toNat * halfBytes d.format + 1) / 2

/-- Scale bytes of a row (R29). -/
def rowScales (d : TDesc) : Nat := if d.format = .b4 then (d.cols.toNat + 31) / 32 else 0

/-- Whether a byte of a tile member is used: of a used row and column, or a used plane byte. -/
def uses (d : TDesc) (b : Nat) : Bool :=
  if b < 16384 then b / 256 < d.rows.toNat && b % 256 < d.rowBytes
  else (b - 16384) / 16 < d.rows.toNat && (b - 16384) % 16 < d.rowScales

end TDesc

/-- Bytes of one member of a tile: 16 KiB of data and 1 KiB of plane (R25). -/
def tileSpan : Nat := 17408

/-- The number of byte `b` of tile `t` on member `g`. -/
def tileKey (t g b : Nat) : Nat := (4 * t + g) * tileSpan + b

def CoreSt.tileByte (c : CoreSt) (t g b : Nat) : Byte := c.tile.get 0 (tileKey t g b)
def CoreSt.tilePoisoned (c : CoreSt) (t g b : Nat) : Bool := c.tilePoison.get false (tileKey t g b)

/-- Write a tile byte with its poison. -/
def CoreSt.setTile (c : CoreSt) (t g b : Nat) (v : Byte) (poison : Bool) : CoreSt :=
  { c with tile := c.tile.set 0 (tileKey t g b) v, tilePoison := c.tilePoison.set false (tileKey t g b) poison }

/-- Write bytes of a tile member at ascending places, without poison. -/
def CoreSt.setTileBytes (c : CoreSt) (t g : Nat) (bs : List (Nat × Byte)) : CoreSt :=
  let lo := tileKey t g ((bs.map (·.1)).headD 0)
  let hi := tileKey t g ((bs.map (·.1)).getLastD 0) + 1
  { c with tile := c.tile.within lo hi fun u => bs.foldl (fun u e => u.set 0 (tileKey t g e.1) e.2) u,
           tilePoison := c.tilePoison.within lo hi fun u => bs.foldl (fun u e => u.erase (tileKey t g e.1)) u }

/-- Zero every byte of a tile but those that a condition on member byte keeps. -/
def CoreSt.clearTile (c : CoreSt) (t : Nat) (keep : Nat → Bool) : CoreSt :=
  let stays (n : Nat) : Bool := n / tileSpan / 4 != t || keep (n % tileSpan)
  { c with tile := c.tile.filter fun e => stays e.1, tilePoison := c.tilePoison.filter fun e => stays e.1 }

/-- Cut a list into groups of `n`. -/
def groupsOf {α : Type} (n : Nat) : Nat → List α → List (List α)
  | 0, _ => []
  | k + 1, l => l.take n :: groupsOf n k (l.drop n)

/-- Bits of an element of a tile. -/
def elemBits : Fmt → Nat
  | .bit => 1
  | f => 4 * halfBytes f

/-- The elements that bytes of a row hold, from column 0 on: the lower bits of a byte come first (R56, R183). -/
def unpackElems (f : Fmt) (bs : List Byte) : List Nat :=
  if elemBits f < 8 then bs.flatMap fun b => (List.range (8 / elemBits f)).map fun i => b.toNat / 2 ^ (elemBits f * i) % 2 ^ elemBits f
  else (groupsOf (elemBits f / 8) (bs.length * 8 / elemBits f) bs).map leWord

/-- The bytes of a row that holds some elements from column 0 on. -/
def packElems (f : Fmt) (es : List Nat) : List Byte :=
  if elemBits f < 8 then
    (groupsOf (8 / elemBits f) ((es.length * elemBits f + 7) / 8) es).map fun g =>
      BitVec.ofNat 8 (g.foldr (fun e n => e % 2 ^ elemBits f + 2 ^ elemBits f * n) 0)
  else es.flatMap (leBytes (elemBits f / 8))

/-- The first `w` elements of a row of a tile (R183). -/
def CoreSt.rowElems (c : CoreSt) (f : Fmt) (t g row w : Nat) : List Nat :=
  (unpackElems f (c.tile.slice 0 (tileKey t g (row * 256)) ((w * elemBits f + 7) / 8))).take w

/-- Write bytes of a tile from a byte of a member on, without poison. -/
def CoreSt.fillTile (c : CoreSt) (t g b : Nat) (bs : List Byte) : CoreSt :=
  { c with tile := c.tile.fill 0 (tileKey t g b) bs, tilePoison := c.tilePoison.splice (tileKey t g b) (tileKey t g b + bs.length) [] }

/-- The integer an element of an integer format stands for. -/
def elemInt (f : Fmt) (v : Nat) : Int :=
  let sg (w : Nat) : Int := if v ≥ 2 ^ (w - 1) then (v : Int) - 2 ^ w else v
  match f with
  | .s8 => sg 8
  | .s16 => sg 16
  | .s32 => sg 32
  | _ => v

/-! ### Accumulators (R25) -/

def accKey (a m n : Nat) : Nat := (64 * a + m) * 256 + n
def CoreSt.cell (c : CoreSt) (a m n : Nat) : BitVec 36 := c.acc.get 0 (accKey a m n)
def CoreSt.setCell (c : CoreSt) (a m n : Nat) (v : BitVec 36) : CoreSt :=
  { c with acc := c.acc.set 0 (accKey a m n) v, accBad := c.accBad.erase (accKey a m n) }

/-- Cells of a row of an accumulator, from a column on. -/
def CoreSt.accRow (c : CoreSt) (a m n w : Nat) : List (BitVec 36) := c.acc.slice 0 (accKey a m n) w
def CoreSt.setAccRow (c : CoreSt) (a m n : Nat) (vs : List (BitVec 36)) : CoreSt :=
  { c with acc := c.acc.fill 0 (accKey a m n) vs, accBad := c.accBad.splice (accKey a m n) (accKey a m n + vs.length) [] }

/-- Whether some cell of rows of an accumulator holds an error that cannot be corrected (R389). -/
def CoreSt.badRows (c : CoreSt) (a m rows : Nat) : Bool := c.accBad.any fun e => e.2 && accKey a m 0 ≤ e.1 && e.1 < accKey a (m + rows) 0

/-- Every cell of an accumulator becomes 0. -/
def CoreSt.clearAcc (c : CoreSt) (a : Nat) : CoreSt :=
  { c with acc := c.acc.filter fun e => e.1 / 16384 != a, accBad := c.accBad.filter fun e => e.1 / 16384 != a }

/-- The cells of an accumulator in ascending row, then column. -/
def cellsOf (gangw : Nat) : List (Nat × Nat) :=
  (List.range 64).flatMap fun m => (List.range (64 * gangw)).map fun n => (m, n)

end Sys2Proof.Machine
end

