-- ==== Sys2Proof/Machine/Slab.lean ====
section
/-! DEFINITION. Slab instructions: their dispatch (R26, R159, R179, R182, R351), the form of a late fault (R166) and what completes one
(R34, R159). -/

namespace Sys2Proof.Machine

/-! ### Dispatch -/

/-- Execution time still to come in a core's slab queue, before the doubling of checked mode (R182) (DESIGN CHOICE log 19). -/
def backlog (c : CoreSt) : Nat := (c.slabQ.map (·.cost)).sum

/-- Whether the backlog allows one more instruction of an execution time: in checked mode every time doubles, and the bound is 512 in place
of 256 (R182, R395).  A single one always fits on an empty backlog. -/
def backlogAllows (s : State) (core cost : Nat) : Bool :=
  let c := s.core core
  c.slabQ.isEmpty ||
    if checkedCtx s (ownerOf core) then 2 * (backlog c + cost) ≤ 512 else backlog c + cost ≤ 256

/-- Whether the entry of the sequence ring that the next instruction takes is free (R351). -/
def seqFree (c : CoreSt) : Bool := (c.seqRing.get {} (c.slabseq.toNat % 64)).complete

/-- Put an instruction into the slab queue with the next sequence number. -/
def enqueueSlab (s : State) (core : Nat) (o : SlabOp) : State :=
  s.modCore core fun c =>
    { c with
      slabQ := c.slabQ ++ [{ o with seq := c.slabseq }]
      slabAt := s.cycle + 1
      seqRing := c.seqRing.put (c.slabseq.toNat % 64) { pc := o.pc, slot := o.slot, complete := false }
      slabseq := c.slabseq + 1 }

/-- A slab instruction of the current slot with all it captures at dispatch (R27, R52). -/
def capturedOp (s : State) (i : Instr) (args : List Word) (descs : List TDesc) (cap : Capture) (cost : Nat) : SlabOp :=
  { instr := i, slot := s.cur, seq := 0, pc := s.me.pc, cap, args, descs, cost, lvl := s.me.tlvl }

/-- Whether the interlocks of R182 and R351 let one more instruction in. -/
def slabRoom (s : State) (core cost : Nat) : Bool := backlogAllows s core cost && seqFree (s.core core)

/-- Dispatch a slab instruction of the current slot; the interlocks of R182 and R351 hold it. -/
def dispatch (s : State) (i : Instr) (args : List Word) (descs : List TDesc) (rnd : Rnd) (cost : Nat) : Except Stop State := do
  let cap ← needCapture s rnd
  let o := capturedOp s i args descs cap cost
  if !slabRoom s s.myCore o.cost then .error .hold
  else .ok (enqueueSlab s s.myCore o)

/-- The start of the product of a follow-on slot: it takes its sequence number, and the slot is Empty (R182, R194). -/
def startFollow (s : State) (core : Nat) (f : FReg) (o : SlabOp) : State :=
  (enqueueSlab s core o).modCore core fun x =>
    { x with follow := x.follow.put f.toNat { last := some (s.core core).slabseq } }

/-- The mode captured by an instruction that does not round: RM does not matter to it. -/
def anyMode : Rnd := .own .rne

/-- A slab instruction: its sources, its dispatch checks, which give the descriptors it copies, its mode and its execution time. -/
def slab (i : Instr) (h : Hdr) (srcs : List Reg) (rnd : Rnd) (cost : Nat → Nat)
    (checks : List Word → State → Except Stop (List TDesc)) (s : State) (dst : Option Reg := none) :
    Host.Outcome State Fault Refusal :=
  issue { i, h, srcs, dst, pair := .joint } (fun vs s => do
    let ds ← checks vs s
    let t ← dispatch s i vs ds rnd (cost (lanes (s.core s.myCore).gangw))
    done t) s

/-- No dispatch check and no descriptor. -/
def noChecks (_ : List Word) (_ : State) : Except Stop (List TDesc) := .ok []

/-! ### Late faults (R166, R186) -/

/-- The late form of a failing check: SLAB_EXC with the cause and the address, or LEASE_OUT and POISON as they are (R166). -/
def lateOf (t : Trap) : Trap :=
  match t.cause with
  | .leaseOut | .poison => t
  | c => { t with cause := .slabExc, tval := c.code ++ t.tval.extractLsb' 0 56 }

/-- What one access of a slab instruction does: it is performed, it waits in the memory path or for the latch of a bank, or it fails, with
what it has left. -/
inductive Access where
  | performed (s : State) (fl : Flags)
  | busy
  | path (ea : Word) (need : BitVec 4)
  | skipped (bank : Nat)
  | failed (t : Trap) (left : Option State)
  deriving DecidableEq, Repr

/-- The outcome of a thread access made for a slab instruction. -/
def Access.of (r : Except Stop (State × Flags)) : Access :=
  match r with
  | .ok (s, fl) => .performed s fl
  | .error (.trap t) => .failed t none
  | .error (.fault t left) => .failed t (some left)
  | .error (.skip b) => .skipped b
  | .error (.path ea need) => .path ea need
  | .error _ => .busy

/-- The outcome of an access seen from another slot: that slot is the current one again. -/
def Access.from_ (cur : Nat) : Access → Access
  | .performed t fl => .performed { t with cur } fl
  | .failed t left => .failed t (left.map fun s => { s with cur })
  | a => a

/-! ### Results -/

/-- The slots that take the results of a slab instruction: both of a pair (R394). -/
def slotsOf' (s : State) (o : SlabOp) : List Nat := pairOf s o.slot

/-- Change the slots that take a slab instruction's results. -/
def modOp (s : State) (o : SlabOp) (f : Slot → Slot) : State := (slotsOf' s o).foldl (fun s k => s.modSlot k f) s

/-- A slab instruction completes: its flags accrue, its ring entry is complete and it leaves the queue (R34, R351). -/
def slabDone (s : State) (core : Nat) (o : SlabOp) (fl : Flags) : State :=
  (modOp s o fun x => { x with fflags := x.fflags ||| fl }).modCore core fun c =>
    seqDone { c with slabQ := c.slabQ.filter fun p => p.seq != o.seq } o.seq

/-- A slab instruction faults late (R352). -/
def slabFault (s : State) (core : Nat) (o : SlabOp) (t : Trap) : State :=
  lateFault (s.modCore core fun c => seqDone { c with slabQ := c.slabQ.filter fun p => p.seq != o.seq } o.seq)
    o.slot o.seq o.pc o.lvl t

/-- The comparison of a slab instruction's two results fails at write-back: it writes nothing, and its pair meets CHK_MISMATCH with bit 63 and
the sequence number (R358, R394, R395). -/
def slabDiffers (s : State) (o : SlabOp) : State := mismatch s o.slot (1#1 ++ (0 : BitVec 31) ++ o.seq : BitVec 64)

/-- Keep the progress of the head instruction. -/
def slabProgress (s : State) (core : Nat) (o : SlabOp) : State :=
  s.modCore core fun c => { c with slabQ := c.slabQ.map fun p => if p.seq = o.seq then o else p }

end Sys2Proof.Machine
end

