-- ==== Sys2Proof/Machine/Vector.lean ====
section
/-! DEFINITION. The meanings of the vector instructions: their dispatch, and what each does when it completes (R157 to R178). -/

namespace Sys2Proof.Machine

/-! ### Lanes -/

/-- What a vector instruction gives when it completes: lanes of a vector register, a mask, a general register, and flags. -/
structure VOut where
  v : Option (VReg × List Lane) := none
  m : Option (MReg × BitVec 256) := none
  g : Option (Reg × Word) := none
  fl : Flags := 0
  deriving DecidableEq, Repr

/-- Whether a lane is active (R157). -/
def laneOn (h : VHdr) (x : Slot) (n l : Nat) : Bool := (x.getM n h.mask).getLsbD l

/-- Compute the active lanes of a destination; the others become 0 under Z, else keep their value (R157, R160). -/
def perLane (h : VHdr) (x : Slot) (n : Nat) (d : VReg) (f : Nat → Lane × Flags) : VOut :=
  let ls := (List.range n).map fun l => if laneOn h x n l then f l else (if h.z then 0 else x.getV d l, 0)
  { v := some (d, ls.map (·.1)), fl := orFlags (ls.map (·.2)) }

/-- Lanes that raise no flag. -/
def plainLanes (h : VHdr) (x : Slot) (n : Nat) (d : VReg) (f : Nat → Lane) : VOut := perLane h x n d fun l => (f l, 0)

/-- A float result as a lane. -/
def floatLane (r : Nat × Flags) : Lane × Flags := (BitVec.ofNat 32 r.1, r.2)

/-- The integer a lane is read as (R158). -/
def laneInt (lt : LaneTy) (a : Lane) : Int :=
  match lt with
  | .s32 => a.toInt
  | _ => a.toNat

/-- An exact integer result as a lane: wrapped, or clamped under SAT (R167). -/
def intLane (lt : LaneTy) (sat : Bool) (v : Int) : Lane :=
  BitVec.ofInt 32 (if sat then clampInt 32 (lt == .s32) v else v)

/-- The lesser or greater of two integer lanes (R167). -/
def pickLane (lt : LaneTy) (max : Bool) (a b : Lane) : Lane :=
  if (if max then laneInt lt a < laneInt lt b else laneInt lt b < laneInt lt a) then b else a

/-- A lane-wise operation with a float form and an integer form. -/
def lanewise (h : VHdr) (x : Slot) (n : Nat) (lt : LaneTy) (d a b : VReg) (flt : Nat → Nat → Nat → Nat × Flags)
    (int : Lane → Lane → Lane) : VOut :=
  perLane h x n d fun l =>
    match lt with
    | .f32 => floatLane (flt l (x.getV a l).toNat (x.getV b l).toNat)
    | _ => (int (x.getV a l) (x.getV b l), 0)

/-- A lane-wise operation on bits. -/
def bitwise (h : VHdr) (x : Slot) (n : Nat) (d a b : VReg) (f : Lane → Lane → Lane) : VOut :=
  plainLanes h x n d fun l => f (x.getV a l) (x.getV b l)

/-! ### Single operations (R167 to R176) -/

/-- Count bits of a lane (R167). -/
def cntLane (op : CntOp) (a : Lane) : Lane :=
  match op with
  | .pop => BitVec.ofNat 32 (popc64 (a.zeroExtend 64))
  | .lz => BitVec.ofNat 32 (clz64 (a.zeroExtend 64) - 32)
  | .tz => if a = 0 then 32 else BitVec.ofNat 32 (ctz64 (a.zeroExtend 64))

/-- Quotient of two integer lanes (R113, R167). -/
def divLane (lt : LaneTy) (a b : Lane) : Lane :=
  BitVec.ofInt 32 (divRem (if lt = .s32 then .s32 else .n32) (a.zeroExtend 64) (b.zeroExtend 64)).1

/-- The float elements packed in a lane (R168). -/
def packedFloat (ff : FF) (fzi : Bool) (a : Lane) : List FVal :=
  [ff.read fzi (a.toNat % 65536), ff.read fzi (a.toNat / 65536)]

/-- The integer elements packed in a lane (R168). -/
def packedInt (pf : DotFmt) (a : Lane) : List Int :=
  match pf with
  | .s8 => (List.range 4).map fun i => (a.extractLsb' (8 * i) 8).toInt
  | _ => (List.range 2).map fun i => (a.extractLsb' (16 * i) 16).toInt

/-- D + P rounded once, for the exact sum P of the products of two lanes' elements; the special values of P are those of R60 (R168). -/
def dotFloat (ff : FF) (c : Capture) (l : Nat) (a b d : Lane) : Lane × Flags :=
  let ps := ((packedFloat ff c.fzi a).zip (packedFloat ff c.fzi b)).map fun p => p.1.mul p.2
  let (v, fl) := specialSum ps
  let (r, fr) := f32.roundSum c c.fzo l 0 (f32.read c.fzi d.toNat :: v.elim (ps.map (·.1)) ([·]))
  (BitVec.ofNat 32 r, fl ||| fr)

def dotInt (pf : DotFmt) (sat : Bool) (a b d : Lane) : Lane :=
  intLane .s32 sat (d.toInt + (((packedInt pf a).zip (packedInt pf b)).map fun p => p.1 * p.2).sum)

/-- The floating format of an element type. -/
def eltFF : Elt → Option FF
  | .e4m3 => some e4m3
  | .e5m2 => some e5m2
  | .bf16 => some bf16
  | .f16 => some f16
  | .f32 => some f32
  | _ => none

/-- Width and sign of an integer element type. -/
def eltWidth : Elt → Nat × Bool
  | .s8 => (8, true)
  | .n8 => (8, false)
  | .s16 => (16, true)
  | .s32 => (32, true)
  | _ => (32, false)

/-- One conversion of `vcvt` (R173). -/
def cvtLane (dst src : Elt) (c : Capture) (l : Nat) (a : Lane) : Lane × Flags :=
  let (sw, ss) := eltWidth src
  let iv : Int := if ss then (a.setWidth sw).toInt else (a.setWidth sw).toNat
  let (dw, ds) := eltWidth dst
  match eltFF dst, eltFF src with
  | some df, some sf => floatLane (df.convert sf c l 0 (a.toNat % 2 ^ sf.width))
  | some df, none => floatLane (df.ofInt c l 0 iv)
  | none, some sf =>
    let (r, fl) := sf.toInt c l 0 dw ds (a.toNat % 2 ^ sf.width)
    (BitVec.ofInt 32 r, fl)
  | none, none => (BitVec.ofInt 32 (clampInt dw ds iv), 0)

/-- Pack the blocks of a vector (R175): for each block, its code bytes' lanes and its scale byte. -/
def packVec (ty : B4Ty) (x : Slot) (n : Nat) (c : Capture) (a : VReg) : List Lane × Flags :=
  let blocks := (List.range (n / 32)).map fun b =>
    b4Pack ty c.mode ((List.range 32).map fun i =>
      let l := 32 * b + i
      (f32.read c.fzi (x.getV a l).toNat, threshold c l 0))
  let code (b i : Nat) : Nat := ((blocks.getD b (0, [], 0)).2.1).getD i 0
  let lane (l : Nat) : Nat :=
    if l < n / 8 then ((List.range 8).map fun j => code (l / 4) (8 * (l % 4) + j) * 16 ^ j).sum
    else ((List.range 4).map fun j =>
      if (l - n / 8) * 4 + j < n / 32 then (blocks.getD ((l - n / 8) * 4 + j) (0, [], 0)).1 * 256 ^ j else 0).sum
  ((List.range n).map fun l => BitVec.ofNat 32 (lane l), orFlags (blocks.map (·.2.2)))

/-- The value of element `l` of a packed vector as FP32 (R176). -/
def unpackLane (x : Slot) (n : Nat) (a : VReg) (l : Nat) : Lane :=
  let b := l / 32
  let i := l % 32
  let scale := (x.getV a (n / 8 + b / 4)).toNat / 256 ^ (b % 4) % 256
  let code := (x.getV a (4 * b + i / 8)).toNat / 16 ^ (i % 8) % 16
  match b4Val scale code with
  | .fin neg m e => BitVec.ofNat 32 (f32.pack neg m e)
  | _ => BitVec.ofNat 32 f32.qnan

/-! ### Trees (R64, R65, R177) -/

/-- One node of a reduction or scan: the result and its flags.  A node over floats is an FP32 addition of its own: it reads its inputs under
FZI and flushes its sum under FZO, inner nodes too (DEDUCED log 76). -/
def redNode (op : RedOp) (lt : LaneTy) (sat : Bool) (c : Capture) (l g : Nat) (a b : Lane) : Lane × Flags :=
  match op, lt with
  | .add, .f32 => floatLane (f32.add c l g a.toNat b.toNat)
  | .add, _ => (intLane lt sat (laneInt lt a + laneInt lt b), 0)
  | .min, .f32 => floatLane (f32.minmax c.fzi false a.toNat b.toNat)
  | .max, .f32 => floatLane (f32.minmax c.fzi true a.toNat b.toNat)
  | .min, _ => (pickLane lt false a b, 0)
  | .max, _ => (pickLane lt true a b, 0)
  | .or, _ => (a ||| b, 0)

/-- A lane as the tree reads it: a float is read under FZI, and a NaN is delivered as the canonical one, with NV where it is signalling, also
where no node combines it (R45, R47, R64) (DEDUCED log 76). -/
def redLeaf (lt : LaneTy) (c : Capture) (a : Lane) : Lane × Flags :=
  match lt with
  | .f32 =>
    match f32.read c.fzi a.toNat with
    | .nan sig => (BitVec.ofNat 32 f32.qnan, if sig then fNV else 0)
    | .fin neg m e => (BitVec.ofNat 32 (f32.pack neg m e), 0)
    | .inf _ => (a, 0)
  | _ => (a, 0)

/-- What a tree delivers: FZO replaces a subnormal sum, also one that no node has rounded (R47) (DEDUCED log 76). -/
def redResult (op : RedOp) (lt : LaneTy) (c : Capture) (r : Lane × Flags) : Lane × Flags :=
  match op, lt with
  | .add, .f32 =>
    match f32.read false r.1.toNat with
    | .fin neg m e =>
      if c.fzo && m != 0 && m < 2 ^ f32.p && e == f32.emin - f32.p then
        (BitVec.ofNat 32 (if neg then f32.signBit else 0), r.2 ||| fUF ||| fNX)
      else r
    | _ => r
  | _, _ => r

/-- A node of the tree: absent, or its value and every flag raised below it. -/
abbrev TreeNode := Option (Lane × Flags)

/-- Combine two nodes; an absent one gives the other (R64) (DEDUCED log 26). -/
def joinNodes (f : Lane → Lane → Lane × Flags) (a b : TreeNode) : TreeNode :=
  match a, b with
  | none, b => b
  | a, none => a
  | some (x, fx), some (y, fy) => let (r, fr) := f x y; some (r, fx ||| fy ||| fr)

/-- The next level of the tree: `j` is the level below. -/
def nextLevel (f : Nat → Nat → Lane → Lane → Lane × Flags) (j : Nat) (ns : List TreeNode) : List TreeNode :=
  (List.range (ns.length / 2)).map fun i =>
    joinNodes (f (2 ^ (j + 1) * i) (j + 1)) (ns.getD (2 * i) none) (ns.getD (2 * i + 1) none)

/-- All levels of the tree from the lanes up (R64). -/
def treeLevels (f : Nat → Nat → Lane → Lane → Lane × Flags) : Nat → Nat → List TreeNode → List (List TreeNode)
  | 0, _, ns => [ns]
  | k + 1, j, ns => ns :: treeLevels f k (j + 1) (nextLevel f j ns)

/-- The lanes of a vector as the lowest level. -/
def treeLeaves (h : VHdr) (x : Slot) (n : Nat) (lt : LaneTy) (c : Capture) (a : VReg) : List TreeNode :=
  (List.range n).map fun l => if laneOn h x n l then some (redLeaf lt c (x.getV a l)) else none

/-- The top of the tree. -/
def treeTop (levels : List (List TreeNode)) : TreeNode := (levels.getLastD []).getD 0 none

/-- The value of `vred` with no active lane (R177). -/
def redIdentity (op : RedOp) (lt : LaneTy) : Lane :=
  match op, lt with
  | .min, .f32 => 0x7F800000
  | .min, .s32 => 0x7FFFFFFF
  | .min, .n32 => 0xFFFFFFFF
  | .max, .f32 => 0xFF800000
  | .max, .s32 => 0x80000000
  | _, _ => 0

/-- The prefix of lane `l`: its aligned blocks from the highest down (R65). -/
def scanLane (f : Nat → Nat → Lane → Lane → Lane × Flags) (levels : List (List TreeNode)) (l : Nat) : TreeNode :=
  let step (acc : TreeNode × Nat) (j : Nat) : TreeNode × Nat :=
    if (l + 1).testBit j then
      (joinNodes (f l (32 + j)) acc.1 ((levels.getD j []).getD (acc.2 / 2 ^ j) none), acc.2 + 2 ^ j)
    else acc
  ((List.range levels.length).reverse.foldl step (none, 0)).1

/-- log2 of the number of lanes. -/
def lanesLog (n : Nat) : Nat := n.log2

/-! ### What each instruction gives (R167 to R178) -/

/-- `vadd`: A + B (R167). -/
def vaddOut (o : SlabOp) (x : Slot) (n : Nat) (v : VHdr) (lt : LaneTy) (sat : Bool) (d : VReg) (a : VReg) (b : VReg) : VOut :=
    lanewise v x n lt d a b (f32.add o.cap · 0) fun p q => intLane lt sat (laneInt lt p + laneInt lt q)

/-- `vsub`: A - B (R167). -/
def vsubOut (o : SlabOp) (x : Slot) (n : Nat) (v : VHdr) (lt : LaneTy) (sat : Bool) (d : VReg) (a : VReg) (b : VReg) : VOut :=
    lanewise v x n lt d a b (f32.sub o.cap · 0) fun p q => intLane lt sat (laneInt lt p - laneInt lt q)

/-- `vmul`: A B (R167). -/
def vmulOut (o : SlabOp) (x : Slot) (n : Nat) (v : VHdr) (lt : LaneTy) (sat : Bool) (d : VReg) (a : VReg) (b : VReg) : VOut :=
    lanewise v x n lt d a b (f32.mul o.cap · 0) fun p q => intLane lt sat (laneInt lt p * laneInt lt q)

/-- `vfma`: the product, negated under NEG, plus D (R167). -/
def vfmaOut (o : SlabOp) (x : Slot) (n : Nat) (v : VHdr) (lt : LaneTy) (neg : Bool) (sat : Bool) (d : VReg) (a : VReg) (b : VReg) : VOut :=
    perLane v x n d fun l =>
      let p := x.getV a l
      let q := x.getV b l
      let t := x.getV d l
      match lt with
      | .f32 => floatLane (f32.fma o.cap l 0 neg p.toNat q.toNat t.toNat)
      | _ => (intLane lt sat ((if neg then -(laneInt lt p * laneInt lt q) else laneInt lt p * laneInt lt q) + laneInt lt t), 0)

/-- `vdot`: D plus the products of packed elements (R168). -/
def vdotOut (o : SlabOp) (x : Slot) (n : Nat) (v : VHdr) (pf : DotFmt) (sat : Bool) (d : VReg) (a : VReg) (b : VReg) : VOut :=
    perLane v x n d fun l =>
      match pf with
      | .bf16 => dotFloat Machine.bf16 o.cap l (x.getV a l) (x.getV b l) (x.getV d l)
      | .f16 => dotFloat Machine.f16 o.cap l (x.getV a l) (x.getV b l) (x.getV d l)
      | _ => (dotInt pf sat (x.getV a l) (x.getV b l) (x.getV d l), 0)

/-- `vdiv`: A / B (R167). -/
def vdivOut (o : SlabOp) (x : Slot) (n : Nat) (v : VHdr) (lt : LaneTy) (d : VReg) (a : VReg) (b : VReg) : VOut :=
    lanewise v x n lt d a b (f32.div o.cap · 0) (divLane lt)

/-- `vsqrt`: the square root (R167). -/
def vsqrtOut (o : SlabOp) (x : Slot) (n : Nat) (v : VHdr) (d : VReg) (a : VReg) : VOut :=
    perLane v x n d fun l => floatLane (f32.sqrt o.cap l 0 (x.getV a l).toNat)

/-- `vmin`: the lesser (R167). -/
def vminOut (o : SlabOp) (x : Slot) (n : Nat) (v : VHdr) (lt : LaneTy) (d : VReg) (a : VReg) (b : VReg) : VOut :=
    lanewise v x n lt d a b (fun _ p q => f32.minmax o.cap.fzi false p q) (pickLane lt false)

/-- `vmax`: the greater (R167). -/
def vmaxOut (o : SlabOp) (x : Slot) (n : Nat) (v : VHdr) (lt : LaneTy) (d : VReg) (a : VReg) (b : VReg) : VOut :=
    lanewise v x n lt d a b (fun _ p q => f32.minmax o.cap.fzi true p q) (pickLane lt true)

/-- `vabs`: the absolute value (R167). -/
def vabsOut (_ : SlabOp) (x : Slot) (n : Nat) (v : VHdr) (lt : LaneTy) (sat : Bool) (d : VReg) (a : VReg) : VOut :=
    lanewise v x n lt d a a (fun _ p _ => (f32.sgn .abs p 0, 0)) fun p _ =>
      intLane lt sat (laneInt lt p).natAbs

/-- `vneg`: the negative (R167). -/
def vnegOut (_ : SlabOp) (x : Slot) (n : Nat) (v : VHdr) (lt : LaneTy) (sat : Bool) (d : VReg) (a : VReg) : VOut :=
    lanewise v x n lt d a a (fun _ p _ => (f32.sgn .neg p 0, 0)) fun p _ => intLane lt sat (-(laneInt lt p))

/-- `vsgn`: a sign operation (R167). -/
def vsgnOut (_ : SlabOp) (x : Slot) (n : Nat) (v : VHdr) (op : SgnOp) (d : VReg) (a : VReg) (b : VReg) : VOut :=
    bitwise v x n d a b fun p q => BitVec.ofNat 32 (f32.sgn op p.toNat q.toNat)

/-- `vand`: bitwise and (R167). -/
def vandOut (_ : SlabOp) (x : Slot) (n : Nat) (v : VHdr) (d : VReg) (a : VReg) (b : VReg) : VOut :=
    bitwise v x n d a b fun p q => p &&& q

/-- `vor`: bitwise or (R167). -/
def vorOut (_ : SlabOp) (x : Slot) (n : Nat) (v : VHdr) (d : VReg) (a : VReg) (b : VReg) : VOut :=
    bitwise v x n d a b fun p q => p ||| q

/-- `vxor`: bitwise exclusive or (R167). -/
def vxorOut (_ : SlabOp) (x : Slot) (n : Nat) (v : VHdr) (d : VReg) (a : VReg) (b : VReg) : VOut :=
    bitwise v x n d a b fun p q => p ^^^ q

/-- `vshl`: shift left (R167). -/
def vshlOut (_ : SlabOp) (x : Slot) (n : Nat) (v : VHdr) (d : VReg) (a : VReg) (b : VReg) : VOut :=
    bitwise v x n d a b fun p q => p <<< (q.toNat % 32)

/-- `vshr`: shift right (R167). -/
def vshrOut (_ : SlabOp) (x : Slot) (n : Nat) (v : VHdr) (d : VReg) (a : VReg) (b : VReg) : VOut :=
    bitwise v x n d a b fun p q => p >>> (q.toNat % 32)

/-- `vsar`: arithmetic shift right (R167). -/
def vsarOut (_ : SlabOp) (x : Slot) (n : Nat) (v : VHdr) (d : VReg) (a : VReg) (b : VReg) : VOut :=
    bitwise v x n d a b fun p q => p.sshiftRight (q.toNat % 32)

/-- `vcnt`: a bit count (R167). -/
def vcntOut (_ : SlabOp) (x : Slot) (n : Nat) (v : VHdr) (op : CntOp) (d : VReg) (a : VReg) : VOut :=
    plainLanes v x n d fun l => cntLane op (x.getV a l)

/-- `vcmp`: a comparison into a mask (R169). -/
def vcmpOut (o : SlabOp) (x : Slot) (n : Nat) (v : VHdr) (cond : VCmp) (d : MReg) (a : VReg) (b : VReg) : VOut :=
    let one (l : Nat) : Bool × Flags :=
      if laneOn v x n l then
        let p := x.getV a l
        let q := x.getV b l
        match cond with
        | .n32 k => (k.holds p.toNat q.toNat, 0)
        | .s32 k => (k.holds p.toInt q.toInt, 0)
        | .f32 k => f32.compare o.cap.fzi k p.toNat q.toNat
      else (!v.z && (x.getM n d).getLsbD l, 0)
    let rs := (List.range n).map one
    { m := some (d, BitVec.ofBoolListLE (rs.map (·.1)) |>.setWidth 256), fl := orFlags (rs.map (·.2)) }

/-- `vsel`: a choice by a mask (R170). -/
def vselOut (_ : SlabOp) (x : Slot) (n : Nat) (d : VReg) (a : VReg) (b : VReg) (k : MReg) : VOut :=
    { v := some (d, (List.range n).map fun l => if (x.getM n k).getLsbD l then x.getV a l else x.getV b l) }

/-- `vmsk`: a truth table of masks (R171). -/
def vmskOut (_ : SlabOp) (x : Slot) (n : Nat) (tt : BitVec 4) (d : MReg) (a : MReg) (b : MReg) : VOut :=
    { m := some (d, BitVec.ofBoolListLE ((List.range n).map fun l =>
        truth tt ((x.getM n a).getLsbD l) ((x.getM n b).getLsbD l)) |>.setWidth 256) }

/-- `vmskCnt`: the number of set bits (R171). -/
def vmskCntOut (_ : SlabOp) (x : Slot) (n : Nat) (d : Reg) (a : MReg) : VOut :=
    { g := some (d, BitVec.ofNat 64 ((List.range n).filter fun l => (x.getM n a).getLsbD l).length) }

/-- `vmskFfs`: the lowest set lane (R171). -/
def vmskFfsOut (_ : SlabOp) (x : Slot) (n : Nat) (d : Reg) (a : MReg) : VOut :=
    { g := some (d, BitVec.ofNat 64 (((List.range n).find? fun l => (x.getM n a).getLsbD l).getD n)) }

/-- `vmskFirst`: a mask of the first lanes (R171). -/
def vmskFirstOut (o : SlabOp) (_ : Slot) (n : Nat) (d : MReg) : VOut :=
    { m := some (d, BitVec.ofNat 256 (2 ^ Nat.min (arg o.args 0).toNat n - 1)) }

/-- `vcvt`: a conversion (R173). -/
def vcvtOut (o : SlabOp) (x : Slot) (n : Nat) (v : VHdr) (dst : Elt) (src : Elt) (d : VReg) (a : VReg) : VOut :=
    perLane v x n d fun l => cvtLane dst src o.cap l (x.getV a l)

/-- `vsat`: a clamp (R174). -/
def vsatOut (_ : SlabOp) (x : Slot) (n : Nat) (v : VHdr) (sg : Bool) (ty : IntTy) (d : VReg) (a : VReg) : VOut :=
    plainLanes v x n d fun l =>
      BitVec.ofInt 32 (clampInt ty.bits ty.signed (laneInt (if sg then .s32 else .n32) (x.getV a l)))

/-- `vpack`: packing into B4 (R175). -/
def vpackOut (o : SlabOp) (x : Slot) (n : Nat) (ty : B4Ty) (d : VReg) (a : VReg) : VOut :=
    let (ls, fl) := packVec ty x n o.cap a
    { v := some (d, ls), fl }

/-- `vunpk`: unpacking from B4 (R176). -/
def vunpkOut (_ : SlabOp) (x : Slot) (n : Nat) (d : VReg) (a : VReg) : VOut :=
    { v := some (d, (List.range n).map (unpackLane x n a)) }

/-- `vperm`: a permutation (R172). -/
def vpermOut (_ : SlabOp) (x : Slot) (n : Nat) (v : VHdr) (d : VReg) (a : VReg) (b : VReg) : VOut :=
    plainLanes v x n d fun l => if (x.getV b l).toNat < n then x.getV a (x.getV b l).toNat else 0

/-- `vshf`: a window of two vectors (R172). -/
def vshfOut (_ : SlabOp) (x : Slot) (n : Nat) (v : VHdr) (d : VReg) (a : VReg) (b : VReg) (i : Imm) : VOut :=
    plainLanes v x n d fun l =>
      let k := l + i.zext.toNat
      if k < n then x.getV a k else x.getV b (k - n)

/-- `vbcast`: a broadcast (R172). -/
def vbcastOut (o : SlabOp) (x : Slot) (n : Nat) (v : VHdr) (d : VReg) : VOut :=
    plainLanes v x n d fun _ => (arg o.args 0).setWidth 32

/-- `vins`: one lane inserted (R172). -/
def vinsOut (o : SlabOp) (x : Slot) (n : Nat) (d : VReg) (i : Imm) : VOut :=
    let k := (arg o.args 1 + i.zext).toNat
    { v := some (d, (List.range n).map fun l => if l = k then (arg o.args 0).setWidth 32 else x.getV d l) }

/-- `vext`: one lane read (R172). -/
def vextOut (o : SlabOp) (x : Slot) (n : Nat) (sg : Bool) (d : Reg) (a : VReg) (i : Imm) : VOut :=
    let k := (arg o.args 0 + i.zext).toNat
    let y := x.getV a k
    { g := some (d, if k < n then (if sg then y.signExtend 64 else y.zeroExtend 64) else 0) }

/-- `vidx`: an arithmetic sequence (R172). -/
def vidxOut (o : SlabOp) (x : Slot) (n : Nat) (v : VHdr) (d : VReg) (i : Imm) : VOut :=
    plainLanes v x n d fun l => ((arg o.args 0) + BitVec.ofNat 64 l * i.sext).setWidth 32

/-- `vmov`: a move (R170). -/
def vmovOut (_ : SlabOp) (x : Slot) (n : Nat) (v : VHdr) (d : VReg) (a : VReg) : VOut :=
    plainLanes v x n d fun l => x.getV a l

/-- `vred`: a tree reduction (R177). -/
def vredOut (o : SlabOp) (x : Slot) (n : Nat) (v : VHdr) (op : RedOp) (lt : LaneTy) (sat : Bool) (d : Reg) (a : VReg) : VOut :=
    let top := treeTop (treeLevels (redNode op lt sat o.cap) (lanesLog n) 0 (treeLeaves v x n lt o.cap a))
    let (r, fl) := (top.map (redResult op lt o.cap)).getD (redIdentity op lt, 0)
    { g := some (d, if lt = .s32 then r.signExtend 64 else r.zeroExtend 64), fl }

/-- `vscan`: a tree scan (R177); the nodes of the tree are all formed, so their flags are raised too (R64, R65) (DEDUCED log 26). -/
def vscanOut (o : SlabOp) (x : Slot) (n : Nat) (v : VHdr) (op : RedOp) (lt : LaneTy) (sat : Bool) (d : VReg) (a : VReg) : VOut :=
    let levels := treeLevels (redNode op lt sat o.cap) (lanesLog n) 0 (treeLeaves v x n lt o.cap a)
    let r := perLane v x n d fun l => redResult op lt o.cap ((scanLane (redNode op lt sat o.cap) levels l).getD (0, 0))
    { r with fl := r.fl ||| ((treeTop levels).getD (0, 0)).2 }

/-- `vrcp`: the reciprocal (R67, R178). -/
def vrcpOut (o : SlabOp) (x : Slot) (n : Nat) (v : VHdr) (d : VReg) (a : VReg) : VOut :=
    perLane v x n d fun l => floatLane (fRcp o.cap l (x.getV a l).toNat)

/-- `vrsq`: the reciprocal square root (R68, R178). -/
def vrsqOut (o : SlabOp) (x : Slot) (n : Nat) (v : VHdr) (d : VReg) (a : VReg) : VOut :=
    perLane v x n d fun l => floatLane (fRsq o.cap l (x.getV a l).toNat)

/-- `vexp2`: the power of two (R69, R178). -/
def vexp2Out (o : SlabOp) (x : Slot) (n : Nat) (v : VHdr) (d : VReg) (a : VReg) : VOut :=
    perLane v x n d fun l => floatLane (fExp2 o.cap l (x.getV a l).toNat)

/-- `vlog2`: the binary logarithm (R70, R178). -/
def vlog2Out (o : SlabOp) (x : Slot) (n : Nat) (v : VHdr) (d : VReg) (a : VReg) : VOut :=
    perLane v x n d fun l => floatLane (fLog2 o.cap l (x.getV a l).toNat)

/-- What a vector instruction that accesses no memory gives. -/
def vecOut (o : SlabOp) (x : Slot) (n : Nat) : Option VOut :=
  match o.instr with
  | .vadd v lt sat _ d a b => some (vaddOut o x n v lt sat d a b)
  | .vsub v lt sat _ d a b => some (vsubOut o x n v lt sat d a b)
  | .vmul v lt sat _ d a b => some (vmulOut o x n v lt sat d a b)
  | .vfma v lt neg sat _ d a b => some (vfmaOut o x n v lt neg sat d a b)
  | .vdot v pf sat _ d a b => some (vdotOut o x n v pf sat d a b)
  | .vdiv v lt _ d a b => some (vdivOut o x n v lt d a b)
  | .vsqrt v _ d a => some (vsqrtOut o x n v d a)
  | .vmin v lt d a b => some (vminOut o x n v lt d a b)
  | .vmax v lt d a b => some (vmaxOut o x n v lt d a b)
  | .vabs v lt sat d a => some (vabsOut o x n v lt sat d a)
  | .vneg v lt sat d a => some (vnegOut o x n v lt sat d a)
  | .vsgn v op d a b => some (vsgnOut o x n v op d a b)
  | .vand v d a b => some (vandOut o x n v d a b)
  | .vor v d a b => some (vorOut o x n v d a b)
  | .vxor v d a b => some (vxorOut o x n v d a b)
  | .vshl v d a b => some (vshlOut o x n v d a b)
  | .vshr v d a b => some (vshrOut o x n v d a b)
  | .vsar v d a b => some (vsarOut o x n v d a b)
  | .vcnt v op d a => some (vcntOut o x n v op d a)
  | .vcmp v cond d a b => some (vcmpOut o x n v cond d a b)
  | .vsel _ d a b k => some (vselOut o x n d a b k)
  | .vmsk _ tt d a b => some (vmskOut o x n tt d a b)
  | .vmskCnt _ d a => some (vmskCntOut o x n d a)
  | .vmskFfs _ d a => some (vmskFfsOut o x n d a)
  | .vmskFirst _ d _ => some (vmskFirstOut o x n d)
  | .vcvt v dst src _ d a => some (vcvtOut o x n v dst src d a)
  | .vsat v sg ty d a => some (vsatOut o x n v sg ty d a)
  | .vpack _ ty _ d a => some (vpackOut o x n ty d a)
  | .vunpk _ d a => some (vunpkOut o x n d a)
  | .vperm v d a b => some (vpermOut o x n v d a b)
  | .vshf v d a b i => some (vshfOut o x n v d a b i)
  | .vbcast v d _ => some (vbcastOut o x n v d)
  | .vins _ d _ _ i => some (vinsOut o x n d i)
  | .vext _ sg d a _ i => some (vextOut o x n sg d a i)
  | .vidx v d _ i => some (vidxOut o x n v d i)
  | .vmov v d a => some (vmovOut o x n v d a)
  | .vred v op lt sat _ d a => some (vredOut o x n v op lt sat d a)
  | .vscan v op lt sat _ d a => some (vscanOut o x n v op lt sat d a)
  | .vrcp v _ d a => some (vrcpOut o x n v d a)
  | .vrsq v _ d a => some (vrsqOut o x n v d a)
  | .vexp2 v _ d a => some (vexp2Out o x n v d a)
  | .vlog2 v _ d a => some (vlog2Out o x n v d a)
  | _ => none

/-- The governing fields of a vector instruction, if it has them (R157). -/
def vecHdr (i : Instr) : Option VHdr :=
  match i with
  | .vld v .. | .vst v .. | .vlds v .. | .vsts v .. | .vldc v .. | .vgth v .. | .vsct v .. | .vrst v .. | .vamo v .. | .vadd v ..
  | .vsub v .. | .vmul v .. | .vfma v .. | .vdot v .. | .vdiv v .. | .vsqrt v .. | .vmin v .. | .vmax v .. | .vabs v ..
  | .vneg v .. | .vsgn v .. | .vand v .. | .vor v .. | .vxor v .. | .vshl v .. | .vshr v .. | .vsar v .. | .vcnt v ..
  | .vcmp v .. | .vcvt v .. | .vsat v .. | .vpack v .. | .vunpk v .. | .vperm v .. | .vshf v .. | .vbcast v .. | .vins v ..
  | .vidx v .. | .vmov v .. | .vred v .. | .vscan v .. | .vrcp v .. | .vrsq v .. | .vexp2 v .. | .vlog2 v .. => some v
  | _ => none

/-- Whether an instruction leaves lane `l` of its destination as it stands: an inactive one without Z, and every lane but one under `vins`
(R157, R172). -/
def keepsLane (o : SlabOp) (x : Slot) (n l : Nat) : Bool :=
  match o.instr with
  | .vins _ _ _ _ i => arg o.args 1 + i.zext != BitVec.ofNat 64 l
  | i => (vecHdr i).any fun v => !v.z && !laneOn v x n l

/-- Write what a vector instruction gives, to both slots of a pair; a lane that it keeps is not written. -/
def putOut (s : State) (o : SlabOp) (n : Nat) (r : VOut) : State :=
  modOp s o fun x =>
    let keeps := keepsLane o x n
    let x1 := match r.v with
      | some (d, ls) => (List.range n).foldl (fun y l => if keeps l then y else y.setV d l (ls.getD l 0)) x
      | none => x
    let x2 := match r.m with
      | some (d, m) =>
        if (List.range n).any keeps && x1.bad.get false (badMask d.toNat) then
          let y := x1.setM n d m
          { y with bad := y.bad.put (badMask d.toNat) true }
        else x1.setM n d m
      | none => x1
    match r.g with
    | some (d, w) => x2.setG d w
    | none => x2

/-! ### Registers that hold an error (R389) -/

/-- The vector registers that an instruction reads in its active lanes, and those of which it may read any lane. -/
def vecReads (i : Instr) : List VReg × List VReg :=
  match i with
  | .vst _ _ d _ _ | .vsts _ _ d _ _ _ | .vrst _ _ _ d _ _ _ => ([d], [])
  | .vgth _ _ _ _ _ b _ => ([b], [])
  | .vsct _ _ _ d _ b _ | .vamo _ _ _ _ d _ b _ => ([d, b], [])
  | .vadd _ _ _ _ _ a b | .vsub _ _ _ _ _ a b | .vmul _ _ _ _ _ a b | .vdiv _ _ _ _ a b | .vmin _ _ _ a b | .vmax _ _ _ a b
  | .vand _ _ a b | .vor _ _ a b | .vxor _ _ a b | .vshl _ _ a b | .vshr _ _ a b | .vsar _ _ a b
  | .vcmp _ _ _ a b => ([a, b], [])
  | .vfma _ _ _ _ _ d a b | .vdot _ _ _ _ d a b => ([d, a, b], [])
  | .vsqrt _ _ _ a | .vabs _ _ _ _ a | .vneg _ _ _ _ a | .vcnt _ _ _ a | .vcvt _ _ _ _ _ a | .vsat _ _ _ _ a | .vmov _ _ a
  | .vred _ _ _ _ _ _ a | .vscan _ _ _ _ _ _ a | .vrcp _ _ _ a | .vrsq _ _ _ a | .vexp2 _ _ _ a | .vlog2 _ _ _ a => ([a], [])
  | .vsgn _ op _ a b => (if sgnReadsB op then [a, b] else [a], [])
  | .vperm _ _ a b => ([b], [a])
  | .vshf _ _ a b _ | .vsel _ _ a b _ => ([], [a, b])
  | .vext _ _ _ a _ _ | .vpack _ _ _ _ a | .vunpk _ _ a => ([], [a])
  | _ => ([], [])

/-- The mask registers that an instruction reads. -/
def maskReads (i : Instr) : List MReg :=
  (vecHdr i).toList.map (·.mask) ++
    match i with
    | .vsel _ _ _ _ k => [k]
    | .vmsk _ _ _ a b => [a, b]
    | .vmskCnt _ _ a | .vmskFfs _ _ a => [a]
    | _ => []

/-- Whether a vector instruction reads a register that holds an error that cannot be corrected (R389) (DESIGN CHOICE log 79). -/
def badVector (x : Slot) (n : Nat) (i : Instr) : Bool :=
  let lane (l : Nat) (r : VReg) : Bool := x.bad.get false (badLane r.toNat l)
  let on (l : Nat) : Bool := (vecHdr i).all fun v => laneOn v x n l
  !x.bad.isEmpty &&
    ((maskReads i).any (fun m => m != 7 && x.bad.get false (badMask m.toNat)) ||
      (List.range n).any fun l => (on l && (vecReads i).1.any (lane l)) || (vecReads i).2.any (lane l))

/-! ### Vector memory (R162 to R165) -/

/-- The governing fields of a vector memory instruction and the vector it loads into, if it loads. -/
def vecMem (i : Instr) : Option (VHdr × Option VReg) :=
  match i with
  | .vld v _ d _ _ | .vlds v _ d _ _ _ | .vldc v _ d _ _ | .vgth v _ _ d _ _ _ | .vamo v _ _ _ d _ _ _ => some (v, some d)
  | .vst v _ _ _ _ | .vsts v _ _ _ _ _ | .vsct v _ _ _ _ _ _ | .vrst v _ _ _ _ _ _ => some (v, none)
  | _ => none

/-- The effective address of lane `l` (R162). -/
def laneAddr (i : Instr) (args : List Word) (x : Slot) (l : Nat) : Word :=
  let at_ (i : Imm) (step : Word) : Word := arg args 0 + i.sext + step
  match i with
  | .vld _ ty _ _ i | .vst _ ty _ _ i | .vldc _ ty _ _ i => at_ i (BitVec.ofNat 64 (l * ty.bytes))
  | .vlds _ _ _ _ _ i | .vsts _ _ _ _ _ i => at_ i (BitVec.ofNat 64 l * arg args 1)
  | .vgth _ _ sc _ _ b i | .vsct _ _ sc _ _ b i | .vamo _ _ _ sc _ _ b i =>
    at_ i ((x.getV b l).signExtend 64 <<< sc.toNat)
  | .vrst _ _ ty _ _ _ i => arg args 1 + BitVec.ofNat 64 (l * ty.bytes) + i.zext
  | _ => 0

/-- The address of lane `l` of a dispatched instruction. -/
def laneEa (o : SlabOp) (x : Slot) (l : Nat) : Word := laneAddr o.instr o.args x l

/-- Bank turns still to come: the aligned runs of 256 bytes that the active lanes from one on meet, as registers stand (R182, R277)
(DESIGN CHOICE log 19). -/
def vecTurns (s : State) (k : Nat) (i : Instr) (args : List Word) (from_ : Nat) : Nat :=
  match vecMem i with
  | none => 0
  | some (h, _) =>
    let n := lanes (s.core (coreOf k)).gangw
    let x := s.slot k
    (((List.range n).filter fun l => from_ ≤ l && laneOn h x n l).map fun l => (laneAddr i args x l).toNat / 256).dedup.length

/-- Load one element into lane `l` of a vector (R162). -/
def laneLoad (s : State) (o : SlabOp) (ty : IntTy) (d : VReg) (l : Nat) (r : Word × State) : State :=
  modOp r.2 { o with slot := s.cur } fun x => x.setV d l ((ty.val r.1).setWidth 32)

/-- A lane read on the constant path (R138, R163). -/
def constLane (s : State) (ea : Word) (n : Nat) : Except Stop (Word × State) := do
  let key ← check s s.cur ea n rR
  if isScratchKey key then loadAt s ea n
  else if pathBusy s key then .error (.path ea rR)
  else
    let (bs, ps, t) := constBytes (plbFill s s.myCore key s.owner ((window s s.cur ea).getD .global) ea) s.cur key n
    if ps.any id then .error (.fault ⟨.poison, ea, rR⟩ t) else .ok (BitVec.ofNat 64 (leWord bs), t)

/-- Perform active lane `l` of a vector memory instruction, with `cur` its slot (R163, R165). -/
def lanePerform (s : State) (o : SlabOp) (l : Nat) : Except Stop (State × Flags) := do
  let x := s.me
  let ea := laneEa o x l
  match o.instr with
  | .vld _ ty d _ _ | .vlds _ ty d _ _ _ | .vgth _ ty _ d _ _ _ =>
    let r ← loadAt s ea ty.bytes
    .ok (laneLoad s o ty d l r, 0)
  | .vldc _ ty d _ _ =>
    let r ← constLane s ea ty.bytes
    .ok (laneLoad s o ty d l r, 0)
  | .vst _ ty d _ _ | .vsts _ ty d _ _ _ | .vsct _ ty _ d _ _ _ =>
    let t ← storeAt s ea ty.bytes ((x.getV d l).zeroExtend 64)
    .ok (t, 0)
  | .vamo _ op ty _ d _ _ _ =>
    let c : Word := (x.getV d l).zeroExtend 64
    let new (old : Word) : Word × Flags :=
      match op with
      | .fadd => let (r, fl) := f32.add o.cap l 0 (lowBits f32 old) (lowBits f32 c); (BitVec.ofNat 64 r, fl)
      | _ => (amoInt op ty old c, 0)
    let (old, t) ← updateAt s ea ty.bytes fun old s => .ok (some (new old).1, s)
    .ok (laneLoad s o ty d l (old, t), (new old).2)
  | .vrst _ _ ty d _ _ i =>
    let at_ ← placeEa (arg o.args 0) (arg o.args 1 + BitVec.ofNat 64 (l * ty.bytes)) i
    let t ← storeAt s at_ ty.bytes ((x.getV d l).zeroExtend 64)
    .ok (t, 0)
  | _ => .ok (s, 0)

/-- The l-th access of a vector memory instruction; an inactive lane does nothing (R160). -/
def laneAccess (s : State) (o : SlabOp) (h : VHdr) (n l : Nat) : Access :=
  if laneOn h (s.slot o.slot) n l then
    (Access.of (lanePerform { s with cur := o.slot } o l)).from_ s.cur
  else .performed s 0

/-- What a vector memory instruction does after its last lane: inactive lanes under Z, and the wake of `vrst` (R157, R165). -/
def vecMemEnd (s : State) (o : SlabOp) (h : VHdr) (d : Option VReg) (n : Nat) : State :=
  let s1 := match d with
    | some d =>
      if h.z then modOp s o fun x =>
        (List.range n).foldl (fun x l => if laneOn h x n l then x else x.setV d l 0) x
      else s
    | none => s
  match o.instr with
  | .vrst _ wk _ _ _ _ _ => { wakePlace { s1 with cur := o.slot } wk (arg o.args 0) with cur := s.cur }
  | _ => s1

/-! ### Dispatch -/

/-- The execution time of a vector instruction that accesses no memory (R161). -/
def vecCost (i : Instr) (n : Nat) : Nat :=
  let byLane (lt : LaneTy) (int flt : Nat) : Nat := if lt = .f32 then flt else int
  match i with
  | .vadd _ lt _ _ _ _ _ | .vsub _ lt _ _ _ _ _ | .vmin _ lt _ _ _ | .vmax _ lt _ _ _ => byLane lt 2 4
  | .vcmp _ k _ _ _ => byLane k.lane 2 4
  | .vmul .. | .vfma .. | .vdot .. | .vcvt .. => 4
  | .vperm .. | .vshf .. | .vpack .. | .vunpk .. => 6
  | .vred .. | .vscan .. => 4 + 2 * lanesLog n
  | .vrcp .. | .vrsq .. | .vexp2 .. | .vlog2 .. => 14
  | .vdiv _ lt _ _ _ _ => byLane lt 20 16
  | .vsqrt .. => 16
  | _ => 2

/-- A vector memory instruction: it dispatches with the bank turns it takes as its execution time (R182). -/
def vecAccess (i : Instr) (h : Hdr) (srcs : List Reg) (rnd : Rnd) (s : State) : Host.Outcome State Fault Refusal :=
  issue { i, h, srcs, pair := .joint } (fun vs s => do
    let t ← dispatch s i vs [] rnd (vecTurns s s.cur i vs 0)
    done t) s

/-- `vld`: load contiguous elements (R162). -/
def execVld (v : VHdr) (ty : IntTy) (d : VReg) (a : Reg) (i : Imm) (s : State) : Host.Outcome State Fault Refusal :=
  vecAccess (.vld v ty d a i) v.hdr [a] anyMode s

/-- `vst`: store contiguous elements (R162). -/
def execVst (v : VHdr) (ty : IntTy) (d : VReg) (a : Reg) (i : Imm) (s : State) : Host.Outcome State Fault Refusal :=
  vecAccess (.vst v ty d a i) v.hdr [a] anyMode s

/-- `vlds`: load with a stride (R162). -/
def execVlds (v : VHdr) (ty : IntTy) (d : VReg) (a b : Reg) (i : Imm) (s : State) : Host.Outcome State Fault Refusal :=
  vecAccess (.vlds v ty d a b i) v.hdr [a, b] anyMode s

/-- `vsts`: store with a stride (R162). -/
def execVsts (v : VHdr) (ty : IntTy) (d : VReg) (a b : Reg) (i : Imm) (s : State) : Host.Outcome State Fault Refusal :=
  vecAccess (.vsts v ty d a b i) v.hdr [a, b] anyMode s

/-- `vldc`: load on the constant path (R162, R163). -/
def execVldc (v : VHdr) (ty : IntTy) (d : VReg) (a : Reg) (i : Imm) (s : State) : Host.Outcome State Fault Refusal :=
  vecAccess (.vldc v ty d a i) v.hdr [a] anyMode s

/-- `vgth`: load by index (R162). -/
def execVgth (v : VHdr) (ty : IntTy) (sc : BitVec 2) (d : VReg) (a : Reg) (b : VReg) (i : Imm) (s : State) : Host.Outcome State Fault Refusal :=
  vecAccess (.vgth v ty sc d a b i) v.hdr [a] anyMode s

/-- `vsct`: store by index (R162). -/
def execVsct (v : VHdr) (ty : IntTy) (sc : BitVec 2) (d : VReg) (a : Reg) (b : VReg) (i : Imm) (s : State) : Host.Outcome State Fault Refusal :=
  vecAccess (.vsct v ty sc d a b i) v.hdr [a] anyMode s

/-- `vrst`: store contiguous elements at a place, then the wake (R165). -/
def execVrst (v : VHdr) (wk : Bool) (ty : IntTy) (d : VReg) (a b : Reg) (i : Imm) (s : State) : Host.Outcome State Fault Refusal :=
  vecAccess (.vrst v wk ty d a b i) v.hdr [a, b] anyMode s

/-- `vamo`: a read-modify-write in each lane, in ascending order (R163). -/
def execVamo (v : VHdr) (op : AmoOp) (ty : IntTy) (sc : BitVec 2) (d : VReg) (a : Reg) (b : VReg) (i : Imm) (s : State) : Host.Outcome State Fault Refusal :=
  vecAccess (.vamo v op ty sc d a b i) v.hdr [a] (if op = .fadd then .slot else anyMode) s

/-- `vadd`: A + B (R167); the result comes with its completion. -/
def execVadd (v : VHdr) (lt : LaneTy) (sat : Bool) (rnd : Rnd) (d a b : VReg) (s : State) : Host.Outcome State Fault Refusal :=
  slab (.vadd v lt sat rnd d a b) v.hdr [] (if lt = .f32 then rnd else anyMode) (vecCost (.vadd v lt sat rnd d a b)) noChecks s

/-- `vsub`: A - B (R167); the result comes with its completion. -/
def execVsub (v : VHdr) (lt : LaneTy) (sat : Bool) (rnd : Rnd) (d a b : VReg) (s : State) : Host.Outcome State Fault Refusal :=
  slab (.vsub v lt sat rnd d a b) v.hdr [] (if lt = .f32 then rnd else anyMode) (vecCost (.vsub v lt sat rnd d a b)) noChecks s

/-- `vmul`: A B (R167); the result comes with its completion. -/
def execVmul (v : VHdr) (lt : LaneTy) (sat : Bool) (rnd : Rnd) (d a b : VReg) (s : State) : Host.Outcome State Fault Refusal :=
  slab (.vmul v lt sat rnd d a b) v.hdr [] (if lt = .f32 then rnd else anyMode) (vecCost (.vmul v lt sat rnd d a b)) noChecks s

/-- `vfma`: the product, negated under NEG, plus D (R167); the result comes with its completion. -/
def execVfma (v : VHdr) (lt : LaneTy) (neg sat : Bool) (rnd : Rnd) (d a b : VReg) (s : State) : Host.Outcome State Fault Refusal :=
  slab (.vfma v lt neg sat rnd d a b) v.hdr [] (if lt = .f32 then rnd else anyMode) (vecCost (.vfma v lt neg sat rnd d a b)) noChecks s

/-- `vdot`: D plus the products of packed elements (R168); the result comes with its completion. -/
def execVdot (v : VHdr) (pf : DotFmt) (sat : Bool) (rnd : Rnd) (d a b : VReg) (s : State) : Host.Outcome State Fault Refusal :=
  slab (.vdot v pf sat rnd d a b) v.hdr [] (if pf.lane = .f32 then rnd else anyMode) (vecCost (.vdot v pf sat rnd d a b)) noChecks s

/-- `vdiv`: A / B (R167); the result comes with its completion. -/
def execVdiv (v : VHdr) (lt : LaneTy) (rnd : Rnd) (d a b : VReg) (s : State) : Host.Outcome State Fault Refusal :=
  slab (.vdiv v lt rnd d a b) v.hdr [] (if lt = .f32 then rnd else anyMode) (vecCost (.vdiv v lt rnd d a b)) noChecks s

/-- `vsqrt`: the square root (R167); the result comes with its completion. -/
def execVsqrt (v : VHdr) (rnd : Rnd) (d a : VReg) (s : State) : Host.Outcome State Fault Refusal :=
  slab (.vsqrt v rnd d a) v.hdr [] rnd (vecCost (.vsqrt v rnd d a)) noChecks s

/-- `vmin`: the lesser (R167); the result comes with its completion. -/
def execVmin (v : VHdr) (lt : LaneTy) (d a b : VReg) (s : State) : Host.Outcome State Fault Refusal :=
  slab (.vmin v lt d a b) v.hdr [] anyMode (vecCost (.vmin v lt d a b)) noChecks s

/-- `vmax`: the greater (R167); the result comes with its completion. -/
def execVmax (v : VHdr) (lt : LaneTy) (d a b : VReg) (s : State) : Host.Outcome State Fault Refusal :=
  slab (.vmax v lt d a b) v.hdr [] anyMode (vecCost (.vmax v lt d a b)) noChecks s

/-- `vabs`: the absolute value (R167); the result comes with its completion. -/
def execVabs (v : VHdr) (lt : LaneTy) (sat : Bool) (d a : VReg) (s : State) : Host.Outcome State Fault Refusal :=
  slab (.vabs v lt sat d a) v.hdr [] anyMode (vecCost (.vabs v lt sat d a)) noChecks s

/-- `vneg`: the negative (R167); the result comes with its completion. -/
def execVneg (v : VHdr) (lt : LaneTy) (sat : Bool) (d a : VReg) (s : State) : Host.Outcome State Fault Refusal :=
  slab (.vneg v lt sat d a) v.hdr [] anyMode (vecCost (.vneg v lt sat d a)) noChecks s

/-- `vsgn`: a sign operation (R167); the result comes with its completion. -/
def execVsgn (v : VHdr) (op : SgnOp) (d a b : VReg) (s : State) : Host.Outcome State Fault Refusal :=
  slab (.vsgn v op d a b) v.hdr [] anyMode (vecCost (.vsgn v op d a b)) noChecks s

/-- `vand`: bitwise and (R167); the result comes with its completion. -/
def execVand (v : VHdr) (d a b : VReg) (s : State) : Host.Outcome State Fault Refusal :=
  slab (.vand v d a b) v.hdr [] anyMode (vecCost (.vand v d a b)) noChecks s

/-- `vor`: bitwise or (R167); the result comes with its completion. -/
def execVor (v : VHdr) (d a b : VReg) (s : State) : Host.Outcome State Fault Refusal :=
  slab (.vor v d a b) v.hdr [] anyMode (vecCost (.vor v d a b)) noChecks s

/-- `vxor`: bitwise exclusive or (R167); the result comes with its completion. -/
def execVxor (v : VHdr) (d a b : VReg) (s : State) : Host.Outcome State Fault Refusal :=
  slab (.vxor v d a b) v.hdr [] anyMode (vecCost (.vxor v d a b)) noChecks s

/-- `vshl`: shift left (R167); the result comes with its completion. -/
def execVshl (v : VHdr) (d a b : VReg) (s : State) : Host.Outcome State Fault Refusal :=
  slab (.vshl v d a b) v.hdr [] anyMode (vecCost (.vshl v d a b)) noChecks s

/-- `vshr`: shift right (R167); the result comes with its completion. -/
def execVshr (v : VHdr) (d a b : VReg) (s : State) : Host.Outcome State Fault Refusal :=
  slab (.vshr v d a b) v.hdr [] anyMode (vecCost (.vshr v d a b)) noChecks s

/-- `vsar`: arithmetic shift right (R167); the result comes with its completion. -/
def execVsar (v : VHdr) (d a b : VReg) (s : State) : Host.Outcome State Fault Refusal :=
  slab (.vsar v d a b) v.hdr [] anyMode (vecCost (.vsar v d a b)) noChecks s

/-- `vcnt`: a bit count (R167); the result comes with its completion. -/
def execVcnt (v : VHdr) (op : CntOp) (d a : VReg) (s : State) : Host.Outcome State Fault Refusal :=
  slab (.vcnt v op d a) v.hdr [] anyMode (vecCost (.vcnt v op d a)) noChecks s

/-- `vcmp`: a comparison into a mask (R169); the result comes with its completion. -/
def execVcmp (v : VHdr) (cond : VCmp) (d : MReg) (a b : VReg) (s : State) : Host.Outcome State Fault Refusal :=
  slab (.vcmp v cond d a b) v.hdr [] anyMode (vecCost (.vcmp v cond d a b)) noChecks s

/-- `vsel`: a choice by a mask (R170); the result comes with its completion. -/
def execVsel (h : Hdr) (d a b : VReg) (c : MReg) (s : State) : Host.Outcome State Fault Refusal :=
  slab (.vsel h d a b c) h [] anyMode (vecCost (.vsel h d a b c)) noChecks s

/-- `vmsk`: a truth table of masks (R171); the result comes with its completion. -/
def execVmsk (h : Hdr) (tt : BitVec 4) (d a b : MReg) (s : State) : Host.Outcome State Fault Refusal :=
  slab (.vmsk h tt d a b) h [] anyMode (vecCost (.vmsk h tt d a b)) noChecks s

/-- `vmskCnt`: the number of set bits (R171); the result comes with its completion. -/
def execVmskCnt (h : Hdr) (d : Reg) (a : MReg) (s : State) : Host.Outcome State Fault Refusal :=
  slab (.vmskCnt h d a) h [] anyMode (vecCost (.vmskCnt h d a)) noChecks s (dst := some d)

/-- `vmskFfs`: the lowest set lane (R171); the result comes with its completion. -/
def execVmskFfs (h : Hdr) (d : Reg) (a : MReg) (s : State) : Host.Outcome State Fault Refusal :=
  slab (.vmskFfs h d a) h [] anyMode (vecCost (.vmskFfs h d a)) noChecks s (dst := some d)

/-- `vmskFirst`: a mask of the first lanes (R171); the result comes with its completion. -/
def execVmskFirst (h : Hdr) (d : MReg) (b : Reg) (s : State) : Host.Outcome State Fault Refusal :=
  slab (.vmskFirst h d b) h [b] anyMode (vecCost (.vmskFirst h d b)) noChecks s

/-- `vcvt`: a conversion (R173); the result comes with its completion. -/
def execVcvt (v : VHdr) (dst src : Elt) (rnd : Rnd) (d a : VReg) (s : State) : Host.Outcome State Fault Refusal :=
  slab (.vcvt v dst src rnd d a) v.hdr [] (if (eltFF dst).isNone && (eltFF src).isNone then anyMode else rnd) (vecCost (.vcvt v dst src rnd d a)) noChecks s

/-- `vsat`: a clamp (R174); the result comes with its completion. -/
def execVsat (v : VHdr) (sg : Bool) (ty : IntTy) (d a : VReg) (s : State) : Host.Outcome State Fault Refusal :=
  slab (.vsat v sg ty d a) v.hdr [] anyMode (vecCost (.vsat v sg ty d a)) noChecks s

/-- `vpack`: packing into B4 (R175); the result comes with its completion. -/
def execVpack (v : VHdr) (ty : B4Ty) (rnd : Rnd) (d a : VReg) (s : State) : Host.Outcome State Fault Refusal :=
  slab (.vpack v ty rnd d a) v.hdr [] rnd (vecCost (.vpack v ty rnd d a)) noChecks s

/-- `vunpk`: unpacking from B4 (R176); the result comes with its completion. -/
def execVunpk (v : VHdr) (d a : VReg) (s : State) : Host.Outcome State Fault Refusal :=
  slab (.vunpk v d a) v.hdr [] anyMode (vecCost (.vunpk v d a)) noChecks s

/-- `vperm`: a permutation (R172); the result comes with its completion. -/
def execVperm (v : VHdr) (d a b : VReg) (s : State) : Host.Outcome State Fault Refusal :=
  slab (.vperm v d a b) v.hdr [] anyMode (vecCost (.vperm v d a b)) noChecks s

/-- `vshf`: a window of two vectors (R172); the result comes with its completion. -/
def execVshf (v : VHdr) (d a b : VReg) (i : Imm) (s : State) : Host.Outcome State Fault Refusal :=
  slab (.vshf v d a b i) v.hdr [] anyMode (vecCost (.vshf v d a b i)) (fun _ s => if lanes (s.core s.myCore).gangw < i.zext.toNat then .error ill else .ok []) s

/-- `vbcast`: a broadcast (R172); the result comes with its completion. -/
def execVbcast (v : VHdr) (d : VReg) (a : Reg) (s : State) : Host.Outcome State Fault Refusal :=
  slab (.vbcast v d a) v.hdr [a] anyMode (vecCost (.vbcast v d a)) noChecks s

/-- `vins`: one lane inserted (R172); the result comes with its completion. -/
def execVins (v : VHdr) (d : VReg) (a b : Reg) (i : Imm) (s : State) : Host.Outcome State Fault Refusal :=
  slab (.vins v d a b i) v.hdr [a, b] anyMode (vecCost (.vins v d a b i)) noChecks s

/-- `vext`: one lane read (R172); the result comes with its completion. -/
def execVext (h : Hdr) (sg : Bool) (d : Reg) (a : VReg) (b : Reg) (i : Imm) (s : State) : Host.Outcome State Fault Refusal :=
  slab (.vext h sg d a b i) h [b] anyMode (vecCost (.vext h sg d a b i)) noChecks s (dst := some d)

/-- `vidx`: an arithmetic sequence (R172); the result comes with its completion. -/
def execVidx (v : VHdr) (d : VReg) (a : Reg) (i : Imm) (s : State) : Host.Outcome State Fault Refusal :=
  slab (.vidx v d a i) v.hdr [a] anyMode (vecCost (.vidx v d a i)) noChecks s

/-- `vmov`: a move (R170); the result comes with its completion. -/
def execVmov (v : VHdr) (d a : VReg) (s : State) : Host.Outcome State Fault Refusal :=
  slab (.vmov v d a) v.hdr [] anyMode (vecCost (.vmov v d a)) noChecks s

/-- `vred`: a tree reduction (R177); the result comes with its completion. -/
def execVred (v : VHdr) (op : RedOp) (lt : LaneTy) (sat : Bool) (rnd : Rnd) (d : Reg) (a : VReg) (s : State) : Host.Outcome State Fault Refusal :=
  slab (.vred v op lt sat rnd d a) v.hdr [] (if op = .add && lt = .f32 then rnd else anyMode) (vecCost (.vred v op lt sat rnd d a)) noChecks s (dst := some d)

/-- `vscan`: a tree scan (R177); the result comes with its completion. -/
def execVscan (v : VHdr) (op : RedOp) (lt : LaneTy) (sat : Bool) (rnd : Rnd) (d a : VReg) (s : State) : Host.Outcome State Fault Refusal :=
  slab (.vscan v op lt sat rnd d a) v.hdr [] (if op = .add && lt = .f32 then rnd else anyMode) (vecCost (.vscan v op lt sat rnd d a)) noChecks s

/-- `vrcp`: the reciprocal (R67, R178); the result comes with its completion. -/
def execVrcp (v : VHdr) (rnd : Rnd) (d a : VReg) (s : State) : Host.Outcome State Fault Refusal :=
  slab (.vrcp v rnd d a) v.hdr [] rnd (vecCost (.vrcp v rnd d a)) noChecks s

/-- `vrsq`: the reciprocal square root (R68, R178); the result comes with its completion. -/
def execVrsq (v : VHdr) (rnd : Rnd) (d a : VReg) (s : State) : Host.Outcome State Fault Refusal :=
  slab (.vrsq v rnd d a) v.hdr [] rnd (vecCost (.vrsq v rnd d a)) noChecks s

/-- `vexp2`: the power of two (R69, R178); the result comes with its completion. -/
def execVexp2 (v : VHdr) (rnd : Rnd) (d a : VReg) (s : State) : Host.Outcome State Fault Refusal :=
  slab (.vexp2 v rnd d a) v.hdr [] rnd (vecCost (.vexp2 v rnd d a)) noChecks s

/-- `vlog2`: the binary logarithm (R70, R178); the result comes with its completion. -/
def execVlog2 (v : VHdr) (rnd : Rnd) (d a : VReg) (s : State) : Host.Outcome State Fault Refusal :=
  slab (.vlog2 v rnd d a) v.hdr [] rnd (vecCost (.vlog2 v rnd d a)) noChecks s

end Sys2Proof.Machine
end

