-- ==== Sys2Proof/Machine/Matrix.lean ====
section
/-! DEFINITION. The meanings of the matrix instructions: their dispatch checks, and what each does when it completes (R60 to R63, R179
to R202). -/

namespace Sys2Proof.Machine

/-! ### Views and poison (R183, R184) -/

/-- Rows of the K × 64 matrix that a row of the B view holds (R183). -/
def viewP (d : TDesc) : Nat := d.cols.toNat / if d.format = .bit then 16 else 64

/-- K_A: the depth of the A view (R183). -/
def viewKA (d : TDesc) : Nat := if d.format = .bit then 4 * d.cols.toNat else d.cols.toNat

/-- K_B: the depth of the B view (R183). -/
def viewKB (d : TDesc) : Nat := d.rows.toNat * viewP d

/-- The bytes of a tile member that hold an element: its data, and its scale byte for B4. -/
def elemBytes (f : Fmt) (row col sc : Nat) : List Nat :=
  match f with
  | .bit => [row * 256 + col / 8]
  | .b4 => [row * 256 + col / 2, 16384 + sc]
  | _ => (List.range (halfBytes f / 2)).map fun i => row * 256 + col * (halfBytes f / 2) + i

/-- Whether a tile holds a poisoned byte among some bytes of its members. -/
def tilePoisonIn (c : CoreSt) (t : Nat) (sel : Nat → Bool) : Bool :=
  c.tilePoison.any fun e => e.2 && e.1 / tileSpan / 4 == t && sel (e.1 % tileSpan)

/-! ### The product (R60 to R62, R189 to R192) -/

/-- How a product reads its cells (R190). -/
inductive MmaKind where
  | float | int | bit
  deriving DecidableEq, Repr

/-- The pairs of R190. -/
def mmaKind (sr : Semi) (af bf : Fmt) : Option MmaKind :=
  match sr, af, bf with
  | .pt, .e4m3, .e4m3 | .pt, .e4m3, .e5m2 | .pt, .e5m2, .e4m3 | .pt, .e5m2, .e5m2 | .pt, .b4, .b4 => some .float
  | .oa, .bit, .bit => some .bit
  | .oa, _, _ => none
  | _, .bf16, .bf16 | _, .f16, .f16 | _, .f32, .f32 => some .float
  | _, .s16, .s16 | _, .s32, .s32 => some .int
  | .pt, .s8, .s8 | .pt, .s8, .n8 | .pt, .n8, .s8 | .pt, .n8, .n8 => some .int
  | _, _, _ => none

/-- Cycles of a group (R192). -/
def groupCycles (sr : Semi) (af : Fmt) : Nat :=
  match sr, af with
  | .oa, _ => 1
  | .mp, _ | .mt, _ => 64
  | .pt, .b4 => 4
  | .pt, .f32 | .pt, .s32 => 64
  | .pt, .bf16 | .pt, .f16 | .pt, .s16 => 16
  | .pt, _ => 8

/-- K_I: the depth of a product (R189). -/
def mmaDepth (m : MmaOp) (da : TDesc) : Nat :=
  let k := if m.sr = .oa then 4 * m.kd.toNat else m.kd.toNat
  if k = 0 then viewKA da else k

/-- Occupancy (R192). -/
def mmaCost (m : MmaOp) (da : TDesc) : Nat := (mmaDepth m da + 15) / 16 * groupCycles m.sr m.af

def isPow2 (n : Nat) : Bool := n != 0 && 2 ^ n.log2 == n

/-- The dispatch checks of R30, R183, R184, R189 and R190. -/
def mmaOk (m : MmaOp) (da db : TDesc) : Bool :=
  da.ok && db.ok && m.af == da.format && m.bf == db.format && (mmaKind m.sr m.af m.bf).isSome
    && db.cols.toNat % (if m.bf = .bit then 16 else 64) == 0 && isPow2 (viewP db)
    && (m.af != .b4 || da.cols.toNat % 32 == 0)
    && (m.bf != .b4 || (db.rows.toNat == 64 && db.cols.toNat == 512))
    && mmaDepth m da ≤ Nat.min (viewKA da) (viewKB db)
    && (!(m.sr == .mp || m.sr == .mt) || mmaDepth m da ≤ 64)
    && m.arow.toNat + da.rows.toNat ≤ 64

/-- The rounding modifier that matters: a product of integers or bits does not round (R189, R190). -/
def mmaRnd (m : MmaOp) : Rnd := if mmaKind m.sr m.af m.bf = some .float then m.rnd else anyMode

/-- The sum of products of a group: none where it is an exact zero (R60). -/
def groupSum (ps : List (FVal × Flags)) : Option FVal × Flags :=
  match specialSum ps with
  | (some v, fl) => (some v, fl)
  | (none, fl) =>
    let y := Dy.sum (ps.map (·.1.dy))
    if y.n = 0 then (none, fl) else (some (.fin (y.n < 0) y.n.natAbs y.e), fl)

/-- The exact sum a + b of min-plus (R46, R62). -/
def exactSum (mode : RMode) (a b : FVal) : FVal × Flags :=
  if a.isNan || b.isNan then (.nan false, if a.sig || b.sig then fNV else 0)
  else if a.isInf && b.isInf && a.neg != b.neg then (.nan false, fNV)
  else if a.isInf then (a, 0)
  else if b.isInf then (b, 0)
  else
    let y := a.dy.add b.dy
    if y.n = 0 then (.fin (if a.neg = b.neg && a.isZero then a.neg else mode == .rdn) 0 0, 0)
    else (.fin (y.n < 0) y.n.natAbs y.e, 0)

/-- Whether the first of two values that are not NaN is the lesser, −0 below +0 (DEDUCED log 28). -/
def FVal.below (a b : FVal) : Bool := if a.eq b then a.neg && !b.neg else a.lt b

/-- The least or greatest of exact values; NaN among them gives NaN (R62). -/
def pickVal (max : Bool) (vs : List FVal) : FVal :=
  if vs.any (·.isNan) then .nan false
  else match vs with
    | [] => .nan false
    | v :: t => t.foldl (fun a b => if (if max then a.below b else b.below a) then b else a) v

/-- A value rounded into ACC36 (R62). -/
def roundAcc (c : Capture) (l g : Nat) (v : FVal) : Nat × Flags :=
  match v with
  | .fin neg m e => if m = 0 then (acc36.zeroOf c.mode [neg], 0) else acc36.round c c.fzo l g neg { m := m, e := e }
  | v => acc36.special v

/-- One group of min-plus or max-times on a float cell: the cell is read under FZI and compared with round(V) as it is (R47, R62).  The flags
of round(V) are raised also where the old cell stays (DEDUCED log 74). -/
def tropical (max : Bool) (c : Capture) (l g : Nat) (cell : Nat) (vs : List (FVal × Flags)) : Nat × Flags :=
  let fl := orFlags (vs.map (·.2))
  let v := pickVal max (vs.map (·.1))
  let a := acc36.read c.fzi cell
  if v.isNan || a.isNan then (acc36.qnan, fl ||| (if a.sig then fNV else 0))
  else
    let (r, fr) := roundAcc c l g v
    let w := acc36.read false r
    if (if max then a.below w else w.below a) then (r, fl ||| fr)
    else match a with
      | .fin neg m e =>
        if c.fzo && m != 0 && m < 2 ^ acc36.p then ((if neg then acc36.signBit else 0), fl ||| fr ||| fUF ||| fNX)
        else (acc36.pack neg m e, fl ||| fr)
      | a => ((acc36.special a).1, fl ||| fr)

/-- The start of a cell under CLR (R190). -/
def identityCell (sr : Semi) (k : MmaKind) : BitVec 36 :=
  match sr, k with
  | .mp, .float => BitVec.ofNat 36 (acc36.infBits false)
  | .mt, .float => BitVec.ofNat 36 (acc36.infBits true)
  | .mp, _ => BitVec.ofInt 36 (2 ^ 35 - 1)
  | .mt, _ => BitVec.ofInt 36 (-(2 ^ 35))
  | _, _ => 0

/-- An operand element of a product: its value, its integer and its bits. -/
structure MmaElem where
  val : FVal
  int : Int
  bits : Nat
  deriving DecidableEq, Repr

/-- An element of a view from its bits, for B4 with its scale byte (R183, R184). -/
def mmaElem (f : Fmt) (fzi : Bool) (scale : Byte) (bits : Nat) : MmaElem :=
  { val := match FF.ofFmt f with
      | some ff => ff.read fzi bits
      | none => b4Val scale.toNat bits,
    int := elemInt f bits, bits }

/-- The plane bytes of a tile member. -/
def CoreSt.plane (c : CoreSt) (t g : Nat) : List Byte := c.tile.slice 0 (tileKey t g 16384) 1024

/-- The A view on member g, row by row to depth k: the scale of A[m][k] is plane byte 16 m + k / 32 (R183, R184). -/
def viewA (c : CoreSt) (t g : Nat) (d : TDesc) (fzi : Bool) (k : Nat) : List (List MmaElem) :=
  (List.range d.rows.toNat).map fun m =>
    let scales := (c.plane t g).drop (16 * m)
    (c.rowElems d.format t g m k).zipIdx.map fun e => mmaElem d.format fzi (scales.getD (e.2 / 32) 0) e.1

/-- The B view on member g, column by column to depth k: row r of the tile holds rows P r to P r + P − 1 of the view, and the scale of
B[k][n] is plane byte 16 n + k / 32 (R183, R184). -/
def viewB (c : CoreSt) (t g : Nat) (d : TDesc) (fzi : Bool) (k : Nat) : List (List MmaElem) :=
  let p := viewP d
  let plane := c.plane t g
  let rows := ((List.range ((k + p - 1) / p)).flatMap fun r => groupsOf 64 p (c.rowElems d.format t g r (64 * p))).take k
  let vals := rows.zipIdx.map fun e => e.1.zipIdx.map fun x => mmaElem d.format fzi (plane.getD (16 * x.2 + e.2 / 32) 0) x.1
  (List.range 64).map fun n => vals.filterMap fun row => row[n]?

/-- One group applied to a cell (R60 to R62); the flags of sat36(V) are raised also where the old cell stays (DEDUCED log 74). -/
def groupCell (sr : Semi) (kind : MmaKind) (c : Capture) (l g : Nat) (cell : BitVec 36) (ab : List (MmaElem × MmaElem)) :
    BitVec 36 × Flags :=
  match kind with
  | .bit => (if ab.any fun p => p.1.bits == 1 && p.2.bits == 1 then cell ||| 1 else cell, 0)
  | .int =>
    match sr with
    | .mp =>
      let v := sat36 ((ab.map fun p => p.1.int + p.2.int).foldl (fun a b => if b < a then b else a) (2 ^ 70))
      (BitVec.ofInt 36 (if v.1 < cell.toInt then v.1 else cell.toInt), v.2)
    | .mt =>
      let v := sat36 ((ab.map fun p => p.1.int * p.2.int).foldl (fun a b => if a < b then b else a) (-(2 ^ 70)))
      (BitVec.ofInt 36 (if cell.toInt < v.1 then v.1 else cell.toInt), v.2)
    | _ =>
      let v := sat36 (cell.toInt + (ab.map fun p => p.1.int * p.2.int).sum)
      (BitVec.ofInt 36 v.1, v.2)
  | .float =>
    match sr with
    | .mp =>
      let (r, fl) := tropical false c l g cell.toNat (ab.map fun p => exactSum c.mode p.1.val p.2.val)
      (BitVec.ofNat 36 r, fl)
    | .mt =>
      let (r, fl) := tropical true c l g cell.toNat (ab.map fun p => p.1.val.mul p.2.val)
      (BitVec.ofNat 36 r, fl)
    | _ =>
      match groupSum (ab.map fun p => p.1.val.mul p.2.val) with
      | (none, fl) => (cell, fl)
      | (some v, fl) =>
        let (r, fr) := acc36.roundSum c c.fzo l g [acc36.read c.fzi cell.toNat, v]
        (BitVec.ofNat 36 r, fl ||| fr)

/-- All groups of a cell in ascending k (R60). -/
def groupsCell (sr : Semi) (kind : MmaKind) (c : Capture) (l : Nat) :
    Nat → Nat → BitVec 36 → List (MmaElem × MmaElem) → BitVec 36 × Flags
  | 0, _, cell, _ => (cell, 0)
  | n + 1, g, cell, ab =>
    let (x, fl) := groupCell sr kind c l g cell (ab.take 16)
    let (y, fr) := groupsCell sr kind c l n (g + 1) x (ab.drop 16)
    (y, fl ||| fr)

/-- The cells that a product writes, row by row with their flags: row and first column give the accumulator position (R191). -/
def mmaRows (c : CoreSt) (cap : Capture) (m : MmaOp) (kind : MmaKind) (da db : TDesc) (gangw : Nat) :
    List ((Nat × Nat) × List (BitVec 36 × Flags)) :=
  let k := mmaDepth m da
  (List.range gangw).flatMap fun g =>
    let cols := viewB c m.tb.toNat g db cap.fzi k
    (viewA c m.ta.toNat g da cap.fzi k).zipIdx.map fun (as, r) =>
      let row := m.arow.toNat + r
      let old := c.accRow m.acc.toNat row (64 * g) 64
      ((row, 64 * g), (cols.zip old).zipIdx.map fun ((bs, x), n) =>
        groupsCell m.sr kind cap (256 * row + 64 * g + n) ((k + 15) / 16) 0 (if m.clr then identityCell m.sr kind else x) (as.zip bs))

/-- Whether a product reads a poisoned tile byte (R214). -/
def mmaPoison (c : CoreSt) (m : MmaOp) (da db : TDesc) : Bool :=
  let k := mmaDepth m da
  let bytesA := (List.range da.rows.toNat).flatMap fun r => (List.range k).flatMap fun j =>
    elemBytes da.format r j (16 * r + j / 32)
  let bytesB := (List.range 64).flatMap fun n => (List.range k).flatMap fun j =>
    elemBytes db.format (j / viewP db) (64 * (j % viewP db) + n) (16 * n + j / 32)
  (tilePoisonIn c m.ta.toNat fun b => bytesA.contains b) || tilePoisonIn c m.tb.toNat fun b => bytesB.contains b

/-- Write rows of cells of an accumulator; the flags of the cells beside it. -/
def putRows (c : CoreSt) (a : Nat) (rows : List ((Nat × Nat) × List (BitVec 36 × Flags))) : CoreSt × Flags :=
  (rows.foldl (fun c e => c.setAccRow a e.1.1 e.1.2 (e.2.map (·.1))) c, orFlags (rows.flatMap fun e => e.2.map (·.2)))

/-! ### What a slab instruction without accesses does to its core (R188, R196 to R199) -/

/-- A descriptor copied at dispatch. -/
def SlabOp.desc (o : SlabOp) (n : Nat) : TDesc := o.descs.getD n {}

/-- `tmov`: every byte of one tile copied to another, with its poison. -/
def moveTile (c : CoreSt) (d a : Nat) : CoreSt :=
  if d = a then c
  else
    let src := (c.tile.filter fun e => e.1 / tileSpan / 4 == a).map fun e => (e.1 - 4 * a * tileSpan + 4 * d * tileSpan, e.2)
    { c.clearTile d fun _ => false with tile := c.tile.splice (4 * d * tileSpan) (4 * (d + 1) * tileSpan) src }

/-- `tfill`: every used element and used plane byte takes its part of a value; every other byte is 0 (R188). -/
def fillElems (c : CoreSt) (t gangw : Nat) (d : TDesc) (v : Word) : CoreSt :=
  let row := packElems d.format (List.replicate (if d.format = .bit then 4 * d.cols.toNat else d.cols.toNat) v.toNat)
  (List.range gangw).foldl (fun c g =>
    (List.range d.rows.toNat).foldl (fun c r =>
      (c.fillTile t g (256 * r) row).fillTile t g (16384 + 16 * r) (List.replicate d.rowScales (v.extractLsb' 8 8))) c)
    (c.clearTile t fun _ => false)

/-- The accumulator conversions of R197: rounded from ACC36, or clamped from the integer. -/
def cellTo (f : Fmt) (cap : Capture) (m n : Nat) (x : BitVec 36) : Nat × Flags :=
  match FF.ofFmt f with
  | some ff => ff.convert acc36 cap (256 * m + n) 0 x.toNat
  | none =>
    let w := 4 * halfBytes f
    ((BitVec.ofInt 36 (clampInt w (f != .n8) x.toInt)).toNat % 2 ^ w, 0)

/-- `acvt` (R197). -/
def convertAcc (c : CoreSt) (t a gangw : Nat) (d : TDesc) (cap : Capture) : CoreSt × Flags :=
  (List.range gangw).foldl (fun r g =>
    (List.range d.rows.toNat).foldl (fun r m =>
      let es := (c.accRow a m (64 * g) 64).zipIdx.map fun x => cellTo d.format cap m (64 * g + x.2) x.1
      (r.1.fillTile t g (256 * m) (packElems d.format (es.map (·.1))), r.2 ||| orFlags (es.map (·.2)))) r)
    (c.clearTile t fun _ => false, 0)

/-- One row of `ared` (R198). -/
def reduceRow (op : RedOp) (lt : LaneTy) (cap : Capture) (m : Nat) (row : List (BitVec 36)) : Lane × Flags :=
  match lt with
  | .f32 =>
    let vs := row.map fun x => acc36.read cap.fzi x.toNat
    match op with
    | .add => floatLane (f32.roundSum cap cap.fzo m 0 vs)
    | _ =>
      let fl := if vs.any (·.sig) then fNV else 0
      match pickVal (op == .max) vs with
      | .fin neg q e =>
        let (r, fr) := if q = 0 then ((if neg then f32.signBit else 0), 0) else f32.round cap cap.fzo m 0 neg { m := q, e := e }
        (BitVec.ofNat 32 r, fl ||| fr)
      | v => (BitVec.ofNat 32 (f32.special v).1, fl)
  | _ =>
    let vs := row.map (·.toInt)
    let v : Int := match op with
      | .add => vs.sum
      | .min => vs.foldl (fun a b => if b < a then b else a) (2 ^ 40)
      | _ => vs.foldl (fun a b => if a < b then b else a) (-(2 ^ 40))
    (BitVec.ofInt 32 (clampInt 32 true v), 0)

/-- One cell of `ascal` (R199): its result counts as an accumulator result, so FZO applies, and the cell it reads stands in no row of FZI
(DEDUCED log 75).  An inexact shift of an integer cell sets NX (R48). -/
def scaleCell (int : Bool) (cap : Capture) (sh : Int) (m n : Nat) (x : BitVec 36) : BitVec 36 × Flags :=
  if int then
    if 0 ≤ sh then
      let (r, fl) := sat36 (x.toInt * 2 ^ sh.toNat)
      (BitVec.ofInt 36 r, fl)
    else
      let (q, exact) := roundAt cap.mode (x.toInt < 0) (threshold cap (256 * m + n) 0) { m := x.toInt.natAbs, e := sh } 0
      let (r, fl) := sat36 (if x.toInt < 0 then -(q : Int) else q)
      (BitVec.ofInt 36 r, if exact then fl else fl ||| fNX)
  else
    match acc36.read false x.toNat with
    | .fin neg m' e =>
      if m' = 0 then (x, 0)
      else
        let (r, fl) := acc36.round cap cap.fzo (256 * m + n) 0 neg { m := m', e := e + sh }
        (BitVec.ofNat 36 r, fl)
    | v => let (r, fl) := acc36.special v; (BitVec.ofNat 36 r, fl)

/-- What a matrix instruction that accesses no memory does to its core, or that it consumes poison (R188, R191, R196 to R199, R214). -/
def coreEffect (c : CoreSt) (o : SlabOp) : Option (Option (CoreSt × Flags)) :=
  match o.instr with
  | .mma _ m | .mmaq _ _ _ m =>
    if mmaPoison c m (o.desc 0) (o.desc 1) then some none
    else match mmaKind m.sr m.af m.bf with
      | none => some (some (c, 0))
      | some k =>
        some (some (putRows c m.acc.toNat (mmaRows c o.cap m k (o.desc 0) (o.desc 1) c.gangw)))
  | .tzero _ d => some (some (c.clearTile d.toNat fun _ => false, 0))
  | .tmov _ d a => if tilePoisonIn c a.toNat fun _ => true then some none else some (some (moveTile c d.toNat a.toNat, 0))
  | .tfill _ d _ i => some (some (fillElems c d.toNat c.gangw (o.desc 0) (arg o.args 0 + i.sext), 0))
  | .azero _ d => some (some (c.clearAcc d.toNat, 0))
  | .acvt _ _ d a => some (some (convertAcc c d.toNat a.toNat c.gangw (o.desc 0) o.cap))
  | .ascal _ int _ d i =>
    some (some (putRows c d.toNat ((List.range 64).map fun m =>
      ((m, 0), (c.accRow d.toNat m 0 (64 * c.gangw)).zipIdx.map fun x => scaleCell int o.cap i.sext.toInt m x.2 x.1))))
  | _ => none

/-- Whether an instruction reads a cell of an accumulator that holds an error that cannot be corrected (R389). -/
def badCells (c : CoreSt) (o : SlabOp) : Bool :=
  !c.accBad.isEmpty &&
    match o.instr with
    | .mma _ m | .mmaq _ _ _ m => !m.clr && c.badRows m.acc.toNat m.arow.toNat (o.desc 0).rows.toNat
    | .acvt _ _ _ a => c.badRows a.toNat 0 (o.desc 0).rows.toNat
    | .ared _ _ _ _ _ a => c.badRows a.toNat 0 64
    | .ascal _ _ _ d _ => c.badRows d.toNat 0 64
    | .adrain _ _ _ _ _ d _ _ _ => c.badRows d.toNat 0 64
    | _ => false

/-- The lanes of `ared`: one for each row, the others 0 (R198). -/
def aredOut (c : CoreSt) (o : SlabOp) : Option VOut :=
  match o.instr with
  | .ared _ op lt _ d a =>
    let rows := (List.range 64).map fun m =>
      reduceRow op lt o.cap m (c.accRow a.toNat m 0 (64 * c.gangw))
    some { v := some (d, rows.map (·.1)), fl := orFlags (rows.map (·.2)) }
  | _ => none

/-! ### Tile and accumulator accesses (R185, R186, R196) -/

/-- One access: its address and size, whether it must be aligned, and the tile bytes it moves, in order, or the cell. -/
structure Piece where
  ea : Word
  n : Nat
  align : Bool
  member : Nat := 0
  bytes : List Nat := []
  cell : Nat × Nat := (0, 0)
  deriving DecidableEq, Repr

/-- Cut a run at 16-byte address boundaries: offsets and sizes (R186). -/
def cutRun : Nat → Word → Nat → Nat → List (Nat × Nat)
  | 0, _, _, _ => []
  | f + 1, ea, o, n =>
    if n ≤ o then []
    else
      let k := Nat.min (16 - (ea + BitVec.ofNat 64 o).toNat % 16) (n - o)
      (o, k) :: cutRun f ea (o + k) n

/-- The pieces of `tld` and `tst` on member g: segments, then scale bytes (R185, R186). -/
def tilePieces (d : TDesc) (seg g : Nat) (base stride scales : Word) : List Piece :=
  let sl := d.rowBytes / 2 ^ seg
  let h := if d.dist then g else 0
  let data := (List.range d.rows.toNat).flatMap fun r => (List.range (2 ^ seg)).flatMap fun i =>
    let a := base + BitVec.ofNat 64 (2 ^ seg * r + i) * stride + BitVec.ofNat 64 (h * sl)
    (List.range ((sl + 15) / 16)).map fun p =>
      let n := Nat.min 16 (sl - 16 * p)
      { ea := a + BitVec.ofNat 64 (16 * p), n, align := true, member := g,
        bytes := (List.range n).map fun j => 256 * r + i * sl + 16 * p + j : Piece }
  let nr := d.rowScales
  let nb := d.rows.toNat * nr
  let a := scales + BitVec.ofNat 64 (h * nb)
  let plane := (cutRun nb a 0 nb).map fun (o, n) =>
    { ea := a + BitVec.ofNat 64 o, n, align := false, member := g,
      bytes := (List.range n).map fun j => 16384 + 16 * ((o + j) / nr) + (o + j) % nr : Piece }
  data ++ plane

/-- The accesses of a matrix memory instruction in their order. -/
def opPieces (c : CoreSt) (o : SlabOp) : List Piece :=
  match o.instr with
  | .tld _ seg _ _ i _ _ =>
    (List.range c.gangw).flatMap fun g =>
      tilePieces (o.desc 0) seg.toNat g (arg o.args 0 + i.sext) (arg o.args 1) (arg o.args 2)
  | .tst _ seg _ _ i _ _ =>
    (List.range (if (o.desc 0).dist then c.gangw else 1)).flatMap fun g =>
      tilePieces (o.desc 0) seg.toNat g (arg o.args 0 + i.sext) (arg o.args 1) (arg o.args 2)
  | .aload _ _ _ i _ | .aread _ _ _ i _ =>
    (cellsOf c.gangw).map fun p =>
      { ea := arg o.args 0 + i.sext + BitVec.ofNat 64 p.1 * arg o.args 1 + BitVec.ofNat 64 (8 * p.2), n := 8, align := true,
        cell := p }
  | _ => []

/-- Check a piece; its memory key (R134, R186). -/
def pieceKey (s : State) (p : Piece) (need : BitVec 4) : Except Stop Nat :=
  match checkAccess s s.cur s.me.node [] p.ea p.n p.align need with
  | .ok key =>
    let loads := need == rR
    if (pathBusy s key && !(loads && ownCopy s s.cur key)) || (!loads && ownershipHeld s key) then .error (.path p.ea need) else .ok key
  | .error t => .error (.trap t)

/-- Read a piece: POISON where one of its bytes is poisoned (R136, R186). -/
def pieceLoad (s : State) (p : Piece) : Except Stop (List Byte × State) := do
  let key ← pieceKey s p rR
  let (bs, ps, t) := loadBytes (plbFill s s.myCore key s.owner ((window s s.cur p.ea).getD .global) p.ea) s.cur key p.n
  if ps.any id then .error (.fault ⟨.poison, p.ea, rR⟩ t) else .ok (bs, t)

/-- Write a piece. -/
def pieceStore (s : State) (p : Piece) (bs : List Byte) : Except Stop State := do
  let key ← pieceKey s p rW
  let t := plbFill s s.myCore key s.owner ((window s s.cur p.ea).getD .global) p.ea
  .ok (storeBytes t s.cur key bs)

/-- Perform a piece, with `cur` the slot of the instruction. -/
def piecePerform (s : State) (o : SlabOp) (p : Piece) : Except Stop (State × Flags) := do
  let c := s.core s.myCore
  match o.instr with
  | .tld _ _ d _ _ _ _ =>
    let (bs, t) ← pieceLoad s p
    .ok (t.modMyCore fun c => c.setTileBytes d.toNat p.member (p.bytes.zip bs), 0)
  | .tst _ _ d _ _ _ _ =>
    if p.bytes.any (c.tilePoisoned d.toNat p.member) then .error (.trap ⟨.poison, Config.freeWord s.fresh, 0⟩)
    else
      let t ← pieceStore s p (p.bytes.map (c.tileByte d.toNat p.member))
      .ok (t, 0)
  | .aload _ d _ _ _ =>
    let (bs, t) ← pieceLoad s p
    .ok (t.modMyCore fun c => c.setCell d.toNat p.cell.1 p.cell.2 (BitVec.ofNat 36 (leWord bs)), 0)
  | .aread _ d _ _ _ =>
    if c.accBad.get false (accKey d.toNat p.cell.1 p.cell.2) then .error (.trap ⟨.poison, Config.freeWord s.fresh, 0⟩)
    let t ← pieceStore s p (leBytes 8 (c.cell d.toNat p.cell.1 p.cell.2).toNat)
    .ok (t, 0)
  | _ => .ok (s, 0)

/-- The access of a piece for a slab instruction. -/
def pieceAccess (s : State) (o : SlabOp) (p : Piece) : Access :=
  (Access.of (piecePerform { s with cur := o.slot } o p)).from_ s.cur

/-- What a matrix memory instruction does after its last access: `tld` zeroes every unused tile byte (R185). -/
def pieceEnd (s : State) (core : Nat) (o : SlabOp) : State :=
  match o.instr with
  | .tld _ _ d _ _ _ _ => s.modCore core fun c => c.clearTile d.toNat (o.desc 0).uses
  | _ => s

/-! ### Dispatch (R179, R182, R185 to R201) -/

/-- The descriptor of a tile, if it passes a check. -/
def needDesc (s : State) (t : TReg) (good : TDesc → Bool) : Except Stop (List TDesc) :=
  let d := (s.core s.myCore).tdesc.get {} t.toNat
  if d.ok && good d then .ok [d] else .error ill

/-- The segments of a tile row are whole multiples of 8 bytes (R185). -/
def segOk (seg : BitVec 3) (d : TDesc) : Bool :=
  d.whole && d.rowBytes % 2 ^ seg.toNat == 0 && d.rowBytes / 2 ^ seg.toNat % 8 == 0

/-- A matrix instruction whose execution time depends on its descriptors. -/
def matrix (i : Instr) (h : Hdr) (srcs : List Reg) (rnd : List TDesc → Rnd) (cost : CoreSt → List Word → List TDesc → Nat)
    (checks : List Word → State → Except Stop (List TDesc)) (s : State) : Host.Outcome State Fault Refusal :=
  issue { i, h, srcs, pair := .joint } (fun vs s => do
    let ds ← checks vs s
    let t ← dispatch s i vs ds (rnd ds) (cost (s.core s.myCore) vs ds)
    done t) s

/-- The number of accesses of a matrix memory instruction: its execution time (R182). -/
def pieceCost (i : Instr) (c : CoreSt) (vs : List Word) (ds : List TDesc) : Nat :=
  (opPieces c { instr := i, slot := 0, seq := 0, pc := 0, cap := nearest, args := vs, descs := ds }).length

/-- `tld`: load a tile (R185, R186). -/
def execTld (h : Hdr) (seg : BitVec 3) (d : TReg) (a : Reg) (i : Imm) (b c : Reg) (s : State) :
    Host.Outcome State Fault Refusal :=
  matrix (.tld h seg d a i b c) h [a, b, c] (fun _ => anyMode) (pieceCost (.tld h seg d a i b c))
    (fun _ s => needDesc s d (segOk seg)) s

/-- `tst`: store a tile (R185, R186). -/
def execTst (h : Hdr) (seg : BitVec 3) (d : TReg) (a : Reg) (i : Imm) (b c : Reg) (s : State) :
    Host.Outcome State Fault Refusal :=
  matrix (.tst h seg d a i b c) h [a, b, c] (fun _ => anyMode) (pieceCost (.tst h seg d a i b c))
    (fun _ s => needDesc s d (segOk seg)) s

/-- `tzero`: every byte of the tile becomes 0 (R188). -/
def execTzero (h : Hdr) (d : TReg) (s : State) : Host.Outcome State Fault Refusal :=
  slab (.tzero h d) h [] anyMode (fun _ => 16) noChecks s

/-- `tmov`: copy a tile (R188). -/
def execTmov (h : Hdr) (d a : TReg) (s : State) : Host.Outcome State Fault Refusal :=
  slab (.tmov h d a) h [] anyMode (fun _ => 16) noChecks s

/-- `tfill`: fill the used elements of a tile (R188). -/
def execTfill (h : Hdr) (d : TReg) (a : Reg) (i : Imm) (s : State) : Host.Outcome State Fault Refusal :=
  slab (.tfill h d a i) h [a] anyMode (fun _ => 16) (fun _ s => needDesc s d fun _ => true) s

/-- The two descriptors of a product, if its dispatch checks pass (R189). -/
def mmaDescs (s : State) (m : MmaOp) : Except Stop (List TDesc) :=
  let c := s.core s.myCore
  let da := c.tdesc.get {} m.ta.toNat
  let db := c.tdesc.get {} m.tb.toNat
  if mmaOk m da db then .ok [da, db] else .error ill

/-- `mma`: a product into an accumulator (R189 to R192). -/
def execMma (h : Hdr) (op : MmaOp) (s : State) : Host.Outcome State Fault Refusal :=
  matrix (.mma h op) h [] (fun _ => mmaRnd op) (fun _ _ ds => mmaCost op (ds.getD 0 {})) (fun _ s => mmaDescs s op) s

/-- `mmaq`: queue a product in a follow-on slot (R193). -/
def execMmaq (h : Hdr) (f : FReg) (nt : BitVec 2) (op : MmaOp) (s : State) : Host.Outcome State Fault Refusal :=
  issue { i := .mmaq h f nt op, h, pair := .joint } (fun _ s => do
    let ds ← mmaDescs s op
    let cap ← needCapture s (mmaRnd op)
    let x := (s.core s.myCore).follow.get {} f.toNat
    if x.queued.isSome then .error (wait (.follow f false))
    else
      let o := capturedOp s (.mmaq h f nt op) [] ds cap (mmaCost op (ds.getD 0 {}))
      let y : Follow := { x with queued := some o, count := nt.toNat + 1, due := false }
      done (s.modMyCore fun c => { c with follow := c.follow.put f.toNat y })) s

/-- `mwait`: an interlock until the slot's slab instructions are complete (R195); it takes no sequence number (DESIGN CHOICE log 98). -/
def execMwait (h : Hdr) (s : State) : Host.Outcome State Fault Refusal :=
  issue { i := .mwait h, h, pair := .joint } (fun _ s => if slabBusy s s.cur then .error .hold else done s) s

/-- Whether a follow-on slot is Empty and the product last started from it complete (R195). -/
def followIdle (c : CoreSt) (f : FReg) : Bool :=
  let x := c.follow.get {} f.toNat
  x.queued.isNone && x.last.all fun q => !c.slabQ.any fun o => o.seq == q

/-- `mwait.f`: wait for a follow-on slot; D := the sequence number of its last product (R195); it takes none (DESIGN CHOICE log 98). -/
def execMwaitF (h : Hdr) (d : Reg) (f : FReg) (s : State) : Host.Outcome State Fault Refusal :=
  issue { i := .mwaitF h d f, h, dst := some d, pair := .joint } (fun _ s =>
    let c := s.core s.myCore
    if followIdle c f then
      give s d (match (c.follow.get {} f.toNat).last with
        | some q => q.zeroExtend 64
        | none => 2 ^ 32)
    else .error (wait (.follow f true))) s

/-- `azero`: every cell becomes 0 (R196). -/
def execAzero (h : Hdr) (d : AReg) (s : State) : Host.Outcome State Fault Refusal :=
  slab (.azero h d) h [] anyMode (fun _ => 16) noChecks s

/-- `aload`: load an accumulator (R196). -/
def execAload (h : Hdr) (d : AReg) (a : Reg) (i : Imm) (b : Reg) (s : State) : Host.Outcome State Fault Refusal :=
  matrix (.aload h d a i b) h [a, b] (fun _ => anyMode) (pieceCost (.aload h d a i b)) noChecks s

/-- `aread`: store an accumulator (R196). -/
def execAread (h : Hdr) (d : AReg) (a : Reg) (i : Imm) (b : Reg) (s : State) : Host.Outcome State Fault Refusal :=
  matrix (.aread h d a i b) h [a, b] (fun _ => anyMode) (pieceCost (.aread h d a i b)) noChecks s

/-- `acvt`: convert an accumulator into a tile (R197). -/
def execAcvt (h : Hdr) (rnd : Rnd) (d : TReg) (a : AReg) (s : State) : Host.Outcome State Fault Refusal :=
  matrix (.acvt h rnd d a) h [] (fun ds => if (ds.getD 0 {}).format.int then anyMode else rnd) (fun _ _ _ => 64)
    (fun _ s => needDesc s d fun t =>
      t.cols == 64 && t.format != .b4 && t.format != .bit && ((s.core s.myCore).gangw ≤ 1 || t.dist)) s

/-- The rounding modifier that matters to a drain: only the float formats round (R200). -/
def drainRnd (f : DrainFmt) (rnd : Rnd) : Rnd :=
  match f with
  | .f32 | .bf16 => rnd
  | _ => anyMode

/-- The dispatch checks of `adrain`: its extent, then its place (R200). -/
def drainChecks (f : DrainFmt) (doff : BitVec 22) (vs : List Word) (s : State) : Except Stop (List TDesc) :=
  let place := arg vs 2
  if 2 ^ 22 < doff.toNat + 4096 * (s.core s.myCore).gangw * f.bytes then .error ill
  else if place.getLsbD 30 || !s.hasQuad s.owner (place.extractLsb' 6 8).toNat (place.extractLsb' 14 8).toNat then
    .error (prot place)
  else .ok []

/-- `adrain`: drain an accumulator to the scratch of a quad and push a record there (R200 to R202).  The priority and the node of the
record stand behind the three operands. -/
def execAdrain (h : Hdr) (rnd : Rnd) (f : DrainFmt) (za : Bool) (doff : BitVec 22) (d : AReg) (a b c : Reg) (s : State) :
    Host.Outcome State Fault Refusal :=
  issue { i := .adrain h rnd f za doff d a b c, h, srcs := [a, b, c], pair := .joint } (fun vs s => do
    let ds ← drainChecks f doff vs s
    let more : List Word := [if s.me.prio then 1 else 0, BitVec.ofNat 64 s.me.node]
    let t ← dispatch s (.adrain h rnd f za doff d a b c) (vs ++ more) ds (drainRnd f rnd) 64
    done t) s

/-- `ared`: reduce each row of an accumulator into a lane (R198). -/
def execAred (h : Hdr) (op : RedOp) (lt : LaneTy) (rnd : Rnd) (d : VReg) (a : AReg) (s : State) :
    Host.Outcome State Fault Refusal :=
  slab (.ared h op lt rnd d a) h [] (if lt = .f32 then rnd else anyMode) (fun _ => 64) noChecks s

/-- `ascal`: scale every cell by a power of two (R199). -/
def execAscal (h : Hdr) (int : Bool) (rnd : Rnd) (d : AReg) (i : Imm) (s : State) : Host.Outcome State Fault Refusal :=
  slab (.ascal h int rnd d i) h [] (if int && 0 ≤ i.sext.toInt then anyMode else rnd) (fun _ => 64) noChecks s

end Sys2Proof.Machine
end

