-- ==== Sys2Proof/Machine/Engine.lean ====
section
/-! DEFINITION. The block-transfer agents: the engine instructions and the steps of a command (R203 to R226, R267). -/

namespace Sys2Proof.Machine

/-! ### Layout records (R209 to R211) -/

/-- A 48-bit signed stride of a layout record. -/
def layStride (l : List Byte) (at_ : Nat) : Int := (BitVec.ofNat 48 (layNat l at_ 6)).toInt
def zeroAt (l : List Byte) (at_ n : Nat) : Bool := layNat l at_ n == 0

def ndDims (l : List Byte) : Nat := layNat l 1 1
def ndRun (l : List Byte) : Nat := layNat l 4 4
/-- The count of dimension d, 1 to 3; a dimension beyond NDIM counts 1 (R210). -/
def ndCnt (l : List Byte) (d : Nat) : Nat := if d < ndDims l then layNat l (16 * d - 8) 4 else 1
def ndRuns (l : List Byte) : Nat := ndCnt l 1 * ndCnt l 2 * ndCnt l 3

/-- Whether a record describes a copy-ND (R210). -/
def ndOk (l : List Byte) : Bool :=
  layNat l 0 1 == 0 && 1 ≤ ndDims l && ndDims l ≤ 4 && zeroAt l 2 2 && 1 ≤ ndRun l &&
    [1, 2, 3].all fun d => if d < ndDims l then 1 ≤ ndCnt l d else zeroAt l (16 * d - 8) 16

/-- The offset of run r on the source or destination side (R210). -/
def ndOffset (l : List Byte) (dst : Bool) (r : Nat) : Int :=
  let st (d : Nat) : Int := if d < ndDims l then layStride l (16 * d - 4 + if dst then 6 else 0) else 0
  (r % ndCnt l 1 : Nat) * st 1 + (r / ndCnt l 1 % ndCnt l 2 : Nat) * st 2 + (r / (ndCnt l 1 * ndCnt l 2) : Nat) * st 3

def idxExt (l : List Byte) : Nat := layNat l 16 8
def idxFill (l : List Byte) : Nat := layNat l 24 8

/-- Whether a record describes a gather or scatter (R211). -/
def idxOk (l : List Byte) : Bool :=
  layNat l 0 1 == 1 && zeroAt l 1 3 && zeroAt l 40 24 && isPow2 (idxSize l) && idxSize l ≤ 4096 && layNat l 8 8 % 4 == 0

/-! ### What a command covers -/

/-- The target tile's descriptor. -/
def Cmd.tdesc (c : Cmd) : TDesc := c.desc.getD {}

/-- Members that the stream of a tile covers: M of R212. -/
def tileM (d : TDesc) (gangw : Nat) : Nat := if d.dist then gangw else 1
/-- Bytes of the data part of a tile's stream (R212). -/
def tileData (d : TDesc) (gangw : Nat) : Nat := tileM d gangw * d.rows.toNat * d.rowBytes
/-- Bytes of its scale part (R212). -/
def tileScales (d : TDesc) (gangw : Nat) : Nat := tileM d gangw * d.rows.toNat * d.rowScales

/-- Member and member byte of position p of a tile's stream (R185, R212). -/
def tilePos (d : TDesc) (gangw p : Nat) : Nat × Nat :=
  let rb := d.rowBytes
  let nr := d.rowScales
  if p < tileData d gangw then
    (p / (d.rows.toNat * rb), 256 * (p / rb % d.rows.toNat) + p % rb)
  else
    let q := p - tileData d gangw
    (q / (d.rows.toNat * nr), 16384 + 16 * (q / nr % d.rows.toNat) + q % nr)

/-- Units of a command in command order: bytes, or elements and then the mask (R208, R211, R212). -/
def Cmd.units (c : Cmd) : Nat :=
  match c.w0.ty with
  | .copy | .fill => c.len
  | .nd => c.len + if c.desc.isSome then tileScales c.tdesc c.gangw else 0
  | .radd => c.elems
  | .gth | .sct => c.elems + if layMask c.layout = 0 then 0 else 1

/-- Source address of byte unit u. -/
def Cmd.srcAt (c : Cmd) (u : Nat) : Word :=
  match c.w0.ty with
  | .nd =>
    if u < c.len then
      c.w1 + BitVec.ofInt 64 (ndOffset c.layout false (u / ndRun c.layout)) + BitVec.ofNat 64 (u % ndRun c.layout)
    else layScale c.layout + BitVec.ofNat 64 (u - c.len)
  | _ => c.w1 + BitVec.ofNat 64 u

/-- Destination address of byte unit u in memory. -/
def Cmd.dstAt (c : Cmd) (u : Nat) : Word :=
  match c.w0.ty with
  | .nd => c.w2 + BitVec.ofInt 64 (ndOffset c.layout true (u / ndRun c.layout)) + BitVec.ofNat 64 (u % ndRun c.layout)
  | _ => c.w2 + BitVec.ofNat 64 u

/-- The spans of memory a command may address (R154): address and length. -/
def Cmd.spans (c : Cmd) : List (Word × Nat) :=
  let whole (a : Word) (n : Nat) : List (Word × Nat) := [(a, n)]
  let tile := c.desc.isSome
  match c.w0.ty with
  | .copy => whole c.w1 c.len ++ if tile then [] else whole c.w2 c.len
  | .nd =>
    let run := ndRun c.layout
    ((List.range (ndRuns c.layout)).flatMap fun r =>
      whole (c.srcAt (r * run)) run ++ if tile then [] else whole (c.dstAt (r * run)) run) ++
      if tile then whole (layScale c.layout) (tileScales c.tdesc c.gangw) else []
  | .radd => whole c.w1 c.len ++ whole c.w2 c.len
  | .fill => whole c.w2 c.len
  | .gth | .sct =>
    let reach := idxExt c.layout * idxSize c.layout
    whole c.w1 (if c.w0.ty = .gth then reach else c.len) ++ whole c.w2 (if c.w0.ty = .gth then c.len else reach) ++
      whole (layIdx c.layout) (4 * c.elems) ++
      if layMask c.layout = 0 then [] else whole (layMask c.layout) ((c.elems + 7) / 8)

/-! ### Acceptance (R205 to R212, R217, R218) -/

/-- The bytes a range names, as an interval of memory keys; scratch ends with its quad (R208). -/
def namedBytes (s : State) (k : Nat) (ea : Word) (n : Nat) : Nat × Nat :=
  match window s k ea with
  | some (.scratch q o) => (scratchKey q o, Nat.min (scratchKey q o + n) (scratchKey (q + 1) 0))
  | _ => (offsetOf ea, offsetOf ea + n)

def overlap (a b : Nat × Nat) : Bool := a.1 < b.2 && b.1 < a.2

/-- Whether two of a list of ranges overlap. -/
def anyOverlap : List (Nat × Nat) → Bool
  | [] => false
  | a :: t => t.any (overlap a) || anyOverlap t

/-- The tile place of a destination word; the other bits of R212 are 0 and the place lies in the island. -/
def tilePlaceOk (s : State) (o : Nat) (w2 : Word) : Bool :=
  !w2.getLsbD 3 && w2.extractLsb' 22 26 == 0 && s.hasQuad o (w2.extractLsb' 6 8).toNat (w2.extractLsb' 14 8).toNat

/-- Copy the target tile's descriptor, gang width and sequence number into a command (R27, R187, R212). -/
def Cmd.aim (s : State) (c : Cmd) : Cmd :=
  if isTileWord c.w2 && (c.w0.ty == .copy || c.w0.ty == .nd) && tilePlaceOk s (ownerOf c.slot) c.w2 then
    let t := s.core (tileCore (ownerOf c.slot) c.w2)
    { c with desc := some (t.tdesc.get {} (tileNo c.w2)), gangw := t.gangw, seq := t.slabseq }
  else c

/-- What is wrong with a command whatever its length (R205, R212, R217, R218).  A target tile whose descriptor fails at acceptance ends it
BADCMD (R212); at its dispatch the instruction has trapped where it failed then (R30, DEDUCED log 83). -/
def badWords (s : State) (c : Cmd) (longLen : Bool) : Bool :=
  cwBad s (ownerOf c.slot) c.w3 || longLen || (c.w0.ty != .fill && isTileWord c.w1) ||
    (isTileWord c.w2 && (c.desc.isNone || !c.tdesc.ok || c.gangw == 0 || !c.tdesc.whole)) ||
    (c.w0.fol.isSome && c.desc.isNone)

/-- What is wrong with the ranges, the record or the length of a command (R208, R210 to R212) (DEDUCED log 37). -/
def badShape (s : State) (c : Cmd) : Bool :=
  let k := c.slot
  match c.w0.ty with
  | .copy =>
    if c.desc.isSome then c.len != tileData c.tdesc c.gangw + tileScales c.tdesc c.gangw
    else overlap (namedBytes s k c.w1 c.len) (namedBytes s k c.w2 c.len)
  | .nd =>
    !ndOk c.layout || c.len != ndRun c.layout * ndRuns c.layout ||
      if c.desc.isSome then
        c.len != tileData c.tdesc c.gangw || ((c.tdesc.format == .b4) != (layScale c.layout != 0))
      else layScale c.layout != 0 ||
        anyOverlap ((List.range (ndRuns c.layout)).map fun r =>
          namedBytes s k (c.dstAt (r * ndRun c.layout)) (ndRun c.layout))
  | .gth | .sct =>
    let n := Nat.min (idxSize c.layout) 8
    !idxOk c.layout || c.len % idxSize c.layout != 0 || c.w1.toNat % n != 0 || c.w2.toNat % n != 0
  | .radd =>
    let n := c.w0.ef.bytes
    c.len % n != 0 || c.w1.toNat % n != 0 || c.w2.toNat % n != 0
  | .fill => false

/-- The lowest free entry of a FIFO, which an accepted command takes (R203, R224) (DESIGN CHOICE log 101). -/
def freeFifoEntry (f : Fifo) : Nat := ((List.range 16).find? fun e => !(f.cmds.any fun c => c.entry == e)).getD 0

/-- A follow-on slot takes a trigger: whether it met no product that waits for one, and the state after it; the last one starts the
product where the backlog has room for it, else the product is due (R182, R194).  A trigger that meets a due product has nothing left to
count, and its command reports it as on an Empty slot (DESIGN CHOICE log 29). -/
def trigger (s : State) (core : Nat) (f : FReg) : Bool × State :=
  let x := (s.core core).follow.get {} f.toNat
  match x.queued with
  | none => (true, s)
  | some o =>
    let put (y : Follow) : State := s.modCore core fun c => { c with follow := c.follow.put f.toNat y }
    if x.due then (true, s)
    else if 1 < x.count then (false, put { x with count := x.count - 1 })
    else if slabRoom s core o.cost then (false, startFollow s core f o)
    else (false, put { x with due := true, count := 0 })

/-- A command reaches SRC (R216): with LVL 0 its completion word is written (R217). -/
def reachSrc (s : State) (core : Nat) (c : Cmd) : State :=
  let c1 := { c with state := .srcDone, srcWord := c.srcWord || !c.w0.lvl }
  setCmd (if !c.w0.lvl && !c.srcWord then writeCompletion s c stOk else s) core c1

/-- Whether a slab instruction uses a tile (R187). -/
def usesTile (o : SlabOp) (t : TReg) : Bool :=
  match o.instr with
  | .tld _ _ d _ _ _ _ | .tst _ _ d _ _ _ _ | .tzero _ d | .tfill _ d _ _ | .acvt _ _ d _ => d == t
  | .tmov _ d a => d == t || a == t
  | .mma _ m | .mmaq _ _ _ m => m.ta == t || m.tb == t
  | _ => false

/-- Whether a slab instruction dispatched before a sequence number has not finished with a tile (R187). -/
def CoreSt.tileBusy (c : CoreSt) (t : Nat) (seq : BitVec 32) : Bool :=
  c.slabQ.any fun o => usesTile o (BitVec.ofNat 3 t) && (o.seq - seq).msb

/-- Zero the unused bytes of tiles, each once the slab instructions dispatched before its command have finished with it (R187, R212). -/
def CoreSt.landClears (c : CoreSt) : CoreSt :=
  c.clears.foldl (fun x e => if c.tileBusy e.tile e.seq then { x with clears := x.clears ++ [e] } else x.clearTile e.tile e.desc.uses)
    { c with clears := [] }

/-- A command reaches VIS (R212, R214 to R218): unused tile bytes, which wait for earlier slab instructions where the command had no byte to
land (R187) (DEDUCED log 80), trigger, release, completion word.  One on a tile in a cell whose fence is closed ends NACK, of length 0 too
(DESIGN CHOICE log 80). -/
def reachVis (s : State) (core : Nat) (c : Cmd) : State :=
  if c.poison then terminal s core c stPoisoned
  else
    match c.desc with
    | none => terminal s core c stOk
    | some d =>
      let tc := tileCore (ownerOf c.slot) c.w2
      if s.fencedFrom c.slot tc then terminal s core c stNack else
      let s1 := s.modCore tc fun x => CoreSt.landClears { x with clears := x.clears ++ [{ tile := tileNo c.w2, desc := d, seq := c.seq }] }
      match c.w0.fol with
      | none => terminal s1 core c stOk
      | some f =>
        let (nf, s2) := trigger s1 tc f
        terminal s2 core { c with nf := c.nf || nf } stOk

/-! ### The units of a command (R208, R210 to R214) -/

/-- Why a command does not go on at a unit. -/
inductive EngStop where
  | ended (code : BitVec 8)
  | handBack (side : Nat) (ea : Word)
  | path (ea : Word) (need : BitVec 4)
  deriving DecidableEq, Repr

/-- Whether an address lies in a cell whose fence stands closed before the pushing slot (R391). -/
def nacked (s : State) (c : Cmd) (ea : Word) : Bool :=
  match window s c.slot ea with
  | some (.scratch q _) => s.fencedFrom c.slot q
  | _ => false

/-- The checks of one engine byte (R214): its memory key. -/
def engKey (s : State) (core : Nat) (c : Cmd) (ea : Word) (need : BitVec 4) (side : Nat) : Except EngStop Nat :=
  if nacked s c ea then .error (.ended stNack)
  else match checkAccess s c.slot 0 c.nodes ea 1 false (need ||| rE) with
  | .ok key =>
    if bankClosed s core c key then .error (.ended stRefused)
    else if pathBusy s key || (need == rW && ownershipHeld s key) then .error (.path ea need)
    else .ok key
  | .error t =>
    match t.cause with
    | .leaseOut => .error (.handBack side ea)
    | .arenaStale => .error (.ended stArenaStale)
    | .bankMode => .error (.ended stRefused)
    | _ => .error (.ended stProt)

/-- The checks of the bytes of one access. -/
def engKeys (s : State) (core : Nat) (c : Cmd) (ea : Word) (need : BitVec 4) (side : Nat) : Nat → Except EngStop (List Nat)
  | 0 => .ok []
  | n + 1 => do
    let ks ← engKeys s core c ea need side n
    let k ← engKey s core c (ea + BitVec.ofNat 64 n) need side
    .ok (ks ++ [k])

/-- Whether a byte access begins another access that reaches its home: that of another 32-byte sector, or the first of a run (R340). -/
def begins (run : Bool) (e : Nat × Nat) : Bool := e.1 % 32 == 0 || (run && e.2 == 0)

/-- Count the accesses that reach a page's home: one for each 32-byte sector of a run (R340). -/
def engCount (s : State) (c : Cmd) (run : Bool) (keys : List Nat) : State :=
  (keys.zipIdx.filter (begins run)).foldl (fun s e => countAccess s e.1 (lpkgOf c.slot)) s

/-- Write bytes with their poison at their homes (R214, R267, R381). -/
def engWrite (s : State) (c : Cmd) (run : Bool) (ea : Word) (keys : List Nat) (bs : List Byte) (ps : List Bool) : State × Cmd :=
  let t := (keys.zip (bs.zip ps)).foldl (fun s e => setPoison (deviceWrite s e.1 [e.2.1]) e.1 [e.2.2]) (engCount s c run keys)
  let bad := (List.range ps.length).find? fun i => ps.getD i false
  let low (a : Word) : Word := match c.poisoned with
    | none => a
    | some b => if a.toNat < b.toNat then a else b
  let lines := (keys.map lineOf).filter fun l => !(c.lines.contains l)
  (t, { c with
    poison := c.poison || bad.isSome
    poisoned := match bad with
      | none => c.poisoned
      | some i => some (low (ea + BitVec.ofNat 64 i))
    lines := c.lines ++ lines.dedup })

/-- The copy in the cache ways of the agent's quad that a read without ACQ may use: one within the age of R263 that holds a content no
older than the pushing thread's last store to the line (R215, R267). -/
def wayCopy (s : State) (core : Nat) (c : Cmd) (key : Nat) : Option LineCopy :=
  if c.w0.acq || isQuay core || isScratchKey key then none
  else
    let ln := lineOf key
    ((s.quad (quadOf core)).ways.find? ln).filter fun cp =>
      (s.core core).age - cp.fetched < 4096 && cp.owner == ownerOf core &&
        (cp.bytes == readBytes s (ln * 128) 128 ||
          ((s.past.get [] ln).takeWhile fun v => v.writer != some c.slot).any fun v => v.bytes == cp.bytes)

/-- Read bytes with their poison: at their homes, or from a copy in the cache ways where a free value has it (R267, DESIGN CHOICE log 1). -/
def engRead (s : State) (core : Nat) (c : Cmd) (run : Bool) (keys : List Nat) : List Byte × List Bool × State :=
  let (f, s0) := s.tick
  keys.zipIdx.foldl (fun r e =>
    let t := r.2.2
    match (wayCopy t core c e.1).filter fun _ => Config.freeKeep f with
    | some cp => (r.1 ++ [cp.bytes.getD (e.1 % 128) 0], r.2.1 ++ [cp.poison.getD (e.1 % 128) false], t)
    | none =>
      let u := homeFetch (if begins run e then countAccess t e.1 (lpkgOf c.slot) else t) e.1
      (r.1 ++ [readByte u e.1], r.2.1 ++ [poisonAt u e.1], u)) ([], [], s0)

/-- Read bytes with their poison at their homes (R213, R267). -/
def engHome (s : State) (c : Cmd) (run : Bool) (keys : List Nat) : List Byte × List Bool × State :=
  let t := keys.foldl homeFetch (engCount s c run keys)
  (keys.map (readByte t), keys.map (poisonAt t), t)

/-- Land one byte of a tile's stream (R212, R214). -/
def landTile (s : State) (c : Cmd) (p : Nat) (b : Byte) (poison : Bool) : State × Cmd :=
  let (g, n) := tilePos c.tdesc c.gangw p
  let members := if c.tdesc.dist then [g] else List.range c.gangw
  (s.modCore (tileCore (ownerOf c.slot) c.w2) fun x => members.foldl (fun x g => x.setTile (tileNo c.w2) g n b poison) x,
    { c with poison := c.poison || poison })

/-- Whether the next byte begins a run of addresses. -/
def Cmd.newRun (c : Cmd) : Bool :=
  c.done == 0 || (c.w0.ty == .nd && if c.done < c.len then c.done % ndRun c.layout == 0 else c.done == c.len)

/-- One byte of a copy, a copy-ND or a tile's stream. -/
def moveUnit (s : State) (core : Nat) (c : Cmd) : Except EngStop (State × Cmd) := do
  let ks ← engKeys s core c (c.srcAt c.done) rR 0 1
  if c.desc.isSome then
    if s.fencedFrom c.slot (tileCore (ownerOf c.slot) c.w2) then .error (.ended stNack)
    else
      let (bs, ps, t) := engRead s core c c.newRun ks
      .ok (landTile t c c.done (bs.headD 0) (ps.headD false))
  else
    let kd ← engKeys s core c (c.dstAt c.done) rW 1 1
    let (bs, ps, t) := engRead s core c c.newRun ks
    .ok (engWrite t c c.newRun (c.dstAt c.done) kd bs ps)

/-- A byte of a fill pattern (R208, R211). -/
def patByte (w i : Nat) : Byte := BitVec.ofNat 8 (w / 256 ^ (i % 8))

/-- One byte of a fill. -/
def fillUnit (s : State) (core : Nat) (c : Cmd) : Except EngStop (State × Cmd) := do
  let kd ← engKeys s core c (c.dstAt c.done) rW 1 1
  .ok (engWrite s c c.newRun (c.dstAt c.done) kd [patByte c.w1.toNat c.done] [false])

/-- The sum of a reduction's element and its flags (R213). -/
def raddSum (ef : RaddElt) (d x : Nat) : Nat × Flags :=
  match ef with
  | .f32 => f32.add nearest 0 0 d x
  | .bf16 => bf16.add nearest 0 0 d x
  | .s32 | .s64 => ((d + x) % 256 ^ ef.bytes, 0)

/-- One element of a reduction: its update reads and writes at the destination (R213, R214). -/
def raddUnit (s : State) (core : Nat) (c : Cmd) : Except EngStop (State × Cmd) := do
  let n := c.w0.ef.bytes
  let da := c.w2 + BitVec.ofNat 64 (c.done * n)
  let ks ← engKeys s core c (c.w1 + BitVec.ofNat 64 (c.done * n)) rR 0 n
  let kd ← engKeys s core c da rW 1 n
  let (xs, px, s0) := engRead s core c true ks
  let (ds, pd, s1) := engHome s0 c true kd
  if px.any id || pd.any id then .ok (engWrite s1 c true da kd ds (ds.map fun _ => true))
  else
    let (r, fl) := raddSum c.w0.ef (leWord ds) (leWord xs)
    .ok (engWrite s1 { c with fl := c.fl ||| fl } true da kd (leBytes n r) (ds.map fun _ => false))

/-- Read the index of the next element, once (R211). -/
def fetchIndex (s : State) (core : Nat) (c : Cmd) : Except EngStop (State × Cmd) := do
  if !c.indexed || c.elems ≤ c.done || c.index.isSome then .ok (s, c)
  else
    let ks ← engKeys s core c (layIdx c.layout + BitVec.ofNat 64 (4 * c.done)) rR 2 4
    let (bs, ps, t) := engRead s core c true ks
    if ps.any id then .error (.ended stPoisoned)
    else .ok (t, { c with index := some (leWord bs) })

/-- One element of a gather or scatter, its index read (R211). -/
def elemUnit (s : State) (core : Nat) (c : Cmd) : Except EngStop (State × Cmd) := do
  let n := idxSize c.layout
  let i := c.index.getD 0
  let at_ (a : Word) (j : Nat) : Word := a + BitVec.ofNat 64 (j * n)
  let out : Bool := idxExt c.layout ≤ i
  let c1 := { c with bits := c.bits ++ [out], gm := c.gm || out }
  let gth := c.w0.ty == .gth
  if out && !gth then .ok (s, c1)
  else
    let da := at_ c.w2 (if gth then c.done else i)
    if out then
      let kd ← engKeys s core c da rW 1 n
      .ok (engWrite s c1 true da kd ((List.range n).map (patByte (idxFill c.layout))) (List.replicate n false))
    else
      let ks ← engKeys s core c (at_ c.w1 (if gth then i else c.done)) rR 0 n
      let kd ← engKeys s core c da rW 1 n
      let (bs, ps, t) := engRead s core c true ks
      .ok (engWrite t c1 true da kd bs ps)

/-- The bytes of the result mask (R211). -/
def maskBytes (bits : List Bool) : List Byte :=
  (List.range ((bits.length + 7) / 8)).map fun i =>
    BitVec.ofNat 8 (((List.range 8).map fun j => if bits.getD (8 * i + j) false then 2 ^ j else 0).sum)

/-- The result mask, written behind the last element. -/
def maskUnit (s : State) (core : Nat) (c : Cmd) : Except EngStop (State × Cmd) := do
  let bs := maskBytes c.bits
  let kd ← engKeys s core c (layMask c.layout) rW 1 bs.length
  .ok (engWrite s c true (layMask c.layout) kd bs (bs.map fun _ => false))

/-- The next unit of a command. -/
def nextUnit (s : State) (core : Nat) (c : Cmd) : Except EngStop (State × Cmd) :=
  match c.w0.ty with
  | .copy | .nd => moveUnit s core c
  | .fill => fillUnit s core c
  | .radd => raddUnit s core c
  | .gth | .sct => if c.done < c.elems then elemUnit s core c else maskUnit s core c

/-! ### Hand-back (R224, R225) -/

/-- The record address of a FIFO entry (R224). -/
def recordAddr (s : State) (core : Nat) (c : Cmd) : Word :=
  BitVec.ofNat 64 ((s.ctx (ownerOf core)).ringBase - 1024 * ((s.core core).fifo.number + 1) + 64 * c.entry)

/-- The 64 bytes of a hand-back record (R224). -/
def handRecord (c : Cmd) (side : Nat) (ea : Word) : List Byte :=
  le 8 c.w0.x.toNat ++ le 8 c.w1.toNat ++ le 8 c.w2.toNat ++ le 8 c.w3.toNat ++ le 8 c.delivered ++ le 8 ea.toNat ++
    le 4 c.cnum.toNat ++ le 4 c.batch.toNat ++ le 1 side ++ zeros 7

/-- Hand a command back: its record, then XHAND to the slot, or HANDBACK_LOST where the slot has gone on (R224, R225). -/
def handBackTo (s : State) (core : Nat) (c : Cmd) (side : Nat) (ea : Word) : State :=
  if lifeOf s c.slot != c.life || !(s.slot c.slot).running then setCmd s core { c with ended := some stHandbackLost }
  else
    let a := recordAddr s core c
    let s1 := deviceWrite s (a.toNat % 2 ^ 56) (handRecord c side ea)
    let p : Pend := { cause := Cause.xhand.code, late := false, pc := 0, tval := a, tseq := 0, lvl := false }
    let s2 := (pairOf s1 c.slot).foldl (fun s j => s.modSlot j fun x => { x with pend := x.pend ++ [p] }) s1
    setCmd { s2 with agenda := s2.agenda ++ [.xhand c.slot] } core { c with handed := some a }

/-- A command stops at a unit. -/
def stopCmd (s : State) (core : Nat) (c : Cmd) (e : EngStop) : State :=
  match e with
  | .ended code => setCmd s core { c with ended := some code }
  | .handBack side ea => handBackTo s core c side ea
  | .path ea need => setCmd s core { c with touch := some (ea, need) }

/-- Perform up to a number of units in command order (DESIGN CHOICE log 17). -/
def runUnits (core : Nat) : Nat → State → Cmd → State
  | 0, s, c => setCmd s core c
  | n + 1, s, c =>
    if c.units ≤ c.done then setCmd s core c
    else match fetchIndex s core c with
      | .error e => stopCmd s core c e
      | .ok (s1, c1) =>
        match nextUnit s1 core c1 with
        | .error e => stopCmd s1 core c1 e
        | .ok (s2, c2) => runUnits core n s2 { c2 with done := c2.done + 1, index := none, touch := none }

/-! ### What a command does next -/

/-- Whether a tile command waits for a slab instruction dispatched before it was pushed (R187). -/
def tileWaits (s : State) (c : Cmd) : Bool :=
  c.desc.isSome && (s.core (tileCore (ownerOf c.slot) c.w2)).tileBusy (tileNo c.w2) c.seq

/-- The commands accepted before one that hold an entry still. -/
def Fifo.before (f : Fifo) (c : Cmd) : List Cmd := f.cmds.takeWhile fun x => x.cnum != c.cnum

/-- Whether a queued command may start: those before it in the FIFO have (R204). -/
def mayStart (f : Fifo) (c : Cmd) : Bool := (f.before c).all fun x => x.state != .queued || x.ended.isSome

/-- Whether the first read of a command with ACQ waits for an earlier command that is not terminal (R215). -/
def readHeld (f : Fifo) (c : Cmd) : Bool :=
  c.w0.acq && c.w0.ty != .fill && c.done == 0 && c.index.isNone && !(f.before c).isEmpty

/-- Whether a command goes on: it may start, or run its units, and nothing holds it.  A tile command that R187 holds has not started: it stays
queued, and the commands behind it in its FIFO with it (DESIGN CHOICE log 102). -/
def mayRun (s : State) (core : Nat) (c : Cmd) : Bool :=
  c.handed.isNone && c.ended.isNone && c.done < c.units && !tileWaits s c &&
    match c.state with
    | .queued => mayStart (s.core core).fifo c
    | .running => c.w0.ty != .fill && !readHeld (s.core core).fifo c
    | .srcDone => c.w0.ty == .fill

/-- Whether a command may reach SRC: a fill at its start, another when every unit is done (R216) (DEDUCED log 61). -/
def maySrc (s : State) (core : Nat) (c : Cmd) : Bool :=
  c.handed.isNone && c.ended.isNone &&
    if c.w0.ty = .fill then c.state == .running || (c.state == .queued && mayStart (s.core core).fifo c)
    else c.state == .running && c.units ≤ c.done

/-- Whether a command may reach VIS (R216). -/
def mayVis (c : Cmd) : Bool := c.handed.isNone && c.ended.isNone && c.state == .srcDone && c.units ≤ c.done

/-- The command that a push presents, with what it copies of the slot and of its target tile (R27, R205, R209, R212). -/
def offered (s : State) (w0 : Cmd0) (w1 w2 w3 : Word) : Cmd :=
  let f := (s.core s.myCore).fifo
  ({ cnum := f.next, entry := freeFifoEntry f, w0, w1, w2, w3, slot := s.cur, life := lifeOf s s.cur, batch := s.me.batch,
     layout := f.layouts.get (zeros 64) w0.lay.toNat,
     nodes := (s.myCtx.leases.filter fun l => l.node != 0 && l.node == s.me.node).map (·.base) } : Cmd).aim s

/-- Put an accepted command into the FIFO; a malformed one ends BADCMD, and one of length 0 reaches SRC and VIS (R205, R206) (DEDUCED
log 80). -/
def accept (s : State) (c : Cmd) (longLen : Bool) : State :=
  let core := s.myCore
  let s0 := modFifo s core fun f => { f with cmds := f.cmds ++ [c], next := f.next + 1 }
  let s1 := if c.desc.isSome then s0.modCore (tileCore (ownerOf c.slot) c.w2) fun x => { x with slabAt := s.cycle + 1 } else s0
  if badWords s c longLen then terminal s1 core c stBadCmd
  else if c.len = 0 then
    let s2 := reachSrc s1 core c
    reachVis s2 core ((findCmd s2 core c.cnum).getD c)
  else if badShape s c then terminal s1 core c stBadCmd
  else s1

/-- Run the units of a command of a type (R208). -/
def runCmd (ty : CmdTy) (core : Nat) (cnum : BitVec 32) (units : Nat) (s : State) : Host.Outcome State Fault Refusal :=
  match findCmd s core cnum with
  | none => .next s
  | some c =>
    if c.w0.ty == ty && mayRun s core c then
      .next (runUnits core (if readHeld (s.core core).fifo c then 0 else units) s { c with state := if c.state = .queued then .running else c.state })
    else .next s

/-- COPY: up to `units` bytes of a `.copy` (R208). -/
def execCopy (core : Nat) (cnum : BitVec 32) (units : Nat) (s : State) : Host.Outcome State Fault Refusal :=
  runCmd .copy core cnum units s
/-- COPY-ND: up to `units` bytes of a `.nd` (R210). -/
def execCopyNd (core : Nat) (cnum : BitVec 32) (units : Nat) (s : State) : Host.Outcome State Fault Refusal :=
  runCmd .nd core cnum units s
/-- GATHER: up to `units` elements of a `.gth` (R211). -/
def execGather (core : Nat) (cnum : BitVec 32) (units : Nat) (s : State) : Host.Outcome State Fault Refusal :=
  runCmd .gth core cnum units s
/-- SCATTER: up to `units` elements of a `.sct` (R211). -/
def execScatter (core : Nat) (cnum : BitVec 32) (units : Nat) (s : State) : Host.Outcome State Fault Refusal :=
  runCmd .sct core cnum units s
/-- REDUCE-ADD: up to `units` elements of a `.radd` (R213). -/
def execReduceAdd (core : Nat) (cnum : BitVec 32) (units : Nat) (s : State) : Host.Outcome State Fault Refusal :=
  runCmd .radd core cnum units s
/-- FILL: up to `units` bytes of a `.fill` (R208). -/
def execFill (core : Nat) (cnum : BitVec 32) (units : Nat) (s : State) : Host.Outcome State Fault Refusal :=
  runCmd .fill core cnum units s

/-- SRC: every source read of the command is finished (R215, R216). -/
def execSrc (core : Nat) (cnum : BitVec 32) (s : State) : Host.Outcome State Fault Refusal :=
  match findCmd s core cnum with
  | none => .next s
  | some c => if maySrc s core c then .next (reachSrc s core c) else .next s

/-- VIS: every write of the command has landed (R215 to R218). -/
def execVis (core : Nat) (cnum : BitVec 32) (s : State) : Host.Outcome State Fault Refusal :=
  match findCmd s core cnum with
  | none => .next s
  | some c => if mayVis c then .next (reachVis s core c) else .next s

/-- The end of a command with a status other than OK (R216). -/
def execCommandEnd (core : Nat) (cnum : BitVec 32) (s : State) : Host.Outcome State Fault Refusal :=
  match findCmd s core cnum with
  | none => .next s
  | some c =>
    match c.ended with
    | none => .next s
    | some code => .next (terminal s core c code)

/-- XHAND: the hand-backs of a slot reach it before its next issue (R225, R355). -/
def execXhand (slot : Nat) (s : State) : Host.Outcome State Fault Refusal := .next (deliverPending s slot)

/-- What the agent of a FIFO may do next with a command; `units` is how many units a run takes. -/
def nextEvent (s : State) (core units : Nat) (c : Cmd) : Option Instr :=
  if c.ended.isSome then some (.commandEnd core c.cnum)
  else if maySrc s core c then some (.src core c.cnum)
  else if mayVis c then some (.vis core c.cnum)
  else if mayRun s core c then
    some (match c.w0.ty with
      | .copy => .copy core c.cnum units
      | .nd => .copyNd core c.cnum units
      | .gth => .gather core c.cnum units
      | .sct => .scatter core c.cnum units
      | .radd => .reduceAdd core c.cnum units
      | .fill => .fill core c.cnum units)
  else none

/-! ### The engine instructions -/

/-- Sources of a push, the queue registers replaced by g0 where nothing may be popped (R205). -/
def unpopped (rs : List Reg) : List Reg := rs.map fun r => if r.isQueue then 0 else r

/-- The command that the operands A, B, C and D give (R205). -/
def pushed (w0 : Cmd0) (value : BitVec 16) (v : List Word) (s : State) : Cmd :=
  offered s { w0 with len := if w0.len = 0 then (arg v 3).extractLsb' 0 40 else w0.len } (arg v 0) (arg v 1)
    (value ++ (arg v 2).extractLsb' 0 48)

/-- Accept that command: its number, and the state after it (R205). -/
def pushCommand (w0 : Cmd0) (value : BitVec 16) (v : List Word) (s : State) : BitVec 32 × State :=
  let c := pushed w0 value v s
  (c.cnum, accept s c (w0.len == 0 && (arg v 3).extractLsb' 40 24 != 0))

/-- A push names a tile register whose descriptor fails: it traps at its dispatch, before it waits for room (R30, DEDUCED log 83). -/
def badTile (w0 : Cmd0) (value : BitVec 16) (v : List Word) (s : State) : Bool :=
  (pushed w0 value v s).desc.any fun d => !d.ok

/-- A push names a tile register whose descriptor holds an error: the check of its dispatch reads it (R30, R389, DESIGN CHOICE log 106). -/
def upsetTile (w0 : Cmd0) (value : BitVec 16) (v : List Word) (s : State) : Bool :=
  let c := pushed w0 value v s
  c.desc.isSome && (s.core (tileCore (ownerOf c.slot) c.w2)).descBad.get false (tileNo c.w2)

/-- The checks of a push at its dispatch: a descriptor that holds an error is consumed, and one that fails traps ILLEGAL (R30, R390). -/
def tileCheck (w0 : Cmd0) (value : BitVec 16) (v : List Word) (s : State) : Except Stop Unit :=
  if upsetTile w0 value v s then .error (.fault ⟨.poison, Config.freeWord s.fresh, 0⟩ s.tick.2)
  else if badTile w0 value v s then .error ill
  else .ok ()

/-- `xpush`: push a command; wait while the FIFO is full (R205). -/
def execXpush (h : Hdr) (w0 : Cmd0) (value : BitVec 16) (d a b c : Reg) (s : State) : Host.Outcome State Fault Refusal :=
  issue { i := .xpush h w0 value d a b c, h, srcs := [a, b, c, d], pair := .joint } (fun v s => do
    if !(s.me.blk.any fun b => b.wait == .fifo) then tileCheck w0 value v s
    if 16 ≤ (s.core s.myCore).fifo.cmds.length then .error (wait .fifo)
    else done (pushCommand w0 value v s).2) s

/-- `xpushb`: push a command, or answer all ones where the FIFO is full (R205), whatever its target tile's descriptor (DESIGN CHOICE log 83). -/
def execXpushb (h : Hdr) (w0 : Cmd0) (value : BitVec 16) (d a b c : Reg) (s : State) : Host.Outcome State Fault Refusal :=
  let full := 16 ≤ (s.core s.myCore).fifo.cmds.length
  let srcs := [a, b, c, d]
  issue { i := .xpushb h w0 value d a b c, h, srcs := if full then unpopped srcs else srcs, dst := some d, pair := .joint }
    (fun v s =>
      if full then give s d (-1)
      else do
        tileCheck w0 value v s
        let (n, t) := pushCommand w0 value v s
        give t d (n.zeroExtend 64)) s

/-- `xlay`: one 64-byte load, as any other, into an entry of the layout table (R209). -/
def execXlay (h : Hdr) (a : Reg) (id : BitVec 8) (s : State) : Host.Outcome State Fault Refusal :=
  issue { i := .xlay h a id, h, srcs := [a], pair := .joint } (fun v s => do
    let (bs, t) ← loadRun s (arg v 0) 64
    done (modFifo t t.myCore fun f => { f with layouts := f.layouts.put id.toNat bs })) s

/-- The sealed batches of a slot that are unfinished at VIS, or at SRC (R219). -/
def openSeals (s : State) (k : Nat) (vis : Bool) : Nat :=
  (((s.core (coreOf k)).fifo.cmds.filter fun c =>
    c.slot == k && c.batch != (s.slot k).batch && (vis || c.state != .srcDone)).map (·.batch)).dedup.length

/-- `xseal`: close the open batch; wait while 15 sealed ones are unfinished (R220). -/
def execXseal (h : Hdr) (d : Reg) (s : State) : Host.Outcome State Fault Refusal :=
  issue { i := .xseal h d, h, dst := some d, pair := .joint } (fun _ s =>
    if 15 ≤ openSeals s s.cur true then .error (wait .fifo)
    else give (s.modMe fun x => { x with batch := x.batch + 1 }) d (s.me.batch.zeroExtend 64)) s

/-- `xwait`: wait until at most n sealed batches are unfinished (R221). -/
def execXwait (h : Hdr) (vis : Bool) (d : Reg) (i : Imm) (s : State) : Host.Outcome State Fault Refusal :=
  issue { i := .xwait h vis d i, h, dst := some d, pair := .joint } (fun _ s =>
    let n := openSeals s s.cur vis
    if n ≤ i.zext.toNat then give s d (BitVec.ofNat 64 n) else .error (wait .fifo)) s

/-- STATE of a command that holds an entry (R222). -/
def CmdState.code : CmdState → Nat
  | .queued => 0 | .running => 1 | .srcDone => 2

/-- What `xstat` gives of a command (R222). -/
def commandWord (s : State) (core : Nat) (n : BitVec 32) : Word :=
  match findCmd s core n with
  | some c =>
    BitVec.ofNat 64 (c.state.code + (if c.handed.isSome then 4 else 0) + (c.status (c.ended.getD stOk)).toNat * 2 ^ 8
      + c.delivered % 2 ^ 40 * 2 ^ 24)
  | none =>
    match (s.core core).fifo.kept.find? fun k => k.cnum == n with
    | some k => BitVec.ofNat 64 (3 + k.status.toNat * 2 ^ 8 + k.done % 2 ^ 40 * 2 ^ 24)
    | none => -1

/-- `xstat`: the state of a command of the FIFO (R222). -/
def execXstat (h : Hdr) (d a : Reg) (s : State) : Host.Outcome State Fault Refusal :=
  issue { i := .xstat h d a, h, srcs := [a], dst := some d, pair := .joint }
    (fun v s => give s d (commandWord s s.myCore ((arg v 0).extractLsb' 0 32))) s

/-- The summary of a slot's commands (R222). -/
def summaryWord (s : State) (k : Nat) : Word :=
  let mine := (s.core (coreOf k)).fifo.cmds.filter fun c => c.slot == k
  let open_ := (mine.filter fun c => c.batch == (s.slot k).batch).length
  let handed := (mine.filter fun c => c.handed.isSome).length
  BitVec.ofNat 64 (open_ + openSeals s k false * 2 ^ 8 + openSeals s k true * 2 ^ 16 + handed * 2 ^ 24)

/-- `xstat.sum`: the summary of the slot (R222). -/
def execXstatSum (h : Hdr) (d : Reg) (s : State) : Host.Outcome State Fault Refusal :=
  issue { i := .xstatSum h d, h, dst := some d, pair := .joint } (fun _ s => give s d (summaryWord s s.cur)) s

/-- `xstat.p`: the lowest poisoned destination address of a command (R222). -/
def execXstatP (h : Hdr) (d a : Reg) (s : State) : Host.Outcome State Fault Refusal :=
  issue { i := .xstatP h d a, h, srcs := [a], dst := some d, pair := .joint } (fun v s =>
    let n := (arg v 0).extractLsb' 0 32
    give s d (match findCmd s s.myCore n with
      | some c => c.poisoned.getD 0
      | none => (((s.core s.myCore).fifo.kept.find? fun k => k.cnum == n).map (·.poisoned)).getD 0)) s

/-- Cancel one command: a handed-back one ends at once, another before its next access (R223) (DEDUCED log 62).  An XHAND that has not reached
the slot yet is delivered all the same (DESIGN CHOICE log 103). -/
def cancelCmd (s : State) (core : Nat) (c : Cmd) : State :=
  if c.handed.isSome then terminal s core { c with handed := none } stCancelled
  else setCmd s core { c with ended := some stCancelled }

/-- `xcan`: cancel a command or a batch of the slot; D := the number of commands changed (R223). -/
def execXcan (h : Hdr) (batch : Bool) (d a : Reg) (s : State) : Host.Outcome State Fault Refusal :=
  issue { i := .xcan h batch d a, h, srcs := [a], dst := some d, pair := .joint } (fun v s =>
    let n := (arg v 0).extractLsb' 0 32
    let hit := (s.core s.myCore).fifo.cmds.filter fun c =>
      c.slot == s.cur && (if batch then c.batch else c.cnum) == n
    give (hit.foldl (fun s c => cancelCmd s s.myCore c) s) d (BitVec.ofNat 64 hit.length)) s

/-- `xres`: resume the handed-back command whose record is at A (R226). -/
def execXres (h : Hdr) (a : Reg) (s : State) : Host.Outcome State Fault Refusal :=
  issue { i := .xres h a, h, srcs := [a], pair := .joint } (fun v s =>
    match (s.core s.myCore).fifo.cmds.find? fun c => c.slot == s.cur && c.handed == some (arg v 0) with
    | none => .error (prot (arg v 0))
    | some c => done (setCmd s s.myCore { c with handed := none })) s

end Sys2Proof.Machine
end

