-- ==== Sys2Proof/Machine/Task.lean ====
section
/-! DEFINITION. The meanings of frames, nodes and rings, spawn, the iteration fetcher, barriers, queues, places, gang widths and checked
pairs (R227 to R247). -/

namespace Sys2Proof.Machine

/-! ### Frames and nodes (R229 to R232) -/

/-- The memory key of a frame: R134 as a 16-byte store, and scratch windows only (R231). -/
def frameKey (s : State) (fa : Word) : Except Stop Nat := do
  let key ← check s s.cur fa 16 rW
  if isScratchKey key then .ok key else .error (prot fa)

/-- The lowest number from `n` upward that an ascending table does not list. -/
def lowestFree {α : Type} : Tab α → Nat → Nat
  | [], n => n
  | e :: t, n => if e.1 = n then lowestFree t (n + 1) else if e.1 < n then lowestFree t n else n

/-- The lowest free node number of a context; there are 65,535 (R230, R231). -/
def freeNode (c : Ctx) : Option Nat :=
  let n := lowestFree c.nodes 1
  if n ≤ 65535 then some n else none

/-- A node becomes live; `begun` says whether its first member has begun (R230). -/
def newNode (s : State) (o n : Nat) (begun : Bool) : State := s.modCtx o fun c => { c with nodes := c.nodes.put n begun }

/-- The wait for room on a ring: TVAL names the ring's core (R233, R288). -/
def ringWait (core : Nat) : Stop := wait (.ring (placeOf core) core)

/-- The bytes of a frame (R229). -/
def frameBytes (join : Word) (n : Nat) (home : BitVec 2) (rstrt hi : Bool) (code : Word) : List Byte :=
  leBytes 4 join.toNat ++ leBytes 2 n ++ [home.zeroExtend 8, (bit1 hi ++ bit1 rstrt).zeroExtend 8] ++
    leBytes 8 (code.toNat / 32 * 32)

/-- `cnew`: take the lowest free node, write the frame as one store, and fire it where it joins nothing (R231, R278). -/
def execCnew (h : Hdr) (home : BitVec 2) (rstrt hi : Bool) (d a : Reg) (i : Imm) (b c : Reg) (s : State) :
    Host.Outcome State Fault Refusal :=
  issue { i := .cnew h home rstrt hi d a i b c, h, srcs := [a, b, c], dst := some d, pair := .joint } (fun v s => do
    let fa := arg v 0 + i.sext
    let key ← frameKey s fa
    let join := (arg v 1).setWidth 32
    let core := (key - 2 ^ 56) / 2 ^ 22 + 16 * home.toNat
    match freeNode s.myCtx with
    | none => give s d 0
    | some n =>
      if join = 0 && ringFull (s.core core) then .error (ringWait core)
      else
        let s0 ← takeLatch s s.cur key
        let s1 := newNode s0 s.owner n false
        let s2 := storeBytes s1 s.cur key (frameBytes (join.zeroExtend 64) n home rstrt hi (arg v 2))
        let s3 := if join = 0 then fireFrame s2 s.cur fa key s2.me.tt else s2
        give s3 d (BitVec.ofNat 64 n)) s

/-- The decrement of a join counter as one step: a late one goes to the fault ring, the last one fires the frame (R232, R278). -/
def decrement (s : State) (fa : Word) : Except Stop State := do
  let key ← frameKey s fa
  if anyPoison s key 4 then .error (.trap ⟨.poison, fa, rR ||| rW⟩)
  else
    let s ← takeLatch s s.cur key
    let old := leNat 4 (readBytes s key 4)
    if old = 0 then
      .ok (faultAdd (storeTime s s.cur key) s.owner
        { cause := 0x80, tid := tidOf s.cur, pc := s.me.pc, addr := fa })
    else if old = 1 && ringFull (s.core (frameCore s key)) then .error (ringWait (frameCore s key))
    else
      let t := storeBytes s s.cur key (leBytes 4 (old - 1))
      .ok (if old = 1 then fireFrame t s.cur fa key t.me.tt else t)

/-- `dec`: decrement a join counter (R232). -/
def execDec (h : Hdr) (a : Reg) (i : Imm) (s : State) : Host.Outcome State Fault Refusal :=
  issue { i := .dec h a i, h, srcs := [a], pair := .joint } (fun v s => do
    let t ← decrement s (arg v 0 + i.sext)
    done t) s

/-! ### Rings and priority (R234) -/

/-- `rpush`: push a record at the slot's priority onto the ring of a core (R234). -/
def execRpush (h : Hdr) (a b c : Reg) (s : State) : Host.Outcome State Fault Refusal :=
  issue { i := .rpush h a b c, h, srcs := [a, b, c], pair := .joint } (fun v s =>
    let place := arg v 2
    match placeSlot s s.cur (place &&& ~~~0xF#64) with
    | none => .error (prot place)
    | some j =>
      if isQuay j then .error (prot place)
      else if ringFull (s.core j) then .error (ringWait j)
      else
        let w0 : Word := (arg v 0).extractLsb' 2 62 ++ bit1 s.me.prio ++ 0#1
        done (ringPush s j w0 (arg v 1) s.me.prio (recordNode s s.cur (arg v 1) s.me.node) s.me.tt)) s

/-- `rpop`: take the record that dispatch would take next, without waiting (R234).  Where D and C name one register, word 1 stays in it (DESIGN
CHOICE log 105). -/
def execRpop (h : Hdr) (d c : Reg) (s : State) : Host.Outcome State Fault Refusal :=
  issue { i := .rpop h d c, h, dst := some d, pair := .joint } (fun _ s =>
    let out (s : State) (w0 w1 : Word) : State := writeReg (writeReg s s.cur d w0) s.cur c w1
    match ringNext (s.core s.myCore) with
    | none => done (out s 0 0)
    | some r =>
      let (w0, w1, t) := ringTake s s.myCore r
      done (retireNodes (out t w0 w1) s.owner)) s

/-- `tprio`: the priority of later pushes of the slot (R234). -/
def execTprio (h : Hdr) (hi : Bool) (s : State) : Host.Outcome State Fault Refusal :=
  issue { i := .tprio h hi, h, pair := .joint } (fun _ s => done (s.modMe fun x => { x with prio := hi })) s

/-! ### The end of a slot's work (R235) -/

/-- What `tend` does: back from an inlined child, else the slot, or the pair, becomes idle (R235, R238, R394). -/
def endWork (s : State) : Res :=
  match s.me.inl with
  | r :: t => .ok (s.modMe fun x => { x with inl := t }, .to r)
  | [] => .ok ((pairOf s s.cur).foldl slotEnd s, .gone)

/-- `tend`: end the slot's work, behind its slab instructions (R235, R353). -/
def execTend (h : Hdr) (s : State) : Host.Outcome State Fault Refusal :=
  issue { i := .tend h, h, pair := .joint } (fun _ s => if slabBusy s s.cur then .error .hold else endWork s) s

/-- `cend`: the decrement of `dec` unless A is g0, then `tend`; in a resident thread ILLEGAL (R235). -/
def execCend (h : Hdr) (a : Reg) (i : BitVec 16) (s : State) : Host.Outcome State Fault Refusal :=
  issue { i := .cend h a i, h, srcs := [a], pair := .joint } (fun v s => do
    if s.me.mode then .error ill
    else if slabBusy s s.cur then .error .hold
    else
      let t ← if a = 0 then .ok s else decrement s (arg v 0 + i.signExtend 64)
      endWork t) s

/-! ### Spawn (R237, R238) -/

/-- The core or quay core of the island that a place word names, where no closed fence stands before it; SLOT is ignored (R155, R237,
R391). -/
def placeCore (s : State) (a : Word) : Option Nat :=
  let lx := (a.extractLsb' 6 8).toNat
  let ly := (a.extractLsb' 14 8).toNat
  let core :=
    if a.getLsbD 30 then
      if lx < (s.quayCores s.owner).length then some (quayKey s.owner lx) else none
    else if s.hasQuad s.owner lx ly then some (coreKey s.owner lx ly (a.extractLsb' 4 2).toNat)
    else none
  core.filter fun c => !s.fencedFrom s.cur c

/-- The slots of a core that start work: all that the warrant grants, in checked mode the leading ones (R18, R32, R238). -/
def startable (s : State) (core : Nat) : List Nat :=
  (slotsOf core).filter fun k => s.granted k && (s.slot k).chk != 2

/-- The slot that takes the next work of a core: the lowest idle one, and in checked mode idle with its trailing slot. -/
def idleSlot (s : State) (core : Nat) : Option Nat :=
  (startable s core).find? fun k => (pairOf s k).all fun j => slotIdle s j

/-- The registers of a spawned child (R21, R238); its retired count starts at 0, which R55 says of the other starts and of `spawn` not at
all (DESIGN CHOICE log 78). -/
def childSlot (s : State) (narg : Nat) (cdl : Bool) (node : Nat) (pc : Word) (x : Slot) : Slot :=
  let y := x.fresh 0
  let g : Tab Word := (List.range narg).foldl (fun g n => g.set 0 (n + 1) (s.me.g.get 0 (n + 1))) []
  { y with g, rm := s.me.rm, fzi := s.me.fzi, fzo := s.me.fzo, fen := s.me.fen, rseed := s.me.rseed, wlim := s.me.wlim,
           prio := s.me.prio, mode := !cdl, rstrt := false, codelet := none, pc, node, tt := s.me.tt, ready := s.cycle + 1 }

/-- The registers that a spawn passes to its child: g1 to gNARG (R238). -/
def argRegs (narg : Nat) : List Reg := (List.range narg).map fun n => BitVec.ofNat 6 (n + 1)

/-- `spawn`: start a child in the lowest idle slot of a core, or run it inline (R238). -/
def execSpawn (h : Hdr) (narg : BitVec 3) (cdl join noin : Bool) (d a b : Reg) (s : State) :
    Host.Outcome State Fault Refusal :=
  issue { i := .spawn h narg cdl join noin d a b, h, srcs := [a, b], dst := some d, also := argRegs narg.toNat, pair := .joint } (fun v s =>
    let pc := arg v 1
    match placeCore s (arg v 0) with
    | none => .error (prot (arg v 0))
    | some core =>
      if pc.toNat % 4 != 0 then .error (.trap ⟨.misalign, pc, 0⟩)
      else
        let node := if join then some s.me.node else freeNode s.myCtx
        match idleSlot s core, node with
        | some k, some n =>
          let t := if join then s else newNode s s.owner n true
          give (startSlot t k (childSlot s narg.toNat cdl n pc)) d (BitVec.ofNat 64 (slotNo k))
        | _, _ =>
          if noin || 8 ≤ s.me.inl.length then give s d (-1)
          else
            let t := writeReg s s.cur d 16
            .ok (t.modMe fun x => { x with inl := (x.pc + 16) :: x.inl }, .to pc)) s

/-! ### Iteration fetcher (R239, R240) -/

/-- The highest dimension with a non-zero extent. -/
def outermost (es : List (BitVec 32)) : Option Nat := ((List.range 4).filter fun n => es.getD n 0 != 0).getLast?

/-- Whether some extent is non-zero above a zero one (R239). -/
def extentGap (es : List (BitVec 32)) : Bool := (List.range 3).any fun n => es.getD n 0 == 0 && es.getD (n + 1) 0 != 0

/-- `nest`: replace the core's nest counter (R239). -/
def execNest (h : Hdr) (minch : BitVec 16) (a b c : Reg) (s : State) : Host.Outcome State Fault Refusal :=
  issue { i := .nest h minch a b c, h, srcs := [a, b, c], pair := .joint } (fun v s =>
    let half (n : Nat) (hi : Nat) : BitVec 32 := (arg v n).extractLsb' hi 32
    let es := [half 0 0, half 0 32, half 1 0, half 1 32]
    let p := ((arg v 2).extractLsb' 0 16).toNat
    if extentGap es then .error ill
    else
      let o := outermost es
      done (s.modMyCore fun x =>
        { x with
          nestExt := es
          nestMin := (List.range 4).map fun n => if o = some n then (if minch = 0 then 1 else minch) else 0
          nestRem := (o.map fun n => es.getD n 0).getD 0
          nestP := if p = 0 then 1 else p })) s

/-- The next chunk of a nest counter: at least MINCH, at most what remains (R240). -/
def chunkOf (rem minch p : Nat) : Nat := Nat.min rem (Nat.max minch ((rem + 2 * p - 1) / (2 * p)))

/-- `next`: claim a chunk, or branch where the nest is exhausted (R240). -/
def execNext (h : Hdr) (d : Reg) (i : Imm) (s : State) : Host.Outcome State Fault Refusal :=
  issue { i := .next h d i, h, dst := some d, pair := .joint } (fun _ s =>
    let c := s.core s.myCore
    if c.nestRem = 0 then goTo (writeReg s s.cur d 0) (s.me.pc + 4 * i.sext)
    else
      let o := (outermost c.nestExt).getD 0
      let n := chunkOf c.nestRem.toNat (c.nestMin.getD o 0).toNat c.nestP
      let first := c.nestExt.getD o 0 - c.nestRem
      let s1 := s.modMe fun x => x.setI (if first = 0 then [] else [(o, first)])
      let s2 := s1.modMyCore fun x => { x with nestRem := x.nestRem - BitVec.ofNat 32 n }
      give s2 d (BitVec.ofNat 64 n)) s

/-! ### Barriers (R241, R242) -/

/-- The slots of the island that belong to a barrier's unit (R20). -/
def members (s : State) (k : Nat) (sc : Scope) : List Nat :=
  (s.slotsOfCtx (ownerOf k)).filter (inBarUnit s k sc)

def barrier (s : State) (key : Nat) : Barrier := s.myCtx.bars.get {} key
def setBarrier (s : State) (key : Nat) (b : Barrier) : State := s.modCtx s.owner fun c => { c with bars := c.bars.put key b }

/-- Whether the next arrival completes the phase: the N-th one, or that of a unit's only member (R20, R242). -/
def completes (s : State) (sc : Scope) (b : Barrier) (n : BitVec 16) : Bool :=
  n.toNat ≤ b.slots.length + 1 || (members s s.cur sc).length == 1

/-- An arrival: the barrier after it, and whether it completed the phase (R242, R262). -/
def arrive (s : State) (sc : Scope) (id : BitVec 4) (n : BitVec 16) : Except Stop (State × Bool) :=
  let key := barKey s s.cur sc id
  let b := barrier s key
  let n0 := b.n.getD n
  if n = 0 || n0 != n then .error ill
  else
    let slots := b.slots ++ [(s.cur, s.me.tt)]
    if completes s sc b n then
      .ok (setBarrier s key
        { b with phase := b.phase + 1, n := none, slots := [],
                 doneTimes := b.doneTimes.put b.phase.toNat (Time.latest s.me.tt (slots.map (·.2))) }, true)
    else .ok (setBarrier s key { b with n := some n, slots }, false)

/-- The current slot takes the time of a completed phase (R262). -/
def takeTime (s : State) (b : Barrier) (phase : BitVec 32) : State :=
  s.modMe fun x => { x with tt := Time.later x.tt (b.doneTimes.get x.tt phase.toNat) }

/-- `bar`: arrive, then wait until the phase completes; when it comes back from the wait it has arrived already (R242). -/
def execBar (h : Hdr) (sc : Scope) (id : BitVec 4) (b : Reg) (s : State) : Host.Outcome State Fault Refusal :=
  let srcs := if (s.slot (leadOf s.me s.cur)).joined.isSome then unpopped [b] else [b]
  issue { i := .bar h sc id b, h, srcs, pair := .joint } (fun v s =>
    let key := barKey s s.cur sc id
    match s.me.joined with
    | some p =>
      if (barrier s key).phase = p then .error (wait (.bar sc key id p)) else done (takeTime s (barrier s key) p)
    | none => do
      let p := (barrier s key).phase
      let (t, over_) ← arrive s sc id ((arg v 0).extractLsb' 0 16)
      if over_ then done (takeTime t (barrier t key) p)
      else .error (.block (.bar sc key id p) (some (t.modMe fun x => { x with joined := some p })))) s

/-- `barq`: arrive without waiting; D := the arrival's phase (R241). -/
def execBarq (h : Hdr) (sc : Scope) (id : BitVec 4) (d b : Reg) (s : State) : Host.Outcome State Fault Refusal :=
  issue { i := .barq h sc id d b, h, srcs := [b], dst := some d, pair := .joint } (fun v s => do
    let p := (barrier s (barKey s s.cur sc id)).phase
    let (t, _) ← arrive s sc id ((arg v 0).extractLsb' 0 16)
    give t d (p.zeroExtend 64)) s

/-- `poll`: whether the phase after A has completed (R241). -/
def execPoll (h : Hdr) (sc : Scope) (id : BitVec 4) (d : PReg) (a : Reg) (s : State) : Host.Outcome State Fault Refusal :=
  issue { i := .poll h sc id d a, h, srcs := [a], pair := .joint } (fun v s =>
    let b := barrier s (barKey s s.cur sc id)
    let n := (b.phase - (arg v 0).setWidth 32).toNat
    let over_ := 1 ≤ n && n ≤ 2 ^ 31
    giveP (if over_ then takeTime s b ((arg v 0).setWidth 32) else s) d over_) s

/-! ### Queues (R243, R244) -/

def setQueue (s : State) (q : BitVec 3) (x : QueueSt) : State :=
  s.modMyCore fun c => { c with queues := c.queues.put q.toNat x }

/-- `qcfg.bind`: a queue becomes a window onto a FIFO bank; BANK_MODE records no address (R243, DESIGN CHOICE log 1). -/
def execQcfgBind (h : Hdr) (q : BitVec 3) (a : Reg) (i : Imm) (s : State) : Host.Outcome State Fault Refusal :=
  issue { i := .qcfgBind h q a i, h, srcs := [a], pair := .joint } (fun v t =>
    let bank := (arg v 0).extractLsb' 0 4
    let lim := i.zext.toNat
    if (t.quad t.myQuad).mode bank.toNat != .fifo then .error (.trap ⟨.bankMode, Config.freeWord t.fresh, 0⟩)
    else if !(qEntries t t.myCore q.toNat).isEmpty || 32768 < lim then .error ill
    else done (setQueue t q { bank := some bank, lim := if lim = 0 then 32768 else lim })) s

/-- `qcfg.unbind`: a bound queue returns to its own entries, empty (R243). -/
def execQcfgUnbind (h : Hdr) (q : BitVec 3) (i : Imm) (s : State) : Host.Outcome State Fault Refusal :=
  issue { i := .qcfgUnbind h q i, h, pair := .joint } (fun _ s =>
    done (if ((s.core s.myCore).queue q.toNat).bank.isSome then setQueue s q {} else s)) s

/-- The status of a queue (R244). -/
def queueWord (s : State) (core q : Nat) : Word :=
  let x := (s.core core).queue q
  BitVec.ofNat 64 ((qEntries s core q).length % 2 ^ 16 + x.bank.isSome.toNat * 2 ^ 16 + (x.bank.getD 0).toNat * 2 ^ 17
    + x.lim % 2 ^ 16 * 2 ^ 32)

/-- `qsts`: the status of a queue, which is not popped (R244). -/
def execQsts (h : Hdr) (d : Reg) (q : BitVec 3) (s : State) : Host.Outcome State Fault Refusal :=
  issue { i := .qsts h d q, h, dst := some d, pair := .joint } (fun _ s => give s d (queueWord s s.myCore q.toNat)) s

/-! ### Places (R245) -/

/-- A place moved by whole quads; all ones where it leaves the island (R245). -/
def moveBy (s : State) (a : Word) (dx dy : BitVec 8) : Word :=
  let lx : Int := ((a.extractLsb' 6 8).toNat : Int) + dx.toInt
  let ly : Int := ((a.extractLsb' 14 8).toNat : Int) + dy.toInt
  let w : Word := a.extractLsb' 22 42 ++ BitVec.ofInt 8 ly ++ BitVec.ofInt 8 lx ++ a.extractLsb' 0 6
  if lx < 0 || 255 < lx || ly < 0 || 255 < ly || (placeNamed s s.cur w).isNone then -1 else w

/-- `place`: move a place word by whole quads (R245). -/
def execPlace (h : Hdr) (dx dy : BitVec 8) (d a : Reg) (s : State) : Host.Outcome State Fault Refusal :=
  issue { i := .place h dx dy d a, h, srcs := [a], dst := some d } (fun v s => give s d (moveBy s (arg v 0) dx dy)) s

/-- `place.lin`: the place of a core by its number in row order (R245). -/
def execPlaceLin (h : Hdr) (d a : Reg) (s : State) : Host.Outcome State Fault Refusal :=
  issue { i := .placeLin h d a, h, srcs := [a], dst := some d } (fun v s =>
    let k := ((arg v 0).setWidth 32).toNat
    let lx := k / 4 % s.myCtx.wq
    let ly := k / 4 / s.myCtx.wq
    give s d (if s.hasQuad s.owner lx ly then BitVec.ofNat 64 (k % 4 * 2 ^ 4 + lx * 2 ^ 6 + ly * 2 ^ 14) else -1)) s

/-- `place.quay`: the place of a granted quay slot (R245). -/
def execPlaceQuay (h : Hdr) (d a : Reg) (s : State) : Host.Outcome State Fault Refusal :=
  issue { i := .placeQuay h d a, h, srcs := [a], dst := some d } (fun v s =>
    let w : Word := BitVec.ofNat 64 (((arg v 0).extractLsb' 8 4).toNat + ((arg v 0).extractLsb' 0 8).toNat * 2 ^ 6 + 2 ^ 30)
    give s d (if (placeNamed s s.cur w).isSome then w else -1)) s

/-! ### Gang widths (R246) -/

/-- The width that a `gang` word gives a core. -/
def widthOf (w : Word) (c : Nat) : Nat := w.toNat / 8 ^ c % 8

/-- Whether the widths are ones a quad can take. -/
def widthsOk (w : Word) : Bool :=
  (List.range 4).all (fun c => [0, 1, 2, 4].contains (widthOf w c)) && ((List.range 4).map (widthOf w)).sum ≤ 4

/-- Whether a command of the island has a tile of a core as destination (R212, R246). -/
def tileTarget (s : State) (core : Nat) : Bool :=
  (s.coresOf (ownerOf core)).any fun c =>
    (s.core c).fifo.cmds.any fun x => x.desc.isSome && tileCore (ownerOf core) x.w2 == core

/-- Whether the width of a core may not change now: also where a slab instruction was dispatched or a tile command accepted in this cycle
(R246). -/
def gangBusy (s : State) (core : Nat) : Bool :=
  let c := s.core core
  c.slabAt == s.cycle + 1 || !c.slabQ.isEmpty || !c.drains.isEmpty || c.follow.any (fun e => e.2.queued.isSome) || tileTarget s core

/-- A new width: vectors, masks, tiles and accumulators are zeroed, the descriptors kept (R24, R246). -/
def setWidthOf (s : State) (core w : Nat) : State :=
  let s1 := (slotsOf core).foldl (fun s k =>
    s.modSlot k fun x => { x with v := [], m := [], bad := x.bad.filter fun e => e.1 < badMask 0 || (badMask 0 + 8 ≤ e.1 && e.1 < badLane 0 0) }) s
  s1.modCore core fun c => { c with gangw := w, tile := [], tilePoison := [], acc := [], accBad := [], clears := [] }

/-- `gang`: divide the logical slabs of the quad among its cores (R246). -/
def execGang (h : Hdr) (d a : Reg) (s : State) : Host.Outcome State Fault Refusal :=
  issue { i := .gang h d a, h, srcs := [a], dst := some d, pair := .joint } (fun v s =>
    let w := arg v 0
    let changed := (List.range 4).filter fun c => (s.core (s.myQuad + 16 * c)).gangw != widthOf w c
    if !widthsOk w then give s d 1
    else if changed.any fun c => gangBusy s (s.myQuad + 16 * c) then give s d 2
    else give (changed.foldl (fun s c => setWidthOf s (s.myQuad + 16 * c) (widthOf w c)) s) d 0) s

/-! ### Checked pairs (R247) -/

/-- `chk`: the trailing slot compares with what its leading slot supplied at the same retired count (R247); a queue register is popped
once, by the leading slot, whose value then stands for both (R394). -/
def execChk (h : Hdr) (a : Reg) (s : State) : Host.Outcome State Fault Refusal :=
  issue { i := .chk h a, h, srcs := if s.me.chk = 2 then unpopped [a] else [a] } (fun v s =>
    let x := s.me
    if x.chk = 0 then done s
    else if x.chk = 1 then
      done (s.modSlot (trailOf s.cur) fun y => { y with chkq := y.chkq ++ [(x.retired, arg v 0)] })
    else
      match x.chkq.find? fun e => e.1 == x.retired with
      | none => .error .hold
      | some e =>
        if a.isQueue || e.2 = arg v 0 then done (s.modMe fun y => { y with chkq := y.chkq.erase e })
        else .error (.trap ⟨.chkMismatch, e.2, 0⟩)) s

end Sys2Proof.Machine
end

