-- ==== Sys2Proof/Machine/Arenas.lean ====
section
/-! DEFINITION. The meanings of the arena instructions (R248 to R250, R343 to R346). -/

namespace Sys2Proof.Machine

/-- The lowest free arena slot of the package (R343). -/
def freeArena (s : State) : Option Nat :=
  ((List.range 256).map (256 * s.pkg.podn + ·)).find? fun a => (s.arena a).holder = 0

/-- Bytes of LLC that the handles of a context grant, and the pages its `.llc` arenas hold (R344). -/
def llcGrant (c : Ctx) : Nat :=
  ((c.handles.filter fun e => e.1 = 0 || e.2.added).map fun e => e.2.w.llcw * 2 ^ 25).sum
def llcPages (s : State) (o : Nat) : Nat :=
  ((s.arenas.filter fun e => e.2.holder = o && e.2.place == .llc).map fun e => e.2.pages).sum

/-- Pages that still fit a placement (R344). -/
def placeRoom (s : State) (o : Nat) : Place → Nat
  | .llc => llcGrant (s.ctx o) / 2 ^ 15 - llcPages s o
  | .dram => (roomPages (s.ctx o)).1
  | .cxl => (roomPages (s.ctx o)).2

/-- The handle of an arena slot (R38, R248). -/
def handleWord (gen : BitVec 8) (a : Nat) : Word := gen ++ BitVec.ofNat 56 (arenaBase a)

/-- Bind a free slot to the current slot's node, with its lease range and its pages (R248). -/
def bindArena (s : State) (a pages : Nat) (pl : Place) : State :=
  let bytes := pages * 2 ^ 15
  let s1 := s.modArena a fun x =>
    { x with holder := s.owner, node := s.me.node, place := pl, pages, pkg := lpkgOf s.cur, time := if x.last = s.owner then x.time else none }
  s1.modCtx s.owner fun c =>
    { c with
      leases := c.leases ++ [{ base := arenaBase a, len := bytes, rights := rR ||| rW ||| rE, node := s.me.node }]
      used := match pl with
        | .llc => c.used
        | .dram => (c.used.1 + bytes, c.used.2)
        | .cxl => (c.used.1, c.used.2 + bytes) }

/-- `anew`: make an arena, or say by a code why not (R248). -/
def execAnew (h : Hdr) (pl : Place) (d a : Reg) (i : Imm) (s : State) : Host.Outcome State Fault Refusal :=
  issue { i := .anew h pl d a i, h, srcs := [a], dst := some d, pair := .joint } (fun v s =>
    let n := (arg v 0 + i.zext).toNat
    let pages := (n + 2 ^ 15 - 1) / 2 ^ 15
    if n = 0 || 2 ^ 40 < n then give s d 1
    else match freeArena s with
      | none => give s d 2
      | some x =>
        if placeRoom s s.owner pl < pages then give s d 3
        else if 64 ≤ s.myCtx.leases.length then give s d 4
        else give (bindArena s x pages pl) d (handleWord (s.arena x).gen x)) s

/-- The arena slot of a handle, in the arena window only (R249). -/
def handleSlot (a : Word) : Except Stop Nat :=
  let hi := (a.extractLsb' 48 8).toNat
  if 0x80 ≤ hi && hi < 0xC0 then .ok (arenaSlot a) else .error (prot a)

/-- The check of a handle by `ahand` and `aend` (R134, R249). -/
def handleCheck (s : State) (a : Word) : Except Stop Nat := do
  let n ← handleSlot a
  let x := s.arena n
  if x.foreign s.owner then .error (prot a)
  else if tagOf a != x.gen then .error (.trap ⟨.arenaStale, a, 0⟩)
  else .ok n

/-- Whether an arena is bound to the current slot's node. -/
def boundHere (s : State) (n : Nat) : Bool := (s.arena n).holder == s.owner && (s.arena n).node == s.me.node

/-- Rebind an arena, and its own lease range, to a node; the PLB entries of its addresses go (R249, R331, R336, R345). -/
def rebind (s : State) (n node : Nat) : State :=
  let move (l : Lease) : Lease := if l.base = arenaBase n && l.node != 0 then { l with node } else l
  let s1 := (s.modArena n fun x => { x with node }).modCtx s.owner fun c => { c with leases := c.leases.map move }
  shootDown s1 s.owner (arenaBase n) (arenaBase (n + 1))

/-- `ahand`: hand an arena to the node of a frame (R249). -/
def execAhand (h : Hdr) (d a b : Reg) (s : State) : Host.Outcome State Fault Refusal :=
  issue { i := .ahand h d a b, h, srcs := [a, b], dst := some d, pair := .joint } (fun v s => do
    let n ← handleCheck s (arg v 0)
    let key ← frameKey s (arg v 1)
    if anyPoison s (key + 4) 2 then .error (.trap ⟨.poison, arg v 1, rR⟩)
    else
      let node := leNat 2 (readBytes s (key + 4) 2)
      if !boundHere s n then give s d 2
      else if (s.myCtx.nodes.find? node).isNone then give s d 1
      else give (rebind s n node) d 0) s

/-- `aend`: the arena dies in one step (R249, R250); during a move it waits for the switch (R411). -/
def execAend (h : Hdr) (d a : Reg) (s : State) : Host.Outcome State Fault Refusal :=
  issue { i := .aend h d a, h, srcs := [a], dst := some d, pair := .joint } (fun v s => do
    let n ← handleCheck s (arg v 0)
    if !boundHere s n then give s d 2
    else if s.myCtx.moving then .error .hold
    else give (killArena s n) d 0) s

/-- What `aqry` reports of a handle (R249): of an outdated one LIVE 0 and GEN, and 0 in every other field (DESIGN CHOICE log 104). -/
def arenaWord (s : State) (a : Word) (n : Nat) : Word :=
  let x := s.arena n
  if x.foreign s.owner then 0
  else if x.holder = s.owner && tagOf a == x.gen then
    BitVec.ofNat 64 (1 + (boundHere s n).toNat * 2 + x.place.code.toNat * 2 ^ 2 + x.gen.toNat * 2 ^ 8 + x.pages % 2 ^ 32 * 2 ^ 16)
  else BitVec.ofNat 64 (x.gen.toNat * 2 ^ 8)

/-- `aqry`: the status of an arena (R249). -/
def execAqry (h : Hdr) (d a : Reg) (s : State) : Host.Outcome State Fault Refusal :=
  issue { i := .aqry h d a, h, srcs := [a], dst := some d, pair := .joint } (fun v s => do
    let n ← handleSlot (arg v 0)
    give s d (arenaWord s (arg v 0) n)) s

end Sys2Proof.Machine
end

