-- ==== Sys2Proof/Machine/Records.lean ====
section
/-! DEFINITION. Signed records and images: their formats, their signatures and what a warrant's body says (R85, R299 to R305, R308,
R311, R323, R326, R372). -/

namespace Sys2Proof.Machine

/-! ### Fields -/

/-- A little-endian field of a record (R7). -/
def field (r : List Byte) (at_ n : Nat) : Nat := leNat n (r.drop at_)
def fieldWord (r : List Byte) (at_ : Nat) : Word := BitVec.ofNat 64 (field r at_ 8)
def bytesAt (r : List Byte) (at_ n : Nat) : List Byte := (r.drop at_).take n

/-- Whether `n` bytes are 0. -/
def zeroBytes (r : List Byte) (at_ n : Nat) : Bool := (bytesAt r at_ n).all (· == 0)

/-- The ASCII bytes that begin a record: "MBAEX_WA" (R299). -/
def magic : List Byte := [0x4D, 0x42, 0x41, 0x45, 0x58, 0x5F, 0x57, 0x41]
/-- "NLSTIMG1" (R85). -/
def imageMagic : List Byte := [0x4E, 0x4C, 0x53, 0x54, 0x49, 0x4D, 0x47, 0x31]
/-- "STOLATT1" (R421). -/
def attestMagic : List Byte := [0x53, 0x54, 0x4F, 0x4C, 0x41, 0x54, 0x54, 0x31]

/-! ### Records (R299) -/

/-- The header and the zero padding of a record of some kind and length (R299). -/
def headerOk (r : List Byte) (kind len : Nat) : Bool :=
  r.length == len && r.take 8 == magic && field r 8 2 == 1 && field r 10 1 == kind && zeroBytes r 11 1 && field r 12 4 == len &&
    zeroBytes r 48 16 && zeroBytes r (len - 64) 64

def recordKind (r : List Byte) : Nat := field r 10 1
def signerOf (r : List Byte) : List Byte := bytesAt r 16 32

/-- The signed message: the first 64 bytes of SHAKE256 of header and body, which end before the signature of 1,280 bytes. -/
def signedMessage (r : List Byte) : List Byte := shake256 (r.take (r.length - 1344)) 64
def signatureOf (r : List Byte) : List Byte := bytesAt r (r.length - 1344) 1280

/-- An entry of the operator key table that SIGNER names (R303). -/
def operatorKey (s : State) (signer : List Byte) : Option (List Byte) :=
  (s.pkg.keys.map (·.2)).find? fun k => keyHash k == signer

/-- The identity key of a member chip of a domain that SIGNER names (R303). -/
def memberSigner (s : State) (domain : Word) (signer : List Byte) : Option (List Byte) :=
  match s.pkg.domains.find? domain.toNat with
  | none => none
  | some d => (d.members.map fun m => if m = s.pkg.chip then Config.identityKey else Config.memberKey m).find? fun k => keyHash k == signer

/-- Whether a record bears a good signature of a key. -/
def signedBy (r : List Byte) (key : Option (List Byte)) : Bool :=
  key.any fun k => Config.falconVerify k (signedMessage r) (signatureOf r)

/-- The body of an order begins behind its header. -/
def orderOk (r : List Byte) (kind used : Nat) : Bool := headerOk r kind 1536 && zeroBytes r (64 + used) (128 - used)

/-! ### Warrants (R300 to R302) -/

/-- The four child bytes of a serial, C1 first (R301). -/
def childBytes (serial : Word) : List (BitVec 8) :=
  [serial.extractLsb' 24 8, serial.extractLsb' 16 8, serial.extractLsb' 8 8, serial.extractLsb' 0 8]

/-- Whether the non-zero child bytes form an unbroken run from C1 downwards (R301). -/
def serialOk (serial : Word) : Bool := ((childBytes serial).dropWhile (· != 0)).all (· == 0)

/-- What a warrant's bytes say, with no check (R300). -/
def readWarrant (r : List Byte) : Warrant :=
  let b := r.drop 64
  { kind := recordKind r, signer := signerOf r, serial := fieldWord b 0, domain := fieldWord b 8, notBefore := field b 16 8,
    notAfter := field b 24 8, cls := BitVec.ofNat 2 (field b 32 1), checked := field b 32 1 / 4 % 2 == 1, depth := field b 33 1,
    splits := field b 34 1, npkg := field b 35 1, quads := field b 36 2, minw := field b 38 2, minh := field b 40 2,
    cellw := field b 42 2, cellh := field b 44 2, berths := field b 46 2, dramb := field b 48 8, cxlb := field b 56 8,
    llcw := field b 64 1, bws := field b 65 1, quays := field b 67 1, klen := field b 68 4, digest := bytesAt b 72 32,
    entry := field b 104 8, holder := bytesAt b 112 32, parent := bytesAt b 144 32, tag := bytesAt b 176 128 }

/-- The ranges and rules of R300 to R302 on a warrant's fields: an operator warrant alone has no child byte (R301). -/
def fieldsOk (w : Warrant) : Bool :=
  w.notBefore < w.notAfter && w.cls != 3 && w.depth ≤ 3 && 1 ≤ w.npkg && w.npkg ≤ 64 && 1 ≤ w.quads && w.quads ≤ 256 &&
    1 ≤ w.minw && 1 ≤ w.minh && w.berths ≤ 768 && w.llcw ≤ 24 && 1 ≤ w.bws && (w.cellw == 0) == (w.cellh == 0) &&
    serialOk w.serial && ((childBytes w.serial).head? == some 0) == (w.kind == 0) && (w.kind != 0 || w.parent.all (· == 0)) &&
    w.minw * w.minh ≤ w.quads && !(w.cls == 1 && w.berths < w.quads)

/-- A warrant of good format; the bits of R302 that must be 0 are (R299, R300, R302). -/
def parseWarrant (r : List Byte) : Option Warrant :=
  let b := r.drop 64
  let form := recordKind r ≤ 2 && headerOk r (recordKind r) 2048 && field b 32 1 < 8 && zeroBytes b 66 1 && zeroBytes b 304 336
  if form && fieldsOk (readWarrant r) then some (readWarrant r) else none

/-- The bytes of a warrant's header and body (R299, R300). -/
def warrantBytes (w : Warrant) : List Byte :=
  let pad (n : Nat) (l : List Byte) : List Byte := (l ++ zeros n).take n
  magic ++ le 2 1 ++ le 1 w.kind ++ zeros 1 ++ le 4 2048 ++ pad 32 w.signer ++ zeros 16 ++
    le 8 w.serial.toNat ++ le 8 w.domain.toNat ++ le 8 w.notBefore ++ le 8 w.notAfter ++
    le 1 (w.cls.toNat + w.checked.toNat * 4) ++ le 1 w.depth ++ le 1 w.splits ++ le 1 w.npkg ++ le 2 w.quads ++ le 2 w.minw ++
    le 2 w.minh ++ le 2 w.cellw ++ le 2 w.cellh ++ le 2 w.berths ++ le 8 w.dramb ++ le 8 w.cxlb ++ le 1 w.llcw ++ le 1 w.bws ++
    zeros 1 ++ le 1 w.quays ++ le 4 w.klen ++ pad 32 w.digest ++ le 8 w.entry ++ pad 32 w.holder ++ pad 32 w.parent ++
    pad 128 w.tag ++ zeros 336

/-! ### Images (R85, R372) -/

/-- A segment: kind, address, length and, for kinds 1 to 3, its bytes. -/
structure Segment where
  kind : Nat
  addr : Nat
  len : Nat
  bytes : List Byte
  deriving DecidableEq, Repr

/-- Read `n` segments from the bytes behind the count; none where they are malformed (R372). -/
def parseSegments : Nat → (Nat × Nat) → List Byte → Option (List Segment)
  | 0, _, _ => some []
  | n + 1, last, r =>
    let kind := field r 0 8
    let addr := field r 8 8
    let len := field r 16 8
    let held := if kind ≤ 3 then len else 0
    let after := last.1 < kind || (last.1 = kind && last.2 < addr + 1)
    if r.length < 24 + held || kind = 0 || 5 < kind || addr % 2 ^ 15 != 0 || !after then none
    else (parseSegments n (kind, addr + 1) (r.drop (24 + held))).map fun t =>
      { kind, addr, len, bytes := bytesAt r 24 held } :: t

/-- An image of good form (R372). -/
def parseImage (r : List Byte) : Option (List Segment) :=
  let count := field r 8 8
  if r.length < 16 || r.take 8 != imageMagic || count = 0 || 64 < count then none
  else match parseSegments count (0, 0) (r.drop 16) with
    | some segs => if segs.any fun g => g.kind = 1 then some segs else none
    | none => none

/-- The digest of an image (R85). -/
def imageDigest (r : List Byte) : List Byte := shake256 r 32

/-- The lowest `.text` address. -/
def textBase (segs : List Segment) : Nat := ((segs.filter (·.kind = 1)).map (·.addr)).foldl Nat.min (2 ^ 64)

/-! ### Reading and writing memory for a record (R134, R251) -/

/-- Where a trap of one piece of an access stands in the order of R134: its window and fence and an arena slot of another domain, the
generation or the bank mode, the rights, the lease. -/
def trapRank (s : State) (ea : Word) (t : Trap) : Nat :=
  match t.cause with
  | .prot =>
    match window s s.cur ea with
    | some .global => 2
    | some .arena => if (s.arena (arenaSlot ea)).foreign s.owner then 0 else 2
    | _ => 0
  | .leaseOut => 3
  | _ => 1

/-- The check of a record as one access of its length, in the order of R134: the window of the whole, then 64-byte alignment, then each
further check over every piece of it before the next check (R251). -/
def checkRecord (s : State) (ea : Word) (n : Nat) (need : BitVec 4) : Except Stop Nat :=
  let pieces := (List.range ((n + 63) / 64)).map fun i => ea + BitVec.ofNat 64 (64 * i)
  match window s s.cur ea with
  | none => .error (.trap ⟨.prot, ea, need⟩)
  | some w =>
    if (pieces ++ [ea + BitVec.ofNat 64 (n - 1)]).any fun p => (window s s.cur p).isNone then .error (.trap ⟨.prot, ea, need⟩)
    else if ea.toNat % 64 != 0 then .error (.trap ⟨.misalign, ea, need⟩)
    else
      let traps := pieces.filterMap fun p =>
        match checkAccess s s.cur s.me.node [] p 64 false need with
        | .error t => some (trapRank s p t, t)
        | .ok _ => none
      match (List.range 4).findSome? fun r => traps.find? fun e => e.1 == r with
      | some e => .error (.trap { e.2 with tval := ea })
      | none => .ok (w.key ea)

/-- An access of the current slot to a byte reaches the home of its line: the PLB covers its page, and the access counts (R329, R340, R347). -/
def reachHome (s : State) (ea : Word) (key : Nat) : State :=
  countAccess (plbFill s s.myCore key s.owner ((window s s.cur ea).getD .global) ea) key (lpkgOf s.cur)

/-- The first byte of each line of a record, as an offset in it. -/
def recordLines (key n : Nat) : List Nat :=
  (List.range ((key + n + 127) / 128 - key / 128)).map fun i => (key / 128 + i) * 128 - key

/-- The first byte of a record whose page waits in the memory path, as an offset in it (R337, R341, R349). -/
def recordBusy (s : State) (key n : Nat) : Option Nat := (recordLines key n).find? fun i => pathBusy s (key + i)

/-- The lines of a record are read at their home (R332, R340). -/
def fetchRecord (s : State) (ea : Word) (key n : Nat) : State :=
  (recordLines key n).foldl (fun s i => homeFetch (reachHome s (ea + BitVec.ofNat 64 i) (key + i)) (key + i)) s

/-- A record read after its check, and the state behind it; a poisoned byte is consumed by the core (R136). -/
def readRecord (s : State) (ea : Word) (n : Nat) : Except Stop (List Byte × State) := do
  let key ← checkRecord s ea n rR
  match recordBusy s key n with
  | some i => .error (.path (ea + BitVec.ofNat 64 i) rR)
  | none =>
    let t := fetchRecord s ea key n
    if anyPoison t key n then .error (.fault ⟨.poison, ea, rR⟩ t) else .ok (readBytes t key n, t)

/-- A record that may be written: the key of its first byte; the slot waits in the memory path for its pages (R337, R341, R349). -/
def recordSpace (s : State) (ea : Word) (n : Nat) : Except Stop Nat := do
  let key ← checkRecord s ea n rW
  match recordBusy s key n with
  | some i => .error (.path (ea + BitVec.ofNat 64 i) rW)
  | none => .ok key

/-- Bytes written by the admission engine at their home, 64 at a time; each line of them counts (R340). -/
def writeRecord (s : State) (ea : Word) (key : Nat) (bs : List Byte) : State :=
  let t := (recordLines key bs.length).foldl (fun s i => reachHome s (ea + BitVec.ofNat 64 i) (key + i)) s
  (List.range ((bs.length + 63) / 64)).foldl (fun s i => deviceWrite s (key + 64 * i) (bytesAt bs (64 * i) 64)) t

/-- Read bytes of an image, with right R on each; `fresh` says that the next byte begins a read or a line (R332, R340, R372). -/
def readOver (fresh : Bool) (s : State) : Nat → Word → Except Stop (List Byte × State)
  | 0, _ => .ok ([], s)
  | n + 1, ea => do
    let key ← match checkAccess s s.cur s.me.node [] ea 1 false rR with
      | .ok key => Except.ok key
      | .error t => .error (.fault t s)
    if pathBusy s key then .error (.path ea rR)
    else
      let s1 := if fresh || key % 128 = 0 then homeFetch (reachHome s ea key) key else s
      if anyPoison s1 key 1 then .error (.fault ⟨.poison, ea, rR⟩ s1)
      else
        let (t, s2) ← readOver false s1 n (ea + 1)
        .ok (readByte s1 key :: t, s2)

/-- Read `n` segments of an image; the reading ends at a kind that R372 refuses. -/
def readSegments (s : State) : Nat → Word → Except Stop (List Byte × State)
  | 0, _ => .ok ([], s)
  | n + 1, ea => do
    let (head, s1) ← readOver true s 24 ea
    let kind := field head 0 8
    if kind = 0 || 5 < kind then .ok (head, s1)
    else
      let held := if kind ≤ 3 then field head 16 8 else 0
      let (bytes, s2) ← readOver true s1 held (ea + 24)
      let (rest, s3) ← readSegments s2 n (ea + 24 + BitVec.ofNat 64 held)
      .ok (head ++ bytes ++ rest, s3)

/-- Read an image as the loader presents it: the tag, the count and then each segment (R372). -/
def readImage (s : State) (ea : Word) : Except Stop (List Byte × State) := do
  let (head, s1) ← readOver true s 16 ea
  let count := field head 8 8
  if head.take 8 != imageMagic || 64 < count then .ok (head, s1)
  else
    let (rest, s2) ← readSegments s1 count (ea + 16)
    .ok (head ++ rest, s2)

end Sys2Proof.Machine
end

