-- ==== Sys2Proof/Machine/Admission.lean ====
section
/-! DEFINITION. The admission engine: the steps of R252, the window and the bounds (R313 to R315, R324, R325, R327), claims (R305 to
R307, R309), the build and the growth of an island (R317, R325) and its start (R312, R316, R338). -/

namespace Sys2Proof.Machine

/-! ### Quads and windows (R315, R397, R413, R417) -/

/-- The stack of a physical quad (R413). -/
def stackOfQuad (p : Nat × Nat) : Nat := p.1 / 8 + 2 * (p.2 / 8)

/-- Whether a physical quad runs its island: it is not retired or under test, and its stack is not held idle. -/
def quadAlive (s : State) (p : Nat × Nat) : Bool :=
  s.pkg.quads.get .working (quadNo p) == .working && !(s.pkg.power.get {} (stackOfQuad p)).idle

/-- Whether a new island may be placed on a physical quad: it has its four logical slabs too. -/
def quadWorks (s : State) (p : Nat × Nat) : Bool := quadAlive s p && (goodHalves s (quadNo p)).length == 8

/-- Usable quads of the package (R313, R397) (DESIGN CHOICE log 67). -/
def usableQuads (s : State) : Nat := 256 - (s.pkg.quads.filter fun e => e.2 == .retired).length

/-- The quads of a rectangle. -/
def Rect.quads (r : Rect) : List (Nat × Nat) :=
  (List.range r.h).flatMap fun j => (List.range r.w).map fun i => (r.col + i, r.row + j)

/-- The physical quads of guaranteed islands, admitted or held for. -/
def guaranteedQuads (s : State) : List (Nat × Nat) :=
  (s.ctxs.flatMap fun e => if e.2.cls = 0 then quadsHeld s e.1 else []) ++
    s.pkg.claims.flatMap fun c => if c.w.cls = 0 then c.hold.rect.quads else []

/-- Shapes of some number of quads, in ascending height. -/
def shapesOf (quads minw minh : Nat) : List (Nat × Nat) :=
  (List.range (quads + 1)).filterMap fun h =>
    if h ≠ 0 && minh ≤ h && quads % h == 0 && minw ≤ quads / h then some (quads / h, h) else none

/-- The quads of an island, and those held for additions to it: an addition takes others (R325). -/
def islandQuads (s : State) (o : Nat) : List (Nat × Nat) :=
  quadsHeld s o ++ s.pkg.claims.flatMap fun c => if c.p.add && c.p.parent == some o then c.hold.rect.quads else []

/-- The first free rectangle of the shapes off some quads: origins in ascending row, then column (R315). -/
def freeRect (s : State) (shapes : List (Nat × Nat)) (ly : Nat) (off : List (Nat × Nat)) : Option Rect :=
  let bad := guaranteedQuads s ++ off
  shapes.findSome? fun (w, h) =>
    (List.range (17 - h)).findSome? fun row => (List.range (17 - w)).findSome? fun col =>
      let r : Rect := { col, row, w, h, ly }
      if r.quads.all fun p => quadWorks s p && !bad.contains p then some r else none

/-! ### Quay slots (R18, R313, R317) -/

/-- The quay slots that contexts hold, or open claims. -/
def quaysHeld (s : State) : List Nat := s.ctxs.flatMap (fun e => e.2.quays) ++ s.pkg.claims.flatMap fun c => c.hold.quays

/-- The lowest-numbered free quay slots; in checked mode each leading slot takes its trailing slot with it.  Behind the last free one the
lowest-numbered others are shared (R313, PRESUMED log 8). -/
def chooseQuays (s : State) (n : Nat) (checked : Bool) : List Nat :=
  let held := quaysHeld s
  let all := if checked then (List.range 2048).filter fun q => q % 8 < 4 else List.range 2048
  let free := all.filter fun q => !held.contains q && !(checked && held.contains (q + 4))
  let lead := (free ++ all.filter fun q => !free.contains q).take n
  if checked then lead ++ lead.map (· + 4) else lead

/-- The quay cores of some slots, each once, in the order in which their first slots are granted, shared ones behind
the free ones (R18, PRESUMED log 8). -/
def coresOfQuays (qs : List Nat) : List Nat := qs.foldl (fun cs q => if cs.contains (q / 8) then cs else cs ++ [q / 8]) []

/-! ### Harbour berths (R317, R362) -/

/-- The berths of a physical quad: three lie beneath each. -/
def berthsOf (p : Nat × Nat) : List Nat := [3 * quadNo p, 3 * quadNo p + 1, 3 * quadNo p + 2]

/-- The berths that contexts hold, or open claims. -/
def berthsUsed (s : State) : List Nat :=
  s.ctxs.flatMap (fun e => e.2.berthsOwn ++ e.2.berthsHeld) ++ s.pkg.claims.flatMap fun c => c.hold.berths

/-- A free berth beneath a quad. -/
def freeBerth (s : State) (p : Nat × Nat) : Option Nat := (berthsOf p).find? fun b => !(berthsUsed s).contains b

/-- Free berths beneath some quads, one quad after the other in turn. -/
def chooseBerths (s : State) (quads : List (Nat × Nat)) (n : Nat) : List Nat :=
  (List.range n).foldl (fun bs i =>
    let order := quads.drop (i % quads.length) ++ quads.take (i % quads.length)
    match order.findSome? fun p => (berthsOf p).find? fun b => !(berthsUsed s ++ bs).contains b with
    | some b => bs ++ [b]
    | none => bs) []

/-! ### Where an image lies (R224, R327, R357) -/

/-- The fault-ring page of an image: below its lowest segment address (R357). -/
def ringOf (segs : List Segment) : Option Nat :=
  let low := ((segs.filter (·.kind ≤ 3)).map (·.addr)).foldl Nat.min (2 ^ 64) / 2 ^ 15 * 2 ^ 15
  if low < 2 ^ 15 then none else some (low - 2 ^ 15)

/-- The page ranges of the segments that are loaded; a segment of length 0 holds one page (DESIGN CHOICE log 82). -/
def segRanges (segs : List Segment) : List (Nat × Nat) :=
  (segs.filter (·.kind ≤ 3)).map fun g => (g.addr, pageUp (g.addr + Nat.max g.len 1))

/-- The page ranges of the root leases in the global window (R236, R327). -/
def rootRanges (roots : List (Nat × Nat × BitVec 4)) : List (Nat × Nat) :=
  (roots.filter fun l => l.1 < 2 ^ 55).map fun l => (l.1 / 2 ^ 15 * 2 ^ 15, pageUp (l.1 + Nat.max l.2.1 1))

/-- Whether every page of a range lies in the global window and is held by no domain and for no claim but an addition to context `mine`. -/
def rangeFree (s : State) (mine : Option Nat) (r : Nat × Nat) : Bool :=
  r.2 ≤ 2 ^ 55 && (heldIn s r.1 r.2).isEmpty && !rangeReserved s mine r.1 r.2

def pagesIn (rs : List (Nat × Nat)) : Nat := (rs.map fun r => (r.2 - r.1) / 2 ^ 15).sum

/-- Command FIFOs that a build brings: four for each quad, one for each quay core it reaches (R224). -/
def fifosOf (w : Warrant) (quays : List Nat) : Nat := 4 * w.quads + (coresOfQuays quays).length

/-- Ranges that a build needs beside the root leases: the hand-back region and the fault ring, then the segments. -/
def buildRanges (w : Warrant) (quays : List Nat) (segs : List Segment) : Option (List (Nat × Nat)) :=
  match ringOf segs with
  | none => none
  | some ring => (regionLow ring (fifosOf w quays)).map fun low => (low, ring + 2 ^ 15) :: segRanges segs

/-- FIFOs that an addition brings: a quay core that already serves the island brings none (R325). -/
def fifosAdded (s : State) (o : Nat) (w : Warrant) (quays : List Nat) : Nat :=
  4 * w.quads + ((coresOfQuays quays).filter fun c => !(s.quayCores o).contains c).length

/-- The range by which the hand-back region of a context grows by some FIFOs, behind others that stand in between (R224, R325). -/
def addRanges (s : State) (o between fifos : Nat) : Option (List (Nat × Nat)) :=
  let c := s.ctx o
  match regionLow c.ringBase (c.nextFifo + between), regionLow c.ringBase (c.nextFifo + between + fifos) with
  | some hi, some lo => some [(lo, hi)]
  | _, _ => none

/-! ### Bounds (R313, R314) -/

/-- The demand of a warrant in each dimension of R313: quads, LLC ways, bandwidth, quay slots, berths, DRAM, CXL, identities. -/
def demand (w : Warrant) : List Nat :=
  [w.quads, w.llcw, w.bws, if w.checked then 2 * w.quays else w.quays, w.berths,
   if w.cls = 2 then w.dramb + 5376 * 2 ^ 10 * w.quads else w.dramb, w.cxlb, 1]

/-- The capacity of the package in each dimension. -/
def capacity (s : State) : List Nat :=
  [usableQuads s, 24, 256, 2048, 3 * usableQuads s, 382 * 2 ^ 30, Config.cxlCapacity, 4095]

/-- The admitted warrants and those for which capacity is held. -/
def admitted (s : State) : List Warrant :=
  s.ctxs.flatMap (fun e => (e.2.handles.filter fun h => h.1 = 0 || h.2.added).map fun h => h.2.w) ++ s.pkg.claims.map fun c => c.w

/-- The summed demand of a class in a dimension. -/
def classSum (ws : List Warrant) (cls : BitVec 2) (dim : Nat) : Nat :=
  ((ws.filter fun w => w.cls = cls).map fun w => (demand w).getD dim 0).sum

/-- Whether a dimension's inequalities hold (R314). -/
def dimOk (over_ : Bool) (c g sh o : Nat) : Bool :=
  if over_ then g ≤ c && sh ≤ 4 * (c - g) && g + sh + o ≤ 8 * c else g + sh + o ≤ c

/-- Whether some warrants together pass the bounds (R314). -/
def boundsHold (s : State) (ws : List Warrant) : Bool :=
  (List.range 8).all fun dim =>
    dimOk (decide (dim < 4)) ((capacity s).getD dim 0) (classSum ws 0 dim) (classSum ws 1 dim) (classSum ws 2 dim)

/-- Whether a warrant passes the bounds beside those admitted (R314). -/
def boundsOk (s : State) (w : Warrant) : Bool := boundsHold s (w :: admitted s)

/-! ### The steps of R252 -/

/-- Step 2: the signature, and the holder's proof or the same HOLDER in the presenting context (R303, R304). -/
def step2 (s : State) (p : Presentation) (w : Warrant) : Bool :=
  let key := if w.kind = 0 then operatorKey s w.signer else memberSigner s w.domain w.signer
  let held := match p.parent with
    | some o => (warrantOf s o).holder == w.holder
    | none =>
      keyHash p.holderKey == w.holder && Config.falconVerify p.holderKey (signedMessage p.warrant ++ s.pkg.challenge) p.proof
  signedBy p.warrant key && (w.holder.all (· == 0) || held)

/-- Bytes of the image that are read: up to the end of the last segment (R372). -/
def imageLength (segs : List Segment) : Nat := 16 + (segs.map fun g => 24 + g.bytes.length).sum

/-- Step 5: the image digest (R252). -/
def step5 (s : State) (p : Presentation) (w : Warrant) (segs : List Segment) : Bool :=
  if p.add then (p.parent.map fun o => (warrantOf s o).digest) == some w.digest
  else imageDigest (p.image.take (imageLength segs)) == w.digest

/-- Step 6: the debug gate, then class and checked flag against the presenting context (R324, R423). -/
def step6 (s : State) (p : Presentation) (w : Warrant) : Bool :=
  !s.pkg.debugOpen && (match p.parent with
    | none => true
    | some o =>
      let c := warrantOf s o
      if p.add then w.cls == c.cls && w.checked == c.checked else c.cls ≤ w.cls)

/-- Step 7: the delegation depth (R324). -/
def step7 (s : State) (p : Presentation) : Bool :=
  match p.parent with
  | none => true
  | some o => p.add || 1 ≤ (warrantOf s o).depth

/-- The shapes that step 8 tries (R315, R325). -/
def shapesFor (s : State) (p : Presentation) (w : Warrant) : List (Nat × Nat) :=
  match p.parent, p.add with
  | some o, true =>
    if (s.ctx o).npkg = w.npkg && w.quads % (s.ctx o).wq == 0 then [((s.ctx o).wq, w.quads / (s.ctx o).wq)] else []
  | _, _ => shapesOf w.quads w.minw w.minh

/-- The lowest handle of a context that no warrant and no open claim has (R252). -/
def freeHandle (s : State) (o : Nat) : Nat :=
  let mine := s.pkg.claims.filter fun c => c.p.parent == some o
  lowestFree (mine.foldl (fun (t : Tab Unit) c => t.put c.hold.handle ()) ((s.ctx o).handles.map fun e => (e.1, ()))) 1

/-- What a presentation needs beside its rectangle: quay slots, pages, FIFOs of an addition and a handle (R224, R317, R325). -/
def needs (s : State) (p : Presentation) (w : Warrant) (segs : List Segment) (rect : Rect) : Option Hold :=
  let quays := chooseQuays s w.quays w.checked
  let handle := (p.parent.map (freeHandle s)).getD 0
  match p.parent, p.add with
  | some o, true =>
    let fifos := fifosAdded s o w quays
    (addRanges s o (openFifos s o) fifos).map fun ranges => { rect, quays, ranges, fifos, handle }
  | _, _ => (buildRanges w quays segs).map fun ranges => { rect, quays, ranges, handle }

/-- Step 8: the rectangle and the pages; islands of several packages ask the others too (R315, R325, R327; DESIGN CHOICE log 11). -/
def step8 (s : State) (p : Presentation) (w : Warrant) (segs : List Segment) : Option Hold :=
  let mine := if p.add then p.parent else none
  match freeRect s (shapesFor s p w) 0 ((mine.map (islandQuads s)).getD []) with
  | none => none
  | some r =>
    (needs s p w segs r).bind fun h =>
      let roots := if p.add then [] else rootRanges (Config.imageTables w.digest).1
      if (h.ranges ++ roots).all (rangeFree s mine) && (w.npkg == 1 || Config.peersGrant s.fresh) then some h else none

/-- Step 9: the bounds, a free handle, and room for the pages of the build within the grants (R252, R314, R334). -/
def step9 (s : State) (p : Presentation) (w : Warrant) (h : Hold) : Bool :=
  boundsOk s w && (p.parent.isNone || h.handle < 64) && pagesIn h.ranges ≤ w.dramb / 2 ^ 15 + w.cxlb / 2 ^ 15

/-- What is held from step 9 on: with the needs of step 8 the pages of root leases and the berths (R252, R317, R327). -/
def heldFor (s : State) (p : Presentation) (w : Warrant) (h : Hold) : Hold :=
  let quads := (match p.parent, p.add with | some o, true => quadsHeld s o | _, _ => []) ++ h.rect.quads
  { h with berths := chooseBerths s quads w.berths
           ranges := h.ranges ++ if p.add then [] else rootRanges (Config.imageTables w.digest).1 }

/-- Steps 1 to 9 of R252: the first that fails gives the code. -/
def admissionSteps (s : State) (p : Presentation) : Except (BitVec 8) (Warrant × Hold) :=
  match parseWarrant p.warrant, (if p.add then some [] else parseImage p.image) with
  | some w, some segs =>
    if !step2 s p w then .error 2
    else if !s.pkg.anchored then .error 8
    else if s.pkg.clock < w.notBefore then .error 4
    else if w.notAfter ≤ s.pkg.clock then .error 5
    else if !step5 s p w segs then .error 7
    else if !step6 s p w then .error 12
    else if !step7 s p then .error 11
    else match step8 s p w segs with
      | none => .error 10
      | some h => if step9 s p w h then .ok (w, heldFor s p w h) else .error 6
  | _, _ => .error 1

/-! ### Answers (R252, R406) -/

/-- A new challenge from the root of trust (R310). -/
def drawChallenge (s : State) : State :=
  let (f, s1) := s.tick
  s1.modPkg fun p => { p with challenge := Config.randomBytes f 32 }

/-- Write RESP: the request is answered (R404, R406). -/
def respond (s : State) (tag : Word) (code : BitVec 8) (owner : Nat) : State :=
  s.modPkg fun p =>
    { p with resp := [code, 0] ++ le 2 owner ++ zeros 4 ++ le 8 tag.toNat ++ zeros 48, request := false }

/-- An answer on its way: the D that the `wpres` takes, or RESP (R252, R405). -/
def reply (s : State) (p : Presentation) (code : BitVec 8) (handle owner : Nat) : State :=
  match p.from_ with
  | some (k, _, pc) =>
    s.modSlot k fun x =>
      if x.asked = some (pc, none) then { x with asked := some (pc, some (BitVec.ofNat 64 (code.toNat + handle * 256))) } else x
  | none => respond s p.tag code owner

/-- The answer to a presentation of the order: it is recorded, and a proof has used the challenge (R304, R309, R310). -/
def answer (s : State) (p : Presentation) (code : BitVec 8) (handle owner : Nat) : State :=
  let s1 := boxAdd s 1 owner 0 [code]
  reply (if p.from_.isSome || p.proof.isEmpty then s1 else drawChallenge s1) p code handle owner

/-! ### Building (R317) -/

/-- Map the pages of a range for a domain with rights (R317, R334). -/
def mapRange (s : State) (o seg : Nat) (rights : BitVec 4) (r : Nat × Nat) : State :=
  (List.range ((r.2 - r.1) / 2 ^ 15)).foldl (fun s i => mapPage s o seg rights (r.1 / 2 ^ 15 + i)) s

/-- The rights of a segment (R82). -/
def segRights : Nat → BitVec 4
  | 1 => rR ||| rX
  | 2 => rR
  | _ => rR ||| rW

/-- Load one segment at its link address (R317, R372); one of length 0 maps a page (DESIGN CHOICE log 82). -/
def loadSegment (o : Nat) (s : State) (g : Segment) : State :=
  if g.kind ≤ 3 then
    writeHome (mapRange s o g.kind (segRights g.kind) (g.addr, pageUp (g.addr + Nat.max g.len 1))) g.addr g.bytes
  else s

/-- Number the FIFOs of some cores in their order from the next number on (R224). -/
def numberFifos (s : State) (o : Nat) (cores : List Nat) : State :=
  cores.foldl (fun s k =>
    (s.modCore k fun x => { x with fifo := { x.fifo with number := (s.ctx o).nextFifo } }).modCtx o fun c =>
      { c with nextFifo := c.nextFifo + 1 }) s

/-- A root lease widened to whole pages (R236, R336). -/
def rootLease (l : Nat × Nat × BitVec 4) : Lease :=
  let base := l.1 / 2 ^ 15 * 2 ^ 15
  { base, len := pageUp (l.1 + Nat.max l.2.1 1) - base, rights := l.2.2, node := 0 }

/-- Whether the pages of a context's root leases are resident (R337). -/
def rootsResident (s : State) (o : Nat) : Bool :=
  (s.ctx o).roots.all fun l => rangeResident s o (rootLease l).base ((rootLease l).base + (rootLease l).len)

/-- Every register, bank mode and GANGW of an island at its build value, with the root leases and node 1 (R236, R317 step 6, R338).
Memory, the times of its lines and the FIFO numbers stay; logical times are 0, or the floor where that stands behind them (R260, R265). -/
def resetIsland (s : State) (o : Nat) : State :=
  let tt := raised (s.ctx o).floor 0
  let s1 := (s.coresOf o).foldl (fun s k =>
    s.setCore k { buildCore k with gangw := gangAtBuild s k, fifo := { number := (s.core k).fifo.number } }) s
  let mine := s1.slots.filter fun e => ownerOf e.1 != o
  let s2 := { s1 with slots := mine }
  let s3 := (s2.slotsOfCtx o).foldl (fun s k => s.setSlot k { buildSlot s k with tt }) s2
  let s4 := (s3.quadsOf o).foldl (fun s q =>
    let changed := (List.range 16).filter fun b => (s.quad q).mode b != ({} : QuadSt).mode b
    let t := changed.foldl (fun s b => eraseRange s (scratchKey q (b * 2 ^ 18)) (scratchKey q ((b + 1) * 2 ^ 18))) s
    bindStraits (t.setQuad q { bankTimes := (t.quad q).bankTimes }) q) s3
  s4.modCtx o fun c =>
    { c with nodes := [(1, true)], bars := [],
             leases := c.roots.map rootLease }

/-- The gang width that an image records: 0, 1, 2 or 4 (R83). -/
def gangWidth (n : Nat) : Nat := [0, 1, 2, 4].getD (n % 4) 0

/-- The context of a warrant before anything of it is loaded (R317, R318). -/
def newCtx (s : State) (w : Warrant) (self : List Byte) (segs : List Segment) (hold : Hold) : Ctx :=
  let r := hold.rect
  let cells := w.cellw != 0
  let tables := Config.imageTables w.digest
  { phase := .building, handles := [(0, { w, self })], wq := r.w, hq := r.h, npkg := w.npkg,
    cw := if cells then Nat.min w.cellw r.w else r.w, ch := if cells then Nat.min w.cellh r.h else r.h,
    cls := w.cls, checked := w.checked, rect := r, quays := hold.quays, quayNos := coresOfQuays hold.quays, berthsOwn := hold.berths,
    segs := segs.map fun g => (g.kind, g.addr, g.len), entry := BitVec.ofNat 64 (textBase segs + w.entry),
    roots := tables.1, gangRec := tables.2.map gangWidth, ringBase := (ringOf segs).getD 0,
    expiry := if w.klen = 0 then w.notAfter else Nat.min w.notAfter (s.pkg.clock + w.klen * 1000000),
    order := s.pkg.admitted }

/-- Steps 1 to 6 of R317 with the resources held: the owner identity and the state with the island built. -/
def buildContext (s : State) (w : Warrant) (self : List Byte) (segs : List Segment) (hold : Hold) : Nat × State :=
  let o := lowestFree s.ctxs 1
  let s1 := (s.setCtx o (newCtx s w self segs hold)).modPkg fun p => { p with admitted := p.admitted + 1 }
  let ring := (ringOf segs).getD 0
  let s2 := mapRange s1 o 0 rR ((regionLow ring (fifosOf w hold.quays)).getD ring, ring + 2 ^ 15)
  let s3 := segs.foldl (loadSegment o) s2
  let s4 := ((s3.ctx o).roots.filter fun l => l.1 < 2 ^ 55).foldl (fun s l =>
    spreadLease (leasePages s o (rootLease l).base ((rootLease l).base + (rootLease l).len)) o (rootLease l)) s3
  (o, resetIsland (numberFifos s4 o (s4.coresOf o)) o)

/-- Slots and cores that an addition brings, at their build values, with no time behind the island's floor (R265, R325). -/
def buildNew (s : State) (o : Nat) (cores : List Nat) : State :=
  let s1 := numberFifos (cores.foldl (fun s k => s.setCore k (buildCore k)) s) o cores
  (cores.flatMap slotsOf).foldl (fun s k => s.setSlot k { buildSlot s k with tt := raised (s.ctx o).floor 0 }) s1

/-- Map the hand-back pages of an addition against the grants of its warrant, in the order of R334. -/
def mapAdded (s : State) (o : Nat) (w : Warrant) (r : Nat × Nat) : State :=
  (List.range ((r.2 - r.1) / 2 ^ 15)).foldl (fun s i => mapInto s o 0 rR (decide (i < w.cxlb / 2 ^ 15)) (r.1 / 2 ^ 15 + i)) s

/-- The stack unit of a new place of a context that has been moved: that of its other places on the same stack, else a further one (R20)
(DEDUCED log 91). -/
def unitFor (s : State) (o : Nat) (q : Nat) : Nat :=
  match (s.ctx o).units.find? (tidOf q) with
  | some u => u
  | none =>
    match ((s.ctx o).units.map fun e => (slotKey o e.1, e.2)).find? fun e => physStack s e.1 == physStack s q with
    | some e => e.2
    | none => 4 + physStack s q

/-- The stack units with those of new places, where a context has been moved. -/
def growUnits (s : State) (o : Nat) : State :=
  if (s.ctx o).units.isEmpty then s
  else s.modCtx o fun c => { c with units := (s.quadsOf o ++ s.quaysOf o).foldl (fun t q => t.put (tidOf q) (unitFor s o q)) c.units }

/-- Whether two contexts hold a quad in common. -/
def shareQuads (s : State) (a b : Nat) : Bool := (quadsHeld s a).any (quadsHeld s b).contains

/-- The contexts that share quads with one. -/
def rivals (s : State) (o : Nat) : List (Nat × Ctx) := s.ctxs.filter fun e => e.1 != o && shareQuads s e.1 o

/-- Whether a context occupies its quads. -/
def Phase.onQuads : Phase → Bool
  | .running | .stopping => true
  | _ => false

/-- Whether a context gives way to another on the same quads: a lower class (R316). -/
def yields (c d : Ctx) : Bool := d.cls < c.cls

/-- The lower contexts on a context's quads that must be swapped out before it runs. -/
def evicted (s : State) (o : Nat) : List Nat :=
  ((rivals s o).filter fun e => e.2.phase.onQuads && yields e.2 (s.ctx o)).map (·.1)

/-- A running context has grown onto quads that others occupy, or that are held idle: lower classes leave them, and where another class
stands before it, or a quad does not run, it leaves itself until its turn (R316, R417) (DEDUCED log 108). -/
def makeWay (s : State) (o : Nat) : State :=
  let out := (evicted s o).filter fun x => (s.ctx x).phase == .running
  let leaves := !(quadsHeld s o).all (quadAlive s) || (rivals s o).any fun e => e.2.phase.onQuads && !yields e.2 (s.ctx o)
  { s with agenda := s.agenda ++ (out ++ if leaves then [o] else []).map Instr.harbourSwap }

/-- The growth of an island by an added warrant with the resources held: its rows begin where the island now ends (R325). -/
def joinAdded (s : State) (o : Nat) (w : Warrant) (self : List Byte) (hold : Hold) : State :=
  let c := s.ctx o
  let r := { hold.rect with ly := c.hq }
  let more := (coresOfQuays hold.quays).filter fun q => !c.quayNos.contains q
  let region := ((addRanges s o 0 (fifosAdded s o w hold.quays)).getD []).headD (0, 0)
  let h : Handle := { w, self, rect := some r, shape := (r.w, r.h), region, berths := hold.berths, before := (c.nextFifo, c.quayNos.length) }
  let s1 := s.setCtx o
    { c with
      handles := c.handles.put hold.handle h
      hq := c.hq + r.h
      ch := if (warrantOf s o).cellh = 0 then c.hq + r.h else c.ch
      quays := c.quays ++ hold.quays
      quayNos := c.quayNos ++ more
      quayAdds := c.quayAdds ++ [(hold.handle, hold.quays)]
      berthsOwn := c.berthsOwn ++ hold.berths }
  let quads := (List.range r.h).flatMap fun j => (List.range r.w).map fun i => quadKey o i (c.hq + j)
  let nos := (List.range more.length).map fun i => quayKey o (c.quayNos.length + i)
  let touched := ((c.quayNos.zipIdx.filter fun e => (coresOfQuays hold.quays).contains e.1).map fun e => quayKey o e.2).flatMap slotsOf
  let s2 := buildNew s1 o (quads.flatMap (fun q => (List.range 4).map (q + 16 * ·)) ++ nos)
  let s3 := (touched.filter fun k => !s.granted k).foldl (fun s k => s.setSlot k { buildSlot s k with tt := raised c.floor 0 }) s2
  makeWay (mapAdded (growUnits (quads.foldl bindStraits s3) o) o w region) o

/-! ### Start (R312, R316, R317 step 7, R338) -/

/-- Whether a context waits in its berths for its quads; one that a move has stopped does not. -/
def Ctx.waits (c : Ctx) : Bool := c.phase == .swapped && !(c.move.any fun m => m.stopped)

/-- Shared contexts that share quads with some, directly or through others. -/
def sharers (s : State) : Nat → List Nat → List Nat
  | 0, l => l
  | n + 1, l =>
    let more := (s.ctxs.filter fun e => e.2.cls = 1 && !l.contains e.1 && l.any (shareQuads s e.1)).map (·.1)
    if more.isEmpty then l else sharers s n (l ++ more)

/-- The place in order of admission of the shared context that got its quads last among those that share with one (R316). -/
def lastTurn (s : State) (o : Nat) : Option Nat :=
  (((sharers s s.ctxs.length [o]).map s.ctx).foldl (fun (m : Nat × Option Nat) c =>
    if m.1 < c.ranAt then (c.ranAt, some c.order) else m) (0, none)).2

/-- How many places of the order of admission lie between the last turn and a context's (R316). -/
def turnsAway (s : State) (last : Option Nat) (order : Nat) : Nat :=
  match last with
  | none => order
  | some l => (order + s.pkg.admitted - l) % (s.pkg.admitted + 1)

/-- Whether a waiting shared context takes its turn before another (R316). -/
def turnBefore (s : State) (e o : Nat) : Bool :=
  let last := lastTurn s o
  (s.ctx e).waits && (s.ctx e).cause != 0 && (quadsHeld s e).all (quadAlive s) &&
    turnsAway s last (s.ctx e).order < turnsAway s last (s.ctx o).order

/-- Whether a guaranteed context is about to run: its build is over, or it waits for quads that all run (R316). -/
def claimsQuads (s : State) (o : Nat) : Bool :=
  let c := s.ctx o
  c.cls = 0 && if c.phase = .building then rootsResident s o else c.waits && (quadsHeld s o).all (quadAlive s)

/-- Whether a context may run on its quads now: they run and their stacks are not held idle, no other occupies them, and no higher class or
earlier turn wants them (R316, R417). -/
def mayRunNow (s : State) (o : Nat) : Bool :=
  let c := s.ctx o
  (quadsHeld s o).all (quadAlive s) && (rivals s o).all fun e =>
    !e.2.phase.onQuads && !(c.cls = 2 && e.2.cls != 2 && e.2.phase != .abrupt) &&
      !(c.cls = 1 && (claimsQuads s e.1 || (e.2.cls = 1 && turnBefore s e.1 o)))

/-- The registers of the entry thread (R21, R317). -/
def entrySlot (s : State) (o : Nat) (x : Slot) : Slot :=
  { x.fresh 0 with pc := (s.ctx o).entry, node := 1, mode := true, ready := s.cycle + 1, codelet := none }

/-- The entry thread at slot 0 of core 0 of quad (0, 0) (R317 step 7). -/
def startEntry (s : State) (o : Nat) : State := startSlot (launchConst s o) (slotKey o 0) (entrySlot s o)

/-- End of the build: the entry starts, on its quads or swapped out behind those that have them; a context whose E has passed by then, that of
its warrant or of its key lease, ends TERM_EXPIRED, whatever notice has fallen due in the build (R312, R316, R317). -/
def startContext (s : State) (o : Nat) : State :=
  let e := Nat.min (warrantOf s o).notAfter (s.ctx o).expiry
  if e ≤ s.pkg.clock then ctxEnd s o 1
  else
    let out := evicted s o
    if !out.isEmpty then
      { s with agenda := s.agenda ++ (out.filter fun x => (s.ctx x).phase == .running).map Instr.harbourSwap }
    else
      let s1 := startEntry s o
      let runs := mayRunNow s o
      s1.modCtx o fun c =>
        { c with phase := if runs then .running else .swapped, cause := if runs then 0 else 1,
                 sliceEnd := s.pkg.clock + 10000,
                 ranAt := if runs then s.cycle + 1 else c.ranAt,
                 notice := if c.notice.isNone && e ≤ s.pkg.clock + 1000 then some (e - 1000) else c.notice }

/-! ### Claims and the order of presentations (R305 to R309) -/

/-- The image as the load of step 5 of R317 reads it: the presenter's or the host's memory may hold other bytes by then. -/
def imageNow (s : State) (p : Presentation) : List Byte × State :=
  if p.from_.isSome then (readBytes s p.at_ p.image.length, s)
  else
    let (f, t) := s.tick
    (Config.hostImage f p.image, t)

/-- The segments of an image whose digest is that of its warrant (R85, R317). -/
def loadedSegs (w : Warrant) (image : List Byte) : Option (List Segment) :=
  (parseImage image).filter fun segs => imageDigest (image.take (imageLength segs)) == w.digest

/-- An accepted presentation: build or grow, then answer OK; a build whose image has another digest by now ends as DIGEST (R252, R317,
R325) (DEDUCED log 48) (DESIGN CHOICE log 81). -/
def admitNow (s : State) (p : Presentation) (w : Warrant) (hold : Hold) : State :=
  let self := p.warrant.take 704
  match p.parent, p.add with
  | some o, true => answer (joinAdded s o w self hold) p 0 hold.handle 0
  | parent, _ =>
    let (image, s1) := imageNow s p
    match loadedSegs w image with
    | none => answer s1 p 7 0 0
    | some segs =>
      let (o, t) := buildContext s1 w self segs hold
      match parent with
      | some x => answer (t.modCtx x fun c => { c with handles := c.handles.put hold.handle { w, self, child := some o } }) p 0 hold.handle o
      | none => answer t p 0 0 o

/-- The answer of the home chip to a claim (R306, R307): a refusal reaches the presenter as SPENT.  Where the debug gate has opened since the
claim was sent, the presentation is refused CLASS, and the claim is withdrawn (R307, R423) (DEDUCED log 107). -/
def claimed (s : State) (p : Presentation) (w : Warrant) (hold : Hold) (accept : Bool) : State :=
  let s1 := boxAdd s 2 0 0 [if accept then 1 else 0]
  if !accept then answer s1 p 3 0 0
  else if s.pkg.debugOpen then answer (s1.modPkg fun q => { q with openClaims := q.openClaims ++ [(w.serial, w.domain)] }) p 12 0 0
  else admitNow s1 p w hold

/-- Whether the ROOT of a serial lies below the floor that this chip holds for its domain (R308). -/
def belowFloor (s : State) (w : Warrant) : Bool :=
  w.serial.toNat / 2 ^ 32 < ((s.pkg.domains.find? w.domain.toNat).getD { members := [] }).floor

/-- Step 10: a warrant below the floor is SPENT; else the claim, decided here where this chip is the home, else sent to it (R252, R305,
R307, R308) (DESIGN CHOICE log 42). -/
def claimStep (s : State) (p : Presentation) (w : Warrant) (hold : Hold) : State :=
  match homeChip s w.domain w.serial with
  | none => answer s p 9 0 0
  | some chip =>
    if belowFloor s w then answer s p 3 0 0
    else if chip = s.pkg.chip then
      let (ok, t) := homeClaim s w.domain w.serial chip
      claimed t p w hold ok
    else
      s.modPkg fun q =>
        { q with nonces := q.nonces + 1, claims := q.claims ++ [{ nonce := BitVec.ofNat 64 q.nonces, p, w, hold, sent := s.cycle }] }

def Queued.isPres : Queued → Bool
  | .pres _ => true
  | .order _ => false

/-- A presentation arrives: it takes its place in the order, or is answered BUSY, recorded, and changes nothing but the challenge that its proof
has used (R309, R405) (DEDUCED log 63). -/
def arrivePresentation (s : State) (p : Presentation) : State :=
  if 16 ≤ (s.pkg.waiting.filter Queued.isPres).length then answer s p 13 0 0
  else s.modPkg fun q => { q with waiting := q.waiting ++ [.pres p] }

/-- The engine takes the oldest presentation through steps 1 to 9 and sends its claim (R252, R309). -/
def takePresentation (s : State) : State :=
  match s.pkg.waiting with
  | .pres p :: rest =>
    let s1 := s.modPkg fun q => { q with waiting := rest }
    match admissionSteps s1 p with
    | .error code => answer s1.tick.2 p code 0 0
    | .ok (w, hold) => claimStep s1.tick.2 p w hold
  | _ => s

/-- A context whose build is over and may start: the pages of its root leases are resident (R337). -/
def buildingCtx (s : State) : Option Nat := (s.ctxs.map fun e => (e.1, e.2.phase)).findSome? fun e =>
  if e.2 = .building && rootsResident s e.1 then some e.1 else none

end Sys2Proof.Machine
end

