-- ==== Sys2Proof/Machine/Warrants.lean ====
section
/-! DEFINITION. The meanings of the warrant, time and key instructions (R251 to R256, R323, R325, R326, R373, R421). -/

namespace Sys2Proof.Machine

/-- A slot that waits for the admission engine: the condition of such a wait never holds at issue (R228). -/
def inEngineWait (x : Slot) : Bool := x.blk.any fun b => b.wait == .engine

/-- The warrant handle that a value names (R251). -/
def handleOf (s : State) (v : Word) : Except Stop (Nat × Handle) :=
  match (if v.toNat < 64 then s.myCtx.handles.find? v.toNat else none) with
  | some h => .ok (v.toNat, h)
  | none => .error (prot v)

def setHandle (s : State) (o n : Nat) (h : Handle) : State := s.modCtx o fun c => { c with handles := c.handles.put n h }

/-! ### Presentation (R252) -/

/-- The answer that waits for the `wpres` at the current pc, if the engine has taken it from the slot, or from the leading slot of its pair. -/
def askedHere (s : State) : Option (Option Word) :=
  (s.slot (leadOf s.me s.cur)).asked.bind fun a => if a.1 = s.me.pc then some a.2 else none

/-- A `wpres`: at its issue the warrant and the image are read and the presentation arrives; the slot then waits for the answer, also
when it issues again after a handler; its queue registers have been popped at the first issue (R228, R252, R372). -/
def present (s : State) (add : Bool) (d a b : Reg) (i : Instr) (h : Hdr) : Host.Outcome State Fault Refusal :=
  let srcs := if add then [a] else [a, b]
  issue { i, h, srcs := if (askedHere s).isSome then unpopped srcs else srcs, dst := some d, pair := .joint } (fun v t =>
    if !t.me.mode then .error (wait .engine)
    else match askedHere t with
    | some (some ans) => give (t.modMe fun x => { x with asked := none }) d ans
    | some none => .error (wait .engine)
    | none => do
      let (w, t1) ← readRecord t (arg v 0) 2048
      let (image, t2) ← if add then .ok ([], t1) else readImage t1 (arg v 1)
      let at_ := ((window t t.cur (arg v 1)).map fun w => w.key (arg v 1)).getD 0
      let t3 := t2.modMe fun x => { x with asked := some (x.pc, none) }
      .error (.block .engine (some (arrivePresentation t3 { from_ := some (t.cur, add, t.me.pc), at_, warrant := w, image })))) s

/-- `wpres.add` (R252, R325). -/
def execWpresAdd (h : Hdr) (d a : Reg) (s : State) : Host.Outcome State Fault Refusal :=
  present s true d a 0 (.wpresAdd h d a) h

/-- `wpres.child` (R252, R317). -/
def execWpresChild (h : Hdr) (d a b : Reg) (s : State) : Host.Outcome State Fault Refusal :=
  present s false d a b (.wpresChild h d a b) h

/-! ### Sub-warrants (R253, R323) -/

/-- The serial of the next sub-warrant of a handle; none where no index or no child byte is left (R301, R323). -/
def subSerial (serial : Word) (index : Nat) : Option Word :=
  if 255 < index then none
  else match (childBytes serial).findIdx? (· == 0) with
    | none => none
    | some n => some (serial + BitVec.ofNat 64 (index * 2 ^ (24 - 8 * n)))

/-- The part record of a split or a delegation (R253). -/
structure Part where
  w : Nat
  h : Nat
  dramb : Nat
  cxlb : Nat
  llcw : Nat
  bws : Nat
  quays : Nat
  berths : Nat
  notAfter : Nat
  holder : List Byte
  deriving DecidableEq, Repr

/-- A part record of good form: `deleg` says which instruction reads it (R253). -/
def parsePart (r : List Byte) (deleg : Bool) : Option Part :=
  let p : Part :=
    { w := field r 0 2, h := field r 2 2, dramb := field r 8 8, cxlb := field r 16 8, llcw := field r 24 1, bws := field r 25 1,
      quays := field r 27 1, berths := field r 28 2, notAfter := field r 32 8, holder := bytesAt r 64 32 }
  let zero := zeroBytes r 4 4 && zeroBytes r 26 1 && zeroBytes r 30 2 && zeroBytes r 40 24 && zeroBytes r 96 32
  if zero && (p.w == 0) == (p.h == 0) && (p.holder.any (· != 0)) == deleg then some p else none

/-- A quad at work: a slot of it runs, a ring holds a record or a command is not terminal (R253, R325). -/
def quadBusy (s : State) (q : Nat) : Bool :=
  (List.range 4).any fun n =>
    let core := s.core (q + 16 * n)
    (slotsOf (q + 16 * n)).any (fun k => (s.slot k).running) || !core.ring.isEmpty || !core.fifo.cmds.isEmpty ||
      !core.slabQ.isEmpty || !core.drains.isEmpty

/-- The rectangle of a handle: that of the build, or of its addition. -/
def rectOf (c : Ctx) (n : Nat) (h : Handle) : Option Rect := if n = 0 then some c.rect else h.rect

/-- Rectangles of idle quads of a handle that a part may take (R253) (DESIGN CHOICE log 44). -/
def partRects (s : State) (o n : Nat) (h : Handle) (p : Part) : List Rect :=
  match rectOf (s.ctx o) n h with
  | none => []
  | some r =>
    (List.range (r.h + 1 - p.h)).flatMap fun j => (List.range (r.w + 1 - p.w)).filterMap fun i =>
      let x : Rect := { col := r.col + i, row := r.row + j, w := p.w, h := p.h, ly := r.ly + j }
      let idle := (List.range p.h).all fun dy => (List.range p.w).all fun dx =>
        s.hasQuad o (i + dx) (r.ly + j + dy) && !quadBusy s (quadKey o (i + dx) (r.ly + j + dy))
      if p.w ≤ r.w && p.h ≤ r.h && idle then some x else none

/-- The quay slots of a handle's warrant, as physical numbers: those of its addition, for handle 0 those of no addition (R253, R325). -/
def handleQuays (c : Ctx) (n : Nat) : List Nat :=
  if n = 0 then c.quays.filter fun q => !c.quayAdds.any fun e => e.2.contains q
  else (c.quayAdds.filter (·.1 = n)).flatMap (·.2)

/-- Granted quay slots of a handle that are idle, as physical numbers; checked ones go with their pair. -/
def idleQuays (s : State) (o n : Nat) : List Nat :=
  ((s.quaysOf o).flatMap slotsOf).filterMap fun k =>
    let q := s.physQuay k * 8 + slotNo k
    if s.granted k && (handleQuays (s.ctx o) n).contains q && (s.slot k).chk != 2 && (pairOf s k).all (fun j => slotIdle s j) then some q
    else none

/-- The berths of a handle's warrant: those of its addition, for handle 0 those of no addition (R253, R325). -/
def handleBerths (c : Ctx) (n : Nat) (h : Handle) : List Nat :=
  if n = 0 then c.berthsOwn.filter fun b => !c.handles.any fun e => e.2.berths.contains b else h.berths

/-- Whether a part fits what the handle holds and nothing of it is in use (R253 code 6). -/
def partFits (s : State) (o n : Nat) (h : Handle) (p : Part) : Bool :=
  let c := s.ctx o
  let room := roomPages c
  h.child.isNone && h.childState == 0 && p.w * p.h ≤ h.w.quads && p.dramb ≤ h.w.dramb && p.cxlb ≤ h.w.cxlb && p.llcw ≤ h.w.llcw &&
    p.bws ≤ h.w.bws && p.quays ≤ h.w.quays && p.berths ≤ h.w.berths && (p.dramb + 2 ^ 15 - 1) / 2 ^ 15 ≤ room.1 &&
    (p.cxlb + 2 ^ 15 - 1) / 2 ^ 15 ≤ room.2 && llcPages s o * 2 ^ 15 + p.llcw * 2 ^ 25 ≤ llcGrant c &&
    p.quays ≤ (idleQuays s o n).length && (p.w = 0 || !(partRects s o n h p).isEmpty)

/-- The class of a sub-warrant, if CLS does not raise it (R253 code 12). -/
def subClass (w : Warrant) (cls : Cls) : Option (BitVec 2) :=
  match cls with
  | .same => some w.cls
  | .shr => if w.cls ≤ 1 then some 1 else none
  | .opp => some 2

/-- The body of a sub-warrant (R323). -/
def subWarrant (h : Handle) (p : Part) (cls : BitVec 2) (serial : Word) (deleg : Bool) : Warrant :=
  let w := h.w
  { w with
    kind := if deleg then 2 else 1
    signer := keyHash Config.identityKey
    serial
    notAfter := if p.notAfter = 0 || w.notAfter < p.notAfter then w.notAfter else p.notAfter
    cls
    depth := if deleg then w.depth - 1 else w.depth
    splits := 0
    quads := p.w * p.h, minw := p.w, minh := p.h, npkg := 1
    cellw := Nat.min w.cellw p.w, cellh := Nat.min w.cellh p.h
    berths := p.berths, dramb := p.dramb, cxlb := p.cxlb, llcw := p.llcw, bws := p.bws, quays := p.quays
    holder := if deleg then p.holder else w.holder
    parent := keyHash h.self }

/-- A record with its signature by the device identity key and its padding (R299). -/
def signRecord (bytes : List Byte) (f : Nat) : List Byte :=
  bytes ++ (Config.falconSign f (shake256 bytes 64) ++ zeros 1280).take 1280 ++ zeros 64

/-- What the handle keeps once a part has left it; the island's fence moves with the quads that go (R15, R253). -/
def partGone (s : State) (o n : Nat) (h : Handle) (p : Part) (deleg : Bool) (index : Nat) (f : Nat) : State :=
  let rects := partRects s o n h p
  let gone := if p.w = 0 then [] else (rects[Config.freeChoice f % rects.length]?).toList
  let quays := ((idleQuays s o n).reverse.take p.quays)
  let lost := if (s.ctx o).checked then quays ++ quays.map (· + 4) else quays
  let berths := (handleBerths (s.ctx o) n h).drop (h.w.berths - p.berths)
  let w := { h.w with
    quads := h.w.quads - p.w * p.h, dramb := h.w.dramb - p.dramb, cxlb := h.w.cxlb - p.cxlb, llcw := h.w.llcw - p.llcw,
    bws := h.w.bws - p.bws, quays := h.w.quays - p.quays, berths := h.w.berths - p.berths,
    splits := if deleg then h.w.splits else h.w.splits - 1, depth := if deleg then h.w.depth - 1 else h.w.depth }
  bindIsland (s.modCtx o fun c =>
    { c with handles := c.handles.put n { h with w, index, taken := h.taken ++ gone, berths := h.berths.filter fun b => !berths.contains b }
             quays := c.quays.filter fun q => !lost.contains q
             quayAdds := c.quayAdds.map fun e => (e.1, e.2.filter fun q => !lost.contains q)
             berthsOwn := c.berthsOwn.filter fun b => !berths.contains b }) o

/-- The outcome of a split or a delegation: a code, or the sub-warrant written and the part gone (R253, R323). -/
def splitOutcome (s : State) (n : Nat) (h : Handle) (part : List Byte) (ea : Word) (key : Nat) (cls : Cls)
    (deleg : Bool) : BitVec 8 × State :=
  match parsePart part deleg with
  | none => (1, s)
  | some p =>
    if h.w.notAfter ≤ s.pkg.clock then (5, s)
    else if !partFits s s.owner n h p then (6, s)
    else if (if deleg then h.w.depth else h.w.splits) = 0 then (11, s)
    else match subSerial h.w.serial (h.index + 1), subClass h.w cls with
      | none, _ => (11, s)
      | _, none => (12, s)
      | some serial, some c =>
        let (f, s1) := s.tick
        let (g, s2) := s1.tick
        let s3 := partGone s2 s.owner n h p deleg (h.index + 1) f
        (0, writeRecord s3 ea key (signRecord (warrantBytes (subWarrant h p c serial deleg)) g))

/-- `wsplit` and `wdeleg`: the operands are checked at issue; the engine then acts and answers (R228, R253). -/
def split (s : State) (deleg : Bool) (cls : Cls) (d a b c : Reg) (i : Instr) (h : Hdr) : Host.Outcome State Fault Refusal :=
  issue { i, h, srcs := [a, b, c], dst := some d, pair := .joint } (fun v s => do
    if !s.me.mode then .error (wait .engine)
    else
      let (n, x) ← handleOf s (arg v 0)
      let (part, t) ← readRecord s (arg v 1) 128
      let key ← recordSpace s (arg v 2) 2048
      if !inEngineWait s.me then .error (wait .engine)
      else
        let (code, t) := splitOutcome t n x part (arg v 2) key cls deleg
        give t d (code.zeroExtend 64)) s

/-- `wsplit` (R253, R323). -/
def execWsplit (h : Hdr) (cls : Cls) (d a b c : Reg) (s : State) : Host.Outcome State Fault Refusal :=
  split s false cls d a b c (.wsplit h cls d a b c) h

/-- `wdeleg` (R253, R323). -/
def execWdeleg (h : Hdr) (cls : Cls) (d a b c : Reg) (s : State) : Host.Outcome State Fault Refusal :=
  split s true cls d a b c (.wdeleg h cls d a b c) h

/-! ### Surrender (R254, R325, R373) -/

/-- Whether an added handle is in use (R325). -/
def addedInUse (s : State) (o : Nat) (h : Handle) : Bool :=
  match h.rect with
  | none => false
  | some r =>
    ((List.range r.h).any fun j => (List.range r.w).any fun i => quadBusy s (quadKey o i (r.ly + j))) ||
      (s.ctx o).handles.any fun e => e.2.rect.any fun x => r.ly < x.ly

/-- The hand-back pages of an addition are released: no domain holds them, and each grant has its bytes again (R254, R325, R334). -/
def releasePages (s : State) (o lo hi : Nat) : State :=
  let mine := (heldIn s lo hi).filter fun e => e.2.holder = o
  let n (t : Tier) : Nat := (mine.filter fun e => e.2.tier = t).length * 2 ^ 15
  let s1 := shootDown (dropCopies (forgetTimes (eraseRange s lo hi) lo hi) lo hi) o lo hi
  { s1 with pages := s1.pages.filter fun e => !(mine.any fun m => m.1 = e.1) }.modCtx o fun c =>
    { c with used := (c.used.1 - n .dram, c.used.2 - n .cxl) }

/-- Whether a barrier of a context belongs to a thread, core or quad among some quads and slots (R20, R241). -/
def barOf (o : Nat) (quads slots : List Nat) (key : Nat) : Bool :=
  let k := slotKey o (key / 128)
  key / 16 % 8 ≤ 2 && (quads.contains (quadOf k) || slots.contains k)

/-- The resources of an unused added handle leave the context: its rows with their barriers and message areas, quay slots, pages, berths and
grants (R254, R325); no later addition stands above it, so the FIFO and quay numbers go on where they stood before it. -/
def removeAdded (s : State) (o n : Nat) (h : Handle) : State :=
  let c := s.ctx o
  let r := h.rect.getD ⟨0, 0, 0, 0, 0⟩
  let quads := (List.range r.h).flatMap fun j => (List.range r.w).map fun i => quadKey o i (r.ly + j)
  let lost := (c.quayAdds.filter (·.1 = n)).flatMap (·.2)
  let outSlot := (s.slotsOfCtx o).filter fun k => isQuay k && lost.contains (s.physQuay k * 8 + slotNo k)
  let off := quads ++ ((List.range c.quayNos.length).drop h.before.2).map (quayKey o)
  let s1 := quads.foldl (fun s q =>
    forgetTimes (eraseRange s (scratchKey q 0) (scratchKey (q + 1) 0)) (scratchKey q 0) (scratchKey (q + 1) 0)) s
  let s2 :=
    { s1 with
      cores := s1.cores.filter fun e => !off.contains (quadOf e.1)
      quads := s1.quads.filter fun e => !quads.contains e.1
      slots := s1.slots.filter fun e => !off.contains (quadOf e.1) && !outSlot.contains e.1 }
  let s3 := s2.modCtx o fun c =>
    { c with
      handles := c.handles.erase n
      hq := c.hq - r.h
      ch := if (warrantOf s o).cellh = 0 then c.hq - r.h else c.ch
      quays := c.quays.filter fun q => !lost.contains q
      quayAdds := c.quayAdds.filter (·.1 ≠ n)
      quayNos := c.quayNos.take h.before.2
      nextFifo := h.before.1
      bars := c.bars.filter fun e => !barOf o off outSlot e.1
      messages := c.messages.filter fun e => !off.contains (quadOf e.1)
      messageTo := c.messageTo.filter fun e => !off.contains (quadOf e.1)
      units := c.units.filter fun e => !off.contains (slotKey o e.1)
      berthsOwn := c.berthsOwn.filter fun b => !h.berths.contains b }
  sendEnd (releasePages (bindIsland s3 o) o h.region.1 h.region.2) h.w.domain h.w.serial 2

/-- `wsurr`: give up a warrant (R254, R373); a child that a move has taken to another chip ends there (DEDUCED log 33). -/
def execWsurr (h : Hdr) (d a : Reg) (s : State) : Host.Outcome State Fault Refusal :=
  issue { i := .wsurr h d a, h, srcs := [a], dst := some d, pair := .joint } (fun v s => do
    let (n, x) ← handleOf s (arg v 0)
    if n = 0 then .ok (ctxEnd s s.owner 2, .gone)
    else match x.child with
      | some o => give (ctxEnd s o 2) d 0
      | none =>
        if x.childState = 2 then give (s.modCtx s.owner fun c => { c with handles := c.handles.erase n }) d 0
        else if x.away.isSome then
          give (setHandle s s.owner n { x with away := none, childState := 2, childEnd := 2 }) d 0
        else if addedInUse s s.owner x then give s d 1
        else give (removeAdded s s.owner n x) d 0) s

/-! ### Queries (R255) -/

/-- The state of the child of a handle (R255, R373). -/
def childWord (s : State) (h : Handle) : Word :=
  match h.child with
  | some o => if (s.ctx o).phase = .building then 0 else 1
  | none => h.childState.zeroExtend 64 + (h.childEnd.zeroExtend 64 <<< 8)

/-- What `wqry` reports of a handle (R255, R373). -/
def queryWord (s : State) (n : Nat) (h : Handle) (sel : WSel) : Word :=
  let w := match h.child with
    | some o => warrantOf s o
    | none => h.w
  let shape := match h.child with
    | some o => ((s.ctx o).wq, (s.ctx o).hq)
    | none => if n = 0 then (s.myCtx.wq, s.myCtx.hq) else h.shape
  match sel with
  | .serial => w.serial
  | .notBefore => BitVec.ofNat 64 w.notBefore
  | .notAfter => BitVec.ofNat 64 w.notAfter
  | .cls => BitVec.ofNat 64 (w.cls.toNat + w.checked.toNat * 4)
  | .shape => BitVec.ofNat 64 (shape.1 % 256 + shape.2 % 256 * 256)
  | .dramb => BitVec.ofNat 64 w.dramb
  | .cxlb => BitVec.ofNat 64 w.cxlb
  | .child => childWord s h
  | .keyLease => match h.child with
    | some o => BitVec.ofNat 64 (s.ctx o).expiry
    | none => if h.childState = 2 then 0 else BitVec.ofNat 64 (h.away.getD s.myCtx.expiry)
  | .splits => BitVec.ofNat 64 w.splits
  | .depth => BitVec.ofNat 64 w.depth

/-- `wqry` (R255). -/
def execWqry (h : Hdr) (sel : WSel) (d a : Reg) (s : State) : Host.Outcome State Fault Refusal :=
  issue { i := .wqry h sel d a, h, srcs := [a], dst := some d, pair := .joint } (fun v s => do
    let (n, x) ← handleOf s (arg v 0)
    give s d (queryWord s n x sel)) s

/-! ### Time, attestation and keys (R256, R326, R421) -/

/-- `tnow`: the lighthouse clock (R256). -/
def execTnow (h : Hdr) (d : Reg) (s : State) : Host.Outcome State Fault Refusal :=
  issue { i := .tnow h d, h, dst := some d, pair := .joint } (fun _ s => give s d (BitVec.ofNat 64 s.pkg.clock)) s

/-- The error-count block of a context (R396). -/
def countBytes (c : Counts) (degPort : Bool) : List Byte :=
  let n (v : Nat) : List Byte := le 4 (Nat.min v (2 ^ 32 - 1))
  n c.dcor ++ n c.dunc ++ n c.scor ++ n c.sunc ++ n c.cont ++ n c.chkm ++
    le 1 (c.degFabric.toNat + degPort.toNat * 2) ++ zeros 39

/-- Whether a port serves an island: an Ostik port the islands of several packages, a memory port those with CXL memory, and the
host-facing port all of them (R396, R400; DESIGN CHOICE log 30). -/
def serves (s : State) (port o : Nat) : Bool :=
  if 4 ≤ port then (s.ctx o).npkg != 1
  else (port == s.pkg.cxlPort && Config.form != .host) || (grants (s.ctx o)).2 != 0

/-- DEG[1]: a port that serves the island is DEGRADED (R396, R409). -/
def degradedFor (s : State) (o : Nat) : Bool :=
  s.pkg.ports.any fun e => (e.2.state == .degraded || e.2.state == .degraded4) && serves s e.1 o

/-- FLAGS of a report (R421). -/
def reportFlags (s : State) : Nat :=
  s.pkg.anchored.toNat + s.pkg.storeFull.toNat * 2 + s.pkg.debugOpen.toNat * 4 +
    (s.pkg.power.any fun e => e.2.duty < 64).toNat * 8

/-- FWDIG: SHAKE256 of the stage 1 to 3 images that the package holds (R421). -/
def firmwareDigest (s : State) : List Byte := shake256 ([1, 2, 3].flatMap fun n => (s.pkg.images.get {} n).bytes) 32

/-- Bytes 0 to 399 of a report for a context (R421). -/
def reportBody (s : State) (o : Nat) (nonce : List Byte) : List Byte :=
  let pad (n : Nat) (l : List Byte) : List Byte := (l ++ zeros n).take n
  let w := warrantOf s o
  let q := usableQuads s
  pad 8 attestMagic ++ le 2 1 ++ le 2 1680 ++ zeros 4 ++ pad 8 Config.orderingCode ++ le 2 (4 * q) ++ le 2 (4 * q) ++ le 2 q ++
    le 1 (reportFlags s) ++ zeros 1 ++ le 8 s.pkg.chip.toNat ++ le 1 s.pkg.podn ++ zeros 7 ++ firmwareDigest s ++
    le 4 s.pkg.svn ++ zeros 4 ++ le 8 s.pkg.clock ++ pad 32 s.pkg.challenge ++ pad 32 nonce ++ le 2 o ++ zeros 6 ++
    le 8 w.serial.toNat ++ pad 32 w.digest ++ pad 128 w.tag ++ countBytes (s.ctx o).counts (degradedFor s o)

/-- A report with its signature, and the digest under which a renewal token names it (R326, R421). -/
def report (s : State) (o : Nat) (nonce : List Byte) (f : Nat) : List Byte :=
  let body := reportBody s o nonce
  body ++ (Config.falconSign f (shake256 body 64) ++ zeros 1280).take 1280

/-- `attest`: write a report (R256, R421). -/
def execAttest (h : Hdr) (d a b : Reg) (s : State) : Host.Outcome State Fault Refusal :=
  issue { i := .attest h d a b, h, srcs := [a, b], dst := some d, pair := .joint } (fun v s => do
    if !s.me.mode then .error (wait .engine)
    else
      let key ← recordSpace s (arg v 0) 1680
      let (nonce, t) ← readRecord s (arg v 1) 32
      if !inEngineWait s.me then .error (wait .engine)
      else
        let (f, s1) := t.tick
        let r := report s s.owner nonce f
        let s2 := (writeRecord s1 (arg v 0) key r).modCtx s.owner fun c => { c with report := some (keyHash r, s.pkg.clock) }
        give s2 d 1680) s

/-- The answer of `klease` to a token (R256, R326). -/
def renewCode (s : State) (o : Nat) (r : List Byte) : BitVec 8 :=
  let w := warrantOf s o
  if !orderOk r 4 56 then 1
  else if !signedBy r (operatorKey s (signerOf r)) then 2
  else
    let fresh := (s.ctx o).report.any fun e => e.1 == bytesAt r 88 32 && s.pkg.clock ≤ e.2 + 10000000
    if fieldWord r 64 != w.serial || fieldWord r 72 != s.pkg.chip || !fresh || field r 80 8 ≤ (s.ctx o).expiry then 5 else 0

/-- A renewed key lease: the report serves no further token, and a later E has a notice of its own (R312, R326). -/
def renew (s : State) (o newExp : Nat) : State :=
  let t := s.modCtx o fun c => { c with expiry := Nat.min newExp (warrantOf s o).notAfter, report := none }
  if endTime t o = endTime s o then t else t.modCtx o fun c => { c with notice := none, noticeDone := false }

/-- `klease`: renew the key lease (R256, R326); its token is an order, which is recorded (R309). -/
def execKlease (h : Hdr) (d a : Reg) (s : State) : Host.Outcome State Fault Refusal :=
  issue { i := .klease h d a, h, srcs := [a], dst := some d, pair := .joint } (fun v s => do
    if !s.me.mode then .error (wait .engine)
    else
      let (r, t) ← readRecord s (arg v 0) 1536
      if !inEngineWait s.me then .error (wait .engine)
      else
        let code := renewCode s s.owner r
        let u := boxAdd t 4 s.owner 0 [code]
        give (if code = 0 then renew u s.owner (field r 80 8) else u) d (code.zeroExtend 64)) s

end Sys2Proof.Machine
end

