-- ==== Sys2Proof/Machine/Waits.lean ====
section
/-! DEFINITION. Blocked slots: when a wait's condition holds, what its trap records, and which parties could release it (R143 to R148,
R280, R286 to R289). -/

namespace Sys2Proof.Machine

/-! ### When a wait is over -/

/-- Source registers as they read now, with nothing popped: the n-th mention of a queue reads its n-th entry (R22). -/
def peekRegs (s : State) (k : Nat) (rs : List Reg) : List Word :=
  rs.zipIdx.map fun e =>
    if e.1.isQueue then
      (qEntries s (coreOf k) (queueOf e.1)).getD (timesNamed s k (rs.take e.2) (queueOf e.1)) 0
    else (s.slot k).getG e.1

/-- Whether an older waiter of the same kind waits on a full/empty word (R143). -/
def olderOnWord (s : State) (k key : Nat) (reads : Bool) : Bool :=
  (others s k).any fun e =>
    e.2.ticket < ticketOf s k &&
      (match e.2.wait, e.2.instr with
       | .fe _ x, .ldfe .. => reads && x == key
       | .fe _ x, .stfe .. => !reads && x == key
       | _, _ => false)

/-- Whether a waiting full/empty instruction is served now (R142, R143). -/
def wordServes (s : State) (k key : Nat) (i : Instr) : Bool :=
  match i with
  | .ldfe .. => s.full.get false key && !olderOnWord s k key true
  | _ => !s.full.get false key && !olderOnWord s k key false

/-- Whether a `waita` finds its value, or can no longer access it (R145). -/
def valueMet (s : State) (k : Nat) (i : Instr) : Bool :=
  match i with
  | .waita _ cond ty _ m c =>
    let v := peekRegs s k (m.regs ++ [c])
    (match check s k (m.ea v) ty.bytes rR with
     | .error _ => true
     | .ok key =>
       let (bs, ps, _) := loadBytes s k key ty.bytes
       (!pathBusy s key || ownCopy s k key) &&
         (ps.contains true || cond.holds (ty.int (BitVec.ofNat 64 (leWord bs))) (ty.int (arg (m.rest v) 0))))
  | _ => true

/-- Whether a `waita` is held in the memory path: that time does not count toward its limit (R337). -/
def pathHeld (s : State) (k : Nat) (b : Block) : Bool :=
  match b.wait with
  | .addr _ key => pathBusy s key && !ownCopy s k key
  | _ => false

/-- Whether the pages of a waiting `lease` are resident (R150). -/
def leaseMet (s : State) (k : Nat) (i : Instr) : Bool :=
  match i with
  | .lease _ _ _ a im b =>
    let v := peekRegs s k [a, b]
    let lo := offsetOf (arg v 0 + im.sext)
    rangeResident s (ownerOf k) (lo / 2 ^ 15 * 2 ^ 15) (pageUp (lo + (arg v 1).toNat))
  | _ => true

/-- Whether the wait on a command FIFO is over (R205, R220, R221). -/
def fifoMet (s : State) (k : Nat) (i : Instr) : Bool :=
  match i with
  | .xseal .. => openSeals s k true < 15
  | .xwait _ vis _ im => openSeals s k vis ≤ im.zext.toNat
  | _ => (s.core (coreOf k)).fifo.cmds.length < 16

/-- Whether a message, or the wake of another instruction, has room at its receiver; a sender that is out with its context waits for room
in the inbox still (R146, R148, R286). -/
def msgMet (s : State) (j : Nat) (i : Instr) : Bool :=
  match i with
  | .msg .. => (s.slot j).inbox.length < 4 && !((s.ctx (ownerOf j)).messageTo.get [] (coreOf j)).contains j
  | _ => !areaFull s j

/-- Whether the queues of a blocked slot serve its instruction: all of them at once (R280). -/
def queuesServe (s : State) (k : Nat) (b : Block) : Bool :=
  (popShort s k b.srcs).isNone && !(b.dst.any fun d => pushShort s k b.srcs d)

/-- What a blocked slot waits for now: of its queues, the first that cannot serve it (R280, R287). -/
def Block.object (s : State) (k : Nat) (b : Block) : Wait :=
  if b.onQueues then
    match popShort s k b.srcs, b.dst.filter fun d => pushShort s k b.srcs d with
    | some q, _ => .qPop q
    | none, some d => .qPush (queueOf d)
    | none, none => b.wait
  else b.wait

/-- Whether the condition of a blocked slot's wait holds. -/
def satisfied (s : State) (k : Nat) (b : Block) : Bool :=
  match b.wait with
  | .qPop _ | .qPush _ => queuesServe s k b
  | .fe _ key => wordServes s k key b.instr
  | .addr _ _ => (popShort s k b.srcs).isNone && valueMet s k b.instr
  | .inbox => !(s.slot k).inbox.isEmpty
  | .latch => (s.slot k).wake
  | .bar sc _ id p => ((s.ctx (ownerOf k)).bars.get {} (barKey s k sc id)).phase != p
  | .msg _ j => msgMet s j b.instr
  | .ring _ core => !ringFull (s.core core)
  | .fifo => fifoMet s k b.instr
  | .follow f done =>
    if done then followIdle (s.core (coreOf k)) f else ((s.core (coreOf k)).follow.get {} f.toNat).queued.isNone
  | .lease _ => (popShort s k b.srcs).isNone && leaseMet s k b.instr
  | .engine => !((s.slot k).asked == some ((s.slot k).pc, none))

/-! ### What a trap of a wait records -/

/-- TVAL of WAITLIMIT: ea, the place word of `msg`, 0 for `wait` and queue registers; for the other waits the spec states none (R144,
DESIGN CHOICE log 1) (DESIGN CHOICE log 40). -/
def limitTval (s : State) (w : Wait) : Word :=
  match w with
  | .fe ea _ | .addr ea _ | .lease ea => ea
  | .msg place _ => place
  | .qPop _ | .qPush _ | .inbox | .latch => 0
  | _ => Config.freeWord s.fresh

/-- KIND ‖ OBJECT of DEADLOCK (R288). -/
def deadTval (w : Wait) : Word :=
  let t (kind : BitVec 8) (object : BitVec 56) : Word := kind ++ object
  match w with
  | .qPop q => t 1 (BitVec.ofNat 56 q)
  | .qPush q => t 2 (BitVec.ofNat 56 q)
  | .fe ea _ => t 3 (ea.extractLsb' 0 56)
  | .addr ea _ => t 4 (ea.extractLsb' 0 56)
  | .inbox => t 5 0
  | .latch => t 6 0
  | .bar sc _ id _ => t 7 (BitVec.ofNat 56 (sc.code.toNat * 16 + id.toNat))
  | .msg place _ => t 8 (place.extractLsb' 0 56)
  | .ring place _ => t 9 (place.extractLsb' 0 56)
  | .fifo => t 0xA 0
  | .follow f _ => t 0xB (f.zeroExtend 56)
  | .lease _ | .engine => 0

/-! ### Live and dead (R286, R287) -/

/-- The slots of a context that are blocked in a wait that does not hold. -/
def blockedSlots (s : State) (o : Nat) : List (Nat × Block) :=
  s.slots.filterMap fun e =>
    if ownerOf e.1 = o && e.2.running then (e.2.blk.filter fun b => !satisfied s e.1 b).map fun b => (e.1, b) else none

/-- The slots of a context that run and wait for nothing: ready, or held by an interlock or latency, in a wait that holds included; the
trailing slot of a pair that waits as one waits with it (R286, R394). -/
def runningSlots (s : State) (o : Nat) : List Nat :=
  let blocked := (blockedSlots s o).map (·.1)
  s.slots.filterMap fun e =>
    if ownerOf e.1 = o && e.2.running && !blocked.contains e.1 && !(e.2.offer.isSome && blocked.contains (leadOf e.2 e.1)) then some e.1
    else none

/-- Cores whose ring holds a record while a slot of theirs is idle and eligible. -/
def liveRings (s : State) (o : Nat) : List Nat :=
  (s.coresOf o).filter fun c => !(s.core c).ring.isEmpty && (idleSlot s c).isSome

/-- Cores with a full ring and a live slot: such a ring is live (R286). -/
def fullRings (s : State) (o : Nat) (live : List Nat) : List Nat :=
  (s.coresOf o).filter fun c => !isQuay c && ringFull (s.core c) && live.any fun j => coreOf j == c

/-- The engine commands of a context that are live beside some slots: those at work, and handed-back ones of a live slot. -/
def liveCommands (s : State) (o : Nat) (live : List Nat) : List (Nat × Cmd) :=
  (s.coresOf o).flatMap fun core =>
    ((s.core core).fifo.cmds.filter fun c => c.handed.isNone || live.contains c.slot).map fun c => (core, c)

/-- Whether the host is a releaser of a `waita` at an address (R287). -/
def hostReleases (s : State) (o : Nat) (ea : Word) : Bool :=
  let p := s.page (offsetOf ea / 2 ^ 15)
  Config.hostAttached && tagOf ea == 0 && offsetOf ea < 2 ^ 55 && p.holder == o && p.rights &&& rW == rW && (s.ctx o).tdisp == .run

/-- Whether some releaser of a wait is live (R287). -/
def released (s : State) (o : Nat) (live rings : List Nat) (k : Nat) (w : Wait) : Bool :=
  let cmds := liveCommands s o live
  let coreLive (c : Nat) : Bool := live.any (fun j => coreOf j == c) || rings.contains c
  let some_ := !live.isEmpty || !rings.isEmpty
  match w with
  | .qPop q | .qPush q =>
    (match ((s.core (coreOf k)).queue q).bank with
     | none => coreLive (coreOf k)
     | some b => (List.range 4).any fun n =>
         let c := quadOf k + 16 * n
         (s.core c).queues.any (fun e => e.2.bank == some b) && coreLive c)
  | .fe _ _ => some_ || !cmds.isEmpty
  | .addr ea _ => some_ || !cmds.isEmpty || hostReleases s o ea
  | .inbox | .latch => some_
  | .bar sc _ id _ =>
    let arrived := ((s.ctx o).bars.get {} (barKey s k sc id)).slots.map (·.1)
    live.any (fun j => inBarUnit s k sc j && !arrived.contains j) || rings.any (inBarUnit s k sc)
  | .msg _ j => live.contains j
  | .ring _ core => coreLive core
  | .fifo => cmds.any fun e => e.1 == coreOf k
  | .follow f done =>
    let started := (s.core (coreOf k)).follow.get {} f.toNat
    coreLive (coreOf k) ||
      cmds.any (fun e => e.2.w0.fol == some f && e.2.desc.isSome && tileCore o e.2.w2 == coreOf k && e.2.handed.isNone) ||
      (done && started.last.any fun q => (s.core (coreOf k)).slabQ.any fun x => x.seq == q)
  | .lease _ | .engine => true

/-- Extend the live set until nothing moves: as many rounds as there are blocked slots suffice (R286). -/
def liveSet (s : State) (o : Nat) : Nat → List Nat → List Nat → List (Nat × Block) → List Nat
  | 0, _, live, _ => live
  | n + 1, rings, live, dead =>
    let all := rings ++ fullRings s o live
    let out := dead.filter fun e => released s o live all e.1 (e.2.object s e.1)
    liveSet s o n all (live ++ out.map (·.1)) (dead.filter fun e => !released s o live all e.1 (e.2.object s e.1))

/-- The blocked slots that no live party could release (R286). -/
def deadSlots (s : State) (o : Nat) : List (Nat × Block) :=
  let b := blockedSlots s o
  let live := liveSet s o b.length (liveRings s o) (runningSlots s o) b
  b.filter fun e => !live.contains e.1

end Sys2Proof.Machine
end

