-- ==== Sys2Proof/Machine/Banks.lean ====
section
/-! DEFINITION. The modes of the SRAM banks of a quad and their switch (R153, R154). -/

namespace Sys2Proof.Machine

/-- The modes of all 16 banks, two bits a bank (R153). -/
def modesWord (q : QuadSt) : Word :=
  BitVec.ofNat 64 (((List.range 16).map fun b => (q.mode b).code.toNat * 2 ^ (2 * b)).sum)

/-- The banks of a selection that do not hold the mode yet (R154). -/
def switching (q : QuadSt) (sel : BitVec 16) (mode : BankMode) : List Nat :=
  (List.range 16).filter fun b => sel.getLsbD b && q.mode b != mode

/-- The bank of a core's in-scratch ring. -/
def ringBank (c : CoreSt) : Nat := bankOf (c.ringb.toNat * 4096)

/-- Whether a span of addresses lies in a bank of a quad. -/
def addressesBank (s : State) (k quad bank : Nat) (span : Word × Nat) : Bool :=
  match window s k span.1 with
  | some (.scratch q off) => q = quad && off < (bank + 1) * 2 ^ 18 && bank * 2 ^ 18 < off + span.2
  | _ => false

/-- Whether an engine command addresses a bank: by its accesses or by its completion word (R154). -/
def cmdAddresses (s : State) (quad bank : Nat) (c : Cmd) : Bool :=
  c.spans.any (addressesBank s c.slot quad bank) ||
    (cwe c.w3 && quadKey (ownerOf c.slot) (cwLx c.w3) (cwLy c.w3) == quad && bankOf (cwOffset c.w3) == bank)

/-- The commands accepted so far that address one of the banks; a handed-back one has stopped (R224). -/
def busyCommands (s : State) (quad : Nat) (banks : List Nat) : List (Nat × BitVec 32) :=
  (s.coresOf (ownerOf quad)).flatMap fun core =>
    ((s.core core).fifo.cmds.filter fun c => c.handed.isNone && banks.any fun b => cmdAddresses s quad b c).map fun c =>
      (core, c.cnum)

/-- Whether a scratch key lies in one of some banks of a quad. -/
def inBanks (quad : Nat) (banks : List Nat) (key : Nat) : Bool :=
  scratchKey quad 0 ≤ key && key < scratchKey (quad + 1) 0 && banks.contains (bankOf (key - scratchKey quad 0))

/-- The drains that have read their cells and still write to one of the banks (R154, R201). -/
def busyDrains (s : State) (quad : Nat) (banks : List Nat) : List (Nat × BitVec 32) :=
  (s.coresOf (ownerOf quad)).flatMap fun core =>
    ((s.core core).drains.filter fun d => d.writes.any fun w => inBanks quad banks w.1).map fun d => (core, d.seq)

/-- The `bankcfg` instructions of a quad that still wait their turn: their slots stand at them. -/
def bankOrder (s : State) (quad : Nat) : List (Nat × Word) :=
  (s.quad quad).order.filter fun e => (s.slot e.1).running && (s.slot e.1).pc == e.2

/-- Whether a `bankcfg` of a slot may be performed: no other one of the quad is in progress or has arrived before it (R154). -/
def bankTurn (s : State) (k : Nat) : Bool :=
  (s.quad (quadOf k)).switches.isEmpty && (bankOrder s (quadOf k)).head?.all fun e => e.1 == k

/-- Whether a slot's `bankcfg` arrives as it issues: outside a checked pair, or where its partner has issued it too (R154, R394). -/
def bothIssue (s : State) : Bool :=
  let partner := if s.me.chk = 1 then trailOf s.cur else leadOf s.me s.cur
  s.me.chk = 0 || (s.slot partner).offer.isSome

/-- A `bankcfg` takes its place in the order of arrival. -/
def bankArrives (s : State) (k : Nat) : State :=
  s.modQuad (quadOf k) fun q =>
    let l := bankOrder s (quadOf k)
    { q with order := if l.any fun e => e.1 == k then l else l ++ [(k, (s.slot k).pc)] }

/-- `bankcfg`: in its turn the switch is prepared, and performed at its boundary by the event BANK_MODE_SWITCH, which completes the
instruction; where no selected bank changes mode it completes at once (R153, R154).  A checked pair stands in the order as its leading slot
(R394). -/
def execBankcfg (h : Hdr) (mode : BankMode) (d a : Reg) (s : State) : Host.Outcome State Fault Refusal :=
  let op : Op := { i := .bankcfg h mode d a, h, srcs := [a], dst := some d, pair := .joint }
  issue op (fun v s =>
    let q := s.quad s.myQuad
    let banks := switching q ((arg v 0).extractLsb' 0 16) mode
    let strands := (List.range 4).any fun c =>
      let core := s.core (s.myQuad + 16 * c)
      !core.ring.isEmpty && banks.contains (ringBank core) && q.mode (ringBank core) == .scr
    let out (s : State) : State := s.modQuad s.myQuad fun q => { q with order := q.order.filter fun e => e.1 != s.cur }
    if !bankTurn s s.cur then .error .hold
    else if strands then .error ill
    else if banks.isEmpty then give (out s) d (modesWord q)
    else
      let w : Switch :=
        { slot := s.cur, dst := d, banks := BitVec.ofNat 16 ((banks.map fun b => 2 ^ b).sum), mode,
          waitFor := busyCommands s s.myQuad banks, drains := busyDrains s s.myQuad banks }
      .ok (((out s).modQuad s.myQuad fun q => { q with switches := q.switches ++ [w] }).modMe fun x =>
        { x with ready := s.cycle + 1 }, .gone))
    (if bankTurn s (leadOf s.me s.cur) || !reachesBody op s || !bothIssue s then s else bankArrives s (leadOf s.me s.cur))

/-- Whether a command that a switch waits for still uses its banks. -/
def stillUses (s : State) (e : Nat × BitVec 32) : Bool :=
  match findCmd s e.1 e.2 with
  | some c => c.handed.isNone
  | none => false

/-- Whether a drain that a switch waits for still uses its banks. -/
def stillDrains (s : State) (quad : Nat) (w : Switch) : Bool :=
  w.drains.any fun e => (s.core e.1).drains.any fun d =>
    d.seq == e.2 && d.writes.any fun x => inBanks quad ((List.range 16).filter fun b => w.banks.getLsbD b) x.1

/-- The trap of a slot that waits on a bank which leaves its mode: BANK_MODE with the address, which a queue does not have (R154,
DESIGN CHOICE log 1). -/
def strandedBy (s : State) (quad : Nat) (scr fifo : List Nat) (k : Nat) (b : Block) : Option Word :=
  let bound (q : Nat) : Bool := match ((s.core (coreOf k)).queue q).bank with
    | some n => quadOf k == quad && fifo.contains n.toNat
    | none => false
  match b.object s k with
  | .fe ea key => if inBanks quad scr (8 * key) then some ea else none
  | .addr ea key => if inBanks quad scr key then some ea else none
  | .qPop q | .qPush q => if bound q then some (Config.freeWord s.fresh) else none
  | _ => none

/-- Unbind every queue of a core that is bound to one of some banks (R243). -/
def unbindAll (c : CoreSt) (banks : List Nat) : CoreSt :=
  let out (q : QueueSt) : QueueSt := match q.bank with
    | some n => if banks.contains n.toNat then {} else q
    | none => q
  { c with queues := c.queues.map fun e => (e.1, out e.2) }

/-- The cache-way bank that holds a line of a quad (R332). -/
def wayBank (q : QuadSt) (ln : Nat) : Nat :=
  let banks := (List.range 16).filter fun b => q.mode b == .cache
  banks.getD (Config.homeWay ln % banks.length) 0

/-- A bank is zeroed: what is done in it from here on stands behind every earlier access of it (R154, R269). -/
def zeroBank (s : State) (quad b : Nat) : State :=
  let lo := scratchKey quad (b * 2 ^ 18)
  let hi := scratchKey quad ((b + 1) * 2 ^ 18)
  let left := timeLeft s lo hi ((s.quad quad).bankTimes.find? b)
  (forgetTimes (eraseRange s lo hi) lo hi).modQuad quad fun x => { x with bankTimes := left.elim x.bankTimes (x.bankTimes.put b) }

/-- The switch at its boundary: contents, modes, queues, D of the `bankcfg`, then the traps of the slots that waited (R154). -/
def performSwitch (s : State) (quad : Nat) (w : Switch) : State :=
  let q := s.quad quad
  let old := modesWord q
  let banks := (List.range 16).filter fun b => w.banks.getLsbD b
  let scr := banks.filter fun b => q.mode b == .scr
  let fifo := banks.filter fun b => q.mode b == .fifo
  let victims := s.slots.filterMap fun e => e.2.blk.bind fun b => (strandedBy s quad scr fifo e.1 b).map fun v => (e.1, v)
  let s1 := banks.foldl (fun s b => zeroBank s quad b) s
  let s2 := s1.modQuad quad fun x =>
    { x with modes := banks.foldl (fun m b => m.put b w.mode) x.modes, fifos := x.fifos.filter fun e => !banks.contains e.1,
             fifoBad := x.fifoBad.filter fun e => !banks.contains e.1, ways := x.ways.filter fun e => !banks.contains (wayBank q e.1),
             switches := x.switches.tail }
  let s3 := (List.range 4).foldl (fun s c => s.modCore (quad + 16 * c) fun x => unbindAll x fifo) s2
  let s4 :=
    if (s3.slot w.slot).running then
      let op : Op := { i := .bankcfg ⟨7, false⟩ w.mode w.dst 0, h := ⟨7, false⟩, dst := some w.dst, pair := .joint }
      let t := finish (writeReg s3 w.slot w.dst old) w.slot 8 1 .fall
      if (t.slot w.slot).chk = 1 then t.modSlot (trailOf w.slot) (copyToTrail op (t.slot w.slot)) else t
    else s3
  victims.foldl (fun s v => raiseWaiting s v.1 ⟨.bankMode, v.2, 0⟩) s4.tick.2

/-- BANK_MODE_SWITCH: the oldest `bankcfg` of the quad switches its banks once the commands accepted before it have finished with
them (R154). -/
def execBankModeSwitch (quad : Nat) (s : State) : Host.Outcome State Fault Refusal :=
  match (s.quad quad).switches with
  | [] => .next s
  | w :: _ => if w.waitFor.any (stillUses s) || stillDrains s quad w then .next s else .next (performSwitch s quad w)

end Sys2Proof.Machine
end

