-- ==== Sys2Proof/Machine/Progress.lean ====
section
/-! DEFINITION. The events of dispatch, waits and time in an island: ring dispatch, WAITLIMIT, the deadlock detector, logical time, the
expiry notice and the ends at the clock (R144, R233, R260, R282, R286 to R289, R312). -/

namespace Sys2Proof.Machine

/-! ### Dispatch (R21, R233, R282) -/

/-- The registers of a slot that dispatches a record (R21, R233, R262). -/
def dispatched (s : State) (r : RingRec) (w0 w1 : Word) (x : Slot) : Slot :=
  { x.fresh w1 with
    pc := (w0.extractLsb' 2 62 ++ (0 : BitVec 2) : BitVec 64), mode := false, prio := r.prio, rstrt := w0.getLsbD 0, node := r.node,
    tt := Time.later x.tt r.time, ready := s.cycle + 1, codelet := some (w0, w1, r.prio) }

/-- Records of the spill area go back into the in-scratch area, in order, as far as a free value has it; a record keeps its place in the
order (R233, R282, DESIGN CHOICE log 1). -/
def moveBack (s : State) (core : Nat) : State :=
  let (f, s1) := s.tick
  match (s.core core).ring.find? fun r => 256 ≤ r.pos, (ringFree (s.core core)).filter (· < 256) with
  | some r, p :: ps =>
    if Config.freeKeep f then
      let pos := (p :: ps).getD (Config.freeChoice f % (ps.length + 1)) p
      let key := ringKey s1 core pos
      let s2 := writeBytes s1 key (readBytes s1 (ringKey s1 core r.pos) 16)
      s2.modCore core fun c => { c with ring := c.ring.map fun x => if x.pos = r.pos then { x with pos } else x }
    else s1
  | _, _ => s

/-- The dispatch of the next record into a slot; a code pointer that is not 32-byte aligned traps in the codelet (R233, R234). -/
def dispatchInto (s : State) (core k : Nat) (r : RingRec) : State :=
  let (w0, w1, s1) := ringTake s core r
  let s2 := beginNode (startSlot s1 k (dispatched s r w0 w1)) (ownerOf core) r.node
  let pc := (s2.slot k).pc
  if pc.toNat % 32 = 0 then s2
  else (pairOf s2 k).foldl (fun s j => if (s.slot j).running then raise s j ⟨.misalign, pc, 0⟩ else s) s2

/-- SLOT_DISPATCH: the dispatch stage of a core takes one record (R233, R282). -/
def execSlotDispatch (core : Nat) (s : State) : Host.Outcome State Fault Refusal :=
  match ringNext (s.core core), idleSlot s core with
  | some r, some k => if (s.ctx (ownerOf core)).phase = .running && !s.fenced core then .next (moveBack (dispatchInto s core k r) core) else .next s
  | _, _ => .next s

/-! ### Waits (R144, R286 to R289) -/

/-- Whether a blocked slot has waited its limit (R144). -/
def limitReached (s : State) (b : Block) : Bool := b.limit != 0 && b.since + b.limit ≤ s.cycle

/-- WAITLIMIT: a wait that has lasted its limit traps, unless its condition holds in the same cycle (R144, R281). -/
def execWaitLimit (slot : Nat) (s : State) : Host.Outcome State Fault Refusal :=
  match (s.slot slot).blk with
  | none => .next s
  | some b =>
    if (s.ctx (ownerOf slot)).phase = .running && limitReached s b && !satisfied s slot b then
      .next (raiseWaiting s.tick.2 slot ⟨.waitLimit, limitTval s b.wait, 0⟩)
    else .next s

/-- The trap of a deadlocked slot: at once, or first at restore where its context is out (R288, R365). -/
def deadlockTrap (s : State) (e : Nat × Block) : State :=
  let tval := deadTval (e.2.object s e.1)
  if (s.slot e.1).blk != some e.2 || satisfied s e.1 e.2 then s
  else if (s.ctx (ownerOf e.1)).phase = .swapped then
    if (s.slot e.1).pend.any fun p => p.cause == Cause.deadlock.code then s
    else
      (if e.2.own then [e.1] else pairOf s e.1).foldl (fun s k => s.modSlot k fun x =>
        { x with pend := x.pend ++
          [{ cause := Cause.deadlock.code, late := false, pc := x.pc, tval, tseq := 0, lvl := x.tlvl }] }) s
  else raiseWaiting s e.1 ⟨.deadlock, tval, 0⟩

/-- A snapshot: slots dead in it and in the last one trap; every slot is marked as it stands in this one (R286, R288). -/
def snapshot (s : State) (o : Nat) : State :=
  let dead := deadSlots s o
  let hit := dead.filter fun e => (s.slot e.1).dead
  let mark (k : Nat) (x : Slot) : Slot := { x with dead := dead.any fun e => e.1 == k }
  hit.foldl deadlockTrap ((s.slots.filter fun e => ownerOf e.1 == o).foldl (fun s e => s.modSlot e.1 (mark e.1)) s)

/-- DEADLOCK_SNAPSHOT (R286). -/
def execDeadlockSnapshot (owner : Nat) (s : State) : Host.Outcome State Fault Refusal := .next (snapshot s owner)

/-- LOGICAL_TIME_TICK: every slot of a core of a resident context, its drain included (R367), gains one tick, and no time of the island falls too far behind (R260,
R265). -/
def execLogicalTimeTick (core : Nat) (s : State) : Host.Outcome State Fault Refusal :=
  if (s.ctx (ownerOf core)).phase.onQuads && !(s.ctx (ownerOf core)).spillWait then
    .next (raiseTimes (((slotsOf core).filter s.granted).foldl (fun s k => s.modSlot k fun x => { x with tt := x.tt + 1 }) s)
      (ownerOf core))
  else .next s

/-! ### Expiry (R312) -/

/-- The notice falls due at a clock value; during a move it waits for the switch (R312, R411). -/
def noticeDue (s : State) (o n : Nat) : State :=
  let s1 := s.modCtx o fun c => { c with notice := some n }
  if (s.ctx o).moving then s1.modCtx o fun c => { c with move := c.move.map fun m => { m with notice := true } }
  else noticePend s1 o

/-- Whether a context's notice is due: it has started, or was started and is out or ended abruptly, and has had none (R312). -/
def noticeReady (s : State) (o : Nat) : Bool :=
  let c := s.ctx o
  (s.ctxs.find? o).isSome && c.phase != .building && !c.gone && c.notice.isNone && (endTime s o).1 ≤ s.pkg.clock + 1000

/-- EXPIRY_NOTICE: it falls due at E − 1,000 µs, also where that has passed with no step of the clock, as behind a renewal (R312). -/
def execExpiryNotice (owner : Nat) (s : State) : Host.Outcome State Fault Refusal :=
  if noticeReady s owner then .next (noticeDue s owner ((endTime s owner).1 - 1000)) else .next s

/-- Whether a context's end time has come, 1,000 µs behind its notice (R312). -/
def endReady (s : State) (o : Nat) : Bool :=
  (s.ctxs.find? o).isSome && (s.ctx o).phase != .building && !(s.ctx o).gone &&
    (s.ctx o).notice.any fun n => endAt (endTime s o).1 n ≤ s.pkg.clock

/-- TERM_EXPIRED: the warrant's end time; it prevails where the key lease falls due with it (R312, R320). -/
def execTermExpired (owner : Nat) (s : State) : Host.Outcome State Fault Refusal :=
  if endReady s owner && !(endTime s owner).2 then .next (ctxEnd s owner 1) else .next s

/-- TERM_KEYLEASE: the key-lease expiry (R312, R320). -/
def execTermKeylease (owner : Nat) (s : State) : Host.Outcome State Fault Refusal :=
  if endReady s owner && (endTime s owner).2 then .next (ctxEnd s owner 4) else .next s

end Sys2Proof.Machine
end

