-- ==== Sys2Proof/Machine/Swap.lean ====
section
/-! DEFINITION. Pre-emption: slices, the stop and the swap of a context, berths and their scrub, and the restore (R316, R359 to R368). -/

namespace Sys2Proof.Machine

/-! ### Message areas (R148, R366) -/

/-- Deliver what a core's message area holds, in arrival order, as far as the inboxes have room. -/
def fillCore (s : State) (o core : Nat) : State :=
  let c := s.ctx o
  let entries := (c.messageTo.get [] core).zip (c.messages.get [] core)
  let (t, left) := entries.foldl (fun (acc : State × List (Nat × Option Word)) e =>
    let (t, left) := acc
    if (left.any fun x => x.1 == e.1) || (t.slot e.1).inbox.length ≥ 4 && e.2.isSome then (t, left ++ [e])
    else match e.2 with
      | some v => (t.modSlot e.1 fun x => { x with inbox := x.inbox ++ [v] }, left)
      | none => (t.modSlot e.1 fun x => { x with wake := true }, left)) (s, [])
  t.modCtx o fun c =>
    { c with messages := c.messages.put core (left.map (·.2)), messageTo := c.messageTo.put core (left.map (·.1)) }

/-- The same for every core of a context that holds entries. -/
def fillInboxes (s : State) (o : Nat) : State :=
  ((s.ctx o).messageTo.filter fun e => !e.2.isEmpty).foldl (fun s e => fillCore s o e.1) s

/-! ### Swap out (R359 to R364) -/

/-- Whether every core of a context is drained: no slab instruction, no bank switch and no containment is left (R359, R391). -/
def drained (s : State) (o : Nat) : Bool :=
  (s.ctx o).closed.isEmpty && (s.coresOf o).all (fun c => (s.core c).slabQ.isEmpty) && (s.quadsOf o).all fun q => (s.quad q).switches.isEmpty

/-- Rows of a quad image and of one berth's images of a stack, 64 KiB each (R362). -/
def quadRows : Nat := 84
def berthRows : Nat := 64 * quadRows

/-- The berth of a stack's harbour row; none in the message areas and the spare rows. -/
def rowBerth (stack row : Nat) : Option Nat :=
  if row < 3 * berthRows then
    let q := row % berthRows / quadRows
    some (3 * quadNo (8 * (stack % 2) + q % 8, 8 * (stack / 2) + q / 8) + row / berthRows)
  else none

/-- The units of a quad image, each with its first and its next byte in KiB: 4 front ends, 4 logical slabs, 16 banks (R361) (DESIGN CHOICE log 45). -/
def imageUnits : List (Nat × Nat) :=
  (List.range 4).map (fun n => (48 * n, 48 * (n + 1))) ++ (List.range 4).map (fun n => (192 + 272 * n, 192 + 272 * (n + 1))) ++
    (List.range 16).map fun n => (1280 + 256 * n, 1280 + 256 * (n + 1))

/-- The units with bytes in a row of a quad image, 64 KiB each (R361, R362). -/
def rowUnits (row : Nat) : List Nat :=
  (imageUnits.zipIdx.filter fun e => e.1.1 < 64 * (row + 1) && 64 * row < e.1.2).map (·.2)

/-- The rows of a stack that were retired when it had no spare row left: the first 64 took those (R362, R364). -/
def rowsWithoutSpare (s : State) (stack : Nat) : List Nat :=
  let rows := s.pkg.rows.get [] stack
  rows.take (rows.length - 64)

/-- The units whose save into a berth needs a row for which no spare is left (R364). -/
def brokenUnits (s : State) (b : Nat) : List Nat :=
  ((List.range 4).flatMap fun stack =>
    ((rowsWithoutSpare s stack).filter fun row => rowBerth stack row == some b).flatMap fun row => rowUnits (row % berthRows % quadRows)).dedup

/-- A berth for the image of a quad: one of the context's, else a free one beneath the quad (R363). -/
def berthFor (s : State) (o : Nat) (p : Nat × Nat) : Option Nat :=
  let own := (s.ctx o).berthsOwn
  let free := (berthsOf p).filter fun b => !(own ++ berthsUsed s).contains b
  ((berthsOf p).filter own.contains ++ free).head?

/-- The units of a quad whose images find no room in the harbour: all without a berth, else those that need a row with no spare (R363, R364). -/
def spilling (s : State) (o : Nat) (p : Nat × Nat) : List Nat :=
  match berthFor s o p with
  | some b => brokenUnits s b
  | none => List.range 24

/-- The image of a quad goes to its berth; what finds no room there is sealed into the seal space of an opportunistic context, or spills
(R316, R363, R364) (DESIGN CHOICE log 45). -/
def takeBerth (s : State) (o : Nat) (p : Nat × Nat) : State :=
  let units := spilling s o p
  s.modCtx o fun c =>
    let berth := berthFor s o p
    let held := berth.toList.filter fun b => !c.berthsOwn.contains b
    let c1 := { c with berthsHeld := c.berthsHeld ++ held
                       imageAt := match berth with | some b => c.imageAt.put (quadNo p) b | none => c.imageAt }
    if units.isEmpty then c1
    else if c.cls = 2 then { c1 with sealed := true }
    else { c1 with spilled := c1.spilled ++ units.map (24 * quadNo p + ·) }

/-- Whether an image of a context needs the spill area. -/
def mustSpill (s : State) (o : Nat) : Bool := (s.ctx o).cls != 2 && (quadsHeld s o).any fun p => !(spilling s o p).isEmpty

/-- The images of a drained context move to their berths (R361, R363). -/
def sealOut (s : State) (o : Nat) : State :=
  let s1 := (quadsHeld s o).foldl (fun s p => takeBerth s o p) s
  let s2 := (s1.coresOf o).foldl (fun s k => s.modCore k fun c => { c with plb := [] }) s1
  s2.modCtx o fun c => { c with phase := .swapped, cause := if c.cause = 0 then 1 else c.cause, spillWait := false }

/-- The swap-out of a drained context: where an image must spill and the spill area has no room, as a free value says, it waits, stopped and
drained (R363) (DESIGN CHOICE log 45). -/
def swapOut (s : State) (o : Nat) : State :=
  if mustSpill s o then
    let (f, s1) := s.tick
    if Config.freeKeep f then sealOut s1 o else s1.modCtx o fun c => { c with spillWait := true }
  else sealOut s o

/-- The stop: no slot issues from here on (R359). -/
def stopCtx (s : State) (o : Nat) (cause : BitVec 8) : State :=
  s.modCtx o fun c => { c with phase := .stopping, cause, outAt := s.cycle }

/-- HARBOUR_SWAP: a running context stops; once it is drained its images leave (R359, R361). -/
def execHarbourSwap (owner : Nat) (s : State) : Host.Outcome State Fault Refusal :=
  let s1 := if (s.ctx owner).phase = .running then stopCtx s owner 1 else s
  .next (if (s1.ctx owner).phase = .stopping && drained s1 owner then swapOut s1 owner else s1)

/-- SLICE_END: the slice of a shared context ends; it is swapped out where another waits for its quads (R316). -/
def execSliceEnd (owner : Nat) (s : State) : Host.Outcome State Fault Refusal :=
  let c := s.ctx owner
  if c.phase = .running && c.cls = 1 && c.sliceEnd ≤ s.pkg.clock then
    let waits := (rivals s owner).any fun e => e.2.cls = 1 && e.2.waits && (quadsHeld s e.1).all (quadAlive s)
    let s1 := s.modCtx owner fun c => { c with sliceEnd := s.pkg.clock + 10000 }
    .next (if waits then { s1 with agenda := s1.agenda ++ [.harbourSwap owner] } else s1)
  else .next s

/-! ### Restore (R365 to R368) -/

/-- Whether the quads of a context can take it back: they run, their stacks are not held idle, and nothing stands before it. -/
def restorable (s : State) (o : Nat) : Bool :=
  let c := s.ctx o
  c.waits && mayRunNow s o

/-- Whether the evictions that a restore needs are still to come (R316). -/
def evictFirst (s : State) (o : Nat) : List Nat := (evicted s o).filter fun x => (s.ctx x).phase == .running

/-- Cycles of the absence count toward no limit (R144, R275). -/
def Slot.after (x : Slot) (away now : Nat) : Slot :=
  { x with blk := x.blk.map fun b => { b with since := b.since + away }, ready := Nat.max x.ready (now + 1) }

/-- The restore of a context: its images return, further berths are free again, messages arrive; an image with an error that cannot be
corrected ends the context (R363 to R367). -/
def restore (s : State) (o : Nat) : State :=
  if (s.ctx o).badImage then ctxEnd s o 3
  else
    let away := s.cycle - (s.ctx o).outAt
    let s1 := { s with slots := s.slots.map fun (e : Nat × Slot) => if ownerOf e.1 = o then (e.1, e.2.after away s.cycle) else e }
    let s2 := s1.modCtx o fun c =>
      { c with phase := .running, cause := 0, berthsHeld := [], imageAt := [], spilled := [], sealed := false, sliceEnd := s.pkg.clock + 10000,
               ranAt := s.cycle + 1 }
    fillInboxes s2 o

/-- CONTEXT_RESTORE: a context that waits in its berths returns to its quads (R316, R365). -/
def execContextRestore (owner : Nat) (s : State) : Host.Outcome State Fault Refusal :=
  .next (if restorable s owner then restore s owner else s)

/-- A rectangle at another place, its rows kept. -/
def Rect.moved (r : Rect) (from_ : Rect) (col row : Nat) : Rect :=
  { r with col := col + (r.col - from_.col), row := row + r.ly }

/-- The stack units of the places of a context, quay cores included. -/
def unitsNow (s : State) (o : Nat) : Tab Nat := (s.quadsOf o ++ s.quaysOf o).foldl (fun t q => t.put (tidOf q) (stackOf s q)) []

/-- The place table of a context rewritten for another place: its rectangles and its straits (R15, R368). -/
def placed (s : State) (o col row : Nat) : State :=
  let moveH (c : Ctx) (h : Handle) : Handle :=
    { h with rect := h.rect.map fun r => r.moved r col row, taken := h.taken.map fun r => r.moved (h.rect.getD c.rect) col row }
  bindIsland (s.modCtx o fun c =>
    { c with rect := { c.rect with col, row }, handles := c.handles.map fun e => (e.1, moveH c e.2), berthsOwn := [],
             berthsHeld := [], imageAt := [], spilled := [], straits := [] }) o

/-- A context at another place: its berths follow it, its stack units stay (R19, R368) (DEDUCED log 91). -/
def replace (s : State) (o col row : Nat) : State :=
  let s1 := placed s o col row
  let n := (s.ctx o).berthsOwn.length
  let s2 := s1.modCtx o fun c => { c with units := unitsNow s o, berthsOwn := chooseBerths s1 (quadsHeld s1 o) n }
  (quadsHeld s2 o).foldl (fun s p => takeBerth s o p) s2

/-- Whether every quad of a context has straits enough for the GANGW of each of its cores (R17, R368). -/
def straitsFit (s : State) (o : Nat) : Bool :=
  (s.quadsOf o).all fun q => !s.hasQuad o (lxOf q) (lyOf q) ||
    ((List.range 4).map fun c => (s.core (q + 16 * c)).gangw).sum ≤ ((s.ctx o).straits.get [] (quadNo (s.physQuad q))).length

/-- Whether another place can take a context: free working quads in one rectangle of its shape with straits for its widths, and berths
for the images; its quay slots it keeps (R368).  Quads of a context that ended abruptly are not free: it stays built (R338). -/
def placeFits (s : State) (o col row : Nat) : Bool :=
  let c := s.ctx o
  let r : Rect := { col, row, w := c.wq, h := c.hq, ly := 0 }
  let used := s.ctxs.flatMap (fun e => if e.1 != o then quadsHeld s e.1 else []) ++ s.pkg.claims.flatMap fun e => e.hold.rect.quads
  let bare := s.modCtx o fun c => { c with berthsOwn := [] }
  col + c.wq ≤ 16 && row + c.hq ≤ 16 && (r.quads.all fun p => quadAlive s p && !used.contains p && (berthFor bare o p).isSome) &&
    straitsFit (placed s o col row) o

/-- RESTORE_ELSEWHERE: the images are copied to other parts, and the context is restored there (R368). -/
def execRestoreElsewhere (owner : Nat) (col row : Nat) (s : State) : Host.Outcome State Fault Refusal :=
  let c := s.ctx owner
  if c.waits && placeFits s owner col row then
    .next (restore (replace s owner col row) owner)
  else .next s

/-! ### The scrub of the harbour (R364) -/

/-- The context an image of which lies in a berth now. -/
def berthOwner (s : State) (b : Nat) : Option Nat :=
  (s.ctxs.filter fun e => e.2.phase == .swapped && e.2.imageAt.any fun x => x.2 == b).head?.map (·.1)

/-- What a failing row does to the image in it: a count, and with no spare row left its units spill (R364, R396). -/
def rowFails (s : State) (o stack row b : Nat) (uncorrectable : Bool) : State :=
  s.modCtx o fun c =>
    { c with
      badImage := c.badImage || uncorrectable
      spilled := if (rowsWithoutSpare s stack).contains row then
          c.spilled ++ (rowUnits (row % berthRows % quadRows)).map (24 * (b / 3) + ·)
        else c.spilled
      counts := if uncorrectable then { c.counts with sunc := c.counts.sunc + 1 } else { c.counts with scor := c.counts.scor + 1 } }

/-- HARBOUR_SCRUB: a row found failing is retired and its contents move to a spare row (R364). -/
def execHarbourScrub (stack row : Nat) (uncorrectable : Bool) (s : State) : Host.Outcome State Fault Refusal :=
  if stack < 4 && row < 16384 && !(s.pkg.rows.get [] stack).contains row then
    let s1 := s.modPkg fun p => { p with rows := p.rows.put stack (row :: p.rows.get [] stack) }
    let s2 := match (rowBerth stack row).bind fun b => (berthOwner s b).map fun o => (b, o) with
      | some (b, o) => rowFails s1 o stack row b uncorrectable
      | none => s1
    .next (if uncorrectable then boxAdd s2 0x11 (((rowBerth stack row).bind (berthOwner s)).getD 0) stack (le 4 row) else s2)
  else .next s

end Sys2Proof.Machine
end

