-- ==== Sys2Proof/Machine/Pages.lean ====
section
/-! DEFINITION. The events of pages and of the host: migration, bias, host accesses, the patrol scrub, the host link and the TDISP
interfaces (R270, R340 to R342, R347 to R349, R388, R400 to R403). -/

namespace Sys2Proof.Machine

def pageLo (n : Nat) : Nat := n * 2 ^ 15
def pageHi (n : Nat) : Nat := (n + 1) * 2 ^ 15

/-! ### Ports (R400, R407, R409) -/

/-- The host-facing port (R400). -/
def hostPort (s : State) : Nat := hostPortOf s.pkg.cxlPort

def portOf (s : State) (n : Nat) : Port := s.pkg.ports.get {} n
def modPort (s : State) (n : Nat) (f : Port → Port) : State :=
  s.modPkg fun p => { p with ports := p.ports.put n (f (p.ports.get {} n)) }

/-- A number for a port state in an event record: the order of R409's table (DESIGN CHOICE log 30). -/
def PortState.code : PortState → Nat
  | .up => 0 | .degraded => 1 | .degraded4 => 2 | .down => 3

/-- A port takes a new state, with its event record (R407, R409). -/
def portTo (s : State) (n : Nat) (st : PortState) : State :=
  eventAdd (modPort s n fun p => { p with state := st, good := 0 }) 3 0 (le 1 n ++ le 1 st.code)

/-! ### Host accesses (R270, R347, R402) -/

/-- Whether a host access to bytes of a page is performed: through the interface of the holder's context in RUN, with the right on the
page, and never a write to `.text` or `.rodata` (R402); a context that a move has taken to another chip has no interface here (R411). -/
def hostMay (s : State) (requester key : Nat) (write : Bool) : Bool :=
  let p := s.page (key / 2 ^ 15)
  let need := if write then rW else rR
  s.pkg.linkUp && key < 2 ^ 55 && requester != 0 && p.holder == requester && (s.ctx requester).tdisp == .run &&
    !(s.ctx requester).gone &&
    (p.rights &&& need == need) && !(write && (p.seg == 1 || p.seg == 2))

/-- The time of a host requester: the ticks of all of them and what its accesses have gained (R270). -/
def hostTime (s : State) (requester : Nat) : Time := s.pkg.hostTime + s.pkg.hostAhead.get 0 requester

def setHostTime (s : State) (requester : Nat) (t : Time) : State :=
  s.modPkg fun p => { p with hostAhead := p.hostAhead.put requester (t - p.hostTime) }

/-- One line of a host access, with its place in the order under the time of the host requester (R261, R270). -/
def hostLine (requester : Nat) (write : Bool) (data : List Byte) (base : Nat) (s : State) (part : Nat × Nat) : State :=
  let ln := lineOf part.1
  let l := s.line ln
  let tt := hostTime s requester
  if write then
    let ts := Time.later tt l.rts
    let s1 := writeBytes (beforeWrite s none part.1 part.2) part.1 ((data.drop (part.1 - base)).take part.2)
    setHostTime (setLine s1 ln { wts := ts, rts := ts + 1 }) requester ts
  else
    let ts := Time.later tt (l.wts + 1)
    setHostTime (setLine (homeFetch s part.1) ln { l with rts := Time.later l.rts (ts + 16) }) requester ts

/-- A host access to a device-bias page counts; at the threshold it asks for host bias (R347). -/
def hostCounted (s : State) (n : Nat) : State :=
  let p := s.page n
  if p.bias != .dev then s
  else
    let c := p.hostCount + 1
    let asks := reached s p hostCounter c
    let s1 := s.modPage n fun p => ({ p with hostCount := c } : Page).ask asks hostCounter
    if asks then { s1 with agenda := s1.agenda ++ [.biasRequest n true] } else s1

/-- The response to a read of a host requester (R402). -/
def hostAnswer (s : State) (requester : Nat) (r : HostRead) : State := s.modPkg fun p => { p with hostReads := p.hostReads.put requester r }

/-- The response to a read that is not performed: all ones, with poison (R402). -/
def allOnes (addr : Word) (n : Nat) : HostRead := { addr, bytes := List.replicate n 0xFF, poison := List.replicate n true }

/-- A host access is performed, waits for its page, or is not performed: then a read returns all ones with poison, and a write is dropped (R402).
The data of a read only gives its length. -/
def hostAccess (s : State) (requester : Nat) (addr : Word) (write : Bool) (data : List Byte) : State :=
  let key := addr.toNat
  let n := data.length
  let pages := ((lineParts key n).map fun p => p.1 / 2 ^ 15).dedup
  if data.isEmpty then s
  else if !(lineParts key n).all fun p => hostMay s requester p.1 write then
    if write then s else hostAnswer s requester (allOnes addr n)
  else if pages.any fun n => pageBusy s (pageLo n) then
    { s with held := s.held ++ [(requester, addr, write, data)] }
  else
    let t := pages.foldl hostCounted ((lineParts key n).foldl (hostLine requester write data key) s)
    if write then t else hostAnswer t requester { addr, bytes := readBytes t key n, poison := poisoned t key n }

/-- HOST_ACCESS (R402). -/
def execHostAccess (requester : Nat) (addr : Word) (write : Bool) (data : List Byte) (s : State) : Host.Outcome State Fault Refusal :=
  .next (hostAccess s requester addr write data)

/-- Host accesses that waited for a page arrive anew. -/
def releaseHost (s : State) : State :=
  s.held.foldl (fun s e => hostAccess s e.1 e.2.1 e.2.2.1 e.2.2.2) { s with held := [] }

/-! ### Migration (R340 to R342) -/

/-- Whether a page may start to move to a package: it is held, resident and in device bias with no flip under way, it does not lie in
that package's bonded DRAM, and the grant has room for it; only the package at hand holds quads here (R340, R342) (DEDUCED log 52). -/
def mayMigrate (s : State) (n pkg : Nat) : Bool :=
  let p := s.page n
  p.holder != 0 && resident s n && p.bias == .dev && p.inFlight.isNone && s.pkg.threshold ≤ p.counters.get 0 pkg &&
    !(p.tier == .dram && p.pkg == pkg) && pkg == 0 && (roomPages (s.ctx p.holder)).1 != 0

/-- PAGE_MIGRATION: the page is in flight, and a frame is taken for it (R340, R341). -/
def execPageMigration (page pkg : Nat) (s : State) : Host.Outcome State Fault Refusal :=
  if mayMigrate s page pkg then
    .next ((s.modPage page fun p => { p with inFlight := some pkg }).modCtx (s.page page).holder fun c =>
      { c with used := (c.used.1 + 2 ^ 15, c.used.2) })
  else .next s

/-- MIGRATION_COMPLETE: the new mapping holds, the old frame is free and the accesses go on; lines keep their WTS and RTS (R341). -/
def execMigrationComplete (page : Nat) (s : State) : Host.Outcome State Fault Refusal :=
  let p := s.page page
  match p.inFlight with
  | none => .next s
  | some pkg =>
    let s1 := s.modPage page fun p => { p with inFlight := none, tier := .dram, pkg }
    .next (releaseHost (s1.modCtx p.holder fun c =>
      { c with used := if p.tier == .cxl then (c.used.1, c.used.2 - 2 ^ 15) else (c.used.1 - 2 ^ 15, c.used.2) }))

/-- COUNTER_CLEAR: every access counter is cleared (R340, R347). -/
def execCounterClear (s : State) : Host.Outcome State Fault Refusal :=
  .next { s with pages := s.pages.map fun e => (e.1, { e.2 with counters := [], hostCount := 0, devCount := 0, asked := [] }) }

/-! ### Bias (R347 to R349) -/

/-- The requests behind those at the head that ask for the bias the page holds (R348). -/
def dropSatisfied (bias : Bias) (rs : List Bool) : List Bool :=
  match bias with
  | .dev => rs.dropWhile (· == false)
  | .host => rs.dropWhile (· == true)
  | _ => rs

/-- Whether the request at the head must wait for the switch of a move: a host request with no device request behind it (R411). -/
def flipWaits (s : State) (n : Nat) : Bool :=
  let p := s.page n
  (s.ctx p.holder).moving && p.requests.head? == some true && !p.requests.contains false

/-- Whether the request at the head of a page's FIFO may start its flip: HOLDEND has passed, and the page is not in flight (R348); behind the switch
of a move the target serves it (R411). -/
def flipReady (s : State) (n : Nat) : Bool :=
  let p := s.page n
  p.holder != 0 && resident s n && p.inFlight.isNone && p.holdEnd ≤ s.pkg.clock && !flipWaits s n &&
    !(s.ctx p.holder).gone &&
    ((p.bias == .dev && p.requests.head? == some true) || (p.bias == .host && p.requests.head? == some false))

/-- Serve the head of a page's FIFO: satisfied requests go, and a flip that may start starts (R348). -/
def serveBias (s : State) (n : Nat) : State :=
  let s1 := s.modPage n fun p => { p with requests := dropSatisfied p.bias p.requests }
  if flipReady s1 n then { s1 with agenda := s1.agenda ++ [.biasFlipStart n] } else s1

/-- A request for a bias joins the FIFO of a held page (R347, R348). -/
def requestBias (s : State) (n : Nat) (host : Bool) : State :=
  if (s.page n).holder = 0 then s
  else serveBias (s.modPage n fun p => { p with requests := p.requests ++ [host] }) n

/-- BIAS_REQUEST (R347, R348). -/
def execBiasRequest (page : Nat) (host : Bool) (s : State) : Host.Outcome State Fault Refusal := .next (requestBias s page host)

/-- BIAS_FLIP_START: the request at the head leaves the FIFO, and the flip begins (R348). -/
def execBiasFlipStart (page : Nat) (s : State) : Host.Outcome State Fault Refusal :=
  .next (if flipReady s page then
      s.modPage page fun p => { p with bias := if p.bias == .dev then .toHost else .toDev, requests := p.requests.tail }
    else s)

/-- A write that the host's side brings home, with its place in the order (R270). -/
def homeWrite (s : State) (key : Nat) (bs : List Byte) : State := deviceWrite s key bs

/-- The page takes its new bias; HOLDEND lies 20 µs ahead, and the next request is served (R348). -/
def flipDone (s : State) (n : Nat) (bias : Bias) : State :=
  releaseHost (serveBias (s.modPage n fun p => { p with bias, holdEnd := s.pkg.clock + 20 }) n)

/-- The lines of a page leave the LLC: what was written there is stored (R349). -/
def evictPage (s : State) (n : Nat) : State :=
  (s.llc.filter fun e => pageLo n ≤ e.1 * 128 && e.1 * 128 < pageHi n).foldl (fun s e => evictLine s e.1) s

/-- A flip to host bias completes: every device copy of the page is dropped, and its LLC lines are written back (R348, R349). -/
def hostBiasReached (s : State) (n : Nat) : State := flipDone (dropCopies (evictPage s n) (pageLo n) (pageHi n)) n .host

/-- BIAS_FLIP_COMPLETE: every device copy of the page is dropped, or the host's modified data is written back (R348, R349).  Bytes
outside the page are no part of the answer. -/
def execBiasFlipComplete (page : Nat) (back : List (Nat × Byte)) (s : State) : Host.Outcome State Fault Refusal :=
  match (s.page page).bias with
  | .toHost => .next (hostBiasReached s page)
  | .toDev =>
    let mine := back.filter fun e => e.1 / 2 ^ 15 == page
    .next (flipDone (mine.foldl (fun s e => homeWrite s e.1 [e.2]) s) page .dev)
  | _ => .next s

/-! ### The host link (R349, R403) -/

/-- Whether a page is in host bias, or flips back from it. -/
def Page.hostSide (p : Page) : Bool := p.bias == .host || p.bias == .toDev

/-- Write a line as poisoned (R349, R381). -/
def poisonLine (s : State) (line : Nat) : State :=
  setPoison (deviceWrite s (line * 128) (readBytes s (line * 128) 128)) (line * 128) (List.replicate 128 true)

/-- Whether a request of the mailbox: those go with the link (R403). -/
def Queued.ofHost : Queued → Bool
  | .pres p => p.from_.isNone
  | .order o => match o with
    | .time .. | .floor .. | .launch .. | .move .. | .test .. => true
    | .keys .. | .domains .. | .podn .. | .cxlPort .. | .threshold .. | .fluxCap .. | .portLimits .. | .gate .. => false

/-- Mailbox requests without an answer are discarded and recorded; a claim among them stands on the list of open claims (R307, R309, R403). -/
def dropRequests (s : State) : State :=
  let kinds := (s.pkg.claims.filter fun c => c.p.from_.isNone).map (fun _ => 1) ++
    (s.pkg.waiting.filter Queued.ofHost).map Queued.kind
  (recordDropped s kinds).modPkg fun p =>
    { p with
      request := false
      waiting := p.waiting.filter fun x => !x.ofHost
      claims := p.claims.filter fun c => c.p.from_.isSome
      openClaims := p.openClaims ++ (p.claims.filter fun c => c.p.from_.isNone).map fun (c : OpenClaim) => (c.w.serial, c.w.domain) }

/-- The host-facing link goes down: its port is DOWN, host-bias pages return to device bias, lines that the host may hold modified are poisoned,
TDISP interfaces enter ERROR, and the mailbox closes (R403, R409) (DEDUCED log 53). -/
def hostDown (s : State) (dirty : List Nat) : State :=
  let back := (s.pages.filter fun e => e.2.holder != 0 && e.2.hostSide).map (·.1)
  let lines := dirty.filter fun l => back.contains (l * 128 / 2 ^ 15)
  let s1 := lines.foldl poisonLine s
  let s2 := back.foldl (fun s n => serveBias (s.modPage n fun p => { p with bias := .dev, holdEnd := s.pkg.clock + 20 }) n) s1
  let s3 := { s2 with ctxs := s2.ctxs.map fun (e : Nat × Ctx) => (e.1, { e.2 with tdisp := .error }) }
  let s4 := (dropRequests s3).modPkg fun p => { p with linkUp := false }
  let s5 : State := { s4 with held := [] }
  if (portOf s (hostPort s)).state == .down then s5 else portTo s5 (hostPort s) .down

/-- HOST_LINK_DOWN (R403): `dirty` names the lines that the host may hold in modified state. -/
def execHostLinkDown (dirty : List Nat) (s : State) : Host.Outcome State Fault Refusal :=
  .next (if s.pkg.linkUp then hostDown s dirty else s)

/-- BACK_INVALIDATION_TIMEOUT: a host that has not answered for 10 ms loses its link, and the flip completes (R349). -/
def execBackInvalidationTimeout (page : Nat) (dirty : List Nat) (s : State) : Host.Outcome State Fault Refusal :=
  .next (if (s.page page).bias == .toDev then hostDown s dirty else s)

/-! ### The patrol scrub (R388) -/

/-- The scrub of a sector, if a domain holds it at rest, and of the two table rows that serve its place, whatever they hold: each codeword in
which symbols are corrected is written back; poison stays (R344, R386, R388). -/
def scrubSector (s : State) (n : Nat) : State :=
  let o := holderOf s (n * 32)
  let mend (t : Tab Nat) (r : Nat) : Tab Nat := if t.get 0 r ≤ 2 then t.erase r else t
  let stored := o != 0 && !onlyLlc s (n / 4)
  let read := [s.mapDamage.get 0 (n / 112), s.overDamage.get 0 (n / 7)] ++ if stored then [s.damage.get 0 n] else []
  let mended := (read.filter fun d => 0 < d && d ≤ 2).length
  let s1 := if o = 0 then s else s.modCtx o fun c => { c with counts := { c.counts with dcor := c.counts.dcor + mended } }
  { s1 with mapDamage := mend s1.mapDamage (n / 112), overDamage := mend s1.overDamage (n / 7),
            damage := if stored then mend s1.damage n else s1.damage }

/-- PATROL_SCRUB (R388). -/
def execPatrolScrub (addr : Nat) (s : State) : Host.Outcome State Fault Refusal :=
  .next ((scrubSector s (addr / 32)).modPkg fun p => { p with scrubbed := p.scrubbed + 1 })

/-! ### TDISP (R401, R423) -/

/-- The state an interface takes at a request of the host; out of ERROR only CONFIG_UNLOCKED leads (R401, R403; the order of the
other states is TDISP's own, PRESUMED log 31). -/
def tdispNext (now : Tdisp) (ask : BitVec 2) : Tdisp :=
  match now, ask.toNat with
  | _, 0 => .unlocked
  | .unlocked, 1 => .locked
  | .locked, 2 => .run
  | t, _ => t

/-- TDISP_REQUEST: the host takes the interface of a context to a state; CONFIG_LOCKED and RUN close the debug gate (R401, R423). -/
def execTdispRequest (owner : Nat) (state : BitVec 2) (s : State) : Host.Outcome State Fault Refusal :=
  if (s.ctxs.find? owner).isSome && s.pkg.linkUp then
    let t := tdispNext (s.ctx owner).tdisp state
    .next ((s.modCtx owner fun c => { c with tdisp := t }).modPkg fun p =>
      { p with debugOpen := p.debugOpen && !(t == .locked || t == .run) })
  else .next s

end Sys2Proof.Machine
end

