-- ==== Sys2Proof/Machine/Mailbox.lean ====
section
/-! DEFINITION. The host mailbox, the messages between a presenting chip and a home chip, and live migration (R304 to R312, R338, R397,
R404 to R407, R410 to R412). -/

namespace Sys2Proof.Machine

/-! ### The mailbox (R404 to R406) -/

/-- Whether a write to the doorbell starts a request: the package is booted, the host link is up and no request is pending. -/
def mailboxOpen (s : State) : Bool := s.pkg.boot == .on && s.pkg.linkUp && !s.pkg.request

/-- The 32-byte header of a request (R405). -/
def requestHeader (kind : Nat) (tag : Word) (payload : List Byte) : List Byte :=
  le 1 kind ++ zeros 3 ++ le 4 (32 + payload.length) ++ le 8 tag.toNat ++ zeros 16

/-- The host writes a request over the request buffer of 32,768 bytes (R404, R405). -/
def written (s : State) (kind : Nat) (tag : Word) (payload : List Byte) : State :=
  let r := requestHeader kind tag payload ++ payload
  s.modPkg fun p => { p with req := (r ++ p.req.drop r.length).take 32768 }

/-- The host writes a request and its length to the doorbell: it is pending (R404, R405). -/
def requested (s : State) (kind : Nat) (tag : Word) (payload : List Byte) : State :=
  (written s.tick.2 kind tag payload).modPkg fun p => { p with request := true, doorbell := 32 + payload.length }

/-- Where in the host's memory some bytes stand, and how many they are (R405). -/
def hostWhere (f : Nat) (bytes : List Byte) : List Byte := le 8 (Config.hostAddress f).toNat ++ le 8 bytes.length

/-- The host submits a request: while one is pending its write to the buffer is dropped and the doorbell ignores it; a length out of range is
ignored, and the buffer is written (R404) (DESIGN CHOICE log 13). -/
def submit (s : State) (kind : Nat) (tag : Word) (payload : List Byte) (act : State → State) : State :=
  if !mailboxOpen s then s
  else if 32 + payload.length ≤ 32768 then act (requested s kind tag payload)
  else written s kind tag payload

/-- An order or a setting takes its place in the order of R309: it acts at once where nothing stands before it. -/
def inOrder (s : State) (o : Order) (act : State → State) : State :=
  if s.pkg.waiting.isEmpty then act s else s.modPkg fun q => { q with waiting := q.waiting ++ [.order o] }

/-- An order is recorded and answered (R309, R406). -/
def orderDone (s : State) (tag : Word) (code : BitVec 8) (owner : Nat) : State :=
  respond (boxAdd s 4 owner 0 [code]) tag code owner

/-- PRESENT: a presentation from the host (R304, R405). -/
def execPresent (tag : Word) (warrant image holderKey proof : List Byte) (s : State) : Host.Outcome State Fault Refusal :=
  .next (submit s 1 tag (warrant ++ hostWhere s.fresh image ++ holderKey ++ proof)
    (arrivePresentation · { tag, warrant, image, holderKey, proof }))

/-! ### Time (R310 to R312) -/

/-- The code of a time token (R303, R311, R406). -/
def tokenCode (s : State) (r : List Byte) : BitVec 8 :=
  if !orderOk r 3 56 then 1
  else if !signedBy r (operatorKey s (signerOf r)) then 2
  else if (s.pkg.domains.find? (fieldWord r 64).toNat).isSome && fieldWord r 72 == s.pkg.chip && bytesAt r 88 32 == s.pkg.challenge then 0
  else 5

/-- Contexts whose notice a step of the clock has passed: it falls due at the new value, at once; one that was due before the step keeps its
own time (R312). -/
def stepNotices (s : State) (before : Nat) : State :=
  (s.ctxs.filter fun e => e.2.notice.isNone && !e.2.gone && (endTime s e.1).1 ≤ s.pkg.clock + 1000).foldl (fun s e =>
    noticeDue s e.1 (if (endTime s e.1).1 ≤ before + 1000 then (endTime s e.1).1 - 1000 else s.pkg.clock)) s

/-- A step of the clock; it passes multiples of 1,000 µs, at which counters are cleared (R311, R340). -/
def stepClock (s : State) (t : Nat) : State :=
  let s1 := stepNotices (s.modPkg fun p => { p with clock := t, slew := none }) s.pkg.clock
  if s.pkg.clock / 1000 = t / 1000 then s1 else { s1 with agenda := s1.agenda ++ [.counterClear] }

/-- What a valid token does to the clock (R311). -/
def setTime (s : State) (t : Nat) : State :=
  let now := s.pkg.clock
  if !s.pkg.anchored then
    if now ≤ t then s.modPkg fun p => { p with clock := t, anchored := true } else s
  else if t ≤ now then s
  else if now + 10000000 < t then stepClock s t
  else s.modPkg fun p => { p with slew := some (t - now) }

/-- A time token acts (R311). -/
def actTime (s : State) (tag : Word) (r : List Byte) : State :=
  let code := tokenCode s r
  orderDone (if code = 0 then setTime (drawChallenge s) (field r 80 8) else s) tag code 0

/-- TIME: a time token from the host (R311, R405). -/
def execTime (tag : Word) (token : List Byte) (s : State) : Host.Outcome State Fault Refusal :=
  .next (submit s 2 tag token (inOrder · (.time tag token) (actTime · tag token)))

/-- SLEW_END: the clock has gained its target and runs at its rate again (R311). -/
def execSlewEnd (s : State) : Host.Outcome State Fault Refusal :=
  .next (if s.pkg.slew = some 0 then s.modPkg fun p => { p with slew := none } else s)

/-- CLOCK_SAVE: the anchored clock is written to non-volatile memory (R310). -/
def execClockSave (s : State) : Host.Outcome State Fault Refusal :=
  .next (if s.pkg.anchored then s.modPkg fun p => { p with saved := p.clock } else s)

/-! ### The floor (R308) -/

/-- The code of a floor order (R303, R308, R406). -/
def floorCode (s : State) (r : List Byte) : BitVec 8 :=
  if !(orderOk r 5 24 && zeroBytes r 76 4) then 1
  else if !signedBy r (operatorKey s (signerOf r)) then 2
  else match s.pkg.domains.find? (fieldWord r 64).toNat with
    | none => 5
    | some d => if d.seq < field r 80 8 && d.floor ≤ field r 72 4 then 0 else 5

/-- Raise the floor of a domain: entries whose ROOT lies below it are discarded (R306, R308). -/
def raiseFloor (s : State) (domain floor seq : Nat) : State :=
  s.modPkg fun p =>
    { p with
      domains := p.domains.put domain { (p.domains.get { members := [] } domain) with floor, seq }
      spent := p.spent.filter fun e => e.1 / 2 ^ 64 != domain || floor ≤ e.1 % 2 ^ 64 / 2 ^ 32 }

/-- A floor order acts (R308). -/
def actFloor (s : State) (tag : Word) (r : List Byte) : State :=
  let code := floorCode s r
  orderDone (if code = 0 then raiseFloor s (field r 64 8) (field r 72 4) (field r 80 8) else s) tag code 0

/-- FLOOR (R308, R405). -/
def execFloor (tag : Word) (order : List Byte) (s : State) : Host.Outcome State Fault Refusal :=
  .next (submit s 3 tag order (inOrder · (.floor tag order) (actFloor · tag order)))

/-! ### Launch (R338, R405, R406) -/

/-- The context of a handle-0 serial that a condition selects. -/
def ctxOfSerial (s : State) (serial : Word) (sel : Ctx → Bool) : Option Nat :=
  (s.ctxs.filter fun e => sel e.2 && serialOf s e.1 == serial).head?.map (·.1)

/-- Whether a launch brings the holder's proof that its context asks for. -/
def launchProof (s : State) (o : Nat) (holderKey proof : List Byte) : Bool :=
  let h := ((s.ctx o).handles.get { w := {} } 0)
  h.w.holder.all (· == 0) ||
    (keyHash holderKey == h.w.holder && Config.falconVerify holderKey (shake256 h.self 64 ++ s.pkg.challenge) proof)

/-- Cells under containment are reset and opened now, as steps 3 to 5 of R391 have it. -/
def openCells (s : State) (o : Nat) : State := (s.ctx o).closed.foldl (fun s x => openCell s o x) s

/-- The build values and root leases again, behind a containment under way (R391), then the entry as at step 7 of R317, which waits for the pages of the root leases (R337, R338)
(DEDUCED log 46). -/
def relaunch (s : State) (o : Nat) : State :=
  let t := (resetIsland (openCells s o) o).modCtx o fun c => { c with phase := .building }
  if rootsResident t o then startContext t o else t

/-- A launch acts. -/
def actLaunch (s : State) (tag serial : Word) (holderKey proof : List Byte) : State :=
  let t := if proof.isEmpty then s else drawChallenge s
  match ctxOfSerial s serial fun c => c.phase == .abrupt && !c.gone with
  | none => orderDone t tag 3 0
  | some o => if launchProof s o holderKey proof then orderDone (relaunch t o) tag 0 o else orderDone t tag 2 0

/-- LAUNCH (R338, R405). -/
def execLaunch (tag : Word) (serial : Word) (holderKey proof : List Byte) (s : State) : Host.Outcome State Fault Refusal :=
  .next (submit s 4 tag (le 8 serial.toNat ++ holderKey ++ proof)
    (inOrder · (.launch tag serial holderKey proof) (actLaunch · tag serial holderKey proof)))

/-! ### Messages over the Ostik links (R408) -/

/-- The Ostik ports that carry traffic: trained, and so authenticated (R408, R409). -/
def liveOstik (s : State) : List Nat := ((List.range 16).map (4 + ·)).filter fun n => (portOf s n).state != .down

/-- What a message of some flits does that has come over an authenticated link; without one none comes.  The link that carries it rekeys every
2^32 flits (R408) (DESIGN CHOICE log 93). -/
def overLink (s : State) (n : Nat) (act : State → State) : State :=
  let live := liveOstik s
  if live.isEmpty then s
  else
    let (f, s1) := s.tick
    let port := live.getD (Config.freeChoice f % live.length) 0
    let flits := (portOf s1 port).flits + n
    act (modPort s1 port fun p => { p with flits := flits % 2 ^ 32, keys := p.keys + flits / 2 ^ 32 })

/-- Whether this chip is the home of a serial. -/
def homeHere (s : State) (domain serial : Word) : Bool := homeChip s domain serial == some s.pkg.chip

/-! ### Live migration (R410 to R412) -/

/-- The 32 KiB pages of a domain, in the global window and in its arenas. -/
def domainPages (s : State) (o : Nat) : List Nat :=
  (s.pages.filter fun e => e.2.holder == o).map (·.1) ++
    (s.arenas.filter fun e => e.2.holder == o).flatMap fun e => (List.range e.2.pages).map (arenaBase e.1 / 2 ^ 15 + ·)

/-- A move-progress record: the step and the pages left (R407). -/
def moveEvent (s : State) (o step left : Nat) : State := eventAdd s 4 o (le 1 step ++ le 4 left)

/-- A move begins: every page of the domain is write-protected by a shoot-down, and a page in host bias is asked back (R331, R347,
R411) (DESIGN CHOICE log 54). -/
def startMove (s : State) (o : Nat) (target : Word) (rounds : Nat) (tag : Word) : State :=
  let pages := domainPages s o
  let host := (s.pages.filter fun e => e.2.holder == o && (e.2.bias != .dev || !e.2.requests.isEmpty)).map (·.1)
  let s1 := shootDown s o 0 (2 ^ 56)
  let s2 := s1.modCtx o fun c => { c with move := some { target, rounds, tag, clean := pages } }
  moveEvent (host.foldl (fun s n => requestBias s n false) s2) o 1 pages.length

/-- The format of a move order (R299, R410). -/
def moveOk (r : List Byte) : Bool := orderOk r 6 17 && 1 ≤ field r 80 1 && field r 80 1 ≤ 16

/-- The flits of some pages, and of the images of a context (R362, R408) (DESIGN CHOICE log 93). -/
def copyFlits (pages : Nat) : Nat := 128 * pages
def imageFlits (s : State) (o : Nat) : Nat := 256 * quadRows * (quadsHeld s o).length

/-- A move order acts: `fits` is what the target answers over an authenticated link, if it does; the first round of copies follows (R408, R411): 0, EXCEEDS or another code for WINDOW (R406, R410).  The spec gives no code for a serial that names no
context: a free value (DESIGN CHOICE log 32). -/
def actMove (s : State) (tag : Word) (r : List Byte) (fits : Option (BitVec 8)) : State :=
  if !moveOk r then orderDone s tag 1 0
  else if !signedBy r (operatorKey s (signerOf r)) then orderDone s tag 2 0
  else match ctxOfSerial s (fieldWord r 64) fun c => c.phase != .building with
    | none =>
      let (f, s1) := s.tick
      orderDone s1 tag ((Config.freeWord f).setWidth 8) 0
    | some o =>
      if (s.ctx o).move.isSome then orderDone s tag 13 0
      else match fits.filter fun _ => !(liveOstik s).isEmpty with
        | none => orderDone s tag 9 0
        | some code =>
          if code = 0 then
            overLink s (1 + copyFlits (domainPages s o).length) fun s => orderDone (startMove s o (fieldWord r 72) (field r 80 1) tag) tag 0 0
          else overLink s 1 (orderDone · tag (if code = 6 then 6 else 10) 0)

/-- MOVE (R405, R410). -/
def execMove (tag : Word) (order : List Byte) (fits : Option (BitVec 8)) (s : State) : Host.Outcome State Fault Refusal :=
  .next (submit s 5 tag order (inOrder · (.move tag order fits) (actMove · tag order fits)))

/-- Whether every page of a domain is in device bias with no flip, request for it or migration under way (R411). -/
def pagesSettled (s : State) (o : Nat) : Bool :=
  (s.pages.filter fun e => e.2.holder == o).all fun e => e.2.bias == .dev && !e.2.requests.contains false && e.2.inFlight.isNone

/-- The rounds are over: the context is swapped out and stays out (R359, R411). -/
def stopMove (s : State) (o : Nat) : State :=
  let c := s.ctx o
  let s1 := s.modCtx o fun c => { c with move := c.move.map fun m => { m with stopped := true } }
  let s2 := if c.phase = .running then stopCtx s1 o 2 else s1
  let s3 := if c.phase = .running && drained s2 o then swapOut s2 o else s2
  moveEvent s3 o 2 ((c.move.map fun m => m.dirty.length).getD 0)

/-- MOVE_STOP: the last rounds have copied the dirty pages, and the images cross, over an authenticated link (R408, R411). -/
def execMoveStop (owner : Nat) (s : State) : Host.Outcome State Fault Refusal :=
  let c := s.ctx owner
  if c.moving && !(c.move.any fun m => m.stopped) && pagesSettled s owner then
    .next (overLink s (copyFlits ((c.move.map fun m => m.dirty.length).getD 0) + imageFlits s owner) (stopMove · owner))
  else .next s

/-- The home chip of a serial takes a move notice: LIVE(X) becomes LIVE(Y), in any other state it is refused (R410). -/
def homeMove (s : State) (domain serial source target : Word) : Bool × State :=
  let key := spentKey domain serial
  if s.pkg.spent.find? key = some (.live source) then (true, setSpent s key (.live target)) else (false, s)

/-- The move notice of a context: decided here where this chip is the home, else the home's answer is a free value (R410, DESIGN CHOICE log 1). -/
def sendMove (s : State) (o : Nat) (target : Word) : Bool × State :=
  let w := warrantOf s o
  if homeChip s w.domain w.serial = some s.pkg.chip then homeMove s w.domain w.serial s.pkg.chip target
  else
    let (f, s1) := s.tick
    (Config.freeKeep f, s1)

/-- A page in its place in an ascending list without repeats. -/
def insertPage (n : Nat) : List Nat → List Nat
  | [] => [n]
  | m :: l => if n < m then n :: m :: l else if n = m then m :: l else m :: insertPage n l

/-- Pages still to pull: those dirtied after the last round, a free part of those written since they were protected (R411, DESIGN CHOICE log 1). -/
def pullList (s : State) (m : MoveSt) : List Nat × State :=
  let (f, s1) := s.tick
  ((m.dirty.filter fun n => Config.freeKeep (Config.freeChoice (f + n))).foldr insertPage [], s1)

/-- A parent's handle of a child that has gone to another chip: it runs there (R373, R411) (DEDUCED log 33). -/
def Handle.moved (h : Handle) (o : Nat) (w : Warrant) (shape : Nat × Nat) (expiry : Nat) : Handle :=
  if h.child = some o then { h with w, shape, child := none, childState := 1, away := some expiry } else h

/-- The handle that a parent here has of a context that goes to another chip (R373, R411). -/
def childMoved (s : State) (o : Nat) : State :=
  let c := s.ctx o
  let keep (x : Ctx) : Ctx :=
    { x with handles := x.handles.map fun e => (e.1, e.2.moved o (warrantOf s o) (c.wq, c.hq) c.expiry) }
  { s with ctxs := s.ctxs.map fun e => (e.1, keep e.2) }

/-- After the last pull the source frees every resource; arena slots serve their lives on the target, and a parent here keeps the handle
(R411, DEDUCED log 33). -/
def freeSource (s : State) (o : Nat) : State :=
  let out (a : Arena) : Arena := if a.holder = o then { a with holder := 4096, last := 4096, pages := 0, time := none } else a
  let s1 := childMoved s o
  eraseOwner { s1 with arenas := s1.arenas.map fun e => (e.1, out e.2) } o

/-- The switch on the source (R410, R411): from here on a parent's handle is that of a child on another chip; a refused notice abandons the move
with CODE 3. -/
def switchSource (s : State) (o : Nat) (m : MoveSt) : State :=
  let (ok, s1) := sendMove s o m.target
  if ok then
    let (pulls, s2) := pullList s1 m
    let s3 := (childMoved s2 o).modCtx o fun c => { c with move := some { m with away := true, pulls } }
    let s4 := moveEvent s3 o 3 pulls.length
    if pulls.isEmpty then freeSource s4 o else s4
  else
    let pending := s1.pkg.request
    (respond (retireNodes (abandonMove s1 o) o) m.tag 3 0).modPkg fun p => { p with request := pending }

/-- The switch on the target: the context may return to its quads, and what waited for the switch is served: the notice, the death of arenas
and the flips that the host has asked for (R411). -/
def switchTarget (s : State) (o : Nat) (m : MoveSt) : State :=
  let s1 := s.modCtx o fun c => { c with move := if m.pulls.isEmpty then none else some { m with stopped := false, notice := false } }
  let s2 := if m.notice then noticePend s1 o else s1
  let s3 := retireNodes (killArenas s2 o fun a => a.node = 0) o
  let asked := (s3.pages.filter fun e => e.2.holder == o && !e.2.requests.isEmpty).map (·.1)
  moveEvent (asked.foldl serveBias s3) o 3 m.pulls.length

/-- A context as another chip sends it (R411): registers by TID, pages and arenas with their bytes, tags, poison and times, and the pages still
to pull.  A scratch address stands under the key that it has for owner identity 0. -/
structure Arrival where
  ctx : Ctx
  slots : Tab Slot
  cores : Tab CoreSt
  quads : Tab QuadSt
  pages : Tab Page
  arenas : Tab Arena
  bytes : List (Nat × Byte)
  full : List Nat
  poison : List Nat
  lines : Tab Line
  pulls : List Nat
  deriving DecidableEq, Repr

end Sys2Proof.Machine

/-- The context that another chip has sent, if one has, by the counter of free values (R411, DESIGN CHOICE log 85). -/
opaque Sys2Proof.Config.arriving : Nat → Option Sys2Proof.Machine.Arrival

namespace Sys2Proof.Machine

/-- The place of a number of the sender's under an owner identity of this chip. -/
def underOwner {α : Type} (o : Nat) (t into : Tab α) : Tab α :=
  t.foldl (fun u e => if e.1 < ownerSpan then u.put (slotKey o e.1) e.2 else u) into

/-- A memory key of the sender's under an owner identity of this chip. -/
def keyUnder (o key : Nat) : Nat := if 2 ^ 56 ≤ key then key + scratchKey (slotKey o 0) 0 - 2 ^ 56 else key

/-- A handle of an arriving parent: a context that the sender names is on the sender's chip (R373) (DEDUCED log 33). -/
def Handle.arrived (h : Handle) : Handle :=
  match h.child with
  | some _ => { h with child := none, childState := 1, away := some (h.away.getD h.w.notAfter) }
  | none => h

/-- The move of a context that has arrived: its notice may wait for the switch (R411). -/
def Arrival.move (a : Arrival) : MoveSt := { role := true, stopped := true, pulls := a.pulls, notice := a.ctx.move.any (·.notice) }

/-- The state with a context that has arrived: swapped out, or still ended abruptly, stopped for its move, its pages and arenas mapped; no PLB
comes with it, and its interface is a new one (R330, R402, R411, DESIGN CHOICE log 85). -/
def takeIn (s : State) (o : Nat) (a : Arrival) : State :=
  let c := { a.ctx with phase := if a.ctx.phase = .abrupt then .abrupt else .swapped, order := s.pkg.admitted, closed := [], spillWait := false,
                        tdisp := .unlocked, handles := a.ctx.handles.map fun e => (e.1, e.2.arrived), move := some a.move }
  let s1 := { s with
    ctxs := s.ctxs.put o c
    slots := underOwner o a.slots s.slots
    cores := underOwner o (a.cores.map fun e => (e.1, { e.2 with plb := [] })) s.cores
    quads := underOwner o a.quads s.quads
    pages := a.pages.foldl (fun u e => u.put e.1 { e.2 with holder := o, bias := .dev, requests := e.2.requests.filter id, inFlight := none }) s.pages
    arenas := a.arenas.foldl (fun u e => u.put e.1 { e.2 with holder := o }) s.arenas
    pkg := { s.pkg with admitted := s.pkg.admitted + 1 } }
  let held (key : Nat) : Bool := keyOwner s1 (keyUnder o key) = o
  let s2 := (a.bytes.filter fun e => held e.1).foldl (fun s e => writeHome s (keyUnder o e.1) [e.2]) s1
  let s3 := (a.full.filter held).foldl (fun s key => setFull s (keyUnder o key) true) s2
  let s4 := (a.poison.filter held).foldl (fun s key => setPoison s (keyUnder o key) [true]) s3
  (a.lines.filter fun e => held (e.1 * 128)).foldl (fun s e => setLine s (keyUnder o (e.1 * 128) / 128) e.2) s4

/-- Whether this chip can restore a context that arrives and admit it in its class (R314, R319, R327, R334, R343, R368, R410);
while the debug gate is open none is (R423). -/
def arrivalFits (s : State) (o : Nat) (a : Arrival) : Bool :=
  let t := takeIn s o a
  o == lowestFree s.ctxs 1 && !s.pkg.debugOpen && boundsHold s (admitted t) && a.ctx.used.1 ≤ (grants a.ctx).1 && a.ctx.used.2 ≤ (grants a.ctx).2 &&
    (a.pages.all fun e => rangeFree s none (e.1 * 2 ^ 15, (e.1 + 1) * 2 ^ 15)) &&
    (a.arenas.all fun e => e.1 < 2 ^ 14 && ((s.arena e.1).holder == 0 || (s.arena e.1).holder == 4096)) &&
    (a.ctx.quays.all fun q => q < 2048 && !(quaysHeld s).contains q && a.ctx.quayNos.contains (q / 8)) && placeFits t o a.ctx.rect.col a.ctx.rect.row

/-- The switch of a context that has arrived: the images lie in their berths, and it may return to the quads of its new place (R368, R411)
(DESIGN CHOICE log 85). -/
def arriveMove (s : State) (o : Nat) : State :=
  let (f, s1) := s.tick
  match Config.arriving f with
  | none => s1
  | some a =>
    if arrivalFits s1 o a then
      let t := replace (takeIn s1 o a) o a.ctx.rect.col a.ctx.rect.row
      switchTarget t o a.move
    else s1

/-- MOVE_SWITCH: on the source or, for a context that this chip does not hold yet, on the target, over an authenticated link (R408, R411). -/
def execMoveSwitch (owner : Nat) (s : State) : Host.Outcome State Fault Refusal :=
  .next (match (s.ctx owner).move with
    | none => if (s.ctxs.find? owner).isSome || s.pkg.boot != .on then s else overLink s 1 (arriveMove · owner)
    | some m =>
      let out := (s.ctx owner).phase = .swapped || (s.ctx owner).phase = .abrupt
      if out && m.stopped && !m.away then overLink s 1 fun s => if m.role then switchTarget s owner m else switchSource s owner m
      else s)

/-- Whether a page is the next to be pulled of a context (R411). -/
def pullReady (m : MoveSt) (page : Nat) : Bool := m.pulls.head? == some page && !m.lost.contains page && (m.away || (m.role && !m.stopped))

/-- The next page has crossed: on the target its accesses go on, on the source the last one frees everything (R411). -/
def pullPage (s : State) (o : Nat) (m : MoveSt) : State :=
  let rest := m.pulls.tail
  let s1 := moveEvent (s.modCtx o fun c => { c with move := some { m with pulls := rest } }) o 4 rest.length
  if !rest.isEmpty then (if m.role then releaseHost s1 else s1)
  else if m.role then releaseHost (s1.modCtx o fun c => { c with move := none }) else freeSource s1 o

/-- PULL: the next page crosses, in ascending order, in 128 flits of an authenticated link (R408, R411). -/
def execPull (owner page : Nat) (s : State) : Host.Outcome State Fault Refusal :=
  .next (match (s.ctx owner).move with
    | none => s
    | some m => if pullReady m page then overLink s 128 (pullPage · owner m) else s)

/-- The fault-ring record of an access of a context that waits for a page: of a slot, of a slab instruction or of an engine command, which has no
pc: its PC is a free value (R338, R412) (DESIGN CHOICE log 34). -/
def pullTouch (s : State) (o page : Nat) : Option FaultRec :=
  let here (t : Option (Word × BitVec 4)) : Option (Word × BitVec 4) := t.filter fun e => offsetOf e.1 / 2 ^ 15 = page
  let code := Cause.leaseOut.code
  let slot := (s.slotsOfCtx o).findSome? fun k =>
    if (s.slot k).running then (here (s.slot k).touch).map fun e => recordOf s k code false (s.slot k).pc e.1 e.2 0 else none
  let slab := (s.coresOf o).findSome? fun c => (s.core c).slabQ.findSome? fun p => (here p.touch).map fun e => recordOf s p.slot code true p.pc e.1 e.2 p.seq
  let engine := (s.coresOf o).findSome? fun c => (s.core c).fifo.cmds.findSome? fun p =>
    (here p.touch).map fun e => { recordOf s p.slot code false (Config.freeWord s.fresh) e.1 e.2 0 with node := 0 }
  (slot <|> slab) <|> engine

/-- A pull has failed: the task that touched the page ends abruptly, and its context ends TERM_PULL_LOST; until an access touches the page the
failure is only noted (R412). -/
def pullFails (s : State) (o page : Nat) : State :=
  match (s.ctx o).move with
  | none => s
  | some m =>
    if m.role && !m.stopped && m.pulls.contains page then
      match pullTouch s o page with
      | some r => ctxEnd (taskAbrupt s.tick.2 o r) o 5
      | none => s.modCtx o fun c => { c with move := some { m with lost := insertPage page m.lost } }
    else s

/-- PULL_TIMEOUT (R412). -/
def execPullTimeout (owner page : Nat) (s : State) : Host.Outcome State Fault Refusal := .next (pullFails s owner page)

/-! ### Test packages (R397) -/

/-- Physical quads that no island holds, that capacity is not held for, and that work. -/
def idlePhysical (s : State) (q : Nat) : Bool :=
  let p := (q % 16, q / 16)
  q < 256 && quadWorks s p && !(s.ctxs.any fun e => (quadsHeld s e.1).contains p) && !(s.pkg.claims.any fun c => c.hold.rect.holds p)

/-- A test package acts: one that the checks of R372 refuse, or with a bad signature, is refused and recorded; else the quads chosen leave the
window search (R397, R405; DEDUCED log 58). -/
def actTest (s : State) (tag : Word) (package sig : List Byte) (quads : List Nat) : State :=
  if (parseImage package).isNone then respond (boxAdd s 0x20 0 0 [1]) tag 1 0
  else if Config.falconVerify Config.vendorKey (shake256 package 64) sig then
    let mine := quads.filter (idlePhysical s)
    let s1 := mine.foldl (fun s q => s.modPkg fun p => { p with quads := p.quads.put q .testing }) s
    respond (boxAdd s1 0x20 0 0 [0]) tag 0 0
  else respond (boxAdd s 0x20 0 0 [2]) tag 2 0

/-- TEST (R397, R405): `quads` are the idle quads that the scan controller chooses. -/
def execTest (tag : Word) (package sig : List Byte) (quads : List Nat) (s : State) : Host.Outcome State Fault Refusal :=
  .next (submit s 6 tag (hostWhere s.fresh (package ++ sig))
    (inOrder · (.test tag package sig quads) (actTest · tag package sig quads)))

/-! ### Redemption messages (R305 to R309) -/

/-- CLAIM: a claim reaches the home; its answer echoes the nonce and is recorded (R306, R307, R309, R408). -/
def execClaim (serial domain chip nonce : Word) (s : State) : Host.Outcome State Fault Refusal :=
  .next (overLink s 1 fun s => if homeHere s domain serial then
      let (ok, t) := homeClaim s domain serial chip
      (boxAdd t 2 0 0 [if ok then 1 else 0]).modPkg fun p => { p with claimReply := some { chip, nonce, accept := ok } }
    else s)

/-- The core cycles of 10 ms, within which a home answers (R307). -/
def claimCycles : Nat := 10000 * Config.cyclesPerMicro

/-- Whether the time of an open claim has run out. -/
def OpenClaim.late (c : OpenClaim) (s : State) : Bool := c.sent + claimCycles ≤ s.cycle

/-- CLAIM_ANSWER: an answer whose nonce matches no claim that is still open is discarded; another builds the island, or is SPENT, also where
the floor has passed the warrant meanwhile (R306 to R309). -/
def execClaimAnswer (nonce : Word) (accept : Bool) (s : State) : Host.Outcome State Fault Refusal :=
  .next (overLink s 1 fun s => match s.pkg.claims.find? fun c => c.nonce == nonce && !c.late s with
    | none => s
    | some c =>
      let s1 := s.modPkg fun p => { p with claims := p.claims.filter fun x => x.nonce != nonce }
      claimed s1 c.p c.w c.hold (accept && !belowFloor s c.w))

/-- No answer for 10 ms: the presentation is UNREACHABLE and the serial stands on the list of open claims (R307). -/
def dropLate (s : State) (nonce : Word) : State :=
  match s.pkg.claims.find? fun c => c.nonce == nonce && c.late s with
  | none => s
  | some c =>
    let s1 := s.modPkg fun p =>
      { p with claims := p.claims.filter fun x => x.nonce != nonce, openClaims := p.openClaims ++ [(c.w.serial, c.w.domain)] }
    answer s1 c.p 9 0 0

/-- CLAIM_TIMEOUT (R307). -/
def execClaimTimeout (nonce : Word) (s : State) : Host.Outcome State Fault Refusal := .next (dropLate s nonce)

/-- WITHDRAWAL at the home (R306, R307). -/
def execWithdrawal (serial domain chip : Word) (s : State) : Host.Outcome State Fault Refusal :=
  .next (overLink s 1 fun s => if homeHere s domain serial then homeWithdraw s domain serial chip else s)

/-- END_NOTICE at the home (R306, R307). -/
def execEndNotice (serial domain chip : Word) (code : BitVec 8) (s : State) : Host.Outcome State Fault Refusal :=
  .next (overLink s 1 fun s => if homeHere s domain serial then homeEnd s domain serial chip code else s)

/-- MOVE_NOTICE at the home (R410). -/
def execMoveNotice (serial domain source target : Word) (s : State) : Host.Outcome State Fault Refusal :=
  .next (overLink s 1 fun s => if homeHere s domain serial then (homeMove s domain serial source target).2 else s)

/-- Whether an end notice of a serial is still repeated. -/
def noticed (s : State) (serial domain : Word) : Bool := s.pkg.notices.any fun e => e.1 == serial && e.2.1 == domain

/-- HOME_CONFIRMATION: of a withdrawal, and the serial leaves the list of open claims; or of an end notice, and the oldest one of the serial is
not repeated; where both are open, a free value says which the home has confirmed (R307, DESIGN CHOICE log 1). -/
def execHomeConfirmation (serial domain : Word) (s : State) : Host.Outcome State Fault Refusal :=
  .next (overLink s 1 fun s =>
    let (f, s1) := s.tick
    let withdrawal := s.pkg.openClaims.contains (serial, domain) && (!noticed s serial domain || Config.freeKeep f)
    s1.modPkg fun p =>
      if withdrawal then { p with openClaims := p.openClaims.filter (· != (serial, domain)) }
      else { p with notices := p.notices.eraseP fun e => e.1 == serial && e.2.1 == domain })

end Sys2Proof.Machine
end

