-- ==== Sys2Proof/Machine/Ports.lean ====
section
/-! DEFINITION. The events of the CXL, Ostik and UCIe ports (R400, R403, R408, R409).  Ports 0 to 3 are CXL, ports 4 to 19 Ostik; port 20
is the UCIe port of the module with host. -/

namespace Sys2Proof.Machine

/-- The ports of the part (R2, R4, R400). -/
def portExists (port : Nat) : Bool := port < 20 || (port == 20 && Config.form == .host)

/-- Whether the values of a report are all within their thresholds (R409). -/
def portGood (s : State) (margin : List Nat) (rate : Nat) : Bool := margin.all (s.pkg.marginMin ≤ ·) && rate ≤ s.pkg.rateMax

/-- Whether a port is DEGRADED, with eight lanes or with four (DEDUCED log 84). -/
def PortState.low (st : PortState) : Bool := st == .degraded || st == .degraded4

/-- TELEMETRY_REPORT: the values are kept; out of threshold an UP port is DEGRADED, and 60 good seconds bring it back (R409). -/
def execTelemetryReport (port : Nat) (margin : List Nat) (rate replays loss : Nat) (s : State) : Host.Outcome State Fault Refusal :=
  if 20 ≤ port then .next s
  else
    let ok := portGood s margin rate
    let s1 := modPort s port fun p => { p with margin, rate, replays, loss, good := if ok then p.good + 1 else 0 }
    let p := portOf s1 port
    .next (if p.state == .up && !ok then portTo s1 port .degraded
      else if p.state.low && 60 ≤ p.good then { s1 with agenda := s1.agenda ++ [.portRecovery port] }
      else s1)

/-- PORT_RECOVERY: a DEGRADED port that was within its thresholds for 60 s is UP (R409). -/
def execPortRecovery (port : Nat) (s : State) : Host.Outcome State Fault Refusal :=
  let p := portOf s port
  .next (if p.state.low && 60 ≤ p.good then portTo s port .up else s)

/-- LANE_FAIL: a DEGRADED port goes on with four lanes; the table of R409 names no event record for it. -/
def execLaneFail (port : Nat) (s : State) : Host.Outcome State Fault Refusal :=
  .next (if (portOf s port).state == .degraded then modPort s port fun p => { p with state := .degraded4 } else s)

/-- PORT_DOWN: an UP or DEGRADED port goes DOWN, and its traffic takes other routes (R408, R409). -/
def execPortDown (port : Nat) (s : State) : Host.Outcome State Fault Refusal :=
  .next (if !portExists port || (portOf s port).state == .down then s else portTo s port .down)

/-- Whether a partner is accepted at a port: on an Ostik port its identity must chain to the vendor root, and on a CXL or UCIe port it may
request only what the device offers there (R401, R408). -/
def partnerOk (s : State) (port : Nat) (p : Partner) : Bool :=
  if 4 ≤ port && port < 20 then p.chained else p.asks.all (LinkAsk.offered (port == hostPort s))

/-- PORT_TRAINING: a DOWN port trains with a partner that it accepts; on an Ostik port the two agree a link key; the host link reopens the
mailbox with a new challenge, and does not train in RECOVERY; nothing trains without power (R401, R403, R408, R409, R418, R419). -/
def execPortTraining (port : Nat) (partner : Partner) (s : State) : Host.Outcome State Fault Refusal :=
  let host := port == hostPort s
  let ostik := 4 ≤ port && port < 20
  let refused := !partnerOk s port partner || (host && s.pkg.boot != .on) || s.pkg.boot == .off
  if !portExists port || refused || (portOf s port).state != .down then .next s
  else
    let s1 := portTo s port .up
    .next (if ostik then modPort s1 port fun p => { p with keys := p.keys + 1, flits := 0 }
      else if host && !s1.pkg.linkUp then drawChallenge (s1.modPkg fun p => { p with linkUp := true })
      else s1)

/-- REKEY: an Ostik link in use agrees a new key (R408). -/
def execRekey (port : Nat) (s : State) : Host.Outcome State Fault Refusal :=
  .next (if 4 ≤ port && port < 20 && (portOf s port).state != .down then modPort s port fun p => { p with keys := p.keys + 1, flits := 0 }
    else s)

/-- NO_ROUTE: an island of several packages whose packages no route has joined for 100 ms ends TERM_CONTAINED (R408). -/
def execNoRoute (owner : Nat) (s : State) : Host.Outcome State Fault Refusal :=
  .next (if (s.ctxs.find? owner).isSome && (s.ctx owner).npkg != 1 then ctxEnd s owner 3 else s)

end Sys2Proof.Machine
end

