-- ==== Sys2Proof/Machine/Manage.lean ====
section
/-! DEFINITION. The management controller: power, duty and trips, repair and tests, boot and power-down, the operator's settings and the
debug gate (R397, R398, R413 to R423). -/

namespace Sys2Proof.Machine

/-! ### Power (R413 to R417) -/

def powerOf (s : State) (d : Nat) : Power := s.pkg.power.get {} d
def modPower (s : State) (d : Nat) (f : Power → Power) : State :=
  s.modPkg fun p => { p with power := p.power.put d (f (p.power.get {} d)) }

/-- Power domains: compute stacks 0 to 3, memory stacks 8 to 15, the IO die 16 (R414). -/
def isDomain (d : Nat) : Bool := d < 4 || (8 ≤ d && d ≤ 16)

/-- The 24 bytes of a regulator's record (R414). -/
def RegReport.bytes (r : RegReport) : List Byte :=
  leBytes 2 r.domain.toNat ++ leBytes 2 r.vout.toNat ++ leBytes 4 r.iout.toNat ++ leBytes 2 r.treg.toNat ++ leBytes 2 r.eff.toNat ++
    leBytes 4 r.flux.toNat ++ leBytes 8 r.time.toNat

/-- The power domains (R414). -/
def allDomains : List Nat := (List.range 17).filter isDomain

/-- Whether the estimate of a domain's heat flux has passed its cap, in percent of the vendor limit (R415). -/
def aboveCap (d : Nat) (p : Power) : Bool := p.report.any fun r => p.cap * Config.fluxLimit d < 100 * r.flux.toNat

/-- Whether the estimate lies below 95 % of the cap; without a report no cap acts (R415). -/
def belowCap (d : Nat) (p : Power) : Bool := p.report.all fun r => 10000 * r.flux.toNat < 95 * p.cap * Config.fluxLimit d

/-- The input power of a domain in µW by its regulator's record: VOUT times IOUT over EFF (R414) (DEDUCED log 35). -/
def inputPower (p : Power) : Nat := (p.report.map fun r => r.vout.toNat * r.iout.toNat * 10000 / r.eff.toNat).getD 0

/-- Whether the input power of the package has passed its limit of 2,400 W (R4, R415). -/
def overLimit (s : State) : Bool := 2400 * 10 ^ 6 < (allDomains.map fun d => inputPower (powerOf s d)).sum

/-- A report is kept; the times since which the estimate lies below 95 % of the cap, or above it at duty 8/64, follow (R415, R417). -/
def Power.reported (p : Power) (d now : Nat) (r : RegReport) : Power :=
  let q := { p with report := some r }
  { q with below := if belowCap d q then p.below else now, hot := if aboveCap d q && p.duty = 8 then some (p.hot.getD now) else none }

/-- A domain at a lower duty. -/
def Power.lowered (p : Power) (d now low : Nat) : Power :=
  let duty := Nat.min p.duty (Nat.max 8 low)
  { p with duty, below := now, hot := if duty = 8 && aboveCap d p then some (p.hot.getD now) else p.hot }

/-- The duty of some domains falls to d/64, d from 8 up, and the cap that acts is recorded (R399, R415). -/
def lowerDuty (s : State) (domains : List Nat) (low : Nat) : State :=
  (domains.filter fun d => Nat.max 8 low < (powerOf s d).duty).foldl (fun s d =>
    boxAdd (modPower s d fun p => p.lowered d s.pkg.clock low) 0x30 0 d []) s

/-- The duty of every compute stack falls together: to d/64, and where one stands there already or below, by 1/64 (R415) (DESIGN CHOICE log 35). -/
def lowerStacks (s : State) (low : Nat) : State :=
  [0, 1, 2, 3].foldl (fun s d => lowerDuty s [d] (Nat.min low ((powerOf s d).duty - 1))) s

/-- The duty of a domain above its cap falls; past the package limit, for which a number that names no domain stands, that of every compute
stack (R415) (DESIGN CHOICE log 35). -/
def dropDuty (s : State) (domain low : Nat) : State :=
  if isDomain domain then (if aboveCap domain (powerOf s domain) then lowerDuty s [domain] low else s)
  else if overLimit s then lowerStacks s low else s

/-- DUTY_DROP (R399, R415). -/
def execDutyDrop (domain d : Nat) (s : State) : Host.Outcome State Fault Refusal := .next (dropDuty s domain d)

/-- A duty to which one of some falls: a free value (R415, DESIGN CHOICE log 35). -/
def lowerThan (f duty : Nat) : Nat := 8 + Config.freeChoice f % (duty - 8)

/-- The fall of duty that a report brings, at once (R415) (DESIGN CHOICE log 35). -/
def fallNow (s : State) (d : Nat) : State :=
  let s1 := dropDuty s.tick.2 d (lowerThan s.fresh (powerOf s d).duty)
  dropDuty s1 17 (lowerThan s.fresh (([0, 1, 2, 3].map fun k => (powerOf s1 k).duty).foldl Nat.max 8))

/-- REGULATOR_REPORT: the record is kept with its time; past a cap or the package limit the duty falls (R414, R415). -/
def takeReport (s : State) (domain vout : BitVec 16) (iout : BitVec 32) (treg eff : BitVec 16) (flux : BitVec 32) : State :=
  let d := domain.toNat
  if !isDomain d then s
  else
    let r : RegReport := { domain, vout, iout, treg, eff, flux, time := BitVec.ofNat 64 s.pkg.clock }
    fallNow (modPower s d fun p => p.reported d s.pkg.clock r) d

def execRegulatorReport (domain vout : BitVec 16) (iout : BitVec 32) (treg eff : BitVec 16) (flux : BitVec 32) (s : State) :
    Host.Outcome State Fault Refusal :=
  .next (takeReport s domain vout iout treg eff flux)

/-- Every 10 µs each regulator reports what it measures (R414, DESIGN CHOICE log 1). -/
def regulatorReports (s : State) : State :=
  if s.pkg.clock % 10 != 0 then s
  else allDomains.foldl (fun s d =>
    let m := Config.measured s.fresh d
    takeReport s.tick.2 (BitVec.ofNat 16 d) m.1 m.2.1 m.2.2.1 m.2.2.2.1 m.2.2.2.2) s

/-- Whether the duty of a domain rises by one step now: for a millisecond it has stood with the estimate below 95 % of the cap, and the package
limit does not hold it (R415). -/
def riseDue (s : State) (d : Nat) : Bool :=
  let p := powerOf s d
  isDomain d && p.duty < 64 && p.below + 1000 ≤ s.pkg.clock && belowCap d p && !(d < 4 && overLimit s)

/-- The duty of a domain rises by 1/64 where that is due (R415). -/
def riseDuty (s : State) (domain : Nat) : State :=
  if riseDue s domain then modPower s domain fun p => { p with duty := p.duty + 1, below := s.pkg.clock, hot := none } else s

/-- DUTY_RISE (R415). -/
def execDutyRise (domain : Nat) (s : State) : Host.Outcome State Fault Refusal := .next (riseDuty s domain)

/-- Whether a domain has stayed above its cap for 10 ms at duty 8/64 (R417). -/
def tripDue (s : State) (d : Nat) : Bool :=
  let p := powerOf s d
  isDomain d && p.duty = 8 && aboveCap d p && !p.idle && p.hot.any fun t => t + 10000 ≤ s.pkg.clock

/-- The contexts that hold a quad which a condition selects. -/
def ctxsOn (s : State) (sel : Nat × Nat → Bool) : List Nat := (s.ctxs.filter fun e => (quadsHeld s e.1).any sel).map (·.1)

/-- Swap out the running contexts among some (R359). -/
def swapAll (s : State) (os : List Nat) : State :=
  { s with agenda := s.agenda ++ (os.filter fun o => (s.ctx o).phase = .running).map Instr.harbourSwap }

/-! ### Power-down (R310, R419) -/

/-- Serials under which the chip holds contexts: those of the handle-0 warrants and of the added ones (R419; DEDUCED log 36). -/
def heldSerials (s : State) : List (Word × Word) :=
  s.ctxs.flatMap fun e => (e.2.handles.filter fun h => h.1 = 0 || h.2.added).map fun h => (h.2.w.serial, h.2.w.domain)

/-- Whether an event is a power-up. -/
def powersUp (i : Instr) : Bool :=
  match i with
  | .powerUp _ => true
  | _ => false

/-- The ends that a loss of power brings, recorded: of presentations and claims without an answer, of orders, and of contexts, which end
TERM_CONTAINED (R309, R399, R419) (DEDUCED log 109). -/
def recordEnds (s : State) : State :=
  s.ctxs.foldl (fun s e => boxAdd s 3 e.1 0 [3]) (recordDropped s (s.pkg.waiting.map Queued.kind ++ s.pkg.claims.map fun _ => 1))

/-- What power takes with it: contexts, claims and requests, the events that still wait before the next power-up, and everything that is not
kept in non-volatile memory (R310, R419). -/
def powerOff (s : State) : State :=
  let held := heldSerials s
  let s1 := s.ctxs.foldl (fun s e => eraseOwner (killArenas s e.1 fun _ => true) e.1) (recordEnds s)
  let s2 := s1.modPkg fun p =>
    { p with
      boot := .off, anchored := false, slew := none, frac := 0, slewFrac := 0, challenge := [], waiting := [], request := false,
      openClaims := p.openClaims ++ p.claims.map (fun (c : OpenClaim) => (c.w.serial, c.w.domain)), claims := [],
      resp := List.replicate 64 0, doorbell := 0, req := [], hostReads := [], events := [], evCount := 0, ports := [], linkUp := false, debugOpen := false,
      hostTime := 0, hostAhead := [],
      power := p.power.map fun (e : Nat × Power) => (e.1, { cap := e.2.cap }),
      lastHeld := p.lastHeld ++ held }
  { s2 with
    slots := [], cores := [], quads := [], mem := [], full := [], poison := [], lines := [], pages := [], damage := [],
    past := [], llc := [], sectorMap := [], mapDamage := [], overDamage := [], latched := [], closing := false, stackCopies := [], quayLast := [], lives := [],
    agenda := s.agenda.dropWhile fun i => !powersUp i, pending := [], held := [] }

/-- POWER_LOSS: every context ends (R419). -/
def execPowerLoss (s : State) : Host.Outcome State Fault Refusal := .next (if s.pkg.boot == .off then s else powerOff s)

/-- An orderly power-down: the clock and a black-box record are written first (R310, R419). -/
def powerDown (s : State) : State := powerOff (boxAdd (s.modPkg fun p => { p with saved := p.clock }) 0x30 0 0 [])

/-- ORDERLY_POWER_DOWN (R310, R419). -/
def execOrderlyPowerDown (s : State) : Host.Outcome State Fault Refusal := .next (if s.pkg.boot == .off then s else powerDown s)

/-- THERMAL_TRIP: a compute stack that has stayed above its cap at duty 8/64 is emptied and held idle for 1 s; for a memory stack or the IO die
the package powers down (R417). -/
def trip (s : State) (domain : Nat) : State :=
  if !tripDue s domain then s
  else
    let s1 := boxAdd s 0x30 0 domain []
    if domain < 4 then
      swapAll (modPower s1 domain fun p => { p with idle := true, idleEnd := s.pkg.clock + 1000000, hot := none })
        (ctxsOn s fun p => stackOfQuad p = domain)
    else powerDown s1

def execThermalTrip (domain : Nat) (s : State) : Host.Outcome State Fault Refusal := .next (trip s domain)

/-- A stack is admitted to again. -/
def stackBack (s : State) (stack : Nat) : State := modPower s stack fun p => { p with idle := false }

/-- STACK_IDLE_END: the stack is admitted to again (R417). -/
def execStackIdleEnd (stack : Nat) (s : State) : Host.Outcome State Fault Refusal :=
  .next (if (powerOf s stack).idle && (powerOf s stack).idleEnd ≤ s.pkg.clock then stackBack s stack else s)

/-! ### Repair and test (R397, R398) -/

/-- Retire a quad: it leaves the window search and the capacity, and its contexts wait in their berths (R397, R398). -/
def retireQuad (s : State) (q : Nat) : State :=
  swapAll (boxAdd (s.modPkg fun p => { p with quads := p.quads.put q .retired }) 0x21 0 q [])
    (ctxsOn s fun p => quadNo p = q)

/-- The straits that use a half-slab: owner, physical quad and place in the quad's list. -/
def straitsWith (s : State) (h : Nat) : List (Nat × Nat × Nat) :=
  s.ctxs.flatMap fun e => e.2.straits.flatMap fun t =>
    (t.2.zipIdx.filter fun x => x.1.1 == h || x.1.2 == h).map fun x => (e.1, t.1, x.2)

/-- The other half-slab of a strait. -/
def mateIn (l : List (Nat × Nat)) (h : Nat) : Nat :=
  match l.find? fun e => e.1 == h || e.2 == h with
  | some e => if e.1 = h then e.2 else e.1
  | none => h

/-- A spare for a half-slab of a strait of physical quad `q`: a working half-slab in a binding window that holds the strait, which no strait of
the context uses, from an unused position before one whose other half is defective (R398). -/
def spareHalf (s : State) (o q h : Nat) : Option Nat :=
  let table := (s.ctx o).straits
  let used := table.flatMap fun e => halvesOf e.2
  let windows := (List.range 4).map (bindingWindow s o (q % 16, q / 16))
  let mine := windows.filter fun w => w.contains h && w.contains (mateIn (table.get [] q) h)
  let free := mine.flatten.filter fun x => halfWorks s x && !used.contains x
  let other (x : Nat) : Nat := if x % 2 = 0 then x + 1 else x - 1
  ((free.find? fun x => free.contains (other x)).or (free.find? fun x => !halfWorks s (other x))).or free.head?

/-- Put a spare half-slab into the straits of a quad that used another (R15, R398). -/
def rePair (s : State) (o q h spare : Nat) : State :=
  let swap (e : Nat × Nat) : Nat × Nat := if e.1 = h then (spare, e.2) else if e.2 = h then (e.1, spare) else e
  s.modCtx o fun c => { c with straits := c.straits.put q ((c.straits.get [] q).map swap) }

/-- A half-slab whose margin has fallen below its limit is retired and recorded: the straits that used it are re-paired with a spare of their window, each
at most once in 10 s, and their contexts are swapped out and return; a quad whose strait finds no spare is retired, and so is the half-slab's
own quad where it holds no island, since its four logical slabs need every half-slab (R4, R398) (DESIGN CHOICE log 59). -/
def halfFails (s : State) (h : Nat) : State :=
  let users := straitsWith s h
  if s.pkg.quads.get .working (h / 8) == .retired || s.pkg.halves.contains h then s
  else if users.any fun u => (s.pkg.repaired.find? (4 * u.2.1 + u.2.2)).any fun t => s.pkg.clock < t + 10000000 then s
  else
    let s1 := boxAdd (s.modPkg fun p => { p with halves := h :: p.halves }) 0x21 0 (h / 8) (le 2 h)
    let lone := if (ctxsOn s fun p => quadNo p = h / 8).isEmpty then [h / 8] else []
    let lost := lone ++ (users.filter fun u => (spareHalf s1 u.1 u.2.1 h).isNone).map (·.2.1)
    let mended := users.filter fun u => !lost.contains u.2.1
    let s2 := mended.foldl (fun s u =>
      (rePair s u.1 u.2.1 h ((spareHalf s u.1 u.2.1 h).getD h)).modPkg fun p =>
        { p with repaired := p.repaired.put (4 * u.2.1 + u.2.2) p.clock }) s1
    let s3 := if mended.isEmpty then s2 else swapAll (boxAdd s2 0x22 0 (h / 8) []) (mended.map (·.1))
    lost.dedup.foldl retireQuad s3

/-- MARGIN_REPLAN: half-slabs, by number, with the margins measured (R398). -/
def execMarginReplan (margins : List (Nat × Nat)) (s : State) : Host.Outcome State Fault Refusal :=
  .next ((margins.filter fun e => e.1 < 2048 && e.2 < Config.marginLimit).foldl (fun s e => halfFails s e.1) s)

/-- TEST_END: the quad returns to the window search or is retired (R397). -/
def execTestEnd (quad : Nat) (pass : Bool) (s : State) : Host.Outcome State Fault Refusal :=
  .next (if s.pkg.quads.get .working quad == .testing then
      if pass then s.modPkg fun p => { p with quads := p.quads.erase quad } else retireQuad s quad
    else s)

/-! ### Boot (R310, R418 to R420) -/

/-- Whether a boot image passes: signed by the vendor root over its digest, and of a security version that the counter admits (R418)
(DEDUCED log 55). -/
def imagePasses (s : State) (m : Config.StageImage) : Bool :=
  Config.falconVerify Config.vendorKey (shake256 m.bytes 32) m.sig && s.pkg.svn ≤ m.version

/-- The first stage that fails: the image of one of the stages 1 to 3 does not pass, or the stage itself does not come through (R418). -/
def stageFails (s : State) (passed : List Bool) : Option Nat :=
  [1, 2, 3, 4].find? fun n => !passed.getD (n - 1) false || (n ≤ 3 && !imagePasses s (s.pkg.images.get {} n))

/-- Stage 3 repairs: no island stands, so a quad with a retired half-slab, which has no four logical slabs of its own, is retired, and a quad whose
test the power-down has ended returns to the pool (R397, R398, R418) (DESIGN CHOICE log 59). -/
def bootRepair (s : State) : State :=
  let s1 := s.modPkg fun p => { p with quads := p.quads.filter fun e => e.2 != .testing }
  ((s1.pkg.halves.map (· / 8)).dedup.filter fun q => s1.pkg.quads.get .working q == .working).foldl retireQuad s1

/-- Stages 1 to 4 have passed: the clock resumes unanchored, the straits are repaired, the mailbox opens with a new challenge, and an end notice
goes out for every serial whose context was lost (R310, R398, R418, R419) (DEDUCED log 22). -/
def bootUp (s : State) : State :=
  let lost := s.pkg.lastHeld
  let s1 := (drawChallenge s).modPkg fun p =>
    { p with boot := .on, failed := 0, clock := p.saved, frac := 0, anchored := false, linkUp := true, cxlPort := p.cxlPortNext, lastHeld := [] }
  let s2 := modPort (bootRepair s1) (hostPort s1) fun p => { p with state := .up }
  boxAdd (lost.foldl (fun s e => sendEnd s e.2 e.1 3) s2) 0x30 0 0 []

/-- POWER_UP: each stage verifies the next one's image, and `passed` says which of the stages 1 to 4 come through otherwise; where one fails the
package stands in RECOVERY (R418). -/
def execPowerUp (passed : List Bool) (s : State) : Host.Outcome State Fault Refusal :=
  .next (if s.pkg.boot != .off then s
    else match stageFails s passed with
      | none => bootUp s
      | some n =>
        boxAdd (s.modPkg fun p =>
          { p with boot := .recovery, failed := n, clock := p.saved, frac := 0, anchored := false, linkUp := false }) 0x30 0 0 [])

/-- RECOVERY_FIRMWARE: in RECOVERY the management port takes a vendor-signed image of sufficient version as that of the stage which has failed;
the counter only rises (R418; DEDUCED log 55). -/
def execRecoveryFirmware (version : Nat) (image sig : List Byte) (s : State) : Host.Outcome State Fault Refusal :=
  let m : Config.StageImage := { bytes := image, sig, version }
  .next (if s.pkg.boot == .recovery && imagePasses s m then
      s.modPkg fun p => { p with svn := Nat.max p.svn version, images := p.images.put (Nat.min p.failed 3) m }
    else s)

/-! ### Identity (R420) -/

/-- The certificates of the identity key that the management port serves: the vendor's, and the operator's behind the first enrolment (R420). -/
def certificates (s : State) : List (List Byte) := s.pkg.vendorCert :: if s.pkg.operatorCert.isEmpty then [] else [s.pkg.operatorCert]

/-! ### Settings (R303, R343, R422) -/

/-- Whether a management record bears the signature of an enrolled operator key: signer, record and signature (R422) (DESIGN CHOICE log 56). -/
def authOk (s : State) (auth : List Byte × List Byte × List Byte) : Bool :=
  (operatorKey s auth.1).any fun k => Config.falconVerify k (shake256 auth.2.1 64) auth.2.2

/-- The management port is reached while the package is booted (DEDUCED log 57). -/
def setting (s : State) (o : Order) (act : State → State) : State := if s.pkg.boot == .on then inOrder s o act else s

/-- A change of an entry of the key table: the first enrolment goes unsigned, and with it the operator certifies the identity key; the last entry
stays (R420, R422) (DESIGN CHOICE log 2). -/
def actKeys (s : State) (auth : List Byte × List Byte × List Byte) (index : Nat) (key : Option (List Byte)) : State :=
  let empty := s.pkg.keys.isEmpty
  let ok := index < 16 && ((empty && key.isSome) || authOk s auth)
  if !ok then s
  else match key with
    | some k => s.modPkg fun p =>
      { p with keys := p.keys.put index k
               operatorCert := if empty then Config.certificate k Config.identityKey else p.operatorCert }
    | none => if (s.pkg.keys.erase index).isEmpty then s else s.modPkg fun p => { p with keys := p.keys.erase index }

/-- OPERATOR_KEY_TABLE (R303, R422). -/
def execOperatorKeyTable (auth : List Byte × List Byte × List Byte) (index : Nat) (key : Option (List Byte)) (s : State) :
    Host.Outcome State Fault Refusal :=
  .next (setting s (.keys auth index key) (actKeys · auth index key))

/-- Whether the chip holds a context or a store entry of a domain. -/
def domainUsed (s : State) (d : Nat) : Bool :=
  s.ctxs.any (fun e => e.2.handles.any fun h => h.2.w.domain.toNat == d && (h.1 = 0 || h.2.added)) ||
    s.pkg.spent.any fun e => e.1 / 2 ^ 64 == d

/-- A domain with its member list is written once; with an empty list it is removed, where nothing of it is held (R305, R422). -/
def actDomains (s : State) (auth : List Byte × List Byte × List Byte) (domain : Word) (members : List Word) : State :=
  let known := (s.pkg.domains.find? domain.toNat).isSome
  if !authOk s auth then s
  else if members.isEmpty then
    if known && !domainUsed s domain.toNat then s.modPkg fun p => { p with domains := p.domains.erase domain.toNat } else s
  else if known || 4 ≤ s.pkg.domains.length || 256 < members.length then s
  else s.modPkg fun p => { p with domains := p.domains.put domain.toNat { members } }

/-- DOMAINS_AND_MEMBER_LISTS (R305, R422). -/
def execDomainsAndMemberLists (auth : List Byte × List Byte × List Byte) (domain : Word) (members : List Word) (s : State) :
    Host.Outcome State Fault Refusal :=
  .next (setting s (.domains auth domain members) (actDomains · auth domain members))

/-- The package number is refused while an arena lives (R343, R422). -/
def actPodn (s : State) (auth : List Byte × List Byte × List Byte) (n : Nat) : State :=
  if authOk s auth && n ≤ 63 && !(s.arenas.any fun e => e.2.holder != 0) then s.modPkg fun p => { p with podn := n } else s

/-- PODN (R343, R422). -/
def execPodn (auth : List Byte × List Byte × List Byte) (n : Nat) (s : State) : Host.Outcome State Fault Refusal :=
  .next (setting s (.podn auth n) (actPodn · auth n))

/-- The host-facing port changes at the next power-up (R400, R422). -/
def actCxlPort (s : State) (auth : List Byte × List Byte × List Byte) (port : Nat) : State :=
  if authOk s auth && port ≤ 3 then s.modPkg fun p => { p with cxlPortNext := port } else s

/-- HOST_FACING_CXL_PORT (R400, R422). -/
def execHostFacingCxlPort (auth : List Byte × List Byte × List Byte) (port : Nat) (s : State) : Host.Outcome State Fault Refusal :=
  .next (setting s (.cxlPort auth port) (actCxlPort · auth port))

/-- The migration threshold (R340, R422). -/
def actThreshold (s : State) (auth : List Byte × List Byte × List Byte) (n : Nat) : State :=
  if authOk s auth && 16 ≤ n && n ≤ 65535 then s.modPkg fun p => { p with threshold := n } else s

/-- MIGRATION_THRESHOLD (R340, R422). -/
def execMigrationThreshold (auth : List Byte × List Byte × List Byte) (n : Nat) (s : State) : Host.Outcome State Fault Refusal :=
  .next (setting s (.threshold auth n) (actThreshold · auth n))

/-- The flux cap of a domain, in percent of the vendor limit (R415, R422). -/
def actFluxCap (s : State) (auth : List Byte × List Byte × List Byte) (domain cap : Nat) : State :=
  if authOk s auth && isDomain domain && 50 ≤ cap && cap ≤ 100 then modPower s domain fun p => { p with cap } else s

/-- FLUX_CAPS (R415, R422). -/
def execFluxCaps (auth : List Byte × List Byte × List Byte) (domain cap : Nat) (s : State) : Host.Outcome State Fault Refusal :=
  .next (setting s (.fluxCap auth domain cap) (actFluxCap · auth domain cap))

/-- The thresholds of the ports (R409, R422). -/
def actPortLimits (s : State) (auth : List Byte × List Byte × List Byte) (margin rate : Nat) : State :=
  if authOk s auth then s.modPkg fun p => { p with marginMin := margin, rateMax := rate } else s

/-- PORT_THRESHOLDS (R409, R422). -/
def execPortThresholds (auth : List Byte × List Byte × List Byte) (margin rate : Nat) (s : State) : Host.Outcome State Fault Refusal :=
  .next (setting s (.portLimits auth margin rate) (actPortLimits · auth margin rate))

/-! ### The debug gate (R423) -/

/-- The gate opens only while no context exists (R423). -/
def actGate (s : State) (open_ : Bool) : State :=
  if open_ && !s.ctxs.isEmpty then s else s.modPkg fun p => { p with debugOpen := open_ }

/-- DEBUG_GATE_REQUEST (R423). -/
def execDebugGateRequest (open_ : Bool) (s : State) : Host.Outcome State Fault Refusal :=
  .next (setting s (.gate open_) (actGate · open_))

/-! ### The order of R309 -/

/-- An order whose turn has come acts. -/
def actOrder (s : State) : Order → State
  | .time tag r => actTime s tag r
  | .floor tag r => actFloor s tag r
  | .launch tag serial key proof => actLaunch s tag serial key proof
  | .move tag r fits => actMove s tag r fits
  | .test tag package sig quads => actTest s tag package sig quads
  | .keys auth index key => actKeys s auth index key
  | .domains auth domain members => actDomains s auth domain members
  | .podn auth n => actPodn s auth n
  | .cxlPort auth port => actCxlPort s auth port
  | .threshold auth n => actThreshold s auth n
  | .fluxCap auth domain cap => actFluxCap s auth domain cap
  | .portLimits auth margin rate => actPortLimits s auth margin rate
  | .gate open_ => actGate s open_

/-- The oldest entry of the order: an order acts, a presentation goes through its steps (R252, R309). -/
def takeQueued (s : State) : State :=
  match s.pkg.waiting with
  | .order o :: rest => actOrder (s.modPkg fun p => { p with waiting := rest }) o
  | _ => takePresentation s

/-- A step of the admission engine: a free value chooses whether it ends a build or takes the next entry (R309, R317, DESIGN CHOICE log 1) (DESIGN CHOICE log 43). -/
def admissionStep (s : State) : State :=
  let (f, s1) := s.tick
  match buildingCtx s1 with
  | some o => if Config.freeChoice f % 2 = 0 then startContext s1 o else takeQueued s1
  | none => takeQueued s1

end Sys2Proof.Machine
end

