-- ==== Sys2Proof/Machine/SlabRun.lean ====
section
/-! DEFINITION. The steps of the slab side: the completion of slab instructions, accumulator drains, follow-on products and the delivery
of late traps (R26, R34, R159 to R166, R179 to R202, R352). -/

namespace Sys2Proof.Machine

/-! ### Slab instructions with accesses -/

/-- The accesses of an instruction in their order, as what each does: lanes, pieces or cells. -/
def accesses (c : CoreSt) (o : SlabOp) : List (State → SlabOp → Access) :=
  match vecMem o.instr with
  | some (h, _) => (List.range (lanes c.gangw)).map fun l s o => laneAccess s o h (lanes c.gangw) l
  | none => (opPieces c o).map fun p s o => pieceAccess s o p

/-- What follows the last access. -/
def accessEnd (s : State) (core : Nat) (o : SlabOp) : State :=
  match vecMem o.instr with
  | some (h, d) => vecMemEnd s o h d (lanes (s.core core).gangw)
  | none => pieceEnd s core o

/-- The execution time of an instruction with accesses that is still to come (R182). -/
def costed (s : State) (core : Nat) (o : SlabOp) : SlabOp :=
  match vecMem o.instr with
  | some _ => { o with cost := vecTurns s o.slot o.instr o.args o.done }
  | none => { o with cost := (opPieces (s.core core) o).length - o.done }

/-- Whether a latch holds an access of a slab instruction still: its turn is to come (R277, R278). -/
def turnAhead (s : State) (o : SlabOp) : Bool :=
  (s.core (coreOf o.slot)).latches.any fun e => e.2.slot == o.slot && e.2.op == some o.seq && s.cycle < e.2.until_

/-- Whether an instruction whose accesses are all made waits for the turns that serve them (R277, R278), or for room for its wake (R148,
R165). -/
def endWaits (s : State) (o : SlabOp) : Bool :=
  turnAhead s o || match o.instr with
  | .vrst _ wk _ _ _ _ _ => match wakeRoom { s with cur := o.slot } wk (arg o.args 0) with
    | .ok _ => false
    | .error _ => true
  | _ => false

/-- Perform up to a number of accesses in order; the instruction completes behind the last one, faults late at one that fails, and
stays where the memory path holds one (R163, R166, R186) (DESIGN CHOICE log 50). -/
def runAccesses (core : Nat) : Nat → List (State → SlabOp → Access) → State → SlabOp → State
  | _, [], s, o => if o.upset then slabDiffers s o
    else if endWaits s o then slabProgress s core (costed s core o) else slabDone (accessEnd s core o) core o o.fl
  | 0, _ :: _, s, o => slabProgress s core (costed s core o)
  | n + 1, a :: rest, s, o =>
    match a s o with
    | .performed t fl => runAccesses core n rest t { o with done := o.done + 1, fl := o.fl ||| fl, touch := none }
    | .busy => slabProgress s core (costed s core o)
    | .path ea need => slabProgress s core { costed s core o with touch := some (ea, need) }
    | .skipped b => slabProgress (queueLatch s o.slot b) core (costed s core o)
    | .failed t left => slabFault (left.getD s).tick.2 core o (lateOf t)

/-! ### Accumulator drains (R200 to R202) -/

/-- The bytes of a cell in a drain's format, and its flags (R201). -/
def drainCell (f : DrainFmt) (cap : Capture) (m n : Nat) (x : BitVec 36) : List Byte × Flags :=
  match f with
  | .raw => (leBytes 8 x.toNat, 0)
  | .f32 => let (v, fl) := cellTo .f32 cap m n x; (leBytes 4 v, fl)
  | .bf16 => let (v, fl) := cellTo .bf16 cap m n x; (leBytes 2 v, fl)
  | .s32 => let (v, fl) := cellTo .s32 cap m n x; (leBytes 4 v, fl)

/-- `adrain` at its place in the sequence order: it reads every cell, applies ZA in the same step and leaves the slab queue (R201) (DEDUCED
log 51).  The address that a refusal reports is one of the remote window also where the receiving quad is the core's own (DESIGN CHOICE log 99). -/
def startDrain (s : State) (core : Nat) (o : SlabOp) (f : DrainFmt) (za : Bool) (doff : BitVec 22) (d : AReg) : State :=
  let c := s.core core
  let place := arg o.args 2
  let lx := (place.extractLsb' 6 8).toNat
  let ly := (place.extractLsb' 14 8).toNat
  let quad := quadKey (ownerOf core) lx ly
  let cells := (List.range 64).flatMap fun m => (c.accRow d.toNat m 0 (64 * c.gangw)).zipIdx.map fun x =>
    let off := doff.toNat + (64 * c.gangw * m + x.2) * f.bytes
    let (bs, fl) := drainCell f o.cap m x.2 x.1
    ((scratchKey quad off, (remoteEa lx ly off).toNat, bs), fl)
  let code := (arg o.args 0).extractLsb' 2 62
  let r : Drain :=
    { slot := o.slot, seq := o.seq, pc := o.pc, lvl := o.lvl, writes := cells.map (·.1),
      target := quad + 16 * (place.extractLsb' 4 2).toNat, code := code ++ (0 : BitVec 2), frame := arg o.args 1,
      prio := arg o.args 3 != 0, node := (arg o.args 4).toNat, fl := orFlags (cells.map (·.2)) }
  s.modCore core fun c =>
    let c1 := if za then c.clearAcc d.toNat else c
    { c1 with slabQ := c1.slabQ.filter fun p => p.seq != o.seq, drains := c1.drains ++ [r] }

/-- Replace the first drain of a core. -/
def setDrain (s : State) (core : Nat) (d : Option Drain) : State :=
  s.modCore core fun c => { c with drains := d.toList ++ c.drains.tail }

/-- The late fault of a drain: no record is pushed, and the instruction is over (R201). -/
def drainFault (s : State) (core : Nat) (d : Drain) (ea : Nat) : State :=
  let s1 := (setDrain s core none).modCore core fun c => seqDone c d.seq
  lateFault s1 d.slot d.seq d.pc d.lvl ⟨.slabExc, 0x0B#8 ++ BitVec.ofNat 56 ea, rW⟩

/-- Whether a bank refuses a write of a drain: it is not in scratch mode, or a switch in progress was not told of the drain (R154, R201). -/
def drainRefused (s : State) (core : Nat) (d : Drain) (key : Nat) : Bool :=
  let q := s.quad ((key - 2 ^ 56) / 2 ^ 22)
  let b := bankOf ((key - 2 ^ 56) % 2 ^ 22)
  q.mode b != .scr || q.switches.any fun w => w.banks.getLsbD b && !(w.drains.contains (core, d.seq))

/-- Land up to a number of writes of the first drain; a bank refuses one (R201), and one that meets a closed fence waits before it (R391,
DEDUCED log 39).  A drained byte is visible to every thread from here on, so none observes the push and reads an old byte, as R202 allows one
of another quad (DESIGN CHOICE log 100). -/
def drainWrites (core : Nat) : Nat → State → Drain → State
  | 0, s, d => setDrain s core (some d)
  | n + 1, s, d =>
    match d.writes with
    | [] => setDrain s core (some d)
    | (key, ea, bs) :: rest =>
      if s.fencedFrom d.slot ((key - 2 ^ 56) / 2 ^ 22) then setDrain s core (some d)
      else if drainRefused s core d key then drainFault s core d ea
      else
        let t := deviceWrite s key bs
        let w := (t.line (lineOf key)).wts
        drainWrites core n t { d with writes := rest, time := some (d.time.elim w fun x => Time.later x w) }

/-- The push of a drain whose writes have landed: the `adrain` completes (R201, R233, R262). -/
def drainPush (s : State) (core : Nat) (d : Drain) : State :=
  if ringFull (s.core d.target) || s.fencedFrom d.slot d.target then s
  else
    let w0 := d.code ||| (if d.prio then 2 else 0)
    let s1 := ringPush s d.target w0 d.frame d.prio (recordNode s d.slot d.frame d.node) (d.time.getD 0 + 1)
    let s2 := (setDrain s1 core none).modCore core fun c => seqDone c d.seq
    (pairOf s2 d.slot).foldl (fun s k => s.modSlot k fun x => { x with fflags := x.fflags ||| d.fl }) s2

/-- ADRAIN_PUSH: the oldest drain of a core lands writes, as many as a free value says, or makes its push (R201); without a drain
it changes nothing, as every event that nothing awaits (DESIGN CHOICE log 21). -/
def execAdrainPush (core : Nat) (s : State) : Host.Outcome State Fault Refusal :=
  match (s.core core).drains with
  | [] => .next s
  | d :: _ =>
    if d.writes.isEmpty then .next (drainPush s core d)
    else
      let (f, s1) := s.tick
      .next (drainWrites core (1 + Config.freeChoice f % d.writes.length) s1 d)

/-! ### Completion -/

/-- The oldest slab instruction of a core goes on: one without accesses completes, one with accesses performs some of them (R26); in checked
mode its two results are compared first (R395). -/
def slabStep (s : State) (core : Nat) (o : SlabOp) : State :=
  let c := s.core core
  let x := s.slot o.slot
  if badVector x (lanes c.gangw) o.instr || badCells c o then slabFault s.tick.2 core o ⟨.poison, Config.freeWord s.fresh, 0⟩
  else if o.upset && !slabMemory o.instr then slabDiffers s o
  else match o.instr with
  | .adrain _ _ f za doff d _ _ _ => startDrain s core o f za doff d
  | i =>
    if slabMemory i then
      let left := (accesses c o).drop o.done
      runAccesses core (1 + Config.freeChoice s.fresh % Nat.max 1 left.length) left s.tick.2 o
    else
      match aredOut c o, vecOut o x (lanes c.gangw), coreEffect c o with
      | some r, _, _ | none, some r, _ => slabDone (putOut s o (lanes c.gangw) r) core o r.fl
      | none, none, some (some (c1, fl)) => slabDone (s.setCore core c1) core o fl
      | none, none, some none => slabFault s.tick.2 core o ⟨.poison, Config.freeWord s.fresh, 0⟩
      | none, none, none => slabDone s core o 0

/-- SLAB_COMPLETION (R26, R34, R159). -/
def execSlabCompletion (core : Nat) (s : State) : Host.Outcome State Fault Refusal :=
  match (s.core core).slabQ with
  | [] => .next s
  | o :: _ => .next (slabStep s core o)

/-- LATE_TRAP_DELIVERY: a late fault reaches its slot before the slot's next issue (R352). -/
def execLateTrapDelivery (slot : Nat) (s : State) : Host.Outcome State Fault Refusal := .next (deliverPending s slot)

/-- Whether a follow-on slot whose last trigger has fallen may start its product (R182, R194, R351) (DEDUCED log 29). -/
def followReady (s : State) (core : Nat) (f : FReg) : Bool :=
  let c := s.core core
  let x := c.follow.get {} f.toNat
  x.due && x.queued.any fun o => slabRoom s core o.cost

/-- FOLLOW_ON_MMA_START: the queued product takes its sequence number (R182, R194). -/
def execFollowOnMmaStart (core : Nat) (f : FReg) (s : State) : Host.Outcome State Fault Refusal :=
  match ((s.core core).follow.get {} f.toNat).queued with
  | none => .next s
  | some o => if followReady s core f then .next (startFollow s core f o) else .next s

end Sys2Proof.Machine
end

