-- ==== Sys2Proof/Machine/Dispatch.lean ====
section
/-! DEFINITION. The meaning of every instruction and event: one arm for each row of the opcode table. -/

namespace Sys2Proof.Machine

def exec (i : Instr) (s : State) : Host.Outcome State Fault Refusal :=
  match i with
  | .nop h => Sys2Proof.Machine.execNop h s
  | .add h d a b => Sys2Proof.Machine.execAdd h d a b s
  | .addi h d a imm0 => Sys2Proof.Machine.execAddi h d a imm0 s
  | .sub h d a b => Sys2Proof.Machine.execSub h d a b s
  | .rsbi h d a imm0 => Sys2Proof.Machine.execRsbi h d a imm0 s
  | .mul h d a b => Sys2Proof.Machine.execMul h d a b s
  | .muli h d a imm0 => Sys2Proof.Machine.execMuli h d a imm0 s
  | .mulh h ty d a b => Sys2Proof.Machine.execMulh h ty d a b s
  | .mad h d a b c => Sys2Proof.Machine.execMad h d a b c s
  | .div h ty d a b => Sys2Proof.Machine.execDiv h ty d a b s
  | .rem h ty d a b => Sys2Proof.Machine.execRem h ty d a b s
  | .min h ty d a b => Sys2Proof.Machine.execMin h ty d a b s
  | .max h ty d a b => Sys2Proof.Machine.execMax h ty d a b s
  | .and h d a b => Sys2Proof.Machine.execAnd h d a b s
  | .andi h d a imm0 => Sys2Proof.Machine.execAndi h d a imm0 s
  | .or h d a b => Sys2Proof.Machine.execOr h d a b s
  | .ori h d a imm0 => Sys2Proof.Machine.execOri h d a imm0 s
  | .xor h d a b => Sys2Proof.Machine.execXor h d a b s
  | .xori h d a imm0 => Sys2Proof.Machine.execXori h d a imm0 s
  | .andn h d a b => Sys2Proof.Machine.execAndn h d a b s
  | .shl h d a b => Sys2Proof.Machine.execShl h d a b s
  | .shli h d a imm0 => Sys2Proof.Machine.execShli h d a imm0 s
  | .shr h d a b => Sys2Proof.Machine.execShr h d a b s
  | .shri h d a imm0 => Sys2Proof.Machine.execShri h d a imm0 s
  | .sar h d a b => Sys2Proof.Machine.execSar h d a b s
  | .sari h d a imm0 => Sys2Proof.Machine.execSari h d a imm0 s
  | .rot h d a b => Sys2Proof.Machine.execRot h d a b s
  | .roti h d a imm0 => Sys2Proof.Machine.execRoti h d a imm0 s
  | .clz h d a => Sys2Proof.Machine.execClz h d a s
  | .ctz h d a => Sys2Proof.Machine.execCtz h d a s
  | .popc h d a => Sys2Proof.Machine.execPopc h d a s
  | .brev h d a => Sys2Proof.Machine.execBrev h d a s
  | .bswap h d a => Sys2Proof.Machine.execBswap h d a s
  | .ext h sg d a imm0 => Sys2Proof.Machine.execExt h sg d a imm0 s
  | .bfx h sg d a imm0 => Sys2Proof.Machine.execBfx h sg d a imm0 s
  | .bfi h d a b imm0 => Sys2Proof.Machine.execBfi h d a b imm0 s
  | .crc h k d a b => Sys2Proof.Machine.execCrc h k d a b s
  | .hash h d a b => Sys2Proof.Machine.execHash h d a b s
  | .li h d imm0 => Sys2Proof.Machine.execLi h d imm0 s
  | .lih h d a imm0 => Sys2Proof.Machine.execLih h d a imm0 s
  | .lea h d m => Sys2Proof.Machine.execLea h d m s
  | .mov h d a => Sys2Proof.Machine.execMov h d a s
  | .sel h d a b c => Sys2Proof.Machine.execSel h d a b c s
  | .cmp h cond ty d a b => Sys2Proof.Machine.execCmp h cond ty d a b s
  | .cmpi h cond ty d a imm0 => Sys2Proof.Machine.execCmpi h cond ty d a imm0 s
  | .plog h tt d a b => Sys2Proof.Machine.execPlog h tt d a b s
  | .pmov h d a => Sys2Proof.Machine.execPmov h d a s
  | .pmovToGeneral h d a => Sys2Proof.Machine.execPmovToGeneral h d a s
  | .pmovGet h d => Sys2Proof.Machine.execPmovGet h d s
  | .pmovSet h a => Sys2Proof.Machine.execPmovSet h a s
  | .br h imm0 => Sys2Proof.Machine.execBr h imm0 s
  | .call h imm0 => Sys2Proof.Machine.execCall h imm0 s
  | .ret h a => Sys2Proof.Machine.execRet h a s
  | .jmp h a imm0 => Sys2Proof.Machine.execJmp h a imm0 s
  | .callr h a => Sys2Proof.Machine.execCallr h a s
  | .mfs h r d => Sys2Proof.Machine.execMfs h r d s
  | .mts h r a => Sys2Proof.Machine.execMts h r a s
  | .rseedWrite h a => Sys2Proof.Machine.execRseedWrite h a s
  | .fflagsWrite h a => Sys2Proof.Machine.execFflagsWrite h a s
  | .ringbWrite h a => Sys2Proof.Machine.execRingbWrite h a s
  | .ringlWrite h a => Sys2Proof.Machine.execRinglWrite h a s
  | .tdescWrite h t a => Sys2Proof.Machine.execTdescWrite h t a s
  | .trap h imm0 => Sys2Proof.Machine.execTrap h imm0 s
  | .brk h imm0 => Sys2Proof.Machine.execBrk h imm0 s
  | .tret h a => Sys2Proof.Machine.execTret h a s
  | .fadd h f rnd d a b => Sys2Proof.Machine.execFadd h f rnd d a b s
  | .fsub h f rnd d a b => Sys2Proof.Machine.execFsub h f rnd d a b s
  | .fmul h f rnd d a b => Sys2Proof.Machine.execFmul h f rnd d a b s
  | .ffma h f rnd d a b c => Sys2Proof.Machine.execFfma h f rnd d a b c s
  | .fdiv h f rnd d a b => Sys2Proof.Machine.execFdiv h f rnd d a b s
  | .fsqrt h f rnd d a => Sys2Proof.Machine.execFsqrt h f rnd d a s
  | .fmin h f d a b => Sys2Proof.Machine.execFmin h f d a b s
  | .fmax h f d a b => Sys2Proof.Machine.execFmax h f d a b s
  | .fcmp h cond f d a b => Sys2Proof.Machine.execFcmp h cond f d a b s
  | .fcvt h k rnd d a => Sys2Proof.Machine.execFcvt h k rnd d a s
  | .fsgn h op f d a b => Sys2Proof.Machine.execFsgn h op f d a b s
  | .fclass h f d a => Sys2Proof.Machine.execFclass h f d a s
  | .fround h f rnd d a => Sys2Proof.Machine.execFround h f rnd d a s
  | .ld h ty d m => Sys2Proof.Machine.execLd h ty d m s
  | .st h ty m c => Sys2Proof.Machine.execSt h ty m c s
  | .ldc h ty d m => Sys2Proof.Machine.execLdc h ty d m s
  | .amo h op ty d m c => Sys2Proof.Machine.execAmo h op ty d m c s
  | .cas h ty d a imm0 b c => Sys2Proof.Machine.execCas h ty d a imm0 b c s
  | .ldfe h ty keep d m => Sys2Proof.Machine.execLdfe h ty keep d m s
  | .stfe h ty ovr m c => Sys2Proof.Machine.execStfe h ty ovr m c s
  | .feset h full m => Sys2Proof.Machine.execFeset h full m s
  | .feqry h d m => Sys2Proof.Machine.execFeqry h d m s
  | .waita h cond ty d m c => Sys2Proof.Machine.execWaita h cond ty d m c s
  | .fence h sc => Sys2Proof.Machine.execFence h sc s
  | .touch h d m => Sys2Proof.Machine.execTouch h d m s
  | .lease h rights d a imm0 b => Sys2Proof.Machine.execLease h rights d a imm0 b s
  | .pref h llc m => Sys2Proof.Machine.execPref h llc m s
  | .msg h a c imm0 => Sys2Proof.Machine.execMsg h a c imm0 s
  | .wait h d imm0 => Sys2Proof.Machine.execWait h d imm0 s
  | .waitWk h d imm0 => Sys2Proof.Machine.execWaitWk h d imm0 s
  | .wake h a => Sys2Proof.Machine.execWake h a s
  | .bankcfg h mode d a => Sys2Proof.Machine.execBankcfg h mode d a s
  | .ramo h op wk ty d a b imm0 c => Sys2Proof.Machine.execRamo h op wk ty d a b imm0 c s
  | .rst h wk ty a b imm0 c => Sys2Proof.Machine.execRst h wk ty a b imm0 c s
  | .rld h ty d a b imm0 => Sys2Proof.Machine.execRld h ty d a b imm0 s
  | .vld v ty d a imm0 => Sys2Proof.Machine.execVld v ty d a imm0 s
  | .vst v ty d a imm0 => Sys2Proof.Machine.execVst v ty d a imm0 s
  | .vlds v ty d a b imm0 => Sys2Proof.Machine.execVlds v ty d a b imm0 s
  | .vsts v ty d a b imm0 => Sys2Proof.Machine.execVsts v ty d a b imm0 s
  | .vldc v ty d a imm0 => Sys2Proof.Machine.execVldc v ty d a imm0 s
  | .vgth v ty sc d a b imm0 => Sys2Proof.Machine.execVgth v ty sc d a b imm0 s
  | .vsct v ty sc d a b imm0 => Sys2Proof.Machine.execVsct v ty sc d a b imm0 s
  | .vrst v wk ty d a b imm0 => Sys2Proof.Machine.execVrst v wk ty d a b imm0 s
  | .vamo v op ty sc d a b imm0 => Sys2Proof.Machine.execVamo v op ty sc d a b imm0 s
  | .vadd v lt sat rnd d a b => Sys2Proof.Machine.execVadd v lt sat rnd d a b s
  | .vsub v lt sat rnd d a b => Sys2Proof.Machine.execVsub v lt sat rnd d a b s
  | .vmul v lt sat rnd d a b => Sys2Proof.Machine.execVmul v lt sat rnd d a b s
  | .vfma v lt neg sat rnd d a b => Sys2Proof.Machine.execVfma v lt neg sat rnd d a b s
  | .vdot v pf sat rnd d a b => Sys2Proof.Machine.execVdot v pf sat rnd d a b s
  | .vdiv v lt rnd d a b => Sys2Proof.Machine.execVdiv v lt rnd d a b s
  | .vsqrt v rnd d a => Sys2Proof.Machine.execVsqrt v rnd d a s
  | .vmin v lt d a b => Sys2Proof.Machine.execVmin v lt d a b s
  | .vmax v lt d a b => Sys2Proof.Machine.execVmax v lt d a b s
  | .vabs v lt sat d a => Sys2Proof.Machine.execVabs v lt sat d a s
  | .vneg v lt sat d a => Sys2Proof.Machine.execVneg v lt sat d a s
  | .vsgn v op d a b => Sys2Proof.Machine.execVsgn v op d a b s
  | .vand v d a b => Sys2Proof.Machine.execVand v d a b s
  | .vor v d a b => Sys2Proof.Machine.execVor v d a b s
  | .vxor v d a b => Sys2Proof.Machine.execVxor v d a b s
  | .vshl v d a b => Sys2Proof.Machine.execVshl v d a b s
  | .vshr v d a b => Sys2Proof.Machine.execVshr v d a b s
  | .vsar v d a b => Sys2Proof.Machine.execVsar v d a b s
  | .vcnt v op d a => Sys2Proof.Machine.execVcnt v op d a s
  | .vcmp v cond d a b => Sys2Proof.Machine.execVcmp v cond d a b s
  | .vsel h d a b c => Sys2Proof.Machine.execVsel h d a b c s
  | .vmsk h tt d a b => Sys2Proof.Machine.execVmsk h tt d a b s
  | .vmskCnt h d a => Sys2Proof.Machine.execVmskCnt h d a s
  | .vmskFfs h d a => Sys2Proof.Machine.execVmskFfs h d a s
  | .vmskFirst h d b => Sys2Proof.Machine.execVmskFirst h d b s
  | .vcvt v dst src rnd d a => Sys2Proof.Machine.execVcvt v dst src rnd d a s
  | .vsat v sg ty d a => Sys2Proof.Machine.execVsat v sg ty d a s
  | .vpack v ty rnd d a => Sys2Proof.Machine.execVpack v ty rnd d a s
  | .vunpk v d a => Sys2Proof.Machine.execVunpk v d a s
  | .vperm v d a b => Sys2Proof.Machine.execVperm v d a b s
  | .vshf v d a b imm0 => Sys2Proof.Machine.execVshf v d a b imm0 s
  | .vbcast v d a => Sys2Proof.Machine.execVbcast v d a s
  | .vins v d a b imm0 => Sys2Proof.Machine.execVins v d a b imm0 s
  | .vext h sg d a b imm0 => Sys2Proof.Machine.execVext h sg d a b imm0 s
  | .vidx v d a imm0 => Sys2Proof.Machine.execVidx v d a imm0 s
  | .vmov v d a => Sys2Proof.Machine.execVmov v d a s
  | .vred v op lt sat rnd d a => Sys2Proof.Machine.execVred v op lt sat rnd d a s
  | .vscan v op lt sat rnd d a => Sys2Proof.Machine.execVscan v op lt sat rnd d a s
  | .vrcp v rnd d a => Sys2Proof.Machine.execVrcp v rnd d a s
  | .vrsq v rnd d a => Sys2Proof.Machine.execVrsq v rnd d a s
  | .vexp2 v rnd d a => Sys2Proof.Machine.execVexp2 v rnd d a s
  | .vlog2 v rnd d a => Sys2Proof.Machine.execVlog2 v rnd d a s
  | .tld h seg d a imm0 b c => Sys2Proof.Machine.execTld h seg d a imm0 b c s
  | .tst h seg d a imm0 b c => Sys2Proof.Machine.execTst h seg d a imm0 b c s
  | .tzero h d => Sys2Proof.Machine.execTzero h d s
  | .tmov h d a => Sys2Proof.Machine.execTmov h d a s
  | .tfill h d a imm0 => Sys2Proof.Machine.execTfill h d a imm0 s
  | .mma h op => Sys2Proof.Machine.execMma h op s
  | .mmaq h f nt op => Sys2Proof.Machine.execMmaq h f nt op s
  | .mwait h => Sys2Proof.Machine.execMwait h s
  | .mwaitF h d f => Sys2Proof.Machine.execMwaitF h d f s
  | .azero h d => Sys2Proof.Machine.execAzero h d s
  | .aload h d a imm0 b => Sys2Proof.Machine.execAload h d a imm0 b s
  | .aread h d a imm0 b => Sys2Proof.Machine.execAread h d a imm0 b s
  | .acvt h rnd d a => Sys2Proof.Machine.execAcvt h rnd d a s
  | .adrain h rnd f za doff d a b c => Sys2Proof.Machine.execAdrain h rnd f za doff d a b c s
  | .ared h op lt rnd d a => Sys2Proof.Machine.execAred h op lt rnd d a s
  | .ascal h int rnd d imm0 => Sys2Proof.Machine.execAscal h int rnd d imm0 s
  | .xpush h w0 value d a b c => Sys2Proof.Machine.execXpush h w0 value d a b c s
  | .xpushb h w0 value d a b c => Sys2Proof.Machine.execXpushb h w0 value d a b c s
  | .xlay h a id => Sys2Proof.Machine.execXlay h a id s
  | .xseal h d => Sys2Proof.Machine.execXseal h d s
  | .xwait h vis d imm0 => Sys2Proof.Machine.execXwait h vis d imm0 s
  | .xstat h d a => Sys2Proof.Machine.execXstat h d a s
  | .xstatSum h d => Sys2Proof.Machine.execXstatSum h d s
  | .xstatP h d a => Sys2Proof.Machine.execXstatP h d a s
  | .xcan h batch d a => Sys2Proof.Machine.execXcan h batch d a s
  | .xres h a => Sys2Proof.Machine.execXres h a s
  | .spawn h narg cdl join noin d a b => Sys2Proof.Machine.execSpawn h narg cdl join noin d a b s
  | .dec h a imm0 => Sys2Proof.Machine.execDec h a imm0 s
  | .rpush h a b c => Sys2Proof.Machine.execRpush h a b c s
  | .rpop h d c => Sys2Proof.Machine.execRpop h d c s
  | .cnew h home rstrt hi d a imm0 b c => Sys2Proof.Machine.execCnew h home rstrt hi d a imm0 b c s
  | .cend h a imm0 => Sys2Proof.Machine.execCend h a imm0 s
  | .tend h => Sys2Proof.Machine.execTend h s
  | .tprio h hi => Sys2Proof.Machine.execTprio h hi s
  | .nest h minch a b c => Sys2Proof.Machine.execNest h minch a b c s
  | .next h d imm0 => Sys2Proof.Machine.execNext h d imm0 s
  | .bar h sc id b => Sys2Proof.Machine.execBar h sc id b s
  | .barq h sc id d b => Sys2Proof.Machine.execBarq h sc id d b s
  | .poll h sc id d a => Sys2Proof.Machine.execPoll h sc id d a s
  | .qcfgBind h q a imm0 => Sys2Proof.Machine.execQcfgBind h q a imm0 s
  | .qcfgUnbind h q imm0 => Sys2Proof.Machine.execQcfgUnbind h q imm0 s
  | .qsts h d q => Sys2Proof.Machine.execQsts h d q s
  | .place h dx dy d a => Sys2Proof.Machine.execPlace h dx dy d a s
  | .placeLin h d a => Sys2Proof.Machine.execPlaceLin h d a s
  | .placeQuay h d a => Sys2Proof.Machine.execPlaceQuay h d a s
  | .gang h d a => Sys2Proof.Machine.execGang h d a s
  | .chk h a => Sys2Proof.Machine.execChk h a s
  | .anew h pl d a imm0 => Sys2Proof.Machine.execAnew h pl d a imm0 s
  | .ahand h d a b => Sys2Proof.Machine.execAhand h d a b s
  | .aend h d a => Sys2Proof.Machine.execAend h d a s
  | .aqry h d a => Sys2Proof.Machine.execAqry h d a s
  | .wpresAdd h d a => Sys2Proof.Machine.execWpresAdd h d a s
  | .wpresChild h d a b => Sys2Proof.Machine.execWpresChild h d a b s
  | .wsplit h cls d a b c => Sys2Proof.Machine.execWsplit h cls d a b c s
  | .wdeleg h cls d a b c => Sys2Proof.Machine.execWdeleg h cls d a b c s
  | .wsurr h d a => Sys2Proof.Machine.execWsurr h d a s
  | .wqry h sel d a => Sys2Proof.Machine.execWqry h sel d a s
  | .tnow h d => Sys2Proof.Machine.execTnow h d s
  | .attest h d a b => Sys2Proof.Machine.execAttest h d a b s
  | .klease h d a => Sys2Proof.Machine.execKlease h d a s
  | .bankModeSwitch quad => Sys2Proof.Machine.execBankModeSwitch quad s
  | .adrainPush core => Sys2Proof.Machine.execAdrainPush core s
  | .slabCompletion core => Sys2Proof.Machine.execSlabCompletion core s
  | .lateTrapDelivery slot => Sys2Proof.Machine.execLateTrapDelivery slot s
  | .followOnMmaStart core f => Sys2Proof.Machine.execFollowOnMmaStart core f s
  | .copy core cnum units => Sys2Proof.Machine.execCopy core cnum units s
  | .copyNd core cnum units => Sys2Proof.Machine.execCopyNd core cnum units s
  | .gather core cnum units => Sys2Proof.Machine.execGather core cnum units s
  | .scatter core cnum units => Sys2Proof.Machine.execScatter core cnum units s
  | .reduceAdd core cnum units => Sys2Proof.Machine.execReduceAdd core cnum units s
  | .fill core cnum units => Sys2Proof.Machine.execFill core cnum units s
  | .xhand slot => Sys2Proof.Machine.execXhand slot s
  | .src core cnum => Sys2Proof.Machine.execSrc core cnum s
  | .vis core cnum => Sys2Proof.Machine.execVis core cnum s
  | .commandEnd core cnum => Sys2Proof.Machine.execCommandEnd core cnum s
  | .slotDispatch core => Sys2Proof.Machine.execSlotDispatch core s
  | .waitLimit slot => Sys2Proof.Machine.execWaitLimit slot s
  | .deadlockSnapshot owner => Sys2Proof.Machine.execDeadlockSnapshot owner s
  | .logicalTimeTick core => Sys2Proof.Machine.execLogicalTimeTick core s
  | .expiryNotice owner => Sys2Proof.Machine.execExpiryNotice owner s
  | .termExpired owner => Sys2Proof.Machine.execTermExpired owner s
  | .termKeylease owner => Sys2Proof.Machine.execTermKeylease owner s
  | .sliceEnd owner => Sys2Proof.Machine.execSliceEnd owner s
  | .harbourSwap owner => Sys2Proof.Machine.execHarbourSwap owner s
  | .contextRestore owner => Sys2Proof.Machine.execContextRestore owner s
  | .pageMigration page pkg => Sys2Proof.Machine.execPageMigration page pkg s
  | .migrationComplete page => Sys2Proof.Machine.execMigrationComplete page s
  | .biasRequest page host => Sys2Proof.Machine.execBiasRequest page host s
  | .biasFlipStart page => Sys2Proof.Machine.execBiasFlipStart page s
  | .counterClear => Sys2Proof.Machine.execCounterClear s
  | .clockSave => Sys2Proof.Machine.execClockSave s
  | .slewEnd => Sys2Proof.Machine.execSlewEnd s
  | .portRecovery port => Sys2Proof.Machine.execPortRecovery port s
  | .stackIdleEnd stack => Sys2Proof.Machine.execStackIdleEnd stack s
  | .restoreElsewhere owner col row => Sys2Proof.Machine.execRestoreElsewhere owner col row s
  | .harbourScrub stack row uncorrectable => Sys2Proof.Machine.execHarbourScrub stack row uncorrectable s
  | .present tag warrant image holderKey proof => Sys2Proof.Machine.execPresent tag warrant image holderKey proof s
  | .time tag token => Sys2Proof.Machine.execTime tag token s
  | .floor tag order => Sys2Proof.Machine.execFloor tag order s
  | .launch tag serial holderKey proof => Sys2Proof.Machine.execLaunch tag serial holderKey proof s
  | .move tag order fits => Sys2Proof.Machine.execMove tag order fits s
  | .moveStop owner => Sys2Proof.Machine.execMoveStop owner s
  | .moveSwitch owner => Sys2Proof.Machine.execMoveSwitch owner s
  | .pull owner page => Sys2Proof.Machine.execPull owner page s
  | .pullTimeout owner page => Sys2Proof.Machine.execPullTimeout owner page s
  | .test tag package sig quads => Sys2Proof.Machine.execTest tag package sig quads s
  | .claim serial domain chip nonce => Sys2Proof.Machine.execClaim serial domain chip nonce s
  | .claimAnswer nonce accept => Sys2Proof.Machine.execClaimAnswer nonce accept s
  | .claimTimeout nonce => Sys2Proof.Machine.execClaimTimeout nonce s
  | .withdrawal serial domain chip => Sys2Proof.Machine.execWithdrawal serial domain chip s
  | .endNotice serial domain chip code => Sys2Proof.Machine.execEndNotice serial domain chip code s
  | .moveNotice serial domain source target => Sys2Proof.Machine.execMoveNotice serial domain source target s
  | .homeConfirmation serial domain => Sys2Proof.Machine.execHomeConfirmation serial domain s
  | .hostAccess requester addr write data => Sys2Proof.Machine.execHostAccess requester addr write data s
  | .biasFlipComplete page back => Sys2Proof.Machine.execBiasFlipComplete page back s
  | .backInvalidationTimeout page dirty => Sys2Proof.Machine.execBackInvalidationTimeout page dirty s
  | .patrolScrub addr => Sys2Proof.Machine.execPatrolScrub addr s
  | .hostLinkDown dirty => Sys2Proof.Machine.execHostLinkDown dirty s
  | .tdispRequest owner state => Sys2Proof.Machine.execTdispRequest owner state s
  | .telemetryReport port margin rate replays loss => Sys2Proof.Machine.execTelemetryReport port margin rate replays loss s
  | .laneFail port => Sys2Proof.Machine.execLaneFail port s
  | .portDown port => Sys2Proof.Machine.execPortDown port s
  | .portTraining port partner => Sys2Proof.Machine.execPortTraining port partner s
  | .rekey port => Sys2Proof.Machine.execRekey port s
  | .noRoute owner => Sys2Proof.Machine.execNoRoute owner s
  | .regulatorReport domain vout iout treg eff flux => Sys2Proof.Machine.execRegulatorReport domain vout iout treg eff flux s
  | .dutyDrop domain d => Sys2Proof.Machine.execDutyDrop domain d s
  | .dutyRise domain => Sys2Proof.Machine.execDutyRise domain s
  | .thermalTrip domain => Sys2Proof.Machine.execThermalTrip domain s
  | .marginReplan margins => Sys2Proof.Machine.execMarginReplan margins s
  | .testEnd quad pass => Sys2Proof.Machine.execTestEnd quad pass s
  | .powerUp passed => Sys2Proof.Machine.execPowerUp passed s
  | .powerLoss => Sys2Proof.Machine.execPowerLoss s
  | .orderlyPowerDown => Sys2Proof.Machine.execOrderlyPowerDown s
  | .recoveryFirmware version image sig => Sys2Proof.Machine.execRecoveryFirmware version image sig s
  | .operatorKeyTable auth index key => Sys2Proof.Machine.execOperatorKeyTable auth index key s
  | .domainsAndMemberLists auth domain members => Sys2Proof.Machine.execDomainsAndMemberLists auth domain members s
  | .podn auth n => Sys2Proof.Machine.execPodn auth n s
  | .hostFacingCxlPort auth port => Sys2Proof.Machine.execHostFacingCxlPort auth port s
  | .migrationThreshold auth n => Sys2Proof.Machine.execMigrationThreshold auth n s
  | .fluxCaps auth domain cap => Sys2Proof.Machine.execFluxCaps auth domain cap s
  | .portThresholds auth margin rate => Sys2Proof.Machine.execPortThresholds auth margin rate s
  | .debugGateRequest open_ => Sys2Proof.Machine.execDebugGateRequest open_ s

end Sys2Proof.Machine
end

