-- ==== Sys2Proof/Machine/Upsets.lean ====
section
/-! DEFINITION. What an error does to the storage it strikes (R381, R385 to R389, R396), and the copies and LLC lines that go of themselves
(R263, R332). -/

namespace Sys2Proof.Machine

/-- An uncorrectable word on a die, by its owner and unit: it counts, and goes to the black box (R389, R396, R399). -/
def onDie (s : State) (o unit key : Nat) : State :=
  boxAdd (s.modCtx o fun c => { c with counts := { c.counts with sunc := c.counts.sunc + 1 } }) 0x11 o unit (leBytes 8 key)

/-- The 32-byte sector of a word is poisoned (R389). -/
def poisonSector (s : State) (key : Nat) : State := setPoison s (key / 32 * 32) (List.replicate 32 true)

/-- Whether a context of an owner has the slot, core or quad of a key. -/
def stands (s : State) (k : Nat) : Bool := (s.ctxs.find? (ownerOf k)).isSome && s.granted k

/-- More damaged symbols of a codeword: it has at most 36 (R385). -/
def strike (t : Tab Nat) (n symbols : Nat) : Tab Nat := t.set 0 n (Nat.min 36 (t.get 0 n + symbols))

/-- What an error does (R381, R385 to R389, R395): one that no owner tag attributes is counted to no owner (R396) (DESIGN CHOICE log 79). -/
def strikeAt (s : State) : Config.Upset → State
  | .sector n m => if holderOf s (n * 32) = 0 || onlyLlc s (n / 4) then s else { s with damage := strike s.damage n m }
  | .mapRow n m => { s with mapDamage := strike s.mapDamage n m }
  | .overflowRow n m => { s with overDamage := strike s.overDamage n m }
  | .mapEntry n => if holderOf s (n * 32) = 0 || onlyLlc s (n / 4) then s else { s with sectorMap := s.sectorMap.put n 3 }
  | .word key =>
    if isScratchKey key then
      if stands s ((key - 2 ^ 56) / 2 ^ 22) then
        onDie (poisonSector s key) (keyOwner s key) (unitNo s ((key - 2 ^ 56) / 2 ^ 22)) key
      else s
    else if ((s.llc.find? (key / 128)).any fun l => l.held.getLsbD (key % 128)) then
      onDie (poisonSector s key) (keyOwner s key) (8 + homeSlice s (key / 128) / 32) key
    else s
  | .line n =>
    if (s.llc.find? n).isSome then
      onDie (setPoison s (n * 128) (List.replicate 128 true)) (keyOwner s (n * 128)) (8 + homeSlice s n / 32) (n * 128)
    else s
  | .register k n =>
    if stands s k && n != 0 then onDie (s.modSlot k fun x => { x with bad := x.bad.put n true }) (ownerOf k) (unitNo s k) k else s
  | .descriptor core t =>
    if stands s core then
      onDie (s.modCore core fun c => { c with descBad := c.descBad.put (t % 8) true }) (ownerOf core) (unitNo s core) core
    else s
  | .tile core n =>
    if stands s core then
      onDie (s.modCore core fun c => { c with tilePoison := c.tilePoison.put n true }) (ownerOf core) (unitNo s core) core
    else s
  | .acc core n =>
    if stands s core then onDie (s.modCore core fun c => { c with accBad := c.accBad.put n true }) (ownerOf core) (unitNo s core) core else s
  | .queue core q pos =>
    let es := qEntries s core q
    if stands s core && pos < es.length then
      onDie (qSet s core q es ((List.range es.length).map fun i => i == pos || (qBad s core q).getD i false)) (ownerOf core)
        (unitNo s core) core
    else s
  | .corrected o =>
    if (s.ctxs.find? o).isSome then s.modCtx o fun c => { c with counts := { c.counts with scor := c.counts.scor + 1 } } else s
  | .image o =>
    if (s.ctx o).phase = .swapped then onDie (s.modCtx o fun c => { c with badImage := true }) o (physStack s (slotKey o 0)) 0 else s
  | .wayWord q ln off =>
    match (s.quad q).ways.find? ln with
    | none => s
    | some cp =>
      let bad := cp.poison.zipIdx.map fun e => e.1 || e.2 / 32 == off % 128 / 32
      onDie (s.modQuad q fun x => { x with ways := x.ways.put ln { cp with poison := bad } }) cp.owner (unitNo s q) (ln * 128 + off % 128)
  | .packet k pos =>
    if pos < (s.slot k).inbox.length then
      s.modSlot k fun x => { x with inboxBad := (List.range x.inbox.length).map fun i => i == pos || x.inboxBad.getD i false }
    else s
  | .result core =>
    match (s.core core).slabQ with
    | o :: rest =>
      if checkedCtx s (ownerOf core) then s.modCore core fun c => { c with slabQ := { o with upset := true } :: rest } else s
    | [] => s
  | .fabric above => { s with ctxs := s.ctxs.map fun e => (e.1, { e.2 with counts := { e.2.counts with degFabric := above } }) }

/-- The error of a cycle. -/
def upsets (s : State) : State :=
  let (f, s1) := s.tick
  match Config.upset f with
  | some u => strikeAt s1 u
  | none => s1

/-- One line of a table, as a free value chooses. -/
def someLine {α : Type} (f : Nat) (t : Tab α) : Option Nat := t[Config.freeChoice f % t.length]?.map (·.1)

/-- Whether a vector store may be part way through a poisoned sector of a line: it repairs the sector as one, so the line stays in the LLC
till the store is over (R382) (DEDUCED log 110). -/
def repairing (s : State) (ln : Nat) : Bool :=
  (s.cores.any fun e => e.2.slabQ.head?.any fun o => 0 < o.done) &&
    (List.range 4).any fun i => (poisoned s (ln * 128 + i * 32) 32).any id && !(poisoned s (ln * 128 + i * 32) 32).all id

/-- A copy that a core or the cache ways of a quad hold goes, and a line leaves the LLC, where a free value has it: neither changes a
result (R263, R332, DESIGN CHOICE log 1). -/
def cacheProgress (s : State) : State :=
  let (f, s1) := s.tick
  if !Config.freeKeep f then s1
  else
    let less {α : Type} (t : Tab α) : Tab α := match someLine f t with
      | some ln => t.erase ln
      | none => t
    let s2 := { s1 with
      cores := s1.cores.map fun e => (e.1, { e.2 with copies := less e.2.copies, ccopies := less e.2.ccopies })
      quads := s1.quads.map fun e => (e.1, { e.2 with ways := less e.2.ways, ccopies := less e.2.ccopies })
      stackCopies := less s1.stackCopies }
    match someLine f s2.llc with
    | some ln => if repairing s2 ln then s2 else evictLine s2 ln
    | none => s2

/-- Cells whose fence is closed are reset when a free value says so (R391, DESIGN CHOICE log 39). -/
def cellProgress (s : State) : State :=
  (s.ctxs.flatMap fun e => e.2.closed.map fun x => (e.1, x)).foldl (fun s e =>
    let (f, s1) := s.tick
    if Config.freeKeep f then openCell s1 e.1 e.2 else s1) s

end Sys2Proof.Machine
end

