-- ==== Sys2Proof/Machine/Run.lean ====
section
/-! DEFINITION. How the package goes on: the events that arrive, the parties that act in a core cycle, the issue scan and the fetch of an
instruction, and the passing of a cycle (R88 to R96, R260, R272 to R275, R282, R286, R310 to R312, R316, R365; DESIGN CHOICE log 5). -/

namespace Sys2Proof.Machine

/-! ### Fetch (R88 to R91, R95) -/

/-- Step over fill words from an address; a fetch block that may not be fetched traps PROT at its address (R89, R91, R95). -/
def skipFill (s : State) (k : Nat) : Nat → Word → Except (Word × Trap) Word
  | 0, pc => if fetchOk s k pc then .ok pc else .error (pc, ⟨.prot, pc, 0⟩)
  | n + 1, pc =>
    if !fetchOk s k pc then .error (pc, ⟨.prot, pc, 0⟩)
    else if leNat 4 (blockBytes s pc 4) = 3 then skipFill s k n (pc + 4)
    else .ok pc

/-- Whether an instruction of `n` bytes crosses a fetch boundary (R90). -/
def crosses (pc : Word) (n : Nat) : Bool := pc.toNat / 32 != (pc.toNat + n - 1) / 32

/-- What the fetch at a slot's pc gives: the address of the next word that is no fill, and its instruction or the trap. -/
inductive Fetched where
  | instr (pc : Word) (i : Instr)
  | fill (pc : Word)
  | trap (pc : Word) (t : Trap)
  deriving DecidableEq, Repr

/-- The fetch and the decode of R95; a long run of fill words goes on in the next cycle (DEDUCED log 15). -/
def fetch (s : State) (k : Nat) : Fetched :=
  match skipFill s k 9 (s.slot k).pc with
  | .error (pc, t) => .trap pc t
  | .ok pc =>
    if leNat 4 (blockBytes s pc 4) = 3 then .fill pc
    else match decodeBytes (blockBytes s pc 16) with
      | .error _ => .trap pc ⟨.illegal, 0, 0⟩
      | .ok (i, n) => if crosses pc n then .trap pc ⟨.illegal, 0, 0⟩ else .instr pc i

/-! ### The issue scan (R272, R273) -/

/-- Whether a slot is ready (R273): it runs, is within no latency, and waits for nothing that does not hold, its partner in a pair
included. -/
def slotReady (s : State) (k : Nat) : Bool :=
  let x := s.slot k
  x.running && x.ready ≤ s.cycle && x.offer.isNone && (x.blk.all fun b => satisfied s k b) && !switchOpen s k

/-- The slots behind a pointer, in scan order. -/
def scanOrder (last n : Nat) : List Nat := (List.range n).map fun i => (last + 1 + i) % n

/-- The first ready slot of a core (R272). -/
def pickSlot (s : State) (core : Nat) : Option Nat :=
  if (s.ctx (ownerOf core)).phase = .running then
    (scanOrder (s.core core).last 16).map (core + ·) |>.find? fun k => s.granted k && slotReady s k
  else none

/-- The granted slots with an index on a physical quay core, of the contexts that run (R18, R272). -/
def quaySlots (s : State) (phys i : Nat) : List Nat :=
  (s.ctxs.filter fun e => e.2.phase == .running).flatMap fun e =>
    (e.2.quayNos.zipIdx.filter fun q => q.1 == phys && e.2.quays.contains (phys * 8 + i)).map fun q => quayKey e.1 q.2 + i

/-- The first ready slot of a physical quay core (R272). -/
def pickQuay (s : State) (phys : Nat) : Option Nat :=
  ((scanOrder (s.quayLast.get 7 phys) 8).flatMap (quaySlots s phys)).find? (slotReady s)

/-- The contexts that are resident: on their quads, running or in their drain, for which time goes on; behind its end it stands still, also
where the swap waits (R363, R367). -/
def residents (s : State) : List Nat := (s.ctxs.filter fun e => e.2.phase.onQuads && !e.2.spillWait).map (·.1)

/-! ### Parties (DESIGN CHOICE log 5) -/

/-- One of several: nothing is left to a free value where there is only one (DESIGN CHOICE log 1). -/
def choose {α : Type} (f : Nat) : List α → Option α
  | [] => none
  | [a] => some a
  | l => l[Config.freeChoice f % l.length]?

/-- The commands of a core with which its agent goes on: all while the context runs, and while it stops those for which a `bankcfg` in
progress waits, with the commands before them in the FIFO (R154, R359). -/
def agentCommands (s : State) (core : Nat) : List Cmd :=
  let l := (s.core core).fifo.cmds
  let awaited (c : Cmd) : Bool := (s.quadsOf (ownerOf core)).any fun q => (s.quad q).switches.any fun w => w.waitFor.contains (core, c.cnum)
  if (s.ctx (ownerOf core)).phase = .running then l else (l.reverse.dropWhile fun c => !awaited c).reverse

/-- The next event of a core's transfer agent: a free value chooses among its commands and how much of one runs (R204, R216, DESIGN CHOICE log 1). -/
def agentEvent (s : State) (core : Nat) : Option Instr × State :=
  let (f, s1) := s.tick
  let (g, s2) := s1.tick
  let able := (agentCommands s core).filter fun c => (nextEvent s core 1 c).isSome
  ((choose f able).bind fun c => nextEvent s core (1 + Config.freeChoice g % Nat.max 1 (c.units - c.done)) c, s2)

/-- What a step does: one event of the agenda or of a party, the instruction of a slot, work of the device itself, or nothing that may
still happen. -/
inductive Plan where
  | event (i : Instr) (s : State)
  | instr (i : Instr) (s : State)
  | internal (s : State)
  | stop
  deriving DecidableEq, Repr

/-- A party has acted. -/
def acted (s : State) (p : Party) : State := { s with pending := s.pending.erase p }

/-- LAST names the slot that issued (R272). -/
def setLast (s : State) (k : Nat) : State :=
  if isQuay k then { s with quayLast := s.quayLast.put (s.physQuay k) (slotNo k) }
  else if (s.ctxs.find? (ownerOf k)).isSome then s.modCore (coreOf k) fun c => { c with last := slotNo k }
  else s

/-- Whether an instruction waits for a delivery to the slot: in a cycle in which one is made, it is latched first (R147). -/
def awaitsDelivery (s : State) (k : Nat) (i : Instr) : Bool :=
  match i with
  | .wait .. => (s.slot k).inbox.isEmpty
  | .waitWk .. => !(s.slot k).wake
  | _ => false

/-- `gang` acts behind every dispatch and every acceptance of its cycle (R246). -/
def isGang : Instr → Bool
  | .gang .. => true
  | _ => false

/-- The page of code of a fetch in the PLB of the core (R91, R329). -/
def fetchFill (s : State) (k : Nat) (pc : Word) : State := plbFill s (coreOf k) (offsetOf pc) (ownerOf k) .global pc

/-- The issue of a slot: its fetch, and the instruction with the slot's pc at it; a failing fetch traps, and the slot has issued (R91, R95,
R272) (DESIGN CHOICE log 49). -/
def planIssue (s : State) (p : Party) (k : Nat) : Plan :=
  match fetch s k with
  | .instr pc i =>
    if (awaitsDelivery s k i || isGang i) && !s.latched.contains p && 1 < s.pending.length then .internal { s with latched := p :: s.latched }
    else .instr i { (fetchFill s k pc).modSlot k fun x => { x with pc } with cur := k }
  | .fill pc => .internal (holdSlot (s.modSlot k fun x => { x with pc }) k)
  | .trap pc t => .internal (acted (setLast (raise (s.modSlot k fun x => { x with pc }) k t) k) p)

/-- The slots of an issue party with a trap to take first. -/
def dueSlots (s : State) : Party → List Nat
  | .issue core => (slotsOf core).filter fun k => s.granted k && (pendNow s k).isSome
  | .quay phys => ((List.range 8).flatMap (quaySlots s phys)).filter fun k => (pendNow s k).isSome
  | _ => []

/-- What a party does in its turn. -/
def planParty (s : State) (p : Party) : Plan :=
  match dueSlots s p with
  | k :: _ => .internal (deliverPending s k)
  | [] =>
    match p with
    | .issue core => match pickSlot s core with
      | some k => planIssue s p k
      | none => .internal (acted s p)
    | .quay phys => match pickQuay s phys with
      | some k => planIssue s p k
      | none => .internal (acted s p)
    | .slab core => .event (.slabCompletion core) (acted s p)
    | .drain core => .event (.adrainPush core) (acted s p)
    | .engine core => match agentEvent s core with
      | (some i, t) => .event i (acted t p)
      | (none, t) => .internal (acted t p)
    | .dispatch core => .event (.slotDispatch core) (acted s p)
    | .banks quad => .event (.bankModeSwitch quad) (acted s p)
    | .admission => .internal (acted (admissionStep s) p)

/-- Whether a party is the dispatch stage, which gives way to a spawn of the same cycle (R282). -/
def Party.isDispatch : Party → Bool
  | .dispatch _ => true
  | _ => false

/-- Whether the slot that an issue party picks now stands at a `gang`. -/
def Party.atGang (s : State) : Party → Bool
  | .issue core => (pickSlot s core).any fun k => match fetch s k with
    | .instr _ i => isGang i
    | _ => false
  | _ => false

/-- The parties among which a free value chooses the next (DESIGN CHOICE log 1): those whose slot reads its inbox or latch act behind the
deliveries of the cycle (R147), a `gang` behind them (R246), the dispatch stages last. -/
def turns (s : State) : List Party :=
  let issues := s.pending.filter fun p => !p.isDispatch
  let first := issues.filter fun p => !s.latched.contains p
  let second := issues.filter fun p => !p.atGang s
  if !first.isEmpty then first else if !second.isEmpty then second else if !issues.isEmpty then issues else s.pending

/-! ### The passing of a cycle -/

/-- Whether the quad of a core runs for its context: it is not held idle, and no other context is still on it (R316, R417). -/
def quadFree (s : State) (o core : Nat) : Bool :=
  isQuay core ||
    let p := s.physQuad (quadOf core)
    quadAlive s p && !(s.ctxs.any fun e => e.1 != o && e.2.phase.onQuads && (quadsHeld s e.1).contains p)

/-- The parties that act in a new cycle: those of domains whose clock passes the pulse (R415). -/
def parties (s : State) : List Party :=
  let ctx (o : Nat) : List Party :=
    let cores := (s.coresOf o).filter fun c => passes s (domainOf s c) && quadFree s o c
    let runs := (s.ctx o).phase == .running
    (if runs then (cores.filter fun c => !isQuay c && (slotsOf c).any fun k => (s.slot k).running).map Party.issue else []) ++
      (cores.filter fun c => !(s.core c).slabQ.isEmpty).map Party.slab ++
      (cores.filter fun c => !(s.core c).drains.isEmpty).map Party.drain ++
      (cores.filter fun c => (agentCommands s c).any fun x => (nextEvent s c 1 x).isSome).map Party.engine ++
      (if runs then (cores.filter fun c => (ringNext (s.core c)).isSome && (idleSlot s c).isSome && !s.fenced c).map Party.dispatch else []) ++
      ((s.quadsOf o).filter fun q => !(s.quad q).switches.isEmpty && passes s (domainOf s q)).map Party.banks
  let quays := (s.ctxs.filter fun e => e.2.phase == .running).flatMap fun e =>
    (e.2.quayNos.zipIdx.filter fun q => (slotsOf (quayKey e.1 q.2)).any fun k => (s.slot k).running && passes s (domainOf s k)).map (·.1)
  (residents s).flatMap ctx ++ quays.dedup.map Party.quay ++
    if (s.pkg.waiting.isEmpty && (buildingCtx s).isNone) || !passes s 16 then [] else [.admission]

/-- One core cycle of a core (R37). -/
def CoreSt.cycleOn (c : CoreSt) : CoreSt := { c with cyc := c.cyc + 1, age := c.age + 1 }

/-- The cores whose clock passes the present pulse, of the contexts that are resident (R415). -/
def livePulse (s : State) : List Nat := ((residents s).flatMap s.coresOf).filter fun k => passes s (domainOf s k)

/-- The cores of resident contexts count a cycle. -/
def countCycles (s : State) : State := (livePulse s).foldl (fun s k => s.modCore k CoreSt.cycleOn) s

/-- What a slot, and a core's latches, wait for lies one pulse further (R416). -/
def Slot.later (x : Slot) : Slot := { x with ready := x.ready + 1, blk := x.blk.map fun b => { b with since := b.since + 1 } }
def CoreSt.later (c : CoreSt) : CoreSt := { c with latches := c.latches.map fun e => (e.1, { e.2 with until_ := e.2.until_ + 1 }) }

/-- A pulse that a domain suppresses is no core cycle of its dies: every latency and limit of its slots goes on behind it (R415, R416). -/
def suppressPulse (s : State) : State :=
  if fullDuty s then s
  else
    let stands (k : Nat) : Bool := (s.ctx (ownerOf k)).phase == .running && !passes s (domainOf s k)
    { s with
      slots := s.slots.map fun e => if stands e.1 then (e.1, e.2.later) else e
      cores := s.cores.map fun e => if stands e.1 then (e.1, e.2.later) else e
      pkg := { s.pkg with power := s.pkg.power.map fun e => (e.1, { e.2 with lost := if passes s e.1 then e.2.lost else e.2.lost + 1 }) } }

/-- The lighthouse clock one core cycle later (R4, R310, R311): while it slews it gains one microsecond in 1,000 (DESIGN CHOICE log 20). -/
def tickClock (p : Pkg) : Pkg :=
  if Config.cyclesPerMicro ≤ p.frac + 1 then
    { p with frac := 0, clock := p.clock + 1, slewFrac := if p.slew.isSome then p.slewFrac + 1 else p.slewFrac }
  else match p.slew with
    | some (n + 1) =>
      if 1000 ≤ p.slewFrac then { p with frac := p.frac + 1, clock := p.clock + 1, slewFrac := 0, slew := some n }
      else { p with frac := p.frac + 1 }
    | _ => { p with frac := p.frac + 1 }

/-- Events of every cycle: logical time and returns from the berths (R260, R316, R361, R365) (DESIGN CHOICE log 66). -/
def cycleEvents (s : State) : List Instr :=
  let ticks := ((livePulse s).filter fun k => (s.core k).cyc % 256 == 0).map Instr.logicalTimeTick
  let stops := (s.ctxs.filter fun e => e.2.phase == .stopping && drained s e.1).map fun e => Instr.harbourSwap e.1
  let waits := s.ctxs.filter fun e => e.2.waits
  let evicts := (waits.flatMap fun e => evictFirst s e.1).dedup.map Instr.harbourSwap
  let back := (waits.filter fun e => restorable s e.1).map fun e => Instr.contextRestore e.1
  ticks ++ stops ++ evicts ++ back

/-- Whether a snapshot of a context falls into this cycle: every 65,536 core cycles of the domain of its quad (0, 0) (R286, R416) (DESIGN CHOICE
log 92). -/
def snapshotDue (s : State) (o : Nat) : Bool :=
  let d := domainOf s (slotKey o 0)
  passes s d && domainCycle s d % 65536 == 0

/-- Events of the end of a cycle, when every step of it that could satisfy a wait has been made: the snapshots of the deadlock detector, then
the limits of waits (R144, R281, R285, R286, R288). -/
def endEvents (s : State) : List Instr :=
  let snaps := (s.ctxs.filter fun e => (e.2.phase.onQuads || e.2.phase == .swapped) && !e.2.gone && snapshotDue s e.1).map fun e =>
    Instr.deadlockSnapshot e.1
  let limits := (s.slots.filter fun e => (s.ctx (ownerOf e.1)).phase == .running && e.2.running && e.2.blk.any (limitReached s)).map
    fun e => Instr.waitLimit e.1
  snaps ++ limits

/-- Events of a clock value: the saved clock, counters, notices, ends, slices and flips whose HOLDEND has come (R310, R312,
R316, R340, R348). -/
def clockEvents (s : State) : List Instr :=
  let now := s.pkg.clock
  (if s.pkg.anchored && now % 1000000 = 0 then [.clockSave] else []) ++
    (if now % 1000 = 0 then [.counterClear] else []) ++
    (if s.pkg.slew = some 0 then [.slewEnd] else []) ++
    (s.ctxs.filter fun e => noticeReady s e.1).map (fun e => Instr.expiryNotice e.1) ++
    (s.ctxs.filter fun e => endReady s e.1).map (fun e =>
      if (endTime s e.1).2 then Instr.termKeylease e.1 else Instr.termExpired e.1) ++
    (s.ctxs.filter fun e => e.2.phase == .running && e.2.cls == 1 && e.2.sliceEnd ≤ now).map (fun e => Instr.sliceEnd e.1) ++
    (s.pages.filter fun e => flipReady s e.1).map fun e => Instr.biasFlipStart e.1

/-- Migrations and flips to host bias end when a free value says so (R341, R349, DESIGN CHOICE log 1). -/
def pageProgress (s : State) : State :=
  (s.pages.filter fun e => e.2.inFlight.isSome || e.2.bias == .toHost).foldl (fun s e =>
    let (f, s1) := s.tick
    if !Config.freeKeep f then s1
    else if (s1.page e.1).inFlight.isSome then { s1 with agenda := s1.agenda ++ [.migrationComplete e.1] }
    else hostBiasReached s1 e.1) s

/-- Stacks whose idle second is over are admitted to again (R417). -/
def idleProgress (s : State) : State :=
  (s.pkg.power.filter fun e => e.2.idle && e.2.idleEnd ≤ s.pkg.clock).foldl (fun s e => stackBack s e.1) s

/-- A child on another chip ends when and as a free value says (R373, R411, DESIGN CHOICE log 1, DEDUCED log 33). -/
def awayProgress (s : State) : State :=
  (s.ctxs.flatMap fun e => (e.2.handles.filter fun h => h.2.away.isSome).map fun h => (e.1, h.1)).foldl (fun s e =>
    let (f, s1) := s.tick
    let done_ (h : Handle) : Handle := { h with away := none, childState := 2, childEnd := BitVec.ofNat 8 (1 + Config.freeChoice f % 5) }
    if Config.freeKeep f then s1.modCtx e.1 fun c => { c with handles := c.handles.map fun h => if h.1 = e.2 then (h.1, done_ h.2) else h }
    else s1) s

/-- Accesses that have come to pages whose pull has failed end their contexts (R412). -/
def pullProgress (s : State) : State :=
  (s.ctxs.flatMap fun e => ((e.2.move.map (·.lost)).getD []).map fun n => (e.1, n)).foldl (fun s e => pullFails s e.1 e.2) s

/-- Claims whose 10 ms are over without an answer (R307). -/
def claimProgress (s : State) : State := (s.pkg.claims.filter fun c => c.late s).foldl (fun s c => dropLate s c.nonce) s

/-- Host requesters gain a tick every 256 cycles of the IO die, as threads do (R270). -/
def hostTick (s : State) : State := if domainCycle s 16 % 256 = 0 && passes s 16 then s.modPkg fun p => { p with hostTime := p.hostTime + 1 } else s

/-- A cycle in which an access waits in the memory path does not count toward the limit of its wait (R337). -/
def holdLimits (s : State) : State :=
  { s with slots := s.slots.map fun e =>
      if e.2.blk.any (pathHeld s e.1) && passes s (domainOf s e.1) then (e.1, { e.2 with blk := e.2.blk.map fun b => { b with since := b.since + 1 } }) else e }

/-- What a clock value brings to the power domains: reports, trips and rises of duty (R414, R415, R417). -/
def powerProgress (s : State) : State := allDomains.foldl (fun s d => riseDuty (trip s d) d) (regulatorReports s)

/-- The next core cycle begins. -/
def advance (s : State) : State :=
  let s0 := suppressPulse (({ s with cycle := s.cycle + 1, latched := [], closing := false } : State).modPkg tickClock)
  let s1 := holdLimits (countCycles (hostTick (if s0.pkg.clock = s.pkg.clock then s0 else powerProgress s0)))
  let s2 := upsets (cacheProgress (cellProgress (claimProgress (pullProgress (awayProgress (idleProgress (pageProgress s1)))))))
  let due := cycleEvents s2 ++ if s2.pkg.clock = s.pkg.clock then [] else clockEvents s2
  { s2 with agenda := s2.agenda ++ due, pending := parties s2 }

/-- The end of a cycle: first what it brings, then the next one. -/
def endCycle (s : State) : State :=
  if s.closing then advance s else { s with closing := true, agenda := s.agenda ++ endEvents s }

/-! ### What follows an instruction or an event -/

/-- Whether the slot of an instruction was held: it stands where it stood, with nothing done (R273). -/
def wasHeld (t u : State) : Bool :=
  let x := t.slot t.cur
  let y := u.slot t.cur
  y.running && y.blk.isNone && y.offer.isNone && x.pc == y.pc && x.retired == y.retired && x.tlvl == y.tlvl && !switchOpen u t.cur

/-- The issue party of a slot. -/
def partyOf (s : State) (k : Nat) : Party := if isQuay k then .quay (s.physQuay k) else .issue (coreOf k)

/-- Whether an instruction has ended in the reset of its slot's cell, which leaves LAST at its build value (R272, R392). -/
def cellReset (t u : State) : Bool := (u.ctx (ownerOf t.cur)).counts.cont != (t.ctx (ownerOf t.cur)).counts.cont

/-- After an instruction: a held slot leaves the cycle to the next one of the scan, another has issued (R272, R273). -/
def afterIssue (t u : State) : State :=
  if wasHeld t u then u else acted (if cellReset t u && !isQuay t.cur then u else setLast u t.cur) (partyOf t t.cur)

/-- The blocked `ldfe` or `stfe` that a word serves next: the oldest whose wait is over (R143). -/
def servedNext (s : State) : Option (Nat × Instr) :=
  let able := s.slots.filterMap fun e =>
    match e.2.blk with
    | some b =>
      (match b.wait with
       | .fe _ _ =>
         if e.2.running && (s.ctx (ownerOf e.1)).phase == .running && (pendNow s e.1).isNone && satisfied s e.1 b then
           some (b.ticket, e.1, b.instr) else none
       | _ => none)
    | none => none
  (able.foldl (fun m e => match m with
    | none => some e
    | some x => if e.1 < x.1 then some e else some x) none).map fun e => (e.2.1, e.2.2)

/-- The service of a waiter at its word. -/
def serveWord (s : State) (e : Nat × Instr) : State :=
  let t := { s with cur := e.1 }
  let r := match e.2 with
    | .ldfe h keep ty d m => execLdfe h keep ty d m t
    | .stfe h ovr ty m c => execStfe h ovr ty m c t
    | _ => .next t
  match r with
  | .next u => { u with cur := s.cur }
  | _ => s

/-- Serve the waiters of full/empty words, in order, as often as there are blocked slots (R143). -/
def serveWords : Nat → State → State
  | 0, s => s
  | n + 1, s => match servedNext s with
    | none => s
    | some e => serveWords n (serveWord s e)

/-- The starts of follow-on products that are due and find room now: each is the very next step (R182, R194). -/
def followStarts (s : State) : List Instr :=
  ((residents s).flatMap s.coresOf).flatMap fun c =>
    (((List.range 4).map (BitVec.ofNat 2)).filter fun f => followReady s c f).map (Instr.followOnMmaStart c)

/-- What follows every step at once: tile bytes that become 0 behind the slab instructions before them, records on their way back to a ring
with room, waiters of full/empty words, messages that find room, the end of a task, and the starts of due products (R143, R148, R182, R187,
R236). -/
def settle (s : State) : State :=
  let sc := (s.cores.filter fun e => !e.2.clears.isEmpty).foldl (fun s e => s.modCore e.1 CoreSt.landClears) s
  let s0 := (sc.cores.filter fun e => !e.2.again.isEmpty).foldl (fun s e => flushAgain s e.1) sc
  let s1 := serveWords (s0.slots.filter fun e => e.2.blk.isSome).length s0
  let s2 := (s1.ctxs.filter fun e => e.2.phase == .running && !e.2.messageTo.isEmpty).foldl (fun s e => fillInboxes s e.1) s1
  let s3 := (s2.ctxs.filter fun e => e.2.phase == .running).foldl (fun s e => taskCheck s e.1) s2
  { s3 with agenda := (followStarts s3).filter (fun i => !s3.agenda.contains i) ++ s3.agenda }

/-- The plan of a step: an event that has arrived, else a party of the cycle, else the next cycle; without power nothing happens (DESIGN CHOICE log 68). -/
def plan (s : State) : Plan :=
  match s.agenda with
  | i :: rest => .event i { s with agenda := rest }
  | [] =>
    if s.pkg.boot != .on then .stop
    else
      let (f, s1) := s.tick
      match choose f (turns s) with
      | some p => planParty s1 p
      | none => .internal (endCycle s)

/-! ### A first instruction (DESIGN CHOICE log 6) -/

/-- Where a word is put: the first page behind 1 MiB. -/
def firstPc : Word := 0x100000

/-- A context with one thread at a word: owner 1, one quad, one page of code that holds it and nothing else. -/
def withProgram (s : State) (bytes : List Byte) : State :=
  let k := slotKey 1 0
  let s1 := { s with
    ctxs := s.ctxs.put 1 { phase := .running, handles := [(0, { w := {} })], nodes := [(1, true)] }
    pages := s.pages.put 32 { holder := 1, seg := 1, rights := rR ||| rX }
    slots := s.slots.put k { running := true, pc := firstPc, node := 1 }
    cores := s.cores.put (coreOf k) (buildCore (coreOf k))
    past := s.past.erase (firstPc.toNat / 128), agenda := [], pending := [.issue (coreOf k)], latched := [], closing := false }
  (writeBytes s1 firstPc.toNat bytes).modPkg fun p => { p with boot := .on }

end Sys2Proof.Machine
end

