-- ==== Sys2Proof/Machine/Step.lean ====
section
/-! DEFINITION. One step of the package: an event, an instruction of one slot, work of the device or the passing of a core cycle. -/

namespace Sys2Proof.Machine

/-- One step (DESIGN CHOICE log 5). -/
def step (s : State) : Host.Outcome State Fault Refusal :=
  match plan s with
  | .stop => .fault .noPower
  | .internal t => .next (settle t)
  | .event i t => match exec i t with
    | .next u => .next (settle u)
    | r => r
  | .instr i t => match exec i t with
    | .next u => .next (settle (afterIssue t u))
    | r => r

/-- The state whose next step fetches and runs the instruction whose bits are `w` (DESIGN CHOICE log 6). -/
def State.withFetchWord (s : State) (nbits w : Nat) : State := withProgram s (leBytes 16 (w % 2 ^ nbits))

end Sys2Proof.Machine
end

