-- ==== Sys2Proof/Safety.lean ====
section
/-! DEFINITION. The terms in which claims speak: when an instruction runs without a wait, a hold or a skip, what its operands are, what
it leaves alone, and the form that memory keeps. -/

namespace Sys2Proof.Safety

open Sys2Proof.Machine

/-- The current slot may run an instruction now: it reaches its body, and no register or predicate that it reads holds an uncorrectable word
(R389, R390).  `also` lists the registers that it reads beside its operands. -/
def ready (i : Instr) (h : Hdr) (srcs : List Reg) (dst : Option Reg) (s : State) (also : List Reg := []) : Bool :=
  reachesBody { i, h, srcs, dst, also } s && !badSource s s.cur (srcs ++ also) && !badReads s s.cur i

/-- The slot is in no checked pair (R32, R394). -/
def unpaired (s : State) : Bool := s.me.chk == 0

/-- The values of the source registers in operand order. -/
def operands (s : State) (srcs : List Reg) : List Word := (readRegs s s.cur srcs).1

/-- The state in which the queue registers among the sources have been popped (R22). -/
def popped (s : State) (srcs : List Reg) : State := (readRegs s s.cur srcs).2

/-- The instruction `i`, ready and reading `srcs`, leaves the state `t` and goes on to the next instruction after `lat` cycles, or, where it
orders memory, after the core's turn of a scratch bank whose latch it filled (R278); `t` is computed from the state after the pops and the
operand values. -/
def Completes (i : Instr) (h : Hdr) (srcs : List Reg) (dst : Option Reg) (lat : Nat) (t : State → List Word → State) : Prop :=
  ∀ s u : State, ready i h srcs dst s = true → u = t (popped s srcs) (operands s srcs) →
    exec i s = .next (finish u s.cur i.bytes (latencyOf u s.cur i lat) .fall)

/-- The instruction writes one general register with a value computed from the state after the pops and the operand values. -/
def Results (i : Instr) (h : Hdr) (srcs : List Reg) (d : Reg) (lat : Nat) (f : State → List Word → Word) : Prop :=
  Completes i h srcs (some d) lat fun s v => writeReg s s.cur d (f s v)

/-- The instruction writes one predicate. -/
def ResultsP (i : Instr) (h : Hdr) (srcs : List Reg) (d : PReg) (lat : Nat) (f : State → List Word → Bool) : Prop :=
  Completes i h srcs none lat fun s v => s.modMe fun x => x.setP d (f s v)

/-- The instruction computes a float result `op` of its operands' low bits in the format, under the slot's rounding state: FP_EXC where FEN
enables a flag it raises (R131), else its flags accrue in FFLAGS and the result is written. -/
def Rounds (i : Instr) (h : Hdr) (f : Fmt) (rnd : Rnd) (srcs : List Reg) (d : Reg) (lat : Nat)
    (op : FF → Capture → Nat → Nat → Nat → Nat × Flags) : Prop :=
  ∀ (s : State) (ff : FF) (c : Capture) (r : Nat × Flags), ready i h srcs (some d) s = true → FF.ofFmt f = some ff →
    captureOf (popped s srcs).me s.cur rnd = some c →
    r = op ff c ((arg (operands s srcs) 0).toNat % 2 ^ ff.width) ((arg (operands s srcs) 1).toNat % 2 ^ ff.width)
      ((arg (operands s srcs) 2).toNat % 2 ^ ff.width) →
    (r.2 &&& (popped s srcs).me.fen = 0 → exec i s = .next (finish (writeReg ((popped s srcs).modMe fun x =>
      { x with fflags := x.fflags ||| r.2 }) s.cur d (BitVec.ofNat 64 r.1)) s.cur i.bytes lat .fall)) ∧
    (r.2 &&& (popped s srcs).me.fen ≠ 0 → exec i s = .next (raise s s.cur ⟨.fpExc, r.2.zeroExtend 64, 0⟩))

/-- The instruction, ready and in no checked pair, leaves a state that `p` allows of the operand values and the state after the pops, and
goes on to the next instruction after one cycle, or, where it orders memory, after the core's turn of a scratch bank whose latch it
filled (R111, R278). -/
def Runs (i : Instr) (h : Hdr) (srcs : List Reg) (dst : Option Reg) (p : List Word → State → State → Prop) (also : List Reg := []) : Prop :=
  ∀ s t : State, ready i h srcs dst s also = true → unpaired s = true → p (operands s srcs) (popped s srcs) t →
    exec i s = .next (finish t s.cur i.bytes (latencyOf t s.cur i 1) .fall)

/-- Where `p` holds of the operand values and the state after the pops, the instruction, ready and in no checked pair, takes the trap that
`t` gives and has no effect. -/
def Traps (i : Instr) (h : Hdr) (srcs : List Reg) (dst : Option Reg) (p : List Word → State → Prop) (t : List Word → State → Trap)
    (also : List Reg := []) : Prop :=
  ∀ s : State, ready i h srcs dst s also = true → unpaired s = true → p (operands s srcs) (popped s srcs) →
    exec i s = .next (raise s s.cur (t (operands s srcs) (popped s srcs)))

/-- The slab instruction, ready, in no checked pair and past its dispatch checks, enters the core's slab queue with what it captures and
its execution time, where the backlog and the sequence ring have room; its slot goes on after one cycle (R26, R159, R182, R351). -/
def Dispatches (i : Instr) (h : Hdr) (srcs : List Reg) (dst : Option Reg) (rnd : List TDesc → Rnd)
    (cost : State → List Word → List TDesc → Nat) (checks : List Word → State → Except Stop (List TDesc)) : Prop :=
  ∀ (s p : State) (c : Capture) (ds : List TDesc) (o : SlabOp), ready i h srcs dst s = true → unpaired s = true →
    p = popped s srcs → checks (operands s srcs) p = .ok ds → captureOf p.me s.cur (rnd ds) = some c →
    o = capturedOp p i (operands s srcs) ds c (cost p (operands s srcs) ds) →
    slabRoom p p.myCore o.cost = true →
    exec i s = .next (finish (enqueueSlab p p.myCore o) s.cur i.bytes 1 .fall)

/-- The descriptor of a tile of the current slot's core (R27). -/
def tdescOf (s : State) (t : TReg) : TDesc := (s.core s.myCore).tdesc.get {} t.toNat

/-- A vector instruction with no dispatch check and no descriptor. -/
def DispatchesVector (i : Instr) (h : Hdr) (srcs : List Reg) (dst : Option Reg) (rnd : Rnd) (cost : Nat → Nat) : Prop :=
  Dispatches i h srcs dst (fun _ => rnd) (fun s _ _ => cost (lanes (s.core s.myCore).gangw)) noChecks

/-- No register and no accumulator cell that a slab instruction reads holds a word that cannot be corrected (R389, R390), and its half-slabs
agree (R395). -/
def soundOp (s : State) (core : Nat) (o : SlabOp) : Prop :=
  badVector (s.slot o.slot) (lanes (s.core core).gangw) o.instr = false ∧ badCells (s.core core) o = false ∧ o.upset = false

/-- When the instruction completes as the oldest of its core's slab queue, each active lane of its destination is `f` of what it captured,
the slot and the lane; the other lanes become 0 under Z and otherwise stay (R157, R160). -/
def LaneResult (i : Instr) (v : VHdr) (d : VReg) (f : SlabOp → Slot → Nat → Lane) : Prop :=
  ∀ (s : State) (core n : Nat) (o : SlabOp) (rest : List SlabOp) (x : Slot), (s.core core).slabQ = o :: rest → o.instr = i →
    soundOp s core o → x = s.slot o.slot → x.chk = 0 → n = lanes (s.core core).gangw → n ≤ 256 →
    ∃ t, exec (.slabCompletion core) s = .next t ∧ t.mem = s.mem ∧
      ∀ l, l < n → (t.slot o.slot).getV d l =
        if (x.getM n v.mask).getLsbD l then f o x l else if v.z then 0 else x.getV d l

/-- When the instruction completes as the oldest of its core's slab queue, lane l of its destination is `f` of what it captured, the slot, the number
of lanes and the lane. -/
def SlabLanes (i : Instr) (d : VReg) (f : SlabOp → Slot → Nat → Nat → Lane) : Prop :=
  ∀ (s : State) (core n : Nat) (o : SlabOp) (rest : List SlabOp) (x : Slot), (s.core core).slabQ = o :: rest → o.instr = i →
    soundOp s core o → x = s.slot o.slot → x.chk = 0 → n = lanes (s.core core).gangw → n ≤ 256 →
    ∃ t, exec (.slabCompletion core) s = .next t ∧ t.mem = s.mem ∧ ∀ l, l < n → (t.slot o.slot).getV d l = f o x n l

/-- A value for the active lanes of a destination; the others become 0 under Z and otherwise stay (R157). -/
def underMask (v : VHdr) (d : VReg) (f : SlabOp → Slot → Nat → Nat → Lane) (o : SlabOp) (x : Slot) (n l : Nat) : Lane :=
  if (x.getM n v.mask).getLsbD l then f o x n l else if v.z then 0 else x.getV d l

/-- A vector memory instruction of an unpaired slot stands as the oldest of its core's slab queue before its last lane, which is active. -/
def atLastLane (i : Instr) (v : VHdr) (s : State) (core n : Nat) (o : SlabOp) (x : Slot) : Prop :=
  (s.core core).slabQ.head? = some o ∧ o.instr = i ∧ soundOp s core o ∧ x = s.slot o.slot ∧ x.chk = 0 ∧ n = lanes (s.core core).gangw ∧ n ≤ 256 ∧
    o.done + 1 = n ∧ (x.getM n v.mask).getLsbD o.done = true

/-- Where its last lane is active and the access of it gives a word, the instruction completes with it in the lane (R157, R162, R163). -/
def LaneLoads (i : Instr) (v : VHdr) (d : VReg) (ty : IntTy) (load : State → SlabOp → Slot → Nat → Except Stop (Word × State)) : Prop :=
  ∀ (s u : State) (core n : Nat) (o : SlabOp) (x : Slot) (w : Word), atLastLane i v s core n o x →
    load { s.tick.2 with cur := o.slot } o x o.done = .ok (w, u) →
    ∃ t, exec (.slabCompletion core) s = .next t ∧ t.mem = u.mem ∧
      ∀ l, l < n → (t.slot o.slot).getV d l = if l = o.done then (ty.val w).setWidth 32
        else if v.z = true ∧ (x.getM n v.mask).getLsbD l = false then 0 else x.getV d l

/-- Where its last lane is active and the store of it succeeds, the instruction completes with the element in memory (R162, R163, R165). -/
def LaneStores (i : Instr) (v : VHdr) (d : VReg) (store : State → SlabOp → Slot → Nat → Word → Except Stop State) : Prop :=
  ∀ (s u : State) (core n : Nat) (o : SlabOp) (x : Slot), atLastLane i v s core n o x →
    store { s.tick.2 with cur := o.slot } o x o.done ((x.getV d o.done).zeroExtend 64) = .ok u →
    ∃ t, exec (.slabCompletion core) s = .next t ∧ t.mem = u.mem ∧ ∀ r l, (t.slot o.slot).getV r l = x.getV r l

/-- When the instruction completes as the oldest of its core's slab queue, its general destination holds `f` of what it captured, the slot
and the number of lanes. -/
def SlabWord (i : Instr) (d : Reg) (f : SlabOp → Slot → Nat → Word) : Prop :=
  ∀ (s : State) (core : Nat) (o : SlabOp) (rest : List SlabOp) (x : Slot), (s.core core).slabQ = o :: rest → o.instr = i →
    soundOp s core o → x = s.slot o.slot → x.chk = 0 → d ≠ 0 →
    ∃ t, exec (.slabCompletion core) s = .next t ∧ t.mem = s.mem ∧ (t.slot o.slot).getG d = f o x (lanes (s.core core).gangw)

/-- When the instruction completes as the oldest of its core's slab queue, bit l of its destination mask is `f` of what it captured, the slot
and the lane. -/
def SlabMask (i : Instr) (d : MReg) (f : SlabOp → Slot → Nat → Nat → Bool) : Prop :=
  ∀ (s : State) (core n : Nat) (o : SlabOp) (rest : List SlabOp) (x : Slot), (s.core core).slabQ = o :: rest → o.instr = i →
    soundOp s core o → x = s.slot o.slot → x.chk = 0 → d ≠ 7 → n = lanes (s.core core).gangw → n ≤ 256 →
    ∃ t, exec (.slabCompletion core) s = .next t ∧ t.mem = s.mem ∧
      ∀ l, l < n → ((t.slot o.slot).getM n d).getLsbD l = f o x n l

/-- The guard, the general registers read and the one written of an instruction that computes a general register from general registers,
predicates and system registers and does nothing else (R111 to R119, R121, R124). -/
def computes : Instr → Option (Hdr × List Reg × Reg)
  | .add h d a b | .sub h d a b | .mul h d a b | .mulh h _ d a b | .div h _ d a b | .rem h _ d a b | .min h _ d a b | .max h _ d a b
  | .and h d a b | .or h d a b | .xor h d a b | .andn h d a b | .shl h d a b | .shr h d a b | .sar h d a b | .rot h d a b
  | .bfi h d a b _ | .crc h _ d a b | .hash h d a b | .sel h d a b _ => some (h, [a, b], d)
  | .addi h d a _ | .rsbi h d a _ | .muli h d a _ | .andi h d a _ | .ori h d a _ | .xori h d a _ | .shli h d a _ | .shri h d a _
  | .sari h d a _ | .roti h d a _ | .clz h d a | .ctz h d a | .popc h d a | .brev h d a | .bswap h d a | .ext h _ d a _
  | .bfx h _ d a _ | .lih h d a _ | .mov h d a => some (h, [a], d)
  | .mad h d a b c => some (h, [a, b, c], d)
  | .li h d _ | .pmovToGeneral h d _ | .pmovGet h d => some (h, [], d)
  | .lea h d m => some (h, m.regs, d)
  | _ => none

/-- The float instructions that compute a general register (R128 to R130). -/
def computesFloat : Instr → Option (Hdr × List Reg × Reg)
  | .fadd h _ _ d a b | .fsub h _ _ d a b | .fmul h _ _ d a b | .fdiv h _ _ d a b | .fmin h _ d a b | .fmax h _ d a b =>
    some (h, [a, b], d)
  | .fsgn h op _ d a b => some (h, if sgnReadsB op then [a, b] else [a], d)
  | .ffma h _ _ d a b c => some (h, [a, b, c], d)
  | .fsqrt h _ _ d a | .fround h _ _ d a | .fcvt h _ _ d a | .fclass h _ d a => some (h, [a], d)
  | _ => none

/-- The source registers of an instruction with one access to memory, with the address it accesses from its operand values, the width of
the access in bytes, its general destination, and whether it stores (R135 to R142, R156). -/
def accessOf : Instr → Option (List Reg × (List Word → Except Stop Word) × Nat × Option Reg × Bool)
  | .ld _ ty d m | .ldc _ ty d m => some (m.regs, fun v => .ok (m.ea v), ty.bytes, some d, false)
  | .ldfe _ ty _ d m => some (m.regs, fun v => .ok (m.ea v), ty.bytes, some d, false)
  | .rld _ ty d a b i => some ([a, b], fun v => placeEa (arg v 0) (arg v 1) i, ty.bytes, some d, false)
  | .st _ ty m c => some (m.regs ++ [c], fun v => .ok (m.ea v), ty.bytes, none, true)
  | .stfe _ ty _ m c => some (m.regs ++ [c], fun v => .ok (m.ea v), ty.bytes, none, true)
  | .rst _ false ty a b i c => some ([a, b, c], fun v => placeEa (arg v 0) (arg v 1) i, ty.bytes, none, true)
  | .amo _ _ ty d m c => some (m.regs ++ [c], fun v => .ok (m.ea v), ty.bytes, some d, true)
  | .cas _ ty d a i b c => some ([a, b, c], fun v => .ok (arg v 0 + i.sext), ty.bytes, some d, true)
  | .ramo _ _ false ty d a b i c => some ([a, b, c], fun v => placeEa (arg v 0) (arg v 1) i, ty.bytes, some d, true)
  | _ => none

/-- What a slot keeps where only a general register, FFLAGS, the pc, the retired count and its place in the schedule may change. -/
def SlotKept (x y : Slot) : Prop :=
  y.p = x.p ∧ y.m = x.m ∧ y.v = x.v ∧ y.i = x.i ∧ y.rm = x.rm ∧ y.fzi = x.fzi ∧ y.fzo = x.fzo ∧ y.fen = x.fen ∧ y.rseed = x.rseed ∧
    y.wlim = x.wlim ∧ y.cause = x.cause ∧ y.late = x.late ∧ y.txpc = x.txpc ∧ y.tval = x.tval ∧ y.tseq = x.tseq ∧ y.tscr = x.tscr ∧
    y.batch = x.batch ∧ y.xhand = x.xhand ∧ y.mode = x.mode ∧ y.tlvl = x.tlvl ∧ y.chk = x.chk ∧ y.prio = x.prio ∧ y.rstrt = x.rstrt ∧
    y.running = x.running ∧ y.node = x.node ∧ y.tt = x.tt ∧ y.inbox = x.inbox ∧ y.wake = x.wake ∧ y.inl = x.inl ∧ y.pend = x.pend

/-- Nothing but the current slot and the queue registers of its core has changed: the other slots, every byte of memory with its poison and
its FULL tag, the lines, pages, arenas and contexts, and the package. -/
def Elsewhere (s t : State) : Prop :=
  (∀ k, k ≠ s.cur → t.slot k = s.slot k) ∧ t.mem = s.mem ∧ t.full = s.full ∧ t.poison = s.poison ∧ t.lines = s.lines ∧
    t.pages = s.pages ∧ t.arenas = s.arenas ∧ t.ctxs = s.ctxs ∧ t.pkg = s.pkg ∧
    ∀ c, (t.core c).tdesc = (s.core c).tdesc ∧ (t.core c).tile = (s.core c).tile ∧ (t.core c).acc = (s.core c).acc ∧
      (t.core c).tvec = (s.core c).tvec ∧ (t.core c).ring = (s.core c).ring ∧ (t.core c).slabseq = (s.core c).slabseq ∧
      (t.core c).fifo = (s.core c).fifo ∧ (t.core c).slabQ = (s.core c).slabQ

/-- Whether an instruction adds floats at a word of memory: it writes FFLAGS (R139, R156). -/
def addsFloat : Instr → Bool
  | .amo _ op .. | .ramo _ op .. => op == .fadd
  | _ => false

/-- Every byte of memory reads as before. -/
def SameMemory (s t : State) : Prop := ∀ a : Nat, readByte t a = readByte s a

/-- The mailbox holds the answer to the request with a tag, and no request is pending (R404, R406). -/
def Answered (t : State) (tag : Word) (code : BitVec 8) (owner : Nat) : Prop :=
  t.pkg.resp = [code, 0] ++ leBytes 2 owner ++ List.replicate 4 0 ++ leBytes 8 tag.toNat ++ List.replicate 48 0 ∧ t.pkg.request = false

/-- The state after an authenticated Ostik link has carried a message of some flits; its key is changed every 2^32 flits (R408). -/
def OnLink (s : State) (n : Nat) (u : State) : Prop :=
  ∃ port, port ∈ liveOstik s ∧ u = modPort s.tick.2 port fun p =>
    { p with flits := (p.flits + n) % 2 ^ 32, keys := p.keys + (p.flits + n) / 2 ^ 32 }

end Sys2Proof.Safety
end

