-- ==== Sys2Proof/Certificates/Slice0/Obligations.lean ====
section
/-! DEFINITION. The statements for the provers. -/

open Sys2Proof Sys2Proof.Machine Sys2Proof.Safety

/-! ### Reset, decode and the step -/

/-- Right after reset no context exists and nothing runs, memory lists no byte and has its canonical form, the clock stands at 0 and is not
anchored, no operator key, domain or spent serial is known, the mailbox is open with no request and its RESP is 0, and every register of a slot, a
core and a quad stands at its reset value: system registers, tile descriptors, tiles, accumulators, queues, follow-on slots, ring and nest registers,
the command FIFO with XFREE 16, and bank modes (R9, R25, R31 to R37, R310, R404).  Which registers stand at 0 for want of a value in the spec is the
model's choice (DESIGN CHOICE log 3); that the host link counts as up and its port as UP is the model's inference (DEDUCED log 22), and so is that a byte
of memory which nothing has written reads 0 (DEDUCED log 7). -/
def Obligations.ResetValues : Prop :=
Memory.wf State.reset.mem ∧ State.reset.ctxs = [] ∧ State.reset.slots = [] ∧ State.reset.pages = [] ∧ State.reset.pkg.boot = .on ∧
  State.reset.pkg.clock = 0 ∧ State.reset.pkg.anchored = false ∧ State.reset.pkg.keys = [] ∧ State.reset.pkg.domains = [] ∧
  State.reset.pkg.spent = [] ∧ State.reset.pkg.linkUp = true ∧ State.reset.pkg.request = false ∧ State.reset.pkg.threshold = 256 ∧
  (∀ a, readByte State.reset a = 0) ∧
  (∀ k, State.reset.slot k = { mode := true, rm := 0, fen := 0, fflags := 0, wlim := 0, tlvl := false, running := false }) ∧
  State.reset.pkg.resp = List.replicate 64 0 ∧ State.reset.pkg.evCount = 0 ∧ State.reset.pkg.doorbell = 0 ∧
  (∀ k c, c = State.reset.core k → c.tvec = 0 ∧ c.slabseq = 0 ∧ c.cyc = 0 ∧ c.ring = [] ∧ c.gangw = (if isQuay k then 0 else 1) ∧
    c.ringb = BitVec.ofNat 10 (0x2FC + coreNo k) ∧ c.spill = 0 ∧ c.spillPages = 0 ∧ c.ringh = 0 ∧ c.ringt = 0 ∧
    c.nestExt = [0, 0, 0, 0] ∧ c.nestMin = [0, 0, 0, 0] ∧ c.fifo.cmds = [] ∧ c.fifo.next = 0 ∧ c.fifo.layouts = [] ∧ c.slabQ = [] ∧
    (∀ n, c.tdesc.get {} n = { fmt := 0, rows := 0, cols := 0, dist := false } ∧ c.tile.get 0 n = 0 ∧ c.acc.get 0 n = 0 ∧
      (c.queue n).entries = [] ∧ (c.queue n).bank = none ∧ (c.queue n).lim = 8 ∧ (c.follow.get {} n).queued = none ∧ (c.follow.get {} n).count = 0)) ∧
  (∀ k b, (State.reset.quad k).mode b = if b < 12 then .scr else .cache) ∧ ∀ k, (State.reset.quad k).fifos = [] ∧ (State.reset.quad k).switches = []

/-- Words written out from the encodings of R93 and R97 to R107 decode to the instructions they stand for: `addi g5, g5, 1`, `br` by −2 words, `mfs`
of TXPC, `cmp.lt.s32`, `ldfe`, `fcvt`, `vred`, `cnew`, `xpush` and `mma`; a word of zeros, the all-ones word and an `addi` with a value in MOD decode
to none. -/
def Obligations.DecodedWords : Prop :=
decodeTableWord 64 0x0001_0000_0145_1C0C = some (.addi ⟨7, false⟩ 5 5 (.short 1)) ∧
  decodeTableWord 64 0xFFFE_0000_0000_1CC0 = some (.br ⟨7, false⟩ (.short 0xFFFE)) ∧
  decodeTableWord 64 0x000A_0000_0007_1CD4 = some (.mfs ⟨7, false⟩ .txpc 7) ∧
  decodeTableWord 64 0x0000_1600_0101_1CB0 = some (.cmp ⟨7, false⟩ .lt .s32 1 4 0) ∧
  decodeTableWord 64 0x0008_0200_0085_1D54 = some (.ldfe ⟨7, false⟩ .n32 false 5 (.disp 2 (.short 8))) ∧
  decodeTableWord 64 0x0007_0200_0146_1D24 = some (.fcvt ⟨7, false⟩ (.ff .e4m3 .f32) .slot 6 5) ∧
  decodeTableWord 64 0x0000_0204_0045_1E68 = some (.vred ⟨⟨7, false⟩, false, 1⟩ .add .f32 false .slot 5 1) ∧
  decodeTableWord 64 0x0100_0018_5083_1EF0 = some (.cnew ⟨7, false⟩ 0 false false 3 2 (.short 0x100) 5 6) ∧
  decodeTableWord 128 0x0000_0010_0000_0320_0001_0018_5100_1EC2 =
    some (.xpush ⟨7, false⟩ ⟨.copy, false, true, .pk, true, none, .f32, 0, 0x1000⟩ 1 0 4 5 6) ∧
  decodeTableWord 128 0x0000_0000_0000_0110_0000_0000_1000_1E96 =
    some (.mma ⟨7, false⟩ ⟨0, 0, 1, .slot, .pt, .b4, .b4, 0, 0, false⟩) ∧
  decodeTableWord 64 0 = none ∧ decodeTableWord 64 (2 ^ 64 - 1) = none ∧ decodeTableWord 64 0x0001_0100_0145_1C0C = none

/-- Decoding the word of a well-formed instruction gives the instruction back, with every operand; and its bytes in memory decode to it with its
length (R88, R93, R97 to R107). -/
def Obligations.DecodeEncodeRoundTrip : Prop :=
∀ (i : Instr) (w : BitVec 128), i.wf = true → encode i = some w →
    decodeWord w = .ok i ∧ decodeBytes (encodeBytes i) = .ok (i, i.bytes)

/-- Where the slot that the scan picks stands at bytes that may be fetched, are no fill word, decode to an instruction and do not cross a fetch
boundary, the step runs that instruction with the slot's pc at it, and then serves waiters and ends tasks; the fetch may only add an entry to the
core's PLB (R88 to R91, R95, R272).  That an event which has arrived is run first, and that one party acts in a step, is the model's choice of an order
(DESIGN CHOICE log 5, DESIGN CHOICE log 68); the stop without power is the model's own. -/
def Obligations.StepRunsTheDecodedInstruction : Prop :=
(∀ (s v t : State) (p : Party) (k n : Nat) (i : Instr) (pc : Word), s.agenda = [] → s.pkg.boot = .on → s.pending = [p] → v = s.tick.2 →
    (p = .issue (coreOf k) ∧ pickSlot v (coreOf k) = some k ∨ ∃ q, p = .quay q ∧ pickQuay v q = some k) →
    dueSlots v p = [] → pc = (s.slot k).pc → fetchOk v k pc = true → leNat 4 (blockBytes v pc 4) ≠ 3 →
    decodeBytes (blockBytes v pc 16) = .ok (i, n) → pc.toNat / 32 = (pc.toNat + n - 1) / 32 →
    t = { (fetchFill v k pc).modSlot k fun x => { x with pc } with cur := k } →
    (∃ u, exec i t = .next u ∧ step s = .next (settle (afterIssue t u))) ∧ (∀ j, t.slot j = s.slot j) ∧ t.quads = s.quads ∧
      t.ctxs = s.ctxs ∧ t.pages = s.pages ∧ t.mem = s.mem ∧ t.pkg = s.pkg ∧
      ∀ c, t.core c = { s.core c with plb := (t.core c).plb }) ∧
  (∀ (s : State) (i : Instr) (rest : List Instr), s.agenda = i :: rest →
    ∃ u, exec i { s with agenda := rest } = .next u ∧ step s = .next (settle u)) ∧
  ∀ s : State, s.agenda = [] → s.pkg.boot ≠ .on → step s = .fault .noPower

/-- Every instruction and every event answers a next state: none is refused and none faults. -/
def Obligations.EveryInstructionAnswers : Prop :=
∀ (i : Instr) (s : State), ∃ t, exec i s = .next t

/-- The guard is p[PG] xor PN; an instruction whose guard is 0 writes no register but the pc, the retired count and the place in the schedule,
and makes no access; with PG = 7 it always runs, or with PN = 1 never (R94). -/
def Obligations.FalseGuardOnlyAdvances : Prop :=
(∀ (i : Instr) (sh : Shape) (s : State), i.shape = some sh → absent s s.cur i = false →
    s.me.bad.get false (badPred sh.hdr.pg.toNat) = false → s.me.getP sh.hdr.pg = sh.hdr.pn →
    exec i s = .next (s.modMe fun x =>
      { x with blk := none, joined := none, offer := none, dead := false, skip := none, ready := s.cycle + 1, retired := x.retired + 1,
               pc := x.pc + BitVec.ofNat 64 i.bytes })) ∧
  ∀ x : Slot, guardOf x ⟨7, false⟩ = true ∧ guardOf x ⟨7, true⟩ = false

/-- An instruction that its place does not have traps ILLEGAL whatever its guard: vector and matrix instructions on a core of gang width 0, and
on a quay slot those of R18 and R31; TVAL holds the bytes at the pc (R17, R18, R31, R95, R96).  That `bankcfg`, `rpush`, `rpop`, `nest`, `next`, `gang`
and `qcfg` trap on a quay slot before their guard is the model's inference (DEDUCED log 25). -/
def Obligations.AbsentInstructionsTrap : Prop :=
∀ (i : Instr) (sh : Shape) (s : State), i.shape = some sh → absent s s.cur i = true →
    exec i s = .next (raise s s.cur ⟨.illegal, 0, 0⟩) ∧
    raise s s.cur ⟨.illegal, 0, 0⟩ = takeTrap s s.cur ⟨.illegal, BitVec.ofNat 64 (leNat 8 (blockBytes s s.me.pc 8)), 0⟩ false s.me.pc 0

/-- Taking a trap at level 0, POISON, LEASE_OUT and CHK_MISMATCH apart: the trap registers are written, the level is 1, the pc stands at TVEC, and a
wait and what the slot has offered or has in the memory path go; no other register of the slot, no other slot, no byte of memory, page, arena or setting of the
package changes, of a core only what an abandoned barrier arrival puts back into its queues, and of a context only the arrival itself; where TVEC is 0 the
task ends, as it does at level 1; `tret` returns to its address at level 0 (R354 to R356, R126). -/
def Obligations.TrapEntry : Prop :=
∀ (s : State) (k : Nat) (c : Cause) (tval pc : Word) (need : BitVec 4) (late : Bool) (seq : BitVec 32),
    c ≠ .poison → c ≠ .leaseOut → c ≠ .chkMismatch →
    ((s.slot k).tlvl = false → (s.core (coreOf k)).tvec ≠ 0 → ∃ t x, takeTrap s k ⟨c, tval, need⟩ late pc seq = t ∧ x = s.slot k ∧
      t.slot k =
        { x with
          cause := c.code, late := late, txpc := pc, tval := tval, tseq := if late then seq else x.tseq, tlvl := true
          pc := ((s.core (coreOf k)).tvec ++ (0 : BitVec 2)).zeroExtend 64
          blk := none, joined := none, touch := none, skip := none, offer := none, dead := false, ready := s.cycle + 1 } ∧
      (∀ j, j ≠ k → t.slot j = s.slot j) ∧ t.mem = s.mem ∧ t.full = s.full ∧ t.poison = s.poison ∧ t.lines = s.lines ∧ t.pages = s.pages ∧
      t.arenas = s.arenas ∧ t.pkg = s.pkg ∧
      (∀ o, t.core o = { s.core o with queues := (t.core o).queues }) ∧
      (∀ q, t.quad q = { s.quad q with fifos := (t.quad q).fifos, fifoBad := (t.quad q).fifoBad }) ∧
      (∀ o, t.ctx o = { s.ctx o with bars := (t.ctx o).bars }) ∧
      (x.blk = none → t.cores = s.cores ∧ t.quads = s.quads ∧ t.ctxs = s.ctxs)) ∧
    ((s.slot k).tlvl = false → (s.core (coreOf k)).tvec = 0 → ∃ u r, r.cause = c.code ∧ r.pc = pc ∧ r.addr = tval ∧
      takeTrap s k ⟨c, tval, need⟩ late pc seq = taskAbrupt u (ownerOf k) r) ∧
    ((s.slot k).tlvl = true → ∃ u r, r.cause = c.code ∧ r.pc = pc ∧ r.addr = tval ∧
      takeTrap s k ⟨c, tval, need⟩ late pc seq = taskAbrupt u (ownerOf k) r) ∧
    ((s.slot k).pend = [] → trapReturn s k pc = s.modSlot k fun x => { x with tlvl := false, pc })

/-- The frame of the scalar instructions that compute a general register: where one completes issue in a slot that goes on, every other general register, every other
register of the slot but the pc, the retired count and, for the float ones, FFLAGS, the other slots, the rest of the cores, memory and the package
stay as they were; no core changes at all where no queue register is named (R22, R94, R111 to R131). -/
def Obligations.ScalarFrame : Prop :=
∀ (i : Instr) (h : Hdr) (srcs : List Reg) (d : Reg) (s t : State),
    (computes i = some (h, srcs, d) ∨ computesFloat i = some (h, srcs, d)) → unpaired s = true → exec i s = .next t →
    (t.slot s.cur).retired = s.me.retired + 1 → (t.slot s.cur).running = true →
    SlotKept s.me (t.slot s.cur) ∧ Elsewhere s t ∧ SameMemory s t ∧ (∀ r, r ≠ d → (t.slot s.cur).getG r = s.me.getG r) ∧
    (computes i = some (h, srcs, d) → (t.slot s.cur).fflags = s.me.fflags) ∧
    ((∀ r, r ∈ d :: srcs → r.isQueue = false) → t.cores = s.cores ∧ t.quads = s.quads)

/-- The frame of the instructions with one access to memory: where one completes issue, each general register but the destination and each other
register of the slot stays, its logical time apart, and FFLAGS but for a float addition; so do the other slots; of a core only its copies, its PLB, its bank
latches and the queues it names change, of a quad only its copies and FIFO banks, of a page only its access counters, of a context only its error counts and the
pages a move has to copy, of the package only the black box; a load leaves every byte of memory, and a store every byte outside the bytes it stores to and
every FULL tag of another word (R135 to R142, R156). -/
def Obligations.MemoryFrame : Prop :=
∀ (i : Instr) (srcs : List Reg) (f : List Word → Except Stop Word) (n : Nat) (d : Option Reg) (store : Bool) (s t : State),
    accessOf i = some (srcs, f, n, d, store) → unpaired s = true → exec i s = .next t → (t.slot s.cur).retired = s.me.retired + 1 →
    (t.slot s.cur).running = true →
    SlotKept { s.me with tt := (t.slot s.cur).tt } (t.slot s.cur) ∧ (addsFloat i = false → (t.slot s.cur).fflags = s.me.fflags) ∧
    (∀ k, k ≠ s.cur → t.slot k = s.slot k) ∧ (∀ r, d ≠ some r → (t.slot s.cur).getG r = s.me.getG r) ∧
    (∀ c, t.core c =
      { s.core c with copies := (t.core c).copies, ccopies := (t.core c).ccopies, plb := (t.core c).plb, latches := (t.core c).latches,
                      queues := (t.core c).queues }) ∧
    (∀ q, t.quad q =
      { s.quad q with ways := (t.quad q).ways, ccopies := (t.quad q).ccopies, fifos := (t.quad q).fifos, fifoBad := (t.quad q).fifoBad }) ∧
    (∀ p, t.page p = { s.page p with counters := (t.page p).counters, devCount := (t.page p).devCount, asked := (t.page p).asked }) ∧
    t.arenas = s.arenas ∧ (∀ o, t.ctx o = { s.ctx o with counts := (t.ctx o).counts, move := (t.ctx o).move }) ∧
    t.pkg = { s.pkg with box := t.pkg.box, boxSeq := t.pkg.boxSeq } ∧
    (store = false → SameMemory s t) ∧
    ∀ ea w, f (operands s srcs) = .ok ea → window (popped s srcs) s.cur ea = some w →
      (∀ a, a < w.key ea ∨ w.key ea + n ≤ a → readByte t a = readByte s a) ∧
      ∀ m, m ≠ w.key ea / 8 → t.full.get false m = s.full.get false m

/-- Every step keeps the canonical form of memory: its addresses strictly rising, and no byte listed that reads as an unlisted one. -/
def Obligations.StepKeepsMemoryCanonical : Prop :=
∀ s t : State, Memory.wf s.mem → step s = .next t → Memory.wf t.mem

/-! ### Scalar integer instructions (R112 to R122) -/

/-- Sums, products, quotients and selections of two or three registers (R112, R113): each writes its destination with the value the rule
gives and goes on after its latency (R111). -/
def Obligations.IntegerArithmetic : Prop :=
∀ (h : Hdr) (ty : IntTy) (d a b c : Reg) (i : Imm),
    Completes (.nop h) h [] none 1 (fun s _ => s) ∧
    Results (.add h d a b) h [a, b] d 1 (fun _ v => arg v 0 + arg v 1) ∧
    Results (.addi h d a i) h [a] d 1 (fun _ v => arg v 0 + i.sext) ∧
    Results (.sub h d a b) h [a, b] d 1 (fun _ v => arg v 0 - arg v 1) ∧
    Results (.rsbi h d a i) h [a] d 1 (fun _ v => i.sext - arg v 0) ∧
    Results (.mul h d a b) h [a, b] d 4 (fun _ v => arg v 0 * arg v 1) ∧
    Results (.muli h d a i) h [a] d 4 (fun _ v => arg v 0 * i.sext) ∧
    Results (.mulh h ty d a b) h [a, b] d 4 (fun _ v => BitVec.ofInt 64 (ty.int (arg v 0) * ty.int (arg v 1) / 2 ^ 64)) ∧
    Results (.mad h d a b c) h [a, b, c] d 4 (fun _ v => arg v 0 * arg v 1 + arg v 2) ∧
    Results (.div h ty d a b) h [a, b] d (if ty.bits = 64 then 36 else 20) (fun _ v =>
      ty.put (if ty.int (arg v 1) = 0 then 0
        else if ty.signed = true ∧ ty.int (arg v 0) = -(2 ^ (ty.bits - 1)) ∧ ty.int (arg v 1) = -1 then ty.int (arg v 0)
        else (ty.int (arg v 0)).tdiv (ty.int (arg v 1)))) ∧
    Results (.rem h ty d a b) h [a, b] d (if ty.bits = 64 then 36 else 20) (fun _ v =>
      ty.put (if ty.int (arg v 1) = 0 then ty.int (arg v 0)
        else if ty.signed = true ∧ ty.int (arg v 0) = -(2 ^ (ty.bits - 1)) ∧ ty.int (arg v 1) = -1 then 0
        else ty.int (arg v 0) - (ty.int (arg v 0)).tdiv (ty.int (arg v 1)) * ty.int (arg v 1))) ∧
    Results (.min h ty d a b) h [a, b] d 1
      (fun _ v => if ty.int (arg v 1) < ty.int (arg v 0) then ty.val (arg v 1) else ty.val (arg v 0)) ∧
    Results (.max h ty d a b) h [a, b] d 1
      (fun _ v => if ty.int (arg v 0) < ty.int (arg v 1) then ty.val (arg v 1) else ty.val (arg v 0))

/-- Logic, shifts and rotations (R114): a shift by a register takes its low six bits. -/
def Obligations.LogicAndShifts : Prop :=
∀ (h : Hdr) (d a b : Reg) (i : Imm),
    Results (.and h d a b) h [a, b] d 1 (fun _ v => arg v 0 &&& arg v 1) ∧
    Results (.andi h d a i) h [a] d 1 (fun _ v => arg v 0 &&& i.zext) ∧
    Results (.or h d a b) h [a, b] d 1 (fun _ v => arg v 0 ||| arg v 1) ∧
    Results (.ori h d a i) h [a] d 1 (fun _ v => arg v 0 ||| i.zext) ∧
    Results (.xor h d a b) h [a, b] d 1 (fun _ v => arg v 0 ^^^ arg v 1) ∧
    Results (.xori h d a i) h [a] d 1 (fun _ v => arg v 0 ^^^ i.zext) ∧
    Results (.andn h d a b) h [a, b] d 1 (fun _ v => arg v 0 &&& ~~~(arg v 1)) ∧
    Results (.shl h d a b) h [a, b] d 1 (fun _ v => arg v 0 <<< ((arg v 1).toNat % 64)) ∧
    Results (.shli h d a i) h [a] d 1 (fun _ v => arg v 0 <<< i.zext.toNat) ∧
    Results (.shr h d a b) h [a, b] d 1 (fun _ v => arg v 0 >>> ((arg v 1).toNat % 64)) ∧
    Results (.shri h d a i) h [a] d 1 (fun _ v => arg v 0 >>> i.zext.toNat) ∧
    Results (.sar h d a b) h [a, b] d 1 (fun _ v => (arg v 0).sshiftRight ((arg v 1).toNat % 64)) ∧
    Results (.sari h d a i) h [a] d 1 (fun _ v => (arg v 0).sshiftRight i.zext.toNat) ∧
    Results (.rot h d a b) h [a, b] d 1 (fun _ v => (arg v 0).rotateLeft ((arg v 1).toNat % 64)) ∧
    Results (.roti h d a i) h [a] d 1 (fun _ v => (arg v 0).rotateLeft i.zext.toNat)

/-- Bit counts, bit fields, CRC-32C, hash, constants, addresses and moves (R114 to R119). -/
def Obligations.BitFieldsAndMoves : Prop :=
∀ (h : Hdr) (sg : Bool) (k : BitVec 2) (d a b : Reg) (i : Imm) (m : Mem) (c : PReg),
    Results (.clz h d a) h [a] d 1 (fun _ v => BitVec.ofNat 64 (clz64 (arg v 0))) ∧
    Results (.ctz h d a) h [a] d 1 (fun _ v => BitVec.ofNat 64 (ctz64 (arg v 0))) ∧
    Results (.popc h d a) h [a] d 1 (fun _ v => BitVec.ofNat 64 (popc64 (arg v 0))) ∧
    Results (.brev h d a) h [a] d 1 (fun _ v => brev64 (arg v 0)) ∧
    Results (.bswap h d a) h [a] d 1 (fun _ v => bswap64 (arg v 0)) ∧
    Results (.ext h sg d a i) h [a] d 1 (fun _ v => field64 sg (arg v 0) 0 i.zext.toNat) ∧
    Results (.bfx h sg d a i) h [a] d 1 (fun _ v => field64 sg (arg v 0) i.pos i.flen) ∧
    Results (.bfi h d a b i) h [a, b] d 1 (fun _ v => insert64 (arg v 0) (arg v 1) i.pos i.flen) ∧
    Results (.crc h k d a b) h [a, b] d 4
      (fun _ v => (crcFold ((arg v 0).setWidth 32) (arg v 1) (8 * 2 ^ k.toNat)).zeroExtend 64) ∧
    Results (.hash h d a b) h [a, b] d 4 (fun _ v => mix (arg v 0 ^^^ (arg v 1).rotateLeft 32)) ∧
    Results (.li h d i) h [] d 1 (fun _ _ => i.sext) ∧
    Results (.lih h d a i) h [a] d 1 (fun _ v => (i.zext <<< 16) ||| (arg v 0 &&& 0xFFFF)) ∧
    Results (.lea h d m) h m.regs d 1 (fun _ v => m.ea v) ∧
    Results (.mov h d a) h [a] d 1 (fun _ v => arg v 0) ∧
    Results (.sel h d a b c) h [a, b] d 1 (fun s v => if s.me.getP c then arg v 0 else arg v 1)

/-- Compares and predicates (R120 to R122). -/
def Obligations.ComparesAndPredicates : Prop :=
∀ (h : Hdr) (cond : Cond) (ty : IntTy) (tt : BitVec 4) (d : Reg) (a b : Reg) (q x y : PReg) (i : Imm),
    ResultsP (.cmp h cond ty q a b) h [a, b] q 1 (fun _ v => cond.holds (ty.int (arg v 0)) (ty.int (arg v 1))) ∧
    ResultsP (.cmpi h cond ty q a i) h [a] q 1
      (fun _ v => cond.holds (ty.int (arg v 0)) (ty.int (if ty.signed then i.sext else i.zext))) ∧
    ResultsP (.plog h tt q x y) h [] q 1 (fun s _ => truth tt (s.me.getP x) (s.me.getP y)) ∧
    ResultsP (.pmov h q a) h [a] q 1 (fun _ v => arg v 0 != 0) ∧
    Results (.pmovToGeneral h d x) h [] d 1 (fun s _ => (bit1 (s.me.getP x)).zeroExtend 64) ∧
    Results (.pmovGet h d) h [] d 1 (fun s _ => s.me.allP) ∧
    Completes (.pmovSet h a) h [a] none 1 (fun s v => s.modMe fun x => { x with p := (arg v 0).setWidth 7 })

/-! ### Control transfer, system registers and traps (R123 to R126) -/

/-- Control transfers (R91, R123) to a target that is a multiple of 4: the pc goes there, and `call` and `callr` set ln to the address behind
them; any other target traps MISALIGN with the target as TVAL. -/
def Obligations.ControlTransfers : Prop :=
  (∀ (h : Hdr) (a : Reg) (i : Imm) (s : State),
     (ready (.br h i) h [] none s = true → (s.me.pc + 4 * i.sext).toNat % 4 = 0 →
       exec (.br h i) s = .next (finish s s.cur i.bytes 1 (.to (s.me.pc + 4 * i.sext)))) ∧
     (ready (.call h i) h [] (some lnReg) s = true → (s.me.pc + 4 * i.sext).toNat % 4 = 0 →
       exec (.call h i) s = .next (finish (s.modMe fun x => x.setG lnReg (x.pc + BitVec.ofNat 64 i.bytes)) s.cur i.bytes 1
         (.to (s.me.pc + 4 * i.sext)))) ∧
     (ready (.ret h a) h [a] none s = true → (arg (operands s [a]) 0).toNat % 4 = 0 →
       exec (.ret h a) s = .next (finish (popped s [a]) s.cur 8 1 (.to (arg (operands s [a]) 0)))) ∧
     (ready (.jmp h a i) h [a] none s = true → (arg (operands s [a]) 0 + i.sext).toNat % 4 = 0 →
       exec (.jmp h a i) s = .next (finish (popped s [a]) s.cur i.bytes 1 (.to (arg (operands s [a]) 0 + i.sext)))) ∧
     (ready (.callr h a) h [a] (some lnReg) s = true → (arg (operands s [a]) 0).toNat % 4 = 0 →
       exec (.callr h a) s = .next (finish ((popped s [a]).modMe fun x => x.setG lnReg (x.pc + BitVec.ofNat 64 8)) s.cur 8 1
         (.to (arg (operands s [a]) 0))))) ∧
  (∀ (h : Hdr) (a : Reg) (i : Imm) (s : State),
     (ready (.br h i) h [] none s = true → (s.me.pc + 4 * i.sext).toNat % 4 ≠ 0 →
       exec (.br h i) s = .next (raise s s.cur ⟨.misalign, s.me.pc + 4 * i.sext, 0⟩)) ∧
     (ready (.call h i) h [] (some lnReg) s = true → (s.me.pc + 4 * i.sext).toNat % 4 ≠ 0 →
       exec (.call h i) s = .next (raise s s.cur ⟨.misalign, s.me.pc + 4 * i.sext, 0⟩)) ∧
     (ready (.ret h a) h [a] none s = true → (arg (operands s [a]) 0).toNat % 4 ≠ 0 →
       exec (.ret h a) s = .next (raise s s.cur ⟨.misalign, arg (operands s [a]) 0, 0⟩)) ∧
     (ready (.jmp h a i) h [a] none s = true → (arg (operands s [a]) 0 + i.sext).toNat % 4 ≠ 0 →
       exec (.jmp h a i) s = .next (raise s s.cur ⟨.misalign, arg (operands s [a]) 0 + i.sext, 0⟩)) ∧
     (ready (.callr h a) h [a] (some lnReg) s = true → (arg (operands s [a]) 0).toNat % 4 ≠ 0 →
       exec (.callr h a) s = .next (raise s s.cur ⟨.misalign, arg (operands s [a]) 0, 0⟩)))

/-- Reads and writes of system registers (R31 to R37, R55, R124): `mfs` gives the register, and FFLAGS waits for the slab instructions of the
slot; `mts` writes the fields of the register; a write of RSEED clears the retired count; RINGB and RINGL change while the ring is empty. -/
def Obligations.SystemRegisters : Prop :=
∀ (h : Hdr) (r : SysReg) (t : TReg) (d a : Reg) (s : State),
    (ready (.mfs h r d) h [] (some d) s = true → (r = .fflags → slabBusy s s.cur = false) →
      exec (.mfs h r d) s = .next (finish (writeReg s s.cur d (sysRead s s.cur r)) s.cur 8 1 .fall)) ∧
    (ready (.mts h r a) h [a] none s = true →
      exec (.mts h r a) s = .next (finish (sysWrite (popped s [a]) r (arg (operands s [a]) 0)) s.cur 8 1 .fall)) ∧
    (ready (.rseedWrite h a) h [a] none s = true →
      exec (.rseedWrite h a) s = .next (finish ((popped s [a]).modMe fun x =>
        ({ x with rseed := arg (operands s [a]) 0, retired := 0 } : Slot).mendedSys .rseed) s.cur 8 1 .restart)) ∧
    (ready (.fflagsWrite h a) h [a] none s = true → slabBusy (popped s [a]) s.cur = false →
      exec (.fflagsWrite h a) s = .next (finish ((popped s [a]).modMe fun x =>
        ({ x with fflags := (arg (operands s [a]) 0).extractLsb' 0 5 } : Slot).mendedSys .fflags) s.cur 8 1 .fall)) ∧
    (ready (.ringbWrite h a) h [a] none s = true →
      ((popped s [a]).core (popped s [a]).myCore).ringt = ((popped s [a]).core (popped s [a]).myCore).ringh →
      exec (.ringbWrite h a) s = .next (finish ((popped s [a]).modMyCore fun c =>
        { c with ringb := (arg (operands s [a]) 0).extractLsb' 12 10 }) s.cur 8 1 .fall)) ∧
    (ready (.ringlWrite h a) h [a] none s = true →
      ((popped s [a]).core (popped s [a]).myCore).ringt = ((popped s [a]).core (popped s [a]).myCore).ringh →
      exec (.ringlWrite h a) s = .next (finish ((popped s [a]).modMyCore fun c =>
        { c with spill := (arg (operands s [a]) 0).extractLsb' 12 44,
                 spillPages := (arg (operands s [a]) 0).extractLsb' 56 8 }) s.cur 8 1 .fall)) ∧
    (ready (.tdescWrite h t a) h [a] none s = true →
      exec (.tdescWrite h t a) s = .next (finish ((popped s [a]).modMyCore fun c =>
        { c with tdesc := c.tdesc.put t.toNat (TDesc.ofWord (arg (operands s [a]) 0)), descBad := c.descBad.erase t.toNat }) s.cur 8 1 .fall))

/-- `trap` and `brk` take their traps with the immediate as TVAL; `tret` traps ILLEGAL at trap level 0 and MISALIGN for a target that is no multiple
of 4, else it returns to its target at level 0 and takes the first pending trap there (R125, R126, R355). -/
def Obligations.TrapInstructions : Prop :=
∀ (h : Hdr) (a : Reg) (i : Imm) (n : BitVec 16) (s : State),
    (ready (.trap h i) h [] none s = true →
      exec (.trap h i) s = .next (raise s s.cur ⟨.trap, i.zext, 0⟩)) ∧
    (ready (.brk h n) h [] none s = true →
      exec (.brk h n) s = .next (raise s s.cur ⟨.brk, n.zeroExtend 64, 0⟩)) ∧
    (ready (.trap h i) h [] none s = true → s.me.tlvl = false → (s.core s.myCore).tvec ≠ 0 → ∃ t y,
      exec (.trap h i) s = .next t ∧ y = t.slot s.cur ∧ y.cause = 0x0D ∧ y.late = false ∧ y.txpc = s.me.pc ∧ y.tval = i.zext ∧ y.tlvl = true ∧
      y.pc = ((s.core s.myCore).tvec ++ (0 : BitVec 2)).zeroExtend 64) ∧
    (ready (.brk h n) h [] none s = true → s.me.tlvl = false → (s.core s.myCore).tvec ≠ 0 → ∃ t y,
      exec (.brk h n) s = .next t ∧ y = t.slot s.cur ∧ y.cause = 0x0C ∧ y.late = false ∧ y.txpc = s.me.pc ∧ y.tval = n.zeroExtend 64 ∧ y.tlvl = true ∧
      y.pc = ((s.core s.myCore).tvec ++ (0 : BitVec 2)).zeroExtend 64) ∧
    (ready (.tret h a) h [a] none s = true →
      (s.me.tlvl = false → exec (.tret h a) s = .next (raise s s.cur ⟨.illegal, 0, 0⟩)) ∧
      (s.me.tlvl = true → (arg (operands s [a]) 0).toNat % 4 ≠ 0 →
        exec (.tret h a) s = .next (raise s s.cur ⟨.misalign, arg (operands s [a]) 0, 0⟩)) ∧
      (s.me.tlvl = true → (arg (operands s [a]) 0).toNat % 4 = 0 →
        exec (.tret h a) s = .next (trapReturn (finish (popped s [a]) s.cur 8 1 (.to (arg (operands s [a]) 0))) s.cur
          (arg (operands s [a]) 0))))

/-! ### Scalar floating point (R127 to R131) -/

/-- Sums, products, quotients, roots and roundings to integral values round once, with the latency of R111 (R128). -/
def Obligations.FloatArithmetic : Prop :=
∀ (h : Hdr) (f : Fmt) (rnd : Rnd) (d a b c : Reg),
    Rounds (.fadd h f rnd d a b) h f rnd [a, b] d 4 (fun ff k x y _ => ff.add k 0 0 x y) ∧
    Rounds (.fsub h f rnd d a b) h f rnd [a, b] d 4 (fun ff k x y _ => ff.sub k 0 0 x y) ∧
    Rounds (.fmul h f rnd d a b) h f rnd [a, b] d 4 (fun ff k x y _ => ff.mul k 0 0 x y) ∧
    Rounds (.ffma h f rnd d a b c) h f rnd [a, b, c] d 4 (fun ff k x y z => ff.fma k 0 0 false x y z) ∧
    Rounds (.fdiv h f rnd d a b) h f rnd [a, b] d (if f = .f32 then 14 else 9) (fun ff k x y _ => ff.div k 0 0 x y) ∧
    Rounds (.fsqrt h f rnd d a) h f rnd [a] d (if f = .f32 then 16 else 10) (fun ff k x _ _ => ff.sqrt k 0 0 x) ∧
    Rounds (.fround h f rnd d a) h f rnd [a] d 4 (fun ff k x _ _ => ff.integral k 0 0 x)

/-- Comparisons, the lesser and the greater, sign operations and classes, with latency 2 (R111, R129); `fsgn` and `fclass` raise no flag, and `fsgn`
reads B only where its sign comes from there. -/
def Obligations.FloatComparesSignsAndClasses : Prop :=
∀ (h : Hdr) (f : Fmt) (ff : FF) (cond : FCond) (op : SgnOp) (d a b : Reg) (q : PReg) (s : State), FF.ofFmt f = some ff →
    (∀ (g : Bool) (r : Nat × Flags),
      ready (if g then .fmax h f d a b else .fmin h f d a b) h [a, b] (some d) s = true →
      r = ff.minmax (popped s [a, b]).me.fzi g ((arg (operands s [a, b]) 0).toNat % 2 ^ ff.width)
        ((arg (operands s [a, b]) 1).toNat % 2 ^ ff.width) →
      r.2 &&& (popped s [a, b]).me.fen = 0 →
      exec (if g then .fmax h f d a b else .fmin h f d a b) s = .next (finish (writeReg ((popped s [a, b]).modMe fun x =>
        { x with fflags := x.fflags ||| r.2 }) s.cur d (BitVec.ofNat 64 r.1)) s.cur 8 2 .fall)) ∧
    (∀ r : Bool × Flags, ready (.fcmp h cond f q a b) h [a, b] none s = true →
      r = ff.compare (popped s [a, b]).me.fzi cond ((arg (operands s [a, b]) 0).toNat % 2 ^ ff.width)
        ((arg (operands s [a, b]) 1).toNat % 2 ^ ff.width) →
      r.2 &&& (popped s [a, b]).me.fen = 0 →
      exec (.fcmp h cond f q a b) s = .next (finish (((popped s [a, b]).modMe fun x =>
        { x with fflags := x.fflags ||| r.2 }).modMe fun x => x.setP q r.1) s.cur 8 2 .fall)) ∧
    (∀ srcs : List Reg, srcs = (if op = .abs ∨ op = .neg then [a] else [a, b]) →
      ready (.fsgn h op f d a b) h srcs (some d) s = true →
      exec (.fsgn h op f d a b) s = .next (finish (writeReg (popped s srcs) s.cur d (BitVec.ofNat 64
        (ff.sgn op ((arg (operands s srcs) 0).toNat % 2 ^ ff.width) ((arg (operands s srcs) 1).toNat % 2 ^ ff.width))))
        s.cur 8 2 .fall)) ∧
    (ready (.fclass h f d a) h [a] (some d) s = true →
      exec (.fclass h f d a) s = .next (finish (writeReg (popped s [a]) s.cur d (BitVec.ofNat 64
        (ff.cls ((arg (operands s [a]) 0).toNat % 2 ^ ff.width)))) s.cur 8 2 .fall))

/-- `fcvt` between float formats rounds once into its destination; to an integer it gives the integer of its type, from an integer it
rounds the exact value (R130). -/
def Obligations.FloatConversions : Prop :=
∀ (h : Hdr) (x y : Fmt) (fx fy : FF) (ty : IntTy) (rnd : Rnd) (d a : Reg) (s : State) (c : Capture) (v : Nat),
    FF.ofFmt x = some fx → FF.ofFmt y = some fy → captureOf (popped s [a]).me s.cur rnd = some c →
    v = (arg (operands s [a]) 0).toNat % 2 ^ fy.width →
    Rounds (.fcvt h (.ff x y) rnd d a) h y rnd [a] d 4 (fun ff k z _ _ => fx.convert ff k 0 0 z) ∧
    (∀ r : Int × Flags, ready (.fcvt h (.fi ty y) rnd d a) h [a] (some d) s = true →
      r = fy.toInt c 0 0 ty.bits ty.signed v → r.2 &&& (popped s [a]).me.fen = 0 →
      exec (.fcvt h (.fi ty y) rnd d a) s = .next (finish (writeReg ((popped s [a]).modMe fun z =>
        { z with fflags := z.fflags ||| r.2 }) s.cur d (ty.put r.1)) s.cur 8 4 .fall)) ∧
    (∀ r : Nat × Flags, ready (.fcvt h (.if_ x ty) rnd d a) h [a] (some d) s = true →
      r = fx.ofInt c 0 0 (ty.int (arg (operands s [a]) 0)) → r.2 &&& (popped s [a]).me.fen = 0 →
      exec (.fcvt h (.if_ x ty) rnd d a) s = .next (finish (writeReg ((popped s [a]).modMe fun z =>
        { z with fflags := z.fflags ||| r.2 }) s.cur d (BitVec.ofNat 64 r.1)) s.cur 8 4 .fall))

/-- An operation that reads a NaN delivers the canonical NaN of its format; the lesser or greater of a NaN and a number that is no NaN is
the number's own pattern read back, and of two NaNs the canonical NaN (R44, R128, R129). -/
def Obligations.NaNsAreCanonical : Prop :=
∀ (f : FF) (c : Capture) (l g a b x : Nat) (neg m : Bool),
    ((f.read c.fzi a).isNan = true ∨ (f.read c.fzi b).isNan = true →
      (f.add c l g a b).1 = f.qnan ∧ (f.sub c l g a b).1 = f.qnan ∧ (f.mul c l g a b).1 = f.qnan ∧
      (f.div c l g a b).1 = f.qnan ∧ (f.fma c l g neg a b x).1 = f.qnan) ∧
    ((f.read c.fzi x).isNan = true → (f.fma c l g neg a b x).1 = f.qnan ∧ (f.sqrt c l g x).1 = f.qnan ∧
      (f.integral c l g x).1 = f.qnan) ∧
    ((f.read c.fzi a).isNan = true → (f.read c.fzi b).isNan = true → (f.minmax c.fzi m a b).1 = f.qnan) ∧
    ((f.read c.fzi a).isNan = true → (f.read c.fzi b).isNan = false → (f.minmax c.fzi m a b).1 = f.pattern (f.read c.fzi b)) ∧
    ((f.read c.fzi a).isNan = false → (f.read c.fzi b).isNan = true → (f.minmax c.fzi m a b).1 = f.pattern (f.read c.fzi a)) ∧
    (∀ sg mn e, f.pattern (.fin sg mn e) = f.pack sg mn e) ∧ ∀ sg, f.pattern (.inf sg) = f.infBits sg

/-! ### Memory instructions (R132 to R156) -/

/-- Loads and stores (R135 to R138, R156): once the checks of R134 pass, the page is not busy and no byte read is poisoned, a load gives the
typed value of the bytes as the memory order delivers them (R261), a load on the constant path those of R268, and a store writes the low
bytes of its source at the address's key; a store with a wake waits until the wake has room (R148). -/
def Obligations.LoadsAndStores : Prop :=
∀ (h : Hdr) (ty : IntTy) (d a b c : Reg) (m : Mem) (i : Imm) (wk : Bool),
    Runs (.ld h ty d m) h m.regs (some d) (fun v s t => ∃ x u, loadAt s (m.ea v) ty.bytes = .ok (x, u) ∧
      t = writeReg u u.cur d (ty.val x)) ∧
    Runs (.ldc h ty d m) h m.regs (some d) (fun v s t => ∃ key, check s s.cur (m.ea v) ty.bytes rR = .ok key ∧
      if isScratchKey key then ∃ x u, loadAt s (m.ea v) ty.bytes = .ok (x, u) ∧ t = writeReg u u.cur d (ty.val x)
      else pathBusy s key = false ∧ ∃ bs ps u,
        constBytes (plbFill s s.myCore key s.owner ((window s s.cur (m.ea v)).getD .global) (m.ea v)) s.cur key ty.bytes = (bs, ps, u) ∧
        ps.any id = false ∧
        t = writeReg u u.cur d (ty.val (BitVec.ofNat 64 (leWord bs)))) ∧
    Runs (.st h ty m c) h (m.regs ++ [c]) none (fun v s t =>
      storeAt s (m.ea v) ty.bytes (arg (m.rest v) 0) = .ok t) ∧
    Runs (.rld h ty d a b i) h [a, b] (some d) (fun v s t => ∃ ea x u, placeEa (arg v 0) (arg v 1) i = .ok ea ∧
      loadAt s ea ty.bytes = .ok (x, u) ∧ t = writeReg u u.cur d (ty.val x)) ∧
    Runs (.rst h wk ty a b i c) h [a, b, c] none (fun v s t => ∃ ea u, placeEa (arg v 0) (arg v 1) i = .ok ea ∧
      wakeRoom s wk (arg v 0) = .ok () ∧ storeAt s ea ty.bytes (arg v 2) = .ok u ∧ t = wakePlace u wk (arg v 0))

/-- A load from scratch memory that passes its checks and finds the latch of its bank open gives the bytes that stand there, and takes its place
in the order behind the last store to the line; a store to scratch memory that passes them leaves exactly its bytes there (R137, R261, R278). -/
def Obligations.ScratchLoadsAndStores : Prop :=
∀ (s l : State) (ea v : Word) (n key : Nat), check s s.cur ea n rR = .ok key → isScratchKey key = true → takeLatch s s.cur key = .ok l →
    (s.core s.myCore).copies.find? (lineOf key) = none →
    (anyPoison s key n = false → ∃ u, loadAt s ea n = .ok (BitVec.ofNat 64 (leNat n (readBytes s key n)), u) ∧
      u.me.tt = Time.later s.me.tt ((s.line (lineOf key)).wts + 1) ∧ ∀ k, readByte u k = readByte s k) ∧
    (check s s.cur ea n rW = .ok key → ∃ u, storeAt s ea n v = .ok u ∧
      u.me.tt = Time.later s.me.tt (s.line (lineOf key)).rts ∧
      ∀ k, readByte u k = if key ≤ k ∧ k < key + n then BitVec.ofNat 8 (v.toNat / 2 ^ (8 * (k - key))) else readByte s k)

/-- Indivisible read-modify-writes (R139, R140, R156): the old value goes to the destination, `amo` writes the combination of its operation and
`cas` its third operand where the old value has the bits of the second; on a scratch word without poison, with the latch of its bank open, the integer combinations are swap, sum,
and, or, exclusive or, lesser and greater. -/
def Obligations.Atomics : Prop :=
  (∀ (h : Hdr) (op : AmoOp) (ty : IntTy) (d a b c : Reg) (m : Mem) (i : Imm) (wk : Bool),
     Runs (.amo h op ty d m c) h (m.regs ++ [c]) (some d) (fun v s t => ∃ old u,
       updateAt s (m.ea v) ty.bytes (amoNew op ty (arg (m.rest v) 0)) = .ok (old, u) ∧ t = writeReg u u.cur d (ty.val old)) ∧
     Runs (.cas h ty d a i b c) h [a, b, c] (some d) (fun v s t => ∃ old u,
       updateAt s (arg v 0 + i.sext) ty.bytes (fun old s =>
         .ok (if old.setWidth ty.bits = (arg v 1).setWidth ty.bits then some (arg v 2) else none, s)) = .ok (old, u) ∧
       t = writeReg u u.cur d (ty.val old)) ∧
     Runs (.ramo h op wk ty d a b i c) h [a, b, c] (some d) (fun v s t => ∃ ea old u,
       placeEa (arg v 0) (arg v 1) i = .ok ea ∧ wakeRoom s wk (arg v 0) = .ok () ∧ updateAt s ea ty.bytes (amoNew op ty (arg v 2)) = .ok (old, u) ∧
       t = wakePlace (writeReg u u.cur d (ty.val old)) wk (arg v 0))) ∧
  (∀ (s l : State) (op : AmoOp) (ty : IntTy) (ea c : Word) (key : Nat), op ≠ .fadd → ty.is32or64 = true →
     check s s.cur ea ty.bytes (rR ||| rW) = .ok key → isScratchKey key = true → takeLatch s s.cur key = .ok l → anyPoison s key ty.bytes = false →
     ∃ (old : Word) (u : State), updateAt s ea ty.bytes (amoNew op ty c) = .ok (old, u) ∧
       old = BitVec.ofNat 64 (leNat ty.bytes (readBytes s key ty.bytes)) ∧
       leNat ty.bytes (readBytes u key ty.bytes) =
         (match op with
           | .swap | .fadd => c
           | .add => old + c
           | .and => old &&& c
           | .or => old ||| c
           | .xor => old ^^^ c
           | .min => if ty.int c < ty.int old then c else old
           | .max => if ty.int old < ty.int c then c else old).toNat % 2 ^ ty.bits)

/-- Full/empty words (R141 to R143): `ldfe` takes a FULL word and leaves it EMPTY unless it keeps it, `stfe` writes an EMPTY word, or any with
`ovr`, and leaves it FULL, `feset` sets the tag and `feqry` reads it into a predicate; each takes the latch of its bank (R278). -/
def Obligations.FullEmptyWords : Prop :=
∀ (h : Hdr) (ty : IntTy) (keep ovr full : Bool) (d c : Reg) (q : PReg) (m : Mem),
    Runs (.ldfe h ty keep d m) h m.regs (some d) (fun v s t => ∃ key u, feKey s s.cur (m.ea v) ty.bytes = .ok key ∧
      takeLatch s s.cur key = .ok u ∧ isFull s key = true ∧ anyPoison s key ty.bytes = false ∧
      t = writeReg (if keep then storeTime u s.cur key else setFull (storeTime u s.cur key) key false) s.cur d
        (ty.val (BitVec.ofNat 64 (leNat ty.bytes (readBytes s key ty.bytes))))) ∧
    Runs (.stfe h ty ovr m c) h (m.regs ++ [c]) none (fun v s t => ∃ key u, feKey s s.cur (m.ea v) ty.bytes = .ok key ∧
      takeLatch s s.cur key = .ok u ∧ (isFull s key = false ∨ ovr = true) ∧
      t = setFull (storeBytes u s.cur key (leBytes ty.bytes (arg (m.rest v) 0).toNat)) key true) ∧
    Runs (.feset h full m) h m.regs none (fun v s t => ∃ key u, feKey s s.cur (m.ea v) 8 = .ok key ∧ takeLatch s s.cur key = .ok u ∧
      t = setFull (storeTime u s.cur key) key full) ∧
    Runs (.feqry h q m) h m.regs none (fun v s t => ∃ key u, feKey s s.cur (m.ea v) 8 = .ok key ∧ takeLatch s s.cur key = .ok u ∧
      t = (storeTime u s.cur key).modMe fun x => x.setP q (isFull s key))

/-- Waits on a value, messages and wakes (R144 to R148): `waita` completes with the value once its comparison holds, `msg` once the target's
inbox has room, `wait` with the oldest message, `wait.wk` with 1 once the latch is set, which it clears, and `wake` sets the target's latch; a
message to a slot of a running context stands behind those that were there. -/
def Obligations.WaitsMessagesAndWakes : Prop :=
  (∀ (h : Hdr) (cond : Cond) (ty : IntTy) (d a c : Reg) (m : Mem) (i : Imm),
     Runs (.waita h cond ty d m c) h (m.regs ++ [c]) (some d) (fun v s t => ∃ x u,
       loadAt s (m.ea v) ty.bytes = .ok (x, u) ∧ cond.holds (ty.int x) (ty.int (arg (m.rest v) 0)) = true ∧
       t = writeReg u u.cur d (ty.val x)) ∧
     Runs (.msg h a c i) h [a, c] none (fun v s t => ∃ j, placeSlot s s.cur (arg v 0) = some j ∧
       deliverMsg s j (arg v 1 + i.sext) = some t) ∧
     Runs (.wait h d i) h [] (some d) (fun _ s t => ∃ x rest, s.me.inbox = x :: rest ∧ s.me.inboxBad.headD false = false ∧
       t = writeReg (s.modMe fun y => { y with inbox := rest, inboxBad := y.inboxBad.tail, tt := (loadLine s.me.tt s.me.inboxLine).1,
                                               inboxLine := (loadLine s.me.tt s.me.inboxLine).2 }) s.cur d x) ∧
     Runs (.waitWk h d i) h [] (some d) (fun _ s t => s.me.wake = true ∧
       t = writeReg (s.modMe fun y => { y with wake := false, tt := (loadLine s.me.tt s.me.latchLine).1,
                                               latchLine := (loadLine s.me.tt s.me.latchLine).2 }) s.cur d 1) ∧
     Runs (.wake h a) h [a] none (fun v s t => ∃ j, placeSlot s s.cur (arg v 0) = some j ∧ deliverWake s j = some t)) ∧
  (∀ (s : State) (j : Nat) (v : Word), (s.ctx (ownerOf j)).phase = .running →
     ((s.slot j).inbox.length < 4 → ((s.ctx (ownerOf j)).messageTo.get [] (coreOf j)).contains j = false →
       ∃ t, deliverMsg s j v = some t ∧ (t.slot j).inbox = (s.slot j).inbox ++ [v] ∧ t.mem = s.mem) ∧
     ∃ t, deliverWake s j = some t ∧ (t.slot j).wake = true ∧ (t.slot j).inbox = (s.slot j).inbox ∧ t.mem = s.mem)

/-- `fence` drops the constant-path copies that its scope names, and orders the writes before it for them (R149, R268), `pref` changes nothing that a program sees (R152), `touch` reports on an address (R151),
and `lease` gives a code where a range may not be declared, else declares it once its pages are resident and gives 0 (R150). -/
def Obligations.FencesHintsAndLeases : Prop :=
∀ (h : Hdr) (sc : Scope) (llc : Bool) (rights : BitVec 4) (d a b : Reg) (m : Mem) (i : Imm) (s : State) (ea : Word) (lo hi n : Nat)
    (u : State),
    Completes (.fence h sc) h [] none 1 (fun s _ => fenceConst s s.cur sc) ∧
    Completes (.pref h llc m) h m.regs none 1 (fun s _ => s) ∧
    Runs (.touch h d m) h m.regs (some d) (fun v s t => t = writeReg s s.cur d (touchWord s s.cur (m.ea v))) ∧
    (ready (.lease h rights d a i b) h [a, b] (some d) s = true → unpaired s = true → u = popped s [a, b] →
      ea = arg (operands s [a, b]) 0 + i.sext → n = (arg (operands s [a, b]) 1).toNat → n ≠ 0 → tagOf ea = 0 → offsetOf ea + n ≤ 2 ^ 55 →
      lo = offsetOf ea / 2 ^ 15 * 2 ^ 15 → hi = (offsetOf ea + n - 1) / 2 ^ 15 * 2 ^ 15 + 2 ^ 15 →
      (leaseCode u u.owner ea lo hi rights ≠ 0 → exec (.lease h rights d a i b) s = .next (finish (writeReg u s.cur d
        (BitVec.ofNat 64 (leaseCode u u.owner ea lo hi rights))) s.cur i.bytes 1 .fall)) ∧
      (leaseCode u u.owner ea lo hi rights = 0 →
        rangeResident (leasePages u u.owner lo hi) u.owner lo hi = true →
        exec (.lease h rights d a i b) s = .next (finish (writeReg ((spreadLease (leasePages u u.owner lo hi) u.owner
          (mergedLease ((leasePages u u.owner lo hi).ctx u.owner) lo hi rights)).modCtx u.owner fun c => addLease c lo hi rights) s.cur d 0)
          s.cur i.bytes 1 .fall)))

/-- An access is checked in the order of R134: the window, alignment, for scratch a closed fence (R391) and the mode of the bank, and in the other windows the holder, the
generation, the rights and the lease, and is made where all hold; the first condition that fails gives the trap, with the address as TVAL, and a load or store
that meets it has no effect; the rights are those of the held page, and R, W and E within a live arena. -/
def Obligations.AccessChecksInOrder : Prop :=
  (∀ (s : State) (k o' node n : Nat) (extra : List Nat) (ea : Word) (need : BitVec 4),
     (window s k ea = none → checkAccess s k node extra ea n true need = .error ⟨.prot, ea, need⟩) ∧
     (∀ w, window s k ea = some w → ea.toNat % n ≠ 0 → checkAccess s k node extra ea n true need = .error ⟨.misalign, ea, need⟩) ∧
     (∀ q off, window s k ea = some (.scratch q off) → ea.toNat % n = 0 → s.fencedFrom k q = true →
       checkAccess s k node extra ea n true need = .error ⟨.prot, ea, need⟩) ∧
     (∀ q off, window s k ea = some (.scratch q off) → ea.toNat % n = 0 → s.fencedFrom k q = false → (s.quad q).mode (bankOf off) ≠ .scr →
       checkAccess s k node extra ea n true need = .error ⟨.bankMode, ea, need⟩) ∧
     (∀ q off, window s k ea = some (.scratch q off) → ea.toNat % n = 0 → s.fencedFrom k q = false → (s.quad q).mode (bankOf off) = .scr →
       checkAccess s k node extra ea n true need = .ok (scratchKey q off)) ∧
     (∀ o x w, o = ownerOf k → x = s.arena (arenaSlot ea) → window s k ea = some w → ea.toNat % n = 0 → (∀ q off, w ≠ .scratch q off) →
       (w = .arena → (x.holder ≠ 0 ∧ x.holder ≠ o) ∨ (x.holder = 0 ∧ x.last ≠ 0 ∧ x.last ≠ o) →
         checkAccess s k node extra ea n true need = .error ⟨.prot, ea, need⟩) ∧
       (w = .arena → x.holder = o ∨ (x.holder = 0 ∧ (x.last = 0 ∨ x.last = o)) → tagOf ea ≠ x.gen →
         checkAccess s k node extra ea n true need = .error ⟨.arenaStale, ea, need⟩) ∧
       (w = .global ∨ ((x.holder = o ∨ (x.holder = 0 ∧ (x.last = 0 ∨ x.last = o))) ∧ tagOf ea = x.gen) →
         (rightsAt s o w ea &&& need ≠ need → checkAccess s k node extra ea n true need = .error ⟨.prot, ea, need⟩) ∧
         (rightsAt s o w ea &&& need = need → leased s o node extra ea = false →
           checkAccess s k node extra ea n true need = .error ⟨.leaseOut, ea, need⟩) ∧
         (rightsAt s o w ea &&& need = need → leased s o node extra ea = true → checkAccess s k node extra ea n true need = .ok (offsetOf ea)))) ∧
     (o' = ownerOf k → o' ≠ 0 → rightsAt s o' .global ea = (if (s.page (offsetOf ea / 2 ^ 15)).holder = o' then (s.page (offsetOf ea / 2 ^ 15)).rights else 0) ∧
       rightsAt s o' .arena ea = if (s.arena (arenaSlot ea)).holder = o' ∧ arenaOffset ea < (s.arena (arenaSlot ea)).pages * 2 ^ 15 then 11 else 0)) ∧
  (∀ (h : Hdr) (ty : IntTy) (d c : Reg) (m : Mem) (t : Trap),
     Traps (.ld h ty d m) h m.regs (some d) (fun v s => check s s.cur (m.ea v) ty.bytes rR = .error (.trap t)) (fun _ _ => t) ∧
     Traps (.st h ty m c) h (m.regs ++ [c]) none (fun v s => check s s.cur (m.ea v) ty.bytes rW = .error (.trap t)) (fun _ _ => t))

/-! ### Vector instructions (R157 to R178) -/

/-- Vector instructions enter the slab queue with the execution times of R161, those with accesses to memory with the bank turns that their
active lanes take (R162, R182); `vshf` only with a shift of at most the number of lanes, else it traps ILLEGAL (R172). -/
def Obligations.VectorDispatch : Prop :=
  (∀ (v : VHdr) (lt : LaneTy) (pf : DotFmt) (sat neg : Bool) (rnd : Rnd) (so : SgnOp) (co : CntOp) (d a b : VReg),
     DispatchesVector (.vadd v lt sat rnd d a b) v.hdr [] none (if lt = .f32 then rnd else anyMode) (fun _ => if lt = .f32 then 4 else 2) ∧
     DispatchesVector (.vsub v lt sat rnd d a b) v.hdr [] none (if lt = .f32 then rnd else anyMode) (fun _ => if lt = .f32 then 4 else 2) ∧
     DispatchesVector (.vmul v lt sat rnd d a b) v.hdr [] none (if lt = .f32 then rnd else anyMode) (fun _ => 4) ∧
     DispatchesVector (.vfma v lt neg sat rnd d a b) v.hdr [] none (if lt = .f32 then rnd else anyMode) (fun _ => 4) ∧
     DispatchesVector (.vdot v pf sat rnd d a b) v.hdr [] none (if pf.lane = .f32 then rnd else anyMode) (fun _ => 4) ∧
     DispatchesVector (.vdiv v lt rnd d a b) v.hdr [] none (if lt = .f32 then rnd else anyMode) (fun _ => if lt = .f32 then 16 else 20) ∧
     DispatchesVector (.vsqrt v rnd d a) v.hdr [] none rnd (fun _ => 16) ∧
     DispatchesVector (.vmin v lt d a b) v.hdr [] none anyMode (fun _ => if lt = .f32 then 4 else 2) ∧
     DispatchesVector (.vmax v lt d a b) v.hdr [] none anyMode (fun _ => if lt = .f32 then 4 else 2) ∧
     DispatchesVector (.vabs v lt sat d a) v.hdr [] none anyMode (fun _ => 2) ∧
     DispatchesVector (.vneg v lt sat d a) v.hdr [] none anyMode (fun _ => 2) ∧
     DispatchesVector (.vsgn v so d a b) v.hdr [] none anyMode (fun _ => 2) ∧
     DispatchesVector (.vand v d a b) v.hdr [] none anyMode (fun _ => 2) ∧
     DispatchesVector (.vor v d a b) v.hdr [] none anyMode (fun _ => 2) ∧
     DispatchesVector (.vxor v d a b) v.hdr [] none anyMode (fun _ => 2) ∧
     DispatchesVector (.vshl v d a b) v.hdr [] none anyMode (fun _ => 2) ∧
     DispatchesVector (.vshr v d a b) v.hdr [] none anyMode (fun _ => 2) ∧
     DispatchesVector (.vsar v d a b) v.hdr [] none anyMode (fun _ => 2) ∧
     DispatchesVector (.vcnt v co d a) v.hdr [] none anyMode (fun _ => 2) ∧
     DispatchesVector (.vrcp v rnd d a) v.hdr [] none rnd (fun _ => 14) ∧
     DispatchesVector (.vrsq v rnd d a) v.hdr [] none rnd (fun _ => 14) ∧
     DispatchesVector (.vexp2 v rnd d a) v.hdr [] none rnd (fun _ => 14) ∧
     DispatchesVector (.vlog2 v rnd d a) v.hdr [] none rnd (fun _ => 14)) ∧
  (∀ (h : Hdr) (v : VHdr) (k : VCmp) (tt : BitVec 4) (dst src : Elt) (sg sat : Bool) (ty : IntTy) (bt : B4Ty) (op : RedOp) (lt : LaneTy)
     (rnd : Rnd) (d a b : VReg) (m ma mb : MReg) (g g2 : Reg) (i : Imm),
     DispatchesVector (.vcmp v k m a b) v.hdr [] none anyMode (fun _ => if k.lane = .f32 then 4 else 2) ∧
     DispatchesVector (.vsel h d a b ma) h [] none anyMode (fun _ => 2) ∧
     DispatchesVector (.vmsk h tt m ma mb) h [] none anyMode (fun _ => 2) ∧
     DispatchesVector (.vmskCnt h g ma) h [] (some g) anyMode (fun _ => 2) ∧
     DispatchesVector (.vmskFfs h g ma) h [] (some g) anyMode (fun _ => 2) ∧
     DispatchesVector (.vmskFirst h m g) h [g] none anyMode (fun _ => 2) ∧
     DispatchesVector (.vcvt v dst src rnd d a) v.hdr [] none (if (eltFF dst).isNone && (eltFF src).isNone then anyMode else rnd)
       (fun _ => 4) ∧
     DispatchesVector (.vsat v sg ty d a) v.hdr [] none anyMode (fun _ => 2) ∧
     DispatchesVector (.vpack v bt rnd d a) v.hdr [] none rnd (fun _ => 6) ∧
     DispatchesVector (.vunpk v d a) v.hdr [] none anyMode (fun _ => 6) ∧
     DispatchesVector (.vperm v d a b) v.hdr [] none anyMode (fun _ => 6) ∧
     Dispatches (.vshf v d a b i) v.hdr [] none (fun _ => anyMode) (fun _ _ _ => 6)
       (fun _ s => if lanes (s.core s.myCore).gangw < i.zext.toNat then .error ill else .ok []) ∧
     Traps (.vshf v d a b i) v.hdr [] none (fun _ s => lanes (s.core s.myCore).gangw < i.zext.toNat) (fun _ _ => ⟨.illegal, 0, 0⟩) ∧
     DispatchesVector (.vbcast v d g) v.hdr [g] none anyMode (fun _ => 2) ∧
     DispatchesVector (.vins v d g g2 i) v.hdr [g, g2] none anyMode (fun _ => 2) ∧
     DispatchesVector (.vext h sg g a g2 i) h [g2] (some g) anyMode (fun _ => 2) ∧
     DispatchesVector (.vidx v d g i) v.hdr [g] none anyMode (fun _ => 2) ∧
     DispatchesVector (.vmov v d a) v.hdr [] none anyMode (fun _ => 2) ∧
     DispatchesVector (.vred v op lt sat rnd g a) v.hdr [] (some g) (if op = .add && lt = .f32 then rnd else anyMode)
       (fun n => 4 + 2 * n.log2) ∧
     DispatchesVector (.vscan v op lt sat rnd d a) v.hdr [] none (if op = .add && lt = .f32 then rnd else anyMode)
       (fun n => 4 + 2 * n.log2)) ∧
  (∀ (v : VHdr) (op : AmoOp) (ty : IntTy) (sc : BitVec 2) (wk : Bool) (d b : VReg) (a c : Reg) (i : Imm),
     Dispatches (.vld v ty d a i) v.hdr [a] none (fun _ => anyMode) (fun s g _ => vecTurns s s.cur (.vld v ty d a i) g 0) noChecks ∧
     Dispatches (.vst v ty d a i) v.hdr [a] none (fun _ => anyMode) (fun s g _ => vecTurns s s.cur (.vst v ty d a i) g 0) noChecks ∧
     Dispatches (.vlds v ty d a c i) v.hdr [a, c] none (fun _ => anyMode) (fun s g _ => vecTurns s s.cur (.vlds v ty d a c i) g 0) noChecks ∧
     Dispatches (.vsts v ty d a c i) v.hdr [a, c] none (fun _ => anyMode) (fun s g _ => vecTurns s s.cur (.vsts v ty d a c i) g 0) noChecks ∧
     Dispatches (.vldc v ty d a i) v.hdr [a] none (fun _ => anyMode) (fun s g _ => vecTurns s s.cur (.vldc v ty d a i) g 0) noChecks ∧
     Dispatches (.vgth v ty sc d a b i) v.hdr [a] none (fun _ => anyMode) (fun s g _ => vecTurns s s.cur (.vgth v ty sc d a b i) g 0) noChecks ∧
     Dispatches (.vsct v ty sc d a b i) v.hdr [a] none (fun _ => anyMode) (fun s g _ => vecTurns s s.cur (.vsct v ty sc d a b i) g 0) noChecks ∧
     Dispatches (.vrst v wk ty d a c i) v.hdr [a, c] none (fun _ => anyMode) (fun s g _ => vecTurns s s.cur (.vrst v wk ty d a c i) g 0) noChecks ∧
     Dispatches (.vamo v op ty sc d a b i) v.hdr [a] none (fun _ => if op = .fadd then .slot else anyMode) (fun s g _ => vecTurns s s.cur (.vamo v op ty sc d a b i) g 0) noChecks)

/-- The lanes that vector instructions give: integer lanes wrap, or clamp under SAT, float lanes round once under the mode captured at dispatch with
the lane as L; dot products, bitwise operations, shifts by the low five bits, counts, moves, selections, permutations, conversions, packed vectors and scans
(R158, R160, R167, R168, R170, R172 to R178); and vector memory instructions behind their last lane (R162, R163, R165).  How a scan reads its leaves and
flushes its nodes is the model's inference (DEDUCED log 76). -/
def Obligations.VectorLanes : Prop :=
  (∀ (v : VHdr) (lt : LaneTy) (sat neg : Bool) (rnd : Rnd) (so : SgnOp) (d a b : VReg),
     (lt ≠ .f32 →
       LaneResult (.vadd v lt sat rnd d a b) v d (fun _ x l => intLane lt sat (laneInt lt (x.getV a l) + laneInt lt (x.getV b l))) ∧
       LaneResult (.vsub v lt sat rnd d a b) v d (fun _ x l => intLane lt sat (laneInt lt (x.getV a l) - laneInt lt (x.getV b l))) ∧
       LaneResult (.vmul v lt sat rnd d a b) v d (fun _ x l => intLane lt sat (laneInt lt (x.getV a l) * laneInt lt (x.getV b l))) ∧
       LaneResult (.vfma v lt neg sat rnd d a b) v d (fun _ x l => intLane lt sat
         ((if neg then -(laneInt lt (x.getV a l) * laneInt lt (x.getV b l)) else laneInt lt (x.getV a l) * laneInt lt (x.getV b l)) +
           laneInt lt (x.getV d l))) ∧
       LaneResult (.vmin v lt d a b) v d (fun _ x l => if laneInt lt (x.getV b l) < laneInt lt (x.getV a l) then x.getV b l else x.getV a l) ∧
       LaneResult (.vmax v lt d a b) v d (fun _ x l => if laneInt lt (x.getV a l) < laneInt lt (x.getV b l) then x.getV b l else x.getV a l) ∧
       LaneResult (.vabs v lt sat d a) v d (fun _ x l => intLane lt sat (laneInt lt (x.getV a l)).natAbs) ∧
       LaneResult (.vneg v lt sat d a) v d (fun _ x l => intLane lt sat (-(laneInt lt (x.getV a l))))) ∧
     LaneResult (.vadd v .f32 sat rnd d a b) v d (fun o x l =>
       BitVec.ofNat 32 (f32.add o.cap l 0 (x.getV a l).toNat (x.getV b l).toNat).1) ∧
     LaneResult (.vsub v .f32 sat rnd d a b) v d (fun o x l =>
       BitVec.ofNat 32 (f32.sub o.cap l 0 (x.getV a l).toNat (x.getV b l).toNat).1) ∧
     LaneResult (.vmul v .f32 sat rnd d a b) v d (fun o x l =>
       BitVec.ofNat 32 (f32.mul o.cap l 0 (x.getV a l).toNat (x.getV b l).toNat).1) ∧
     LaneResult (.vfma v .f32 neg sat rnd d a b) v d (fun o x l =>
       BitVec.ofNat 32 (f32.fma o.cap l 0 neg (x.getV a l).toNat (x.getV b l).toNat (x.getV d l).toNat).1) ∧
     LaneResult (.vdiv v .f32 rnd d a b) v d (fun o x l =>
       BitVec.ofNat 32 (f32.div o.cap l 0 (x.getV a l).toNat (x.getV b l).toNat).1) ∧
     LaneResult (.vsqrt v rnd d a) v d (fun o x l => BitVec.ofNat 32 (f32.sqrt o.cap l 0 (x.getV a l).toNat).1) ∧
     LaneResult (.vmin v .f32 d a b) v d (fun o x l =>
       BitVec.ofNat 32 (f32.minmax o.cap.fzi false (x.getV a l).toNat (x.getV b l).toNat).1) ∧
     LaneResult (.vmax v .f32 d a b) v d (fun o x l =>
       BitVec.ofNat 32 (f32.minmax o.cap.fzi true (x.getV a l).toNat (x.getV b l).toNat).1) ∧
     LaneResult (.vsgn v so d a b) v d (fun _ x l => BitVec.ofNat 32 (f32.sgn so (x.getV a l).toNat (x.getV b l).toNat)) ∧
     LaneResult (.vrcp v rnd d a) v d (fun o x l => BitVec.ofNat 32 (fRcp o.cap l (x.getV a l).toNat).1) ∧
     LaneResult (.vrsq v rnd d a) v d (fun o x l => BitVec.ofNat 32 (fRsq o.cap l (x.getV a l).toNat).1) ∧
     LaneResult (.vexp2 v rnd d a) v d (fun o x l => BitVec.ofNat 32 (fExp2 o.cap l (x.getV a l).toNat).1) ∧
     LaneResult (.vlog2 v rnd d a) v d (fun o x l => BitVec.ofNat 32 (fLog2 o.cap l (x.getV a l).toNat).1)) ∧
  (∀ (v : VHdr) (d a b : VReg) (g : Reg) (i : Imm),
     LaneResult (.vand v d a b) v d (fun _ x l => x.getV a l &&& x.getV b l) ∧
     LaneResult (.vor v d a b) v d (fun _ x l => x.getV a l ||| x.getV b l) ∧
     LaneResult (.vxor v d a b) v d (fun _ x l => x.getV a l ^^^ x.getV b l) ∧
     LaneResult (.vshl v d a b) v d (fun _ x l => x.getV a l <<< ((x.getV b l).toNat % 32)) ∧
     LaneResult (.vshr v d a b) v d (fun _ x l => x.getV a l >>> ((x.getV b l).toNat % 32)) ∧
     LaneResult (.vsar v d a b) v d (fun _ x l => (x.getV a l).sshiftRight ((x.getV b l).toNat % 32)) ∧
     LaneResult (.vmov v d a) v d (fun _ x l => x.getV a l) ∧
     LaneResult (.vbcast v d g) v d (fun o _ _ => (arg o.args 0).setWidth 32) ∧
     LaneResult (.vidx v d g i) v d (fun o _ l => (arg o.args 0 + BitVec.ofNat 64 l * i.sext).setWidth 32)) ∧
  (∀ (h : Hdr) (v : VHdr) (lt : LaneTy) (op : RedOp) (co : CntOp) (bt : B4Ty) (ty : IntTy) (dst src : Elt) (sg sat : Bool) (rnd : Rnd) (d a b : VReg)
     (k : MReg) (g g2 : Reg) (i : Imm),
     LaneResult (.vdot v .bf16 sat rnd d a b) v d (fun o x l => (dotFloat bf16 o.cap l (x.getV a l) (x.getV b l) (x.getV d l)).1) ∧
     LaneResult (.vdot v .f16 sat rnd d a b) v d (fun o x l => (dotFloat f16 o.cap l (x.getV a l) (x.getV b l) (x.getV d l)).1) ∧
     LaneResult (.vdot v .s16 sat rnd d a b) v d (fun _ x l => intLane .s32 sat ((x.getV d l).toInt + ((List.range 2).map fun j =>
       ((x.getV a l).extractLsb' (16 * j) 16).toInt * ((x.getV b l).extractLsb' (16 * j) 16).toInt).sum)) ∧
     LaneResult (.vdot v .s8 sat rnd d a b) v d (fun _ x l => intLane .s32 sat ((x.getV d l).toInt + ((List.range 4).map fun j =>
       ((x.getV a l).extractLsb' (8 * j) 8).toInt * ((x.getV b l).extractLsb' (8 * j) 8).toInt).sum)) ∧
     LaneResult (.vcnt v co d a) v d (fun _ x l => cntLane co (x.getV a l)) ∧
     (lt ≠ .f32 → LaneResult (.vdiv v lt rnd d a b) v d (fun _ x l =>
       BitVec.ofInt 32 (divRem (if lt = .s32 then .s32 else .n32) ((x.getV a l).zeroExtend 64) ((x.getV b l).zeroExtend 64)).1)) ∧
     LaneResult (.vcvt v dst src rnd d a) v d (fun o x l => (cvtLane dst src o.cap l (x.getV a l)).1) ∧
     LaneResult (.vsat v sg ty d a) v d (fun _ x l =>
       BitVec.ofInt 32 (clampInt ty.bits ty.signed (if sg then (x.getV a l).toInt else ((x.getV a l).toNat : Int)))) ∧
     SlabLanes (.vsel h d a b k) d (fun _ x n l => if (x.getM n k).getLsbD l then x.getV a l else x.getV b l) ∧
     SlabLanes (.vperm v d a b) d (underMask v d fun _ x n l => if (x.getV b l).toNat < n then x.getV a (x.getV b l).toNat else 0) ∧
     SlabLanes (.vshf v d a b i) d (underMask v d fun _ x n l =>
       if l + i.zext.toNat < n then x.getV a (l + i.zext.toNat) else x.getV b (l + i.zext.toNat - n)) ∧
     SlabLanes (.vins v d g g2 i) d (fun o x _ l => if l = (arg o.args 1 + i.zext).toNat then (arg o.args 0).setWidth 32 else x.getV d l) ∧
     SlabLanes (.vpack v bt rnd d a) d (fun o x n l => if v.z = false ∧ (x.getM n v.mask).getLsbD l = false then x.getV d l
       else (packVec bt x n o.cap a).1.getD l 0) ∧
     SlabLanes (.vunpk v d a) d (fun _ x n l => if v.z = false ∧ (x.getM n v.mask).getLsbD l = false then x.getV d l else unpackLane x n a l) ∧
     SlabLanes (.vscan v op lt sat rnd d a) d (underMask v d fun o x n l => (redResult op lt o.cap ((scanLane (redNode op lt sat o.cap)
       (treeLevels (redNode op lt sat o.cap) n.log2 0 (treeLeaves v x n lt o.cap a)) l).getD (0, 0))).1)) ∧
  (∀ (v : VHdr) (ty : IntTy) (sc : BitVec 2) (op : AmoOp) (d b : VReg) (a c : Reg) (i : Imm),
     LaneLoads (.vld v ty d a i) v d ty (fun s o _ l => loadAt s (arg o.args 0 + i.sext + BitVec.ofNat 64 (l * ty.bytes)) ty.bytes) ∧
     LaneLoads (.vlds v ty d a c i) v d ty (fun s o _ l => loadAt s (arg o.args 0 + i.sext + BitVec.ofNat 64 l * arg o.args 1) ty.bytes) ∧
     LaneLoads (.vgth v ty sc d a b i) v d ty (fun s o x l =>
       loadAt s (arg o.args 0 + i.sext + (x.getV b l).signExtend 64 <<< sc.toNat) ty.bytes) ∧
     LaneLoads (.vldc v ty d a i) v d ty (fun s o _ l => constLane s (arg o.args 0 + i.sext + BitVec.ofNat 64 (l * ty.bytes)) ty.bytes) ∧
     (op ≠ .fadd → LaneLoads (.vamo v op ty sc d a b i) v d ty (fun s o x l =>
       updateAt s (arg o.args 0 + i.sext + (x.getV b l).signExtend 64 <<< sc.toNat) ty.bytes fun old u =>
         .ok (some (amoInt op ty old ((x.getV d l).zeroExtend 64)), u))) ∧
     LaneStores (.vst v ty d a i) v d (fun s o _ l w => storeAt s (arg o.args 0 + i.sext + BitVec.ofNat 64 (l * ty.bytes)) ty.bytes w) ∧
     LaneStores (.vsts v ty d a c i) v d (fun s o _ l w => storeAt s (arg o.args 0 + i.sext + BitVec.ofNat 64 l * arg o.args 1) ty.bytes w) ∧
     LaneStores (.vsct v ty sc d a b i) v d (fun s o x l w =>
       storeAt s (arg o.args 0 + i.sext + (x.getV b l).signExtend 64 <<< sc.toNat) ty.bytes w) ∧
     LaneStores (.vrst v false ty d a c i) v d (fun s o _ l w => do
       let ea ← placeEa (arg o.args 0) (arg o.args 1 + BitVec.ofNat 64 (l * ty.bytes)) i
       storeAt s ea ty.bytes w))

/-- What compares, mask operations and extractions give: masks bit by bit (R169, R171), general registers as a count, the lowest set lane
or the number of lanes, or an extended lane (R171, R172). -/
def Obligations.VectorMasksAndWords : Prop :=
∀ (h : Hdr) (v : VHdr) (k : Cond) (tt : BitVec 4) (sg : Bool) (a b : VReg) (m ma mb : MReg) (g g2 : Reg) (i : Imm),
    SlabMask (.vcmp v (.n32 k) m a b) m (fun _ x n l => if (x.getM n v.mask).getLsbD l then k.holds (x.getV a l).toNat (x.getV b l).toNat
      else !v.z && (x.getM n m).getLsbD l) ∧
    SlabMask (.vcmp v (.s32 k) m a b) m (fun _ x n l => if (x.getM n v.mask).getLsbD l then k.holds (x.getV a l).toInt (x.getV b l).toInt
      else !v.z && (x.getM n m).getLsbD l) ∧
    (∀ f : FCond, SlabMask (.vcmp v (.f32 f) m a b) m (fun o x n l => if (x.getM n v.mask).getLsbD l then
      (f32.compare o.cap.fzi f (x.getV a l).toNat (x.getV b l).toNat).1 else !v.z && (x.getM n m).getLsbD l)) ∧
    SlabMask (.vmsk h tt m ma mb) m (fun _ x n l =>
      tt.getLsbD (2 * ((x.getM n ma).getLsbD l).toNat + ((x.getM n mb).getLsbD l).toNat)) ∧
    SlabMask (.vmskFirst h m g) m (fun o _ _ l => decide (l < (arg o.args 0).toNat)) ∧
    SlabWord (.vmskCnt h g ma) g (fun _ x n => BitVec.ofNat 64 ((List.range n).filter fun l => (x.getM n ma).getLsbD l).length) ∧
    SlabWord (.vmskFfs h g ma) g (fun _ x n => BitVec.ofNat 64 (((List.range n).find? fun l => (x.getM n ma).getLsbD l).getD n)) ∧
    SlabWord (.vext h sg g a g2 i) g (fun o x n => if (arg o.args 0 + i.zext).toNat < n then
      (if sg then (x.getV a (arg o.args 0 + i.zext).toNat).signExtend 64 else (x.getV a (arg o.args 0 + i.zext).toNat).zeroExtend 64) else 0)

/-- Two reductions whose order cannot be seen: the tree of `vred.add` over natural lanes, on a core of 1, 2 or 4 lane groups, adds up the active
lanes modulo 2^32 (R64, R177); one group of an integer product adds its exact sum to the cell, clamped to 36 bits (R60, R62). -/
def Obligations.ReductionsAreExact : Prop :=
  (∀ (v : VHdr) (rnd : Rnd) (d : Reg) (a : VReg) (s : State) (core n : Nat) (o : SlabOp) (rest : List SlabOp) (x : Slot),
     (s.core core).slabQ = o :: rest → o.instr = .vred v .add .n32 false rnd d a → x = s.slot o.slot → soundOp s core o → x.chk = 0 → d ≠ 0 →
     n = lanes (s.core core).gangw → (s.core core).gangw ∈ [1, 2, 4] →
     ∃ t, exec (.slabCompletion core) s = .next t ∧ (t.slot o.slot).getG d = BitVec.ofNat 64
       (((List.range n).map fun l => if (x.getM n v.mask).getLsbD l then (x.getV a l).toNat else 0).sum % 2 ^ 32)) ∧
  (∀ (cap : Capture) (l g : Nat) (cell : BitVec 36) (ab : List (MmaElem × MmaElem)) (y : Int),
     y = cell.toInt + (ab.map fun p => p.1.int * p.2.int).sum →
     (groupCell .pt .int cap l g cell ab).1 =
       BitVec.ofInt 36 (if y < -(2 ^ 35) then -(2 ^ 35) else if 2 ^ 35 - 1 < y then 2 ^ 35 - 1 else y))

/-! ### Matrix instructions (R179 to R202) -/

/-- Tile and accumulator instructions: ready, past their dispatch checks and with room in the slab queue, they complete issue, and enter the queue
with their execution times and the descriptors they copy; one whose descriptor does not suit it traps ILLEGAL instead.  As the oldest of its
core's slab queue, each has its effect: `tzero` and `azero` clear, `tmov` copies a tile without poison, `tfill` fills, `acvt` converts, `ared`
reduces rows into lanes, `ascal` scales, and `tld`, `tst`, `aload` and `aread` perform their accesses in order (R179, R182, R185, R188, R196 to
R199). -/
def Obligations.TileAndAccumulatorDispatch : Prop :=
∀ (h : Hdr) (seg : BitVec 3) (t t2 : TReg) (a b c : Reg) (i : Imm) (z : AReg) (v : VReg) (op : RedOp) (lt : LaneTy) (int : Bool) (rnd : Rnd),
    Dispatches (.tld h seg t a i b c) h [a, b, c] none (fun _ => anyMode) (fun s => pieceCost (.tld h seg t a i b c) (s.core s.myCore))
      (fun _ s => needDesc s t (segOk seg)) ∧
    Dispatches (.tst h seg t a i b c) h [a, b, c] none (fun _ => anyMode) (fun s => pieceCost (.tst h seg t a i b c) (s.core s.myCore))
      (fun _ s => needDesc s t (segOk seg)) ∧
    Dispatches (.tzero h t) h [] none (fun _ => anyMode) (fun _ _ _ => 16) noChecks ∧
    Dispatches (.tmov h t t2) h [] none (fun _ => anyMode) (fun _ _ _ => 16) noChecks ∧
    Dispatches (.tfill h t a i) h [a] none (fun _ => anyMode) (fun _ _ _ => 16) (fun _ s => needDesc s t fun _ => true) ∧
    Dispatches (.azero h z) h [] none (fun _ => anyMode) (fun _ _ _ => 16) noChecks ∧
    Dispatches (.aload h z a i b) h [a, b] none (fun _ => anyMode) (fun s => pieceCost (.aload h z a i b) (s.core s.myCore)) noChecks ∧
    Dispatches (.aread h z a i b) h [a, b] none (fun _ => anyMode) (fun s => pieceCost (.aread h z a i b) (s.core s.myCore)) noChecks ∧
    Dispatches (.acvt h rnd t z) h [] none (fun ds => if (ds.getD 0 {}).format.int then anyMode else rnd) (fun _ _ _ => 64)
      (fun _ s => needDesc s t fun d =>
        d.cols == 64 && d.format != .b4 && d.format != .bit && ((s.core s.myCore).gangw ≤ 1 || d.dist)) ∧
    Dispatches (.ared h op lt rnd v z) h [] none (fun _ => if lt = .f32 then rnd else anyMode) (fun _ _ _ => 64) noChecks ∧
    Dispatches (.ascal h int rnd z i) h [] none (fun _ => if int && 0 ≤ i.sext.toInt then anyMode else rnd) (fun _ _ _ => 64) noChecks ∧
    Traps (.tld h seg t a i b c) h [a, b, c] none (fun _ s => (tdescOf s t).ok = false ∨ segOk seg (tdescOf s t) = false)
      (fun _ _ => ⟨.illegal, 0, 0⟩) ∧
    Traps (.tst h seg t a i b c) h [a, b, c] none (fun _ s => (tdescOf s t).ok = false ∨ segOk seg (tdescOf s t) = false)
      (fun _ _ => ⟨.illegal, 0, 0⟩) ∧
    Traps (.tfill h t a i) h [a] none (fun _ s => (tdescOf s t).ok = false) (fun _ _ => ⟨.illegal, 0, 0⟩) ∧
    Traps (.acvt h rnd t z) h [] none (fun _ s => (tdescOf s t).ok = false ∨ (tdescOf s t).cols ≠ 64 ∨ (tdescOf s t).format = .b4 ∨
      (tdescOf s t).format = .bit ∨ (1 < (s.core s.myCore).gangw ∧ (tdescOf s t).dist = false)) (fun _ _ => ⟨.illegal, 0, 0⟩) ∧
    ∀ (s : State) (core : Nat) (o : SlabOp) (rest : List SlabOp) (x : CoreSt), (s.core core).slabQ = o :: rest → x = s.core core →
      badCells x o = false → o.upset = false →
      (o.instr = .tzero h t → exec (.slabCompletion core) s =
        .next (slabDone (s.setCore core (x.clearTile t.toNat fun _ => false)) core o 0)) ∧
      (o.instr = .tmov h t t2 → tilePoisonIn x t2.toNat (fun _ => true) = false → exec (.slabCompletion core) s =
        .next (slabDone (s.setCore core (moveTile x t.toNat t2.toNat)) core o 0)) ∧
      (o.instr = .tfill h t a i → exec (.slabCompletion core) s =
        .next (slabDone (s.setCore core (fillElems x t.toNat x.gangw (o.desc 0) (arg o.args 0 + i.sext))) core o 0)) ∧
      (o.instr = .azero h z → exec (.slabCompletion core) s = .next (slabDone (s.setCore core (x.clearAcc z.toNat)) core o 0)) ∧
      (o.instr = .acvt h rnd t z → ∀ r, r = convertAcc x t.toNat z.toNat x.gangw (o.desc 0) o.cap →
        exec (.slabCompletion core) s = .next (slabDone (s.setCore core r.1) core o r.2)) ∧
      (o.instr = .ared h op lt rnd v z → ∀ rows, rows = ((List.range 64).map fun m =>
          reduceRow op lt o.cap m (x.accRow z.toNat m 0 (64 * x.gangw))) →
        exec (.slabCompletion core) s = .next (slabDone (putOut s o (lanes x.gangw)
          { v := some (v, rows.map (·.1)), fl := orFlags (rows.map (·.2)) }) core o (orFlags (rows.map (·.2))))) ∧
      (o.instr = .ascal h int rnd z i → ∀ r, r = putRows x z.toNat ((List.range 64).map fun m =>
          ((m, 0), (x.accRow z.toNat m 0 (64 * x.gangw)).zipIdx.map fun e => scaleCell int o.cap i.sext.toInt m e.2 e.1)) →
        exec (.slabCompletion core) s = .next (slabDone (s.setCore core r.1) core o r.2)) ∧
      (o.instr = .tld h seg t a i b c ∨ o.instr = .tst h seg t a i b c ∨ o.instr = .aload h z a i b ∨ o.instr = .aread h z a i b →
        (∃ n, 1 ≤ n ∧ exec (.slabCompletion core) s = .next (runAccesses core n ((accesses x o).drop o.done) s.tick.2 o)) ∧
        ((accesses x o).drop o.done = [] → endWaits s.tick.2 o = false →
          exec (.slabCompletion core) s = .next (slabDone (accessEnd s.tick.2 core o) core o o.fl)))

/-- Products enter the slab queue, or with `mmaq` an Empty follow-on slot, with both descriptors, and an `mma` with descriptors that do not suit it traps ILLEGAL (R189, R193); a drain takes its operands, the
priority and the node of its slot with it (R200); `mwait` goes on when no slab instruction of the slot is left, `mwait.f` when the follow-on
slot is idle, with the sequence number of its last product or 2^32 (R195). -/
def Obligations.ProductsDrainsAndWaits : Prop :=
∀ (h : Hdr) (f : FReg) (nt : BitVec 2) (op : MmaOp) (rnd : Rnd) (df : DrainFmt) (za : Bool) (doff : BitVec 22) (z : AReg)
    (d a b c : Reg) (s p : State) (cap : Capture) (ds : List TDesc) (o : SlabOp),
    Dispatches (.mma h op) h [] none (fun _ => mmaRnd op) (fun _ _ ds => mmaCost op (ds.getD 0 {})) (fun _ s => mmaDescs s op) ∧
    Traps (.mma h op) h [] none (fun _ s => mmaOk op (tdescOf s op.ta) (tdescOf s op.tb) = false) (fun _ _ => ⟨.illegal, 0, 0⟩) ∧
    (ready (.mmaq h f nt op) h [] none s = true → unpaired s = true → mmaDescs s op = .ok ds →
      captureOf s.me s.cur (mmaRnd op) = some cap → ((s.core s.myCore).follow.get {} f.toNat).queued = none →
      exec (.mmaq h f nt op) s = .next (finish (s.modMyCore fun c => { c with follow := (c.follow.put f.toNat
        ⟨some (capturedOp s (.mmaq h f nt op) [] ds cap (mmaCost op (ds.getD 0 {}))), nt.toNat + 1, false,
          (c.follow.get {} f.toNat).last⟩) }) s.cur (Instr.mmaq h f nt op).bytes 1 .fall)) ∧
    (ready (.adrain h rnd df za doff z a b c) h [a, b, c] none s = true → unpaired s = true → p = popped s [a, b, c] →
      drainChecks df doff (operands s [a, b, c]) p = .ok ds → captureOf s.me s.cur (drainRnd df rnd) = some cap →
      o = capturedOp p (.adrain h rnd df za doff z a b c)
        (operands s [a, b, c] ++ [if s.me.prio then 1 else 0, BitVec.ofNat 64 s.me.node]) ds cap 64 →
      slabRoom p p.myCore o.cost = true →
      exec (.adrain h rnd df za doff z a b c) s = .next (finish (enqueueSlab p p.myCore o) s.cur
        (Instr.adrain h rnd df za doff z a b c).bytes 1 .fall)) ∧
    (ready (.mwait h) h [] none s = true → unpaired s = true → slabBusy s s.cur = false →
      exec (.mwait h) s = .next (finish s s.cur 8 1 .fall)) ∧
    (ready (.mwaitF h d f) h [] (some d) s = true → unpaired s = true → followIdle (s.core s.myCore) f = true →
      exec (.mwaitF h d f) s = .next (finish (writeReg s s.cur d (match ((s.core s.myCore).follow.get {} f.toNat).last with
        | some q => q.zeroExtend 64
        | none => 2 ^ 32)) s.cur 8 1 .fall))

/-- When `azero` completes, every cell of its accumulator is 0 and the other accumulators stay; when `tzero` completes, every byte of its tile
is 0 and unpoisoned and the other tiles stay; memory stays (R188, R196). -/
def Obligations.ZeroingCompletes : Prop :=
∀ (s : State) (core : Nat) (o : SlabOp) (rest : List SlabOp), (s.core core).slabQ = o :: rest → o.upset = false →
    (∀ (h : Hdr) (z : AReg), o.instr = .azero h z → ∃ t, exec (.slabCompletion core) s = .next t ∧ t.mem = s.mem ∧
      ∀ (y : AReg) (m n : Nat), m < 64 → n < 256 →
        (t.core core).cell y.toNat m n = if y = z then 0 else (s.core core).cell y.toNat m n) ∧
    (∀ (h : Hdr) (d : TReg), o.instr = .tzero h d → ∃ t, exec (.slabCompletion core) s = .next t ∧ t.mem = s.mem ∧
      ∀ (y : TReg) (g b : Nat), g < 4 → b < 17408 →
        (t.core core).tileByte y.toNat g b = (if y = d then 0 else (s.core core).tileByte y.toNat g b) ∧
        (t.core core).tilePoisoned y.toNat g b = (if y = d then false else (s.core core).tilePoisoned y.toNat g b))

/-- When a product of legal operands without poison completes as the oldest of its core's slab queue, the rows of its accumulator take the
cells that the groups of R60 give, its flags accrue and its ring entry is complete (R60, R189 to R192, R351). -/
def Obligations.ProductCompletes : Prop :=
∀ (s : State) (core : Nat) (o : SlabOp) (rest : List SlabOp) (h : Hdr) (op : MmaOp) (k : MmaKind) (c : CoreSt) (r : CoreSt × Flags),
    (s.core core).slabQ = o :: rest → (o.instr = .mma h op ∨ ∃ f nt, o.instr = .mmaq h f nt op) → c = s.core core →
    mmaPoison c op (o.desc 0) (o.desc 1) = false → badCells c o = false → o.upset = false → mmaKind op.sr op.af op.bf = some k →
    r = putRows c op.acc.toNat (mmaRows c o.cap op k (o.desc 0) (o.desc 1) c.gangw) →
    exec (.slabCompletion core) s = .next (slabDone (s.setCore core r.1) core o r.2)

/-! ### Engine (R203 to R226) -/

/-- Pushes, layouts, batches and resumption (R204, R205, R209, R219 to R221, R226): `xpush` and `xpushb` put one command into a FIFO with
room, `xpushb` with its number in D, and all ones where the FIFO is full; the numbers of a FIFO ascend by one; `xlay` stores 64 bytes as a layout;
`xseal` closes the open batch and gives its number; `xwait` gives the number of unfinished sealed batches; `xres` takes the hand-back mark off its
command. -/
def Obligations.EngineCommands : Prop :=
  (∀ (h : Hdr) (w0 : Cmd0) (value : BitVec 16) (d a b c : Reg) (id : BitVec 8) (vis : Bool) (i : Imm),
     Runs (.xpush h w0 value d a b c) h [a, b, c, d] none (fun v s t => (s.core s.myCore).fifo.cmds.length < 16 ∧
       ((s.me.blk.any fun b => b.wait == .fifo) = true ∨ tileCheck w0 value v s = .ok ()) ∧ t = (pushCommand w0 value v s).2) ∧
     Traps (.xpush h w0 value d a b c) h [a, b, c, d] none (fun v s => (s.me.blk.any fun b => b.wait == .fifo) = false ∧
       upsetTile w0 value v s = false ∧ badTile w0 value v s = true) (fun _ _ => ⟨.illegal, 0, 0⟩) ∧
     (∀ s, ready (.xpushb h w0 value d a b c) h [a, b, c, d] (some d) s = true → unpaired s = true → (s.core s.myCore).fifo.cmds.length < 16 →
       upsetTile w0 value (operands s [a, b, c, d]) (popped s [a, b, c, d]) = false →
       badTile w0 value (operands s [a, b, c, d]) (popped s [a, b, c, d]) = true →
       exec (.xpushb h w0 value d a b c) s = .next (raise s s.cur ⟨.illegal, 0, 0⟩)) ∧
     (∀ (s t : State) (r : BitVec 32 × State), ready (.xpushb h w0 value d a b c) h [a, b, c, d] (some d) s = true → unpaired s = true →
       (s.core s.myCore).fifo.cmds.length < 16 → tileCheck w0 value (operands s [a, b, c, d]) (popped s [a, b, c, d]) = .ok () →
       r = pushCommand w0 value (operands s [a, b, c, d]) (popped s [a, b, c, d]) →
       t = writeReg r.2 r.2.cur d (r.1.zeroExtend 64) → exec (.xpushb h w0 value d a b c) s =
         .next (finish t s.cur (Instr.xpushb h w0 value d a b c).bytes (latencyOf t s.cur (.xpushb h w0 value d a b c) 1) .fall)) ∧
     (∀ s t : State, ready (.xpushb h w0 value d a b c) h (unpopped [a, b, c, d]) (some d) s = true → unpaired s = true →
       16 ≤ (s.core s.myCore).fifo.cmds.length → t = writeReg (popped s (unpopped [a, b, c, d])) s.cur d (-1) →
       exec (.xpushb h w0 value d a b c) s =
         .next (finish t s.cur (Instr.xpushb h w0 value d a b c).bytes (latencyOf t s.cur (.xpushb h w0 value d a b c) 1) .fall)) ∧
     Runs (.xlay h a id) h [a] none (fun v s t => ∃ bs u, loadRun s (arg v 0) 64 = .ok (bs, u) ∧ t = modFifo u u.myCore fun f => { f with layouts := f.layouts.put id.toNat bs }) ∧
     Runs (.xseal h d) h [] (some d) (fun _ s t => openSeals s s.cur true < 15 ∧
       t = writeReg (s.modMe fun x => { x with batch := x.batch + 1 }) s.cur d (s.me.batch.zeroExtend 64)) ∧
     Runs (.xwait h vis d i) h [] (some d) (fun _ s t => openSeals s s.cur vis ≤ i.zext.toNat ∧
       t = writeReg s s.cur d (BitVec.ofNat 64 (openSeals s s.cur vis))) ∧
     Runs (.xres h a) h [a] none (fun v s t => ∃ e, ((s.core s.myCore).fifo.cmds.find? fun c =>
       c.slot == s.cur && c.handed == some (arg v 0)) = some e ∧ t = setCmd s s.myCore { e with handed := none })) ∧
  (∀ (w0 : Cmd0) (value : BitVec 16) (v : List Word) (s : State),
     (pushCommand w0 value v s).1 = (s.core s.myCore).fifo.next ∧
     ((pushCommand w0 value v s).2.core s.myCore).fifo.next = (s.core s.myCore).fifo.next + 1)

/-- Queries and cancellation (R222, R223): `xstat` gives state, status and DONE of a command, `xstat.sum` the summary of the slot, `xstat.p` the
lowest poisoned address, and `xcan` cancels what it names and gives their number.  That it counts and cancels a command which has an end status and
has not yet ended is the model's inference (DEDUCED log 62). -/
def Obligations.EngineQueries : Prop :=
∀ (h : Hdr) (batch : Bool) (d a : Reg),
    Runs (.xstat h d a) h [a] (some d) (fun v s t =>
      t = writeReg s s.cur d (commandWord s s.myCore ((arg v 0).extractLsb' 0 32))) ∧
    Runs (.xstatSum h d) h [] (some d) (fun _ s t => t = writeReg s s.cur d (summaryWord s s.cur)) ∧
    Runs (.xstatP h d a) h [a] (some d) (fun v s t => ∃ n, n = (arg v 0).extractLsb' 0 32 ∧
      t = writeReg s s.cur d (match findCmd s s.myCore n with
        | some c => c.poisoned.getD 0
        | none => (((s.core s.myCore).fifo.kept.find? fun k => k.cnum == n).map (·.poisoned)).getD 0)) ∧
    Runs (.xcan h batch d a) h [a] (some d) (fun v s t => ∃ hit u, hit = ((s.core s.myCore).fifo.cmds.filter fun c =>
        c.slot == s.cur && (if batch then c.batch else c.cnum) == (arg v 0).extractLsb' 0 32) ∧
      u = hit.foldl (fun s c => cancelCmd s s.myCore c) s ∧ t = writeReg u u.cur d (BitVec.ofNat 64 hit.length))

/-- The steps of a command (R208 to R216): each run event performs units of a command of its type that may run, none while the first read of a command with ACQ waits (R215); SRC, VIS and the end of a
command take it to its next state where R216 lets it. -/
def Obligations.EngineSteps : Prop :=
∀ (s : State) (core units : Nat) (n : BitVec 32) (c : Cmd), findCmd s core n = some c →
    (mayRun s core c = true → ∃ i : Instr, i = (match c.w0.ty with
        | .copy => .copy core n units
        | .nd => .copyNd core n units
        | .gth => .gather core n units
        | .sct => .scatter core n units
        | .radd => .reduceAdd core n units
        | .fill => .fill core n units) ∧
      exec i s = .next (runUnits core (if readHeld (s.core core).fifo c then 0 else units) s { c with state := if c.state = .queued then .running else c.state })) ∧
    (maySrc s core c = true → exec (.src core n) s = .next (reachSrc s core c)) ∧
    (mayVis c = true → exec (.vis core n) s = .next (reachVis s core c)) ∧
    (∀ code, c.ended = some code → exec (.commandEnd core n) s = .next (terminal s core c code))

/-- One unit of a `.copy` from memory to a byte of scratch memory, or of a `.fill` of one, writes exactly that byte: the source byte, or the
pattern's byte of its place (R208).  That the source byte is read as it stands in the same step is the model's choice (DESIGN CHOICE log 17). -/
def Obligations.EngineUnitsMoveBytes : Prop :=
∀ (s : State) (core ks kd : Nat) (n : BitVec 32) (c : Cmd), findCmd s core n = some c → mayRun s core c = true → readHeld (s.core core).fifo c = false → c.desc = none →
    isScratchKey ks = true → isScratchKey kd = true → engKey s core c (c.dstAt c.done) rW 1 = .ok kd →
    (c.w0.ty = .fill → ∃ t, exec (.fill core n 1) s = .next t ∧
      ∀ k, readByte t k = if k = kd then BitVec.ofNat 8 (c.w1.toNat / 256 ^ (c.done % 8)) else readByte s k) ∧
    (c.w0.ty = .copy → engKey s core c (c.srcAt c.done) rR 0 = .ok ks → ∃ t, exec (.copy core n 1) s = .next t ∧
      ∀ k, readByte t k = if k = kd then readByte s ks else readByte s k)

/-! ### Task instructions (R227 to R247) -/

/-- Frames, rings and the ends of work (R231 to R235): `cnew` makes a node and its frame, and fires a frame that joins nothing; `dec` counts
down; `rpush` puts a record on a ring with room; `rpop` takes the record that dispatch would take, or zeros; `tprio` sets the priority; `tend` and
in a codelet `cend` return from an inlined child, or make the slot idle. -/
def Obligations.FramesRingsAndEnds : Prop :=
∀ (h : Hdr) (home : BitVec 2) (rstrt hi : Bool) (d a b c : Reg) (i : Imm) (i16 : BitVec 16),
    Runs (.cnew h home rstrt hi d a i b c) h [a, b, c] (some d) (fun v s t => ∃ key join l u,
      frameKey s (arg v 0 + i.sext) = .ok key ∧ join = (arg v 1).setWidth 32 ∧
      (match freeNode s.myCtx with
        | none => t = writeReg s s.cur d 0
        | some n => (join = 0 → ringFull (s.core ((key - 2 ^ 56) / 2 ^ 22 + 16 * home.toNat)) = false) ∧
          takeLatch s s.cur key = .ok l ∧ u = storeBytes (newNode l s.owner n false) s.cur key (frameBytes (join.zeroExtend 64) n home rstrt hi (arg v 2)) ∧
          t = writeReg (if join = 0 then fireFrame u s.cur (arg v 0 + i.sext) key u.me.tt else u)
            (if join = 0 then fireFrame u s.cur (arg v 0 + i.sext) key u.me.tt else u).cur d (BitVec.ofNat 64 n))) ∧
    Runs (.dec h a i) h [a] none (fun v s t => decrement s (arg v 0 + i.sext) = .ok t) ∧
    Runs (.rpush h a b c) h [a, b, c] none (fun v s t => ∃ j, placeSlot s s.cur (arg v 2 &&& ~~~0xF#64) = some j ∧ isQuay j = false ∧
      ringFull (s.core j) = false ∧
      t = ringPush s j ((arg v 0).extractLsb' 2 62 ++ bit1 s.me.prio ++ 0#1) (arg v 1) s.me.prio
        (recordNode s s.cur (arg v 1) s.me.node) s.me.tt) ∧
    Runs (.rpop h d c) h [] (some d) (fun _ s t =>
      match ringNext (s.core s.myCore) with
      | none => t = writeReg (writeReg s s.cur d 0) s.cur c 0
      | some r => ∃ w0 w1 u, ringTake s s.myCore r = (w0, w1, u) ∧
          t = retireNodes (writeReg (writeReg u u.cur d w0) u.cur c w1) s.owner) ∧
    Runs (.tprio h hi) h [] none (fun _ s t => t = s.modMe fun x => { x with prio := hi }) ∧
    (∀ s : State, ready (.tend h) h [] none s = true → unpaired s = true → slabBusy s s.cur = false →
      (s.me.inl = [] → exec (.tend h) s = .next (slotEnd s s.cur)) ∧
      ∀ r rest, s.me.inl = r :: rest →
        exec (.tend h) s = .next (finish (s.modMe fun x => { x with inl := rest }) s.cur 8 (latencyOf s s.cur (.tend h) 1) (.to r))) ∧
    (∀ s u p : State, ready (.cend h a i16) h [a] none s = true → unpaired s = true → p = popped s [a] → s.me.mode = false →
      slabBusy p s.cur = false → (if a = 0 then u = p else decrement p (arg (operands s [a]) 0 + i16.signExtend 64) = .ok u) →
      u.cur = s.cur → (u.slot s.cur).chk = 0 → u.me.inl = [] → exec (.cend h a i16) s = .next (slotEnd u s.cur))

/-- The decrement, with the latch of its bank, of a join counter that stands at more than 1 leaves it one less and fires nothing, one that stands at 1 leaves 0 and fires
the frame, and one that stands at 0 leaves it 0 and appends a record with the cause byte 80h to the fault ring (R232, R357). -/
def Obligations.JoinCountersCountDown : Prop :=
∀ (s l : State) (fa : Word) (key old : Nat), frameKey s fa = .ok key → takeLatch s s.cur key = .ok l → anyPoison s key 4 = false → old = leNat 4 (readBytes s key 4) →
    (2 ≤ old → ∃ t, decrement s fa = .ok t ∧ leNat 4 (readBytes t key 4) = old - 1 ∧
      (∀ k, k < key ∨ key + 4 ≤ k → readByte t k = readByte s k) ∧ ∀ c, (t.core c).ring = (s.core c).ring) ∧
    (old = 1 → ringFull (s.core (frameCore s key)) = false → ∃ u, leNat 4 (readBytes u key 4) = 0 ∧
      (∀ k, k < key ∨ key + 4 ≤ k → readByte u k = readByte s k) ∧ decrement s fa = .ok (fireFrame u s.cur fa key u.me.tt)) ∧
    (old = 0 → ∃ u, (∀ k, readByte u k = readByte s k) ∧ decrement s fa = .ok (faultAdd u s.owner
      { cause := 0x80, tid := tidOf s.cur, pc := s.me.pc, addr := fa }))

/-- `spawn` starts a child in the lowest idle slot of the core it names, with a new node unless it joins, and gives the slot's number; where no
slot or node is free it gives all ones under NOIN or at eight nested calls, else it runs the child inline and gives 16 (R237, R238). -/
def Obligations.SpawnStartsAChild : Prop :=
∀ (h : Hdr) (narg : BitVec 3) (cdl join noin : Bool) (d a b : Reg) (s p : State) (pc : Word) (core : Nat) (node : Option Nat),
    ready (.spawn h narg cdl join noin d a b) h [a, b] (some d) s (argRegs narg.toNat) = true → unpaired s = true → p = popped s [a, b] →
    placeCore p (arg (operands s [a, b]) 0) = some core → pc = arg (operands s [a, b]) 1 → pc.toNat % 4 = 0 →
    node = (if join then some p.me.node else freeNode p.myCtx) →
    (∀ k n t u, idleSlot p core = some k → node = some n →
      t = startSlot (if join then p else newNode p p.owner n true) k (childSlot p narg.toNat cdl n pc) →
      u = writeReg t t.cur d (BitVec.ofNat 64 (slotNo k)) →
      exec (.spawn h narg cdl join noin d a b) s = .next (finish u s.cur 16 (latencyOf u s.cur (.spawn h narg cdl join noin d a b) 1) .fall)) ∧
    (idleSlot p core = none ∨ node = none →
      (∀ u, noin = true ∨ 8 ≤ p.me.inl.length → u = writeReg p s.cur d (-1) → exec (.spawn h narg cdl join noin d a b) s =
        .next (finish u s.cur 16 (latencyOf u s.cur (.spawn h narg cdl join noin d a b) 1) .fall)) ∧
      (∀ u, noin = false → p.me.inl.length < 8 → u = (writeReg p s.cur d 16).modMe (fun x => { x with inl := (x.pc + 16) :: x.inl }) →
        exec (.spawn h narg cdl join noin d a b) s =
          .next (finish u s.cur 16 (latencyOf u s.cur (.spawn h narg cdl join noin d a b) 1) (.to pc))))

/-- The iteration fetcher (R239, R240): `nest` replaces the counter of the core; `next` claims the next chunk and gives its size, and where
nothing remains gives 0 and branches. -/
def Obligations.NestsAndChunks : Prop :=
∀ (h : Hdr) (minch : BitVec 16) (d a b c : Reg) (i : Imm) (s : State) (es : List (BitVec 32)) (q o n : Nat) (first : BitVec 32),
    Runs (.nest h minch a b c) h [a, b, c] none (fun v s t => ∃ es p, es = [(arg v 0).extractLsb' 0 32, (arg v 0).extractLsb' 32 32,
        (arg v 1).extractLsb' 0 32, (arg v 1).extractLsb' 32 32] ∧ p = ((arg v 2).extractLsb' 0 16).toNat ∧ extentGap es = false ∧
      t = s.modMyCore fun x => { x with
        nestExt := es
        nestMin := (List.range 4).map fun n => if outermost es = some n then (if minch = 0 then 1 else minch) else 0
        nestRem := ((outermost es).map fun n => es.getD n 0).getD 0
        nestP := if p = 0 then 1 else p }) ∧
    (ready (.next h d i) h [] (some d) s = true → unpaired s = true → (s.core s.myCore).nestRem ≠ 0 →
      o = (outermost (s.core s.myCore).nestExt).getD 0 →
      n = Nat.min (s.core s.myCore).nestRem.toNat (Nat.max ((s.core s.myCore).nestMin.getD o 0).toNat
        (((s.core s.myCore).nestRem.toNat + 2 * (s.core s.myCore).nestP - 1) / (2 * (s.core s.myCore).nestP))) →
      first = (s.core s.myCore).nestExt.getD o 0 - (s.core s.myCore).nestRem →
      exec (.next h d i) s = .next (finish (writeReg ((s.modMe fun x => x.setI (if first = 0 then [] else [(o, first)])).modMyCore
        fun x => { x with nestRem := x.nestRem - BitVec.ofNat 32 n }) s.cur d (BitVec.ofNat 64 n)) s.cur i.bytes 1 .fall)) ∧
    (ready (.next h d i) h [] (some d) s = true → unpaired s = true → (s.core s.myCore).nestRem = 0 →
      (s.me.pc + 4 * i.sext).toNat % 4 = 0 →
      exec (.next h d i) s = .next (finish (writeReg s s.cur d 0) s.cur i.bytes 1 (.to (s.me.pc + 4 * i.sext))))

/-- Barriers (R241, R242): `bar` goes on where its arrival completes the phase, or when it comes back from its wait and the phase is over;
`barq` arrives and gives the phase; `poll` tells whether the phase after A is over; a completed phase passes its own time on (R262). -/
def Obligations.Barriers : Prop :=
∀ (h : Hdr) (sc : Scope) (id : BitVec 4) (d a b : Reg) (q : PReg) (s : State),
    (s.me.joined = none → ∀ t u, ready (.bar h sc id b) h [b] none s = true → unpaired s = true →
      arrive (popped s [b]) sc id ((arg (operands s [b]) 0).extractLsb' 0 16) = .ok (t, true) →
      u = takeTime t (barrier t (barKey s s.cur sc id)) (barrier s (barKey s s.cur sc id)).phase →
      exec (.bar h sc id b) s = .next (finish u s.cur 8 (latencyOf u s.cur (.bar h sc id b) 1) .fall)) ∧
    (∀ p u, s.me.joined = some p → ready (.bar h sc id b) h (unpopped [b]) none s = true → unpaired s = true →
      (barrier s (barKey s s.cur sc id)).phase ≠ p → u = takeTime (popped s (unpopped [b])) (barrier s (barKey s s.cur sc id)) p →
      exec (.bar h sc id b) s = .next (finish u s.cur 8 (latencyOf u s.cur (.bar h sc id b) 1) .fall)) ∧
    Runs (.barq h sc id d b) h [b] (some d) (fun v s t => ∃ u e, arrive s sc id ((arg v 0).extractLsb' 0 16) = .ok (u, e) ∧
      t = writeReg u u.cur d ((barrier s (barKey s s.cur sc id)).phase.zeroExtend 64)) ∧
    Runs (.poll h sc id q a) h [a] none (fun v s t => ∃ n o u, n = ((barrier s (barKey s s.cur sc id)).phase - (arg v 0).setWidth 32).toNat ∧
      o = decide (1 ≤ n ∧ n ≤ 2 ^ 31) ∧ u = (if o then takeTime s (barrier s (barKey s s.cur sc id)) ((arg v 0).setWidth 32) else s) ∧
      t = u.modMe fun x => x.setP q o)

/-- Queues and places (R243 to R245): `qcfg` binds an empty queue to a FIFO bank, or takes it back; `qsts` reports on a queue; `place`,
`place.lin` and `place.quay` give place words, all ones where there is no such place. -/
def Obligations.QueuesAndPlaces : Prop :=
∀ (h : Hdr) (q : BitVec 3) (dx dy : BitVec 8) (d a : Reg) (i : Imm),
    Runs (.qcfgBind h q a i) h [a] none (fun v s t => (s.quad s.myQuad).mode ((arg v 0).extractLsb' 0 4).toNat = .fifo ∧
      (qEntries s s.myCore q.toNat).isEmpty = true ∧ i.zext.toNat ≤ 32768 ∧
      t = setQueue s q { bank := some ((arg v 0).extractLsb' 0 4), lim := if i.zext.toNat = 0 then 32768 else i.zext.toNat }) ∧
    Runs (.qcfgUnbind h q i) h [] none (fun _ s t =>
      t = if ((s.core s.myCore).queue q.toNat).bank.isSome then setQueue s q {} else s) ∧
    Runs (.qsts h d q) h [] (some d) (fun _ s t => t = writeReg s s.cur d (queueWord s s.myCore q.toNat)) ∧
    Runs (.place h dx dy d a) h [a] (some d) (fun v s t => t = writeReg s s.cur d (moveBy s (arg v 0) dx dy)) ∧
    Runs (.placeLin h d a) h [a] (some d) (fun v s t => ∃ k lx ly, k = ((arg v 0).setWidth 32).toNat ∧ lx = k / 4 % s.myCtx.wq ∧
      ly = k / 4 / s.myCtx.wq ∧ t = writeReg s s.cur d
        (if s.hasQuad s.owner lx ly then BitVec.ofNat 64 (k % 4 * 2 ^ 4 + lx * 2 ^ 6 + ly * 2 ^ 14) else -1)) ∧
    Runs (.placeQuay h d a) h [a] (some d) (fun v s t => ∃ w : Word,
      w = BitVec.ofNat 64 (((arg v 0).extractLsb' 8 4).toNat + ((arg v 0).extractLsb' 0 8).toNat * 2 ^ 6 + 2 ^ 30) ∧
      t = writeReg s s.cur d (if (placeNamed s s.cur w).isSome then w else -1))

/-- Gang widths, bank modes and checked pairs (R153, R154, R246, R247): `gang` gives 1 for widths a quad cannot take, 2 while a core that changes
is at work, else sets them and gives 0; `bankcfg` waits for those of its quad that came before it, then registers its switch, and where no bank changes gives the modes at once; `chk` does nothing
outside a pair. -/
def Obligations.GangsBanksAndChecks : Prop :=
∀ (h : Hdr) (mode : BankMode) (d a : Reg) (s p q : State) (w : Word) (changed banks : List Nat),
    (ready (.gang h d a) h [a] (some d) s = true → unpaired s = true → p = popped s [a] → w = arg (operands s [a]) 0 →
      changed = ((List.range 4).filter fun c => (p.core (p.myQuad + 16 * c)).gangw != widthOf w c) →
      (widthsOk w = false → exec (.gang h d a) s = .next (finish (writeReg p s.cur d 1) s.cur 8 1 .fall)) ∧
      (widthsOk w = true → (changed.any fun c => gangBusy p (p.myQuad + 16 * c)) = true →
        exec (.gang h d a) s = .next (finish (writeReg p s.cur d 2) s.cur 8 1 .fall)) ∧
      (widthsOk w = true → (changed.any fun c => gangBusy p (p.myQuad + 16 * c)) = false →
        q = changed.foldl (fun s c => setWidthOf s (p.myQuad + 16 * c) (widthOf w c)) p →
        exec (.gang h d a) s = .next (finish (writeReg q q.cur d 0) s.cur 8 1 .fall))) ∧
    (ready (.bankcfg h mode d a) h [a] (some d) s = true → unpaired s = true → p = popped s [a] →
      banks = switching (p.quad p.myQuad) ((arg (operands s [a]) 0).extractLsb' 0 16) mode →
      q = p.modQuad p.myQuad (fun x => { x with order := x.order.filter fun e => e.1 != s.cur }) →
      (bankTurn s s.cur = false → exec (.bankcfg h mode d a) s = .next (holdSlot (bankArrives s s.cur) s.cur)) ∧
      (∀ u, bankTurn s s.cur = true → banks = [] → u = writeReg q s.cur d (modesWord (p.quad p.myQuad)) →
        exec (.bankcfg h mode d a) s = .next (finish u s.cur 8 (latencyOf u s.cur (.bankcfg h mode d a) 1) .fall)) ∧
      (bankTurn s s.cur = true → banks ≠ [] → (∀ c, c < 4 → (p.core (p.myQuad + 16 * c)).ring = []) →
        exec (.bankcfg h mode d a) s = .next ((q.modQuad p.myQuad fun x => { x with switches := x.switches ++
          [{ slot := s.cur, dst := d, banks := BitVec.ofNat 16 ((banks.map fun b => 2 ^ b).sum), mode,
             waitFor := busyCommands p p.myQuad banks, drains := busyDrains p p.myQuad banks }] }).modMe fun x =>
          { x with ready := p.cycle + 1 }))) ∧
    (ready (.chk h a) h [a] none s = true → unpaired s = true →
      exec (.chk h a) s = .next (finish (popped s [a]) s.cur 8 1 .fall))

/-! ### Arenas and warrants (R248 to R256) -/

/-- Arenas (R248 to R250): `anew` answers 1 to 4 where it cannot make one, else binds the lowest free slot to the node and gives its handle;
`ahand` answers 2 for another node's arena, 1 where the frame names no live node, else rebinds it; `aend` ends it: its generation rises and its
bytes read 0; `aqry` reports on it. -/
def Obligations.ArenasAreMadeHandedAndEnded : Prop :=
(∀ (h : Hdr) (pl : Place) (d a b : Reg) (i : Imm),
    Runs (.anew h pl d a i) h [a] (some d) (fun v s t => ∃ n pages, n = (arg v 0 + i.zext).toNat ∧ pages = (n + 2 ^ 15 - 1) / 2 ^ 15 ∧
      ((n = 0 ∨ 2 ^ 40 < n) ∧ t = writeReg s s.cur d 1 ∨
       1 ≤ n ∧ n ≤ 2 ^ 40 ∧ freeArena s = none ∧ t = writeReg s s.cur d 2 ∨
       ∃ x, 1 ≤ n ∧ n ≤ 2 ^ 40 ∧ freeArena s = some x ∧
         (placeRoom s s.owner pl < pages ∧ t = writeReg s s.cur d 3 ∨
          pages ≤ placeRoom s s.owner pl ∧ 64 ≤ s.myCtx.leases.length ∧ t = writeReg s s.cur d 4 ∨
          pages ≤ placeRoom s s.owner pl ∧ s.myCtx.leases.length < 64 ∧
            t = writeReg (bindArena s x pages pl) s.cur d (handleWord (s.arena x).gen x)))) ∧
    Runs (.ahand h d a b) h [a, b] (some d) (fun v s t => ∃ n key, handleCheck s (arg v 0) = .ok n ∧ frameKey s (arg v 1) = .ok key ∧
      anyPoison s (key + 4) 2 = false ∧
      (boundHere s n = false ∧ t = writeReg s s.cur d 2 ∨
       boundHere s n = true ∧ (s.myCtx.nodes.find? (leNat 2 (readBytes s (key + 4) 2))).isNone ∧ t = writeReg s s.cur d 1 ∨
       boundHere s n = true ∧ (s.myCtx.nodes.find? (leNat 2 (readBytes s (key + 4) 2))).isSome ∧
         t = writeReg (rebind s n (leNat 2 (readBytes s (key + 4) 2))) s.cur d 0)) ∧
    Runs (.aend h d a) h [a] (some d) (fun v s t => ∃ n, handleCheck s (arg v 0) = .ok n ∧
      (boundHere s n = false ∧ t = writeReg s s.cur d 2 ∨
       boundHere s n = true ∧ s.myCtx.moving = false ∧ t = writeReg (killArena s n) (killArena s n).cur d 0)) ∧
    Runs (.aqry h d a) h [a] (some d) (fun v s t => ∃ n, handleSlot (arg v 0) = .ok n ∧ t = writeReg s s.cur d (arenaWord s (arg v 0) n))) ∧
  (∀ (s : State) (x pages : Nat) (pl : Place),
    ((bindArena s x pages pl).arena x).holder = s.owner ∧ ((bindArena s x pages pl).arena x).node = s.me.node ∧
    ((bindArena s x pages pl).arena x).place = pl ∧ ((bindArena s x pages pl).arena x).pages = pages ∧
    ((bindArena s x pages pl).arena x).gen = (s.arena x).gen ∧ SameMemory s (bindArena s x pages pl)) ∧
  (∀ (s : State) (x : Nat), (∃ time, (killArena s x).arena x = { gen := (s.arena x).gen + 1, last := (s.arena x).holder, time }) ∧
    ∀ k, arenaBase x ≤ k → k < arenaBase (x + 1) → readByte (killArena s x) k = 0)

/-- Warrant, time and key instructions (R251 to R256): a `wpres` that has its answer gives it, its queue registers popped at its first issue; `wsplit`, `wdeleg`, `attest` and `klease` give the
engine's code once its wait has come to its end; `wsurr` of handle 0 ends the context, of a child ends the child, also one that has moved away (log 33), and of an added warrant
answers 1 while it is in use; `wqry` reports on a handle and `tnow` gives the clock. -/
def Obligations.WarrantInstructions : Prop :=
∀ (h : Hdr) (cls : Cls) (sel : WSel) (d a b c : Reg),
    Runs (.wpresAdd h d a) h (unpopped [a]) (some d) (fun _ s t => ∃ ans, s.me.mode = true ∧ s.me.asked = some (s.me.pc, some ans) ∧
      t = writeReg (s.modMe fun x => { x with asked := none }) s.cur d ans) ∧
    Runs (.wpresChild h d a b) h (unpopped [a, b]) (some d) (fun _ s t => ∃ ans, s.me.mode = true ∧ s.me.asked = some (s.me.pc, some ans) ∧
      t = writeReg (s.modMe fun x => { x with asked := none }) s.cur d ans) ∧
    Runs (.wsplit h cls d a b c) h [a, b, c] (some d) (fun v s t => ∃ n x part key u w code, s.me.mode = true ∧ inEngineWait s.me = true ∧
      handleOf s (arg v 0) = .ok (n, x) ∧ readRecord s (arg v 1) 128 = .ok (part, w) ∧ recordSpace s (arg v 2) 2048 = .ok key ∧
      splitOutcome w n x part (arg v 2) key cls false = (code, u) ∧ t = writeReg u u.cur d (code.zeroExtend 64)) ∧
    Runs (.wdeleg h cls d a b c) h [a, b, c] (some d) (fun v s t => ∃ n x part key u w code, s.me.mode = true ∧ inEngineWait s.me = true ∧
      handleOf s (arg v 0) = .ok (n, x) ∧ readRecord s (arg v 1) 128 = .ok (part, w) ∧ recordSpace s (arg v 2) 2048 = .ok key ∧
      splitOutcome w n x part (arg v 2) key cls true = (code, u) ∧ t = writeReg u u.cur d (code.zeroExtend 64)) ∧
    (∀ s x, ready (.wsurr h d a) h [a] (some d) s = true → unpaired s = true →
      handleOf (popped s [a]) (arg (operands s [a]) 0) = .ok (0, x) → exec (.wsurr h d a) s = .next (ctxEnd (popped s [a]) s.owner 2)) ∧
    Runs (.wsurr h d a) h [a] (some d) (fun v s t => ∃ n x, handleOf s (arg v 0) = .ok (n, x) ∧ n ≠ 0 ∧
      ((∃ o, x.child = some o ∧ t = writeReg (ctxEnd s o 2) (ctxEnd s o 2).cur d 0) ∨
       x.child = none ∧ x.childState = 2 ∧ t = writeReg (s.modCtx s.owner fun c => { c with handles := c.handles.erase n }) s.cur d 0 ∨
       x.child = none ∧ x.childState ≠ 2 ∧ x.away.isSome ∧
         t = writeReg (setHandle s s.owner n { x with away := none, childState := 2, childEnd := 2 }) s.cur d 0 ∨
       x.child = none ∧ x.childState ≠ 2 ∧ x.away = none ∧ addedInUse s s.owner x = true ∧ t = writeReg s s.cur d 1 ∨
       x.child = none ∧ x.childState ≠ 2 ∧ x.away = none ∧ addedInUse s s.owner x = false ∧
         t = writeReg (removeAdded s s.owner n x) (removeAdded s s.owner n x).cur d 0)) ∧
    Runs (.wqry h sel d a) h [a] (some d) (fun v s t => ∃ n x, handleOf s (arg v 0) = .ok (n, x) ∧
      t = writeReg s s.cur d (queryWord s n x sel)) ∧
    Runs (.tnow h d) h [] (some d) (fun _ s t => t = writeReg s s.cur d (BitVec.ofNat 64 s.pkg.clock)) ∧
    Runs (.attest h d a b) h [a, b] (some d) (fun v s t => ∃ key nonce r u w, s.me.mode = true ∧ inEngineWait s.me = true ∧
      recordSpace s (arg v 0) 1680 = .ok key ∧ readRecord s (arg v 1) 32 = .ok (nonce, w) ∧
      r = report s s.owner nonce w.fresh ∧ u = (writeRecord w.tick.2 (arg v 0) key r).modCtx s.owner (fun c => { c with report := some (keyHash r, s.pkg.clock) }) ∧
      t = writeReg u u.cur d 1680) ∧
    Runs (.klease h d a) h [a] (some d) (fun v s t => ∃ r u w, s.me.mode = true ∧ inEngineWait s.me = true ∧
      readRecord s (arg v 0) 1536 = .ok (r, w) ∧ u = (if renewCode s s.owner r = 0 then renew (boxAdd w 4 s.owner 0 [renewCode s s.owner r]) s.owner (field r 80 8)
        else boxAdd w 4 s.owner 0 [renewCode s s.owner r]) ∧
      t = writeReg u u.cur d ((renewCode s s.owner r).zeroExtend 64))

/-! ### Events -/

/-- Time and waits (R144, R260, R265, R281, R286 to R288, R310 to R312, R320, R340): a tick of logical time reaches each granted slot of a core
whose context is on its quads, and raises what would fall 2^46 ticks behind; a wait that has lasted its limit traps; a snapshot marks the dead
slots, and traps those that were dead in the one before; the notice of an end time is recorded; a context whose end time has come ends 1, or 4
where its key lease ends first; the anchored clock is saved; a slew ends; every access counter is cleared. -/
def Obligations.TimeAndWaitEvents : Prop :=
∀ (s : State) (core slot o : Nat),
    ((s.ctx (ownerOf core)).phase.onQuads = true → (s.ctx (ownerOf core)).spillWait = false → ∃ u,
      exec (.logicalTimeTick core) s = .next (raiseTimes u (ownerOf core)) ∧ SameMemory s u ∧
      (∀ k, k ∉ slotsOf core → u.slot k = s.slot k) ∧
      ∀ k, k ∈ slotsOf core → (u.slot k).tt = if s.granted k then (s.slot k).tt + 1 else (s.slot k).tt) ∧
    (((highestTime s o - (s.ctx o).floor).toNat ≤ 2 ^ 46 → raiseTimes s o = s) ∧
      ∀ f : Time, 2 ^ 46 < (highestTime s o - (s.ctx o).floor).toNat → f = highestTime s o - BitVec.ofNat 48 (2 ^ 46) →
        ((raiseTimes s o).ctx o).floor = f ∧ ∀ k, k ∉ s.slotsOfCtx o → (raiseTimes s o).slot k = s.slot k) ∧
    (∀ b, (s.slot slot).blk = some b → (s.ctx (ownerOf slot)).phase = .running → b.limit ≠ 0 → b.since + b.limit ≤ s.cycle →
      satisfied s slot b = false →
      exec (.waitLimit slot) s = .next (raiseWaiting s.tick.2 slot ⟨.waitLimit, limitTval s b.wait, 0⟩)) ∧
    (∃ u, SameMemory s u ∧ (∀ e, e ∈ blockedSlots s o → (u.slot e.1).dead = (deadSlots s o).any fun x => x.1 == e.1) ∧
      exec (.deadlockSnapshot o) s = .next (((deadSlots s o).filter fun e => (s.slot e.1).dead).foldl deadlockTrap u)) ∧
    (noticeReady s o = true → ∃ t, exec (.expiryNotice o) s = .next t ∧ (t.ctx o).notice = some s.pkg.clock ∧ SameMemory s t) ∧
    (endReady s o = true → (endTime s o).2 = false → exec (.termExpired o) s = .next (ctxEnd s o 1)) ∧
    (endReady s o = true → (endTime s o).2 = true → exec (.termKeylease o) s = .next (ctxEnd s o 4)) ∧
    (∀ code, (ctxEnd s o code).ctxs.find? o = none) ∧
    (s.pkg.anchored = true → ∃ t, exec .clockSave s = .next t ∧ t.pkg = { s.pkg with saved := s.pkg.clock }) ∧
    (s.pkg.slew = some 0 → ∃ t, exec .slewEnd s = .next t ∧ t.pkg = { s.pkg with slew := none }) ∧
    (∃ t, exec .counterClear s = .next t ∧ t.pkg = s.pkg ∧ SameMemory s t ∧
      ∀ n, t.page n = { s.page n with counters := [], hostCount := 0, devCount := 0, asked := [] })

/-- The parts of a core (R154, R182, R194, R201, R225, R233, R282, R352): dispatch puts the next record to work in the lowest idle slot, and
writes nothing but records that move back to the in-scratch area; the oldest bank switch of a quad happens once no earlier command and no earlier
drain uses its banks; a follow-on product enters the slab queue; a drain lands writes or pushes its record; a late trap reaches its slot, and
cancels the later slab instructions and late traps; a hand-back reaches its slot. -/
def Obligations.CoreEvents : Prop :=
∀ (s : State) (core quad slot : Nat) (f : FReg),
    (∀ r k w0 w1 u, ringNext (s.core core) = some r → idleSlot s core = some k → (s.ctx (ownerOf core)).phase = .running →
      s.fenced core = false → (s.slot k).chk = 0 → ringTake s core r = (w0, w1, u) → (w0 &&& 0x1C#64) = 0 →
      ∃ t, exec (.slotDispatch core) s = .next t ∧ (t.slot k).running = true ∧ (t.slot k).mode = false ∧
        (t.slot k).pc = w0 &&& ~~~3#64 ∧ (t.slot k).g = (if w1 = 0 then [] else [(54, w1)]) ∧ (t.slot k).rstrt = w0.getLsbD 0 ∧
        (t.slot k).prio = r.prio ∧ (t.slot k).node = r.node ∧ (t.slot k).tt = Time.later (s.slot k).tt r.time ∧
        ∀ a, a < ringKey u core 0 ∨ ringKey u core 0 + 4096 ≤ a → readByte t a = readByte s a) ∧
    (∀ w rest, (s.quad quad).switches = w :: rest → w.waitFor.any (stillUses s) = false → stillDrains s quad w = false →
      exec (.bankModeSwitch quad) s = .next (performSwitch s quad w)) ∧
    (∀ x o, x = (s.core core).follow.get {} f.toNat → x.queued = some o → x.due = true →
      slabRoom s core o.cost = true → exec (.followOnMmaStart core f) s = .next ((enqueueSlab s core o).modCore core fun c =>
        { c with follow := c.follow.put f.toNat { last := some (s.core core).slabseq } })) ∧
    (∀ d rest, (s.core core).drains = d :: rest → d.writes = [] → exec (.adrainPush core) s = .next (drainPush s core d)) ∧
    (∀ d rest, (s.core core).drains = d :: rest → d.writes ≠ [] → ∃ n, 1 ≤ n ∧ n ≤ d.writes.length ∧
      exec (.adrainPush core) s = .next (drainWrites core n s.tick.2 d)) ∧
    (∀ p, pendNow s slot = some p → p.late = true →
      exec (.lateTrapDelivery slot) s = .next (deliverPending s slot) ∧
      deliverPending s slot = takeTrap ((cancelSlab (abandon (s.modSlot slot fun x => { x with pend := withoutLater p x.pend }) slot)
          (coreOf slot) fun k n => k = leadOf (s.slot slot) slot && seqAfter p.tseq n).modSlot slot
            fun x => ({ x with tscr := (s.slot slot).pc } : Slot).mendedSys .tscr) slot
        ⟨Cause.ofCode p.cause, p.tval, p.need⟩ true p.pc p.tseq) ∧
    (∀ p, pendNow s slot = some p → p.late = false → p.cause = Cause.xhand.code →
      exec (.xhand slot) s = .next (takeTrap ((s.modSlot slot fun x => { x with pend := x.pend.erase p }).modSlot slot
        fun x => { x with xhand := p.tval.setWidth 56 }) slot ⟨Cause.ofCode p.cause, p.tval, 0⟩ false (s.slot slot).pc 0))

/-- Pre-emption (R316, R359 to R368): a drained context leaves its quads with every register and all memory kept, or waits, stopped, for room in
the spill area, and comes back to its quads; a slice that ends begins anew, with a swap where another context waits for quads that run; a context
is restored elsewhere; a failing harbour row is retired.  The numbers 1 and 0 of a swap's cause are the model's own (DESIGN CHOICE log 47). -/
def Obligations.PreemptionEvents : Prop :=
∀ (s : State) (o col row stack : Nat) (bad : Bool),
    ((s.ctx o).phase = .running → drained s o = true → ∃ t, exec (.harbourSwap o) s = .next t ∧ t.slots = s.slots ∧ SameMemory s t ∧
      (t.ctx o).cause = 1 ∧ (mustSpill s o = false → (t.ctx o).phase = .swapped) ∧
      ((t.ctx o).phase = .swapped ∨ (t.ctx o).phase = .stopping ∧ (t.ctx o).spillWait = true)) ∧
    ((s.ctx o).phase = .running → drained s o = false → ∃ t, exec (.harbourSwap o) s = .next t ∧ (t.ctx o).phase = .stopping ∧
      t.slots = s.slots ∧ SameMemory s t) ∧
    (restorable s o = true → (s.ctx o).badImage = false → ∃ t, exec (.contextRestore o) s = .next t ∧ (t.ctx o).phase = .running ∧
      (t.ctx o).cause = 0 ∧ (t.ctx o).ranAt = s.cycle + 1 ∧ SameMemory s t) ∧
    (restorable s o = true → (s.ctx o).badImage = true → exec (.contextRestore o) s = .next (ctxEnd s o 3)) ∧
    ((s.ctx o).phase = .running → (s.ctx o).cls = 1 → (s.ctx o).sliceEnd ≤ s.pkg.clock → ∃ t, exec (.sliceEnd o) s = .next t ∧
      (t.ctx o).sliceEnd = s.pkg.clock + 10000 ∧ SameMemory s t ∧
      t.agenda = s.agenda ++ if (rivals s o).any (fun e => e.2.cls = 1 && e.2.waits && (quadsHeld s e.1).all (quadAlive s))
        then [.harbourSwap o] else []) ∧
    ((s.ctx o).waits = true → placeFits s o col row = true → (s.ctx o).badImage = false → ∃ t, exec (.restoreElsewhere o col row) s = .next t ∧
      (t.ctx o).phase = .running ∧ (t.ctx o).rect.col = col ∧ (t.ctx o).rect.row = row ∧ SameMemory s t) ∧
    (stack < 4 → row < 16384 → (s.pkg.rows.get [] stack).contains row = false → ∃ t, exec (.harbourScrub stack row bad) s = .next t ∧
      t.pkg.rows.get [] stack = row :: s.pkg.rows.get [] stack ∧ t.slots = s.slots ∧ SameMemory s t)

/-- Pages and the host (R340 to R342, R347 to R349, R388, R400 to R403): a migration marks its page in flight and later moves it with its
lines; a bias request joins the FIFO of a held page, and a flip starts and completes; the bytes that a host write names take its data and no others change,
a host read is answered with the bytes and changes none, and one that may not be performed with all ones and poison; a host access to a page on its
way waits; the patrol scrub mends what can be corrected; the link and its port go down, and host accesses that wait are dropped (DEDUCED log 53);
TDISP interfaces change state in the order of that protocol (PRESUMED log 31). -/
def Obligations.PageAndHostEvents : Prop :=
∀ (s : State) (page pkg requester o : Nat) (addr : Word) (data : List Byte) (host : Bool) (back : List (Nat × Byte)) (dirty : List Nat)
    (ask : BitVec 2),
    (mayMigrate s page pkg = true → ∃ t, exec (.pageMigration page pkg) s = .next t ∧ t.page page = { s.page page with inFlight := some pkg } ∧
      (∀ n, n ≠ page → t.page n = s.page n) ∧ SameMemory s t) ∧
    ((s.page page).inFlight = some pkg → ∃ t, exec (.migrationComplete page) s = .next (releaseHost t) ∧
      t.page page = { s.page page with inFlight := none, tier := .dram, pkg } ∧ t.lines = s.lines ∧ SameMemory s t) ∧
    ((s.page page).holder ≠ 0 → exec (.biasRequest page host) s =
      .next (serveBias (s.modPage page fun p => { p with requests := p.requests ++ [host] }) page)) ∧
    (flipReady s page = true → ∃ t, exec (.biasFlipStart page) s = .next t ∧ SameMemory s t ∧
      t.page page = { s.page page with
        bias := if (s.page page).bias = .dev then .toHost else .toDev
        requests := (s.page page).requests.tail }) ∧
    ((s.page page).bias = .toHost → exec (.biasFlipComplete page back) s =
      .next (flipDone (dropCopies s (page * 2 ^ 15) ((page + 1) * 2 ^ 15)) page .host)) ∧
    ((s.page page).bias = .toDev → exec (.biasFlipComplete page back) s =
      .next (flipDone ((back.filter fun e => e.1 / 2 ^ 15 == page).foldl (fun s e => deviceWrite s e.1 [e.2]) s) page .dev)) ∧
    ((s.page page).bias = .toDev → exec (.backInvalidationTimeout page dirty) s = .next (hostDown s dirty)) ∧
    (data ≠ [] → (∀ p, p ∈ lineParts addr.toNat data.length → hostMay s requester p.1 true = true ∧ pageBusy s (p.1 / 2 ^ 15 * 2 ^ 15) = false) →
      ∃ t, exec (.hostAccess requester addr true data) s = .next t ∧ ∀ a, readByte t a =
        if addr.toNat ≤ a ∧ a < addr.toNat + data.length then data.getD (a - addr.toNat) 0 else readByte s a) ∧
    (data ≠ [] → (∀ p, p ∈ lineParts addr.toNat data.length → hostMay s requester p.1 false = true ∧ pageBusy s (p.1 / 2 ^ 15 * 2 ^ 15) = false) →
      ∃ t r, exec (.hostAccess requester addr false data) s = .next t ∧ SameMemory s t ∧ t.pkg.hostReads.find? requester = some r ∧
        r.addr = addr ∧ r.bytes = readBytes s addr.toNat data.length) ∧
    (data ≠ [] → (∃ p, p ∈ lineParts addr.toNat data.length ∧ hostMay s requester p.1 false = false) →
      ∃ t, exec (.hostAccess requester addr false data) s = .next t ∧ t.pkg.hostReads.find? requester =
        some ⟨addr, List.replicate data.length 0xFF, List.replicate data.length true⟩ ∧ SameMemory s t) ∧
    ((∃ p, p ∈ lineParts addr.toNat data.length ∧ hostMay s requester p.1 true = false) →
      exec (.hostAccess requester addr true data) s = .next s) ∧
    (data ≠ [] → ∀ write, (∀ p, p ∈ lineParts addr.toNat data.length → hostMay s requester p.1 write = true) →
      (∃ p, p ∈ lineParts addr.toNat data.length ∧ pageBusy s (p.1 / 2 ^ 15 * 2 ^ 15) = true) →
      exec (.hostAccess requester addr write data) s = .next { s with held := s.held ++ [(requester, addr, write, data)] }) ∧
    (∃ t, exec (.patrolScrub pkg) s = .next t ∧ t.pkg.scrubbed = s.pkg.scrubbed + 1 ∧ SameMemory s t ∧ t.damage.get 0 (pkg / 32) =
      if holderOf s (pkg / 32 * 32) ≠ 0 ∧ onlyLlc s (pkg / 32 / 4) = false ∧ s.damage.get 0 (pkg / 32) ≤ 2 then 0 else s.damage.get 0 (pkg / 32)) ∧
    (s.pkg.linkUp = true → ∃ t, exec (.hostLinkDown dirty) s = .next t ∧ t.pkg.linkUp = false ∧ t.pkg.request = false ∧ t.held = [] ∧ (portOf t (hostPort t)).state = .down ∧
      (∀ e, e ∈ t.ctxs → e.2.tdisp = .error) ∧ ∀ n, (t.page n).holder ≠ 0 → (t.page n).bias ≠ .host ∧ (t.page n).bias ≠ .toDev) ∧
    ((s.ctxs.find? o).isSome → s.pkg.linkUp = true → ∃ t, exec (.tdispRequest o ask) s = .next t ∧ SameMemory s t ∧
      (t.ctx o).tdisp = (if ask = 0 then .unlocked else if ask = 1 ∧ (s.ctx o).tdisp = .unlocked then .locked
        else if ask = 2 ∧ (s.ctx o).tdisp = .locked then .run else (s.ctx o).tdisp) ∧
      ((t.ctx o).tdisp = .locked ∨ (t.ctx o).tdisp = .run → t.pkg.debugOpen = false))

/-- The mailbox orders (R304, R308, R309, R311, R338, R397, R404 to R406, R410): with the mailbox open and nothing before it, a presentation takes
its place, and a time token, a floor order, a launch, a move order or a test package acts and is answered; a closed mailbox takes none.  That the
events carry a request's fields, with LEN as the model counts it, and the target's answer to a move order, is the model's choice (DESIGN CHOICE log
13), and so are the flits of the first round of copies, which the order is answered behind (DESIGN CHOICE log 93); that a test package is an image whose digest the vendor signs is an inference (DEDUCED log 58). -/
def Obligations.MailboxOrders : Prop :=
∀ (s : State) (tag serial : Word) (r image key proof sig : List Byte) (fits : Option (BitVec 8)) (quads : List Nat),
    r.length + key.length + proof.length ≤ 32720 →
    (mailboxOpen s = true → (s.pkg.waiting.filter Queued.isPres).length < 16 → ∃ t, exec (.present tag r image key proof) s = .next t ∧
      t.pkg.request = true ∧ t.pkg.waiting = s.pkg.waiting ++ [.pres { tag, warrant := r, image, holderKey := key, proof }] ∧
      t.pkg.req.take 32 = requestHeader 1 tag (r ++ hostWhere s.fresh image ++ key ++ proof)) ∧
    (mailboxOpen s = true → s.pkg.waiting = [] →
      (∃ t, exec (.time tag r) s = .next t ∧ Answered t tag (tokenCode s r) 0 ∧ SameMemory s t ∧
        (tokenCode s r ≠ 0 → t.pkg.clock = s.pkg.clock) ∧
        (tokenCode s r = 0 → s.pkg.anchored = false → s.pkg.clock ≤ field r 80 8 →
          t.pkg.clock = field r 80 8 ∧ t.pkg.anchored = true) ∧
        (tokenCode s r = 0 → s.pkg.anchored = true → field r 80 8 ≤ s.pkg.clock → t.pkg.clock = s.pkg.clock ∧ t.pkg.slew = s.pkg.slew) ∧
        (tokenCode s r = 0 → s.pkg.anchored = true → s.pkg.clock < field r 80 8 → field r 80 8 ≤ s.pkg.clock + 10000000 →
          t.pkg.clock = s.pkg.clock ∧ t.pkg.slew = some (field r 80 8 - s.pkg.clock)) ∧
        (tokenCode s r = 0 → s.pkg.anchored = true → s.pkg.clock + 10000000 < field r 80 8 →
          t.pkg.clock = field r 80 8 ∧ t.pkg.slew = none)) ∧
      (∃ t, exec (.floor tag r) s = .next t ∧ Answered t tag (floorCode s r) 0 ∧ SameMemory s t ∧
        (floorCode s r ≠ 0 → t.pkg.domains = s.pkg.domains ∧ t.pkg.spent = s.pkg.spent) ∧
        (floorCode s r = 0 → ∀ d, s.pkg.domains.find? (field r 64 8) = some d →
          t.pkg.domains.find? (field r 64 8) = some { d with floor := field r 72 4, seq := field r 80 8 })) ∧
      (ctxOfSerial s serial (fun c => c.phase == .abrupt && !c.gone) = none → ∃ t, exec (.launch tag serial key proof) s = .next t ∧
        Answered t tag 3 0 ∧ SameMemory s t) ∧
      (∀ o, ctxOfSerial s serial (fun c => c.phase == .abrupt && !c.gone) = some o →
        (launchProof (requested s 4 tag (le 8 serial.toNat ++ key ++ proof)) o key proof = false → ∃ t, exec (.launch tag serial key proof) s = .next t ∧ Answered t tag 2 0 ∧
          SameMemory s t) ∧
        (launchProof (requested s 4 tag (le 8 serial.toNat ++ key ++ proof)) o key proof = true → ∃ u, u.slots = s.slots ∧ SameMemory s u ∧
          exec (.launch tag serial key proof) s = .next (orderDone (relaunch u o) tag 0 o))) ∧
      (moveOk r = false → ∃ t, exec (.move tag r fits) s = .next t ∧ Answered t tag 1 0 ∧ SameMemory s t) ∧
      (∀ o, moveOk r = true → signedBy r (operatorKey s (signerOf r)) = true →
        ctxOfSerial s (fieldWord r 64) (fun c => c.phase != .building) = some o →
        ((s.ctx o).move.isSome → ∃ t, exec (.move tag r fits) s = .next t ∧ Answered t tag 13 0) ∧
        ((s.ctx o).move = none → fits = some 0 → liveOstik s ≠ [] →
          ∃ v, OnLink (requested s 5 tag r) (1 + copyFlits (domainPages s o).length) v ∧
            exec (.move tag r fits) s = .next (orderDone (startMove v o (fieldWord r 72) (field r 80 1) tag) tag 0 0)) ∧
        (∀ code, (s.ctx o).move = none → fits = some code → code ≠ 0 → liveOstik s ≠ [] → ∃ t, exec (.move tag r fits) s = .next t ∧
          Answered t tag (if code = 6 then 6 else 10) 0) ∧
        ((s.ctx o).move = none → fits = none ∨ liveOstik s = [] → ∃ t, exec (.move tag r fits) s = .next t ∧ Answered t tag 9 0)) ∧
      (parseImage r = none → ∃ t, exec (.test tag r sig quads) s = .next t ∧ Answered t tag 1 0 ∧ t.pkg.quads = s.pkg.quads) ∧
      ((parseImage r).isSome → Config.falconVerify Config.vendorKey (shake256 r 64) sig = false → ∃ t, exec (.test tag r sig quads) s = .next t ∧
        Answered t tag 2 0 ∧ t.pkg.quads = s.pkg.quads) ∧
      ((parseImage r).isSome → Config.falconVerify Config.vendorKey (shake256 r 64) sig = true → ∃ t, exec (.test tag r sig quads) s = .next t ∧
        Answered t tag 0 0 ∧ ∀ q, t.pkg.quads.get .working q =
          if q ∈ quads ∧ idlePhysical s q = true then .testing else s.pkg.quads.get .working q)) ∧
    (mailboxOpen s = false → exec (.present tag r image key proof) s = .next s ∧ exec (.time tag r) s = .next s ∧
      exec (.floor tag r) s = .next s ∧ exec (.launch tag serial key proof) s = .next s ∧ exec (.move tag r fits) s = .next s ∧
      exec (.test tag r sig quads) s = .next s)

/-- The spent-serial store and the messages of redemption (R306 to R308, R408, R410): over an authenticated link, and only there, a claim makes at
the home a serial without an entry LIVE for its chip where the floor allows it and the store
has room, and one HELD by that chip LIVE again, else it is refused, and the answer echoes the nonce; a withdrawal makes a LIVE serial of its chip HELD, and an end notice HELD after
a containment and SPENT after any other end; a raised floor discards the entries below it.  A move notice passes a LIVE serial on (R410).  A
presenter goes on with an answer that comes within 10 ms, where its own floor still allows the warrant (R308), drops any other, and calls a silent
home unreachable; the confirmation of a withdrawal or of an end notice clears that entry (R307), and where both are open a free value says which
(DESIGN CHOICE log 1).  That a message counts as one flit is the model's choice (DESIGN CHOICE log 93). -/
def Obligations.RedemptionEvents : Prop :=
∀ (s : State) (serial domain chip source target nonce : Word) (accept : Bool) (code : BitVec 8) (key floor seq : Nat),
    key = spentKey domain serial → floor = ((s.pkg.domains.find? domain.toNat).getD { members := [] }).floor →
    (homeHere s domain serial = true → liveOstik s ≠ [] →
      (∃ u a t, OnLink s 1 u ∧ homeClaim u domain serial chip = (a, t) ∧
        exec (.claim serial domain chip nonce) s = .next ((boxAdd t 2 0 0 [if a then 1 else 0]).modPkg fun p =>
          { p with claimReply := some { chip, nonce, accept := a } }) ∧
        match s.pkg.spent.find? key with
        | none => if floor ≤ serial.toNat / 2 ^ 32 ∧ s.pkg.spent.length < 1048576 then a = true ∧ t.pkg.spent.find? key = some (.live chip)
          else a = false ∧ t.pkg.spent = s.pkg.spent ∧ (floor ≤ serial.toNat / 2 ^ 32 → t.pkg.storeFull = true)
        | some (.held x) => if x = chip ∧ floor ≤ serial.toNat / 2 ^ 32 then a = true ∧ t.pkg.spent.find? key = some (.live chip)
          else a = false ∧ t = u
        | some _ => a = false ∧ t = u) ∧
      (∃ t, exec (.withdrawal serial domain chip) s = .next t ∧ t.pkg.spent.find? key =
        if s.pkg.spent.find? key = some (.live chip) then some (.held chip) else s.pkg.spent.find? key) ∧
      (∃ t, exec (.endNotice serial domain source code) s = .next t ∧ t.pkg.spent.find? key =
        if s.pkg.spent.find? key = some (.live source) then some (if code = 3 then .held source else .spent) else s.pkg.spent.find? key) ∧
      ∃ t, exec (.moveNotice serial domain source target) s = .next t ∧ t.pkg.spent.find? key =
        if s.pkg.spent.find? key = some (.live source) then some (.live target) else s.pkg.spent.find? key) ∧
    (∀ f, (raiseFloor s domain.toNat f seq).pkg.spent.find? key =
      if serial.toNat / 2 ^ 32 < f then none else s.pkg.spent.find? key) ∧
    (liveOstik s ≠ [] → ∀ c, s.pkg.claims.find? (fun c => c.nonce == nonce && !c.late s) = some c → ∃ v u, OnLink s 1 v ∧
      u = v.modPkg (fun p => { p with claims := p.claims.filter fun x => x.nonce != nonce }) ∧
      exec (.claimAnswer nonce accept) s = .next (claimed u c.p c.w c.hold (accept && !belowFloor s c.w))) ∧
    (liveOstik s ≠ [] → s.pkg.claims.find? (fun c => c.nonce == nonce && !c.late s) = none → ∃ v, OnLink s 1 v ∧
      exec (.claimAnswer nonce accept) s = .next v) ∧
    (∀ c, s.pkg.claims.find? (fun c => c.nonce == nonce && c.late s) = some c → ∃ u,
      u.pkg.openClaims = s.pkg.openClaims ++ [(c.w.serial, c.w.domain)] ∧
      u.pkg.claims = s.pkg.claims.filter (fun x => x.nonce != nonce) ∧ SameMemory s u ∧
      exec (.claimTimeout nonce) s = .next (answer u c.p 9 0 0)) ∧
    (liveOstik s ≠ [] → ∃ t, exec (.homeConfirmation serial domain) s = .next t ∧ SameMemory s t ∧
      ((serial, domain) ∉ t.pkg.openClaims ∧ t.pkg.notices = s.pkg.notices ∨
        t.pkg.openClaims = s.pkg.openClaims ∧ t.pkg.notices = s.pkg.notices.eraseP fun e => e.1 == serial && e.2.1 == domain) ∧
      (noticed s serial domain = false → (serial, domain) ∉ t.pkg.openClaims) ∧
      ((serial, domain) ∉ s.pkg.openClaims →
        t.pkg.notices = s.pkg.notices.eraseP fun e => e.1 == serial && e.2.1 == domain)) ∧
    (liveOstik s = [] → exec (.claim serial domain chip nonce) s = .next s ∧ exec (.claimAnswer nonce accept) s = .next s ∧
      exec (.withdrawal serial domain chip) s = .next s ∧ exec (.endNotice serial domain source code) s = .next s ∧
      exec (.moveNotice serial domain source target) s = .next s ∧ exec (.homeConfirmation serial domain) s = .next s)

/-- The steps of a live migration behind its order (R408, R410 to R412), all over an authenticated link: the stop takes the context off its quads, as
soon as its images have room; the switch on the source passes the serial on, or abandons the move with 3; the switch on the target lets the context
run; each pull takes the next page, and the last one frees the source; a pull that does not come ends the task that has touched the page, and the
context 5.  That a failed pull whose page nothing has touched is only noted, until an access touches it, is an inference (DEDUCED log 34); which pages
are still to be pulled, `pullList`, is the model's choice (DESIGN CHOICE log 54), and so is the context that a switch brings in where this chip does not hold
one that another chip has sent, a free value, and where it fits (DESIGN CHOICE log 85), and that a page counts as 128 flits and a notice as one
(DESIGN CHOICE log 93). -/
def Obligations.MoveEvents : Prop :=
(∀ (s : State) (o : Nat), s.ctxs.find? o = none → s.pkg.boot = .on → liveOstik s ≠ [] → ∃ v, OnLink s 1 v ∧
    (Config.arriving v.fresh = none → exec (.moveSwitch o) s = .next v.tick.2) ∧
    ∀ a, Config.arriving v.fresh = some a →
      (arrivalFits v.tick.2 o a = false → exec (.moveSwitch o) s = .next v.tick.2) ∧
      (arrivalFits v.tick.2 o a = true → exec (.moveSwitch o) s =
        .next (switchTarget (replace (takeIn v.tick.2 o a) o a.ctx.rect.col a.ctx.rect.row) o a.move))) ∧
  ∀ (s : State) (o page : Nat) (m : MoveSt), (s.ctx o).move = some m →
    (liveOstik s ≠ [] → m.role = false → m.away = false → m.stopped = false → pagesSettled s o = true → (s.ctx o).phase = .running →
      drained s o = true → ∃ t, exec (.moveStop o) s = .next t ∧ (t.ctx o).move = some { m with stopped := true } ∧
        t.slots = s.slots ∧ SameMemory s t ∧ (mustSpill s o = false → (t.ctx o).phase = .swapped) ∧
        ((t.ctx o).phase = .swapped ∨ (t.ctx o).phase = .stopping ∧ (t.ctx o).spillWait = true)) ∧
    (liveOstik s ≠ [] → (s.ctx o).phase = .swapped → m.stopped = true → m.away = false → ∃ v, OnLink s 1 v ∧
      (m.role = false → ∀ u, sendMove v o m.target = (true, u) → ∀ p w, pullList u m = (p, w) → p ≠ [] →
        ∃ t, exec (.moveSwitch o) s = .next t ∧ (t.ctx o).move = some { m with away := true, pulls := p } ∧ SameMemory w t) ∧
      (m.role = false → ∀ u, sendMove v o m.target = (false, u) → ∃ t, exec (.moveSwitch o) s = .next t ∧
        t.pkg.resp = [3, 0] ++ leBytes 2 0 ++ List.replicate 4 0 ++ leBytes 8 m.tag.toNat ++ List.replicate 48 0 ∧
        t.pkg.request = u.pkg.request) ∧
      (m.role = true → exec (.moveSwitch o) s = .next (switchTarget v o m))) ∧
    (liveOstik s ≠ [] → pullReady m page = true → ∀ rest, m.pulls = page :: rest →
      (rest ≠ [] → m.role = false → ∃ t, exec (.pull o page) s = .next t ∧
        (t.ctx o).move = some { m with pulls := rest } ∧ t.slots = s.slots ∧ SameMemory s t) ∧
      (rest ≠ [] → m.role = true → ∃ u, (u.ctx o).move = some { m with pulls := rest } ∧ SameMemory s u ∧
        exec (.pull o page) s = .next (releaseHost u)) ∧
      (rest = [] → m.role = false → ∃ u, SameMemory s u ∧ exec (.pull o page) s = .next (freeSource u o)) ∧
      (rest = [] → m.role = true → ∃ u, (u.ctx o).move = none ∧ SameMemory s u ∧ exec (.pull o page) s = .next (releaseHost u))) ∧
    (liveOstik s = [] → exec (.pull o page) s = .next s ∧ exec (.moveSwitch o) s = .next s ∧ exec (.moveStop o) s = .next s) ∧
    (m.role = true → m.stopped = false → page ∈ m.pulls →
      (∀ r, pullTouch s o page = some r → exec (.pullTimeout o page) s = .next (ctxEnd (taskAbrupt s.tick.2 o r) o 5)) ∧
      (pullTouch s o page = none → ∃ t, exec (.pullTimeout o page) s = .next t ∧ (t.ctx o).move = some { m with lost := insertPage page m.lost } ∧
        t.slots = s.slots ∧ SameMemory s t))

/-- Ports (R400, R401, R403, R408, R409): a CXL or Ostik port keeps what each report says; out of threshold an UP port is DEGRADED; within the thresholds every
report counts as a good second, one out of them begins the count anew, and after 60 a DEGRADED port recovers, also one on four lanes (DEDUCED log
84); a failing lane, a loss, training with a partner that the port accepts, which on the host-facing port brings up the host link (DEDUCED log 22), a
new key, and the loss of every route. -/
def Obligations.PortEvents : Prop :=
∀ (s : State) (n o rate replays loss : Nat) (margin : List Nat) (partner : Partner),
    (n < 20 → ∃ t, exec (.telemetryReport n margin rate replays loss) s = .next t ∧ SameMemory s t ∧
      ((portOf s n).state = .up → portGood s margin rate = false →
        portOf t n = { portOf s n with margin, rate, replays, loss, good := 0, state := .degraded } ∧ t.pkg.evCount = s.pkg.evCount + 1) ∧
      ((portOf s n).state ≠ .up ∨ portGood s margin rate = true →
        portOf t n = { portOf s n with margin, rate, replays, loss, good := if portGood s margin rate then (portOf s n).good + 1 else 0 } ∧
        t.pkg.evCount = s.pkg.evCount) ∧
      t.agenda = s.agenda ++ if (portOf s n).state.low ∧ portGood s margin rate = true ∧ 60 ≤ (portOf s n).good + 1 then [.portRecovery n] else []) ∧
    ((portOf s n).state.low = true → 60 ≤ (portOf s n).good → ∃ t, exec (.portRecovery n) s = .next t ∧
      portOf t n = { portOf s n with state := .up, good := 0 } ∧ t.pkg.evCount = s.pkg.evCount + 1 ∧ SameMemory s t) ∧
    ((portOf s n).state.low = false ∨ (portOf s n).good < 60 → exec (.portRecovery n) s = .next s) ∧
    ((portOf s n).state = .degraded → ∃ t, exec (.laneFail n) s = .next t ∧ portOf t n = { portOf s n with state := .degraded4 } ∧ SameMemory s t) ∧
    ((portOf s n).state ≠ .degraded → exec (.laneFail n) s = .next s) ∧
    (portExists n = true → (portOf s n).state ≠ .down → ∃ t, exec (.portDown n) s = .next t ∧
      portOf t n = { portOf s n with state := .down, good := 0 } ∧ t.pkg.evCount = s.pkg.evCount + 1 ∧ SameMemory s t) ∧
    (portExists n = true → (portOf s n).state = .down → s.pkg.boot ≠ .off → partnerOk s n partner = true →
      (n ≠ hostPort s → ∃ t, exec (.portTraining n partner) s = .next t ∧ t.pkg.linkUp = s.pkg.linkUp ∧ SameMemory s t ∧
        portOf t n = if 4 ≤ n ∧ n < 20 then { portOf s n with state := .up, good := 0, keys := (portOf s n).keys + 1, flits := 0 }
          else { portOf s n with state := .up, good := 0 }) ∧
      (n = hostPort s → s.pkg.boot = .on → s.pkg.linkUp = false → ∃ t, exec (.portTraining n partner) s = .next t ∧
        (portOf t n).state = .up ∧ t.pkg.linkUp = true ∧ t.pkg.challenge = Config.randomBytes s.fresh 32 ∧ SameMemory s t)) ∧
    (partnerOk s n partner = false → exec (.portTraining n partner) s = .next s) ∧
    (4 ≤ n → n < 20 → (portOf s n).state ≠ .down → ∃ t, exec (.rekey n) s = .next t ∧
      portOf t n = { portOf s n with keys := (portOf s n).keys + 1, flits := 0 } ∧ SameMemory s t) ∧
    ((s.ctxs.find? o).isSome → (s.ctx o).npkg ≠ 1 → exec (.noRoute o) s = .next (ctxEnd s o 3))

/-- Power, repair and boot (R310, R397, R398, R414 to R419): a report is kept, and past the cap of its domain or the package limit the duty falls; it
rises where that is due; a trip empties a compute stack or powers the package down; a failing
half-slab is retired, and its strait takes a spare one or the quad is retired; what a loss of power leaves; and what a power-up brings.  How far the
duty falls, that it falls with the report, and that every compute stack falls together past the package limit by at least one step, is the model's
choice (DESIGN CHOICE log 35); that a fall writes a black-box record of kind 0x30 is an inference (DEDUCED log 86); so are the numbers 8q + n of half-slabs, the retirement
of a quad without an island and that a half-slab stays where its strait was repaired within 10 s (DESIGN CHOICE log 59); that an image replaces the one of
the failed stage is an inference (DEDUCED log 55), and so is the host link up after boot (DEDUCED log 22). -/
def Obligations.PowerAndBoot : Prop :=
∀ (s : State) (d n q v : Nat) (domain vout treg eff : BitVec 16) (iout flux : BitVec 32) (r : RegReport) (passed : List Bool)
    (image sig : List Byte),
    (domain.toNat = d → isDomain d = true → r = ⟨domain, vout, iout, treg, eff, flux, BitVec.ofNat 64 s.pkg.clock⟩ →
      ∃ t, exec (.regulatorReport domain vout iout treg eff flux) s = .next t ∧ (powerOf t d).report = some r ∧ SameMemory s t ∧
        (∀ u, u = modPower s d (fun p => p.reported d s.pkg.clock r) → aboveCap d (powerOf u d) = false → overLimit u = false →
          powerOf t d = (powerOf s d).reported d s.pkg.clock r) ∧
        (8 < (powerOf s d).duty → aboveCap d { powerOf s d with report := some r } = true →
          8 ≤ (powerOf t d).duty ∧ (powerOf t d).duty < (powerOf s d).duty)) ∧
    (isDomain d = true →
      (aboveCap d (powerOf s d) = true → Nat.max 8 n < (powerOf s d).duty → ∃ t, exec (.dutyDrop d n) s = .next t ∧
        powerOf t d = (powerOf s d).lowered d s.pkg.clock n ∧ (powerOf t d).duty = Nat.max 8 n ∧ t.pkg.box.head?.map (·.kind) = some 0x30) ∧
      (aboveCap d (powerOf s d) = false → exec (.dutyDrop d n) s = .next s) ∧
      (riseDue s d = true → ∃ t, exec (.dutyRise d) s = .next t ∧
        powerOf t d = { powerOf s d with duty := (powerOf s d).duty + 1, below := s.pkg.clock, hot := none }) ∧
      (riseDue s d = false → exec (.dutyRise d) s = .next s) ∧
      (tripDue s d = true → d < 4 → ∃ t, exec (.thermalTrip d) s = .next t ∧ (powerOf t d).idle = true ∧
        (powerOf t d).idleEnd = s.pkg.clock + 1000000 ∧ SameMemory s t ∧
        ∀ o, o ∈ ctxsOn s (fun p => stackOfQuad p = d) → (s.ctx o).phase = .running → .harbourSwap o ∈ t.agenda) ∧
      (tripDue s d = true → 4 ≤ d → ∃ t, exec (.thermalTrip d) s = .next t ∧ t.pkg.boot = .off ∧ t.pkg.saved = s.pkg.clock) ∧
      (tripDue s d = false → exec (.thermalTrip d) s = .next s)) ∧
    (isDomain d = false → overLimit s = true → ∃ t, exec (.dutyDrop d n) s = .next t ∧
      ∀ k, k < 4 → (powerOf t k).duty = Nat.min (powerOf s k).duty (Nat.max 8 (Nat.min n ((powerOf s k).duty - 1)))) ∧
    ((powerOf s d).idle = true → (powerOf s d).idleEnd ≤ s.pkg.clock → ∃ t, exec (.stackIdleEnd d) s = .next t ∧
      powerOf t d = { powerOf s d with idle := false }) ∧
    (∀ u, s.pkg.quads.get .working q ≠ .retired → n < 8 → q < 256 → v < Config.marginLimit → 8 * q + n ∉ s.pkg.halves →
      u = s.modPkg (fun p => { p with halves := (8 * q + n) :: p.halves }) →
      (ctxsOn s (fun p => quadNo p = q) = [] → straitsWith s (8 * q + n) = [] → ∃ t, exec (.marginReplan [(8 * q + n, v)]) s = .next t ∧
        t.pkg.halves = u.pkg.halves ∧ t.pkg.quads.get .working q = .retired) ∧
      ∀ o p k, ctxsOn s (fun x => quadNo x = q) ≠ [] → straitsWith s (8 * q + n) = [(o, p, k)] → s.pkg.repaired.find? (4 * p + k) = none →
        (spareHalf u o p (8 * q + n) = none → ∃ t, exec (.marginReplan [(8 * q + n, v)]) s = .next t ∧ t.pkg.halves = u.pkg.halves ∧
          t.pkg.quads.get .working p = .retired) ∧
        ∀ h, spareHalf u o p (8 * q + n) = some h → ∃ t, exec (.marginReplan [(8 * q + n, v)]) s = .next t ∧
          t.pkg.halves = u.pkg.halves ∧ t.pkg.repaired.find? (4 * p + k) = some s.pkg.clock ∧
          (t.ctx o).straits.get [] p = ((s.ctx o).straits.get [] p).map fun e =>
            if e.1 = 8 * q + n then (h, e.2) else if e.2 = 8 * q + n then (e.1, h) else e) ∧
    (s.pkg.quads.get .working q = .testing → (∃ t, exec (.testEnd q true) s = .next t ∧ t.pkg.quads.get .working q = .working) ∧
      ∃ t, exec (.testEnd q false) s = .next t ∧ t.pkg.quads.get .working q = .retired) ∧
    (s.pkg.boot ≠ .off → (∃ t, exec .powerLoss s = .next t ∧ t.pkg.boot = .off ∧ t.pkg.saved = s.pkg.saved ∧ t.mem = [] ∧ t.slots = [] ∧
        t.pkg.spent = s.pkg.spent) ∧
      ∃ t, exec .orderlyPowerDown s = .next t ∧ t.pkg.boot = .off ∧ t.pkg.saved = s.pkg.clock ∧ t.mem = [] ∧ t.slots = []) ∧
    (s.pkg.boot = .off →
      (passed.take 4 = [true, true, true, true] → (∀ k, 1 ≤ k → k ≤ 3 → imagePasses s (s.pkg.images.get {} k) = true) →
        ∃ t, exec (.powerUp passed) s = .next t ∧ t.pkg.boot = .on ∧
          t.pkg.clock = s.pkg.saved ∧ t.pkg.anchored = false ∧ t.pkg.linkUp = true ∧ (portOf t (hostPort t)).state = .up ∧
          t.pkg.challenge = Config.randomBytes s.fresh 32) ∧
      ∀ k, stageFails s passed = some k → ∃ t, exec (.powerUp passed) s = .next t ∧ t.pkg.boot = .recovery ∧ t.pkg.failed = k ∧
        t.pkg.linkUp = false) ∧
    (s.pkg.boot = .recovery → imagePasses s ⟨image, sig, n⟩ = true → ∃ t, exec (.recoveryFirmware n image sig) s = .next t ∧
      t.pkg.svn = n ∧ t.pkg.images.find? (Nat.min s.pkg.failed 3) = some ⟨image, sig, n⟩)

/-- Settings of the operator and the debug gate (R303, R305, R340, R343, R400, R409, R415, R420, R422, R423): with the package booted and nothing before
it in the order, a signed setting within its bounds takes effect, and an unsigned one does not, but for the first enrolment; the gate opens only while no
context exists.  That the first enrolment is the moment at which the operator's certificate of the identity key comes is the model's choice
(DESIGN CHOICE log 2), and so is the form of the record that a setting's signature covers (log 56). -/
def Obligations.OperatorSettings : Prop :=
∀ (s : State) (auth : List Byte × List Byte × List Byte) (index n d cap : Nat) (key : List Byte) (domain : Word) (members : List Word),
    s.pkg.boot = .on → s.pkg.waiting = [] →
    (s.pkg.keys = [] → index < 16 → ∃ t, exec (.operatorKeyTable auth index (some key)) s = .next t ∧ t.pkg.keys.find? index = some key ∧
      t.pkg.operatorCert = Config.certificate key Config.identityKey) ∧
    (authOk s auth = true →
      (index < 16 → ∃ t, exec (.operatorKeyTable auth index (some key)) s = .next t ∧ t.pkg.keys.find? index = some key) ∧
      (s.pkg.domains.find? domain.toNat = none → members ≠ [] → members.length ≤ 256 → s.pkg.domains.length < 4 →
        ∃ t, exec (.domainsAndMemberLists auth domain members) s = .next t ∧ t.pkg.domains.find? domain.toNat = some { members }) ∧
      ((s.pkg.domains.find? domain.toNat).isSome → members ≠ [] → exec (.domainsAndMemberLists auth domain members) s = .next s) ∧
      (n ≤ 63 → (∀ e, e ∈ s.arenas → e.2.holder = 0) → ∃ t, exec (.podn auth n) s = .next t ∧ t.pkg = { s.pkg with podn := n }) ∧
      (n ≤ 3 → ∃ t, exec (.hostFacingCxlPort auth n) s = .next t ∧ t.pkg = { s.pkg with cxlPortNext := n }) ∧
      (16 ≤ n → n ≤ 65535 → ∃ t, exec (.migrationThreshold auth n) s = .next t ∧ t.pkg = { s.pkg with threshold := n }) ∧
      (isDomain d = true → 50 ≤ cap → cap ≤ 100 → ∃ t, exec (.fluxCaps auth d cap) s = .next t ∧ powerOf t d = { powerOf s d with cap }) ∧
      (∃ t, exec (.portThresholds auth n cap) s = .next t ∧ t.pkg = { s.pkg with marginMin := n, rateMax := cap })) ∧
    (authOk s auth = false → (s.pkg.keys ≠ [] → exec (.operatorKeyTable auth index (some key)) s = .next s) ∧
      exec (.domainsAndMemberLists auth domain members) s = .next s ∧ exec (.podn auth n) s = .next s ∧
      exec (.hostFacingCxlPort auth n) s = .next s ∧ exec (.migrationThreshold auth n) s = .next s ∧
      exec (.fluxCaps auth d cap) s = .next s ∧ exec (.portThresholds auth n cap) s = .next s) ∧
    (s.ctxs = [] → ∃ t, exec (.debugGateRequest true) s = .next t ∧ t.pkg.debugOpen = true) ∧
    (s.ctxs ≠ [] → exec (.debugGateRequest true) s = .next s) ∧
    (∃ t, exec (.debugGateRequest false) s = .next t ∧ t.pkg.debugOpen = false)
end

