-- ==== Sys2Proof/Laws/Dispatch.lean ====
section
/-! SUPPORT. What `exec` answers for each constructor: the call that its arm makes. -/

namespace Sys2Proof.Machine

theorem exec_nop (h : Hdr) (s : State) : exec (.nop h) s = execNop h s := rfl
theorem exec_add (h : Hdr) (d a b : Reg) (s : State) : exec (.add h d a b) s = execAdd h d a b s := rfl
theorem exec_addi (h : Hdr) (d a : Reg) (imm0 : Imm) (s : State) : exec (.addi h d a imm0) s = execAddi h d a imm0 s := rfl
theorem exec_sub (h : Hdr) (d a b : Reg) (s : State) : exec (.sub h d a b) s = execSub h d a b s := rfl
theorem exec_rsbi (h : Hdr) (d a : Reg) (imm0 : Imm) (s : State) : exec (.rsbi h d a imm0) s = execRsbi h d a imm0 s := rfl
theorem exec_mul (h : Hdr) (d a b : Reg) (s : State) : exec (.mul h d a b) s = execMul h d a b s := rfl
theorem exec_muli (h : Hdr) (d a : Reg) (imm0 : Imm) (s : State) : exec (.muli h d a imm0) s = execMuli h d a imm0 s := rfl
theorem exec_mulh (h : Hdr) (ty : IntTy) (d a b : Reg) (s : State) : exec (.mulh h ty d a b) s = execMulh h ty d a b s := rfl
theorem exec_mad (h : Hdr) (d a b c : Reg) (s : State) : exec (.mad h d a b c) s = execMad h d a b c s := rfl
theorem exec_div (h : Hdr) (ty : IntTy) (d a b : Reg) (s : State) : exec (.div h ty d a b) s = execDiv h ty d a b s := rfl
theorem exec_rem (h : Hdr) (ty : IntTy) (d a b : Reg) (s : State) : exec (.rem h ty d a b) s = execRem h ty d a b s := rfl
theorem exec_min (h : Hdr) (ty : IntTy) (d a b : Reg) (s : State) : exec (.min h ty d a b) s = execMin h ty d a b s := rfl
theorem exec_max (h : Hdr) (ty : IntTy) (d a b : Reg) (s : State) : exec (.max h ty d a b) s = execMax h ty d a b s := rfl
theorem exec_and (h : Hdr) (d a b : Reg) (s : State) : exec (.and h d a b) s = execAnd h d a b s := rfl
theorem exec_andi (h : Hdr) (d a : Reg) (imm0 : Imm) (s : State) : exec (.andi h d a imm0) s = execAndi h d a imm0 s := rfl
theorem exec_or (h : Hdr) (d a b : Reg) (s : State) : exec (.or h d a b) s = execOr h d a b s := rfl
theorem exec_ori (h : Hdr) (d a : Reg) (imm0 : Imm) (s : State) : exec (.ori h d a imm0) s = execOri h d a imm0 s := rfl
theorem exec_xor (h : Hdr) (d a b : Reg) (s : State) : exec (.xor h d a b) s = execXor h d a b s := rfl
theorem exec_xori (h : Hdr) (d a : Reg) (imm0 : Imm) (s : State) : exec (.xori h d a imm0) s = execXori h d a imm0 s := rfl
theorem exec_andn (h : Hdr) (d a b : Reg) (s : State) : exec (.andn h d a b) s = execAndn h d a b s := rfl
theorem exec_shl (h : Hdr) (d a b : Reg) (s : State) : exec (.shl h d a b) s = execShl h d a b s := rfl
theorem exec_shli (h : Hdr) (d a : Reg) (imm0 : Imm) (s : State) : exec (.shli h d a imm0) s = execShli h d a imm0 s := rfl
theorem exec_shr (h : Hdr) (d a b : Reg) (s : State) : exec (.shr h d a b) s = execShr h d a b s := rfl
theorem exec_shri (h : Hdr) (d a : Reg) (imm0 : Imm) (s : State) : exec (.shri h d a imm0) s = execShri h d a imm0 s := rfl
theorem exec_sar (h : Hdr) (d a b : Reg) (s : State) : exec (.sar h d a b) s = execSar h d a b s := rfl
theorem exec_sari (h : Hdr) (d a : Reg) (imm0 : Imm) (s : State) : exec (.sari h d a imm0) s = execSari h d a imm0 s := rfl
theorem exec_rot (h : Hdr) (d a b : Reg) (s : State) : exec (.rot h d a b) s = execRot h d a b s := rfl
theorem exec_roti (h : Hdr) (d a : Reg) (imm0 : Imm) (s : State) : exec (.roti h d a imm0) s = execRoti h d a imm0 s := rfl
theorem exec_clz (h : Hdr) (d a : Reg) (s : State) : exec (.clz h d a) s = execClz h d a s := rfl
theorem exec_ctz (h : Hdr) (d a : Reg) (s : State) : exec (.ctz h d a) s = execCtz h d a s := rfl
theorem exec_popc (h : Hdr) (d a : Reg) (s : State) : exec (.popc h d a) s = execPopc h d a s := rfl
theorem exec_brev (h : Hdr) (d a : Reg) (s : State) : exec (.brev h d a) s = execBrev h d a s := rfl
theorem exec_bswap (h : Hdr) (d a : Reg) (s : State) : exec (.bswap h d a) s = execBswap h d a s := rfl
theorem exec_ext (h : Hdr) (sg : Bool) (d a : Reg) (imm0 : Imm) (s : State) :
    exec (.ext h sg d a imm0) s = execExt h sg d a imm0 s := rfl
theorem exec_bfx (h : Hdr) (sg : Bool) (d a : Reg) (imm0 : Imm) (s : State) :
    exec (.bfx h sg d a imm0) s = execBfx h sg d a imm0 s := rfl
theorem exec_bfi (h : Hdr) (d a b : Reg) (imm0 : Imm) (s : State) : exec (.bfi h d a b imm0) s = execBfi h d a b imm0 s := rfl
theorem exec_crc (h : Hdr) (k : BitVec 2) (d a b : Reg) (s : State) : exec (.crc h k d a b) s = execCrc h k d a b s := rfl
theorem exec_hash (h : Hdr) (d a b : Reg) (s : State) : exec (.hash h d a b) s = execHash h d a b s := rfl
theorem exec_li (h : Hdr) (d : Reg) (imm0 : Imm) (s : State) : exec (.li h d imm0) s = execLi h d imm0 s := rfl
theorem exec_lih (h : Hdr) (d a : Reg) (imm0 : Imm) (s : State) : exec (.lih h d a imm0) s = execLih h d a imm0 s := rfl
theorem exec_lea (h : Hdr) (d : Reg) (m : Mem) (s : State) : exec (.lea h d m) s = execLea h d m s := rfl
theorem exec_mov (h : Hdr) (d a : Reg) (s : State) : exec (.mov h d a) s = execMov h d a s := rfl
theorem exec_sel (h : Hdr) (d a b : Reg) (c : PReg) (s : State) : exec (.sel h d a b c) s = execSel h d a b c s := rfl
theorem exec_cmp (h : Hdr) (cond : Cond) (ty : IntTy) (d : PReg) (a b : Reg) (s : State) :
    exec (.cmp h cond ty d a b) s = execCmp h cond ty d a b s := rfl
theorem exec_cmpi (h : Hdr) (cond : Cond) (ty : IntTy) (d : PReg) (a : Reg) (imm0 : Imm) (s : State) :
    exec (.cmpi h cond ty d a imm0) s = execCmpi h cond ty d a imm0 s := rfl
theorem exec_plog (h : Hdr) (tt : BitVec 4) (d a b : PReg) (s : State) : exec (.plog h tt d a b) s = execPlog h tt d a b s := rfl
theorem exec_pmov (h : Hdr) (d : PReg) (a : Reg) (s : State) : exec (.pmov h d a) s = execPmov h d a s := rfl
theorem exec_pmovToGeneral (h : Hdr) (d : Reg) (a : PReg) (s : State) :
    exec (.pmovToGeneral h d a) s = execPmovToGeneral h d a s := rfl
theorem exec_pmovGet (h : Hdr) (d : Reg) (s : State) : exec (.pmovGet h d) s = execPmovGet h d s := rfl
theorem exec_pmovSet (h : Hdr) (a : Reg) (s : State) : exec (.pmovSet h a) s = execPmovSet h a s := rfl
theorem exec_br (h : Hdr) (imm0 : Imm) (s : State) : exec (.br h imm0) s = execBr h imm0 s := rfl
theorem exec_call (h : Hdr) (imm0 : Imm) (s : State) : exec (.call h imm0) s = execCall h imm0 s := rfl
theorem exec_ret (h : Hdr) (a : Reg) (s : State) : exec (.ret h a) s = execRet h a s := rfl
theorem exec_jmp (h : Hdr) (a : Reg) (imm0 : Imm) (s : State) : exec (.jmp h a imm0) s = execJmp h a imm0 s := rfl
theorem exec_callr (h : Hdr) (a : Reg) (s : State) : exec (.callr h a) s = execCallr h a s := rfl
theorem exec_mfs (h : Hdr) (r : SysReg) (d : Reg) (s : State) : exec (.mfs h r d) s = execMfs h r d s := rfl
theorem exec_mts (h : Hdr) (r : SysReg) (a : Reg) (s : State) : exec (.mts h r a) s = execMts h r a s := rfl
theorem exec_rseedWrite (h : Hdr) (a : Reg) (s : State) : exec (.rseedWrite h a) s = execRseedWrite h a s := rfl
theorem exec_fflagsWrite (h : Hdr) (a : Reg) (s : State) : exec (.fflagsWrite h a) s = execFflagsWrite h a s := rfl
theorem exec_ringbWrite (h : Hdr) (a : Reg) (s : State) : exec (.ringbWrite h a) s = execRingbWrite h a s := rfl
theorem exec_ringlWrite (h : Hdr) (a : Reg) (s : State) : exec (.ringlWrite h a) s = execRinglWrite h a s := rfl
theorem exec_tdescWrite (h : Hdr) (t : TReg) (a : Reg) (s : State) : exec (.tdescWrite h t a) s = execTdescWrite h t a s := rfl
theorem exec_trap (h : Hdr) (imm0 : Imm) (s : State) : exec (.trap h imm0) s = execTrap h imm0 s := rfl
theorem exec_brk (h : Hdr) (imm0 : BitVec 16) (s : State) : exec (.brk h imm0) s = execBrk h imm0 s := rfl
theorem exec_tret (h : Hdr) (a : Reg) (s : State) : exec (.tret h a) s = execTret h a s := rfl
theorem exec_fadd (h : Hdr) (f : Fmt) (rnd : Rnd) (d a b : Reg) (s : State) :
    exec (.fadd h f rnd d a b) s = execFadd h f rnd d a b s := rfl
theorem exec_fsub (h : Hdr) (f : Fmt) (rnd : Rnd) (d a b : Reg) (s : State) :
    exec (.fsub h f rnd d a b) s = execFsub h f rnd d a b s := rfl
theorem exec_fmul (h : Hdr) (f : Fmt) (rnd : Rnd) (d a b : Reg) (s : State) :
    exec (.fmul h f rnd d a b) s = execFmul h f rnd d a b s := rfl
theorem exec_ffma (h : Hdr) (f : Fmt) (rnd : Rnd) (d a b c : Reg) (s : State) :
    exec (.ffma h f rnd d a b c) s = execFfma h f rnd d a b c s := rfl
theorem exec_fdiv (h : Hdr) (f : Fmt) (rnd : Rnd) (d a b : Reg) (s : State) :
    exec (.fdiv h f rnd d a b) s = execFdiv h f rnd d a b s := rfl
theorem exec_fsqrt (h : Hdr) (f : Fmt) (rnd : Rnd) (d a : Reg) (s : State) :
    exec (.fsqrt h f rnd d a) s = execFsqrt h f rnd d a s := rfl
theorem exec_fmin (h : Hdr) (f : Fmt) (d a b : Reg) (s : State) : exec (.fmin h f d a b) s = execFmin h f d a b s := rfl
theorem exec_fmax (h : Hdr) (f : Fmt) (d a b : Reg) (s : State) : exec (.fmax h f d a b) s = execFmax h f d a b s := rfl
theorem exec_fcmp (h : Hdr) (cond : FCond) (f : Fmt) (d : PReg) (a b : Reg) (s : State) :
    exec (.fcmp h cond f d a b) s = execFcmp h cond f d a b s := rfl
theorem exec_fcvt (h : Hdr) (k : Cvt) (rnd : Rnd) (d a : Reg) (s : State) : exec (.fcvt h k rnd d a) s = execFcvt h k rnd d a s := rfl
theorem exec_fsgn (h : Hdr) (op : SgnOp) (f : Fmt) (d a b : Reg) (s : State) :
    exec (.fsgn h op f d a b) s = execFsgn h op f d a b s := rfl
theorem exec_fclass (h : Hdr) (f : Fmt) (d a : Reg) (s : State) : exec (.fclass h f d a) s = execFclass h f d a s := rfl
theorem exec_fround (h : Hdr) (f : Fmt) (rnd : Rnd) (d a : Reg) (s : State) :
    exec (.fround h f rnd d a) s = execFround h f rnd d a s := rfl
theorem exec_ld (h : Hdr) (ty : IntTy) (d : Reg) (m : Mem) (s : State) : exec (.ld h ty d m) s = execLd h ty d m s := rfl
theorem exec_st (h : Hdr) (ty : IntTy) (m : Mem) (c : Reg) (s : State) : exec (.st h ty m c) s = execSt h ty m c s := rfl
theorem exec_ldc (h : Hdr) (ty : IntTy) (d : Reg) (m : Mem) (s : State) : exec (.ldc h ty d m) s = execLdc h ty d m s := rfl
theorem exec_amo (h : Hdr) (op : AmoOp) (ty : IntTy) (d : Reg) (m : Mem) (c : Reg) (s : State) :
    exec (.amo h op ty d m c) s = execAmo h op ty d m c s := rfl
theorem exec_cas (h : Hdr) (ty : IntTy) (d a : Reg) (imm0 : Imm) (b c : Reg) (s : State) :
    exec (.cas h ty d a imm0 b c) s = execCas h ty d a imm0 b c s := rfl
theorem exec_ldfe (h : Hdr) (ty : IntTy) (keep : Bool) (d : Reg) (m : Mem) (s : State) :
    exec (.ldfe h ty keep d m) s = execLdfe h ty keep d m s := rfl
theorem exec_stfe (h : Hdr) (ty : IntTy) (ovr : Bool) (m : Mem) (c : Reg) (s : State) :
    exec (.stfe h ty ovr m c) s = execStfe h ty ovr m c s := rfl
theorem exec_feset (h : Hdr) (full : Bool) (m : Mem) (s : State) : exec (.feset h full m) s = execFeset h full m s := rfl
theorem exec_feqry (h : Hdr) (d : PReg) (m : Mem) (s : State) : exec (.feqry h d m) s = execFeqry h d m s := rfl
theorem exec_waita (h : Hdr) (cond : Cond) (ty : IntTy) (d : Reg) (m : Mem) (c : Reg) (s : State) :
    exec (.waita h cond ty d m c) s = execWaita h cond ty d m c s := rfl
theorem exec_fence (h : Hdr) (sc : Scope) (s : State) : exec (.fence h sc) s = execFence h sc s := rfl
theorem exec_touch (h : Hdr) (d : Reg) (m : Mem) (s : State) : exec (.touch h d m) s = execTouch h d m s := rfl
theorem exec_lease (h : Hdr) (rights : BitVec 4) (d a : Reg) (imm0 : Imm) (b : Reg) (s : State) :
    exec (.lease h rights d a imm0 b) s = execLease h rights d a imm0 b s := rfl
theorem exec_pref (h : Hdr) (llc : Bool) (m : Mem) (s : State) : exec (.pref h llc m) s = execPref h llc m s := rfl
theorem exec_msg (h : Hdr) (a c : Reg) (imm0 : Imm) (s : State) : exec (.msg h a c imm0) s = execMsg h a c imm0 s := rfl
theorem exec_wait (h : Hdr) (d : Reg) (imm0 : Imm) (s : State) : exec (.wait h d imm0) s = execWait h d imm0 s := rfl
theorem exec_waitWk (h : Hdr) (d : Reg) (imm0 : Imm) (s : State) : exec (.waitWk h d imm0) s = execWaitWk h d imm0 s := rfl
theorem exec_wake (h : Hdr) (a : Reg) (s : State) : exec (.wake h a) s = execWake h a s := rfl
theorem exec_bankcfg (h : Hdr) (mode : BankMode) (d a : Reg) (s : State) :
    exec (.bankcfg h mode d a) s = execBankcfg h mode d a s := rfl
theorem exec_ramo (h : Hdr) (op : AmoOp) (wk : Bool) (ty : IntTy) (d a b : Reg) (imm0 : Imm) (c : Reg) (s : State) :
    exec (.ramo h op wk ty d a b imm0 c) s = execRamo h op wk ty d a b imm0 c s := rfl
theorem exec_rst (h : Hdr) (wk : Bool) (ty : IntTy) (a b : Reg) (imm0 : Imm) (c : Reg) (s : State) :
    exec (.rst h wk ty a b imm0 c) s = execRst h wk ty a b imm0 c s := rfl
theorem exec_rld (h : Hdr) (ty : IntTy) (d a b : Reg) (imm0 : Imm) (s : State) :
    exec (.rld h ty d a b imm0) s = execRld h ty d a b imm0 s := rfl
theorem exec_vld (v : VHdr) (ty : IntTy) (d : VReg) (a : Reg) (imm0 : Imm) (s : State) :
    exec (.vld v ty d a imm0) s = execVld v ty d a imm0 s := rfl
theorem exec_vst (v : VHdr) (ty : IntTy) (d : VReg) (a : Reg) (imm0 : Imm) (s : State) :
    exec (.vst v ty d a imm0) s = execVst v ty d a imm0 s := rfl
theorem exec_vlds (v : VHdr) (ty : IntTy) (d : VReg) (a b : Reg) (imm0 : Imm) (s : State) :
    exec (.vlds v ty d a b imm0) s = execVlds v ty d a b imm0 s := rfl
theorem exec_vsts (v : VHdr) (ty : IntTy) (d : VReg) (a b : Reg) (imm0 : Imm) (s : State) :
    exec (.vsts v ty d a b imm0) s = execVsts v ty d a b imm0 s := rfl
theorem exec_vldc (v : VHdr) (ty : IntTy) (d : VReg) (a : Reg) (imm0 : Imm) (s : State) :
    exec (.vldc v ty d a imm0) s = execVldc v ty d a imm0 s := rfl
theorem exec_vgth (v : VHdr) (ty : IntTy) (sc : BitVec 2) (d : VReg) (a : Reg) (b : VReg) (imm0 : Imm) (s : State) :
    exec (.vgth v ty sc d a b imm0) s = execVgth v ty sc d a b imm0 s := rfl
theorem exec_vsct (v : VHdr) (ty : IntTy) (sc : BitVec 2) (d : VReg) (a : Reg) (b : VReg) (imm0 : Imm) (s : State) :
    exec (.vsct v ty sc d a b imm0) s = execVsct v ty sc d a b imm0 s := rfl
theorem exec_vrst (v : VHdr) (wk : Bool) (ty : IntTy) (d : VReg) (a b : Reg) (imm0 : Imm) (s : State) :
    exec (.vrst v wk ty d a b imm0) s = execVrst v wk ty d a b imm0 s := rfl
theorem exec_vamo (v : VHdr) (op : AmoOp) (ty : IntTy) (sc : BitVec 2) (d : VReg) (a : Reg) (b : VReg) (imm0 : Imm) (s : State) :
    exec (.vamo v op ty sc d a b imm0) s = execVamo v op ty sc d a b imm0 s := rfl
theorem exec_vadd (v : VHdr) (lt : LaneTy) (sat : Bool) (rnd : Rnd) (d a b : VReg) (s : State) :
    exec (.vadd v lt sat rnd d a b) s = execVadd v lt sat rnd d a b s := rfl
theorem exec_vsub (v : VHdr) (lt : LaneTy) (sat : Bool) (rnd : Rnd) (d a b : VReg) (s : State) :
    exec (.vsub v lt sat rnd d a b) s = execVsub v lt sat rnd d a b s := rfl
theorem exec_vmul (v : VHdr) (lt : LaneTy) (sat : Bool) (rnd : Rnd) (d a b : VReg) (s : State) :
    exec (.vmul v lt sat rnd d a b) s = execVmul v lt sat rnd d a b s := rfl
theorem exec_vfma (v : VHdr) (lt : LaneTy) (neg sat : Bool) (rnd : Rnd) (d a b : VReg) (s : State) :
    exec (.vfma v lt neg sat rnd d a b) s = execVfma v lt neg sat rnd d a b s := rfl
theorem exec_vdot (v : VHdr) (pf : DotFmt) (sat : Bool) (rnd : Rnd) (d a b : VReg) (s : State) :
    exec (.vdot v pf sat rnd d a b) s = execVdot v pf sat rnd d a b s := rfl
theorem exec_vdiv (v : VHdr) (lt : LaneTy) (rnd : Rnd) (d a b : VReg) (s : State) :
    exec (.vdiv v lt rnd d a b) s = execVdiv v lt rnd d a b s := rfl
theorem exec_vsqrt (v : VHdr) (rnd : Rnd) (d a : VReg) (s : State) : exec (.vsqrt v rnd d a) s = execVsqrt v rnd d a s := rfl
theorem exec_vmin (v : VHdr) (lt : LaneTy) (d a b : VReg) (s : State) : exec (.vmin v lt d a b) s = execVmin v lt d a b s := rfl
theorem exec_vmax (v : VHdr) (lt : LaneTy) (d a b : VReg) (s : State) : exec (.vmax v lt d a b) s = execVmax v lt d a b s := rfl
theorem exec_vabs (v : VHdr) (lt : LaneTy) (sat : Bool) (d a : VReg) (s : State) :
    exec (.vabs v lt sat d a) s = execVabs v lt sat d a s := rfl
theorem exec_vneg (v : VHdr) (lt : LaneTy) (sat : Bool) (d a : VReg) (s : State) :
    exec (.vneg v lt sat d a) s = execVneg v lt sat d a s := rfl
theorem exec_vsgn (v : VHdr) (op : SgnOp) (d a b : VReg) (s : State) : exec (.vsgn v op d a b) s = execVsgn v op d a b s := rfl
theorem exec_vand (v : VHdr) (d a b : VReg) (s : State) : exec (.vand v d a b) s = execVand v d a b s := rfl
theorem exec_vor (v : VHdr) (d a b : VReg) (s : State) : exec (.vor v d a b) s = execVor v d a b s := rfl
theorem exec_vxor (v : VHdr) (d a b : VReg) (s : State) : exec (.vxor v d a b) s = execVxor v d a b s := rfl
theorem exec_vshl (v : VHdr) (d a b : VReg) (s : State) : exec (.vshl v d a b) s = execVshl v d a b s := rfl
theorem exec_vshr (v : VHdr) (d a b : VReg) (s : State) : exec (.vshr v d a b) s = execVshr v d a b s := rfl
theorem exec_vsar (v : VHdr) (d a b : VReg) (s : State) : exec (.vsar v d a b) s = execVsar v d a b s := rfl
theorem exec_vcnt (v : VHdr) (op : CntOp) (d a : VReg) (s : State) : exec (.vcnt v op d a) s = execVcnt v op d a s := rfl
theorem exec_vcmp (v : VHdr) (cond : VCmp) (d : MReg) (a b : VReg) (s : State) :
    exec (.vcmp v cond d a b) s = execVcmp v cond d a b s := rfl
theorem exec_vsel (h : Hdr) (d a b : VReg) (c : MReg) (s : State) : exec (.vsel h d a b c) s = execVsel h d a b c s := rfl
theorem exec_vmsk (h : Hdr) (tt : BitVec 4) (d a b : MReg) (s : State) : exec (.vmsk h tt d a b) s = execVmsk h tt d a b s := rfl
theorem exec_vmskCnt (h : Hdr) (d : Reg) (a : MReg) (s : State) : exec (.vmskCnt h d a) s = execVmskCnt h d a s := rfl
theorem exec_vmskFfs (h : Hdr) (d : Reg) (a : MReg) (s : State) : exec (.vmskFfs h d a) s = execVmskFfs h d a s := rfl
theorem exec_vmskFirst (h : Hdr) (d : MReg) (b : Reg) (s : State) : exec (.vmskFirst h d b) s = execVmskFirst h d b s := rfl
theorem exec_vcvt (v : VHdr) (dst src : Elt) (rnd : Rnd) (d a : VReg) (s : State) :
    exec (.vcvt v dst src rnd d a) s = execVcvt v dst src rnd d a s := rfl
theorem exec_vsat (v : VHdr) (sg : Bool) (ty : IntTy) (d a : VReg) (s : State) :
    exec (.vsat v sg ty d a) s = execVsat v sg ty d a s := rfl
theorem exec_vpack (v : VHdr) (ty : B4Ty) (rnd : Rnd) (d a : VReg) (s : State) :
    exec (.vpack v ty rnd d a) s = execVpack v ty rnd d a s := rfl
theorem exec_vunpk (v : VHdr) (d a : VReg) (s : State) : exec (.vunpk v d a) s = execVunpk v d a s := rfl
theorem exec_vperm (v : VHdr) (d a b : VReg) (s : State) : exec (.vperm v d a b) s = execVperm v d a b s := rfl
theorem exec_vshf (v : VHdr) (d a b : VReg) (imm0 : Imm) (s : State) : exec (.vshf v d a b imm0) s = execVshf v d a b imm0 s := rfl
theorem exec_vbcast (v : VHdr) (d : VReg) (a : Reg) (s : State) : exec (.vbcast v d a) s = execVbcast v d a s := rfl
theorem exec_vins (v : VHdr) (d : VReg) (a b : Reg) (imm0 : Imm) (s : State) :
    exec (.vins v d a b imm0) s = execVins v d a b imm0 s := rfl
theorem exec_vext (h : Hdr) (sg : Bool) (d : Reg) (a : VReg) (b : Reg) (imm0 : Imm) (s : State) :
    exec (.vext h sg d a b imm0) s = execVext h sg d a b imm0 s := rfl
theorem exec_vidx (v : VHdr) (d : VReg) (a : Reg) (imm0 : Imm) (s : State) : exec (.vidx v d a imm0) s = execVidx v d a imm0 s := rfl
theorem exec_vmov (v : VHdr) (d a : VReg) (s : State) : exec (.vmov v d a) s = execVmov v d a s := rfl
theorem exec_vred (v : VHdr) (op : RedOp) (lt : LaneTy) (sat : Bool) (rnd : Rnd) (d : Reg) (a : VReg) (s : State) :
    exec (.vred v op lt sat rnd d a) s = execVred v op lt sat rnd d a s := rfl
theorem exec_vscan (v : VHdr) (op : RedOp) (lt : LaneTy) (sat : Bool) (rnd : Rnd) (d a : VReg) (s : State) :
    exec (.vscan v op lt sat rnd d a) s = execVscan v op lt sat rnd d a s := rfl
theorem exec_vrcp (v : VHdr) (rnd : Rnd) (d a : VReg) (s : State) : exec (.vrcp v rnd d a) s = execVrcp v rnd d a s := rfl
theorem exec_vrsq (v : VHdr) (rnd : Rnd) (d a : VReg) (s : State) : exec (.vrsq v rnd d a) s = execVrsq v rnd d a s := rfl
theorem exec_vexp2 (v : VHdr) (rnd : Rnd) (d a : VReg) (s : State) : exec (.vexp2 v rnd d a) s = execVexp2 v rnd d a s := rfl
theorem exec_vlog2 (v : VHdr) (rnd : Rnd) (d a : VReg) (s : State) : exec (.vlog2 v rnd d a) s = execVlog2 v rnd d a s := rfl
theorem exec_tld (h : Hdr) (seg : BitVec 3) (d : TReg) (a : Reg) (imm0 : Imm) (b c : Reg) (s : State) :
    exec (.tld h seg d a imm0 b c) s = execTld h seg d a imm0 b c s := rfl
theorem exec_tst (h : Hdr) (seg : BitVec 3) (d : TReg) (a : Reg) (imm0 : Imm) (b c : Reg) (s : State) :
    exec (.tst h seg d a imm0 b c) s = execTst h seg d a imm0 b c s := rfl
theorem exec_tzero (h : Hdr) (d : TReg) (s : State) : exec (.tzero h d) s = execTzero h d s := rfl
theorem exec_tmov (h : Hdr) (d a : TReg) (s : State) : exec (.tmov h d a) s = execTmov h d a s := rfl
theorem exec_tfill (h : Hdr) (d : TReg) (a : Reg) (imm0 : Imm) (s : State) : exec (.tfill h d a imm0) s = execTfill h d a imm0 s := rfl
theorem exec_mma (h : Hdr) (op : MmaOp) (s : State) : exec (.mma h op) s = execMma h op s := rfl
theorem exec_mmaq (h : Hdr) (f : FReg) (nt : BitVec 2) (op : MmaOp) (s : State) :
    exec (.mmaq h f nt op) s = execMmaq h f nt op s := rfl
theorem exec_mwait (h : Hdr) (s : State) : exec (.mwait h) s = execMwait h s := rfl
theorem exec_mwaitF (h : Hdr) (d : Reg) (f : FReg) (s : State) : exec (.mwaitF h d f) s = execMwaitF h d f s := rfl
theorem exec_azero (h : Hdr) (d : AReg) (s : State) : exec (.azero h d) s = execAzero h d s := rfl
theorem exec_aload (h : Hdr) (d : AReg) (a : Reg) (imm0 : Imm) (b : Reg) (s : State) :
    exec (.aload h d a imm0 b) s = execAload h d a imm0 b s := rfl
theorem exec_aread (h : Hdr) (d : AReg) (a : Reg) (imm0 : Imm) (b : Reg) (s : State) :
    exec (.aread h d a imm0 b) s = execAread h d a imm0 b s := rfl
theorem exec_acvt (h : Hdr) (rnd : Rnd) (d : TReg) (a : AReg) (s : State) : exec (.acvt h rnd d a) s = execAcvt h rnd d a s := rfl
theorem exec_adrain (h : Hdr) (rnd : Rnd) (f : DrainFmt) (za : Bool) (doff : BitVec 22) (d : AReg) (a b c : Reg) (s : State) :
    exec (.adrain h rnd f za doff d a b c) s = execAdrain h rnd f za doff d a b c s := rfl
theorem exec_ared (h : Hdr) (op : RedOp) (lt : LaneTy) (rnd : Rnd) (d : VReg) (a : AReg) (s : State) :
    exec (.ared h op lt rnd d a) s = execAred h op lt rnd d a s := rfl
theorem exec_ascal (h : Hdr) (int : Bool) (rnd : Rnd) (d : AReg) (imm0 : Imm) (s : State) :
    exec (.ascal h int rnd d imm0) s = execAscal h int rnd d imm0 s := rfl
theorem exec_xpush (h : Hdr) (w0 : Cmd0) (value : BitVec 16) (d a b c : Reg) (s : State) :
    exec (.xpush h w0 value d a b c) s = execXpush h w0 value d a b c s := rfl
theorem exec_xpushb (h : Hdr) (w0 : Cmd0) (value : BitVec 16) (d a b c : Reg) (s : State) :
    exec (.xpushb h w0 value d a b c) s = execXpushb h w0 value d a b c s := rfl
theorem exec_xlay (h : Hdr) (a : Reg) (id : BitVec 8) (s : State) : exec (.xlay h a id) s = execXlay h a id s := rfl
theorem exec_xseal (h : Hdr) (d : Reg) (s : State) : exec (.xseal h d) s = execXseal h d s := rfl
theorem exec_xwait (h : Hdr) (vis : Bool) (d : Reg) (imm0 : Imm) (s : State) :
    exec (.xwait h vis d imm0) s = execXwait h vis d imm0 s := rfl
theorem exec_xstat (h : Hdr) (d a : Reg) (s : State) : exec (.xstat h d a) s = execXstat h d a s := rfl
theorem exec_xstatSum (h : Hdr) (d : Reg) (s : State) : exec (.xstatSum h d) s = execXstatSum h d s := rfl
theorem exec_xstatP (h : Hdr) (d a : Reg) (s : State) : exec (.xstatP h d a) s = execXstatP h d a s := rfl
theorem exec_xcan (h : Hdr) (batch : Bool) (d a : Reg) (s : State) : exec (.xcan h batch d a) s = execXcan h batch d a s := rfl
theorem exec_xres (h : Hdr) (a : Reg) (s : State) : exec (.xres h a) s = execXres h a s := rfl
theorem exec_spawn (h : Hdr) (narg : BitVec 3) (cdl join noin : Bool) (d a b : Reg) (s : State) :
    exec (.spawn h narg cdl join noin d a b) s = execSpawn h narg cdl join noin d a b s := rfl
theorem exec_dec (h : Hdr) (a : Reg) (imm0 : Imm) (s : State) : exec (.dec h a imm0) s = execDec h a imm0 s := rfl
theorem exec_rpush (h : Hdr) (a b c : Reg) (s : State) : exec (.rpush h a b c) s = execRpush h a b c s := rfl
theorem exec_rpop (h : Hdr) (d c : Reg) (s : State) : exec (.rpop h d c) s = execRpop h d c s := rfl
theorem exec_cnew (h : Hdr) (home : BitVec 2) (rstrt hi : Bool) (d a : Reg) (imm0 : Imm) (b c : Reg) (s : State) :
    exec (.cnew h home rstrt hi d a imm0 b c) s = execCnew h home rstrt hi d a imm0 b c s := rfl
theorem exec_cend (h : Hdr) (a : Reg) (imm0 : BitVec 16) (s : State) : exec (.cend h a imm0) s = execCend h a imm0 s := rfl
theorem exec_tend (h : Hdr) (s : State) : exec (.tend h) s = execTend h s := rfl
theorem exec_tprio (h : Hdr) (hi : Bool) (s : State) : exec (.tprio h hi) s = execTprio h hi s := rfl
theorem exec_nest (h : Hdr) (minch : BitVec 16) (a b c : Reg) (s : State) :
    exec (.nest h minch a b c) s = execNest h minch a b c s := rfl
theorem exec_next (h : Hdr) (d : Reg) (imm0 : Imm) (s : State) : exec (.next h d imm0) s = execNext h d imm0 s := rfl
theorem exec_bar (h : Hdr) (sc : Scope) (id : BitVec 4) (b : Reg) (s : State) : exec (.bar h sc id b) s = execBar h sc id b s := rfl
theorem exec_barq (h : Hdr) (sc : Scope) (id : BitVec 4) (d b : Reg) (s : State) :
    exec (.barq h sc id d b) s = execBarq h sc id d b s := rfl
theorem exec_poll (h : Hdr) (sc : Scope) (id : BitVec 4) (d : PReg) (a : Reg) (s : State) :
    exec (.poll h sc id d a) s = execPoll h sc id d a s := rfl
theorem exec_qcfgBind (h : Hdr) (q : BitVec 3) (a : Reg) (imm0 : Imm) (s : State) :
    exec (.qcfgBind h q a imm0) s = execQcfgBind h q a imm0 s := rfl
theorem exec_qcfgUnbind (h : Hdr) (q : BitVec 3) (imm0 : Imm) (s : State) :
    exec (.qcfgUnbind h q imm0) s = execQcfgUnbind h q imm0 s := rfl
theorem exec_qsts (h : Hdr) (d : Reg) (q : BitVec 3) (s : State) : exec (.qsts h d q) s = execQsts h d q s := rfl
theorem exec_place (h : Hdr) (dx dy : BitVec 8) (d a : Reg) (s : State) : exec (.place h dx dy d a) s = execPlace h dx dy d a s := rfl
theorem exec_placeLin (h : Hdr) (d a : Reg) (s : State) : exec (.placeLin h d a) s = execPlaceLin h d a s := rfl
theorem exec_placeQuay (h : Hdr) (d a : Reg) (s : State) : exec (.placeQuay h d a) s = execPlaceQuay h d a s := rfl
theorem exec_gang (h : Hdr) (d a : Reg) (s : State) : exec (.gang h d a) s = execGang h d a s := rfl
theorem exec_chk (h : Hdr) (a : Reg) (s : State) : exec (.chk h a) s = execChk h a s := rfl
theorem exec_anew (h : Hdr) (pl : Place) (d a : Reg) (imm0 : Imm) (s : State) :
    exec (.anew h pl d a imm0) s = execAnew h pl d a imm0 s := rfl
theorem exec_ahand (h : Hdr) (d a b : Reg) (s : State) : exec (.ahand h d a b) s = execAhand h d a b s := rfl
theorem exec_aend (h : Hdr) (d a : Reg) (s : State) : exec (.aend h d a) s = execAend h d a s := rfl
theorem exec_aqry (h : Hdr) (d a : Reg) (s : State) : exec (.aqry h d a) s = execAqry h d a s := rfl
theorem exec_wpresAdd (h : Hdr) (d a : Reg) (s : State) : exec (.wpresAdd h d a) s = execWpresAdd h d a s := rfl
theorem exec_wpresChild (h : Hdr) (d a b : Reg) (s : State) : exec (.wpresChild h d a b) s = execWpresChild h d a b s := rfl
theorem exec_wsplit (h : Hdr) (cls : Cls) (d a b c : Reg) (s : State) :
    exec (.wsplit h cls d a b c) s = execWsplit h cls d a b c s := rfl
theorem exec_wdeleg (h : Hdr) (cls : Cls) (d a b c : Reg) (s : State) :
    exec (.wdeleg h cls d a b c) s = execWdeleg h cls d a b c s := rfl
theorem exec_wsurr (h : Hdr) (d a : Reg) (s : State) : exec (.wsurr h d a) s = execWsurr h d a s := rfl
theorem exec_wqry (h : Hdr) (sel : WSel) (d a : Reg) (s : State) : exec (.wqry h sel d a) s = execWqry h sel d a s := rfl
theorem exec_tnow (h : Hdr) (d : Reg) (s : State) : exec (.tnow h d) s = execTnow h d s := rfl
theorem exec_attest (h : Hdr) (d a b : Reg) (s : State) : exec (.attest h d a b) s = execAttest h d a b s := rfl
theorem exec_klease (h : Hdr) (d a : Reg) (s : State) : exec (.klease h d a) s = execKlease h d a s := rfl
theorem exec_bankModeSwitch (quad : Nat) (s : State) : exec (.bankModeSwitch quad) s = execBankModeSwitch quad s := rfl
theorem exec_adrainPush (core : Nat) (s : State) : exec (.adrainPush core) s = execAdrainPush core s := rfl
theorem exec_slabCompletion (core : Nat) (s : State) : exec (.slabCompletion core) s = execSlabCompletion core s := rfl
theorem exec_lateTrapDelivery (slot : Nat) (s : State) : exec (.lateTrapDelivery slot) s = execLateTrapDelivery slot s := rfl
theorem exec_followOnMmaStart (core : Nat) (f : FReg) (s : State) :
    exec (.followOnMmaStart core f) s = execFollowOnMmaStart core f s := rfl
theorem exec_copy (core : Nat) (cnum : BitVec 32) (units : Nat) (s : State) :
    exec (.copy core cnum units) s = execCopy core cnum units s := rfl
theorem exec_copyNd (core : Nat) (cnum : BitVec 32) (units : Nat) (s : State) :
    exec (.copyNd core cnum units) s = execCopyNd core cnum units s := rfl
theorem exec_gather (core : Nat) (cnum : BitVec 32) (units : Nat) (s : State) :
    exec (.gather core cnum units) s = execGather core cnum units s := rfl
theorem exec_scatter (core : Nat) (cnum : BitVec 32) (units : Nat) (s : State) :
    exec (.scatter core cnum units) s = execScatter core cnum units s := rfl
theorem exec_reduceAdd (core : Nat) (cnum : BitVec 32) (units : Nat) (s : State) :
    exec (.reduceAdd core cnum units) s = execReduceAdd core cnum units s := rfl
theorem exec_fill (core : Nat) (cnum : BitVec 32) (units : Nat) (s : State) :
    exec (.fill core cnum units) s = execFill core cnum units s := rfl
theorem exec_xhand (slot : Nat) (s : State) : exec (.xhand slot) s = execXhand slot s := rfl
theorem exec_src (core : Nat) (cnum : BitVec 32) (s : State) : exec (.src core cnum) s = execSrc core cnum s := rfl
theorem exec_vis (core : Nat) (cnum : BitVec 32) (s : State) : exec (.vis core cnum) s = execVis core cnum s := rfl
theorem exec_commandEnd (core : Nat) (cnum : BitVec 32) (s : State) :
    exec (.commandEnd core cnum) s = execCommandEnd core cnum s := rfl
theorem exec_slotDispatch (core : Nat) (s : State) : exec (.slotDispatch core) s = execSlotDispatch core s := rfl
theorem exec_waitLimit (slot : Nat) (s : State) : exec (.waitLimit slot) s = execWaitLimit slot s := rfl
theorem exec_deadlockSnapshot (owner : Nat) (s : State) : exec (.deadlockSnapshot owner) s = execDeadlockSnapshot owner s := rfl
theorem exec_logicalTimeTick (core : Nat) (s : State) : exec (.logicalTimeTick core) s = execLogicalTimeTick core s := rfl
theorem exec_expiryNotice (owner : Nat) (s : State) : exec (.expiryNotice owner) s = execExpiryNotice owner s := rfl
theorem exec_termExpired (owner : Nat) (s : State) : exec (.termExpired owner) s = execTermExpired owner s := rfl
theorem exec_termKeylease (owner : Nat) (s : State) : exec (.termKeylease owner) s = execTermKeylease owner s := rfl
theorem exec_sliceEnd (owner : Nat) (s : State) : exec (.sliceEnd owner) s = execSliceEnd owner s := rfl
theorem exec_harbourSwap (owner : Nat) (s : State) : exec (.harbourSwap owner) s = execHarbourSwap owner s := rfl
theorem exec_contextRestore (owner : Nat) (s : State) : exec (.contextRestore owner) s = execContextRestore owner s := rfl
theorem exec_pageMigration (page pkg : Nat) (s : State) : exec (.pageMigration page pkg) s = execPageMigration page pkg s := rfl
theorem exec_migrationComplete (page : Nat) (s : State) : exec (.migrationComplete page) s = execMigrationComplete page s := rfl
theorem exec_biasRequest (page : Nat) (host : Bool) (s : State) : exec (.biasRequest page host) s = execBiasRequest page host s := rfl
theorem exec_biasFlipStart (page : Nat) (s : State) : exec (.biasFlipStart page) s = execBiasFlipStart page s := rfl
theorem exec_counterClear (s : State) : exec (.counterClear) s = execCounterClear s := rfl
theorem exec_clockSave (s : State) : exec (.clockSave) s = execClockSave s := rfl
theorem exec_slewEnd (s : State) : exec (.slewEnd) s = execSlewEnd s := rfl
theorem exec_portRecovery (port : Nat) (s : State) : exec (.portRecovery port) s = execPortRecovery port s := rfl
theorem exec_stackIdleEnd (stack : Nat) (s : State) : exec (.stackIdleEnd stack) s = execStackIdleEnd stack s := rfl
theorem exec_restoreElsewhere (owner : Nat) (col row : Nat) (s : State) :
    exec (.restoreElsewhere owner col row) s = execRestoreElsewhere owner col row s := rfl
theorem exec_harbourScrub (stack row : Nat) (uncorrectable : Bool) (s : State) :
    exec (.harbourScrub stack row uncorrectable) s = execHarbourScrub stack row uncorrectable s := rfl
theorem exec_present (tag : Word) (warrant image holderKey proof : List Byte) (s : State) :
    exec (.present tag warrant image holderKey proof) s = execPresent tag warrant image holderKey proof s := rfl
theorem exec_time (tag : Word) (token : List Byte) (s : State) : exec (.time tag token) s = execTime tag token s := rfl
theorem exec_floor (tag : Word) (order : List Byte) (s : State) : exec (.floor tag order) s = execFloor tag order s := rfl
theorem exec_launch (tag : Word) (serial : Word) (holderKey proof : List Byte) (s : State) :
    exec (.launch tag serial holderKey proof) s = execLaunch tag serial holderKey proof s := rfl
theorem exec_move (tag : Word) (order : List Byte) (fits : Option (BitVec 8)) (s : State) :
    exec (.move tag order fits) s = execMove tag order fits s := rfl
theorem exec_moveStop (owner : Nat) (s : State) : exec (.moveStop owner) s = execMoveStop owner s := rfl
theorem exec_moveSwitch (owner : Nat) (s : State) : exec (.moveSwitch owner) s = execMoveSwitch owner s := rfl
theorem exec_pull (owner page : Nat) (s : State) : exec (.pull owner page) s = execPull owner page s := rfl
theorem exec_pullTimeout (owner page : Nat) (s : State) : exec (.pullTimeout owner page) s = execPullTimeout owner page s := rfl
theorem exec_test (tag : Word) (package sig : List Byte) (quads : List Nat) (s : State) :
    exec (.test tag package sig quads) s = execTest tag package sig quads s := rfl
theorem exec_claim (serial domain chip nonce : Word) (s : State) :
    exec (.claim serial domain chip nonce) s = execClaim serial domain chip nonce s := rfl
theorem exec_claimAnswer (nonce : Word) (accept : Bool) (s : State) :
    exec (.claimAnswer nonce accept) s = execClaimAnswer nonce accept s := rfl
theorem exec_claimTimeout (nonce : Word) (s : State) : exec (.claimTimeout nonce) s = execClaimTimeout nonce s := rfl
theorem exec_withdrawal (serial domain chip : Word) (s : State) :
    exec (.withdrawal serial domain chip) s = execWithdrawal serial domain chip s := rfl
theorem exec_endNotice (serial domain chip : Word) (code : BitVec 8) (s : State) :
    exec (.endNotice serial domain chip code) s = execEndNotice serial domain chip code s := rfl
theorem exec_moveNotice (serial domain source target : Word) (s : State) :
    exec (.moveNotice serial domain source target) s = execMoveNotice serial domain source target s := rfl
theorem exec_homeConfirmation (serial domain : Word) (s : State) :
    exec (.homeConfirmation serial domain) s = execHomeConfirmation serial domain s := rfl
theorem exec_hostAccess (requester : Nat) (addr : Word) (write : Bool) (data : List Byte) (s : State) :
    exec (.hostAccess requester addr write data) s = execHostAccess requester addr write data s := rfl
theorem exec_biasFlipComplete (page : Nat) (back : List (Nat × Byte)) (s : State) :
    exec (.biasFlipComplete page back) s = execBiasFlipComplete page back s := rfl
theorem exec_backInvalidationTimeout (page : Nat) (dirty : List Nat) (s : State) :
    exec (.backInvalidationTimeout page dirty) s = execBackInvalidationTimeout page dirty s := rfl
theorem exec_patrolScrub (addr : Nat) (s : State) : exec (.patrolScrub addr) s = execPatrolScrub addr s := rfl
theorem exec_hostLinkDown (dirty : List Nat) (s : State) : exec (.hostLinkDown dirty) s = execHostLinkDown dirty s := rfl
theorem exec_tdispRequest (owner : Nat) (state : BitVec 2) (s : State) :
    exec (.tdispRequest owner state) s = execTdispRequest owner state s := rfl
theorem exec_telemetryReport (port : Nat) (margin : List Nat) (rate replays loss : Nat) (s : State) :
    exec (.telemetryReport port margin rate replays loss) s = execTelemetryReport port margin rate replays loss s := rfl
theorem exec_laneFail (port : Nat) (s : State) : exec (.laneFail port) s = execLaneFail port s := rfl
theorem exec_portDown (port : Nat) (s : State) : exec (.portDown port) s = execPortDown port s := rfl
theorem exec_portTraining (port : Nat) (partner : Partner) (s : State) :
    exec (.portTraining port partner) s = execPortTraining port partner s := rfl
theorem exec_rekey (port : Nat) (s : State) : exec (.rekey port) s = execRekey port s := rfl
theorem exec_noRoute (owner : Nat) (s : State) : exec (.noRoute owner) s = execNoRoute owner s := rfl
theorem exec_regulatorReport (domain vout : BitVec 16) (iout : BitVec 32) (treg eff : BitVec 16) (flux : BitVec 32) (s : State) :
    exec (.regulatorReport domain vout iout treg eff flux) s = execRegulatorReport domain vout iout treg eff flux s := rfl
theorem exec_dutyDrop (domain d : Nat) (s : State) : exec (.dutyDrop domain d) s = execDutyDrop domain d s := rfl
theorem exec_dutyRise (domain : Nat) (s : State) : exec (.dutyRise domain) s = execDutyRise domain s := rfl
theorem exec_thermalTrip (domain : Nat) (s : State) : exec (.thermalTrip domain) s = execThermalTrip domain s := rfl
theorem exec_marginReplan (margins : List (Nat × Nat)) (s : State) : exec (.marginReplan margins) s = execMarginReplan margins s := rfl
theorem exec_testEnd (quad : Nat) (pass : Bool) (s : State) : exec (.testEnd quad pass) s = execTestEnd quad pass s := rfl
theorem exec_powerUp (passed : List Bool) (s : State) : exec (.powerUp passed) s = execPowerUp passed s := rfl
theorem exec_powerLoss (s : State) : exec (.powerLoss) s = execPowerLoss s := rfl
theorem exec_orderlyPowerDown (s : State) : exec (.orderlyPowerDown) s = execOrderlyPowerDown s := rfl
theorem exec_recoveryFirmware (version : Nat) (image sig : List Byte) (s : State) :
    exec (.recoveryFirmware version image sig) s = execRecoveryFirmware version image sig s := rfl
theorem exec_operatorKeyTable (auth : List Byte × List Byte × List Byte) (index : Nat) (key : Option (List Byte)) (s : State) :
    exec (.operatorKeyTable auth index key) s = execOperatorKeyTable auth index key s := rfl
theorem exec_domainsAndMemberLists (auth : List Byte × List Byte × List Byte) (domain : Word) (members : List Word) (s : State) :
    exec (.domainsAndMemberLists auth domain members) s = execDomainsAndMemberLists auth domain members s := rfl
theorem exec_podn (auth : List Byte × List Byte × List Byte) (n : Nat) (s : State) : exec (.podn auth n) s = execPodn auth n s := rfl
theorem exec_hostFacingCxlPort (auth : List Byte × List Byte × List Byte) (port : Nat) (s : State) :
    exec (.hostFacingCxlPort auth port) s = execHostFacingCxlPort auth port s := rfl
theorem exec_migrationThreshold (auth : List Byte × List Byte × List Byte) (n : Nat) (s : State) :
    exec (.migrationThreshold auth n) s = execMigrationThreshold auth n s := rfl
theorem exec_fluxCaps (auth : List Byte × List Byte × List Byte) (domain cap : Nat) (s : State) :
    exec (.fluxCaps auth domain cap) s = execFluxCaps auth domain cap s := rfl
theorem exec_portThresholds (auth : List Byte × List Byte × List Byte) (margin rate : Nat) (s : State) :
    exec (.portThresholds auth margin rate) s = execPortThresholds auth margin rate s := rfl
theorem exec_debugGateRequest (open_ : Bool) (s : State) : exec (.debugGateRequest open_) s = execDebugGateRequest open_ s := rfl

end Sys2Proof.Machine
end

