-- ==== Sys2Proof/Laws/State.lean ====
section
/-! SUPPORT. What each update of State leaves alone, field by field, and what it gives where it writes; so that no proof unfolds a record
update. -/

namespace Sys2Proof

/-! ### Tables -/

namespace Tab
variable {α : Type}

@[simp] theorem find?_put_self (t : Tab α) (n : Nat) (v : α) : (t.put n v).find? n = some v := by
  induction t with
  | nil => simp [put, find?]
  | cons e t ih =>
    simp only [put]
    split
    · simp [find?]
    · split
      · simp [find?]
      · simp [find?, ih, *]

theorem find?_put_ne (t : Tab α) {n m : Nat} (v : α) (h : m ≠ n) : (t.put n v).find? m = t.find? m := by
  induction t with
  | nil => simp [put, find?, h]
  | cons e t ih =>
    simp only [put]
    split
    · simp [find?, h]
    · split
      · rename_i h2; simp [find?, ← h2, h]
      · simp [find?, ih]

@[simp] theorem get_put_self (t : Tab α) (d : α) (n : Nat) (v : α) : (t.put n v).get d n = v := by simp [get]

theorem get_put_ne (t : Tab α) (d : α) {n m : Nat} (v : α) (h : m ≠ n) : (t.put n v).get d m = t.get d m := by
  simp [get, find?_put_ne t v h]

@[simp] theorem find?_erase_self (t : Tab α) (n : Nat) : (t.erase n).find? n = none := by
  induction t with
  | nil => rfl
  | cons e t ih =>
    simp only [erase]
    split
    · exact ih
    · simp [find?, ih, *]

theorem find?_erase_ne (t : Tab α) {n m : Nat} (h : m ≠ n) : (t.erase n).find? m = t.find? m := by
  induction t with
  | nil => rfl
  | cons e t ih =>
    simp only [erase]
    split
    · rename_i h2; simp [find?, ih, ← h2, h]
    · simp [find?, ih]

@[simp] theorem get_set_self [DecidableEq α] (t : Tab α) (d : α) (n : Nat) (v : α) : (t.set d n v).get d n = v := by
  unfold set
  split
  · rename_i h; simp [get, h]
  · simp

theorem get_set_ne [DecidableEq α] (t : Tab α) (d : α) {n m : Nat} (v : α) (h : m ≠ n) : (t.set d n v).get d m = t.get d m := by
  unfold set
  split
  · simp [get, find?_erase_ne t h]
  · exact get_put_ne t d v h

end Tab

namespace Machine

/-! ### What an update leaves alone -/

@[simp] theorem State.setSlot_cur (s : State) (k : Nat) (x : Slot) : (s.setSlot k x).cur = s.cur := rfl
@[simp] theorem State.setSlot_cores (s : State) (k : Nat) (x : Slot) : (s.setSlot k x).cores = s.cores := rfl
@[simp] theorem State.setSlot_quads (s : State) (k : Nat) (x : Slot) : (s.setSlot k x).quads = s.quads := rfl
@[simp] theorem State.setSlot_ctxs (s : State) (k : Nat) (x : Slot) : (s.setSlot k x).ctxs = s.ctxs := rfl
@[simp] theorem State.setSlot_mem (s : State) (k : Nat) (x : Slot) : (s.setSlot k x).mem = s.mem := rfl
@[simp] theorem State.setSlot_full (s : State) (k : Nat) (x : Slot) : (s.setSlot k x).full = s.full := rfl
@[simp] theorem State.setSlot_poison (s : State) (k : Nat) (x : Slot) : (s.setSlot k x).poison = s.poison := rfl
@[simp] theorem State.setSlot_lines (s : State) (k : Nat) (x : Slot) : (s.setSlot k x).lines = s.lines := rfl
@[simp] theorem State.setSlot_pages (s : State) (k : Nat) (x : Slot) : (s.setSlot k x).pages = s.pages := rfl
@[simp] theorem State.setSlot_arenas (s : State) (k : Nat) (x : Slot) : (s.setSlot k x).arenas = s.arenas := rfl
@[simp] theorem State.setSlot_past (s : State) (k : Nat) (x : Slot) : (s.setSlot k x).past = s.past := rfl
@[simp] theorem State.setSlot_writes (s : State) (k : Nat) (x : Slot) : (s.setSlot k x).writes = s.writes := rfl
@[simp] theorem State.setSlot_llc (s : State) (k : Nat) (x : Slot) : (s.setSlot k x).llc = s.llc := rfl
@[simp] theorem State.setSlot_damage (s : State) (k : Nat) (x : Slot) : (s.setSlot k x).damage = s.damage := rfl
@[simp] theorem State.setSlot_sectorMap (s : State) (k : Nat) (x : Slot) : (s.setSlot k x).sectorMap = s.sectorMap := rfl
@[simp] theorem State.setSlot_mapDamage (s : State) (k : Nat) (x : Slot) : (s.setSlot k x).mapDamage = s.mapDamage := rfl
@[simp] theorem State.setSlot_overDamage (s : State) (k : Nat) (x : Slot) : (s.setSlot k x).overDamage = s.overDamage := rfl
@[simp] theorem State.setSlot_stackCopies (s : State) (k : Nat) (x : Slot) : (s.setSlot k x).stackCopies = s.stackCopies := rfl
@[simp] theorem State.setSlot_quayLast (s : State) (k : Nat) (x : Slot) : (s.setSlot k x).quayLast = s.quayLast := rfl
@[simp] theorem State.setSlot_lives (s : State) (k : Nat) (x : Slot) : (s.setSlot k x).lives = s.lives := rfl
@[simp] theorem State.setSlot_pkg (s : State) (k : Nat) (x : Slot) : (s.setSlot k x).pkg = s.pkg := rfl
@[simp] theorem State.setSlot_cycle (s : State) (k : Nat) (x : Slot) : (s.setSlot k x).cycle = s.cycle := rfl
@[simp] theorem State.setSlot_agenda (s : State) (k : Nat) (x : Slot) : (s.setSlot k x).agenda = s.agenda := rfl
@[simp] theorem State.setSlot_held (s : State) (k : Nat) (x : Slot) : (s.setSlot k x).held = s.held := rfl
@[simp] theorem State.setSlot_pending (s : State) (k : Nat) (x : Slot) : (s.setSlot k x).pending = s.pending := rfl
@[simp] theorem State.setSlot_latched (s : State) (k : Nat) (x : Slot) : (s.setSlot k x).latched = s.latched := rfl
@[simp] theorem State.setSlot_closing (s : State) (k : Nat) (x : Slot) : (s.setSlot k x).closing = s.closing := rfl
@[simp] theorem State.setSlot_ticket (s : State) (k : Nat) (x : Slot) : (s.setSlot k x).ticket = s.ticket := rfl
@[simp] theorem State.setSlot_fresh (s : State) (k : Nat) (x : Slot) : (s.setSlot k x).fresh = s.fresh := rfl

@[simp] theorem State.modSlot_cur (s : State) (k : Nat) (f : Slot → Slot) : (s.modSlot k f).cur = s.cur := rfl
@[simp] theorem State.modSlot_cores (s : State) (k : Nat) (f : Slot → Slot) : (s.modSlot k f).cores = s.cores := rfl
@[simp] theorem State.modSlot_quads (s : State) (k : Nat) (f : Slot → Slot) : (s.modSlot k f).quads = s.quads := rfl
@[simp] theorem State.modSlot_ctxs (s : State) (k : Nat) (f : Slot → Slot) : (s.modSlot k f).ctxs = s.ctxs := rfl
@[simp] theorem State.modSlot_mem (s : State) (k : Nat) (f : Slot → Slot) : (s.modSlot k f).mem = s.mem := rfl
@[simp] theorem State.modSlot_full (s : State) (k : Nat) (f : Slot → Slot) : (s.modSlot k f).full = s.full := rfl
@[simp] theorem State.modSlot_poison (s : State) (k : Nat) (f : Slot → Slot) : (s.modSlot k f).poison = s.poison := rfl
@[simp] theorem State.modSlot_lines (s : State) (k : Nat) (f : Slot → Slot) : (s.modSlot k f).lines = s.lines := rfl
@[simp] theorem State.modSlot_pages (s : State) (k : Nat) (f : Slot → Slot) : (s.modSlot k f).pages = s.pages := rfl
@[simp] theorem State.modSlot_arenas (s : State) (k : Nat) (f : Slot → Slot) : (s.modSlot k f).arenas = s.arenas := rfl
@[simp] theorem State.modSlot_past (s : State) (k : Nat) (f : Slot → Slot) : (s.modSlot k f).past = s.past := rfl
@[simp] theorem State.modSlot_writes (s : State) (k : Nat) (f : Slot → Slot) : (s.modSlot k f).writes = s.writes := rfl
@[simp] theorem State.modSlot_llc (s : State) (k : Nat) (f : Slot → Slot) : (s.modSlot k f).llc = s.llc := rfl
@[simp] theorem State.modSlot_damage (s : State) (k : Nat) (f : Slot → Slot) : (s.modSlot k f).damage = s.damage := rfl
@[simp] theorem State.modSlot_sectorMap (s : State) (k : Nat) (f : Slot → Slot) : (s.modSlot k f).sectorMap = s.sectorMap := rfl
@[simp] theorem State.modSlot_mapDamage (s : State) (k : Nat) (f : Slot → Slot) : (s.modSlot k f).mapDamage = s.mapDamage := rfl
@[simp] theorem State.modSlot_overDamage (s : State) (k : Nat) (f : Slot → Slot) : (s.modSlot k f).overDamage = s.overDamage := rfl
@[simp] theorem State.modSlot_stackCopies (s : State) (k : Nat) (f : Slot → Slot) : (s.modSlot k f).stackCopies = s.stackCopies := rfl
@[simp] theorem State.modSlot_quayLast (s : State) (k : Nat) (f : Slot → Slot) : (s.modSlot k f).quayLast = s.quayLast := rfl
@[simp] theorem State.modSlot_lives (s : State) (k : Nat) (f : Slot → Slot) : (s.modSlot k f).lives = s.lives := rfl
@[simp] theorem State.modSlot_pkg (s : State) (k : Nat) (f : Slot → Slot) : (s.modSlot k f).pkg = s.pkg := rfl
@[simp] theorem State.modSlot_cycle (s : State) (k : Nat) (f : Slot → Slot) : (s.modSlot k f).cycle = s.cycle := rfl
@[simp] theorem State.modSlot_agenda (s : State) (k : Nat) (f : Slot → Slot) : (s.modSlot k f).agenda = s.agenda := rfl
@[simp] theorem State.modSlot_held (s : State) (k : Nat) (f : Slot → Slot) : (s.modSlot k f).held = s.held := rfl
@[simp] theorem State.modSlot_pending (s : State) (k : Nat) (f : Slot → Slot) : (s.modSlot k f).pending = s.pending := rfl
@[simp] theorem State.modSlot_latched (s : State) (k : Nat) (f : Slot → Slot) : (s.modSlot k f).latched = s.latched := rfl
@[simp] theorem State.modSlot_closing (s : State) (k : Nat) (f : Slot → Slot) : (s.modSlot k f).closing = s.closing := rfl
@[simp] theorem State.modSlot_ticket (s : State) (k : Nat) (f : Slot → Slot) : (s.modSlot k f).ticket = s.ticket := rfl
@[simp] theorem State.modSlot_fresh (s : State) (k : Nat) (f : Slot → Slot) : (s.modSlot k f).fresh = s.fresh := rfl

@[simp] theorem State.setCore_cur (s : State) (k : Nat) (x : CoreSt) : (s.setCore k x).cur = s.cur := rfl
@[simp] theorem State.setCore_slots (s : State) (k : Nat) (x : CoreSt) : (s.setCore k x).slots = s.slots := rfl
@[simp] theorem State.setCore_quads (s : State) (k : Nat) (x : CoreSt) : (s.setCore k x).quads = s.quads := rfl
@[simp] theorem State.setCore_ctxs (s : State) (k : Nat) (x : CoreSt) : (s.setCore k x).ctxs = s.ctxs := rfl
@[simp] theorem State.setCore_mem (s : State) (k : Nat) (x : CoreSt) : (s.setCore k x).mem = s.mem := rfl
@[simp] theorem State.setCore_full (s : State) (k : Nat) (x : CoreSt) : (s.setCore k x).full = s.full := rfl
@[simp] theorem State.setCore_poison (s : State) (k : Nat) (x : CoreSt) : (s.setCore k x).poison = s.poison := rfl
@[simp] theorem State.setCore_lines (s : State) (k : Nat) (x : CoreSt) : (s.setCore k x).lines = s.lines := rfl
@[simp] theorem State.setCore_pages (s : State) (k : Nat) (x : CoreSt) : (s.setCore k x).pages = s.pages := rfl
@[simp] theorem State.setCore_arenas (s : State) (k : Nat) (x : CoreSt) : (s.setCore k x).arenas = s.arenas := rfl
@[simp] theorem State.setCore_past (s : State) (k : Nat) (x : CoreSt) : (s.setCore k x).past = s.past := rfl
@[simp] theorem State.setCore_writes (s : State) (k : Nat) (x : CoreSt) : (s.setCore k x).writes = s.writes := rfl
@[simp] theorem State.setCore_llc (s : State) (k : Nat) (x : CoreSt) : (s.setCore k x).llc = s.llc := rfl
@[simp] theorem State.setCore_damage (s : State) (k : Nat) (x : CoreSt) : (s.setCore k x).damage = s.damage := rfl
@[simp] theorem State.setCore_sectorMap (s : State) (k : Nat) (x : CoreSt) : (s.setCore k x).sectorMap = s.sectorMap := rfl
@[simp] theorem State.setCore_mapDamage (s : State) (k : Nat) (x : CoreSt) : (s.setCore k x).mapDamage = s.mapDamage := rfl
@[simp] theorem State.setCore_overDamage (s : State) (k : Nat) (x : CoreSt) : (s.setCore k x).overDamage = s.overDamage := rfl
@[simp] theorem State.setCore_stackCopies (s : State) (k : Nat) (x : CoreSt) : (s.setCore k x).stackCopies = s.stackCopies := rfl
@[simp] theorem State.setCore_quayLast (s : State) (k : Nat) (x : CoreSt) : (s.setCore k x).quayLast = s.quayLast := rfl
@[simp] theorem State.setCore_lives (s : State) (k : Nat) (x : CoreSt) : (s.setCore k x).lives = s.lives := rfl
@[simp] theorem State.setCore_pkg (s : State) (k : Nat) (x : CoreSt) : (s.setCore k x).pkg = s.pkg := rfl
@[simp] theorem State.setCore_cycle (s : State) (k : Nat) (x : CoreSt) : (s.setCore k x).cycle = s.cycle := rfl
@[simp] theorem State.setCore_agenda (s : State) (k : Nat) (x : CoreSt) : (s.setCore k x).agenda = s.agenda := rfl
@[simp] theorem State.setCore_held (s : State) (k : Nat) (x : CoreSt) : (s.setCore k x).held = s.held := rfl
@[simp] theorem State.setCore_pending (s : State) (k : Nat) (x : CoreSt) : (s.setCore k x).pending = s.pending := rfl
@[simp] theorem State.setCore_latched (s : State) (k : Nat) (x : CoreSt) : (s.setCore k x).latched = s.latched := rfl
@[simp] theorem State.setCore_closing (s : State) (k : Nat) (x : CoreSt) : (s.setCore k x).closing = s.closing := rfl
@[simp] theorem State.setCore_ticket (s : State) (k : Nat) (x : CoreSt) : (s.setCore k x).ticket = s.ticket := rfl
@[simp] theorem State.setCore_fresh (s : State) (k : Nat) (x : CoreSt) : (s.setCore k x).fresh = s.fresh := rfl

@[simp] theorem State.modCore_cur (s : State) (k : Nat) (f : CoreSt → CoreSt) : (s.modCore k f).cur = s.cur := rfl
@[simp] theorem State.modCore_slots (s : State) (k : Nat) (f : CoreSt → CoreSt) : (s.modCore k f).slots = s.slots := rfl
@[simp] theorem State.modCore_quads (s : State) (k : Nat) (f : CoreSt → CoreSt) : (s.modCore k f).quads = s.quads := rfl
@[simp] theorem State.modCore_ctxs (s : State) (k : Nat) (f : CoreSt → CoreSt) : (s.modCore k f).ctxs = s.ctxs := rfl
@[simp] theorem State.modCore_mem (s : State) (k : Nat) (f : CoreSt → CoreSt) : (s.modCore k f).mem = s.mem := rfl
@[simp] theorem State.modCore_full (s : State) (k : Nat) (f : CoreSt → CoreSt) : (s.modCore k f).full = s.full := rfl
@[simp] theorem State.modCore_poison (s : State) (k : Nat) (f : CoreSt → CoreSt) : (s.modCore k f).poison = s.poison := rfl
@[simp] theorem State.modCore_lines (s : State) (k : Nat) (f : CoreSt → CoreSt) : (s.modCore k f).lines = s.lines := rfl
@[simp] theorem State.modCore_pages (s : State) (k : Nat) (f : CoreSt → CoreSt) : (s.modCore k f).pages = s.pages := rfl
@[simp] theorem State.modCore_arenas (s : State) (k : Nat) (f : CoreSt → CoreSt) : (s.modCore k f).arenas = s.arenas := rfl
@[simp] theorem State.modCore_past (s : State) (k : Nat) (f : CoreSt → CoreSt) : (s.modCore k f).past = s.past := rfl
@[simp] theorem State.modCore_writes (s : State) (k : Nat) (f : CoreSt → CoreSt) : (s.modCore k f).writes = s.writes := rfl
@[simp] theorem State.modCore_llc (s : State) (k : Nat) (f : CoreSt → CoreSt) : (s.modCore k f).llc = s.llc := rfl
@[simp] theorem State.modCore_damage (s : State) (k : Nat) (f : CoreSt → CoreSt) : (s.modCore k f).damage = s.damage := rfl
@[simp] theorem State.modCore_sectorMap (s : State) (k : Nat) (f : CoreSt → CoreSt) : (s.modCore k f).sectorMap = s.sectorMap := rfl
@[simp] theorem State.modCore_mapDamage (s : State) (k : Nat) (f : CoreSt → CoreSt) : (s.modCore k f).mapDamage = s.mapDamage := rfl
@[simp] theorem State.modCore_overDamage (s : State) (k : Nat) (f : CoreSt → CoreSt) : (s.modCore k f).overDamage = s.overDamage := rfl
@[simp] theorem State.modCore_stackCopies (s : State) (k : Nat) (f : CoreSt → CoreSt) : (s.modCore k f).stackCopies = s.stackCopies := rfl
@[simp] theorem State.modCore_quayLast (s : State) (k : Nat) (f : CoreSt → CoreSt) : (s.modCore k f).quayLast = s.quayLast := rfl
@[simp] theorem State.modCore_lives (s : State) (k : Nat) (f : CoreSt → CoreSt) : (s.modCore k f).lives = s.lives := rfl
@[simp] theorem State.modCore_pkg (s : State) (k : Nat) (f : CoreSt → CoreSt) : (s.modCore k f).pkg = s.pkg := rfl
@[simp] theorem State.modCore_cycle (s : State) (k : Nat) (f : CoreSt → CoreSt) : (s.modCore k f).cycle = s.cycle := rfl
@[simp] theorem State.modCore_agenda (s : State) (k : Nat) (f : CoreSt → CoreSt) : (s.modCore k f).agenda = s.agenda := rfl
@[simp] theorem State.modCore_held (s : State) (k : Nat) (f : CoreSt → CoreSt) : (s.modCore k f).held = s.held := rfl
@[simp] theorem State.modCore_pending (s : State) (k : Nat) (f : CoreSt → CoreSt) : (s.modCore k f).pending = s.pending := rfl
@[simp] theorem State.modCore_latched (s : State) (k : Nat) (f : CoreSt → CoreSt) : (s.modCore k f).latched = s.latched := rfl
@[simp] theorem State.modCore_closing (s : State) (k : Nat) (f : CoreSt → CoreSt) : (s.modCore k f).closing = s.closing := rfl
@[simp] theorem State.modCore_ticket (s : State) (k : Nat) (f : CoreSt → CoreSt) : (s.modCore k f).ticket = s.ticket := rfl
@[simp] theorem State.modCore_fresh (s : State) (k : Nat) (f : CoreSt → CoreSt) : (s.modCore k f).fresh = s.fresh := rfl

@[simp] theorem State.setQuad_cur (s : State) (k : Nat) (x : QuadSt) : (s.setQuad k x).cur = s.cur := rfl
@[simp] theorem State.setQuad_slots (s : State) (k : Nat) (x : QuadSt) : (s.setQuad k x).slots = s.slots := rfl
@[simp] theorem State.setQuad_cores (s : State) (k : Nat) (x : QuadSt) : (s.setQuad k x).cores = s.cores := rfl
@[simp] theorem State.setQuad_ctxs (s : State) (k : Nat) (x : QuadSt) : (s.setQuad k x).ctxs = s.ctxs := rfl
@[simp] theorem State.setQuad_mem (s : State) (k : Nat) (x : QuadSt) : (s.setQuad k x).mem = s.mem := rfl
@[simp] theorem State.setQuad_full (s : State) (k : Nat) (x : QuadSt) : (s.setQuad k x).full = s.full := rfl
@[simp] theorem State.setQuad_poison (s : State) (k : Nat) (x : QuadSt) : (s.setQuad k x).poison = s.poison := rfl
@[simp] theorem State.setQuad_lines (s : State) (k : Nat) (x : QuadSt) : (s.setQuad k x).lines = s.lines := rfl
@[simp] theorem State.setQuad_pages (s : State) (k : Nat) (x : QuadSt) : (s.setQuad k x).pages = s.pages := rfl
@[simp] theorem State.setQuad_arenas (s : State) (k : Nat) (x : QuadSt) : (s.setQuad k x).arenas = s.arenas := rfl
@[simp] theorem State.setQuad_past (s : State) (k : Nat) (x : QuadSt) : (s.setQuad k x).past = s.past := rfl
@[simp] theorem State.setQuad_writes (s : State) (k : Nat) (x : QuadSt) : (s.setQuad k x).writes = s.writes := rfl
@[simp] theorem State.setQuad_llc (s : State) (k : Nat) (x : QuadSt) : (s.setQuad k x).llc = s.llc := rfl
@[simp] theorem State.setQuad_damage (s : State) (k : Nat) (x : QuadSt) : (s.setQuad k x).damage = s.damage := rfl
@[simp] theorem State.setQuad_sectorMap (s : State) (k : Nat) (x : QuadSt) : (s.setQuad k x).sectorMap = s.sectorMap := rfl
@[simp] theorem State.setQuad_mapDamage (s : State) (k : Nat) (x : QuadSt) : (s.setQuad k x).mapDamage = s.mapDamage := rfl
@[simp] theorem State.setQuad_overDamage (s : State) (k : Nat) (x : QuadSt) : (s.setQuad k x).overDamage = s.overDamage := rfl
@[simp] theorem State.setQuad_stackCopies (s : State) (k : Nat) (x : QuadSt) : (s.setQuad k x).stackCopies = s.stackCopies := rfl
@[simp] theorem State.setQuad_quayLast (s : State) (k : Nat) (x : QuadSt) : (s.setQuad k x).quayLast = s.quayLast := rfl
@[simp] theorem State.setQuad_lives (s : State) (k : Nat) (x : QuadSt) : (s.setQuad k x).lives = s.lives := rfl
@[simp] theorem State.setQuad_pkg (s : State) (k : Nat) (x : QuadSt) : (s.setQuad k x).pkg = s.pkg := rfl
@[simp] theorem State.setQuad_cycle (s : State) (k : Nat) (x : QuadSt) : (s.setQuad k x).cycle = s.cycle := rfl
@[simp] theorem State.setQuad_agenda (s : State) (k : Nat) (x : QuadSt) : (s.setQuad k x).agenda = s.agenda := rfl
@[simp] theorem State.setQuad_held (s : State) (k : Nat) (x : QuadSt) : (s.setQuad k x).held = s.held := rfl
@[simp] theorem State.setQuad_pending (s : State) (k : Nat) (x : QuadSt) : (s.setQuad k x).pending = s.pending := rfl
@[simp] theorem State.setQuad_latched (s : State) (k : Nat) (x : QuadSt) : (s.setQuad k x).latched = s.latched := rfl
@[simp] theorem State.setQuad_closing (s : State) (k : Nat) (x : QuadSt) : (s.setQuad k x).closing = s.closing := rfl
@[simp] theorem State.setQuad_ticket (s : State) (k : Nat) (x : QuadSt) : (s.setQuad k x).ticket = s.ticket := rfl
@[simp] theorem State.setQuad_fresh (s : State) (k : Nat) (x : QuadSt) : (s.setQuad k x).fresh = s.fresh := rfl

@[simp] theorem State.modQuad_cur (s : State) (k : Nat) (f : QuadSt → QuadSt) : (s.modQuad k f).cur = s.cur := rfl
@[simp] theorem State.modQuad_slots (s : State) (k : Nat) (f : QuadSt → QuadSt) : (s.modQuad k f).slots = s.slots := rfl
@[simp] theorem State.modQuad_cores (s : State) (k : Nat) (f : QuadSt → QuadSt) : (s.modQuad k f).cores = s.cores := rfl
@[simp] theorem State.modQuad_ctxs (s : State) (k : Nat) (f : QuadSt → QuadSt) : (s.modQuad k f).ctxs = s.ctxs := rfl
@[simp] theorem State.modQuad_mem (s : State) (k : Nat) (f : QuadSt → QuadSt) : (s.modQuad k f).mem = s.mem := rfl
@[simp] theorem State.modQuad_full (s : State) (k : Nat) (f : QuadSt → QuadSt) : (s.modQuad k f).full = s.full := rfl
@[simp] theorem State.modQuad_poison (s : State) (k : Nat) (f : QuadSt → QuadSt) : (s.modQuad k f).poison = s.poison := rfl
@[simp] theorem State.modQuad_lines (s : State) (k : Nat) (f : QuadSt → QuadSt) : (s.modQuad k f).lines = s.lines := rfl
@[simp] theorem State.modQuad_pages (s : State) (k : Nat) (f : QuadSt → QuadSt) : (s.modQuad k f).pages = s.pages := rfl
@[simp] theorem State.modQuad_arenas (s : State) (k : Nat) (f : QuadSt → QuadSt) : (s.modQuad k f).arenas = s.arenas := rfl
@[simp] theorem State.modQuad_past (s : State) (k : Nat) (f : QuadSt → QuadSt) : (s.modQuad k f).past = s.past := rfl
@[simp] theorem State.modQuad_writes (s : State) (k : Nat) (f : QuadSt → QuadSt) : (s.modQuad k f).writes = s.writes := rfl
@[simp] theorem State.modQuad_llc (s : State) (k : Nat) (f : QuadSt → QuadSt) : (s.modQuad k f).llc = s.llc := rfl
@[simp] theorem State.modQuad_damage (s : State) (k : Nat) (f : QuadSt → QuadSt) : (s.modQuad k f).damage = s.damage := rfl
@[simp] theorem State.modQuad_sectorMap (s : State) (k : Nat) (f : QuadSt → QuadSt) : (s.modQuad k f).sectorMap = s.sectorMap := rfl
@[simp] theorem State.modQuad_mapDamage (s : State) (k : Nat) (f : QuadSt → QuadSt) : (s.modQuad k f).mapDamage = s.mapDamage := rfl
@[simp] theorem State.modQuad_overDamage (s : State) (k : Nat) (f : QuadSt → QuadSt) : (s.modQuad k f).overDamage = s.overDamage := rfl
@[simp] theorem State.modQuad_stackCopies (s : State) (k : Nat) (f : QuadSt → QuadSt) : (s.modQuad k f).stackCopies = s.stackCopies := rfl
@[simp] theorem State.modQuad_quayLast (s : State) (k : Nat) (f : QuadSt → QuadSt) : (s.modQuad k f).quayLast = s.quayLast := rfl
@[simp] theorem State.modQuad_lives (s : State) (k : Nat) (f : QuadSt → QuadSt) : (s.modQuad k f).lives = s.lives := rfl
@[simp] theorem State.modQuad_pkg (s : State) (k : Nat) (f : QuadSt → QuadSt) : (s.modQuad k f).pkg = s.pkg := rfl
@[simp] theorem State.modQuad_cycle (s : State) (k : Nat) (f : QuadSt → QuadSt) : (s.modQuad k f).cycle = s.cycle := rfl
@[simp] theorem State.modQuad_agenda (s : State) (k : Nat) (f : QuadSt → QuadSt) : (s.modQuad k f).agenda = s.agenda := rfl
@[simp] theorem State.modQuad_held (s : State) (k : Nat) (f : QuadSt → QuadSt) : (s.modQuad k f).held = s.held := rfl
@[simp] theorem State.modQuad_pending (s : State) (k : Nat) (f : QuadSt → QuadSt) : (s.modQuad k f).pending = s.pending := rfl
@[simp] theorem State.modQuad_latched (s : State) (k : Nat) (f : QuadSt → QuadSt) : (s.modQuad k f).latched = s.latched := rfl
@[simp] theorem State.modQuad_closing (s : State) (k : Nat) (f : QuadSt → QuadSt) : (s.modQuad k f).closing = s.closing := rfl
@[simp] theorem State.modQuad_ticket (s : State) (k : Nat) (f : QuadSt → QuadSt) : (s.modQuad k f).ticket = s.ticket := rfl
@[simp] theorem State.modQuad_fresh (s : State) (k : Nat) (f : QuadSt → QuadSt) : (s.modQuad k f).fresh = s.fresh := rfl

@[simp] theorem State.setCtx_cur (s : State) (k : Nat) (x : Ctx) : (s.setCtx k x).cur = s.cur := rfl
@[simp] theorem State.setCtx_slots (s : State) (k : Nat) (x : Ctx) : (s.setCtx k x).slots = s.slots := rfl
@[simp] theorem State.setCtx_cores (s : State) (k : Nat) (x : Ctx) : (s.setCtx k x).cores = s.cores := rfl
@[simp] theorem State.setCtx_quads (s : State) (k : Nat) (x : Ctx) : (s.setCtx k x).quads = s.quads := rfl
@[simp] theorem State.setCtx_mem (s : State) (k : Nat) (x : Ctx) : (s.setCtx k x).mem = s.mem := rfl
@[simp] theorem State.setCtx_full (s : State) (k : Nat) (x : Ctx) : (s.setCtx k x).full = s.full := rfl
@[simp] theorem State.setCtx_poison (s : State) (k : Nat) (x : Ctx) : (s.setCtx k x).poison = s.poison := rfl
@[simp] theorem State.setCtx_lines (s : State) (k : Nat) (x : Ctx) : (s.setCtx k x).lines = s.lines := rfl
@[simp] theorem State.setCtx_pages (s : State) (k : Nat) (x : Ctx) : (s.setCtx k x).pages = s.pages := rfl
@[simp] theorem State.setCtx_arenas (s : State) (k : Nat) (x : Ctx) : (s.setCtx k x).arenas = s.arenas := rfl
@[simp] theorem State.setCtx_past (s : State) (k : Nat) (x : Ctx) : (s.setCtx k x).past = s.past := rfl
@[simp] theorem State.setCtx_writes (s : State) (k : Nat) (x : Ctx) : (s.setCtx k x).writes = s.writes := rfl
@[simp] theorem State.setCtx_llc (s : State) (k : Nat) (x : Ctx) : (s.setCtx k x).llc = s.llc := rfl
@[simp] theorem State.setCtx_damage (s : State) (k : Nat) (x : Ctx) : (s.setCtx k x).damage = s.damage := rfl
@[simp] theorem State.setCtx_sectorMap (s : State) (k : Nat) (x : Ctx) : (s.setCtx k x).sectorMap = s.sectorMap := rfl
@[simp] theorem State.setCtx_mapDamage (s : State) (k : Nat) (x : Ctx) : (s.setCtx k x).mapDamage = s.mapDamage := rfl
@[simp] theorem State.setCtx_overDamage (s : State) (k : Nat) (x : Ctx) : (s.setCtx k x).overDamage = s.overDamage := rfl
@[simp] theorem State.setCtx_stackCopies (s : State) (k : Nat) (x : Ctx) : (s.setCtx k x).stackCopies = s.stackCopies := rfl
@[simp] theorem State.setCtx_quayLast (s : State) (k : Nat) (x : Ctx) : (s.setCtx k x).quayLast = s.quayLast := rfl
@[simp] theorem State.setCtx_lives (s : State) (k : Nat) (x : Ctx) : (s.setCtx k x).lives = s.lives := rfl
@[simp] theorem State.setCtx_pkg (s : State) (k : Nat) (x : Ctx) : (s.setCtx k x).pkg = s.pkg := rfl
@[simp] theorem State.setCtx_cycle (s : State) (k : Nat) (x : Ctx) : (s.setCtx k x).cycle = s.cycle := rfl
@[simp] theorem State.setCtx_agenda (s : State) (k : Nat) (x : Ctx) : (s.setCtx k x).agenda = s.agenda := rfl
@[simp] theorem State.setCtx_held (s : State) (k : Nat) (x : Ctx) : (s.setCtx k x).held = s.held := rfl
@[simp] theorem State.setCtx_pending (s : State) (k : Nat) (x : Ctx) : (s.setCtx k x).pending = s.pending := rfl
@[simp] theorem State.setCtx_latched (s : State) (k : Nat) (x : Ctx) : (s.setCtx k x).latched = s.latched := rfl
@[simp] theorem State.setCtx_closing (s : State) (k : Nat) (x : Ctx) : (s.setCtx k x).closing = s.closing := rfl
@[simp] theorem State.setCtx_ticket (s : State) (k : Nat) (x : Ctx) : (s.setCtx k x).ticket = s.ticket := rfl
@[simp] theorem State.setCtx_fresh (s : State) (k : Nat) (x : Ctx) : (s.setCtx k x).fresh = s.fresh := rfl

@[simp] theorem State.modCtx_cur (s : State) (k : Nat) (f : Ctx → Ctx) : (s.modCtx k f).cur = s.cur := rfl
@[simp] theorem State.modCtx_slots (s : State) (k : Nat) (f : Ctx → Ctx) : (s.modCtx k f).slots = s.slots := rfl
@[simp] theorem State.modCtx_cores (s : State) (k : Nat) (f : Ctx → Ctx) : (s.modCtx k f).cores = s.cores := rfl
@[simp] theorem State.modCtx_quads (s : State) (k : Nat) (f : Ctx → Ctx) : (s.modCtx k f).quads = s.quads := rfl
@[simp] theorem State.modCtx_mem (s : State) (k : Nat) (f : Ctx → Ctx) : (s.modCtx k f).mem = s.mem := rfl
@[simp] theorem State.modCtx_full (s : State) (k : Nat) (f : Ctx → Ctx) : (s.modCtx k f).full = s.full := rfl
@[simp] theorem State.modCtx_poison (s : State) (k : Nat) (f : Ctx → Ctx) : (s.modCtx k f).poison = s.poison := rfl
@[simp] theorem State.modCtx_lines (s : State) (k : Nat) (f : Ctx → Ctx) : (s.modCtx k f).lines = s.lines := rfl
@[simp] theorem State.modCtx_pages (s : State) (k : Nat) (f : Ctx → Ctx) : (s.modCtx k f).pages = s.pages := rfl
@[simp] theorem State.modCtx_arenas (s : State) (k : Nat) (f : Ctx → Ctx) : (s.modCtx k f).arenas = s.arenas := rfl
@[simp] theorem State.modCtx_past (s : State) (k : Nat) (f : Ctx → Ctx) : (s.modCtx k f).past = s.past := rfl
@[simp] theorem State.modCtx_writes (s : State) (k : Nat) (f : Ctx → Ctx) : (s.modCtx k f).writes = s.writes := rfl
@[simp] theorem State.modCtx_llc (s : State) (k : Nat) (f : Ctx → Ctx) : (s.modCtx k f).llc = s.llc := rfl
@[simp] theorem State.modCtx_damage (s : State) (k : Nat) (f : Ctx → Ctx) : (s.modCtx k f).damage = s.damage := rfl
@[simp] theorem State.modCtx_sectorMap (s : State) (k : Nat) (f : Ctx → Ctx) : (s.modCtx k f).sectorMap = s.sectorMap := rfl
@[simp] theorem State.modCtx_mapDamage (s : State) (k : Nat) (f : Ctx → Ctx) : (s.modCtx k f).mapDamage = s.mapDamage := rfl
@[simp] theorem State.modCtx_overDamage (s : State) (k : Nat) (f : Ctx → Ctx) : (s.modCtx k f).overDamage = s.overDamage := rfl
@[simp] theorem State.modCtx_stackCopies (s : State) (k : Nat) (f : Ctx → Ctx) : (s.modCtx k f).stackCopies = s.stackCopies := rfl
@[simp] theorem State.modCtx_quayLast (s : State) (k : Nat) (f : Ctx → Ctx) : (s.modCtx k f).quayLast = s.quayLast := rfl
@[simp] theorem State.modCtx_lives (s : State) (k : Nat) (f : Ctx → Ctx) : (s.modCtx k f).lives = s.lives := rfl
@[simp] theorem State.modCtx_pkg (s : State) (k : Nat) (f : Ctx → Ctx) : (s.modCtx k f).pkg = s.pkg := rfl
@[simp] theorem State.modCtx_cycle (s : State) (k : Nat) (f : Ctx → Ctx) : (s.modCtx k f).cycle = s.cycle := rfl
@[simp] theorem State.modCtx_agenda (s : State) (k : Nat) (f : Ctx → Ctx) : (s.modCtx k f).agenda = s.agenda := rfl
@[simp] theorem State.modCtx_held (s : State) (k : Nat) (f : Ctx → Ctx) : (s.modCtx k f).held = s.held := rfl
@[simp] theorem State.modCtx_pending (s : State) (k : Nat) (f : Ctx → Ctx) : (s.modCtx k f).pending = s.pending := rfl
@[simp] theorem State.modCtx_latched (s : State) (k : Nat) (f : Ctx → Ctx) : (s.modCtx k f).latched = s.latched := rfl
@[simp] theorem State.modCtx_closing (s : State) (k : Nat) (f : Ctx → Ctx) : (s.modCtx k f).closing = s.closing := rfl
@[simp] theorem State.modCtx_ticket (s : State) (k : Nat) (f : Ctx → Ctx) : (s.modCtx k f).ticket = s.ticket := rfl
@[simp] theorem State.modCtx_fresh (s : State) (k : Nat) (f : Ctx → Ctx) : (s.modCtx k f).fresh = s.fresh := rfl

@[simp] theorem State.modPage_cur (s : State) (k : Nat) (f : Page → Page) : (s.modPage k f).cur = s.cur := rfl
@[simp] theorem State.modPage_slots (s : State) (k : Nat) (f : Page → Page) : (s.modPage k f).slots = s.slots := rfl
@[simp] theorem State.modPage_cores (s : State) (k : Nat) (f : Page → Page) : (s.modPage k f).cores = s.cores := rfl
@[simp] theorem State.modPage_quads (s : State) (k : Nat) (f : Page → Page) : (s.modPage k f).quads = s.quads := rfl
@[simp] theorem State.modPage_ctxs (s : State) (k : Nat) (f : Page → Page) : (s.modPage k f).ctxs = s.ctxs := rfl
@[simp] theorem State.modPage_mem (s : State) (k : Nat) (f : Page → Page) : (s.modPage k f).mem = s.mem := rfl
@[simp] theorem State.modPage_full (s : State) (k : Nat) (f : Page → Page) : (s.modPage k f).full = s.full := rfl
@[simp] theorem State.modPage_poison (s : State) (k : Nat) (f : Page → Page) : (s.modPage k f).poison = s.poison := rfl
@[simp] theorem State.modPage_lines (s : State) (k : Nat) (f : Page → Page) : (s.modPage k f).lines = s.lines := rfl
@[simp] theorem State.modPage_arenas (s : State) (k : Nat) (f : Page → Page) : (s.modPage k f).arenas = s.arenas := rfl
@[simp] theorem State.modPage_past (s : State) (k : Nat) (f : Page → Page) : (s.modPage k f).past = s.past := rfl
@[simp] theorem State.modPage_writes (s : State) (k : Nat) (f : Page → Page) : (s.modPage k f).writes = s.writes := rfl
@[simp] theorem State.modPage_llc (s : State) (k : Nat) (f : Page → Page) : (s.modPage k f).llc = s.llc := rfl
@[simp] theorem State.modPage_damage (s : State) (k : Nat) (f : Page → Page) : (s.modPage k f).damage = s.damage := rfl
@[simp] theorem State.modPage_sectorMap (s : State) (k : Nat) (f : Page → Page) : (s.modPage k f).sectorMap = s.sectorMap := rfl
@[simp] theorem State.modPage_mapDamage (s : State) (k : Nat) (f : Page → Page) : (s.modPage k f).mapDamage = s.mapDamage := rfl
@[simp] theorem State.modPage_overDamage (s : State) (k : Nat) (f : Page → Page) : (s.modPage k f).overDamage = s.overDamage := rfl
@[simp] theorem State.modPage_stackCopies (s : State) (k : Nat) (f : Page → Page) : (s.modPage k f).stackCopies = s.stackCopies := rfl
@[simp] theorem State.modPage_quayLast (s : State) (k : Nat) (f : Page → Page) : (s.modPage k f).quayLast = s.quayLast := rfl
@[simp] theorem State.modPage_lives (s : State) (k : Nat) (f : Page → Page) : (s.modPage k f).lives = s.lives := rfl
@[simp] theorem State.modPage_pkg (s : State) (k : Nat) (f : Page → Page) : (s.modPage k f).pkg = s.pkg := rfl
@[simp] theorem State.modPage_cycle (s : State) (k : Nat) (f : Page → Page) : (s.modPage k f).cycle = s.cycle := rfl
@[simp] theorem State.modPage_agenda (s : State) (k : Nat) (f : Page → Page) : (s.modPage k f).agenda = s.agenda := rfl
@[simp] theorem State.modPage_held (s : State) (k : Nat) (f : Page → Page) : (s.modPage k f).held = s.held := rfl
@[simp] theorem State.modPage_pending (s : State) (k : Nat) (f : Page → Page) : (s.modPage k f).pending = s.pending := rfl
@[simp] theorem State.modPage_latched (s : State) (k : Nat) (f : Page → Page) : (s.modPage k f).latched = s.latched := rfl
@[simp] theorem State.modPage_closing (s : State) (k : Nat) (f : Page → Page) : (s.modPage k f).closing = s.closing := rfl
@[simp] theorem State.modPage_ticket (s : State) (k : Nat) (f : Page → Page) : (s.modPage k f).ticket = s.ticket := rfl
@[simp] theorem State.modPage_fresh (s : State) (k : Nat) (f : Page → Page) : (s.modPage k f).fresh = s.fresh := rfl

@[simp] theorem State.modArena_cur (s : State) (k : Nat) (f : Arena → Arena) : (s.modArena k f).cur = s.cur := rfl
@[simp] theorem State.modArena_slots (s : State) (k : Nat) (f : Arena → Arena) : (s.modArena k f).slots = s.slots := rfl
@[simp] theorem State.modArena_cores (s : State) (k : Nat) (f : Arena → Arena) : (s.modArena k f).cores = s.cores := rfl
@[simp] theorem State.modArena_quads (s : State) (k : Nat) (f : Arena → Arena) : (s.modArena k f).quads = s.quads := rfl
@[simp] theorem State.modArena_ctxs (s : State) (k : Nat) (f : Arena → Arena) : (s.modArena k f).ctxs = s.ctxs := rfl
@[simp] theorem State.modArena_mem (s : State) (k : Nat) (f : Arena → Arena) : (s.modArena k f).mem = s.mem := rfl
@[simp] theorem State.modArena_full (s : State) (k : Nat) (f : Arena → Arena) : (s.modArena k f).full = s.full := rfl
@[simp] theorem State.modArena_poison (s : State) (k : Nat) (f : Arena → Arena) : (s.modArena k f).poison = s.poison := rfl
@[simp] theorem State.modArena_lines (s : State) (k : Nat) (f : Arena → Arena) : (s.modArena k f).lines = s.lines := rfl
@[simp] theorem State.modArena_pages (s : State) (k : Nat) (f : Arena → Arena) : (s.modArena k f).pages = s.pages := rfl
@[simp] theorem State.modArena_past (s : State) (k : Nat) (f : Arena → Arena) : (s.modArena k f).past = s.past := rfl
@[simp] theorem State.modArena_writes (s : State) (k : Nat) (f : Arena → Arena) : (s.modArena k f).writes = s.writes := rfl
@[simp] theorem State.modArena_llc (s : State) (k : Nat) (f : Arena → Arena) : (s.modArena k f).llc = s.llc := rfl
@[simp] theorem State.modArena_damage (s : State) (k : Nat) (f : Arena → Arena) : (s.modArena k f).damage = s.damage := rfl
@[simp] theorem State.modArena_sectorMap (s : State) (k : Nat) (f : Arena → Arena) : (s.modArena k f).sectorMap = s.sectorMap := rfl
@[simp] theorem State.modArena_mapDamage (s : State) (k : Nat) (f : Arena → Arena) : (s.modArena k f).mapDamage = s.mapDamage := rfl
@[simp] theorem State.modArena_overDamage (s : State) (k : Nat) (f : Arena → Arena) : (s.modArena k f).overDamage = s.overDamage := rfl
@[simp] theorem State.modArena_stackCopies (s : State) (k : Nat) (f : Arena → Arena) : (s.modArena k f).stackCopies = s.stackCopies := rfl
@[simp] theorem State.modArena_quayLast (s : State) (k : Nat) (f : Arena → Arena) : (s.modArena k f).quayLast = s.quayLast := rfl
@[simp] theorem State.modArena_lives (s : State) (k : Nat) (f : Arena → Arena) : (s.modArena k f).lives = s.lives := rfl
@[simp] theorem State.modArena_pkg (s : State) (k : Nat) (f : Arena → Arena) : (s.modArena k f).pkg = s.pkg := rfl
@[simp] theorem State.modArena_cycle (s : State) (k : Nat) (f : Arena → Arena) : (s.modArena k f).cycle = s.cycle := rfl
@[simp] theorem State.modArena_agenda (s : State) (k : Nat) (f : Arena → Arena) : (s.modArena k f).agenda = s.agenda := rfl
@[simp] theorem State.modArena_held (s : State) (k : Nat) (f : Arena → Arena) : (s.modArena k f).held = s.held := rfl
@[simp] theorem State.modArena_pending (s : State) (k : Nat) (f : Arena → Arena) : (s.modArena k f).pending = s.pending := rfl
@[simp] theorem State.modArena_latched (s : State) (k : Nat) (f : Arena → Arena) : (s.modArena k f).latched = s.latched := rfl
@[simp] theorem State.modArena_closing (s : State) (k : Nat) (f : Arena → Arena) : (s.modArena k f).closing = s.closing := rfl
@[simp] theorem State.modArena_ticket (s : State) (k : Nat) (f : Arena → Arena) : (s.modArena k f).ticket = s.ticket := rfl
@[simp] theorem State.modArena_fresh (s : State) (k : Nat) (f : Arena → Arena) : (s.modArena k f).fresh = s.fresh := rfl

@[simp] theorem State.modPkg_cur (s : State) (f : Pkg → Pkg) : (s.modPkg f).cur = s.cur := rfl
@[simp] theorem State.modPkg_slots (s : State) (f : Pkg → Pkg) : (s.modPkg f).slots = s.slots := rfl
@[simp] theorem State.modPkg_cores (s : State) (f : Pkg → Pkg) : (s.modPkg f).cores = s.cores := rfl
@[simp] theorem State.modPkg_quads (s : State) (f : Pkg → Pkg) : (s.modPkg f).quads = s.quads := rfl
@[simp] theorem State.modPkg_ctxs (s : State) (f : Pkg → Pkg) : (s.modPkg f).ctxs = s.ctxs := rfl
@[simp] theorem State.modPkg_mem (s : State) (f : Pkg → Pkg) : (s.modPkg f).mem = s.mem := rfl
@[simp] theorem State.modPkg_full (s : State) (f : Pkg → Pkg) : (s.modPkg f).full = s.full := rfl
@[simp] theorem State.modPkg_poison (s : State) (f : Pkg → Pkg) : (s.modPkg f).poison = s.poison := rfl
@[simp] theorem State.modPkg_lines (s : State) (f : Pkg → Pkg) : (s.modPkg f).lines = s.lines := rfl
@[simp] theorem State.modPkg_pages (s : State) (f : Pkg → Pkg) : (s.modPkg f).pages = s.pages := rfl
@[simp] theorem State.modPkg_arenas (s : State) (f : Pkg → Pkg) : (s.modPkg f).arenas = s.arenas := rfl
@[simp] theorem State.modPkg_past (s : State) (f : Pkg → Pkg) : (s.modPkg f).past = s.past := rfl
@[simp] theorem State.modPkg_writes (s : State) (f : Pkg → Pkg) : (s.modPkg f).writes = s.writes := rfl
@[simp] theorem State.modPkg_llc (s : State) (f : Pkg → Pkg) : (s.modPkg f).llc = s.llc := rfl
@[simp] theorem State.modPkg_damage (s : State) (f : Pkg → Pkg) : (s.modPkg f).damage = s.damage := rfl
@[simp] theorem State.modPkg_sectorMap (s : State) (f : Pkg → Pkg) : (s.modPkg f).sectorMap = s.sectorMap := rfl
@[simp] theorem State.modPkg_mapDamage (s : State) (f : Pkg → Pkg) : (s.modPkg f).mapDamage = s.mapDamage := rfl
@[simp] theorem State.modPkg_overDamage (s : State) (f : Pkg → Pkg) : (s.modPkg f).overDamage = s.overDamage := rfl
@[simp] theorem State.modPkg_stackCopies (s : State) (f : Pkg → Pkg) : (s.modPkg f).stackCopies = s.stackCopies := rfl
@[simp] theorem State.modPkg_quayLast (s : State) (f : Pkg → Pkg) : (s.modPkg f).quayLast = s.quayLast := rfl
@[simp] theorem State.modPkg_lives (s : State) (f : Pkg → Pkg) : (s.modPkg f).lives = s.lives := rfl
@[simp] theorem State.modPkg_cycle (s : State) (f : Pkg → Pkg) : (s.modPkg f).cycle = s.cycle := rfl
@[simp] theorem State.modPkg_agenda (s : State) (f : Pkg → Pkg) : (s.modPkg f).agenda = s.agenda := rfl
@[simp] theorem State.modPkg_held (s : State) (f : Pkg → Pkg) : (s.modPkg f).held = s.held := rfl
@[simp] theorem State.modPkg_pending (s : State) (f : Pkg → Pkg) : (s.modPkg f).pending = s.pending := rfl
@[simp] theorem State.modPkg_latched (s : State) (f : Pkg → Pkg) : (s.modPkg f).latched = s.latched := rfl
@[simp] theorem State.modPkg_closing (s : State) (f : Pkg → Pkg) : (s.modPkg f).closing = s.closing := rfl
@[simp] theorem State.modPkg_ticket (s : State) (f : Pkg → Pkg) : (s.modPkg f).ticket = s.ticket := rfl
@[simp] theorem State.modPkg_fresh (s : State) (f : Pkg → Pkg) : (s.modPkg f).fresh = s.fresh := rfl

@[simp] theorem State.modMe_cur (s : State) (f : Slot → Slot) : (s.modMe f).cur = s.cur := rfl
@[simp] theorem State.modMe_cores (s : State) (f : Slot → Slot) : (s.modMe f).cores = s.cores := rfl
@[simp] theorem State.modMe_quads (s : State) (f : Slot → Slot) : (s.modMe f).quads = s.quads := rfl
@[simp] theorem State.modMe_ctxs (s : State) (f : Slot → Slot) : (s.modMe f).ctxs = s.ctxs := rfl
@[simp] theorem State.modMe_mem (s : State) (f : Slot → Slot) : (s.modMe f).mem = s.mem := rfl
@[simp] theorem State.modMe_full (s : State) (f : Slot → Slot) : (s.modMe f).full = s.full := rfl
@[simp] theorem State.modMe_poison (s : State) (f : Slot → Slot) : (s.modMe f).poison = s.poison := rfl
@[simp] theorem State.modMe_lines (s : State) (f : Slot → Slot) : (s.modMe f).lines = s.lines := rfl
@[simp] theorem State.modMe_pages (s : State) (f : Slot → Slot) : (s.modMe f).pages = s.pages := rfl
@[simp] theorem State.modMe_arenas (s : State) (f : Slot → Slot) : (s.modMe f).arenas = s.arenas := rfl
@[simp] theorem State.modMe_past (s : State) (f : Slot → Slot) : (s.modMe f).past = s.past := rfl
@[simp] theorem State.modMe_writes (s : State) (f : Slot → Slot) : (s.modMe f).writes = s.writes := rfl
@[simp] theorem State.modMe_llc (s : State) (f : Slot → Slot) : (s.modMe f).llc = s.llc := rfl
@[simp] theorem State.modMe_damage (s : State) (f : Slot → Slot) : (s.modMe f).damage = s.damage := rfl
@[simp] theorem State.modMe_sectorMap (s : State) (f : Slot → Slot) : (s.modMe f).sectorMap = s.sectorMap := rfl
@[simp] theorem State.modMe_mapDamage (s : State) (f : Slot → Slot) : (s.modMe f).mapDamage = s.mapDamage := rfl
@[simp] theorem State.modMe_overDamage (s : State) (f : Slot → Slot) : (s.modMe f).overDamage = s.overDamage := rfl
@[simp] theorem State.modMe_stackCopies (s : State) (f : Slot → Slot) : (s.modMe f).stackCopies = s.stackCopies := rfl
@[simp] theorem State.modMe_quayLast (s : State) (f : Slot → Slot) : (s.modMe f).quayLast = s.quayLast := rfl
@[simp] theorem State.modMe_lives (s : State) (f : Slot → Slot) : (s.modMe f).lives = s.lives := rfl
@[simp] theorem State.modMe_pkg (s : State) (f : Slot → Slot) : (s.modMe f).pkg = s.pkg := rfl
@[simp] theorem State.modMe_cycle (s : State) (f : Slot → Slot) : (s.modMe f).cycle = s.cycle := rfl
@[simp] theorem State.modMe_agenda (s : State) (f : Slot → Slot) : (s.modMe f).agenda = s.agenda := rfl
@[simp] theorem State.modMe_held (s : State) (f : Slot → Slot) : (s.modMe f).held = s.held := rfl
@[simp] theorem State.modMe_pending (s : State) (f : Slot → Slot) : (s.modMe f).pending = s.pending := rfl
@[simp] theorem State.modMe_latched (s : State) (f : Slot → Slot) : (s.modMe f).latched = s.latched := rfl
@[simp] theorem State.modMe_closing (s : State) (f : Slot → Slot) : (s.modMe f).closing = s.closing := rfl
@[simp] theorem State.modMe_ticket (s : State) (f : Slot → Slot) : (s.modMe f).ticket = s.ticket := rfl
@[simp] theorem State.modMe_fresh (s : State) (f : Slot → Slot) : (s.modMe f).fresh = s.fresh := rfl

/-! ### What an update gives -/

@[simp] theorem State.setSlot_slot (s : State) (k : Nat) (x : Slot) : (s.setSlot k x).slot k = x := Tab.get_put_self _ _ _ _
@[simp] theorem State.modSlot_slot (s : State) (k : Nat) (f : Slot → Slot) : (s.modSlot k f).slot k = f (s.slot k) :=
  Tab.get_put_self _ _ _ _
theorem State.setSlot_slot_ne (s : State) {k j : Nat} (x : Slot) (h : j ≠ k) : (s.setSlot k x).slot j = s.slot j :=
  Tab.get_put_ne _ _ _ h
theorem State.modSlot_slot_ne (s : State) {k j : Nat} (f : Slot → Slot) (h : j ≠ k) : (s.modSlot k f).slot j = s.slot j :=
  Tab.get_put_ne _ _ _ h
@[simp] theorem State.modSlot_get_core (s : State) (k j : Nat) (f : Slot → Slot) : (s.modSlot k f).core j = s.core j := rfl
@[simp] theorem State.modSlot_get_quad (s : State) (k j : Nat) (f : Slot → Slot) : (s.modSlot k f).quad j = s.quad j := rfl
@[simp] theorem State.modSlot_get_ctx (s : State) (k j : Nat) (f : Slot → Slot) : (s.modSlot k f).ctx j = s.ctx j := rfl

@[simp] theorem State.setCore_core (s : State) (k : Nat) (x : CoreSt) : (s.setCore k x).core k = x := Tab.get_put_self _ _ _ _
@[simp] theorem State.modCore_core (s : State) (k : Nat) (f : CoreSt → CoreSt) : (s.modCore k f).core k = f (s.core k) :=
  Tab.get_put_self _ _ _ _
theorem State.setCore_core_ne (s : State) {k j : Nat} (x : CoreSt) (h : j ≠ k) : (s.setCore k x).core j = s.core j :=
  Tab.get_put_ne _ _ _ h
theorem State.modCore_core_ne (s : State) {k j : Nat} (f : CoreSt → CoreSt) (h : j ≠ k) : (s.modCore k f).core j = s.core j :=
  Tab.get_put_ne _ _ _ h
@[simp] theorem State.modCore_get_slot (s : State) (k j : Nat) (f : CoreSt → CoreSt) : (s.modCore k f).slot j = s.slot j := rfl
@[simp] theorem State.modCore_get_quad (s : State) (k j : Nat) (f : CoreSt → CoreSt) : (s.modCore k f).quad j = s.quad j := rfl
@[simp] theorem State.modCore_get_ctx (s : State) (k j : Nat) (f : CoreSt → CoreSt) : (s.modCore k f).ctx j = s.ctx j := rfl

@[simp] theorem State.setQuad_quad (s : State) (k : Nat) (x : QuadSt) : (s.setQuad k x).quad k = x := Tab.get_put_self _ _ _ _
@[simp] theorem State.modQuad_quad (s : State) (k : Nat) (f : QuadSt → QuadSt) : (s.modQuad k f).quad k = f (s.quad k) :=
  Tab.get_put_self _ _ _ _
theorem State.setQuad_quad_ne (s : State) {k j : Nat} (x : QuadSt) (h : j ≠ k) : (s.setQuad k x).quad j = s.quad j :=
  Tab.get_put_ne _ _ _ h
theorem State.modQuad_quad_ne (s : State) {k j : Nat} (f : QuadSt → QuadSt) (h : j ≠ k) : (s.modQuad k f).quad j = s.quad j :=
  Tab.get_put_ne _ _ _ h
@[simp] theorem State.modQuad_get_slot (s : State) (k j : Nat) (f : QuadSt → QuadSt) : (s.modQuad k f).slot j = s.slot j := rfl
@[simp] theorem State.modQuad_get_core (s : State) (k j : Nat) (f : QuadSt → QuadSt) : (s.modQuad k f).core j = s.core j := rfl
@[simp] theorem State.modQuad_get_ctx (s : State) (k j : Nat) (f : QuadSt → QuadSt) : (s.modQuad k f).ctx j = s.ctx j := rfl

@[simp] theorem State.setCtx_ctx (s : State) (k : Nat) (x : Ctx) : (s.setCtx k x).ctx k = x := Tab.get_put_self _ _ _ _
@[simp] theorem State.modCtx_ctx (s : State) (k : Nat) (f : Ctx → Ctx) : (s.modCtx k f).ctx k = f (s.ctx k) :=
  Tab.get_put_self _ _ _ _
theorem State.setCtx_ctx_ne (s : State) {k j : Nat} (x : Ctx) (h : j ≠ k) : (s.setCtx k x).ctx j = s.ctx j :=
  Tab.get_put_ne _ _ _ h
theorem State.modCtx_ctx_ne (s : State) {k j : Nat} (f : Ctx → Ctx) (h : j ≠ k) : (s.modCtx k f).ctx j = s.ctx j :=
  Tab.get_put_ne _ _ _ h
@[simp] theorem State.modCtx_get_slot (s : State) (k j : Nat) (f : Ctx → Ctx) : (s.modCtx k f).slot j = s.slot j := rfl
@[simp] theorem State.modCtx_get_core (s : State) (k j : Nat) (f : Ctx → Ctx) : (s.modCtx k f).core j = s.core j := rfl
@[simp] theorem State.modCtx_get_quad (s : State) (k j : Nat) (f : Ctx → Ctx) : (s.modCtx k f).quad j = s.quad j := rfl

@[simp] theorem State.modMe_me (s : State) (f : Slot → Slot) : (s.modMe f).me = f s.me := State.modSlot_slot s s.cur f
@[simp] theorem State.modPage_page (s : State) (n : Nat) (f : Page → Page) : (s.modPage n f).page n = f (s.page n) :=
  Tab.get_set_self _ _ _ _
theorem State.modPage_page_ne (s : State) {n m : Nat} (f : Page → Page) (h : m ≠ n) : (s.modPage n f).page m = s.page m :=
  Tab.get_set_ne _ _ _ h
@[simp] theorem State.modArena_arena (s : State) (n : Nat) (f : Arena → Arena) : (s.modArena n f).arena n = f (s.arena n) :=
  Tab.get_set_self _ _ _ _
theorem State.modArena_arena_ne (s : State) {n m : Nat} (f : Arena → Arena) (h : m ≠ n) :
    (s.modArena n f).arena m = s.arena m := Tab.get_set_ne _ _ _ h
@[simp] theorem State.modPkg_pkg (s : State) (f : Pkg → Pkg) : (s.modPkg f).pkg = f s.pkg := rfl
@[simp] theorem State.modPkg_get_slot (s : State) (f : Pkg → Pkg) (j : Nat) : (s.modPkg f).slot j = s.slot j := rfl
@[simp] theorem State.modPkg_get_core (s : State) (f : Pkg → Pkg) (j : Nat) : (s.modPkg f).core j = s.core j := rfl
@[simp] theorem State.modPkg_get_quad (s : State) (f : Pkg → Pkg) (j : Nat) : (s.modPkg f).quad j = s.quad j := rfl
@[simp] theorem State.modPkg_get_ctx (s : State) (f : Pkg → Pkg) (j : Nat) : (s.modPkg f).ctx j = s.ctx j := rfl
@[simp] theorem State.modPkg_get_page (s : State) (f : Pkg → Pkg) (j : Nat) : (s.modPkg f).page j = s.page j := rfl
@[simp] theorem State.modPkg_get_arena (s : State) (f : Pkg → Pkg) (j : Nat) : (s.modPkg f).arena j = s.arena j := rfl
@[simp] theorem State.modPage_get_slot (s : State) (k : Nat) (f : Page → Page) (j : Nat) : (s.modPage k f).slot j = s.slot j := rfl
@[simp] theorem State.modPage_get_core (s : State) (k : Nat) (f : Page → Page) (j : Nat) : (s.modPage k f).core j = s.core j := rfl
@[simp] theorem State.modPage_get_quad (s : State) (k : Nat) (f : Page → Page) (j : Nat) : (s.modPage k f).quad j = s.quad j := rfl
@[simp] theorem State.modPage_get_ctx (s : State) (k : Nat) (f : Page → Page) (j : Nat) : (s.modPage k f).ctx j = s.ctx j := rfl
@[simp] theorem State.modPage_get_arena (s : State) (k : Nat) (f : Page → Page) (j : Nat) : (s.modPage k f).arena j = s.arena j := rfl
@[simp] theorem State.modArena_get_slot (s : State) (k : Nat) (f : Arena → Arena) (j : Nat) : (s.modArena k f).slot j = s.slot j := rfl
@[simp] theorem State.modArena_get_core (s : State) (k : Nat) (f : Arena → Arena) (j : Nat) : (s.modArena k f).core j = s.core j := rfl
@[simp] theorem State.modArena_get_quad (s : State) (k : Nat) (f : Arena → Arena) (j : Nat) : (s.modArena k f).quad j = s.quad j := rfl
@[simp] theorem State.modArena_get_ctx (s : State) (k : Nat) (f : Arena → Arena) (j : Nat) : (s.modArena k f).ctx j = s.ctx j := rfl
@[simp] theorem State.modArena_get_page (s : State) (k : Nat) (f : Arena → Arena) (j : Nat) : (s.modArena k f).page j = s.page j := rfl
@[simp] theorem State.modSlot_get_page (s : State) (k : Nat) (f : Slot → Slot) (j : Nat) : (s.modSlot k f).page j = s.page j := rfl
@[simp] theorem State.modSlot_get_arena (s : State) (k : Nat) (f : Slot → Slot) (j : Nat) : (s.modSlot k f).arena j = s.arena j := rfl
@[simp] theorem State.modCore_get_page (s : State) (k : Nat) (f : CoreSt → CoreSt) (j : Nat) : (s.modCore k f).page j = s.page j := rfl
@[simp] theorem State.modCore_get_arena (s : State) (k : Nat) (f : CoreSt → CoreSt) (j : Nat) : (s.modCore k f).arena j = s.arena j := rfl
@[simp] theorem State.modQuad_get_page (s : State) (k : Nat) (f : QuadSt → QuadSt) (j : Nat) : (s.modQuad k f).page j = s.page j := rfl
@[simp] theorem State.modQuad_get_arena (s : State) (k : Nat) (f : QuadSt → QuadSt) (j : Nat) : (s.modQuad k f).arena j = s.arena j := rfl
@[simp] theorem State.modCtx_get_page (s : State) (k : Nat) (f : Ctx → Ctx) (j : Nat) : (s.modCtx k f).page j = s.page j := rfl
@[simp] theorem State.modCtx_get_arena (s : State) (k : Nat) (f : Ctx → Ctx) (j : Nat) : (s.modCtx k f).arena j = s.arena j := rfl

/-! ### A free value drawn -/

@[simp] theorem State.tick_value (s : State) : s.tick.1 = s.fresh := rfl
@[simp] theorem State.tick_fresh (s : State) : s.tick.2.fresh = s.fresh + 1 := rfl
@[simp] theorem State.tick_cur (s : State) : s.tick.2.cur = s.cur := rfl
@[simp] theorem State.tick_slots (s : State) : s.tick.2.slots = s.slots := rfl
@[simp] theorem State.tick_cores (s : State) : s.tick.2.cores = s.cores := rfl
@[simp] theorem State.tick_quads (s : State) : s.tick.2.quads = s.quads := rfl
@[simp] theorem State.tick_ctxs (s : State) : s.tick.2.ctxs = s.ctxs := rfl
@[simp] theorem State.tick_mem (s : State) : s.tick.2.mem = s.mem := rfl
@[simp] theorem State.tick_full (s : State) : s.tick.2.full = s.full := rfl
@[simp] theorem State.tick_poison (s : State) : s.tick.2.poison = s.poison := rfl
@[simp] theorem State.tick_lines (s : State) : s.tick.2.lines = s.lines := rfl
@[simp] theorem State.tick_pages (s : State) : s.tick.2.pages = s.pages := rfl
@[simp] theorem State.tick_arenas (s : State) : s.tick.2.arenas = s.arenas := rfl
@[simp] theorem State.tick_past (s : State) : s.tick.2.past = s.past := rfl
@[simp] theorem State.tick_writes (s : State) : s.tick.2.writes = s.writes := rfl
@[simp] theorem State.tick_llc (s : State) : s.tick.2.llc = s.llc := rfl
@[simp] theorem State.tick_damage (s : State) : s.tick.2.damage = s.damage := rfl
@[simp] theorem State.tick_sectorMap (s : State) : s.tick.2.sectorMap = s.sectorMap := rfl
@[simp] theorem State.tick_mapDamage (s : State) : s.tick.2.mapDamage = s.mapDamage := rfl
@[simp] theorem State.tick_overDamage (s : State) : s.tick.2.overDamage = s.overDamage := rfl
@[simp] theorem State.tick_stackCopies (s : State) : s.tick.2.stackCopies = s.stackCopies := rfl
@[simp] theorem State.tick_quayLast (s : State) : s.tick.2.quayLast = s.quayLast := rfl
@[simp] theorem State.tick_lives (s : State) : s.tick.2.lives = s.lives := rfl
@[simp] theorem State.tick_pkg (s : State) : s.tick.2.pkg = s.pkg := rfl
@[simp] theorem State.tick_cycle (s : State) : s.tick.2.cycle = s.cycle := rfl
@[simp] theorem State.tick_agenda (s : State) : s.tick.2.agenda = s.agenda := rfl
@[simp] theorem State.tick_held (s : State) : s.tick.2.held = s.held := rfl
@[simp] theorem State.tick_pending (s : State) : s.tick.2.pending = s.pending := rfl
@[simp] theorem State.tick_latched (s : State) : s.tick.2.latched = s.latched := rfl
@[simp] theorem State.tick_closing (s : State) : s.tick.2.closing = s.closing := rfl
@[simp] theorem State.tick_ticket (s : State) : s.tick.2.ticket = s.ticket := rfl
@[simp] theorem State.tick_get_slot (s : State) (j : Nat) : s.tick.2.slot j = s.slot j := rfl
@[simp] theorem State.tick_get_core (s : State) (j : Nat) : s.tick.2.core j = s.core j := rfl
@[simp] theorem State.tick_get_quad (s : State) (j : Nat) : s.tick.2.quad j = s.quad j := rfl
@[simp] theorem State.tick_get_ctx (s : State) (j : Nat) : s.tick.2.ctx j = s.ctx j := rfl
@[simp] theorem State.tick_get_page (s : State) (j : Nat) : s.tick.2.page j = s.page j := rfl
@[simp] theorem State.tick_get_arena (s : State) (j : Nat) : s.tick.2.arena j = s.arena j := rfl

end Machine
end Sys2Proof
end

