-- ==== Sys2Proof/Laws/Regs.lean ====
section
/-! SUPPORT. What reading and writing registers and queues changes: the slot's registers and the queues, nothing else. -/

namespace Sys2Proof.Machine

/-! ### Fields that stay -/

@[simp] theorem qSet_cur (s : State) (c q : Nat) (es : List Word) (bad : List Bool) : (qSet s c q es bad).cur = s.cur := by
  unfold qSet; dsimp only; split <;> rfl
@[simp] theorem readReg_cur (s : State) (k : Nat) (r : Reg) : (readReg s k r).2.cur = s.cur := by
  unfold readReg; split
  · split <;> simp
  · rfl
@[simp] theorem readRegs_cur (s : State) (k : Nat) (rs : List Reg) : (readRegs s k rs).2.cur = s.cur := by
  induction rs generalizing s with
  | nil => rfl
  | cons r t ih => simp [readRegs, ih]
@[simp] theorem writeReg_cur (s : State) (k : Nat) (d : Reg) (v : Word) : (writeReg s k d v).cur = s.cur := by
  unfold writeReg; split <;> simp
@[simp] theorem qSet_slots (s : State) (c q : Nat) (es : List Word) (bad : List Bool) : (qSet s c q es bad).slots = s.slots := by
  unfold qSet; dsimp only; split <;> rfl
@[simp] theorem readReg_slots (s : State) (k : Nat) (r : Reg) : (readReg s k r).2.slots = s.slots := by
  unfold readReg; split
  · split <;> simp
  · rfl
@[simp] theorem readRegs_slots (s : State) (k : Nat) (rs : List Reg) : (readRegs s k rs).2.slots = s.slots := by
  induction rs generalizing s with
  | nil => rfl
  | cons r t ih => simp [readRegs, ih]
@[simp] theorem qSet_ctxs (s : State) (c q : Nat) (es : List Word) (bad : List Bool) : (qSet s c q es bad).ctxs = s.ctxs := by
  unfold qSet; dsimp only; split <;> rfl
@[simp] theorem readReg_ctxs (s : State) (k : Nat) (r : Reg) : (readReg s k r).2.ctxs = s.ctxs := by
  unfold readReg; split
  · split <;> simp
  · rfl
@[simp] theorem readRegs_ctxs (s : State) (k : Nat) (rs : List Reg) : (readRegs s k rs).2.ctxs = s.ctxs := by
  induction rs generalizing s with
  | nil => rfl
  | cons r t ih => simp [readRegs, ih]
@[simp] theorem writeReg_ctxs (s : State) (k : Nat) (d : Reg) (v : Word) : (writeReg s k d v).ctxs = s.ctxs := by
  unfold writeReg; split <;> simp
@[simp] theorem qSet_mem (s : State) (c q : Nat) (es : List Word) (bad : List Bool) : (qSet s c q es bad).mem = s.mem := by
  unfold qSet; dsimp only; split <;> rfl
@[simp] theorem readReg_mem (s : State) (k : Nat) (r : Reg) : (readReg s k r).2.mem = s.mem := by
  unfold readReg; split
  · split <;> simp
  · rfl
@[simp] theorem readRegs_mem (s : State) (k : Nat) (rs : List Reg) : (readRegs s k rs).2.mem = s.mem := by
  induction rs generalizing s with
  | nil => rfl
  | cons r t ih => simp [readRegs, ih]
@[simp] theorem writeReg_mem (s : State) (k : Nat) (d : Reg) (v : Word) : (writeReg s k d v).mem = s.mem := by
  unfold writeReg; split <;> simp
@[simp] theorem qSet_full (s : State) (c q : Nat) (es : List Word) (bad : List Bool) : (qSet s c q es bad).full = s.full := by
  unfold qSet; dsimp only; split <;> rfl
@[simp] theorem readReg_full (s : State) (k : Nat) (r : Reg) : (readReg s k r).2.full = s.full := by
  unfold readReg; split
  · split <;> simp
  · rfl
@[simp] theorem readRegs_full (s : State) (k : Nat) (rs : List Reg) : (readRegs s k rs).2.full = s.full := by
  induction rs generalizing s with
  | nil => rfl
  | cons r t ih => simp [readRegs, ih]
@[simp] theorem writeReg_full (s : State) (k : Nat) (d : Reg) (v : Word) : (writeReg s k d v).full = s.full := by
  unfold writeReg; split <;> simp
@[simp] theorem qSet_poison (s : State) (c q : Nat) (es : List Word) (bad : List Bool) : (qSet s c q es bad).poison = s.poison := by
  unfold qSet; dsimp only; split <;> rfl
@[simp] theorem readReg_poison (s : State) (k : Nat) (r : Reg) : (readReg s k r).2.poison = s.poison := by
  unfold readReg; split
  · split <;> simp
  · rfl
@[simp] theorem readRegs_poison (s : State) (k : Nat) (rs : List Reg) : (readRegs s k rs).2.poison = s.poison := by
  induction rs generalizing s with
  | nil => rfl
  | cons r t ih => simp [readRegs, ih]
@[simp] theorem writeReg_poison (s : State) (k : Nat) (d : Reg) (v : Word) : (writeReg s k d v).poison = s.poison := by
  unfold writeReg; split <;> simp
@[simp] theorem qSet_lines (s : State) (c q : Nat) (es : List Word) (bad : List Bool) : (qSet s c q es bad).lines = s.lines := by
  unfold qSet; dsimp only; split <;> rfl
@[simp] theorem readReg_lines (s : State) (k : Nat) (r : Reg) : (readReg s k r).2.lines = s.lines := by
  unfold readReg; split
  · split <;> simp
  · rfl
@[simp] theorem readRegs_lines (s : State) (k : Nat) (rs : List Reg) : (readRegs s k rs).2.lines = s.lines := by
  induction rs generalizing s with
  | nil => rfl
  | cons r t ih => simp [readRegs, ih]
@[simp] theorem writeReg_lines (s : State) (k : Nat) (d : Reg) (v : Word) : (writeReg s k d v).lines = s.lines := by
  unfold writeReg; split <;> simp
@[simp] theorem qSet_pages (s : State) (c q : Nat) (es : List Word) (bad : List Bool) : (qSet s c q es bad).pages = s.pages := by
  unfold qSet; dsimp only; split <;> rfl
@[simp] theorem readReg_pages (s : State) (k : Nat) (r : Reg) : (readReg s k r).2.pages = s.pages := by
  unfold readReg; split
  · split <;> simp
  · rfl
@[simp] theorem readRegs_pages (s : State) (k : Nat) (rs : List Reg) : (readRegs s k rs).2.pages = s.pages := by
  induction rs generalizing s with
  | nil => rfl
  | cons r t ih => simp [readRegs, ih]
@[simp] theorem writeReg_pages (s : State) (k : Nat) (d : Reg) (v : Word) : (writeReg s k d v).pages = s.pages := by
  unfold writeReg; split <;> simp
@[simp] theorem qSet_arenas (s : State) (c q : Nat) (es : List Word) (bad : List Bool) : (qSet s c q es bad).arenas = s.arenas := by
  unfold qSet; dsimp only; split <;> rfl
@[simp] theorem readReg_arenas (s : State) (k : Nat) (r : Reg) : (readReg s k r).2.arenas = s.arenas := by
  unfold readReg; split
  · split <;> simp
  · rfl
@[simp] theorem readRegs_arenas (s : State) (k : Nat) (rs : List Reg) : (readRegs s k rs).2.arenas = s.arenas := by
  induction rs generalizing s with
  | nil => rfl
  | cons r t ih => simp [readRegs, ih]
@[simp] theorem writeReg_arenas (s : State) (k : Nat) (d : Reg) (v : Word) : (writeReg s k d v).arenas = s.arenas := by
  unfold writeReg; split <;> simp
@[simp] theorem qSet_past (s : State) (c q : Nat) (es : List Word) (bad : List Bool) : (qSet s c q es bad).past = s.past := by
  unfold qSet; dsimp only; split <;> rfl
@[simp] theorem readReg_past (s : State) (k : Nat) (r : Reg) : (readReg s k r).2.past = s.past := by
  unfold readReg; split
  · split <;> simp
  · rfl
@[simp] theorem readRegs_past (s : State) (k : Nat) (rs : List Reg) : (readRegs s k rs).2.past = s.past := by
  induction rs generalizing s with
  | nil => rfl
  | cons r t ih => simp [readRegs, ih]
@[simp] theorem writeReg_past (s : State) (k : Nat) (d : Reg) (v : Word) : (writeReg s k d v).past = s.past := by
  unfold writeReg; split <;> simp
@[simp] theorem qSet_writes (s : State) (c q : Nat) (es : List Word) (bad : List Bool) : (qSet s c q es bad).writes = s.writes := by
  unfold qSet; dsimp only; split <;> rfl
@[simp] theorem readReg_writes (s : State) (k : Nat) (r : Reg) : (readReg s k r).2.writes = s.writes := by
  unfold readReg; split
  · split <;> simp
  · rfl
@[simp] theorem readRegs_writes (s : State) (k : Nat) (rs : List Reg) : (readRegs s k rs).2.writes = s.writes := by
  induction rs generalizing s with
  | nil => rfl
  | cons r t ih => simp [readRegs, ih]
@[simp] theorem writeReg_writes (s : State) (k : Nat) (d : Reg) (v : Word) : (writeReg s k d v).writes = s.writes := by
  unfold writeReg; split <;> simp
@[simp] theorem qSet_llc (s : State) (c q : Nat) (es : List Word) (bad : List Bool) : (qSet s c q es bad).llc = s.llc := by
  unfold qSet; dsimp only; split <;> rfl
@[simp] theorem readReg_llc (s : State) (k : Nat) (r : Reg) : (readReg s k r).2.llc = s.llc := by
  unfold readReg; split
  · split <;> simp
  · rfl
@[simp] theorem readRegs_llc (s : State) (k : Nat) (rs : List Reg) : (readRegs s k rs).2.llc = s.llc := by
  induction rs generalizing s with
  | nil => rfl
  | cons r t ih => simp [readRegs, ih]
@[simp] theorem writeReg_llc (s : State) (k : Nat) (d : Reg) (v : Word) : (writeReg s k d v).llc = s.llc := by
  unfold writeReg; split <;> simp
@[simp] theorem qSet_damage (s : State) (c q : Nat) (es : List Word) (bad : List Bool) : (qSet s c q es bad).damage = s.damage := by
  unfold qSet; dsimp only; split <;> rfl
@[simp] theorem readReg_damage (s : State) (k : Nat) (r : Reg) : (readReg s k r).2.damage = s.damage := by
  unfold readReg; split
  · split <;> simp
  · rfl
@[simp] theorem readRegs_damage (s : State) (k : Nat) (rs : List Reg) : (readRegs s k rs).2.damage = s.damage := by
  induction rs generalizing s with
  | nil => rfl
  | cons r t ih => simp [readRegs, ih]
@[simp] theorem writeReg_damage (s : State) (k : Nat) (d : Reg) (v : Word) : (writeReg s k d v).damage = s.damage := by
  unfold writeReg; split <;> simp
@[simp] theorem qSet_sectorMap (s : State) (c q : Nat) (es : List Word) (bad : List Bool) : (qSet s c q es bad).sectorMap = s.sectorMap := by
  unfold qSet; dsimp only; split <;> rfl
@[simp] theorem readReg_sectorMap (s : State) (k : Nat) (r : Reg) : (readReg s k r).2.sectorMap = s.sectorMap := by
  unfold readReg; split
  · split <;> simp
  · rfl
@[simp] theorem readRegs_sectorMap (s : State) (k : Nat) (rs : List Reg) : (readRegs s k rs).2.sectorMap = s.sectorMap := by
  induction rs generalizing s with
  | nil => rfl
  | cons r t ih => simp [readRegs, ih]
@[simp] theorem writeReg_sectorMap (s : State) (k : Nat) (d : Reg) (v : Word) : (writeReg s k d v).sectorMap = s.sectorMap := by
  unfold writeReg; split <;> simp
@[simp] theorem qSet_mapDamage (s : State) (c q : Nat) (es : List Word) (bad : List Bool) : (qSet s c q es bad).mapDamage = s.mapDamage := by
  unfold qSet; dsimp only; split <;> rfl
@[simp] theorem readReg_mapDamage (s : State) (k : Nat) (r : Reg) : (readReg s k r).2.mapDamage = s.mapDamage := by
  unfold readReg; split
  · split <;> simp
  · rfl
@[simp] theorem readRegs_mapDamage (s : State) (k : Nat) (rs : List Reg) : (readRegs s k rs).2.mapDamage = s.mapDamage := by
  induction rs generalizing s with
  | nil => rfl
  | cons r t ih => simp [readRegs, ih]
@[simp] theorem writeReg_mapDamage (s : State) (k : Nat) (d : Reg) (v : Word) : (writeReg s k d v).mapDamage = s.mapDamage := by
  unfold writeReg; split <;> simp
@[simp] theorem qSet_overDamage (s : State) (c q : Nat) (es : List Word) (bad : List Bool) : (qSet s c q es bad).overDamage = s.overDamage := by
  unfold qSet; dsimp only; split <;> rfl
@[simp] theorem readReg_overDamage (s : State) (k : Nat) (r : Reg) : (readReg s k r).2.overDamage = s.overDamage := by
  unfold readReg; split
  · split <;> simp
  · rfl
@[simp] theorem readRegs_overDamage (s : State) (k : Nat) (rs : List Reg) : (readRegs s k rs).2.overDamage = s.overDamage := by
  induction rs generalizing s with
  | nil => rfl
  | cons r t ih => simp [readRegs, ih]
@[simp] theorem writeReg_overDamage (s : State) (k : Nat) (d : Reg) (v : Word) : (writeReg s k d v).overDamage = s.overDamage := by
  unfold writeReg; split <;> simp
@[simp] theorem qSet_stackCopies (s : State) (c q : Nat) (es : List Word) (bad : List Bool) : (qSet s c q es bad).stackCopies = s.stackCopies := by
  unfold qSet; dsimp only; split <;> rfl
@[simp] theorem readReg_stackCopies (s : State) (k : Nat) (r : Reg) : (readReg s k r).2.stackCopies = s.stackCopies := by
  unfold readReg; split
  · split <;> simp
  · rfl
@[simp] theorem readRegs_stackCopies (s : State) (k : Nat) (rs : List Reg) : (readRegs s k rs).2.stackCopies = s.stackCopies := by
  induction rs generalizing s with
  | nil => rfl
  | cons r t ih => simp [readRegs, ih]
@[simp] theorem writeReg_stackCopies (s : State) (k : Nat) (d : Reg) (v : Word) : (writeReg s k d v).stackCopies = s.stackCopies := by
  unfold writeReg; split <;> simp
@[simp] theorem qSet_quayLast (s : State) (c q : Nat) (es : List Word) (bad : List Bool) : (qSet s c q es bad).quayLast = s.quayLast := by
  unfold qSet; dsimp only; split <;> rfl
@[simp] theorem readReg_quayLast (s : State) (k : Nat) (r : Reg) : (readReg s k r).2.quayLast = s.quayLast := by
  unfold readReg; split
  · split <;> simp
  · rfl
@[simp] theorem readRegs_quayLast (s : State) (k : Nat) (rs : List Reg) : (readRegs s k rs).2.quayLast = s.quayLast := by
  induction rs generalizing s with
  | nil => rfl
  | cons r t ih => simp [readRegs, ih]
@[simp] theorem writeReg_quayLast (s : State) (k : Nat) (d : Reg) (v : Word) : (writeReg s k d v).quayLast = s.quayLast := by
  unfold writeReg; split <;> simp
@[simp] theorem qSet_lives (s : State) (c q : Nat) (es : List Word) (bad : List Bool) : (qSet s c q es bad).lives = s.lives := by
  unfold qSet; dsimp only; split <;> rfl
@[simp] theorem readReg_lives (s : State) (k : Nat) (r : Reg) : (readReg s k r).2.lives = s.lives := by
  unfold readReg; split
  · split <;> simp
  · rfl
@[simp] theorem readRegs_lives (s : State) (k : Nat) (rs : List Reg) : (readRegs s k rs).2.lives = s.lives := by
  induction rs generalizing s with
  | nil => rfl
  | cons r t ih => simp [readRegs, ih]
@[simp] theorem writeReg_lives (s : State) (k : Nat) (d : Reg) (v : Word) : (writeReg s k d v).lives = s.lives := by
  unfold writeReg; split <;> simp
@[simp] theorem qSet_pkg (s : State) (c q : Nat) (es : List Word) (bad : List Bool) : (qSet s c q es bad).pkg = s.pkg := by
  unfold qSet; dsimp only; split <;> rfl
@[simp] theorem readReg_pkg (s : State) (k : Nat) (r : Reg) : (readReg s k r).2.pkg = s.pkg := by
  unfold readReg; split
  · split <;> simp
  · rfl
@[simp] theorem readRegs_pkg (s : State) (k : Nat) (rs : List Reg) : (readRegs s k rs).2.pkg = s.pkg := by
  induction rs generalizing s with
  | nil => rfl
  | cons r t ih => simp [readRegs, ih]
@[simp] theorem writeReg_pkg (s : State) (k : Nat) (d : Reg) (v : Word) : (writeReg s k d v).pkg = s.pkg := by
  unfold writeReg; split <;> simp
@[simp] theorem qSet_cycle (s : State) (c q : Nat) (es : List Word) (bad : List Bool) : (qSet s c q es bad).cycle = s.cycle := by
  unfold qSet; dsimp only; split <;> rfl
@[simp] theorem readReg_cycle (s : State) (k : Nat) (r : Reg) : (readReg s k r).2.cycle = s.cycle := by
  unfold readReg; split
  · split <;> simp
  · rfl
@[simp] theorem readRegs_cycle (s : State) (k : Nat) (rs : List Reg) : (readRegs s k rs).2.cycle = s.cycle := by
  induction rs generalizing s with
  | nil => rfl
  | cons r t ih => simp [readRegs, ih]
@[simp] theorem writeReg_cycle (s : State) (k : Nat) (d : Reg) (v : Word) : (writeReg s k d v).cycle = s.cycle := by
  unfold writeReg; split <;> simp
@[simp] theorem qSet_agenda (s : State) (c q : Nat) (es : List Word) (bad : List Bool) : (qSet s c q es bad).agenda = s.agenda := by
  unfold qSet; dsimp only; split <;> rfl
@[simp] theorem readReg_agenda (s : State) (k : Nat) (r : Reg) : (readReg s k r).2.agenda = s.agenda := by
  unfold readReg; split
  · split <;> simp
  · rfl
@[simp] theorem readRegs_agenda (s : State) (k : Nat) (rs : List Reg) : (readRegs s k rs).2.agenda = s.agenda := by
  induction rs generalizing s with
  | nil => rfl
  | cons r t ih => simp [readRegs, ih]
@[simp] theorem writeReg_agenda (s : State) (k : Nat) (d : Reg) (v : Word) : (writeReg s k d v).agenda = s.agenda := by
  unfold writeReg; split <;> simp
@[simp] theorem qSet_held (s : State) (c q : Nat) (es : List Word) (bad : List Bool) : (qSet s c q es bad).held = s.held := by
  unfold qSet; dsimp only; split <;> rfl
@[simp] theorem readReg_held (s : State) (k : Nat) (r : Reg) : (readReg s k r).2.held = s.held := by
  unfold readReg; split
  · split <;> simp
  · rfl
@[simp] theorem readRegs_held (s : State) (k : Nat) (rs : List Reg) : (readRegs s k rs).2.held = s.held := by
  induction rs generalizing s with
  | nil => rfl
  | cons r t ih => simp [readRegs, ih]
@[simp] theorem writeReg_held (s : State) (k : Nat) (d : Reg) (v : Word) : (writeReg s k d v).held = s.held := by
  unfold writeReg; split <;> simp
@[simp] theorem qSet_pending (s : State) (c q : Nat) (es : List Word) (bad : List Bool) : (qSet s c q es bad).pending = s.pending := by
  unfold qSet; dsimp only; split <;> rfl
@[simp] theorem readReg_pending (s : State) (k : Nat) (r : Reg) : (readReg s k r).2.pending = s.pending := by
  unfold readReg; split
  · split <;> simp
  · rfl
@[simp] theorem readRegs_pending (s : State) (k : Nat) (rs : List Reg) : (readRegs s k rs).2.pending = s.pending := by
  induction rs generalizing s with
  | nil => rfl
  | cons r t ih => simp [readRegs, ih]
@[simp] theorem writeReg_pending (s : State) (k : Nat) (d : Reg) (v : Word) : (writeReg s k d v).pending = s.pending := by
  unfold writeReg; split <;> simp
@[simp] theorem qSet_latched (s : State) (c q : Nat) (es : List Word) (bad : List Bool) : (qSet s c q es bad).latched = s.latched := by
  unfold qSet; dsimp only; split <;> rfl
@[simp] theorem readReg_latched (s : State) (k : Nat) (r : Reg) : (readReg s k r).2.latched = s.latched := by
  unfold readReg; split
  · split <;> simp
  · rfl
@[simp] theorem readRegs_latched (s : State) (k : Nat) (rs : List Reg) : (readRegs s k rs).2.latched = s.latched := by
  induction rs generalizing s with
  | nil => rfl
  | cons r t ih => simp [readRegs, ih]
@[simp] theorem writeReg_latched (s : State) (k : Nat) (d : Reg) (v : Word) : (writeReg s k d v).latched = s.latched := by
  unfold writeReg; split <;> simp
@[simp] theorem qSet_closing (s : State) (c q : Nat) (es : List Word) (bad : List Bool) : (qSet s c q es bad).closing = s.closing := by
  unfold qSet; dsimp only; split <;> rfl
@[simp] theorem readReg_closing (s : State) (k : Nat) (r : Reg) : (readReg s k r).2.closing = s.closing := by
  unfold readReg; split
  · split <;> simp
  · rfl
@[simp] theorem readRegs_closing (s : State) (k : Nat) (rs : List Reg) : (readRegs s k rs).2.closing = s.closing := by
  induction rs generalizing s with
  | nil => rfl
  | cons r t ih => simp [readRegs, ih]
@[simp] theorem writeReg_closing (s : State) (k : Nat) (d : Reg) (v : Word) : (writeReg s k d v).closing = s.closing := by
  unfold writeReg; split <;> simp
@[simp] theorem qSet_ticket (s : State) (c q : Nat) (es : List Word) (bad : List Bool) : (qSet s c q es bad).ticket = s.ticket := by
  unfold qSet; dsimp only; split <;> rfl
@[simp] theorem readReg_ticket (s : State) (k : Nat) (r : Reg) : (readReg s k r).2.ticket = s.ticket := by
  unfold readReg; split
  · split <;> simp
  · rfl
@[simp] theorem readRegs_ticket (s : State) (k : Nat) (rs : List Reg) : (readRegs s k rs).2.ticket = s.ticket := by
  induction rs generalizing s with
  | nil => rfl
  | cons r t ih => simp [readRegs, ih]
@[simp] theorem writeReg_ticket (s : State) (k : Nat) (d : Reg) (v : Word) : (writeReg s k d v).ticket = s.ticket := by
  unfold writeReg; split <;> simp
@[simp] theorem qSet_fresh (s : State) (c q : Nat) (es : List Word) (bad : List Bool) : (qSet s c q es bad).fresh = s.fresh := by
  unfold qSet; dsimp only; split <;> rfl
@[simp] theorem readReg_fresh (s : State) (k : Nat) (r : Reg) : (readReg s k r).2.fresh = s.fresh := by
  unfold readReg; split
  · split <;> simp
  · rfl
@[simp] theorem readRegs_fresh (s : State) (k : Nat) (rs : List Reg) : (readRegs s k rs).2.fresh = s.fresh := by
  induction rs generalizing s with
  | nil => rfl
  | cons r t ih => simp [readRegs, ih]
@[simp] theorem writeReg_fresh (s : State) (k : Nat) (d : Reg) (v : Word) : (writeReg s k d v).fresh = s.fresh := by
  unfold writeReg; split <;> simp

/-! ### Values -/

/-- Reading registers that are no queues changes nothing. -/
theorem readRegs_general (s : State) (k : Nat) (rs : List Reg) (h : ∀ r ∈ rs, r.isQueue = false) :
    readRegs s k rs = (rs.map fun r => (s.slot k).getG r, s) := by
  induction rs with
  | nil => rfl
  | cons r t ih => simp [readRegs, readReg, h r (by simp), ih fun r hr => h r (by simp [hr])]

/-- A write mends its register and leaves the values alone (R389). -/
theorem mended_eq (x : Slot) (n : Nat) : x.mended n = { x with bad := if x.bad.isEmpty then x.bad else x.bad.erase n } := by
  unfold Slot.mended; split <;> rfl

@[simp] theorem getG_mended (x : Slot) (n : Nat) (r : Reg) : (x.mended n).getG r = x.getG r := by rw [mended_eq]; rfl
@[simp] theorem getP_mended (x : Slot) (n : Nat) (r : PReg) : (x.mended n).getP r = x.getP r := by rw [mended_eq]; rfl

/-- A general register reads the value just written, g0 reads zero, and the others read as before (R21). -/
theorem getG_setG (x : Slot) (d r : Reg) (v : Word) :
    (x.setG d v).getG r = if r = 0 then 0 else if r = d then v else x.getG r := by
  unfold Slot.setG Slot.getG
  by_cases hr : r = 0
  · rw [if_pos hr, if_pos hr]
  · rw [if_neg hr, if_neg hr]
    by_cases hd : d = 0
    · have h : r ≠ d := fun h => hr (h.trans hd)
      rw [if_pos hd, if_neg h, if_neg hr]
    · rw [if_neg hd, mended_eq]
      by_cases h : r = d
      · rw [if_pos h, h]; exact Tab.get_set_self _ _ _ _
      · have : r.toNat ≠ d.toNat := fun e => h (BitVec.eq_of_toNat_eq e)
        rw [if_neg h, if_neg hr]; exact Tab.get_set_ne _ _ _ this

theorem pbit_set (p : BitVec 7) (d r : Nat) (b : Bool) (hr : r < 7) :
    (if b then p ||| (1#7 <<< d) else p &&& ~~~ (1#7 <<< d)).getLsbD r = if r = d then b else p.getLsbD r := by
  by_cases h : r = d
  · subst h; cases b <;> simp [hr]
  · have : ¬ (r < d) → r - d ≠ 0 := by omega
    cases b <;> simp [hr, h] <;> intro <;> omega

/-- A predicate reads the value just written, p7 reads 1, and the others read as before (R21). -/
theorem getP_setP (x : Slot) (d r : PReg) (b : Bool) :
    (x.setP d b).getP r = if r = 7 then true else if r = d then b else x.getP r := by
  unfold Slot.setP Slot.getP
  by_cases hr : r = 7
  · rw [if_pos hr, if_pos hr]
  · have hr7 : r.toNat < 7 := by
      have : r.toNat ≠ 7 := fun h => hr (BitVec.eq_of_toNat_eq (by simpa using h))
      omega
    rw [if_neg hr, if_neg hr]
    by_cases hd : d = 7
    · have h : r ≠ d := fun h => hr (h.trans hd)
      rw [if_pos hd, if_neg h, if_neg hr]
    · rw [if_neg hd, if_neg hr, mended_eq]
      refine (pbit_set _ _ _ _ hr7).trans ?_
      by_cases h : r = d
      · rw [if_pos h, if_pos (congrArg _ h)]
      · rw [if_neg h, if_neg fun e => h (BitVec.eq_of_toNat_eq e)]

end Sys2Proof.Machine
end

