-- ==== Sys2Proof/Laws/Issue.lean ====
section
/-! SUPPORT. What the issue of an instruction does when the instruction is ready: its body decides, and nothing else happens before
it. -/

namespace Sys2Proof.Machine

open Sys2Proof.Safety

@[simp] theorem operands_nil (s : State) : operands s [] = [] := rfl
@[simp] theorem popped_nil (s : State) : popped s [] = s := rfl

@[simp] theorem popped_cur (s : State) (rs : List Reg) : (popped s rs).cur = s.cur := readRegs_cur s s.cur rs
@[simp] theorem popped_slots (s : State) (rs : List Reg) : (popped s rs).slots = s.slots := readRegs_slots s s.cur rs
@[simp] theorem popped_ctxs (s : State) (rs : List Reg) : (popped s rs).ctxs = s.ctxs := readRegs_ctxs s s.cur rs
@[simp] theorem popped_mem (s : State) (rs : List Reg) : (popped s rs).mem = s.mem := readRegs_mem s s.cur rs
@[simp] theorem popped_full (s : State) (rs : List Reg) : (popped s rs).full = s.full := readRegs_full s s.cur rs
@[simp] theorem popped_poison (s : State) (rs : List Reg) : (popped s rs).poison = s.poison := readRegs_poison s s.cur rs
@[simp] theorem popped_lines (s : State) (rs : List Reg) : (popped s rs).lines = s.lines := readRegs_lines s s.cur rs
@[simp] theorem popped_pages (s : State) (rs : List Reg) : (popped s rs).pages = s.pages := readRegs_pages s s.cur rs
@[simp] theorem popped_arenas (s : State) (rs : List Reg) : (popped s rs).arenas = s.arenas := readRegs_arenas s s.cur rs
@[simp] theorem popped_damage (s : State) (rs : List Reg) : (popped s rs).damage = s.damage := readRegs_damage s s.cur rs
@[simp] theorem popped_pkg (s : State) (rs : List Reg) : (popped s rs).pkg = s.pkg := readRegs_pkg s s.cur rs
@[simp] theorem popped_cycle (s : State) (rs : List Reg) : (popped s rs).cycle = s.cycle := readRegs_cycle s s.cur rs
@[simp] theorem popped_agenda (s : State) (rs : List Reg) : (popped s rs).agenda = s.agenda := readRegs_agenda s s.cur rs
@[simp] theorem popped_pending (s : State) (rs : List Reg) : (popped s rs).pending = s.pending := readRegs_pending s s.cur rs
@[simp] theorem popped_ticket (s : State) (rs : List Reg) : (popped s rs).ticket = s.ticket := readRegs_ticket s s.cur rs
@[simp] theorem popped_fresh (s : State) (rs : List Reg) : (popped s rs).fresh = s.fresh := readRegs_fresh s s.cur rs
@[simp] theorem popped_me (s : State) (rs : List Reg) : (popped s rs).me = s.me := by
  simp [State.me, State.slot]
@[simp] theorem popped_slot (s : State) (rs : List Reg) (k : Nat) : (popped s rs).slot k = s.slot k := by simp [State.slot]

/-- The parts of readiness. -/
theorem ready_parts {i : Instr} {h : Hdr} {srcs also : List Reg} {dst : Option Reg} {s : State}
    (hr : ready i h srcs dst s also = true) :
    absent s s.cur i = false ∧ s.me.bad.get false (badPred h.pg.toNat) = false ∧ guardOf s.me h = true ∧
      interlocked s s.cur (srcs ++ also ++ dst.toList ++ secondDst i) = false ∧ orderHeld s s.cur i = false ∧ popShort s s.cur srcs = none ∧
      badSource s s.cur (srcs ++ also) = false ∧ badReads s s.cur i = false ∧ (dst.filter fun d => pushShort s s.cur srcs d) = none := by
  simp only [ready, reachesBody, Bool.and_eq_true, Bool.not_eq_true', Option.isNone_iff_eq_none] at hr
  obtain ⟨⟨⟨⟨⟨⟨⟨⟨h1, h2⟩, h3⟩, h4⟩, h5⟩, h6⟩, h8⟩, h7⟩, h9⟩ := hr
  refine ⟨h1, h2, h3, h4, h5, h6, h7, h9, ?_⟩
  cases dst with
  | none => rfl
  | some d => simp at h8; simp [Option.filter, h8]

/-- Where no source, register or queue entry, holds an error, and nothing else that the instruction reads does, none of its registers does. -/
theorem badRegs_of_badSource {s : State} {k : Nat} {op : Op} (hs : badSource s k (op.srcs ++ op.also) = false)
    (hr : badReads s k op.i = false) : badRegs s k op = false := by
  rw [badRegs, hr, Bool.or_false, List.any_eq_false]
  intro r hm hb
  obtain ⟨n, hn, rfl⟩ := List.getElem_of_mem hm
  have h := List.any_eq_false.1 hs (_, n) (List.mk_mem_zipIdx_iff_getElem?.2 (List.getElem?_eq_getElem hn))
  simp only [Bool.and_eq_true, Bool.not_eq_true', bne_iff_ne] at hb
  simp only [hb.1.1, hb.2, Bool.false_eq_true, if_false, Bool.and_true, bne_iff_ne] at h
  exact h hb.1.2

/-- A ready instruction outside a checked pair, or one that each slot of a pair performs for itself, does what its body says of the
operand values and of the state after the pops. -/
theorem issue_ready {i : Instr} {h : Hdr} {srcs also : List Reg} {dst : Option Reg} {lat : Nat} {pair : Pairing}
    {body : List Word → State → Res} {s : State} (hr : ready i h srcs dst s also = true) (hp : pair = .own ∨ s.me.chk = 0) :
    issue ⟨i, h, srcs, dst, also, lat, pair⟩ body s = .next (match body (operands s srcs) (popped s srcs) with
      | .ok (t, n) => finish t s.cur i.bytes (latencyOf t s.cur i lat) n
      | .error (.trap t) => raiseOp s s.cur ⟨i, h, srcs, dst, also, lat, pair⟩ t
      | .error (.fault t left) => raiseOp (unpop s left s.cur srcs) s.cur ⟨i, h, srcs, dst, also, lat, pair⟩ t
      | .error (.block w left) => blockOn s s.cur ⟨i, h, srcs, dst, also, lat, pair⟩ w left
      | .error (.poll w left) => blockOn (unpop s left s.cur srcs) s.cur ⟨i, h, srcs, dst, also, lat, pair⟩ w none
      | .error .hold => holdSlot s s.cur
      | .error (.path ea need) => pathWait s s.cur ea need
      | .error (.skip b) => holdSlot (reserveLatch s s.cur b) s.cur) := by
  obtain ⟨h1, h2, h3, h4, h5, h6, h7, h9, h8⟩ := ready_parts hr
  have hb : badRegs s s.cur ⟨i, h, srcs, dst, also, lat, pair⟩ = false := badRegs_of_badSource h7 h9
  simp only [issue, Op.regs, h1, h2, h3, h4, h5, Bool.not_true, Bool.or_self, if_false, Bool.false_eq_true]
  refine (if_pos (by simpa using hp)).trans ?_
  simp only [perform, hb, h6, h7, h8, if_false, Bool.false_eq_true, operands, popped]
  all_goals rcases body _ _ with (t | ⟨t, l⟩ | ⟨w, l⟩ | ⟨w, l⟩ | _ | ⟨ea, n⟩ | b) | ⟨t, n⟩ <;> rfl

/-- Where the body completes. -/
theorem issue_completes {i : Instr} {h : Hdr} {srcs also : List Reg} {dst : Option Reg} {lat : Nat} {pair : Pairing}
    {body : List Word → State → Res} {s t : State} {n : Next} (hr : ready i h srcs dst s also = true)
    (hp : pair = .own ∨ s.me.chk = 0) (hb : body (operands s srcs) (popped s srcs) = .ok (t, n)) :
    issue ⟨i, h, srcs, dst, also, lat, pair⟩ body s = .next (finish t s.cur i.bytes (latencyOf t s.cur i lat) n) := by
  rw [issue_ready hr hp, hb]

/-- Where the body traps. -/
theorem issue_traps {i : Instr} {h : Hdr} {srcs also : List Reg} {dst : Option Reg} {lat : Nat} {pair : Pairing}
    {body : List Word → State → Res} {s : State} {t : Trap} (hr : ready i h srcs dst s also = true)
    (hp : pair = .own ∨ s.me.chk = 0) (hb : body (operands s srcs) (popped s srcs) = .error (.trap t)) :
    issue ⟨i, h, srcs, dst, also, lat, pair⟩ body s = .next (raise s s.cur t) := by
  rw [issue_ready hr hp, hb]
  have hc : s.slot s.cur = s.me := rfl
  simp only [raiseOp, ownOp, hc]
  rcases hp with hp | hp <;> simp [hp]

/-- An instruction that does not order memory takes its own latency (R111). -/
theorem latencyOf_free {i : Instr} (h : orderedOp i = false) (s : State) (k lat : Nat) : latencyOf s k i lat = lat := by
  simp [latencyOf, h]

/-- An instruction with a false guard only goes on (R94). -/
theorem issue_skips {op : Op} {body : List Word → State → Res} {s : State} (ha : absent s s.cur op.i = false)
    (hb : s.me.bad.get false (badPred op.h.pg.toNat) = false) (hg : guardOf s.me op.h = false) :
    issue op body s = .next (finish s s.cur op.i.bytes 1 .fall) := by
  simp [issue, ha, hb, hg]

end Sys2Proof.Machine
end

