-- ==== Sys2Proof/Laws/Memory.lean ====
section
/-! SUPPORT. Memory: what the operations that write bytes do, and that each of them keeps the canonical form. -/

namespace Sys2Proof

namespace Tab
variable {α : Type}

theorem mem_put {t : Tab α} {n : Nat} {v : α} {e : Nat × α} (h : e ∈ t.put n v) : e = (n, v) ∨ e ∈ t := by
  induction t with
  | nil => simpa [put] using h
  | cons x t ih =>
    simp only [put] at h
    split at h
    · simpa using h
    · split at h
      · rcases List.mem_cons.mp h with h | h <;> simp [h]
      · rcases List.mem_cons.mp h with h | h
        · simp [h]
        · rcases ih h with h | h <;> simp [h]

theorem mem_erase {t : Tab α} {n : Nat} {e : Nat × α} (h : e ∈ t.erase n) : e ∈ t := by
  induction t with
  | nil => simp [erase] at h
  | cons x t ih =>
    simp only [erase] at h
    split at h
    · simp [ih h]
    · rcases List.mem_cons.mp h with h | h
      · simp [h]
      · simp [ih h]

/-- An ascending table stays ascending. -/
theorem put_sorted {t : Tab α} {n : Nat} {v : α} (h : List.Pairwise (fun x y => x.1 < y.1) t) :
    List.Pairwise (fun x y => x.1 < y.1) (t.put n v) := by
  induction t with
  | nil => simp [put]
  | cons x t ih =>
    obtain ⟨h1, h2⟩ := List.pairwise_cons.mp h
    simp only [put]
    split
    · rename_i hlt
      refine List.pairwise_cons.mpr ⟨fun y hy => ?_, h⟩
      rcases List.mem_cons.mp hy with rfl | hy
      · exact hlt
      · exact Nat.lt_trans hlt (h1 y hy)
    · rename_i hge
      split
      · rename_i heq; exact List.pairwise_cons.mpr ⟨fun y hy => by simpa [heq] using h1 y hy, h2⟩
      · rename_i hne
        refine List.pairwise_cons.mpr ⟨fun y hy => ?_, ih h2⟩
        rcases mem_put hy with rfl | hy
        · simp at hge hne ⊢; omega
        · exact h1 y hy

theorem erase_sublist (t : Tab α) (n : Nat) : List.Sublist (t.erase n) t := by
  induction t with
  | nil => simp [erase]
  | cons x t ih =>
    simp only [erase]
    split
    · exact ih.cons _
    · exact ih.cons₂ _

/-- Looking up through a filter that keeps the number. -/
theorem find?_filter (t : Tab α) (n : Nat) (p : Nat × α → Bool) (h : ∀ v, p (n, v) = true) :
    Tab.find? (List.filter p t) n = Tab.find? t n := by
  induction t with
  | nil => rfl
  | cons x t ih =>
    obtain ⟨k, v⟩ := x
    by_cases hk : n = k
    · subst hk; simp [List.filter_cons, h v, find?]
    · simp only [List.filter_cons]
      split <;> simp [find?, hk] <;> exact ih

/-- Looking up through a filter that drops the number. -/
theorem find?_filter_none (t : Tab α) (n : Nat) (p : Nat × α → Bool) (h : ∀ v, p (n, v) = false) :
    Tab.find? (List.filter p t) n = none := by
  induction t with
  | nil => rfl
  | cons x t ih =>
    obtain ⟨k, v⟩ := x
    simp only [List.filter_cons]
    split
    · rename_i hp
      have : n ≠ k := fun e => by subst e; simp [h v] at hp
      simp [find?, this]; exact ih
    · exact ih

end Tab

namespace Machine

/-! ### The canonical form -/

theorem wf_filter {m : List Host.Cell} (p : Host.Cell → Bool) (h : Memory.wf m) : Memory.wf (m.filter p) :=
  ⟨h.1.sublist List.filter_sublist, fun c hc => h.2 c (List.mem_of_mem_filter hc)⟩

theorem wf_set {m : List Host.Cell} (k : Nat) (b : Byte) (h : Memory.wf m) : Memory.wf (Tab.set m unlisted k b) := by
  unfold Tab.set
  split
  · exact ⟨h.1.sublist (Tab.erase_sublist m k), fun c hc => h.2 c (Tab.mem_erase hc)⟩
  · rename_i hb
    refine ⟨Tab.put_sorted h.1, fun c hc => ?_⟩
    rcases Tab.mem_put hc with rfl | hc
    · exact hb
    · exact h.2 c hc

/-- Writing a byte keeps the form. -/
theorem writeByte_wf {s : State} (k : Nat) (b : Byte) (h : Memory.wf s.mem) : Memory.wf (writeByte s k b).mem := wf_set k b h

/-- Writing bytes keeps the form. -/
theorem writeBytes_wf {s : State} (k : Nat) (bs : List Byte) (h : Memory.wf s.mem) : Memory.wf (writeBytes s k bs).mem := by
  induction bs generalizing s k with
  | nil => exact h
  | cons b t ih => exact ih (s := { writeByte s k b with poison := _ }) (k + 1) (writeByte_wf k b h)

/-- Forgetting a range keeps the form. -/
theorem eraseRange_wf {s : State} (lo hi : Nat) (h : Memory.wf s.mem) : Memory.wf (eraseRange s lo hi).mem := wf_filter _ h

theorem reset_wf : Memory.wf State.reset.mem := ⟨List.Pairwise.nil, fun _ h => by cases h⟩

/-! ### Reads after writes -/

@[simp] theorem readByte_writeByte_self (s : State) (k : Nat) (b : Byte) : readByte (writeByte s k b) k = b := by
  simp [readByte, writeByte]

theorem readByte_writeByte_ne (s : State) {k a : Nat} (b : Byte) (h : a ≠ k) : readByte (writeByte s k b) a = readByte s a := by
  simp [readByte, writeByte, Tab.get_set_ne _ _ _ h]

/-- Bytes outside those written read as before. -/
theorem readByte_writeBytes_out (s : State) (k : Nat) (bs : List Byte) (a : Nat) (h : a < k ∨ k + bs.length ≤ a) :
    readByte (writeBytes s k bs) a = readByte s a := by
  induction bs generalizing s k with
  | nil => rfl
  | cons b t ih =>
    have hl : (b :: t).length = t.length + 1 := rfl
    simp only [writeBytes]
    rw [ih _ _ (by omega)]
    exact readByte_writeByte_ne s b (by omega)

/-- Bytes that are written read as written. -/
theorem readByte_writeBytes_in (s : State) (k : Nat) (bs : List Byte) (i : Nat) (h : i < bs.length) :
    readByte (writeBytes s k bs) (k + i) = bs[i] := by
  induction bs generalizing s k i with
  | nil => simp at h
  | cons b t ih =>
    simp only [writeBytes]
    cases i with
    | zero =>
      rw [readByte_writeBytes_out _ _ _ _ (by omega)]
      exact readByte_writeByte_self s k b
    | succ i =>
      rw [show k + (i + 1) = k + 1 + i by omega, ih _ _ i (by simpa using h)]
      rfl

/-- The bytes read back from where they were written. -/
theorem readBytes_writeBytes (s : State) (k : Nat) (bs : List Byte) : readBytes (writeBytes s k bs) k bs.length = bs := by
  apply List.ext_getElem (by simp [readBytes])
  intro i h1 h2
  simp only [readBytes, List.getElem_map, List.getElem_range]
  exact readByte_writeBytes_in s k bs i h2

/-- A read depends on memory alone. -/
theorem readByte_congr {s t : State} (h : s.mem = t.mem) (a : Nat) : readByte s a = readByte t a := by simp [readByte, h]

theorem readBytes_congr {s t : State} (h : s.mem = t.mem) (k n : Nat) : readBytes s k n = readBytes t k n := by
  simp [readBytes, readByte, h]

@[simp] theorem length_readBytes (s : State) (k n : Nat) : (readBytes s k n).length = n := by simp [readBytes]

theorem readByte_eraseRange_in (s : State) (lo hi a : Nat) (h1 : lo ≤ a) (h2 : a < hi) : readByte (eraseRange s lo hi) a = unlisted := by
  simp only [readByte, eraseRange, Tab.get]
  rw [Tab.find?_filter_none]
  · rfl
  · intro v; simp; omega

theorem readByte_eraseRange_out (s : State) (lo hi a : Nat) (h : a < lo ∨ hi ≤ a) :
    readByte (eraseRange s lo hi) a = readByte s a := by
  simp only [readByte, eraseRange, Tab.get]
  rw [Tab.find?_filter]
  intro v; simp; omega

/-! ### What the memory operations leave of memory -/

@[simp] theorem setPoison_mem (s : State) (k : Nat) (bs : List Bool) : (setPoison s k bs).mem = s.mem := by
  induction bs generalizing s k with
  | nil => rfl
  | cons b t ih => simp only [setPoison]; rw [ih]

@[simp] theorem setLine_mem (s : State) (n : Nat) (l : Line) : (setLine s n l).mem = s.mem := rfl
@[simp] theorem setFull_mem (s : State) (k : Nat) (b : Bool) : (setFull s k b).mem = s.mem := rfl
@[simp] theorem boxAdd_mem (s : State) (a b c : Nat) (d : List Byte) : (boxAdd s a b c d).mem = s.mem := rfl
@[simp] theorem dropCopies_mem (s : State) (lo hi : Nat) : (dropCopies s lo hi).mem = s.mem := rfl

/-- A fold of steps that leave memory alone leaves it alone. -/
theorem foldl_mem {α : Type} (f : State → α → State) (h : ∀ s a, (f s a).mem = s.mem) (l : List α) (s : State) :
    (l.foldl f s).mem = s.mem := by
  induction l generalizing s with
  | nil => rfl
  | cons a t ih => rw [List.foldl_cons, ih, h]

@[simp] theorem fillSector_mem (s : State) (ln : Nat) (held : BitVec 128) (i : Nat) : (fillSector s ln held i).mem = s.mem := by
  unfold fillSector; dsimp only; repeat' split
  all_goals simp

@[simp] theorem homeFetch_mem (s : State) (key : Nat) : (homeFetch s key).mem = s.mem := by
  unfold homeFetch; split
  · rfl
  · exact foldl_mem _ (fun s i => fillSector_mem s _ _ i) _ _

@[simp] theorem homeStore_mem (s : State) (key n : Nat) : (homeStore s key n).mem = s.mem := by
  unfold homeStore; split <;> rfl

@[simp] theorem storeSector_mem (s : State) (ln : Nat) (l : LlcLine) (i : Nat) : (storeSector s ln l i).mem = s.mem := by
  unfold storeSector; dsimp only; repeat' split
  all_goals simp

@[simp] theorem evictLine_mem (s : State) (ln : Nat) : (evictLine s ln).mem = s.mem := by
  unfold evictLine; repeat' split
  all_goals first | rfl | exact foldl_mem _ (fun s i => storeSector_mem s _ _ i) _ _

@[simp] theorem keepVersion_mem (s : State) (w : Option Nat) (key n : Nat) : (keepVersion s w key n).mem = s.mem := by
  unfold keepVersion; split <;> rfl

@[simp] theorem countAccess_mem (s : State) (k p : Nat) : (countAccess s k p).mem = s.mem := by
  unfold countAccess; dsimp only; repeat' split
  all_goals simp

@[simp] theorem dirtyPage_mem (s : State) (k : Nat) : (dirtyPage s k).mem = s.mem := by
  unfold dirtyPage; dsimp only; repeat' split
  all_goals simp

@[simp] theorem beforeWrite_mem (s : State) (w : Option Nat) (key n : Nat) : (beforeWrite s w key n).mem = s.mem := by simp [beforeWrite]

@[simp] theorem storeTime_mem (s : State) (k key : Nat) : (storeTime s k key).mem = s.mem := by simp [storeTime]

@[simp] theorem storeTime_cur (s : State) (k key : Nat) : (storeTime s k key).cur = s.cur := by simp [storeTime, setLine, State.modSlot, State.setSlot]

@[simp] theorem refreshCopy_mem (s : State) (k key : Nat) : (refreshCopy s k key).mem = s.mem := by
  unfold refreshCopy; dsimp only; split <;> simp

@[simp] theorem plbFill_mem (s : State) (c k o : Nat) (w : Window) (ea : Word) : (plbFill s c k o w ea).mem = s.mem := by
  unfold plbFill; dsimp only; repeat' split
  all_goals simp

@[simp] theorem loadBytes_mem (s : State) (k key n : Nat) : (loadBytes s k key n).2.2.mem = s.mem := by
  unfold loadBytes; dsimp only; repeat' split
  all_goals simp only [loadBytes.fetch, loadBytes.fromCopy, State.modSlot_mem, State.modCore_mem]
  all_goals repeat' split
  all_goals simp

@[simp] theorem homeBytes_mem (s : State) (k key n : Nat) : (homeBytes s k key n).2.2.mem = s.mem := by simp [homeBytes]

@[simp] theorem holdConst_mem (s : State) (k ln : Nat) (e : List Byte × List Bool) : (holdConst s k ln e).mem = s.mem := by
  unfold holdConst; dsimp only; split <;> simp

@[simp] theorem constHome_mem (s : State) (k key : Nat) : (constHome s k key).2.mem = s.mem := by simp [constHome]

@[simp] theorem sawConst_mem (s : State) (k key n a : Nat) : (sawConst s k key n a).mem = s.mem := by simp [sawConst]

@[simp] theorem constBytes_mem (s : State) (k key n : Nat) : (constBytes s k key n).2.2.mem = s.mem := by
  unfold constBytes; dsimp only; rw [sawConst_mem, holdConst_mem, apply_ite State.mem, constHome_mem, State.tick_mem, ite_self]

@[simp] theorem fenceConst_mem (s : State) (k : Nat) (sc : Scope) : (fenceConst s k sc).mem = s.mem := by
  unfold fenceConst; dsimp only; repeat' split
  all_goals simp

/-- Taking a latch changes nothing, or the latches of the slot's core (R278). -/
theorem takeLatch_cases {s u : State} {k key : Nat} (h : takeLatch s k key = .ok u) :
    u = s ∨ ∃ b l, latchBank k key = some b ∧ u = s.modCore (coreOf k) fun c => { c with latches := c.latches.put b l } := by
  unfold takeLatch at h
  split at h
  · cases h; exact .inl rfl
  · split at h
    · cases h; exact .inl rfl
    · split at h
      · cases h
        unfold fillLatch; split
        · exact .inl rfl
        · exact .inr ⟨_, _, ‹_›, rfl⟩
      · cases h

/-- What taking a latch leaves alone. -/
theorem takeLatch_same {s u : State} {k key : Nat} (h : takeLatch s k key = .ok u) :
    u.cur = s.cur ∧ u.slots = s.slots ∧ u.ctxs = s.ctxs ∧ u.mem = s.mem ∧ u.full = s.full ∧ u.lines = s.lines ∧
      ∀ a n, anyPoison u a n = anyPoison s a n := by
  obtain rfl | ⟨_, _, _, rfl⟩ := takeLatch_cases h <;> exact ⟨rfl, rfl, rfl, rfl, rfl, rfl, fun _ _ => rfl⟩

/-- A load that gives bytes has passed its checks, found the page's path free or a copy, and taken the latch of its bank; no byte of
it is poisoned (R134 to R136, R263, R278). -/
theorem loadRun_ok {s u : State} {ea : Word} {n : Nat} {bs : List Byte} (h : loadRun s ea n = .ok (bs, u)) :
    ∃ key l ps, check s s.cur ea n rR = .ok key ∧ (pathBusy s key = true → ownCopy s s.cur key = true) ∧
      takeLatch s s.cur key = .ok l ∧
      loadBytes (plbFill l s.myCore key s.owner ((window s s.cur ea).getD .global) ea) s.cur key n = (bs, ps, u) ∧
      ps.any id = false := by
  unfold loadRun at h
  cases hc : check s s.cur ea n rR with
  | error e => simp [hc, bind, Except.bind] at h
  | ok key =>
    simp only [hc, bind, Except.bind] at h
    split at h
    · cases h
    · cases hl : takeLatch s s.cur key with
      | error e => simp [hl] at h
      | ok l =>
        simp only [hl] at h
        split at h
        · cases h
        · rename_i hb hp
          cases h
          refine ⟨key, l, _, rfl, fun hk => ?_, hl, rfl, Bool.eq_false_iff.mpr hp⟩
          by_contra ho
          exact hb (by simp [hk, ho])

/-- The value of a load is that of its bytes (R137). -/
theorem loadAt_ok {s u : State} {ea v : Word} {n : Nat} (h : loadAt s ea n = .ok (v, u)) :
    ∃ bs, loadRun s ea n = .ok (bs, u) ∧ v = BitVec.ofNat 64 (leWord bs) := by
  unfold loadAt at h
  cases hr : loadRun s ea n with
  | error e => simp [hr, bind, Except.bind] at h
  | ok r => simp only [hr, bind, Except.bind] at h; cases h; exact ⟨_, rfl, rfl⟩

/-- A store that is performed has passed its checks, found the page's path free, and taken the latch of its bank; it is then the write of its
bytes (R134, R135, R261, R278). -/
theorem storeAt_ok {s u : State} {ea v : Word} {n : Nat} (h : storeAt s ea n v = .ok u) :
    ∃ key l, check s s.cur ea n rW = .ok key ∧ pathBusy s key = false ∧ ownershipHeld s key = false ∧ takeLatch s s.cur key = .ok l ∧
      u = storeBytes (plbFill l s.myCore key s.owner ((window s s.cur ea).getD .global) ea) s.cur key (leBytes n v.toNat) := by
  unfold storeAt at h
  cases hc : check s s.cur ea n rW with
  | error e => simp [hc, bind, Except.bind] at h
  | ok key =>
    simp only [hc, bind, Except.bind] at h
    split at h
    · cases h
    · cases hl : takeLatch s s.cur key with
      | error e => simp [hl] at h
      | ok l =>
        simp only [hl] at h
        cases h
        rename_i hb
        simp only [Bool.or_eq_true, not_or, Bool.not_eq_true] at hb
        exact ⟨key, l, rfl, hb.1, hb.2, hl, rfl⟩

/-- A read-modify-write that gives a value has passed its checks (R139, R140). -/
theorem updateAt_ok {s u : State} {ea v : Word} {n : Nat} {f} (h : updateAt s ea n f = .ok (v, u)) :
    ∃ key l, check s s.cur ea n (rR ||| rW) = .ok key ∧ pathBusy s key = false ∧ takeLatch s s.cur key = .ok l := by
  unfold updateAt at h
  cases hc : check s s.cur ea n (rR ||| rW) with
  | error e => simp [hc, bind, Except.bind] at h
  | ok key =>
    simp only [hc, bind, Except.bind] at h
    split at h
    · cases h
    · cases hl : takeLatch s s.cur key with
      | error e => simp [hl] at h
      | ok l =>
        rename_i hb
        simp only [Bool.or_eq_true, not_or, Bool.not_eq_true] at hb
        exact ⟨key, l, rfl, hb.1, hl⟩

theorem writeBytes_mem_congr {s t : State} (h : s.mem = t.mem) (k : Nat) (bs : List Byte) :
    (writeBytes s k bs).mem = (writeBytes t k bs).mem := by
  induction bs generalizing s t k with
  | nil => exact h
  | cons b u ih => exact ih (by simp [writeByte, h]) (k + 1)

/-- A store writes its bytes and nothing else of memory (R261). -/
theorem storeBytes_mem (s : State) (k key : Nat) (bs : List Byte) : (storeBytes s k key bs).mem = (writeBytes s key bs).mem := by
  unfold storeBytes; dsimp only
  rw [refreshCopy_mem]
  exact writeBytes_mem_congr (by simp) key bs

/-- A write of the device itself writes its bytes and nothing else of memory (R267). -/
theorem deviceWrite_mem (s : State) (key : Nat) (bs : List Byte) : (deviceWrite s key bs).mem = (writeBytes s key bs).mem := by
  unfold deviceWrite; dsimp only
  exact writeBytes_mem_congr (by simp) key bs

theorem storeBytes_wf {s : State} (k key : Nat) (bs : List Byte) (h : Memory.wf s.mem) : Memory.wf (storeBytes s k key bs).mem := by
  rw [storeBytes_mem]; exact writeBytes_wf key bs h

theorem deviceWrite_wf {s : State} (key : Nat) (bs : List Byte) (h : Memory.wf s.mem) : Memory.wf (deviceWrite s key bs).mem := by
  rw [deviceWrite_mem]; exact writeBytes_wf key bs h

end Machine
end Sys2Proof
end

