-- ==== Sys2Proof/Laws/Slab.lean ====
section
/-! SUPPORT. What the completion of a slab instruction does to its slot: lanes, masks and general registers, outside a checked pair. -/

namespace Sys2Proof.Machine

/-- A slab instruction with no access is dispatched once its checks pass. -/
theorem slab_dispatches {i : Instr} {h : Hdr} {srcs : List Reg} {dst : Option Reg} {rnd : Rnd} {cost : Nat → Nat}
    {checks : List Word → State → Except Stop (List TDesc)} (he : ∀ s, exec i s = slab i h srcs rnd cost checks s dst)
    (hn : orderedOp i = false) :
    Safety.Dispatches i h srcs dst (fun _ => rnd) (fun s _ _ => cost (lanes (s.core s.myCore).gangw)) checks := by
  rintro s p c ds o hr hu rfl h1 h2 rfl h3
  have hl : orderedOp i = false := hn
  rw [he, ← latencyOf_free hl (enqueueSlab _ _ _) s.cur 1]; unfold slab
  refine issue_completes hr (Or.inr (by simpa [Safety.unpaired] using hu)) ?_
  have h2' : captureOf s.me s.cur rnd = some c := by simpa using h2
  simp only [h1, dispatch, needCapture, popped_cur, popped_me, h2', h3, bind, Except.bind, done]
  rfl

/-- A lane reads the value just written, the others as before. -/
theorem getV_setV (x : Slot) (d r : VReg) (a b : Nat) (w : Lane) (ha : a < 256) (hb : b < 256) :
    (x.setV d a w).getV r b = if r = d ∧ b = a then w else x.getV r b := by
  unfold Slot.setV Slot.getV
  rw [mended_eq]
  by_cases h : r = d ∧ b = a
  · obtain ⟨rfl, rfl⟩ := h; simp
  · rw [if_neg h]
    apply Tab.get_set_ne
    intro e
    have h1 : r.toNat = d.toNat := by omega
    exact h ⟨BitVec.eq_of_toNat_eq h1, by omega⟩

/-- The lanes that a vector result writes: those that the instruction does not keep. -/
theorem getV_fold (x : Slot) (d r : VReg) (ls : List Lane) (keeps : Nat → Bool) (n b : Nat) (hn : n ≤ 256) (hb : b < 256) :
    ((List.range n).foldl (fun x l => if keeps l then x else x.setV d l (ls.getD l 0)) x).getV r b =
      if r = d ∧ b < n ∧ keeps b = false then ls.getD b 0 else x.getV r b := by
  induction n with
  | zero => simp
  | succ n ih =>
    rw [List.range_succ, List.foldl_append]
    simp only [List.foldl_cons, List.foldl_nil]
    have hi := ih (by omega)
    by_cases hk : keeps n = true
    · rw [if_pos hk, hi]
      by_cases h2 : b = n
      · subst h2; simp [hk]
      · have : b < n + 1 ↔ b < n := by omega
        simp [this]
    · rw [if_neg hk, getV_setV _ _ _ _ _ _ (by omega) hb, hi]
      by_cases h2 : b = n
      · subst h2; by_cases h : r = d <;> simp [h, hk]
      · have : b < n + 1 ↔ b < n := by omega
        simp [h2, this]

/-- Writing lanes leaves whether the slot is in a pair. -/
theorem chk_fold (x : Slot) (d : VReg) (ls : List Lane) (keeps : Nat → Bool) (l : List Nat) :
    (l.foldl (fun x l => if keeps l then x else x.setV d l (ls.getD l 0)) x).chk = x.chk := by
  induction l generalizing x with
  | nil => rfl
  | cons a t ih =>
    refine (ih _).trans ?_
    dsimp only
    split
    · rfl
    · unfold Slot.setV; rw [mended_eq]

/-- Outside a pair a result goes to the one slot. -/
theorem modOp_alone {s : State} {o : SlabOp} (f : Slot → Slot) (h : (s.slot o.slot).chk = 0) :
    modOp s o f = s.modSlot o.slot f := by simp [modOp, slotsOf', pairOf, h]

/-- The slot of a completed instruction outside a pair. -/
theorem slabDone_slot {s : State} {o : SlabOp} (core : Nat) (fl : Flags) (h : (s.slot o.slot).chk = 0) :
    (slabDone s core o fl).slot o.slot = { s.slot o.slot with fflags := (s.slot o.slot).fflags ||| fl } := by
  simp [slabDone, modOp_alone _ h]

@[simp] theorem slabDone_mem (s : State) (o : SlabOp) (core : Nat) (fl : Flags) : (slabDone s core o fl).mem = s.mem := by
  unfold slabDone modOp slotsOf'
  rw [State.modCore_mem]
  generalize pairOf s o.slot = l
  induction l generalizing s with
  | nil => rfl
  | cons a t ih => exact (ih _).trans rfl

@[simp] theorem putOut_mem (s : State) (o : SlabOp) (n : Nat) (r : VOut) : (putOut s o n r).mem = s.mem := by
  unfold putOut modOp
  generalize slotsOf' s o = l
  induction l generalizing s with
  | nil => rfl
  | cons a t ih => exact (ih _).trans rfl

/-- An instruction that reads no vector and no mask register meets none that is bad. -/
theorem badVector_none {x : Slot} {n : Nat} {i : Instr} (hm : maskReads i = []) (hv : vecReads i = ([], [])) : badVector x n i = false := by
  simp [badVector, hm, hv]

/-- What a vector instruction without accesses does as the oldest of its core's slab queue. -/
theorem slabCompletion_vector {s : State} {core : Nat} {o : SlabOp} {rest : List SlabOp} {r : VOut}
    (hq : (s.core core).slabQ = o :: rest) (hs : Safety.soundOp s core o) (hm : slabMemory o.instr = false)
    (hd : ∀ h rnd f za doff d a b c, o.instr ≠ .adrain h rnd f za doff d a b c) (ha : aredOut (s.core core) o = none)
    (hv : vecOut o (s.slot o.slot) (lanes (s.core core).gangw) = some r) :
    exec (.slabCompletion core) s = .next (slabDone (putOut s o (lanes (s.core core).gangw) r) core o r.fl) := by
  rw [exec_slabCompletion, execSlabCompletion, hq]
  show Host.Outcome.next (slabStep s core o) = _
  congr 1
  unfold slabStep
  rw [if_neg (by simp [hs.1, hs.2.1]), if_neg (by simp [hs.2.2])]
  split
  · rename_i h; exact absurd h (hd _ _ _ _ _ _ _ _ _)
  · simp only [hm, Bool.false_eq_true, if_false, ha, hv]

end Sys2Proof.Machine
end

