-- ==== Sys2Proof/Tests/Slice0.lean ====
section
/-! SUPPORT. Tests: ill-formed terms that WellFormed refuses, words written out from the spec's encodings, single steps on small states, and
for every statement a concrete state and operands that meet its hypotheses. -/

namespace Sys2Proof.Tests

open Sys2Proof Sys2Proof.Machine Sys2Proof.Safety

set_option Elab.async false

/-! ### Small states -/

/-- The header of an instruction that always executes. -/
def H : Hdr := ⟨7, false⟩
/-- The header of a vector instruction under no mask. -/
def V : VHdr := ⟨H, false, 7⟩
/-- Slot 0 of core 0 of quad (0, 0) of the context of owner 1. -/
def k0 : Nat := slotKey 1 0
def core0 : Nat := coreOf k0
/-- That slot runs, with nothing in memory. -/
def base : State := { withProgram State.reset [] with cur := k0 }
/-- The same with some general registers set. -/
def gs (l : List (Reg × Word)) : State := base.modMe fun x => l.foldl (fun x e => x.setG e.1 e.2) x
/-- An address of the local scratch window. -/
def sc (n : Nat) : Word := BitVec.ofNat 64 (0x00C0000000000000 + n)
/-- Whether the instructions of a list may run at `base`. -/
def rdy (l : List (Instr × Hdr × List Reg × Option Reg)) : Bool :=
  l.all fun e => ready e.1 e.2.1 e.2.2.1 e.2.2.2 base && unpaired base
def stepRuns (s : State) : Bool :=
  match step s with
  | .next _ => true
  | _ => false
/-- The state that an instruction leaves. -/
def after (i : Instr) (s : State) : State :=
  match exec i s with
  | .next t => t
  | _ => s
def goes (i : Instr) (s : State) : Bool :=
  match exec i s with
  | .next _ => true
  | _ => false
theorem exec_after {i : Instr} {s : State} (h : goes i s = true) : exec i s = .next (after i s) := by
  simp only [goes, after] at *
  split at h <;> simp_all

/-! ### Ill-formed terms, one for each check -/

theorem test_wf_mulh : (Instr.mulh H .s32 1 2 3).wf = false := by decide
theorem test_wf_div : (Instr.div H .n16 1 2 3).wf = false := by decide
theorem test_wf_shli : (Instr.shli H 1 2 (.short 64)).wf = false := by decide
theorem test_wf_ext : (Instr.ext H true 1 2 (.short 0)).wf = false ∧ (Instr.ext H true 1 2 (.short 65)).wf = false := by decide
theorem test_wf_bfx : (Instr.bfx H true 1 2 (.short 0x820)).wf = true ∧ (Instr.bfx H true 1 2 (.short 0x821)).wf = false ∧
    (Instr.bfi H 1 2 3 (.short 0x1001)).wf = false := by decide
theorem test_wf_mts : (Instr.mts H .txpc 1).wf = false := by decide
theorem test_wf_fadd : (Instr.fadd H .e4m3 .slot 1 2 3).wf = false := by decide
theorem test_wf_fcvt : (Instr.fcvt H (.ff .b4 .f32) .slot 1 2).wf = false := by decide
theorem test_wf_amo : (Instr.amo H .fadd .n64 1 (.disp 2 (.short 0)) 3).wf = false ∧
    (Instr.amo H .add .n16 1 (.disp 2 (.short 0)) 3).wf = false := by decide
theorem test_wf_cas : (Instr.cas H .n8 1 2 (.short 0) 3 4).wf = false := by decide
theorem test_wf_lease : (Instr.lease H 0 1 2 (.short 0) 3).wf = false := by decide
theorem test_wf_vld : (Instr.vld V .n64 1 2 (.short 0)).wf = false := by decide
theorem test_wf_vst : (Instr.vst ⟨H, true, 7⟩ .n32 1 2 (.short 0)).wf = false := by decide
theorem test_wf_vamo : (Instr.vamo V .add .n16 0 1 2 3 (.short 0)).wf = false := by decide
theorem test_wf_vadd : (Instr.vadd V .f32 true .slot 1 2 3).wf = false ∧ (Instr.vadd V .n32 false (.own .rne) 1 2 3).wf = false := by decide
theorem test_wf_vdot : (Instr.vdot V .bf16 true .slot 1 2 3).wf = false := by decide
theorem test_wf_vdiv : (Instr.vdiv V .n32 (.own .rne) 1 2 3).wf = false := by decide
theorem test_wf_vabs : (Instr.vabs V .f32 true 1 2).wf = false := by decide
theorem test_wf_vsat : (Instr.vsat V true .n64 1 2).wf = false := by decide
theorem test_wf_vpack : (Instr.vunpk ⟨H, false, 1⟩ 1 2).wf = false := by decide
theorem test_wf_vred : (Instr.vred V .or .s32 false .slot 1 2).wf = false ∧ (Instr.vred V .add .n32 false .slot 56 2).wf = false := by decide
theorem test_wf_vext : (Instr.vext H true 60 1 2 (.short 0)).wf = false := by decide
theorem test_wf_vscan : (Instr.vscan V .min .n32 true .slot 1 2).wf = false := by decide
theorem test_wf_tld : (Instr.tld H 6 1 2 (.short 0) 3 4).wf = false := by decide
theorem test_wf_adrain : (Instr.adrain H .slot .f32 false 4 1 2 3 4).wf = false := by decide
theorem test_wf_ared : (Instr.ared H .or .s32 .slot 1 2).wf = false := by decide
theorem test_wf_ascal : (Instr.ascal H true .slot 1 (.short 256)).wf = false := by decide
theorem test_wf_spawn : (Instr.spawn H 5 false false false 1 2 3).wf = false := by decide
theorem test_wf_rpop : (Instr.rpop H 56 1).wf = false := by decide
theorem test_wf_cend : (Instr.cend H 0 1).wf = false := by decide
theorem test_wf_bar : (Instr.bar H .th 1 2).wf = false := by decide
theorem test_wf_qcfg : (Instr.qcfgUnbind H 0 (.short 1)).wf = false := by decide

/-! ### Words written out from the encodings of the spec (R93, R97 to R99, R107) -/

theorem test_decode_addi : decodeTableWord 64 0x0001_0000_0145_1C0C = some (.addi H 5 5 (.short 1)) := by decide +kernel
theorem test_decode_lih : decodeTableWord 64 0x0400_0000_0041_1CA0 = some (.lih H 1 1 (.short 0x400)) := by decide +kernel
theorem test_decode_cmp : decodeTableWord 64 0x0000_1600_0101_1CB0 = some (.cmp H .lt .s32 1 4 0) := by decide +kernel
theorem test_decode_br : decodeTableWord 64 0xFFFE_0000_0000_1CC0 = some (.br H (.short 0xFFFE)) := by decide +kernel
theorem test_decode_mfs : decodeTableWord 64 0x000A_0000_0007_1CD4 = some (.mfs H .txpc 7) := by decide +kernel
theorem test_decode_tret : decodeTableWord 64 0x0000_0000_01C0_1CE4 = some (.tret H 7) := by decide +kernel
theorem test_decode_mts : decodeTableWord 64 0x0008_0000_0040_1CD8 = some (.mts H .tvec 1) := by decide +kernel
theorem test_decode_dec : decodeTableWord 64 0x0100_0000_0080_1EE4 = some (.dec H 2 (.short 0x100)) := by decide +kernel
theorem test_decode_zero : decodeTableWord 64 0 = none := by decide +kernel
theorem test_decode_fill : decodeTableWord 32 3 = none := by decide +kernel
theorem test_decode_ori : decodeTableWord 64 0xCDEF_0000_0001_1C44 = some (.ori H 1 0 (.short 0xCDEF)) := by decide +kernel
theorem test_decode_fcvt : decodeTableWord 64 0x0007_0200_0146_1D24 = some (.fcvt H (.ff .e4m3 .f32) .slot 6 5) := by decide +kernel
theorem test_decode_ldfe : decodeTableWord 64 0x0008_0200_0085_1D54 = some (.ldfe H .n32 false 5 (.disp 2 (.short 8))) := by
  decide +kernel
theorem test_decode_stfe : decodeTableWord 64 0x0008_021C_0080_1D58 = some (.stfe H .n32 false (.disp 2 (.short 8)) 7) := by
  decide +kernel
theorem test_decode_vred : decodeTableWord 64 0x0000_0204_0045_1E68 = some (.vred ⟨H, false, 1⟩ .add .f32 false .slot 5 1) := by
  decide +kernel
theorem test_decode_cnew : decodeTableWord 64 0x0100_0018_5083_1EF0 = some (.cnew H 0 false false 3 2 (.short 0x100) 5 6) := by
  decide +kernel
theorem test_decode_xpush : decodeTableWord 128 0x0000_0010_0000_0320_0001_0018_5100_1EC2 =
    some (.xpush H ⟨.copy, false, true, .pk, true, none, .f32, 0, 0x1000⟩ 1 0 4 5 6) := by decide +kernel
theorem test_decode_mma : decodeTableWord 128 0x0000_0000_0000_0110_0000_0000_1000_1E96 =
    some (.mma H ⟨0, 0, 1, .slot, .pt, .b4, .b4, 0, 0, false⟩) := by decide +kernel

/-! ### Witnesses: reset, decode and the step -/

theorem witness_DecodeEncodeRoundTrip : (Instr.addi H 5 5 (.short 1)).wf = true ∧
    encode (.addi H 5 5 (.short 1)) = some 0x0001_0000_0145_1C0C := by decide +kernel

/-- The state whose next step runs `addi g5, g5, 1`. -/
def addi1 : State := State.reset.withFetchWord 64 0x0001_0000_0145_1C0C

theorem witness_StepRunsTheDecodedInstruction : addi1.agenda = [] ∧ addi1.pkg.boot = .on ∧ addi1.pending = [.issue core0] ∧
    pickSlot addi1 core0 = some k0 ∧ dueSlots addi1 (.issue core0) = [] ∧ (addi1.slot k0).pc = 0x100000 ∧
    fetchOk addi1 k0 0x100000 = true ∧ leNat 4 (blockBytes addi1 0x100000 4) ≠ 3 ∧
    decodeBytes (blockBytes addi1 0x100000 16) = .ok (.addi H 5 5 (.short 1), 8) ∧
    (0x100000 : Nat) / 32 = (0x100000 + 8 - 1) / 32 := by decide +kernel
theorem witness_Step_event : ({ base with agenda := [.counterClear] } : State).agenda = .counterClear :: [] := rfl
theorem witness_Step_noPower : (State.reset.modPkg fun p => { p with boot := .off }).agenda = [] ∧
    (State.reset.modPkg fun p => { p with boot := .off }).pkg.boot ≠ .on := by decide +kernel
theorem test_step_addi : (match step addi1 with | .next t => (t.slot k0).getG 5 | _ => 0) = 1 := by decide +kernel

theorem witness_FalseGuardOnlyAdvances : (Instr.add ⟨0, false⟩ 1 2 3).shape.isSome = true ∧
    absent base k0 (.add ⟨0, false⟩ 1 2 3) = false ∧ base.me.getP 0 = false ∧ base.me.bad.get false (badPred 0) = false := by decide +kernel

/-- `base` on a core of gang width 0. -/
def narrow : State := base.modCore core0 fun c => { c with gangw := 0 }
theorem witness_AbsentInstructionsTrap : (Instr.vand V 1 2 3).shape.isSome = true ∧ absent narrow k0 (.vand V 1 2 3) = true := by
  decide +kernel

/-- `base` with a handler. -/
def handled : State := base.modCore core0 fun c => { c with tvec := 0x40000 }
theorem witness_TrapEntry : (handled.slot k0).tlvl = false ∧ (handled.core (coreOf k0)).tvec ≠ 0 ∧ (base.core (coreOf k0)).tvec = 0 ∧
    (base.slot k0).pend = [] ∧ ((base.modMe fun x => { x with tlvl := true }).slot k0).tlvl = true := by decide +kernel
theorem test_trap_entry : ((after (.trap H (.short 7)) handled).slot k0).pc = 0x100000 ∧
    ((after (.trap H (.short 7)) handled).slot k0).tval = 7 ∧ ((after (.trap H (.short 7)) handled).slot k0).tlvl = true := by decide +kernel

theorem witness_ScalarFrame : computes (.add H 1 2 3) = some (H, [2, 3], 1) ∧ unpaired base = true ∧
    exec (.add H 1 2 3) base = .next (after (.add H 1 2 3) base) ∧ ((after (.add H 1 2 3) base).slot k0).retired = base.me.retired + 1 :=
  ⟨by decide +kernel, by decide +kernel, exec_after (by decide +kernel), by decide +kernel⟩
theorem witness_ScalarFrame_float : computesFloat (.fadd H .f32 .slot 1 2 3) = some (H, [2, 3], 1) ∧
    exec (.fadd H .f32 .slot 1 2 3) base = .next (after (.fadd H .f32 .slot 1 2 3) base) ∧
    ((after (.fadd H .f32 .slot 1 2 3) base).slot k0).retired = base.me.retired + 1 :=
  ⟨by decide +kernel, exec_after (by decide +kernel), by decide +kernel⟩

/-- A store of 8 bytes to scratch memory. -/
def st8 : Instr := .st H .n64 (.disp 1 (.short 0)) 2
theorem witness_MemoryFrame : (accessOf st8).isSome = true ∧ unpaired (gs [(1, sc 16)]) = true ∧
    exec st8 (gs [(1, sc 16)]) = .next (after st8 (gs [(1, sc 16)])) ∧
    ((after st8 (gs [(1, sc 16)])).slot k0).retired = (gs [(1, sc 16)]).me.retired + 1 ∧
    ((after st8 (gs [(1, sc 16)])).slot k0).running = true ∧
    window (popped (gs [(1, sc 16)]) [1, 2]) k0 (sc 16) = some (.scratch (quadOf k0) 16) :=
  ⟨by decide +kernel, by decide +kernel, exec_after (by decide +kernel), by decide +kernel, by decide +kernel, by decide +kernel⟩
theorem test_store : readByte (after st8 (gs [(1, sc 16), (2, 0x0807060504030201)])) (scratchKey (quadOf k0) 23) = 8 := by decide +kernel

theorem witness_StepKeepsMemoryCanonical : Memory.wf addi1.mem ∧ stepRuns addi1 = true := by decide +kernel

/-! ### Witnesses: scalar instructions -/

theorem witness_IntegerArithmetic : rdy [
    (.nop H, H, [], none), (.add H 1 2 3, H, [2, 3], some 1), (.addi H 1 2 (.short 5), H, [2], some 1),
    (.sub H 1 2 3, H, [2, 3], some 1), (.rsbi H 1 2 (.short 5), H, [2], some 1), (.mul H 1 2 3, H, [2, 3], some 1),
    (.muli H 1 2 (.short 5), H, [2], some 1), (.mulh H .s64 1 2 3, H, [2, 3], some 1), (.mad H 1 2 3 4, H, [2, 3, 4], some 1),
    (.div H .s32 1 2 3, H, [2, 3], some 1), (.rem H .s32 1 2 3, H, [2, 3], some 1), (.min H .s64 1 2 3, H, [2, 3], some 1),
    (.max H .s64 1 2 3, H, [2, 3], some 1)] = true := by decide +kernel
theorem witness_LogicAndShifts : rdy [
    (.and H 1 2 3, H, [2, 3], some 1), (.andi H 1 2 (.short 5), H, [2], some 1), (.or H 1 2 3, H, [2, 3], some 1),
    (.ori H 1 2 (.short 5), H, [2], some 1), (.xor H 1 2 3, H, [2, 3], some 1), (.xori H 1 2 (.short 5), H, [2], some 1),
    (.andn H 1 2 3, H, [2, 3], some 1), (.shl H 1 2 3, H, [2, 3], some 1), (.shli H 1 2 (.short 63), H, [2], some 1),
    (.shr H 1 2 3, H, [2, 3], some 1), (.shri H 1 2 (.short 63), H, [2], some 1), (.sar H 1 2 3, H, [2, 3], some 1),
    (.sari H 1 2 (.short 63), H, [2], some 1), (.rot H 1 2 3, H, [2, 3], some 1), (.roti H 1 2 (.short 63), H, [2], some 1)] = true := by
  decide +kernel
theorem witness_BitFieldsAndMoves : rdy [
    (.clz H 1 2, H, [2], some 1), (.ctz H 1 2, H, [2], some 1), (.popc H 1 2, H, [2], some 1), (.brev H 1 2, H, [2], some 1),
    (.bswap H 1 2, H, [2], some 1), (.ext H true 1 2 (.short 64), H, [2], some 1), (.bfx H true 1 2 (.short 0x820), H, [2], some 1),
    (.bfi H 1 2 3 (.short 0x820), H, [2, 3], some 1), (.crc H 3 1 2 3, H, [2, 3], some 1), (.hash H 1 2 3, H, [2, 3], some 1),
    (.li H 1 (.short 5), H, [], some 1), (.lih H 1 2 (.short 5), H, [2], some 1), (.lea H 1 (.idx 2 3 1), H, [2, 3], some 1),
    (.mov H 1 2, H, [2], some 1), (.sel H 1 2 3 0, H, [2, 3], some 1)] = true := by decide +kernel
theorem witness_ComparesAndPredicates : rdy [
    (.cmp H .lt .s64 0 2 3, H, [2, 3], none), (.cmpi H .lt .n64 0 2 (.short 5), H, [2], none), (.plog H 6 0 1 2, H, [], none),
    (.pmov H 0 2, H, [2], none), (.pmovToGeneral H 1 0, H, [], some 1), (.pmovGet H 1, H, [], some 1), (.pmovSet H 2, H, [2], none)]
    = true := by decide +kernel
theorem witness_ControlTransfers : rdy [
    (.br H (.short 2), H, [], none), (.call H (.short 2), H, [], some lnReg), (.ret H 1, H, [1], none), (.jmp H 1 (.short 4), H, [1], none),
    (.callr H 1, H, [1], some lnReg)] = true ∧ (base.me.pc + 4 * (Imm.short 2).sext).toNat % 4 = 0 ∧
    (arg (operands base [1]) 0).toNat % 4 = 0 ∧ (arg (operands base [1]) 0 + (Imm.short 4).sext).toNat % 4 = 0 := by decide +kernel
theorem witness_ControlTransfers_misaligned :
    (arg (operands (gs [(1, 2)]) [1]) 0).toNat % 4 ≠ 0 ∧ (arg (operands (gs [(1, 2)]) [1]) 0 + (Imm.short 4).sext).toNat % 4 ≠ 0 ∧
    (((base.modMe fun x => { x with pc := 2 }).me.pc + 4 * (Imm.short 2).sext).toNat % 4 ≠ 0) ∧
    ready (.ret H 1) H [1] none (gs [(1, 2)]) = true ∧ ready (.br H (.short 2)) H [] none (base.modMe fun x => { x with pc := 2 }) = true := by
  decide +kernel
theorem witness_SystemRegisters : rdy [
    (.mfs H .fflags 1, H, [], some 1), (.mts H .tscr 1, H, [1], none), (.rseedWrite H 1, H, [1], none), (.fflagsWrite H 1, H, [1], none),
    (.ringbWrite H 1, H, [1], none), (.ringlWrite H 1, H, [1], none), (.tdescWrite H 7 1, H, [1], none)] = true ∧
    slabBusy base k0 = false ∧ (base.core core0).ringt = (base.core core0).ringh := by decide +kernel
theorem witness_TrapInstructions : rdy [(.trap H (.short 7), H, [], none), (.brk H 7, H, [], none)] = true ∧
    ready (.tret H 1) H [1] none (base.modMe fun x => { x with tlvl := true }) = true ∧
    (popped (base.modMe fun x => { x with tlvl := true }) [1]).me.tlvl = true := by decide +kernel

/-! ### Witnesses: float instructions -/

theorem witness_FloatArithmetic : rdy [
    (.fadd H .f32 .slot 1 2 3, H, [2, 3], some 1), (.fsub H .bf16 .slot 1 2 3, H, [2, 3], some 1),
    (.fmul H .f16 .slot 1 2 3, H, [2, 3], some 1), (.ffma H .f32 .slot 1 2 3 4, H, [2, 3, 4], some 1),
    (.fdiv H .f32 .slot 1 2 3, H, [2, 3], some 1), (.fsqrt H .f32 .slot 1 2, H, [2], some 1), (.fround H .f32 .slot 1 2, H, [2], some 1)]
    = true ∧ FF.ofFmt .f32 = some f32 ∧ (captureOf (popped base [2, 3]).me k0 .slot).isSome = true := by decide +kernel
theorem witness_FloatComparesSignsAndClasses : rdy [
    (.fmin H .f32 1 2 3, H, [2, 3], some 1), (.fmax H .f32 1 2 3, H, [2, 3], some 1), (.fcmp H .lt .f32 0 2 3, H, [2, 3], none),
    (.fsgn H .cp .f32 1 2 3, H, [2, 3], some 1), (.fclass H .f32 1 2, H, [2], some 1)] = true ∧ FF.ofFmt .f32 = some f32 ∧
    base.me.fen = 0 := by decide +kernel
theorem witness_FloatConversions : rdy [
    (.fcvt H (.ff .bf16 .f32) .slot 1 2, H, [2], some 1), (.fcvt H (.fi .s32 .f32) .slot 1 2, H, [2], some 1),
    (.fcvt H (.if_ .f32 .s64) .slot 1 2, H, [2], some 1)] = true ∧ FF.ofFmt .f32 = some f32 ∧ (FF.ofFmt .bf16).isSome = true ∧
    (captureOf (popped base [2]).me k0 .slot).isSome = true := by decide +kernel
theorem witness_NaNsAreCanonical : (f32.read false 0x7FC00001).isNan = true ∧ (f32.read false 0xFF800001).isNan = true := by decide +kernel

/-! ### Witnesses: memory -/

/-- The displacement operand at g1. -/
def m1 : Mem := .disp 1 (.short 0)
/-- g1 points into scratch memory. -/
def scr : State := gs [(1, sc 64)]
/-- The place word of slot 1 of the same core. -/
def slot1 : Word := 1

theorem witness_LoadsAndStores :
    ready (.ld H .s32 2 m1) H m1.regs (some 2) scr = true ∧ ready (.ldc H .s32 2 m1) H m1.regs (some 2) scr = true ∧
    ready (.st H .s32 m1 2) H (m1.regs ++ [2]) none scr = true ∧ (loadAt scr (m1.ea (operands scr m1.regs)) 4).isOk = true ∧
    (storeAt scr (m1.ea (operands scr m1.regs)) 4 5).isOk = true := by decide +kernel
theorem witness_LoadsAndStores_remote :
    ready (.rld H .s32 2 3 4 (.short 0)) H [3, 4] (some 2) scr = true ∧
    ready (.rst H false .s32 3 4 (.short 0) 2) H [3, 4, 2] none scr = true ∧
    (placeEa (arg (operands scr [3, 4]) 0) (arg (operands scr [3, 4]) 1) (.short 0)).isOk = true := by decide +kernel
/-- `base` with a lease of the page behind the code. -/
def lent (l : List (Reg × Word)) : State := ((gs l).modPage 32 fun p => { p with rights := rR ||| rW }).modCtx 1 fun c =>
  { c with leases := [{ base := 0x100000, len := 0x8000, rights := rR ||| rW, node := 0 }] }
theorem witness_LoadsAndStores_constant : check (lent [(1, 0x100000)]) k0 0x100000 4 rR = .ok 0x100000 ∧
    isScratchKey 0x100000 = false ∧ pathBusy (lent [(1, 0x100000)]) 0x100000 = false ∧
    (constBytes (lent [(1, 0x100000)]) k0 0x100000 4).2.1.any id = false := by decide +kernel
/-- The bank of the word is free, and an access takes its latch (R278). -/
theorem witness_latch : (takeLatch base base.cur (scratchKey (quadOf k0) 64)).isOk = true ∧
    (takeLatch scr scr.cur (scratchKey (quadOf k0) 64)).isOk = true := by decide +kernel
theorem witness_ScratchLoadsAndStores : check base k0 (sc 64) 8 rR = .ok (scratchKey (quadOf k0) 64) ∧
    isScratchKey (scratchKey (quadOf k0) 64) = true ∧ (base.core base.myCore).copies.find? (lineOf (scratchKey (quadOf k0) 64)) = none ∧
    anyPoison base (scratchKey (quadOf k0) 64) 8 = false ∧ check base k0 (sc 64) 8 rW = .ok (scratchKey (quadOf k0) 64) := by decide +kernel
theorem witness_Atomics :
    ready (.amo H .add .n32 2 m1 3) H (m1.regs ++ [3]) (some 2) scr = true ∧
    ready (.cas H .n64 2 1 (.short 0) 3 4) H [1, 3, 4] (some 2) scr = true ∧
    ready (.ramo H .add false .n32 2 3 4 (.short 0) 5) H [3, 4, 5] (some 2) scr = true ∧
    (updateAt scr (sc 64) 4 (amoNew .add .n32 1)).isOk = true ∧ check scr k0 (sc 64) 4 (rR ||| rW) = .ok (scratchKey (quadOf k0) 64) := by
  decide +kernel
theorem witness_FullEmptyWords :
    ready (.ldfe H .n64 false 2 m1) H m1.regs (some 2) scr = true ∧ ready (.stfe H .n64 false m1 2) H (m1.regs ++ [2]) none scr = true ∧
    ready (.feset H true m1) H m1.regs none scr = true ∧ ready (.feqry H 0 m1) H m1.regs none scr = true ∧
    feKey scr k0 (sc 64) 8 = .ok (scratchKey (quadOf k0) 64) ∧ isFull scr (scratchKey (quadOf k0) 64) = false ∧
    isFull (setFull scr (scratchKey (quadOf k0) 64) true) (scratchKey (quadOf k0) 64) = true := by decide +kernel
theorem witness_WaitsMessagesAndWakes :
    ready (.waita H .eq .n32 2 m1 3) H (m1.regs ++ [3]) (some 2) scr = true ∧ ready (.msg H 2 3 (.short 0)) H [2, 3] none (gs [(2, slot1)]) = true ∧
    placeSlot base k0 slot1 = some (k0 + 1) ∧ (deliverMsg base (k0 + 1) 5).isSome = true ∧
    ready (.wait H 2 (.short 0)) H [] (some 2) (base.modMe fun x => { x with inbox := [5] }) = true ∧
    ready (.waitWk H 2 (.short 0)) H [] (some 2) (base.modMe fun x => { x with wake := true }) = true ∧
    ready (.wake H 2) H [2] none (gs [(2, slot1)]) = true ∧ (deliverWake base (k0 + 1)).isSome = true ∧
    (base.ctx (ownerOf (k0 + 1))).phase = .running ∧ (base.slot (k0 + 1)).inbox.length < 4 := by decide +kernel
/-- `base` with a free page behind the code, and a range of it in g1, g2. -/
def leasing : State := gs [(1, 0x200000), (2, 0x8000)]
theorem witness_FencesHintsAndLeases : rdy [(.fence H .pd, H, [], none), (.pref H true m1, H, [1], none), (.touch H 2 m1, H, [1], some 2)] = true ∧
    ready (.lease H 3 3 1 (.short 0) 2) H [1, 2] (some 3) leasing = true ∧ tagOf 0x200000 = 0 ∧
    offsetOf 0x200000 + 0x8000 ≤ 2 ^ 55 := by decide +kernel
/-- The same with the grant of one page of bonded DRAM. -/
def granted : State := leasing.modCtx 1 fun c => { c with handles := c.handles.put 0 { w := { dramb := 0x100000 } } }
theorem witness_FencesHintsAndLeases_code : leaseCode leasing 1 0x200000 0x200000 0x208000 3 ≠ 0 ∧
    leaseCode granted 1 0x200000 0x200000 0x208000 3 = 0 := by decide +kernel
theorem witness_FencesHintsAndLeases_held : ((heldIn (leasePages granted granted.owner 0x200000 0x208000) 0x200000 0x208000).all fun e =>
    resident (leasePages granted granted.owner 0x200000 0x208000) e.1) = true := by decide +kernel
theorem witness_AccessChecksInOrder : window base k0 0xFF00000000000000 = none ∧ window base k0 0 = some .global ∧
    window base k0 (sc 1) = some (.scratch (quadOf k0) 1) ∧ (sc 1).toNat % 8 ≠ 0 ∧
    (base.quad (quadOf k0)).mode (bankOf 0x3F0000) ≠ .scr ∧ window base k0 (sc 0x3F0000) = some (.scratch (quadOf k0) 0x3F0000) ∧
    rightsAt base 1 .global 0x8000 &&& rR ≠ rR ∧ rightsAt base 1 .global 0x100000 &&& rR = rR ∧
    leased base 1 1 [] 0x100000 = false ∧ window base k0 0x0080000000000000 = some .arena := by decide +kernel
/-- An island of two quads, each a cell, with the second closed for containment (R391). -/
def fencedAt : State := base.modCtx 1 fun c =>
  { c with wq := 2, hq := 1, rect := { c.rect with w := 2, h := 1 }, handles := [(0, { w := { cellw := 1, cellh := 1 } })],
           closed := [{ slot := quadKey 1 1 0, fault := { cause := 6 } }] }
theorem witness_AccessChecksInOrder_fence : fencedAt.fencedFrom k0 (quadKey 1 1 0) = true ∧ base.fencedFrom k0 (quadOf k0) = false ∧
    window fencedAt k0 (remoteEa 1 0 8) = some (.scratch (quadKey 1 1 0) 8) := by decide +kernel
/-- Arena slots 0 and 1, of owners 1 and 2. -/
def arenas : State := { base with arenas := [(0, { gen := 1, holder := 1, pages := 1 }), (1, { gen := 1, holder := 2, pages := 1 })] }
theorem witness_AccessChecksInOrder_arena : (arenas.arena (arenaSlot 0x0080010000000000)).holder = 2 ∧
    (arenas.arena (arenaSlot 0x0080000000000000)).holder = ownerOf k0 ∧
    tagOf 0x0080000000000000 ≠ (arenas.arena (arenaSlot 0x0080000000000000)).gen := by decide +kernel
/-- Arena slot 0 of this island with one page; slot 2 that nobody has held, slot 3 last held by another. -/
def arenas2 : State := { base with arenas := [(0, { gen := 0, holder := 1, last := 1, pages := 1 }), (3, { gen := 0, holder := 0, last := 2 })] }
/-- The same with a lease of that page. -/
def arenas3 : State := arenas2.modCtx 1 fun c => { c with leases := [⟨0x0080000000000000, 0x8000, rR, 0⟩] }
theorem witness_AccessChecksInOrder_rights : (arenas2.arena (arenaSlot 0x0080030000000000)).holder = 0 ∧
    (arenas2.arena (arenaSlot 0x0080030000000000)).last = 2 ∧ tagOf 0x0080000000000000 = (arenas2.arena 0).gen ∧
    arenaSlot 0x0080030000000000 = 3 ∧ rightsAt arenas2 1 .arena 0x0080000000008000 &&& rR ≠ rR ∧
    rightsAt arenas2 1 .arena 0x0080000000000000 &&& rR = rR ∧ leased arenas2 1 1 [] 0x0080000000000000 = false ∧
    leased arenas3 1 1 [] 0x0080000000000000 = true ∧ rightsAt arenas3 1 .arena 0x0080000000000000 &&& rR = rR ∧
    leased (lent []) 1 1 [] 0x100000 = true ∧ rightsAt (lent []) 1 .global 0x100000 &&& rR = rR ∧ ownerOf k0 ≠ 0 := by decide +kernel
theorem witness_FailedAccesses : ready (.ld H .n64 2 m1) H m1.regs (some 2) (gs [(1, sc 1)]) = true ∧
    check (gs [(1, sc 1)]) k0 (m1.ea (operands (gs [(1, sc 1)]) m1.regs)) 8 rR = .error (.trap ⟨.misalign, sc 1, rR⟩) := by decide +kernel

/-! ### Witnesses: vector and matrix instructions -/

/-- `base` with one slab instruction. -/
def slab (i : Instr) (ds : List TDesc) (args : List Word) : State :=
  match captureOf base.me k0 anyMode with
  | some c => enqueueSlab base core0 (capturedOp base i args ds c 2)
  | none => base
theorem witness_VectorDispatch : rdy [
    (.vadd V .n32 false .slot 1 2 3, H, [], none), (.vsub V .n32 false .slot 1 2 3, H, [], none), (.vmul V .n32 false .slot 1 2 3, H, [], none),
    (.vfma V .n32 false false .slot 1 2 3, H, [], none), (.vdot V .s8 false .slot 1 2 3, H, [], none), (.vdiv V .n32 .slot 1 2 3, H, [], none),
    (.vsqrt V .slot 1 2, H, [], none), (.vmin V .n32 1 2 3, H, [], none), (.vmax V .n32 1 2 3, H, [], none), (.vabs V .s32 false 1 2, H, [], none),
    (.vneg V .s32 false 1 2, H, [], none), (.vsgn V .cp 1 2 3, H, [], none), (.vand V 1 2 3, H, [], none), (.vor V 1 2 3, H, [], none),
    (.vxor V 1 2 3, H, [], none), (.vshl V 1 2 3, H, [], none), (.vshr V 1 2 3, H, [], none), (.vsar V 1 2 3, H, [], none),
    (.vcnt V .lz 1 2, H, [], none), (.vrcp V .slot 1 2, H, [], none), (.vrsq V .slot 1 2, H, [], none), (.vexp2 V .slot 1 2, H, [], none),
    (.vlog2 V .slot 1 2, H, [], none)] = true ∧ backlogAllows base core0 4 = true ∧ seqFree (base.core core0) = true ∧
    (captureOf base.me k0 .slot).isSome = true ∧ slabRoom base core0 16 = true := by decide +kernel
theorem witness_VectorDispatch_data : rdy [
    (.vcmp V (.n32 .lt) 0 1 2, H, [], none), (.vsel H 1 2 3 0, H, [], none), (.vmsk H 8 0 1 2, H, [], none), (.vmskCnt H 1 0, H, [], some 1),
    (.vmskFfs H 1 0, H, [], some 1), (.vmskFirst H 0 1, H, [1], none), (.vcvt V .f32 .s32 .slot 1 2, H, [], none),
    (.vsat V true .s8 1 2, H, [], none), (.vpack V .int .slot 1 2, H, [], none), (.vunpk V 1 2, H, [], none), (.vperm V 1 2 3, H, [], none),
    (.vshf V 1 2 3 (.short 64), H, [], none), (.vbcast V 1 2, H, [2], none), (.vins V 1 2 3 (.short 0), H, [2, 3], none),
    (.vext H true 1 2 3 (.short 0), H, [3], some 1), (.vidx V 1 2 (.short 1), H, [2], none), (.vmov V 1 2, H, [], none),
    (.vred V .add .n32 false .slot 1 2, H, [], some 1), (.vscan V .add .n32 false .slot 1 2, H, [], none),
    (.vshf V 1 2 3 (.short 65), H, [], none)] = true ∧ lanes (base.core core0).gangw = 64 := by decide +kernel
theorem witness_VectorDispatch_memory : rdy [
    (.vld V .n32 1 2 (.short 0), H, [2], none), (.vst V .n32 1 2 (.short 0), H, [2], none), (.vlds V .n32 1 2 3 (.short 0), H, [2, 3], none),
    (.vsts V .n32 1 2 3 (.short 0), H, [2, 3], none), (.vldc V .n32 1 2 (.short 0), H, [2], none), (.vgth V .n32 0 1 2 3 (.short 0), H, [2], none),
    (.vsct V .n32 0 1 2 3 (.short 0), H, [2], none), (.vrst V false .n32 1 2 3 (.short 0), H, [2, 3], none),
    (.vamo V .add .n32 0 1 2 3 (.short 0), H, [2], none)] = true := by decide +kernel
def vadd1 : Instr := .vadd V .n32 false .slot 1 2 3
theorem witness_VectorLanes : ((slab vadd1 [] []).core core0).slabQ.map (·.instr) = [vadd1] ∧ ((slab vadd1 [] []).slot k0).chk = 0 ∧
    lanes ((slab vadd1 [] []).core core0).gangw ≤ 256 ∧ badVector ((slab vadd1 [] []).slot k0) 64 vadd1 = false ∧
    (((slab vadd1 [] []).core core0).slabQ.all fun o => !badCells ((slab vadd1 [] []).core core0) o && !o.upset) = true := by decide +kernel
/-- A slab state whose oldest instruction stands before its last lane. -/
def lastLane (i : Instr) (args : List Word) : State := (slab i [] args).modCore core0 fun c => { c with slabQ := c.slabQ.map fun o => { o with done := 63 } }
/-- The oldest slab instruction. -/
def headOp (s : State) : SlabOp := (s.core core0).slabQ.headD (capturedOp base (.nop H) [] [] ⟨.rne, false, false, 0, 0, 0⟩ 0)
theorem witness_VectorLanes_memory : ([(.vld V .n32 1 2 (.short 0), [sc 0]), (.vst V .n32 1 2 (.short 0), [sc 0])].all fun e =>
      let s := lastLane e.1 e.2
      ((s.core core0).slabQ.head? == some (headOp s)) && (headOp s).instr == e.1 && (headOp s).done + 1 == lanes (s.core core0).gangw &&
        !badVector (s.slot (headOp s).slot) 64 e.1 && !(headOp s).upset && !badCells (s.core core0) (headOp s) && ((s.slot k0).getM 64 V.mask).getLsbD 63 && s.me.chk == 0) = true ∧
    (loadAt { (lastLane (.vld V .n32 1 2 (.short 0)) [sc 0]).tick.2 with cur := k0 } (sc 252) 4).isOk = true ∧
    (storeAt { (lastLane (.vst V .n32 1 2 (.short 0)) [sc 0]).tick.2 with cur := k0 } (sc 252) 4 7).isOk = true := by decide +kernel
theorem witness_VectorMasksAndWords : ((slab (.vmskCnt H 1 0) [] []).core core0).slabQ.map (·.slot) = [k0] ∧ (1 : Reg) ≠ 0 ∧
    (0 : MReg) ≠ 7 := by decide +kernel
theorem witness_ReductionsAreExact : ((slab (.vred V .add .n32 false .slot 1 2) [] []).core core0).slabQ.map (·.slot) = [k0] ∧
    ((slab (.vred V .add .n32 false .slot 1 2) [] []).core core0).gangw ∈ [1, 2, 4] := by decide +kernel
/-- `base` with descriptor 0 of 1 row and 64 columns of FP32, and descriptor 1 the same. -/
def described : State := base.modCore core0 fun c => { c with tdesc := [(0, { fmt := Fmt.f32.code, rows := 1, cols := 64 }), (1, { fmt := Fmt.f32.code, rows := 64, cols := 64 })] }
theorem witness_TileAndAccumulatorDispatch : rdy [
    (.tld H 0 0 1 (.short 0) 2 3, H, [1, 2, 3], none), (.tst H 0 0 1 (.short 0) 2 3, H, [1, 2, 3], none), (.tzero H 0, H, [], none),
    (.tmov H 0 1, H, [], none), (.tfill H 0 1 (.short 0), H, [1], none), (.azero H 0, H, [], none), (.aload H 0 1 (.short 0) 2, H, [1, 2], none),
    (.aread H 0 1 (.short 0) 2, H, [1, 2], none), (.acvt H .slot 0 0, H, [], none), (.ared H .add .f32 .slot 1 0, H, [], none),
    (.ascal H true .slot 0 (.short 1), H, [], none)] = true ∧ (needDesc described 0 fun _ => true).isOk = true := by decide +kernel
/-- A descriptor that is not valid, one with another segment's shape, and ones that `acvt` does not take. -/
theorem witness_TileAndAccumulatorDispatch_traps : (tdescOf base 7).ok = false ∧ segOk 6 (tdescOf described 0) = false ∧
    (tdescOf (described.modCore core0 fun c => { c with tdesc := [(0, { fmt := Fmt.f32.code, rows := 1, cols := 32 })] }) 0).cols ≠ 64 ∧
    (needDesc described 0 fun d => d.cols == 64 && d.format != .b4 && d.format != .bit).isOk = true := by decide +kernel
/-- Whether an instruction is the oldest of the slab queue, reads no bad cell and has half-slabs that agree. -/
def oldest (i : Instr) (ds : List TDesc) (args : List Word) : Bool :=
  let c := (slab i ds args).core core0
  c.slabQ.map (·.instr) == [i] && c.slabQ.all fun o => !badCells c o && !o.upset
theorem witness_TileAndAccumulatorDispatch_effects : ([.tzero H 1, .tmov H 0 1, .tfill H 0 1 (.short 5), .azero H 1, .acvt H .slot 0 0,
      .ared H .add .f32 .slot 1 0, .ascal H true .slot 0 (.short 1), .tld H 0 0 1 (.short 0) 2 3, .tst H 0 0 1 (.short 0) 2 3,
      .aload H 0 1 (.short 0) 2, .aread H 0 1 (.short 0) 2].all fun i => oldest i [{ fmt := Fmt.f32.code, rows := 1, cols := 64 }] [1, 2, 3]) = true ∧
    tilePoisonIn (base.core core0) 1 (fun _ => true) = false := by decide +kernel
/-- An `aload` with every access done. -/
def loaded : Option SlabOp := (((slab (.aload H 0 1 (.short 0) 2) [] [sc 0, 256]).core core0).slabQ.map fun o =>
  { o with done := (accesses (base.core core0) o).length }).head?
theorem witness_TileAndAccumulatorDispatch_last : (loaded.any fun o => ((accesses (base.core core0) o).drop o.done).isEmpty &&
    !endWaits base.tick.2 o) = true := by decide +kernel

/-! ### Witnesses: products, drains and the engine -/

def prod : MmaOp := ⟨0, 0, 1, .slot, .pt, .f32, .f32, 0, 0, false⟩
/-- Operand tiles of 1 row by 64, and 64 by 64, in FP32. -/
def tiled : State := base.modCore core0 fun c =>
  { c with tdesc := [(0, { fmt := Fmt.f32.code, rows := 1, cols := 64 }), (1, { fmt := Fmt.f32.code, rows := 64, cols := 64 })] }
theorem witness_ProductsDrainsAndWaits : (mmaDescs tiled prod).isOk = true ∧ ready (.mma H prod) H [] none tiled = true ∧
    ready (.mmaq H 0 0 prod) H [] none tiled = true ∧ (captureOf tiled.me k0 (mmaRnd prod)).isSome = true ∧
    ((tiled.core core0).follow.get {} 0).queued = none ∧ ready (.mwait H) H [] none tiled = true ∧ slabBusy tiled k0 = false ∧
    ready (.mwaitF H 1 0) H [] (some 1) tiled = true ∧ followIdle (tiled.core core0) 0 = true ∧
    ready (.adrain H .slot .raw false 0 0 1 2 3) H [1, 2, 3] none tiled = true ∧
    (drainChecks .raw 0 (operands tiled [1, 2, 3]) tiled).isOk = true ∧ backlogAllows tiled core0 64 = true ∧
    (captureOf tiled.me k0 (drainRnd .raw .slot)).isSome = true ∧ seqFree (tiled.core core0) = true ∧ slabRoom tiled core0 64 = true ∧
    ready (.mma H prod) H [] none base = true ∧
    mmaOk prod (tdescOf base prod.ta) (tdescOf base prod.tb) = false := by decide +kernel
theorem witness_ZeroingCompletes : ((slab (.azero H 1) [] []).core core0).slabQ.map (·.instr) = [.azero H 1] ∧
    ((slab (.tzero H 1) [] []).core core0).slabQ.map (·.instr) = [.tzero H 1] := by decide +kernel
theorem witness_ProductCompletes : ((after (.mma H prod) tiled).core core0).slabQ.map (·.instr) = [.mma H prod] ∧
    mmaPoison ((after (.mma H prod) tiled).core core0) prod { fmt := Fmt.f32.code, rows := 1, cols := 64 } { fmt := Fmt.f32.code, rows := 64, cols := 64 } = false ∧
    (mmaKind prod.sr prod.af prod.bf).isSome = true ∧ oldest (.mma H prod) [] [] = true := by decide +kernel

/-- A command of `n` bytes. -/
def cmdOf (ty : CmdTy) (n : Nat) : Cmd0 := ⟨ty, false, true, .cr, true, none, .f32, 0, BitVec.ofNat 40 n⟩
/-- g1 and g2 point into scratch memory that may be read and written. -/
def ends : State := gs [(1, sc 256), (2, sc 1024)]
/-- `ends` after the push of a copy, of a fill and so on. -/
def pushed (ty : CmdTy) (n : Nat) : State := { after (.xpush H (cmdOf ty n) 0 0 1 2 0) ends with cur := k0 }
theorem witness_EngineCommands : ready (.xpush H (cmdOf .copy 64) 0 0 1 2 0) H [1, 2, 0, 0] none ends = true ∧
    ready (.xpushb H (cmdOf .copy 64) 0 3 1 2 0) H [1, 2, 0, 3] (some 3) ends = true ∧
    ready (.xpushb H (cmdOf .copy 64) 0 3 1 2 0) H (unpopped [1, 2, 0, 3]) (some 3) ends = true ∧
    (ends.core core0).fifo.cmds.length < 16 ∧ ready (.xlay H 1 5) H [1] none ends = true ∧
    (loadRun ends (sc 256) 64).isOk = true ∧ (tileCheck (cmdOf .copy 64) 0 [sc 256, sc 1024, 0, 0] ends).isOk = true ∧
    operands ends [1, 2, 0, 0] = [sc 256, sc 1024, 0, 0] ∧ ready (.xseal H 3) H [] (some 3) ends = true ∧
    openSeals ends k0 true < 15 ∧ ready (.xwait H false 3 (.short 4)) H [] (some 3) ends = true ∧
    ready (.xres H 1) H [1] none ends = true := by decide +kernel
/-- `ends` with the number of tile 0 of core 0 at g2, where the descriptors are those of the build: ROWS is 0 and fails (R30). -/
def badTarget : State := gs [(1, sc 256), (2, 0xE0 <<< 48)]
theorem witness_EngineCommands_tile : ready (.xpush H (cmdOf .copy 64) 0 0 1 2 0) H [1, 2, 0, 0] none badTarget = true ∧
    ready (.xpushb H (cmdOf .copy 64) 0 3 1 2 0) H [1, 2, 0, 3] (some 3) badTarget = true ∧
    (badTarget.me.blk.any fun b => b.wait == .fifo) = false ∧
    upsetTile (cmdOf .copy 64) 0 (operands badTarget [1, 2, 0, 0]) badTarget = false ∧
    badTile (cmdOf .copy 64) 0 (operands badTarget [1, 2, 0, 0]) badTarget = true := by decide +kernel
/-- A command that has been handed back. -/
def handedBack : Cmd :=
  { cnum := 0, entry := 0, w0 := cmdOf .copy 64, w1 := 0, w2 := 0, w3 := 0, slot := k0, life := 0, batch := 0, layout := [], handed := some (sc 256) }
/-- A FIFO that is full of them. -/
def fullFifo : State := ends.modCore core0 fun c => { c with fifo := { c.fifo with cmds := List.replicate 16 handedBack } }
theorem witness_EngineCommands_full : 16 ≤ (fullFifo.core core0).fifo.cmds.length ∧
    ready (.xpushb H (cmdOf .copy 64) 0 3 1 2 0) H (unpopped [1, 2, 0, 3]) (some 3) fullFifo = true ∧
    ((fullFifo.core core0).fifo.cmds.find? fun c => c.slot == k0 && c.handed == some (sc 256)).isSome = true ∧
    ready (.xres H 1) H [1] none fullFifo = true := by decide +kernel
theorem witness_EngineQueries : rdy [(.xstat H 1 2, H, [2], some 1), (.xstatSum H 1, H, [], some 1), (.xstatP H 1 2, H, [2], some 1),
    (.xcan H false 1 2, H, [2], some 1)] = true := by decide +kernel
/-- The command of a pushed state. -/
def theCmd (s : State) : Cmd := (findCmd s core0 0).getD handedBack
theorem witness_EngineSteps : (findCmd (pushed .copy 64) core0 0).isSome = true ∧ mayRun (pushed .copy 64) core0 (theCmd (pushed .copy 64)) = true ∧
    (findCmd (pushed .fill 64) core0 0).isSome = true ∧ mayRun (pushed .fill 64) core0 (theCmd (pushed .fill 64)) = true := by decide +kernel
/-- The copy with every byte moved, then at SRC, then with an end status. -/
def moved : Cmd := { theCmd (pushed .copy 64) with state := .running, done := 64 }
theorem witness_EngineSteps_ends : maySrc (setCmd (pushed .copy 64) core0 moved) core0 moved = true ∧
    mayVis { moved with state := .srcDone } = true ∧
    (findCmd (setCmd (pushed .copy 64) core0 { moved with ended := some stProt }) core0 0).map (·.ended) = some (some stProt) := by decide +kernel
theorem witness_EngineUnitsMoveBytes : (theCmd (pushed .copy 64)).desc = none ∧
    (engKey (pushed .copy 64) core0 (theCmd (pushed .copy 64)) (sc 1024) rW 1).toOption = some (scratchKey (quadOf k0) 1024) ∧
    (engKey (pushed .copy 64) core0 (theCmd (pushed .copy 64)) (sc 256) rR 0).toOption = some (scratchKey (quadOf k0) 256) ∧
    (theCmd (pushed .copy 64)).dstAt 0 = sc 1024 ∧ (theCmd (pushed .copy 64)).srcAt 0 = sc 256 ∧
    (engKey (pushed .fill 64) core0 (theCmd (pushed .fill 64)) ((theCmd (pushed .fill 64)).dstAt 0) rW 1).toOption = some (scratchKey (quadOf k0) 1024) := by
  decide +kernel

/-! ### Witnesses: tasks -/

theorem witness_FramesRingsAndEnds : ready (.cnew H 0 false false 3 1 (.short 0) 2 0) H [1, 2, 0] (some 3) ends = true ∧
    frameKey ends (sc 256) = .ok (scratchKey (quadOf k0) 256) ∧ (freeNode ends.myCtx).isSome = true ∧
    ready (.dec H 1 (.short 0)) H [1] none ends = true ∧ (decrement ends (sc 256)).isOk = true ∧
    ready (.rpush H 1 2 0) H [1, 2, 0] none ends = true ∧ placeSlot ends k0 0 = some k0 ∧ isQuay k0 = false ∧
    ringFull (ends.core core0) = false ∧ ready (.rpop H 3 4) H [] (some 3) ends = true ∧ ready (.tprio H true) H [] none ends = true ∧
    ready (.tend H) H [] none ends = true ∧ ends.me.inl = [] ∧
    ready (.cend H 0 0) H [0] none (base.modMe fun x => { x with mode := false }) = true ∧
    ready (.cend H 1 0) H [1] none (ends.modMe fun x => { x with mode := false }) = true := by decide +kernel
theorem witness_FramesRingsAndEnds_inline : (base.modMe fun x => { x with inl := [64] }).me.inl = 64 :: [] ∧
    ready (.tend H) H [] none (base.modMe fun x => { x with inl := [64] }) = true := by decide +kernel
/-- `base` with a join counter of some value at g1. -/
def joins (n : Nat) : State := storeBytes ends k0 (scratchKey (quadOf k0) 256) (frameBytes (BitVec.ofNat 64 n) 1 0 false false 0)
theorem witness_JoinCountersCountDown :
    (∀ n ∈ [0, 1, 2], frameKey (joins n) (sc 256) = .ok (scratchKey (quadOf k0) 256) ∧
      anyPoison (joins n) (scratchKey (quadOf k0) 256) 4 = false ∧ leNat 4 (readBytes (joins n) (scratchKey (quadOf k0) 256) 4) = n) ∧
    ringFull ((joins 1).core (frameCore (joins 1) (scratchKey (quadOf k0) 256))) = false ∧
    (takeLatch ends k0 (scratchKey (quadOf k0) 256)).isOk = true ∧
    (takeLatch { joins 2 with cycle := 16 } k0 (scratchKey (quadOf k0) 256)).isOk = true := by decide +kernel
/-- A context in which every slot of core 0 runs, and no node is free. -/
def crowded : State := (List.range 16).foldl (fun s n => s.modSlot (k0 + n) fun x => { x with running := true }) base
theorem witness_SpawnStartsAChild : ready (.spawn H 2 false false false 3 0 0) H [0, 0] (some 3) base = true ∧
    placeCore base 0 = some core0 ∧ (0 : Word).toNat % 4 = 0 ∧ idleSlot base core0 = some (k0 + 1) ∧ freeNode base.myCtx = some 2 ∧
    idleSlot crowded core0 = none ∧ crowded.me.inl.length < 8 ∧ ready (.spawn H 2 false false false 3 0 0) H [0, 0] (some 3) crowded = true ∧
    ready (.spawn H 2 false true true 3 0 0) H [0, 0] (some 3) crowded = true ∧ unpaired crowded = true := by decide +kernel
theorem witness_NestsAndChunks : ready (.nest H 0 1 2 3) H [1, 2, 3] none (gs [(1, 100), (3, 4)]) = true ∧ extentGap [100, 0, 0, 0] = false ∧
    ready (.next H 3 (.short 4)) H [] (some 3) base = true ∧ (base.core core0).nestRem = 0 ∧ (base.me.pc + 4 * (Imm.short 4).sext).toNat % 4 = 0 ∧
    ready (.next H 3 (.short 4)) H [] (some 3) (after (.nest H 0 1 2 3) (gs [(1, 100), (3, 4)])) = true ∧
    ((after (.nest H 0 1 2 3) (gs [(1, 100), (3, 4)])).core core0).nestRem = 100 := by decide +kernel
/-- Whether an arrival succeeds, and whether it ends the phase. -/
def arrives (s : State) (n : BitVec 16) : Option Bool :=
  match arrive s .cr 0 n with
  | .ok (_, e) => some e
  | .error _ => none
/-- `base` after a `bar` of two that waits. -/
def barred : State := after (.bar H .cr 0 2) (gs [(2, 2)])
/-- The same after the other arrival. -/
def released : State := match arrive { barred with cur := k0 + 1 } .cr 0 2 with
  | .ok (t, _) => { t with cur := k0 }
  | .error _ => barred
theorem witness_Barriers : base.me.joined = none ∧ ready (.bar H .cr 0 2) H [2] none (gs [(2, 1)]) = true ∧ arrives (gs [(2, 1)]) 1 = some true ∧
    ready (.barq H .cr 0 3 2) H [2] (some 3) (gs [(2, 2)]) = true ∧ arrives (gs [(2, 2)]) 2 = some false ∧
    ready (.poll H .cr 0 0 2) H [2] none base = true := by decide +kernel
theorem witness_Barriers_wait : released.me.joined = some 0 ∧ ready (.bar H .cr 0 2) H (unpopped [2]) none released = true ∧
    (barrier released (barKey released k0 .cr 0)).phase ≠ 0 := by decide +kernel
/-- `base` with bank 3 a FIFO bank. -/
def fifoed : State := (gs [(1, 3)]).modQuad base.myQuad fun q => { q with modes := q.modes.put 3 .fifo }
theorem witness_QueuesAndPlaces : ready (.qcfgBind H 0 1 (.short 16)) H [1] none fifoed = true ∧
    (fifoed.quad fifoed.myQuad).mode 3 = .fifo ∧ (qEntries fifoed core0 0).isEmpty = true ∧
    rdy [(.qcfgUnbind H 0 (.short 0), H, [], none), (.qsts H 1 0, H, [], some 1), (.place H 0 0 1 2, H, [2], some 1),
      (.placeLin H 1 2, H, [2], some 1), (.placeQuay H 1 2, H, [2], some 1)] = true := by decide +kernel
/-- Widths 2, 1, 1, 0 in g1; with one slab instruction of core 1 under way as well. -/
def gangs : State := gs [(1, 74)]
def gangsBusy : State := gangs.modCore core0 fun c => { c with slabQ := ((slab (.azero H 1) [] []).core core0).slabQ }
theorem witness_GangsBanksAndChecks : ready (.gang H 3 1) H [1] (some 3) gangs = true ∧
    widthsOk (arg (operands gangs [1]) 0) = true ∧ widthsOk (arg (operands (gs [(1, 0x3)]) [1]) 0) = false ∧
    ready (.gang H 3 1) H [1] (some 3) (gs [(1, 0x3)]) = true ∧
    (((List.range 4).filter fun c => (gangs.core (gangs.myQuad + 16 * c)).gangw != widthOf 74 c).any fun c =>
      gangBusy gangs (gangs.myQuad + 16 * c)) = false ∧
    (((List.range 4).filter fun c => (gangsBusy.core (gangsBusy.myQuad + 16 * c)).gangw != widthOf 74 c).any fun c =>
      gangBusy gangsBusy (gangsBusy.myQuad + 16 * c)) = true ∧ ready (.gang H 3 1) H [1] (some 3) gangsBusy = true := by decide +kernel
theorem witness_GangsBanksAndChecks_banks : ready (.bankcfg H .fifo 3 1) H [1] (some 3) (gs [(1, 8)]) = true ∧
    switching (base.quad base.myQuad) 8 .fifo = [3] ∧ switching (base.quad base.myQuad) 8 .scr = [] ∧
    (∀ c ∈ [0, 1, 2, 3], (base.core (base.myQuad + 16 * c)).ring = []) ∧ ready (.chk H 1) H [1] none base = true ∧
    bankTurn base k0 = true ∧ bankTurn (base.modQuad base.myQuad fun q => { q with switches := [{ slot := k0 + 1, dst := 0, banks := 8, mode := .fifo, waitFor := [] }] }) k0 = false := by
  decide +kernel

/-! ### Witnesses: arenas and warrants -/

/-- A context with grants, an arena of its own in slot 0 at g1, and a frame of node 1 at g2. -/
def holding : State := { storeBytes ((gs [(1, 0x0080000000000000), (2, sc 256), (3, 0x8000)]).modCtx 1 fun c =>
    { c with handles := [(0, { w := { dramb := 2 ^ 20, cxlb := 2 ^ 20, llcw := 1 } })] }) k0 (scratchKey (quadOf k0) 256)
      (frameBytes 1 1 0 false false 0) with
  arenas := [(0, { holder := 1, node := 1, pages := 1 })] }
/-- The same, but the arena is bound to node 2, or the frame names the dead node 3, or every slot is taken, or 64 ranges are. -/
def foreignNode : State := holding.modArena 0 fun a => { a with node := 2 }
def deadNode : State := storeBytes holding k0 (scratchKey (quadOf k0) 256) (frameBytes 1 3 0 false false 0)
def allTaken : State := { holding with arenas := (List.range 256).map fun n => (n, { holder := 1, node := 1, pages := 1 }) }
def allLeased : State := holding.modCtx 1 fun c => { c with leases := List.replicate 64 ⟨0, 0, 0, 0⟩ }
theorem witness_ArenasAreMadeHandedAndEnded : ready (.anew H .llc 4 3 (.short 0)) H [3] (some 4) holding = true ∧ freeArena holding = some 1 ∧
    1 ≤ placeRoom holding 1 .llc ∧ holding.myCtx.leases.length < 64 ∧ placeRoom holding 1 .dram < 64 ∧
    64 ≤ allLeased.myCtx.leases.length ∧ 1 ≤ placeRoom allLeased 1 .llc ∧
    ready (.ahand H 4 1 2) H [1, 2] (some 4) holding = true ∧ handleCheck holding 0x0080000000000000 = .ok 0 ∧
    frameKey holding (sc 256) = .ok (scratchKey (quadOf k0) 256) ∧ boundHere holding 0 = true ∧
    (holding.myCtx.nodes.find? (leNat 2 (readBytes holding (scratchKey (quadOf k0) 260) 2))).isSome = true ∧
    boundHere foreignNode 0 = false ∧ (deadNode.myCtx.nodes.find? (leNat 2 (readBytes deadNode (scratchKey (quadOf k0) 260) 2))).isNone = true ∧
    ready (.aend H 4 1) H [1] (some 4) holding = true ∧ holding.myCtx.moving = false ∧
    ready (.aqry H 4 1) H [1] (some 4) holding = true ∧ handleSlot 0x0080000000000000 = .ok 0 := by decide +kernel
theorem witness_ArenasAreMadeHandedAndEnded_taken : freeArena allTaken = none := by decide +kernel

/-- A slot that has the answer to its `wpres`. -/
def answered : State := base.modMe fun x => { x with asked := some (x.pc, some 7) }
/-- A slot that waits for the admission engine; g1 and g2 point at zeroed scratch memory. -/
def waitsEngine : State := (gs [(1, sc 0), (2, sc 4096), (3, sc 8192)]).modMe fun x =>
  { x with blk := some { instr := .nop H, srcs := [], dst := none, wait := .engine, since := 0, ticket := 0, limit := 0 } }
theorem witness_WarrantInstructions : ready (.wpresAdd H 4 1) H [1] (some 4) answered = true ∧ answered.me.mode = true ∧
    answered.me.asked = some (answered.me.pc, some 7) ∧ ready (.wpresChild H 4 1 2) H [1, 2] (some 4) answered = true ∧
    ready (.wsplit H .same 4 0 1 2) H [0, 1, 2] (some 4) waitsEngine = true ∧ ready (.wdeleg H .same 4 0 1 2) H [0, 1, 2] (some 4) waitsEngine = true ∧
    inEngineWait waitsEngine.me = true ∧ (handleOf waitsEngine 0).isOk = true ∧ (readRecord waitsEngine (sc 0) 128).isOk = true ∧
    (recordSpace waitsEngine (sc 4096) 2048).isOk = true ∧ ready (.wsurr H 4 0) H [0] (some 4) base = true ∧
    rdy [(.wqry H .serial 4 0, H, [0], some 4), (.tnow H 4, H, [], some 4)] = true ∧
    ready (.attest H 4 1 2) H [1, 2] (some 4) waitsEngine = true ∧ (recordSpace waitsEngine (sc 0) 1680).isOk = true ∧
    (readRecord waitsEngine (sc 4096) 32).isOk = true ∧ ready (.klease H 4 1) H [1] (some 4) waitsEngine = true := by decide +kernel
theorem witness_WarrantInstructions_token : (readRecord waitsEngine (sc 0) 1536).isOk = true := by decide +kernel
/-- A second handle: a child, an ended child, an added warrant in use, and one that is not. -/
def second (x : Handle) : State := (gs [(1, 1)]).modCtx 1 fun c => { c with handles := c.handles.put 1 x }
def child1 : Handle := { w := {}, child := some 2 }
def ended1 : Handle := { w := {}, childState := 2 }
def used1 : Handle := { w := {}, rect := some ⟨0, 0, 1, 1, 0⟩ }
def unused1 : Handle := { w := {}, rect := some ⟨0, 5, 1, 1, 5⟩ }
def away1 : Handle := { w := {}, childState := 1, away := some 9 }
theorem witness_WarrantInstructions_surrender : (∀ x ∈ [child1, ended1, used1, unused1, away1], handleOf (second x) 1 = .ok (1, x) ∧
      ready (.wsurr H 4 1) H [1] (some 4) (second x) = true) ∧ child1.child = some 2 ∧ ended1.childState = 2 ∧
    addedInUse (second used1) 1 used1 = true ∧ addedInUse (second unused1) 1 unused1 = false := by decide +kernel

/-! ### Witnesses: events of a context -/

/-- A wait for a message since cycle 0 with a limit of 100. -/
def blk1 : Block := { instr := .nop H, srcs := [], dst := none, wait := .inbox, since := 0, ticket := 0, limit := 100 }
/-- `base` with slot 1 in that wait, 200 cycles on. -/
def waiting1 : State :=
  let s := base.modSlot (k0 + 1) fun x => { x with running := true, blk := some blk1 }
  { s with cycle := 200 }
/-- `base` at a clock value with an end time and a notice. -/
def timed (clock notAfter expiry : Nat) (notice : Option Nat) : State := (base.modPkg fun p => { p with clock }).modCtx 1 fun c =>
  { c with handles := [(0, { w := { notAfter } })], expiry, notice }
/-- A slot that is far ahead of the floor of its island's times (R265). -/
def ahead : State := base.modMe fun x => { x with tt := 0x400000000010 }
theorem witness_TimeAndWaitEvents_times : 2 ^ 46 < (highestTime ahead 1 - (ahead.ctx 1).floor).toNat ∧
    (highestTime base 1 - (base.ctx 1).floor).toNat ≤ 2 ^ 46 ∧ (base.ctx (ownerOf core0)).phase.onQuads = true ∧
    (base.ctx (ownerOf core0)).spillWait = false ∧ (base.modPkg fun p => { p with slew := some 0 }).pkg.slew = some 0 ∧
    (base.modPkg fun p => { p with anchored := true }).pkg.anchored = true := by decide +kernel
theorem witness_TimeAndWaitEvents : (base.ctx (ownerOf core0)).phase = .running ∧ (waiting1.slot (k0 + 1)).blk = some blk1 ∧ blk1.limit ≠ 0 ∧
    blk1.since + blk1.limit ≤ waiting1.cycle ∧ satisfied waiting1 (k0 + 1) blk1 = false ∧
    noticeReady (timed 5000 5500 9000 none) 1 = true ∧
    endReady (timed 9000 5500 9000 (some 5000)) 1 = true ∧ (endTime (timed 9000 5500 9000 (some 5000)) 1).2 = false ∧
    endReady (timed 9000 8000 5500 (some 5000)) 1 = true ∧ (endTime (timed 9000 8000 5500 (some 5000)) 1).2 = true := by
  decide +kernel
/-- `base` with a record on the ring of core 0. -/
def ringed : State := base.modCore core0 fun c => { c with ring := [⟨0, false, 1, 0⟩], ringt := 1 }
def record1 : RingRec := ((ringNext (ringed.core core0)).getD ⟨0, false, 0, 0⟩)
/-- A bank switch that waits for nothing. -/
def switch1 : Switch := { slot := k0, dst := 3, banks := 8, mode := .fifo, waitFor := [] }
/-- A product that waits in f0 with its trigger fallen. -/
def triggered : State := (after (.mmaq H 0 0 prod) tiled).modCore core0 fun c =>
  { c with follow := c.follow.put 0 { (c.follow.get {} 0) with due := true } }
theorem witness_CoreEvents : (ringNext (ringed.core core0)).isSome = true ∧ idleSlot ringed core0 = some (k0 + 1) ∧
    (ringed.ctx (ownerOf core0)).phase = .running ∧ (ringed.slot (k0 + 1)).chk = 0 ∧
    ((ringTake ringed core0 record1).1 &&& 0x1C#64) = 0 ∧ switch1.waitFor.any (stillUses base) = false ∧
    ((triggered.core core0).follow.get {} 0).queued.isSome = true ∧ ((triggered.core core0).follow.get {} 0).due = true ∧
    slabRoom triggered core0 64 = true ∧ ringed.fenced core0 = false ∧ stillDrains base base.myQuad switch1 = false := by decide +kernel
theorem witness_CoreEvents_switch : ((base.modQuad base.myQuad fun q => { q with switches := [switch1] }).quad base.myQuad).switches =
    switch1 :: [] := by decide +kernel
/-- A drain that has landed everything, and one that has not. -/
def drain1 (writes : List (Nat × Nat × List Byte)) : Drain :=
  { slot := k0, seq := 0, pc := 0, lvl := false, writes, target := core0, code := 0x1000, frame := 0, prio := false, node := 1, fl := 0 }
theorem witness_CoreEvents_drain : ((base.modCore core0 fun c => { c with drains := [drain1 []] }).core core0).drains = drain1 [] :: [] ∧
    (drain1 []).writes = [] ∧ ((base.modCore core0 fun c => { c with drains := [drain1 [(0, 0, [0])]] }).core core0).drains = drain1 [(0, 0, [0])] :: [] ∧
    (drain1 [(0, 0, [0])]).writes ≠ [] := by decide +kernel
/-- A late trap and a hand-back that wait for their slot. -/
def late1 : Pend := { cause := Cause.prot.code, late := true, pc := 64, tval := 0, tseq := 3, lvl := false }
def hand1 : Pend := { cause := Cause.xhand.code, late := false, pc := 64, tval := 0x100, tseq := 0, lvl := false }
theorem witness_CoreEvents_traps : pendNow (base.modMe fun x => { x with pend := [late1] }) k0 = some late1 ∧ late1.late = true ∧
    pendNow (base.modMe fun x => { x with pend := [hand1] }) k0 = some hand1 ∧ hand1.late = false ∧ hand1.cause = Cause.xhand.code := by
  decide +kernel
/-- `base` as a shared context, with another that waits for the same quads. -/
def shared : State := (base.modCtx 1 fun c => { c with cls := 1 })
def shared2 : State := { shared with ctxs := shared.ctxs.put 2 { phase := .swapped, cls := 1, cause := 1 } }
/-- `base` swapped out, with a good or a bad image. -/
def outNow (bad : Bool) : State := base.modCtx 1 fun c => { c with phase := .swapped, cause := 1, badImage := bad }
theorem witness_PreemptionEvents : (base.ctx 1).phase = .running ∧ drained base 1 = true ∧ drained (slab vadd1 [] []) 1 = false ∧
    ((slab vadd1 [] []).ctx 1).phase = .running ∧ restorable (outNow false) 1 = true ∧ restorable (outNow true) 1 = true ∧
    ((outNow true).ctx 1).badImage = true ∧ ((outNow false).ctx 1).badImage = false ∧ (shared.ctx 1).cls = 1 ∧
    (shared.ctx 1).sliceEnd ≤ shared.pkg.clock ∧ mustSpill base 1 = false ∧ ((rivals shared2 1).any fun e => e.2.cls = 1 && e.2.waits) = true ∧
    ((outNow false).ctx 1).waits = true ∧ placeFits (outNow false) 1 2 2 = true ∧ (State.reset.pkg.rows.get [] 0).contains 5 = false := by
  decide +kernel

/-! ### Witnesses: pages, the host, the mailbox -/

/-- `base` with a readable and writable page 64 of owner 1. -/
def paged (f : Page → Page) : State := (granted.modPage 64 fun _ => f { holder := 1, rights := rR ||| rW, seg := 3, tier := .cxl }).modCtx 1
  fun c => { c with tdisp := .run }
theorem witness_PageAndHostEvents : mayMigrate (paged fun p => { p with counters := [(0, 256)] }) 64 0 = true ∧
    ((paged fun p => { p with inFlight := some 0 }).page 64).inFlight = some 0 ∧ ((paged id).page 64).holder ≠ 0 ∧
    flipReady (paged fun p => { p with requests := [true] }) 64 = true ∧ ((paged fun p => { p with bias := .toHost }).page 64).bias = .toHost ∧
    ((paged fun p => { p with bias := .toDev }).page 64).bias = .toDev ∧ (paged id).pkg.linkUp = true ∧ ((paged id).ctxs.find? 1).isSome = true ∧
    onlyLlc (paged id) (64 * 32768 / 128) = false ∧ holderOf (paged id) (64 * 32768) ≠ 0 := by decide +kernel
theorem witness_PageAndHostEvents_access :
    ((lineParts (64 * 32768 + 120) 16).all fun p => hostMay (paged id) 1 p.1 true && hostMay (paged id) 1 p.1 false &&
      !pageBusy (paged id) (p.1 / 2 ^ 15 * 2 ^ 15)) = true ∧ ((lineParts (64 * 32768 + 120) 16).any fun p => !hostMay (paged id) 2 p.1 true) = true ∧
    ((lineParts (64 * 32768 + 120) 16).all fun p => hostMay (paged fun p => { p with bias := .toDev }) 1 p.1 true &&
      pageBusy (paged fun p => { p with bias := .toDev }) (p.1 / 2 ^ 15 * 2 ^ 15)) = true := by decide +kernel
theorem test_host_write : readByte (after (.hostAccess 1 (64 * 32768 + 120) true (List.replicate 16 9)) (paged id)) (64 * 32768 + 135) = 9 := by
  decide +kernel

/-- A record of a kind, with some body bytes. -/
def recordOf (kind : Nat) (body : List Byte) : List Byte :=
  magic ++ le 2 1 ++ le 1 kind ++ zeros 1 ++ le 4 1536 ++ zeros 48 ++ body ++ zeros (1472 - body.length)
/-- A package with one operator key, the empty one, a domain, and an Ostik port that is UP. -/
def keyed : State := base.modPkg fun p => { p with keys := [(0, [])], domains := [(5, { members := [7] })], ports := [(4, { state := .up })] }
theorem witness_MailboxOrders : mailboxOpen keyed = true ∧ (keyed.pkg.waiting.filter Queued.isPres).length < 16 ∧ keyed.pkg.waiting = [] ∧
    (recordOf 6 (zeros 16 ++ le 1 3)).length + ([] : List Byte).length + ([] : List Byte).length ≤ 32720 ∧
    mailboxOpen (keyed.modPkg fun p => { p with request := true }) = false ∧
    ctxOfSerial keyed 0 (fun c => c.phase == .abrupt && !c.gone) = none ∧
    ctxOfSerial (keyed.modCtx 1 fun c => { c with phase := .abrupt }) 0 (fun c => c.phase == .abrupt && !c.gone) = some 1 ∧
    launchProof (requested (keyed.modCtx 1 fun c => { c with phase := .abrupt }) 4 3 (le 8 0 ++ [] ++ [])) 1 [] [] = true ∧
    moveOk (recordOf 6 (zeros 16 ++ le 1 3)) = true ∧ moveOk [] = false ∧
    ctxOfSerial keyed (fieldWord (recordOf 6 (zeros 16 ++ le 1 3)) 64) (fun c => c.phase != .building) = some 1 ∧
    (keyed.ctx 1).move = none ∧ liveOstik keyed ≠ [] ∧ liveOstik (keyed.modPkg fun p => { p with ports := [] }) = [] := by decide +kernel
/-- An image of one empty `.text` segment at 2^20; no bytes are no image (R372). -/
theorem witness_MailboxOrders_test : (parseImage (imageMagic ++ le 8 1 ++ le 1 1 ++ zeros 7 ++ le 8 (2 ^ 20) ++ zeros 8)).isSome = true ∧
    parseImage [] = none := by decide +kernel
/-- A move order under a key that verifies it: verification is left open (log 2), so the key's agreement is a premise. -/
theorem witness_MailboxOrders_signed (r : List Byte) (h : Config.falconVerify [] (signedMessage r) (signatureOf r) = true)
    (hs : keyHash [] = signerOf r) : signedBy r (operatorKey keyed (signerOf r)) = true := by
  have hk : keyed.pkg.keys = [(0, [])] := rfl
  simp [signedBy, operatorKey, hk, hs, h]

/-- Some spent-serial store. -/
def storeOf (e : Option Spent) : Tab Spent :=
  match e with
  | none => []
  | some e => [(spentKey 5 9, e)]
/-- The one member of domain 5 is this chip, with one entry in the store. -/
def home (e : Option Spent) : State := base.modPkg fun p =>
  { p with chip := 7, domains := [(5, { members := [7] })], spent := storeOf e, ports := [(4, { state := .up })] }
theorem home_here (e : Option Spent) : homeHere (home e) 5 9 = true := by
  have hd : (home e).pkg.domains.find? 5 = some { members := [7] } := rfl
  have hc : (home e).pkg.chip = 7 := rfl
  simp [homeHere, homeChip, hd, hc, Nat.mod_one]
theorem witness_RedemptionEvents : liveOstik (home none) = [4] ∧ liveOstik ((home none).modPkg fun p => { p with ports := [] }) = [] ∧ (home none).pkg.spent.find? (spentKey 5 9) = none ∧
    (((home none).pkg.domains.find? (5 : Word).toNat).getD { members := [] }).floor ≤ (9 : Word).toNat / 2 ^ 32 ∧ (home none).pkg.spent.length < 1048576 ∧
    (home (some (.live 3))).pkg.spent.find? (spentKey 5 9) = some (.live 3) ∧
    (home (some (.held 3))).pkg.spent.find? (spentKey 5 9) = some (.held 3) := by decide +kernel
def claim1 : OpenClaim := { nonce := 11, p := {}, w := {}, hold := { rect := ⟨0, 0, 1, 1, 0⟩ }, sent := 1 }
/-- `base` with that claim open at some cycle. -/
def claiming (cycle : Nat) : State := { base.modPkg fun p => { p with claims := [claim1], ports := [(4, { state := .up })] } with cycle }
/-- A claim sent at cycle 1 is open at cycle 0, and late 10 ms behind its sending, however many cycles that is (log 2). -/
theorem witness_RedemptionEvents_claims :
    ((claiming 0).pkg.claims.find? fun c => c.nonce == 11 && !c.late (claiming 0)) = some claim1 ∧
    ((claiming (1 + claimCycles)).pkg.claims.find? fun c => c.nonce == 11 && c.late (claiming (1 + claimCycles))) = some claim1 ∧
    (base.pkg.claims.find? fun c => c.nonce == 11 && !c.late base) = none := by
  have hc (n : Nat) : (claiming n).pkg.claims = [claim1] ∧ (claiming n).cycle = n := ⟨rfl, rfl⟩
  refine ⟨?_, ?_, rfl⟩
  · simp [hc, claim1, OpenClaim.late]
  · simp [hc, claim1, OpenClaim.late]

/-- `base` in a move, with an Ostik port that is UP. -/
def moving1 (m : MoveSt) (ph : Phase) : State := (base.modPkg fun p => { p with ports := [(4, { state := .up })] }).modCtx 1 fun c =>
  { c with move := some m, phase := ph }
theorem witness_MoveEvents : ((moving1 {} .running).ctx 1).move = some {} ∧ pagesSettled (moving1 {} .running) 1 = true ∧
    drained (moving1 {} .running) 1 = true ∧ ((moving1 {} .running).ctx 1).phase = .running ∧ liveOstik (moving1 {} .running) = [4] ∧
    ((moving1 { stopped := true } .swapped).ctx 1).move = some { stopped := true } ∧ ((moving1 { stopped := true } .swapped).ctx 1).phase = .swapped ∧
    ((moving1 { role := true, stopped := true } .swapped).ctx 1).move = some { role := true, stopped := true } ∧
    pullReady { away := true, pulls := [3, 4] } 3 = true ∧ pullReady { away := true, pulls := [3] } 3 = true ∧
    pullReady { role := true, pulls := [3, 4] } 3 = true ∧ pullReady { role := true, pulls := [3] } 3 = true ∧
    mustSpill (moving1 {} .running) 1 = false := by decide +kernel
/-- A slot of an arrived context that has touched page 64 on its way, and one that has not. -/
def touching (t : Option (Word × BitVec 4)) : State := (moving1 { role := true, pulls := [64] } .running).modMe fun x => { x with touch := t }
theorem witness_MoveEvents_timeout : (pullTouch (touching (some (0x200008, rR))) 1 64).isSome = true ∧ pullTouch (touching none) 1 64 = none ∧
    ((touching none).ctx 1).move = some { role := true, pulls := [64] } := by decide +kernel
/-- What another chip has sent is left open (log 85): an owner identity without a context takes it in, or finds none that fits. -/
theorem witness_MoveEvents_arrival (v : State) : (moving1 {} .running).ctxs.find? 2 = none ∧ (moving1 {} .running).pkg.boot = .on ∧
    (Config.arriving v.fresh = none ∨ ∃ a, Config.arriving v.fresh = some a ∧ (arrivalFits v.tick.2 2 a = false ∨ arrivalFits v.tick.2 2 a = true)) := by
  refine ⟨by decide +kernel, by decide +kernel, ?_⟩
  cases Config.arriving v.fresh with
  | none => exact .inl rfl
  | some a => exact .inr ⟨a, rfl, by cases arrivalFits v.tick.2 2 a <;> simp⟩
/-- The context's serial is of no known domain, so the home's answer is the free value (log 1): either of the two clauses of the switch applies. -/
theorem witness_MoveEvents_switch (m : MoveSt) : (∃ u, sendMove (moving1 m .swapped) 1 7 = (true, u)) ∨
    ∃ u, sendMove (moving1 m .swapped) 1 7 = (false, u) := by
  rcases h : sendMove (moving1 m .swapped) 1 7 with ⟨b, u⟩
  cases b
  · exact .inr ⟨u, rfl⟩
  · exact .inl ⟨u, rfl⟩

/-! ### Witnesses: ports, power, settings -/

/-- `base` with a port in some state. -/
def ported (n : Nat) (p : Port) : State := base.modPkg fun q => { q with ports := [(n, p)] }
theorem witness_PortEvents : (portOf (ported 4 { state := .up }) 4).state = .up ∧ portGood (ported 4 { state := .up }) [20] 0 = false ∧
    portGood (ported 4 { state := .up }) [40] 0 = true ∧ (portOf (ported 4 { state := .degraded, good := 60 }) 4).state = .degraded ∧
    60 ≤ (portOf (ported 4 { state := .degraded, good := 60 }) 4).good ∧ (portOf (ported 0 {}) 4).state = .down ∧
    base.pkg.boot ≠ .off ∧ PortState.low .degraded4 = true ∧ PortState.low .up = false ∧ (portOf (ported 4 {}) 0).state = .down ∧
    partnerOk (ported 4 {}) 4 ⟨true, []⟩ = true ∧ partnerOk (ported 4 {}) 4 ⟨false, []⟩ = false ∧ base.pkg.boot = .on ∧
    (base.modPkg fun p => { p with linkUp := false }).pkg.linkUp = false ∧ portExists 4 = true ∧
    (base.modCtx 1 fun c => { c with npkg := 2 }).ctxs.find? 1 ≠ none ∧ ((base.modCtx 1 fun c => { c with npkg := 2 }).ctx 1).npkg ≠ 1 := by
  decide +kernel
/-- The form of the part is left open (log 2): the host port is the UCIe port of the module with host, and a CXL port of the others; either exists, and
takes a partner that asks for TDISP. -/
theorem witness_PortEvents_host (s : State) : (Config.form = .host → hostPort s = 20 ∧ portExists 20 = true ∧ partnerOk s 20 ⟨false, [.tdisp]⟩ = true) ∧
    (Config.form ≠ .host → s.pkg.cxlPort = 0 → hostPort s = 0 ∧ portExists 0 = true ∧ partnerOk s 0 ⟨false, [.tdisp]⟩ = true) :=
  ⟨fun h => by simp [hostPort, hostPortOf, portExists, partnerOk, LinkAsk.offered, h],
   fun h hp => by simp [hostPort, hostPortOf, portExists, partnerOk, LinkAsk.offered, h, hp]⟩
/-- `base` with some power of a domain. -/
def powered (d : Nat) (f : Power → Power) : State := modPower base d f
/-- A report of the greatest flux, and one of none. -/
def fluxOf (flux : BitVec 32) : RegReport := ⟨3, 0, 0, 0, 1, flux, 0⟩
/-- The vendor limit is left to the part (log 2): a cap acts where an estimate passes it. -/
theorem witness_PowerAndBoot_cap (h : Config.fluxLimit 3 < 4294967295) (p : Power) (hp : p.cap = 100) :
    aboveCap 3 { p with report := some (fluxOf 4294967295) } = true := by simpa [aboveCap, fluxOf, hp] using h
theorem witness_PowerAndBoot_rise (h : 0 < Config.fluxLimit 3) (p : Power) (hp : p.cap = 100) :
    belowCap 3 { p with report := some (fluxOf 0) } = true ∧ aboveCap 3 { p with report := some (fluxOf 0) } = false := by
  simp [belowCap, aboveCap, fluxOf, hp, h]
/-- A stack that has stood at duty 8/64 since clock value 0, where its cap acts. -/
def hotState (d : Nat) : State := (powered d fun p => { p with duty := 8, hot := some 0, report := some (fluxOf 4294967295) }).modPkg fun p => { p with clock := 10000 }
theorem witness_PowerAndBoot_trip (d : Nat) (hd : d = 3 ∨ d = 16) (h : Config.fluxLimit d < 4294967295) : tripDue (hotState d) d = true := by
  rcases hd with rfl | rfl
  · have hp : powerOf (hotState 3) 3 = { duty := 8, hot := some 0, report := some (fluxOf 4294967295) } := by decide +kernel
    have hc : (hotState 3).pkg.clock = 10000 := rfl
    simp [tripDue, hp, hc, isDomain, aboveCap, fluxOf, h]
  · have hp : powerOf (hotState 16) 16 = { duty := 8, hot := some 0, report := some (fluxOf 4294967295) } := by decide +kernel
    have hc : (hotState 16).pkg.clock = 10000 := rfl
    simp [tripDue, hp, hc, isDomain, aboveCap, fluxOf, h]
/-- A low duty whose rise is due: no report has come. -/
theorem witness_PowerAndBoot_due : riseDue ((powered 16 fun p => { p with duty := 32 }).modPkg fun p => { p with clock := 1000 }) 16 = true ∧
    riseDue base 16 = false ∧ tripDue base 16 = false ∧ aboveCap 16 (powerOf base 16) = false ∧ overLimit base = false := by decide +kernel
/-- An input power above the package limit. -/
theorem witness_PowerAndBoot_package : overLimit (powered 3 fun p => { p with report := some ⟨3, 1000, 4000000, 0, 1, 0, 0⟩ }) = true ∧ isDomain 17 = false := by
  decide +kernel
theorem witness_PowerAndBoot : isDomain 3 = true ∧ isDomain 16 = true ∧ (powerOf (powered 3 fun p => { p with idle := true }) 3).idle = true ∧
    (powerOf (powered 3 fun p => { p with idle := true }) 3).idleEnd ≤ base.pkg.clock ∧ base.pkg.quads.get .working 9 ≠ .retired ∧
    base.pkg.repaired.find? 9 = none ∧ (base.modPkg fun p => { p with quads := [(9, .testing)] }).pkg.quads.get .working 9 = .testing ∧
    base.pkg.boot ≠ .off ∧ (base.modPkg fun p => { p with boot := .off }).pkg.boot = .off ∧
    [true, true, true, true].take 4 = [true, true, true, true] ∧ stageFails base [false] = some 1 ∧
    (base.modPkg fun p => { p with boot := .recovery }).pkg.boot = .recovery ∧ base.pkg.svn ≤ 3 := by decide +kernel
/-- Signatures are left open (log 2): an image that the vendor root's key verifies passes. -/
theorem witness_PowerAndBoot_image (m : Config.StageImage) (h : Config.falconVerify Config.vendorKey (shake256 m.bytes 32) m.sig = true)
    (hv : base.pkg.svn ≤ m.version) : imagePasses base m = true := by simp [imagePasses, h, hv]
/-- `base` with the straits of its quad bound. -/
def paired : State := bindStraits base base.myQuad
/-- The quad of `base` by its physical number. -/
def quad0 : Nat := quadNo (base.physQuad base.myQuad)
/-- `base` with one strait, the other half-slabs unused. -/
def lone : State := base.modCtx 1 fun c => { c with straits := [(quad0, [(8 * quad0, 8 * quad0 + 1)])] }
/-- The limit of a margin is left to the part (log 2): where a margin can lie below it, a half-slab fails on an idle quad, in a strait that has a
spare half-slab, or in one that has none. -/
theorem witness_PowerAndBoot_margin (h : 0 < Config.marginLimit) : (0 : Nat) < Config.marginLimit ∧ ctxsOn base (fun p => quadNo p = 200) = [] ∧
    straitsWith base (8 * 200) = [] ∧ ctxsOn paired (fun p => quadNo p = quad0) = [1] ∧ straitsWith paired (8 * quad0) = [(1, quad0, 0)] ∧
    paired.pkg.repaired.find? (4 * quad0) = none ∧ quad0 < 256 := ⟨h, by decide +kernel⟩
/-- A state at the moment after the half-slab has failed. -/
def failed (s : State) : State := s.modPkg fun p => { p with halves := [8 * quad0] }
theorem witness_PowerAndBoot_spares : spareHalf (failed lone) 1 quad0 (8 * quad0) = some (8 * quad0 + 2) ∧
    straitsWith lone (8 * quad0) = [(1, quad0, 0)] ∧ ctxsOn lone (fun p => quadNo p = quad0) = [1] ∧
    spareHalf (failed paired) 1 quad0 (8 * quad0) = none := by decide +kernel
/-- The binding windows of R14 and R15: front end 0 of a lone quad at the grid's corner overlaps the quad's four slabs, front end 3 reaches three
slabs of other quads, which the fence cuts away; two quads side by side give front end 1 four slabs. -/
theorem test_bindingWindow : bindingWindow (base.modCtx 1 fun c => { c with rect := ⟨0, 0, 1, 1, 0⟩ }) 1 (0, 0) 0 = [0, 1, 2, 3, 4, 5, 6, 7] ∧
    bindingWindow (base.modCtx 1 fun c => { c with rect := ⟨0, 0, 1, 1, 0⟩ }) 1 (0, 0) 3 = [6, 7] ∧
    bindingWindow (base.modCtx 1 fun c => { c with rect := ⟨0, 0, 2, 1, 0⟩, wq := 2 }) 1 (0, 0) 1 = [2, 3, 8, 9, 6, 7, 12, 13] ∧
    bindingWindow (base.modCtx 1 fun c => { c with rect := ⟨7, 0, 2, 1, 0⟩, wq := 2 }) 1 (7, 0) 1 = [58, 59, 62, 63] := by decide +kernel
/-- Signatures are left open (log 2): under a key that verifies the record the setting is signed. -/
theorem witness_OperatorSettings (rec sig : List Byte) (h : Config.falconVerify [] (shake256 rec 64) sig = true) :
    keyed.pkg.boot = .on ∧ keyed.pkg.waiting = [] ∧ authOk keyed (keyHash [], rec, sig) = true := by
  have hk : keyed.pkg.keys = [(0, [])] := rfl
  refine ⟨rfl, rfl, ?_⟩
  simp [authOk, operatorKey, hk, h]
theorem witness_OperatorSettings_unsigned : authOk (keyed.modPkg fun p => { p with keys := [] }) ([], [], []) = false ∧ keyed.pkg.keys ≠ [] ∧
    State.reset.ctxs = [] ∧ keyed.ctxs ≠ [] ∧ (∀ e ∈ keyed.arenas, e.2.holder = 0) ∧ keyed.pkg.domains.find? 6 = none ∧
    keyed.pkg.domains.length < 4 := by decide +kernel

/-! ### Single steps: expected values by hand from the rules named -/

/-- A general register of the slot after an instruction at `base` with registers set. -/
def res (i : Instr) (l : List (Reg × Word)) (r : Reg) : Word := ((after i (gs l)).slot k0).getG r

/-- R113: −7 / 2 truncates toward zero, and the remainder takes the sign of the dividend. -/
theorem test_div : res (.div H .s32 3 1 2) [(1, -7), (2, 2)] 3 = -3 ∧ res (.rem H .s32 3 1 2) [(1, -7), (2, 2)] 3 = -1 := by decide +kernel
/-- R113: by zero, and the one quotient out of range. -/
theorem test_div_corners : res (.div H .n64 3 1 2) [(1, 9)] 3 = 0 ∧ res (.rem H .n64 3 1 2) [(1, 9)] 3 = 9 ∧
    res (.div H .s32 3 1 2) [(1, 0x80000000), (2, -1)] 3 = 0xFFFFFFFF80000000 := by decide +kernel
/-- R112: the high half of −1 × 1, signed and natural. -/
theorem test_mulh : res (.mulh H .s64 3 1 2) [(1, -1), (2, 1)] 3 = -1 ∧ res (.mulh H .n64 3 1 2) [(1, -1), (2, 1)] 3 = 0 := by decide +kernel
/-- R114: a register count of 65 shifts by 1. -/
theorem test_shl : res (.shl H 3 1 2) [(1, 3), (2, 65)] 3 = 6 ∧ res (.sar H 3 1 2) [(1, -8), (2, 65)] 3 = -4 := by decide +kernel
/-- R115: bits 15 to 8 replaced by zeros, and read back with sign. -/
theorem test_bfi : res (.bfi H 3 1 2 (.short 0x208)) [(1, -1)] 3 = 0xFFFFFFFFFFFF00FF ∧
    res (.bfx H true 3 1 (.short 0x208)) [(1, 0x8000)] 3 = 0xFFFFFFFFFFFFFF80 := by decide +kernel
/-- R116: "12345678" and "9" from all ones, inverted: the check value of CRC-32C. -/
theorem test_crc : ~~~(crcFold (crcFold 0xFFFFFFFF 0x3837363534333231 64) 0x39 8) = 0xE3069283#32 := by decide +kernel
/-- R118: the two halves of the constant 0x400CDEF. -/
theorem test_lih : res (.lih H 1 1 (.short 0x400)) [(1, 0xCDEF)] 1 = 0x400CDEF := by decide +kernel
/-- R120: −1 is below 1 signed, and above it natural. -/
theorem test_cmp : ((after (.cmp H .lt .s32 1 1 2) (gs [(1, -1), (2, 1)])).slot k0).getP 1 = true ∧
    ((after (.cmp H .lt .n32 1 1 2) (gs [(1, -1), (2, 1)])).slot k0).getP 1 = false := by decide +kernel
/-- R123: a branch by −2 words; `callr ln` reads its target before it writes ln. -/
theorem test_branch : ((after (.br H (.short 0xFFFE)) base).slot k0).pc = 0xFFFF8 ∧
    ((after (.callr H 55) (gs [(55, 0x2000)])).slot k0).pc = 0x2000 ∧ res (.callr H 55) [(55, 0x2000)] 55 = 0x100008 := by decide +kernel
/-- R91: a target that is no multiple of 4 traps MISALIGN and leaves ln. -/
theorem test_callr_misaligned : ((after (.callr H 1) (handled.modMe fun x => x.setG 1 6)).slot k0).cause = 2 ∧
    ((after (.callr H 1) (handled.modMe fun x => x.setG 1 6)).slot k0).tval = 6 ∧ ((after (.callr H 1) (handled.modMe fun x => x.setG 1 6)).slot k0).getG 55 = 0 := by
  decide +kernel
/-- R46, R48: 1 + 2^−24 ties to even with NX; 1 / 0 gives infinity with DZ. -/
theorem test_float : res (.fadd H .f32 (.own .rne) 3 1 2) [(1, 0x3F800000), (2, 0x33800000)] 3 = 0x3F800000 ∧
    ((after (.fadd H .f32 (.own .rne) 3 1 2) (gs [(1, 0x3F800000), (2, 0x33800000)])).slot k0).fflags = 16 ∧
    res (.fdiv H .f32 .slot 3 1 2) [(1, 0x3F800000)] 3 = 0x7F800000 ∧
    ((after (.fdiv H .f32 .slot 3 1 2) (gs [(1, 0x3F800000)])).slot k0).fflags = 2 := by decide +kernel
/-- R50: 3 × 10^9 clamps to the signed bound with NV. -/
theorem test_fcvt : res (.fcvt H (.fi .s32 .f32) .slot 3 1) [(1, 0x4F32D05E)] 3 = 0x7FFFFFFF ∧
    ((after (.fcvt H (.fi .s32 .f32) .slot 3 1) (gs [(1, 0x4F32D05E)])).slot k0).fflags = 1 := by decide +kernel
/-- R129: −0 is the lesser of the zeros. -/
theorem test_fmin : res (.fmin H .f32 3 1 2) [(2, 0x80000000)] 3 = 0x80000000 := by decide +kernel
/-- R135: a signed load extends; R134: an address that is no multiple of the width traps MISALIGN with it. -/
theorem test_load : ((after (.ld H .s16 3 m1) (storeBytes scr k0 (scratchKey (quadOf k0) 64) [0xFE, 0xFF])).slot k0).getG 3 = -2 ∧
    ((after (.ld H .s16 3 m1) (handled.modMe fun x => x.setG 1 (sc 65))).slot k0).cause = 2 ∧
    ((after (.ld H .s16 3 m1) (handled.modMe fun x => x.setG 1 (sc 65))).slot k0).tval = sc 65 := by decide +kernel
/-- R139: the lesser of −1 and 1 stays; the old value comes back extended. -/
theorem test_amo : ((after (.amo H .min .s32 3 m1 2) (storeBytes (gs [(1, sc 64), (2, 1)]) k0 (scratchKey (quadOf k0) 64) (List.replicate 4 0xFF))).slot k0).getG 3 = -1 ∧
    readByte (after (.amo H .min .n32 3 m1 2) (storeBytes (gs [(1, sc 64), (2, 1)]) k0 (scratchKey (quadOf k0) 64) (List.replicate 4 0xFF)))
      (scratchKey (quadOf k0) 64) = 1 := by decide +kernel
/-- R140: a comparison that fails stores nothing. -/
theorem test_cas : readByte (after (.cas H .n64 3 1 (.short 0) 2 4) (gs [(1, sc 64), (2, 1), (4, 9)])) (scratchKey (quadOf k0) 64) = 0 ∧
    readByte (after (.cas H .n64 3 1 (.short 0) 2 4) (gs [(1, sc 64), (4, 9)])) (scratchKey (quadOf k0) 64) = 9 := by decide +kernel
/-- R142: `ldfe` of an EMPTY word waits; of a FULL one it leaves it EMPTY. -/
theorem test_ldfe : ((after (.ldfe H .n64 false 3 m1) scr).slot k0).blk.isSome = true ∧
    isFull (after (.ldfe H .n64 false 3 m1) (setFull scr (scratchKey (quadOf k0) 64) true)) (scratchKey (quadOf k0) 64) = false := by decide +kernel
/-- R356: a trap with no handler ends the task, so the context stands ended abruptly. -/
theorem test_no_handler : ((after (.trap H (.short 7)) base).ctx 1).phase = .abrupt := by decide +kernel
/-- R167, R172, R177: lane sums wrap; a lane beyond the last reads 0; 64 lanes of 1 add up to 64. -/
theorem test_vector : ((after (.slabCompletion core0) (slab (.vadd V .n32 false .slot 3 1 2) [] [])).slot k0).getV 3 0 = 0 ∧
    ((after (.slabCompletion core0) ((slab (.vadd V .n32 false .slot 3 1 2) [] []).modMe fun x => (x.setV 1 0 0xFFFFFFFF).setV 2 0 2)).slot k0).getV 3 0 = 1 := by
  decide +kernel
/-- R237: the child runs in the lowest idle slot, whose number comes back. -/
theorem test_spawn : res (.spawn H 2 false false false 3 0 2) [(2, 0x2000)] 3 = 1 ∧
    ((after (.spawn H 2 false false false 3 0 2) (gs [(2, 0x2000)])).slot (k0 + 1)).running = true := by decide +kernel
/-- R239, R240: 100 iterations among 4 parties come in chunks of 100 / 8 rounded up. -/
theorem test_next : ((after (.next H 3 (.short 4)) (after (.nest H 0 1 2 3) (gs [(1, 100), (3, 4)]))).slot k0).getG 3 = 13 := by decide +kernel
/-- R208: a copy of two bytes. -/
theorem test_copy : readByte (after (.copy core0 0 2) (writeBytes (pushed .copy 2) (scratchKey (quadOf k0) 256) [7, 8])) (scratchKey (quadOf k0) 1025) = 8 := by
  decide +kernel

end Sys2Proof.Tests
end

section
/-! The state after reset: no table of it lists an entry, so a slot, a core, a quad or a byte reads as its build value (R9, R25, R31). -/

namespace Sys2Proof

@[simp] theorem Tab.get_nil {α : Type} (d : α) (n : Nat) : Tab.get ([] : Tab α) d n = d := rfl

namespace Machine

/-! ### Reads of the state after reset -/

@[simp] theorem reset_slot (k : Nat) : State.reset.slot k = {} := Tab.get_nil _ k

@[simp] theorem reset_core (k : Nat) : State.reset.core k = buildCore k := Tab.get_nil _ k

@[simp] theorem reset_quad (k : Nat) : State.reset.quad k = {} := Tab.get_nil _ k

@[simp] theorem readByte_reset (a : Nat) : readByte State.reset a = unlisted := Tab.get_nil _ a

/-! ### A core as it is built, a quad with no bank switched -/

@[simp] theorem buildCore_tdesc (k n : Nat) : (buildCore k).tdesc.get {} n = {} := Tab.get_nil _ n

@[simp] theorem buildCore_tile (k n : Nat) : (buildCore k).tile.get 0 n = 0 := Tab.get_nil _ n

@[simp] theorem buildCore_acc (k n : Nat) : (buildCore k).acc.get 0 n = 0 := Tab.get_nil _ n

@[simp] theorem buildCore_queue (k n : Nat) : (buildCore k).queue n = {} := Tab.get_nil _ n

@[simp] theorem buildCore_follow (k n : Nat) : (buildCore k).follow.get {} n = {} := Tab.get_nil _ n

/-- The first 12 banks of a quad are scratch, the others cache ways (R153). -/
theorem mode_of_no_switch (b : Nat) : QuadSt.mode {} b = if b < 12 then .scr else .cache := Tab.get_nil _ b

/-- What the numbered registers of a core hold at its build: descriptors, tile bytes, accumulator cells, queues and follow-on slots. -/
theorem buildCore_numbered (k n : Nat) :
    (buildCore k).tdesc.get {} n = { fmt := 0, rows := 0, cols := 0, dist := false } ∧
      (buildCore k).tile.get 0 n = 0 ∧ (buildCore k).acc.get 0 n = 0 ∧
      ((buildCore k).queue n).entries = [] ∧ ((buildCore k).queue n).bank = none ∧ ((buildCore k).queue n).lim = 8 ∧
      ((buildCore k).follow.get {} n).queued = none ∧ ((buildCore k).follow.get {} n).count = 0 := by
  rw [buildCore_queue, buildCore_follow]
  exact ⟨buildCore_tdesc k n, buildCore_tile k n, buildCore_acc k n, rfl, rfl, rfl, rfl, rfl⟩

/-- Settles O1: what a table of the state does not list reads as the build value, and after reset the tables list nothing; the fields of
the package stand as `State.reset` gives them. -/
theorem resetValues : Obligations.ResetValues := by
  unfold Obligations.ResetValues
  refine ⟨reset_wf, rfl, rfl, rfl, rfl, rfl, rfl, rfl, rfl, rfl, rfl, rfl, rfl, readByte_reset, reset_slot, rfl, rfl, rfl,
    fun k c hc => ?core, fun k b => ?mode, fun k => ?quad⟩
  case core =>
    rw [reset_core] at hc
    subst hc
    exact ⟨rfl, rfl, rfl, rfl, rfl, rfl, rfl, rfl, rfl, rfl, rfl, rfl, rfl, rfl, rfl, rfl, buildCore_numbered k⟩
  case mode =>
    rw [reset_quad]
    exact mode_of_no_switch b
  case quad =>
    rw [reset_quad]
    exact ⟨rfl, rfl⟩

end Machine
end Sys2Proof
end

section
/-! Every instruction with an encoding is the issue of itself: what an absent one does (R17, R18, R31, R94 to R96). -/

namespace Sys2Proof.Machine
/-- An instruction with an encoding is issued under its own guard, in the state as it stands unless it reaches its body (`bankcfg`
takes its place in the quad's order first). -/
theorem exec_eq_issue {i : Instr} {sh : Shape} (hs : i.shape = some sh) (s : State) :
    ∃ op body u, exec i s = issue op body u ∧ op.i = i ∧ op.h = sh.hdr ∧ (u = s ∨ reachesBody op s = true) := by
  cases i <;> cases hs
  case bankcfg h mode d a =>
    refine ⟨⟨_, _, _, _, _, _, _⟩, _, _, rfl, rfl, rfl, ?_⟩
    split <;> simp_all
  all_goals exact ⟨⟨_, _, _, _, _, _, _⟩, _, s, rfl, rfl, rfl, .inl rfl⟩

/-- An instruction that its place does not have never reaches its body. -/
theorem reachesBody_absent {op : Op} {s : State} (ha : absent s s.cur op.i = true) : reachesBody op s = false := by
  simp [reachesBody, ha]

/-- An instruction that its place does not have traps before its guard is read (R17, R18, R95). -/
theorem issue_absent {op : Op} {body : List Word → State → Res} {s : State} (ha : absent s s.cur op.i = true) :
    issue op body s = .next (raise s s.cur ⟨.illegal, 0, 0⟩) := if_pos ha

/-- Settles O7: every instruction with an encoding is an `issue`, whose first check is that its place has it. -/
theorem absentInstructionsTrap : Obligations.AbsentInstructionsTrap := by
  unfold Obligations.AbsentInstructionsTrap
  intro i sh s hs ha
  obtain ⟨op, body, u, he, rfl, -, rfl | hr⟩ := exec_eq_issue hs s
  · exact ⟨he.trans (issue_absent ha), rfl⟩
  · rw [reachesBody_absent ha] at hr
    cases hr
end Sys2Proof.Machine
end

section
/-! Reads and writes of system registers (R31 to R37, R55, R124). -/

namespace Sys2Proof.Machine
open Sys2Proof.Safety
/-- A ready instruction that each slot performs for itself and whose body only transforms the state goes on with what the body gives. -/
theorem issue_done {i : Instr} {h : Hdr} {srcs : List Reg} {dst : Option Reg} {lat : Nat} {body : List Word → State → Res} {s t : State}
    {n : Next} (hr : ready i h srcs dst s = true) (ho : orderedOp i = false) (hb : body (operands s srcs) (popped s srcs) = .ok (t, n)) :
    issue { i, h, srcs, dst, lat } body s = .next (finish t s.cur i.bytes lat n) := by
  rw [issue_completes (hr : ready i h srcs dst s [] = true) (.inl rfl) hb, latencyOf_free ho]

/-- Settles O17: the body of each of these instructions completes at once, under the premise that keeps it from waiting or trapping. -/
theorem systemRegisters : Obligations.SystemRegisters := by
  unfold Obligations.SystemRegisters
  refine fun h r t d a s => ⟨fun hr hf => ?mfs, fun hr => ?mts, fun hr => ?rseed, fun hr hb => ?fflags, fun hr he => ?ringb,
    fun hr he => ?ringl, fun hr => ?tdesc⟩
  case mfs =>
    refine issue_done hr rfl (if_neg ?_)
    simpa using hf
  case mts => exact issue_done hr rfl rfl
  case rseed => exact issue_done hr rfl rfl
  case fflags => exact issue_done hr rfl (if_neg (by simpa using hb))
  case ringb => exact issue_done hr rfl (if_neg (by simpa using he))
  case ringl => exact issue_done hr rfl (if_neg (by simpa using he))
  case tdesc => exact issue_done hr rfl rfl
end Sys2Proof.Machine
end

section
/-! The dispatch of vector instructions (R26, R161, R162, R172, R182). -/

namespace Sys2Proof.Machine
open Sys2Proof.Safety
/-- A vector instruction without an access enters the slab queue with the execution time of R161. -/
theorem vector_dispatches {i : Instr} {h : Hdr} {srcs : List Reg} {dst : Option Reg} {rnd : Rnd}
    (he : ∀ s, exec i s = slab i h srcs rnd (vecCost i) noChecks s dst) (hn : orderedOp i = false) :
    DispatchesVector i h srcs dst rnd (vecCost i) := slab_dispatches he hn

/-- A slab instruction is dispatched where its mode is no reserved one and the interlocks of R182 and R351 let it in. -/
theorem dispatch_ok {s : State} {i : Instr} {args : List Word} {ds : List TDesc} {rnd : Rnd} {cost : Nat} {c : Capture}
    (hc : captureOf s.me s.cur rnd = some c) (hr : slabRoom s s.myCore cost = true) :
    dispatch s i args ds rnd cost = .ok (enqueueSlab s s.myCore (capturedOp s i args ds c cost)) := by
  unfold dispatch needCapture
  simp only [hc, bind, Except.bind]
  exact if_neg (by simpa [capturedOp] using hr)

/-- A vector instruction with accesses enters the slab queue with the bank turns that its active lanes take (R162, R182). -/
theorem vecAccess_dispatches {i : Instr} {h : Hdr} {srcs : List Reg} {rnd : Rnd} (he : ∀ s, exec i s = vecAccess i h srcs rnd s)
    (hn : orderedOp i = false) :
    Dispatches i h srcs none (fun _ => rnd) (fun s g _ => vecTurns s s.cur i g 0) noChecks := by
  rintro s p c ds o hr hu rfl h1 h2 rfl h3
  cases h1
  rw [he, ← latencyOf_free hn (enqueueSlab _ _ _) s.cur 1]
  refine issue_completes hr (.inr (by simpa [unpaired] using hu)) ?_
  exact congrArg (fun r => r >>= fun t => done t) (dispatch_ok (by simpa using h2) h3)

/-- A slab instruction traps where its dispatch check does. -/
theorem slab_traps {i : Instr} {h : Hdr} {srcs : List Reg} {dst : Option Reg} {rnd : Rnd} {cost : Nat → Nat}
    {checks : List Word → State → Except Stop (List TDesc)} {p : List Word → State → Prop} {t : List Word → State → Trap}
    (he : ∀ s, exec i s = slab i h srcs rnd cost checks s dst) (hc : ∀ v s, p v s → checks v s = .error (.trap (t v s))) :
    Traps i h srcs dst p t := by
  intro s hr hu hp
  rw [he]
  refine issue_traps hr (.inr (by simpa [unpaired] using hu)) ?_
  simp only [hc _ _ hp, bind, Except.bind]

/-- Settles O30: an instruction without accesses dispatches as `slab`, one with accesses as `vecAccess`; `vshf` traps at its check. -/
theorem vectorDispatch : Obligations.VectorDispatch := by
  unfold Obligations.VectorDispatch
  refine ⟨fun v lt pf sat neg rnd so co d a b => ?arithmetic, fun h v k tt dst src sg sat ty bt op lt rnd d a b m ma mb g g2 i => ?others,
    fun v op ty sc wk d b a c i => ?accesses⟩
  case arithmetic =>
    repeat' apply And.intro
    all_goals exact vector_dispatches (fun _ => rfl) rfl
  case others =>
    refine ⟨?_, ?_, ?_, ?_, ?_, ?_, ?_, ?_, ?_, ?_, ?_, ?shift, ?traps, ?_, ?_, ?_, ?_, ?_, ?_, ?_⟩
    case shift => exact slab_dispatches (i := .vshf v d a b i) (fun _ => rfl) rfl
    case traps => exact slab_traps (i := .vshf v d a b i) (fun _ => rfl) fun _ _ hp => if_pos hp
    all_goals exact vector_dispatches (fun _ => rfl) rfl
  case accesses =>
    refine ⟨?_, ?_, ?_, ?_, ?_, ?_, ?_, ?_, ?_⟩
    all_goals exact vecAccess_dispatches (fun _ => rfl) rfl
end Sys2Proof.Machine
end

section
/-! The order of the checks of an access (R134, R343): a case in which two clauses of O29 speak of one address. -/

namespace Sys2Proof.Machine
open Sys2Proof.Safety

/-- An arena that owner 1 has held last and that is free now. -/
def arenaLeft : State := { arenas := [(0, { last := 1 })] }

/-- An address of arena slot 0 under generation 1. -/
def arenaLeftEa : Word := 0x0180_0000_0000_0000

theorem window_arenaLeft : window arenaLeft 0 arenaLeftEa = some .arena := by decide

/-- The arena is another domain's for a slot of owner 0, so its access traps PROT, before the generation is compared. -/
theorem checkAccess_arenaLeft : checkAccess arenaLeft 0 0 [] arenaLeftEa 1 true 0 = .error ⟨.prot, arenaLeftEa, 0⟩ := rfl

/-- Refutes O29: for a slot whose owner identity is 0, a free arena that another domain has held last meets both the premise of the
holder's clause (PROT) and, because `holder = 0` is the slot's own owner, the premise of the generation's clause (ARENA_STALE). -/
theorem not_accessChecksInOrder : ¬ Obligations.AccessChecksInOrder := by
  unfold Obligations.AccessChecksInOrder
  rintro ⟨hc, -⟩
  obtain ⟨-, -, -, -, -, htabled, -⟩ := hc arenaLeft 0 0 0 1 [] arenaLeftEa 0
  obtain ⟨-, hstale, -⟩ := htabled 0 (arenaLeft.arena (arenaSlot arenaLeftEa)) .arena rfl rfl window_arenaLeft rfl (fun _ _ h => nomatch h)
  have h := hstale rfl (.inl rfl) (by decide)
  rw [checkAccess_arenaLeft] at h
  exact absurd h (by decide)
end Sys2Proof.Machine
end

section
/-! The delivery of a pending trap to a slot whose barrier wait is over (R242, R352). -/

namespace Sys2Proof.Machine
open Sys2Proof.Safety

/-- A late MISALIGN of slot 0, dispatched at level 0. -/
def latePend : Pend := { cause := Cause.misalign.code, late := true, pc := 0, tval := 0, tseq := 0, lvl := false }

/-- A `bar` that has waited for phase 5 of a barrier. -/
def oldBar : Block :=
  { instr := .bar ⟨7, false⟩ .cr 0 0, srcs := [], dst := none, wait := .bar .cr 0 0 5, since := 0, ticket := 0, limit := 0 }

/-- Slot 0 of a running context waits in a `bar` whose phase has completed (the barrier stands at phase 0 again), a late trap pends, and
TVEC is not 0. -/
def barOver : State :=
  { slots := [(0, { running := true, blk := some oldBar, pend := [latePend] })]
    cores := [(0, { tvec := 1 })]
    ctxs := [(0, { phase := .running })] }

/-- The delivery first ends the `bar`, which counts as retired (R242). -/
theorem retired_deliverPending_barOver : ((deliverPending barOver 0).slot 0).retired = 1 := by decide

/-- Refutes O52, in its clause on late traps: a slot whose `bar` is over retires the `bar` before it takes the late trap, where the
statement takes the trap in the state as it stood. -/
theorem not_coreEvents : ¬ Obligations.CoreEvents := by
  unfold Obligations.CoreEvents
  intro h
  obtain ⟨-, -, -, -, -, hlate, -⟩ := h barOver 0 0 0 0
  obtain ⟨-, hd⟩ := hlate latePend (by decide) rfl
  have hr := congrArg (fun t => (t.slot 0).retired) hd
  rw [retired_deliverPending_barOver] at hr
  exact absurd hr (by decide)
end Sys2Proof.Machine
end

section
/-! What the end of a command leaves alone, and the engine instructions (R204, R205, R209, R215 to R221, R226). -/

namespace Sys2Proof

namespace Tab
variable {α : Type}

/-- A change of the values of a table, number by number, is read through. -/
theorem find?_map (f : Nat × α → Nat × α) (hf : ∀ e, (f e).1 = e.1) (t : Tab α) (n : Nat) :
    Tab.find? (t.map f) n = (Tab.find? t n).map fun v => (f (n, v)).2 := by
  induction t with
  | nil => rfl
  | cons e t ih =>
    obtain ⟨k, v⟩ := e
    simp only [List.map_cons, find?, hf]
    split
    · rename_i h; subst h; rfl
    · exact ih

/-- A function of the value reads the same where the change keeps it. -/
theorem get_map_congr {β : Type} (f : Nat × α → Nat × α) (hf : ∀ e, (f e).1 = e.1) (g : α → β) (hg : ∀ e, g (f e).2 = g e.2)
    (t : Tab α) (d : α) (n : Nat) : g (Tab.get (t.map f) d n) = g (Tab.get t d n) := by
  unfold get
  rw [find?_map f hf]
  cases find? t n with
  | none => rfl
  | some v => exact hg (n, v)

end Tab

namespace Machine

open Sys2Proof.Safety

/-- What the end of a command or the death of an arena leaves alone, beside the bytes it writes or erases: the current slot, the slots, the
package and the number that a FIFO gives next; and memory keeps its canonical form. -/
structure EndKeeps (s t : State) : Prop where
  cur : t.cur = s.cur
  slots : t.slots = s.slots
  pkg : t.pkg = s.pkg
  next : ∀ k, (t.core k).fifo.next = (s.core k).fifo.next
  wf : Memory.wf s.mem → Memory.wf t.mem

namespace EndKeeps

theorem refl (s : State) : EndKeeps s s := ⟨rfl, rfl, rfl, fun _ => rfl, id⟩

theorem trans {s t u : State} (h : EndKeeps s t) (g : EndKeeps t u) : EndKeeps s u :=
  ⟨g.cur.trans h.cur, g.slots.trans h.slots, g.pkg.trans h.pkg, fun k => (g.next k).trans (h.next k), g.wf ∘ h.wf⟩

theorem ite {s t u : State} {c : Prop} [Decidable c] (h : EndKeeps s t) (g : EndKeeps s u) : EndKeeps s (if c then t else u) := by
  split
  · exact h
  · exact g

/-- A fold of steps each of which keeps these keeps them. -/
theorem foldl {α : Type} {f : State → α → State} (h : ∀ s a, EndKeeps s (f s a)) (l : List α) (s : State) : EndKeeps s (l.foldl f s) := by
  induction l generalizing s with
  | nil => exact refl s
  | cons a l ih => exact (h s a).trans (ih _)

/-- A change of a core that leaves its FIFO's number. -/
theorem modCore (s : State) (j : Nat) {f : CoreSt → CoreSt} (hf : ∀ c, (f c).fifo.next = c.fifo.next) : EndKeeps s (s.modCore j f) :=
  ⟨rfl, rfl, rfl, fun k => by
    by_cases h : k = j
    · subst h; rw [State.modCore_core, hf]
    · rw [State.modCore_core_ne s f h], id⟩

/-- A change of every core in place that leaves the numbers of the FIFOs. -/
theorem mapCores {s t : State} (f : Nat × CoreSt → Nat × CoreSt) (hf : ∀ e, (f e).1 = e.1) (hn : ∀ e, (f e).2.fifo.next = e.2.fifo.next)
    (hc : t.cores = s.cores.map f) (h1 : t.cur = s.cur) (h2 : t.slots = s.slots) (h3 : t.pkg = s.pkg) (h4 : t.mem = s.mem) : EndKeeps s t :=
  ⟨h1, h2, h3, fun k => by
    unfold State.core
    rw [hc]
    exact Tab.get_map_congr f hf (fun c => c.fifo.next) hn s.cores _ k, fun h => h4 ▸ h⟩

/-- A change that leaves the cores. -/
theorem of_cores {s t : State} (h1 : t.cur = s.cur) (h2 : t.slots = s.slots) (h3 : t.pkg = s.pkg) (hc : t.cores = s.cores)
    (h4 : Memory.wf s.mem → Memory.wf t.mem) : EndKeeps s t :=
  ⟨h1, h2, h3, fun k => by unfold State.core; rw [hc], h4⟩

end EndKeeps

/-! ### Writes at a home -/

theorem writeBytes_endKeeps (s : State) (k : Nat) (bs : List Byte) : EndKeeps s (writeBytes s k bs) := by
  induction bs generalizing s k with
  | nil => exact .refl s
  | cons b t ih =>
    refine .trans (t := { writeByte s k b with poison := s.poison.set false k false }) ?_ (ih _ _)
    exact .of_cores rfl rfl rfl rfl fun h => writeByte_wf k b h

theorem dirtyPage_endKeeps (s : State) (key : Nat) : EndKeeps s (dirtyPage s key) := by
  unfold dirtyPage
  dsimp only
  refine .ite (.refl s) ?_
  split
  · exact .refl s
  · exact .of_cores rfl rfl rfl rfl id

theorem keepVersion_endKeeps (s : State) (w : Option Nat) (key n : Nat) : EndKeeps s (keepVersion s w key n) :=
  .ite (.refl s) (.of_cores rfl rfl rfl rfl id)

theorem homeStore_endKeeps (s : State) (key n : Nat) : EndKeeps s (homeStore s key n) :=
  .ite (.refl s) (.of_cores rfl rfl rfl rfl id)

theorem beforeWrite_endKeeps (s : State) (w : Option Nat) (key n : Nat) : EndKeeps s (beforeWrite s w key n) :=
  ((dirtyPage_endKeeps s key).trans (keepVersion_endKeeps _ w key n)).trans (homeStore_endKeeps _ key n)

theorem setLine_endKeeps (s : State) (n : Nat) (l : Line) : EndKeeps s (setLine s n l) := .of_cores rfl rfl rfl rfl id

theorem setFull_endKeeps (s : State) (key : Nat) (b : Bool) : EndKeeps s (setFull s key b) := .of_cores rfl rfl rfl rfl id

theorem deviceWrite_endKeeps (s : State) (key : Nat) (bs : List Byte) : EndKeeps s (deviceWrite s key bs) := by
  unfold deviceWrite
  refine .trans ?_ (writeBytes_endKeeps _ _ _)
  exact (beforeWrite_endKeeps s none key bs.length).trans (setLine_endKeeps _ _ _)

/-! ### The end of a command (R215 to R217) -/

theorem writeCompletion_endKeeps (s : State) (c : Cmd) (code : BitVec 8) : EndKeeps s (writeCompletion s c code) := by
  unfold writeCompletion
  dsimp only
  split
  · exact .refl s
  · split
    · exact .refl s
    · exact (deviceWrite_endKeeps s _ _).trans (setFull_endKeeps _ _ _)

theorem release_endKeeps (s : State) (c : Cmd) : EndKeeps s (release s c) := by
  refine .mapCores _ (fun e => ?_) (fun e => ?_) rfl rfl rfl rfl rfl
  all_goals split <;> rfl

theorem releaseSelf_endKeeps (s : State) (c : Cmd) : EndKeeps s (releaseSelf s c) := by
  have h := EndKeeps.modCore s (coreOf c.slot) (f := fun x => { x with copies := x.copies.filter fun e => !(c.lines.contains e.1) })
    fun _ => rfl
  exact .ite h (h.trans (.of_cores rfl rfl rfl rfl id))

/-- A change of a FIFO that leaves its number. -/
theorem modFifo_endKeeps (s : State) (core : Nat) {f : Fifo → Fifo} (hf : ∀ x, (f x).next = x.next) : EndKeeps s (modFifo s core f) :=
  .modCore s core fun c => hf c.fifo

theorem setCmd_endKeeps (s : State) (core : Nat) (c : Cmd) : EndKeeps s (setCmd s core c) := modFifo_endKeeps s core fun _ => rfl

theorem freeEntry_endKeeps (s : State) (core : Nat) (c : Cmd) (code : BitVec 8) : EndKeeps s (freeEntry s core c code) := by
  unfold freeEntry
  dsimp only
  refine modFifo_endKeeps s core fun _ => ?_
  rfl

theorem terminal_endKeeps (s : State) (core : Nat) (c : Cmd) (code : BitVec 8) : EndKeeps s (terminal s core c code) := by
  have hr : EndKeeps s (if c.w0.rel then release s c else releaseSelf s c) := .ite (release_endKeeps s c) (releaseSelf_endKeeps s c)
  refine .trans (.trans hr ?_) (freeEntry_endKeeps _ core c code)
  exact .ite (.refl _) (writeCompletion_endKeeps _ c code)

/-! ### The acceptance of a command (R205, R206) -/

theorem reachSrc_endKeeps (s : State) (core : Nat) (c : Cmd) : EndKeeps s (reachSrc s core c) :=
  .trans (.ite (writeCompletion_endKeeps s c stOk) (.refl s)) (setCmd_endKeeps _ core _)

/-- The zeroing of tiles leaves the FIFO. -/
theorem landClears_next (c : CoreSt) : (CoreSt.landClears c).fifo.next = c.fifo.next := by
  unfold CoreSt.landClears
  generalize c.clears = l
  suffices h : ∀ x : CoreSt, (l.foldl (fun x e => if c.tileBusy e.tile e.seq then { x with clears := x.clears ++ [e] }
      else x.clearTile e.tile e.desc.uses) x).fifo.next = x.fifo.next from h _
  induction l with
  | nil => exact fun _ => rfl
  | cons e l ih =>
    intro x
    rw [List.foldl_cons, ih]
    split <;> rfl

/-- A tile that is to be zeroed joins the others of its core. -/
theorem landClears_endKeeps (s : State) (core : Nat) (e : TileClear) :
    EndKeeps s (s.modCore core fun x => CoreSt.landClears { x with clears := x.clears ++ [e] }) :=
  .modCore s core fun c => landClears_next { c with clears := c.clears ++ [e] }

theorem enqueueSlab_endKeeps (s : State) (core : Nat) (o : SlabOp) : EndKeeps s (enqueueSlab s core o) := by
  refine .modCore s core fun _ => ?_
  rfl

theorem startFollow_endKeeps (s : State) (core : Nat) (f : FReg) (o : SlabOp) : EndKeeps s (startFollow s core f o) :=
  (enqueueSlab_endKeeps s core o).trans (.modCore _ core (f := fun x => { x with follow := _ }) fun _ => rfl)

theorem trigger_endKeeps (s : State) (core : Nat) (f : FReg) : EndKeeps s (trigger s core f).2 := by
  unfold trigger
  dsimp only
  repeat' split
  case h_1 => exact .refl s
  case h_2.isTrue => exact .refl s
  case h_2.isFalse.isFalse.isTrue => exact startFollow_endKeeps s core f _
  all_goals exact .modCore s core (f := fun c => { c with follow := _ }) fun _ => rfl

theorem reachVis_endKeeps (s : State) (core : Nat) (c : Cmd) : EndKeeps s (reachVis s core c) := by
  unfold reachVis
  split
  · exact terminal_endKeeps s core c _
  · split
    · exact terminal_endKeeps s core c _
    · refine .ite (terminal_endKeeps s core c _) ?_
      split
      · exact .trans (landClears_endKeeps s _ _) (terminal_endKeeps _ core c _)
      · exact .trans (.trans (landClears_endKeeps s _ _) (trigger_endKeeps _ _ _)) (terminal_endKeeps _ core _ _)

/-- The number after an accepted command is one higher (R204, R205). -/
theorem accept_next (s : State) (c : Cmd) (longLen : Bool) :
    ((accept s c longLen).core s.myCore).fifo.next = (s.core s.myCore).fifo.next + 1 := by
  unfold accept
  extract_lets core s0 s1
  have h0 : (s0.core core).fifo.next = (s.core core).fifo.next + 1 := by
    rw [show s0 = s.modCore core _ from rfl, State.modCore_core]
  have h1 : EndKeeps s0 s1 := .ite (.modCore s0 _ (f := fun x => { x with slabAt := _ }) fun _ => rfl) (.refl s0)
  have hn : (s1.core core).fifo.next = (s.core core).fifo.next + 1 := (h1.next core).trans h0
  split
  · exact ((terminal_endKeeps s1 core c stBadCmd).next core).trans hn
  · split
    · exact (((reachSrc_endKeeps s1 core c).trans (reachVis_endKeeps _ core _)).next core).trans hn
    · split
      · exact ((terminal_endKeeps s1 core c stBadCmd).next core).trans hn
      · exact hn

/-- A command carries the number that its FIFO gives next. -/
theorem pushed_cnum (w0 : Cmd0) (value : BitVec 16) (v : List Word) (s : State) :
    (pushed w0 value v s).cnum = (s.core s.myCore).fifo.next := by
  unfold pushed offered Cmd.aim
  dsimp only
  split <;> rfl

/-! ### Queue registers leave the FIFOs -/

theorem qSet_fifo (s : State) (c q : Nat) (es : List Word) (bad : List Bool) (k : Nat) :
    ((qSet s c q es bad).core k).fifo = (s.core k).fifo := by
  unfold qSet
  dsimp only
  split
  · by_cases h : k = c
    · subst h; rw [State.modCore_core]
    · rw [State.modCore_core_ne _ _ h]
  · rfl

theorem readRegs_fifo (s : State) (j : Nat) (rs : List Reg) (k : Nat) : ((readRegs s j rs).2.core k).fifo = (s.core k).fifo := by
  induction rs generalizing s with
  | nil => rfl
  | cons r t ih =>
    simp only [readRegs, ih]
    unfold readReg
    split
    · split
      · rfl
      · exact qSet_fifo ..
    · rfl

@[simp] theorem popped_myCore (s : State) (rs : List Reg) : (popped s rs).myCore = s.myCore := by simp [State.myCore]

@[simp] theorem popped_fifo (s : State) (rs : List Reg) (k : Nat) : ((popped s rs).core k).fifo = (s.core k).fifo := readRegs_fifo s s.cur rs k

/-! ### The engine instructions -/

/-- An instruction that both slots of a pair perform as one, outside a pair: where its body gives a state, it goes on with it. -/
theorem issue_joint {i : Instr} {h : Hdr} {srcs : List Reg} {dst : Option Reg} {body : List Word → State → Res} {s t : State}
    (hr : ready i h srcs dst s = true) (hu : unpaired s = true) (hb : body (operands s srcs) (popped s srcs) = .ok (t, .fall)) :
    issue { i, h, srcs, dst, pair := .joint } body s = .next (finish t s.cur i.bytes (latencyOf t s.cur i 1) .fall) :=
  issue_completes hr (.inr (by simpa [unpaired] using hu)) hb

/-- A push passes the checks of its dispatch, or has waited for room, and finds room. -/
theorem xpush_runs (h : Hdr) (w0 : Cmd0) (value : BitVec 16) (d a b c : Reg) :
    Runs (.xpush h w0 value d a b c) h [a, b, c, d] none fun v s t => (s.core s.myCore).fifo.cmds.length < 16 ∧
      ((s.me.blk.any fun b => b.wait == .fifo) = true ∨ tileCheck w0 value v s = .ok ()) ∧ t = (pushCommand w0 value v s).2 := by
  rintro s t hr hu ⟨hroom, hcheck, rfl⟩
  refine issue_joint hr hu ?_
  rw [if_neg (Nat.not_le.2 hroom)]
  rcases hcheck with hw | hc
  · rw [hw]
    rfl
  · rw [hc]
    exact ite_self _

/-- A push to a tile whose descriptor fails traps at its dispatch. -/
theorem tileCheck_bad {w0 : Cmd0} {value : BitVec 16} {v : List Word} {s : State} (hu : upsetTile w0 value v s = false)
    (hb : badTile w0 value v s = true) : tileCheck w0 value v s = .error ill := by
  simp [tileCheck, hu, hb]

theorem xpush_traps (h : Hdr) (w0 : Cmd0) (value : BitVec 16) (d a b c : Reg) :
    Traps (.xpush h w0 value d a b c) h [a, b, c, d] none (fun v s => (s.me.blk.any fun b => b.wait == .fifo) = false ∧
      upsetTile w0 value v s = false ∧ badTile w0 value v s = true) fun _ _ => ⟨.illegal, 0, 0⟩ := by
  rintro s hr hu ⟨hw, hup, hbad⟩
  refine issue_traps hr (.inr (by simpa [unpaired] using hu)) ?_
  simp only [hw, tileCheck_bad hup hbad, bind, Except.bind]
  rfl

/-- The instruction `xpushb` on a FIFO with room reads its operands and pushes, on a full one it reads no queue (R205). -/
theorem exec_xpushb_room {h : Hdr} {w0 : Cmd0} {value : BitVec 16} {d a b c : Reg} {s : State}
    (hroom : (s.core s.myCore).fifo.cmds.length < 16) : exec (.xpushb h w0 value d a b c) s =
      issue { i := .xpushb h w0 value d a b c, h, srcs := [a, b, c, d], dst := some d, pair := .joint } (fun v s => do
        tileCheck w0 value v s
        let (n, t) := pushCommand w0 value v s
        give t d (n.zeroExtend 64)) s := by
  rw [exec_xpushb, execXpushb]
  simp [Nat.not_le.2 hroom]

theorem exec_xpushb_full {h : Hdr} {w0 : Cmd0} {value : BitVec 16} {d a b c : Reg} {s : State}
    (hfull : 16 ≤ (s.core s.myCore).fifo.cmds.length) : exec (.xpushb h w0 value d a b c) s =
      issue { i := .xpushb h w0 value d a b c, h, srcs := unpopped [a, b, c, d], dst := some d, pair := .joint }
        (fun _ s => give s d (-1)) s := by
  rw [exec_xpushb, execXpushb]
  simp [hfull]

/-- Settles O38: each body completes under its premise, and what follows the push of a command leaves the numbers of the FIFOs. -/
theorem engineCommands : Obligations.EngineCommands := by
  unfold Obligations.EngineCommands
  refine ⟨fun h w0 value d a b c id vis i => ⟨xpush_runs h w0 value d a b c, xpush_traps h w0 value d a b c, ?pushbTraps, ?pushb, ?pushbFull,
    ?xlay, ?xseal, ?xwait, ?xres⟩, fun w0 value v s => ⟨pushed_cnum w0 value v s, accept_next s _ _⟩⟩
  case pushbTraps =>
    intro s hr hu hroom hup hbad
    rw [exec_xpushb_room hroom]
    refine issue_traps hr (.inr (by simpa [unpaired] using hu)) ?_
    rw [tileCheck_bad hup hbad]
    rfl
  case pushb =>
    rintro s t r hr hu hroom hc rfl rfl
    rw [exec_xpushb_room hroom]
    refine issue_joint hr hu ?_
    rw [hc]
    rfl
  case pushbFull =>
    rintro s t hr hu hfull rfl
    rw [exec_xpushb_full hfull]
    refine issue_joint hr hu ?_
    rw [give, popped_cur, done]
  case xlay =>
    rintro s t hr hu ⟨bs, u, hl, rfl⟩
    refine issue_joint hr hu ?_
    rw [hl]
    rfl
  case xseal =>
    rintro s t hr hu ⟨hlt, rfl⟩
    exact issue_joint hr hu (if_neg (Nat.not_le.2 hlt))
  case xwait =>
    rintro s t hr hu ⟨hle, rfl⟩
    exact issue_joint hr hu (if_pos hle)
  case xres =>
    rintro s t hr hu ⟨e, he, rfl⟩
    refine issue_joint hr hu ?_
    rw [he]
    rfl

end Machine
end Sys2Proof
end

section
/-! What the death of arenas keeps, and the falls of duty (R346, R415). -/

namespace Sys2Proof.Machine

open Sys2Proof.Safety

/-! ### The death of arenas -/

theorem arenaCommands_endKeeps (s : State) (o a : Nat) : EndKeeps s (arenaCommands s o a) :=
  .foldl (fun _ core => .foldl (fun s c => terminal_endKeeps s core c stArenaDead) _ _) _ s

theorem shootDown_endKeeps (s : State) (o lo hi : Nat) : EndKeeps s (shootDown s o lo hi) := by
  refine .mapCores _ (fun e => ?_) (fun e => ?_) rfl rfl rfl rfl rfl
  all_goals split <;> rfl

theorem dropCopies_endKeeps (s : State) (lo hi : Nat) : EndKeeps s (dropCopies s lo hi) := by
  refine .mapCores _ (fun e => ?_) (fun e => ?_) rfl rfl rfl rfl rfl
  all_goals rfl

theorem forgetTimes_endKeeps (s : State) (lo hi : Nat) : EndKeeps s (forgetTimes s lo hi) := .of_cores rfl rfl rfl rfl id

theorem eraseRange_endKeeps (s : State) (lo hi : Nat) : EndKeeps s (eraseRange s lo hi) := .of_cores rfl rfl rfl rfl (eraseRange_wf lo hi)

theorem modCtx_endKeeps (s : State) (o : Nat) (f : Ctx → Ctx) : EndKeeps s (s.modCtx o f) := .of_cores rfl rfl rfl rfl id

/-- The bytes of a dead arena are erased, with their times, copies and PLB entries. -/
theorem eraseArena_endKeeps (s : State) (o lo hi : Nat) :
    EndKeeps s (shootDown (dropCopies (forgetTimes (eraseRange s lo hi) lo hi) lo hi) o lo hi) :=
  (((eraseRange_endKeeps s lo hi).trans (forgetTimes_endKeeps _ lo hi)).trans (dropCopies_endKeeps _ lo hi)).trans
    (shootDown_endKeeps _ o lo hi)

theorem setArenas_endKeeps (s : State) (arenas : Tab Arena) : EndKeeps s { s with arenas } := .of_cores rfl rfl rfl rfl id

theorem killArena_endKeeps (s : State) (a : Nat) : EndKeeps s (killArena s a) := by
  unfold killArena
  refine .trans ?_ (setArenas_endKeeps _ _)
  refine .trans ?_ (modCtx_endKeeps _ _ _)
  exact .trans (arenaCommands_endKeeps s _ a) (eraseArena_endKeeps _ _ _ _)

theorem killArenas_endKeeps (s : State) (o : Nat) (sel : Arena → Bool) : EndKeeps s (killArenas s o sel) := by
  unfold killArenas
  refine EndKeeps.foldl (fun t e => ?_) _ s
  exact killArena_endKeeps t e.1

/-- What is read of a state that no step of a fold changes is the same behind the fold. -/
theorem foldl_keeps {α β σ : Type} (g : σ → β) {f : σ → α → σ} (h : ∀ s a, g (f s a) = g s) (l : List α) (s : σ) :
    g (l.foldl f s) = g s := by
  induction l generalizing s with
  | nil => rfl
  | cons a l ih => rw [List.foldl_cons, ih, h]

/-- The erasure of a context leaves the package. -/
theorem eraseOwner_pkg (s : State) (o : Nat) : (eraseOwner s o).pkg = s.pkg := by
  unfold eraseOwner
  exact foldl_keeps State.pkg (fun _ _ => by rfl) _ s

/-! ### Duty (R415) -/

@[simp] theorem powerOf_modPower (s : State) (d : Nat) (f : Power → Power) : powerOf (modPower s d f) d = f (powerOf s d) :=
  Tab.get_put_self _ _ _ _

theorem powerOf_modPower_ne (s : State) {d k : Nat} (f : Power → Power) (h : k ≠ d) : powerOf (modPower s d f) k = powerOf s k :=
  Tab.get_put_ne _ _ _ h

@[simp] theorem powerOf_boxAdd (s : State) (kind o unit : Nat) (data : List Byte) (k : Nat) :
    powerOf (boxAdd s kind o unit data) k = powerOf s k := rfl

/-- The fall of one domain: where it stands above the duty, it is lowered and the record written. -/
theorem lowerDuty_one (s : State) (d low : Nat) : lowerDuty s [d] low =
    if Nat.max 8 low < (powerOf s d).duty then boxAdd (modPower s d fun p => p.lowered d s.pkg.clock low) 0x30 0 d [] else s := by
  unfold lowerDuty
  simp only [List.filter_cons, List.filter_nil, decide_eq_true_eq]
  split <;> rfl

/-- The duty of a domain falls to the lower one, from 8 up, and no other domain changes. -/
theorem duty_lowerDuty (s : State) (d low k : Nat) : (powerOf (lowerDuty s [d] low) k).duty =
    if k = d then Nat.min (powerOf s d).duty (Nat.max 8 low) else (powerOf s k).duty := by
  rw [lowerDuty_one]
  by_cases hk : k = d
  · subst hk
    rw [if_pos rfl]
    split
    · rw [powerOf_boxAdd, powerOf_modPower]
      rfl
    · exact (Nat.min_eq_left (by omega)).symm
  · rw [if_neg hk]
    split
    · rw [powerOf_boxAdd, powerOf_modPower_ne _ _ hk]
    · rfl

/-- The duty of each compute stack falls as the model's choice has it, and no other domain changes (DESIGN CHOICE log 35). -/
theorem duty_lowerStacks (s : State) (low k : Nat) (hk : k < 4) : (powerOf (lowerStacks s low) k).duty =
    Nat.min (powerOf s k).duty (Nat.max 8 (Nat.min low ((powerOf s k).duty - 1))) := by
  suffices h : ∀ (l : List Nat), l.Nodup → ∀ s : State,
      (powerOf (l.foldl (fun s d => lowerDuty s [d] (Nat.min low ((powerOf s d).duty - 1))) s) k).duty =
        if k ∈ l then Nat.min (powerOf s k).duty (Nat.max 8 (Nat.min low ((powerOf s k).duty - 1))) else (powerOf s k).duty by
    refine (h [0, 1, 2, 3] (by decide) s).trans (if_pos ?_)
    simp only [List.mem_cons, List.not_mem_nil, or_false]
    omega
  intro l
  induction l with
  | nil => exact fun _ _ => rfl
  | cons d l ih =>
    intro hl s
    obtain ⟨hd, hl⟩ := List.nodup_cons.1 hl
    rw [List.foldl_cons, ih hl, duty_lowerDuty]
    by_cases h : k = d
    · subst h
      simp [hd]
    · simp [h]

/-- What a fall of duty keeps: each domain's report, its duty from below 8 up, and memory. -/
structure DutyFalls (s t : State) : Prop where
  report : ∀ k, (powerOf t k).report = (powerOf s k).report
  le : ∀ k, (powerOf t k).duty ≤ (powerOf s k).duty
  floor : ∀ k, 8 ≤ (powerOf s k).duty → 8 ≤ (powerOf t k).duty
  mem : t.mem = s.mem

namespace DutyFalls

theorem refl (s : State) : DutyFalls s s := ⟨fun _ => rfl, fun _ => le_rfl, fun _ => id, rfl⟩

theorem trans {s t u : State} (h : DutyFalls s t) (g : DutyFalls t u) : DutyFalls s u :=
  ⟨fun k => (g.report k).trans (h.report k), fun k => (g.le k).trans (h.le k), fun k hk => g.floor k (h.floor k hk), g.mem.trans h.mem⟩

theorem foldl {α : Type} {f : State → α → State} (h : ∀ s a, DutyFalls s (f s a)) (l : List α) (s : State) : DutyFalls s (l.foldl f s) := by
  induction l generalizing s with
  | nil => exact refl s
  | cons a l ih => exact (h s a).trans (ih _)

end DutyFalls

theorem lowerDuty_falls (s : State) (d low : Nat) : DutyFalls s (lowerDuty s [d] low) := by
  refine ⟨fun k => ?_, fun k => ?_, fun k hk => ?_, ?_⟩
  · rw [lowerDuty_one]
    split
    · by_cases h : k = d
      · subst h
        rw [powerOf_boxAdd, powerOf_modPower]
        rfl
      · rw [powerOf_boxAdd, powerOf_modPower_ne _ _ h]
    · rfl
  · rw [duty_lowerDuty]
    split
    · rename_i h
      rw [h]
      exact Nat.min_le_left _ _
    · exact le_rfl
  · rw [duty_lowerDuty]
    split
    · rename_i h
      rw [h] at hk
      exact Nat.le_min.2 ⟨hk, Nat.le_max_left _ _⟩
    · exact hk
  · rw [lowerDuty_one]
    split <;> rfl

theorem dropDuty_falls (s : State) (d low : Nat) : DutyFalls s (dropDuty s d low) := by
  unfold dropDuty lowerStacks
  repeat' split
  · exact lowerDuty_falls s d low
  · exact .refl s
  · exact .foldl (fun s d => lowerDuty_falls s d _) _ s
  · exact .refl s

theorem dropDuty_above {s : State} {d : Nat} (hd : isDomain d = true) (ha : aboveCap d (powerOf s d) = true) (low : Nat) :
    dropDuty s d low = lowerDuty s [d] low := by
  simp [dropDuty, hd, ha]

theorem dropDuty_below {s : State} {d : Nat} (hd : isDomain d = true) (ha : aboveCap d (powerOf s d) = false) (low : Nat) :
    dropDuty s d low = s := by
  simp [dropDuty, hd, ha]

theorem dropDuty_package {s : State} {d : Nat} (hd : isDomain d = false) (low : Nat) :
    dropDuty s d low = if overLimit s then lowerStacks s low else s := by
  simp [dropDuty, hd]

/-- A duty below one that stands above 8/64 is a fall to 8/64 or more. -/
theorem lowerThan_bounds (f : Nat) {duty : Nat} (h : 8 < duty) : 8 ≤ lowerThan f duty ∧ lowerThan f duty < duty := by
  have := Nat.mod_lt (Config.freeChoice f) (by omega : 0 < duty - 8)
  unfold lowerThan
  omega

/-- A report below the cap and the package limit brings no fall. -/
theorem fallNow_below {s : State} {d : Nat} (hd : isDomain d = true) (ha : aboveCap d (powerOf s d) = false) (ho : overLimit s = false) :
    fallNow s d = s.tick.2 := by
  unfold fallNow
  rw [dropDuty_below hd (show aboveCap d (powerOf s.tick.2 d) = false from ha), dropDuty_package (by decide)]
  exact if_neg (by rw [show overLimit s.tick.2 = overLimit s from rfl, ho]; decide)

theorem fallNow_falls (s : State) (d : Nat) : DutyFalls s (fallNow s d) := by
  have ht : DutyFalls s s.tick.2 := ⟨fun _ => rfl, fun _ => le_rfl, fun _ => id, rfl⟩
  unfold fallNow
  exact (ht.trans (dropDuty_falls s.tick.2 d _)).trans (dropDuty_falls _ 17 _)

/-- A report above the cap brings a fall. -/
theorem fallNow_above {s : State} {d : Nat} (hd : isDomain d = true) (ha : aboveCap d (powerOf s d) = true) (h8 : 8 < (powerOf s d).duty) :
    8 ≤ (powerOf (fallNow s d) d).duty ∧ (powerOf (fallNow s d) d).duty < (powerOf s d).duty := by
  refine ⟨(fallNow_falls s d).floor d h8.le, ?_⟩
  obtain ⟨hl, hu⟩ := lowerThan_bounds s.fresh h8
  unfold fallNow
  refine lt_of_le_of_lt ((dropDuty_falls _ 17 _).le d) ?_
  rw [dropDuty_above hd (show aboveCap d (powerOf s.tick.2 d) = true from ha), duty_lowerDuty, if_pos rfl]
  exact lt_of_le_of_lt (Nat.min_le_right _ _) (max_lt h8 hu)

end Sys2Proof.Machine
end

section
/-! Power, repair and boot (R310, R397, R398, R414 to R419). -/

namespace Sys2Proof.Machine

open Sys2Proof.Safety

/-! ### Repair (R397, R398) -/

theorem retireQuad_retired (s : State) (q : Nat) : (retireQuad s q).pkg.quads.get .working q = .retired := Tab.get_put_self _ _ _ _

/-- The half-slab is retired and recorded. -/
def retireHalf (s : State) (h : Nat) : State := boxAdd (s.modPkg fun p => { p with halves := h :: p.halves }) 0x21 0 (h / 8) (le 2 h)

theorem retireHalf_halves (s : State) (h : Nat) : (retireHalf s h).pkg.halves = h :: s.pkg.halves := rfl

theorem halfNo_div {q n : Nat} (hn : n < 8) : (8 * q + n) / 8 = q := by omega

/-- The time at which a strait was repaired is kept. -/
def noteRepair (s : State) (p k : Nat) : State := s.modPkg fun g => { g with repaired := g.repaired.put (4 * p + k) g.clock }

section
variable {s : State} {h : Nat}

/-- A failing half-slab of a quad that no context holds, and that no strait uses: its quad is retired. -/
theorem halfFails_lone (hq : s.pkg.quads.get .working (h / 8) ≠ .retired) (hh : h ∉ s.pkg.halves)
    (hc : ctxsOn s (fun p => quadNo p = h / 8) = []) (hs : straitsWith s h = []) :
    halfFails s h = retireQuad (retireHalf s h) (h / 8) := by
  unfold halfFails
  simp only [hs, hc, hq, hh, beq_iff_eq, Bool.or_eq_true, List.contains_eq_mem, decide_eq_true_eq, or_self, List.any_nil, Bool.false_eq_true,
    if_false]
  rfl

variable {o p k : Nat} (hq : s.pkg.quads.get .working (h / 8) ≠ .retired) (hh : h ∉ s.pkg.halves)
  (hc : ctxsOn s (fun x => quadNo x = h / 8) ≠ []) (hs : straitsWith s h = [(o, p, k)]) (hr : s.pkg.repaired.find? (4 * p + k) = none)
include hq hh hc hs hr

/-- A failing half-slab of one strait that finds no spare: the strait's quad is retired. -/
theorem halfFails_noSpare (hn : spareHalf (retireHalf s h) o p h = none) : halfFails s h = retireQuad (retireHalf s h) p := by
  unfold halfFails
  unfold retireHalf at hn
  simp [hs, hc, hq, hh, hr, hn]
  rfl

/-- A failing half-slab of one strait that finds a spare: the strait takes it, and its context is swapped out. -/
theorem halfFails_spare {x : Nat} (hx : spareHalf (retireHalf s h) o p h = some x) : halfFails s h =
    swapAll (boxAdd (noteRepair (rePair (retireHalf s h) o p h x) p k) 0x22 0 (h / 8) []) [o] := by
  unfold halfFails
  unfold retireHalf at hx
  simp [hs, hc, hq, hh, hr, hx]
  rfl

end

theorem rePair_straits (s : State) (o p h x : Nat) : ((rePair s o p h x).ctx o).straits.get [] p = ((s.ctx o).straits.get [] p).map fun e =>
    if e.1 = h then (x, e.2) else if e.2 = h then (e.1, x) else e := by
  have hc : (rePair s o p h x).ctx o = { s.ctx o with straits := (s.ctx o).straits.put p (((s.ctx o).straits.get [] p).map fun e =>
      if e.1 = h then (x, e.2) else if e.2 = h then (e.1, x) else e) } := Tab.get_put_self _ _ _ _
  rw [hc]
  exact Tab.get_put_self _ _ _ _

theorem noteRepair_repaired (s : State) (p k : Nat) : (noteRepair s p k).pkg.repaired.find? (4 * p + k) = some s.pkg.clock :=
  Tab.find?_put_self _ _ _

theorem swapAll_pkg (s : State) (os : List Nat) : (swapAll s os).pkg = s.pkg := rfl
theorem swapAll_ctx (s : State) (os : List Nat) (o : Nat) : (swapAll s os).ctx o = s.ctx o := rfl
theorem boxAdd_halves (s : State) (kind o unit : Nat) (data : List Byte) : (boxAdd s kind o unit data).pkg.halves = s.pkg.halves := rfl
theorem boxAdd_repaired (s : State) (kind o unit : Nat) (data : List Byte) : (boxAdd s kind o unit data).pkg.repaired = s.pkg.repaired := rfl
theorem boxAdd_ctx (s : State) (kind o unit : Nat) (data : List Byte) (k : Nat) : (boxAdd s kind o unit data).ctx k = s.ctx k := rfl
theorem noteRepair_halves (s : State) (p k : Nat) : (noteRepair s p k).pkg.halves = s.pkg.halves := rfl
theorem noteRepair_ctx (s : State) (p k o : Nat) : (noteRepair s p k).ctx o = s.ctx o := rfl
theorem rePair_pkg (s : State) (o p h x : Nat) : (rePair s o p h x).pkg = s.pkg := rfl

/-- Behind a repair with a spare: the half-slab is retired, the time of the repair is kept, and the strait has the spare. -/
theorem halfFails_spare_kept {s : State} {o p k h x : Nat} (hq : s.pkg.quads.get .working (h / 8) ≠ .retired) (hh : h ∉ s.pkg.halves)
    (hc : ctxsOn s (fun x => quadNo x = h / 8) ≠ []) (hs : straitsWith s h = [(o, p, k)]) (hr : s.pkg.repaired.find? (4 * p + k) = none)
    (hx : spareHalf (retireHalf s h) o p h = some x) :
    (halfFails s h).pkg.halves = h :: s.pkg.halves ∧ (halfFails s h).pkg.repaired.find? (4 * p + k) = some s.pkg.clock ∧
      ((halfFails s h).ctx o).straits.get [] p = ((s.ctx o).straits.get [] p).map fun e =>
        if e.1 = h then (x, e.2) else if e.2 = h then (e.1, x) else e := by
  rw [halfFails_spare hq hh hc hs hr hx]
  refine ⟨?_, ?_, ?_⟩
  · rw [swapAll_pkg, boxAdd_halves, noteRepair_halves, rePair_pkg, retireHalf_halves]
  · rw [swapAll_pkg, boxAdd_repaired, noteRepair_repaired, rePair_pkg]
    rfl
  · rw [swapAll_ctx, boxAdd_ctx, noteRepair_ctx, rePair_straits]
    rfl

/-- One half-slab whose margin lies below the limit fails. -/
theorem exec_marginReplan_one (s : State) {h v : Nat} (hh : h < 2048) (hv : v < Config.marginLimit) :
    exec (.marginReplan [(h, v)]) s = .next (halfFails s h) := by
  change Host.Outcome.next _ = _
  simp [hh, hv]

/-! ### Loss of power (R310, R419) -/

/-- The recording of the ends leaves the non-volatile store and the saved clock. -/
theorem recordEnds_kept (s : State) :
    ((recordEnds s).pkg.saved, (recordEnds s).pkg.spent) = (s.pkg.saved, s.pkg.spent) := by
  unfold recordEnds recordDropped
  rw [foldl_keeps (fun s : State => (s.pkg.saved, s.pkg.spent)) (fun _ _ => by rfl),
    foldl_keeps (fun s : State => (s.pkg.saved, s.pkg.spent)) (fun _ _ => by rfl)]

theorem powerOff_kept (s : State) : ((powerOff s).pkg.saved, (powerOff s).pkg.spent) = (s.pkg.saved, s.pkg.spent) := by
  have hf := foldl_keeps (fun s : State => s.pkg) (f := fun s (e : Nat × Ctx) => eraseOwner (killArenas s e.1 fun _ => true) e.1)
    (fun t e => (eraseOwner_pkg _ e.1).trans (killArenas_endKeeps t e.1 _).pkg) s.ctxs (recordEnds s)
  exact (congrArg (fun p : Pkg => (p.saved, p.spent)) hf).trans (recordEnds_kept s)

theorem powerOff_saved (s : State) : (powerOff s).pkg.saved = s.pkg.saved := congrArg Prod.fst (powerOff_kept s)

theorem powerOff_spent (s : State) : (powerOff s).pkg.spent = s.pkg.spent := congrArg Prod.snd (powerOff_kept s)

theorem powerDown_saved (s : State) : (powerDown s).pkg.saved = s.pkg.clock := powerOff_saved _

/-! ### Boot (R310, R418) -/

/-- What the boot writes that neither the repair nor the end notices write behind it. -/
def bootView (s : State) : Boot × Nat × Bool × Bool × Tab Port × Nat × List Byte :=
  (s.pkg.boot, s.pkg.clock, s.pkg.anchored, s.pkg.linkUp, s.pkg.ports, s.pkg.cxlPort, s.pkg.challenge)

theorem sendEnd_bootView (s : State) (domain serial : Word) (code : BitVec 8) : bootView (sendEnd s domain serial code) = bootView s := by
  unfold sendEnd
  split
  · unfold homeEnd
    dsimp only
    split
    · rfl
    · rfl
  · rfl

theorem bootRepair_bootView (s : State) : bootView (bootRepair s) = bootView s :=
  foldl_keeps bootView (fun _ _ => by rfl) _ _

/-- The package behind a boot: on, the clock resumed unanchored, the host link up, and a fresh challenge. -/
theorem bootUp_bootView (s : State) : bootView (bootUp s) = (.on, s.pkg.saved, false, true,
    s.pkg.ports.put (hostPortOf s.pkg.cxlPortNext) { s.pkg.ports.get {} (hostPortOf s.pkg.cxlPortNext) with state := .up }, s.pkg.cxlPortNext,
    Config.randomBytes s.fresh 32) := by
  unfold bootUp
  refine (foldl_keeps bootView (fun t e => sendEnd_bootView t _ _ _) _ _).trans ?_
  have hr := bootRepair_bootView ((drawChallenge s).modPkg fun p =>
    { p with boot := .on, failed := 0, clock := p.saved, frac := 0, anchored := false, linkUp := true, cxlPort := p.cxlPortNext, lastHeld := [] })
  simp only [bootView, Prod.mk.injEq] at hr ⊢
  obtain ⟨hboot, hclock, hanch, hlink, hports, hcxl, hchal⟩ := hr
  refine ⟨hboot, hclock, hanch, hlink, ?_, hcxl, hchal⟩
  exact congrArg (fun l : Tab Port =>
    l.put (hostPortOf s.pkg.cxlPortNext) { l.get {} (hostPortOf s.pkg.cxlPortNext) with state := .up }) hports

/-- Where the stages come through and their images pass, none fails. -/
theorem stageFails_none {s : State} {passed : List Bool} (hp : passed.take 4 = [true, true, true, true])
    (hi : ∀ k, 1 ≤ k → k ≤ 3 → imagePasses s (s.pkg.images.get {} k) = true) : stageFails s passed = none := by
  obtain ⟨rest, rfl⟩ : ∃ rest, passed = [true, true, true, true] ++ rest := ⟨passed.drop 4, by rw [← hp, List.take_append_drop]⟩
  simp [stageFails, hi 1 (by decide) (by decide), hi 2 (by decide) (by decide), hi 3 (by decide) (by decide)]

theorem exec_powerUp_passed {s : State} {passed : List Bool} (hb : s.pkg.boot = .off) (hn : stageFails s passed = none) :
    exec (.powerUp passed) s = .next (bootUp s) := by
  change Host.Outcome.next _ = _
  simp [hb, hn]

/-- Where a stage fails the package stands in RECOVERY, with the stage recorded. -/
theorem exec_powerUp_failed {s : State} {passed : List Bool} {k : Nat} (hb : s.pkg.boot = .off) (hk : stageFails s passed = some k) :
    exec (.powerUp passed) s = .next (boxAdd (s.modPkg fun p =>
      { p with boot := .recovery, failed := k, clock := p.saved, frac := 0, anchored := false, linkUp := false }) 0x30 0 0 []) := by
  change Host.Outcome.next _ = _
  simp [hb, hk]

/-! ### Reports, duty and trips (R414, R415, R417) -/

theorem lowerDuty_above {s : State} {d n : Nat} (hn : Nat.max 8 n < (powerOf s d).duty) :
    lowerDuty s [d] n = boxAdd (modPower s d fun p => p.lowered d s.pkg.clock n) 0x30 0 d [] := by
  rw [lowerDuty_one, if_pos hn]

theorem boxAdd_head (s : State) (kind o unit : Nat) (data : List Byte) : (boxAdd s kind o unit data).pkg.box.head?.map (·.kind) = some kind := rfl

theorem powerOf_tick (s : State) (k : Nat) : powerOf s.tick.2 k = powerOf s k := rfl

theorem powerOf_swapAll (s : State) (os : List Nat) (k : Nat) : powerOf (swapAll s os) k = powerOf s k := rfl

theorem takeReport_eq (s : State) {d : Nat} {domain vout treg eff : BitVec 16} {iout flux : BitVec 32} (hdom : domain.toNat = d)
    (hd : isDomain d = true) : takeReport s domain vout iout treg eff flux =
      fallNow (modPower s d fun p => p.reported d s.pkg.clock ⟨domain, vout, iout, treg, eff, flux, BitVec.ofNat 64 s.pkg.clock⟩) d := by
  unfold takeReport
  simp only [hdom, hd, Bool.not_true, Bool.false_eq_true, if_false]

theorem regulatorReport_kept {s : State} {d : Nat} {domain vout treg eff : BitVec 16} {iout flux : BitVec 32} {r : RegReport}
    (hdom : domain.toNat = d) (hd : isDomain d = true) (hr : r = ⟨domain, vout, iout, treg, eff, flux, BitVec.ofNat 64 s.pkg.clock⟩) :
    ∃ t, exec (.regulatorReport domain vout iout treg eff flux) s = .next t ∧ (powerOf t d).report = some r ∧ SameMemory s t ∧
      (∀ u, u = modPower s d (fun p => p.reported d s.pkg.clock r) → aboveCap d (powerOf u d) = false → overLimit u = false →
        powerOf t d = (powerOf s d).reported d s.pkg.clock r) ∧
      (8 < (powerOf s d).duty → aboveCap d { powerOf s d with report := some r } = true →
        8 ≤ (powerOf t d).duty ∧ (powerOf t d).duty < (powerOf s d).duty) := by
  subst hr
  have hf := fallNow_falls (modPower s d fun p => p.reported d s.pkg.clock ⟨domain, vout, iout, treg, eff, flux, BitVec.ofNat 64 s.pkg.clock⟩) d
  refine ⟨_, congrArg Host.Outcome.next (takeReport_eq s hdom hd), ?_, fun a => ?_, ?_, fun h8 ha => ?_⟩
  · rw [hf.report, powerOf_modPower]
    rfl
  · exact congrArg (fun m => Tab.get m unlisted a) hf.mem
  · rintro u rfl ha ho
    rw [fallNow_below hd ha ho, powerOf_tick, powerOf_modPower]
  · rw [show (powerOf s d).duty = (powerOf (modPower s d fun p => p.reported d s.pkg.clock
      ⟨domain, vout, iout, treg, eff, flux, BitVec.ofNat 64 s.pkg.clock⟩) d).duty by rw [powerOf_modPower]; rfl] at h8 ⊢
    exact fallNow_above hd (by rw [powerOf_modPower]; exact ha) h8

theorem riseDuty_due {s : State} {d : Nat} (h : riseDue s d = true) :
    powerOf (riseDuty s d) d = { powerOf s d with duty := (powerOf s d).duty + 1, below := s.pkg.clock, hot := none } := by
  unfold riseDuty
  rw [if_pos h, powerOf_modPower]

/-- A trip of a compute stack: its contexts are to be swapped out, and it stands idle for a second. -/
theorem trip_stack {s : State} {d : Nat} (ht : tripDue s d = true) (hd : d < 4) : trip s d =
    swapAll (modPower (boxAdd s 0x30 0 d []) d fun p => { p with idle := true, idleEnd := s.pkg.clock + 1000000, hot := none })
      (ctxsOn s fun p => stackOfQuad p = d) := by
  unfold trip
  simp [ht, hd]

theorem swapAll_agenda {s : State} {os : List Nat} {o : Nat} (ho : o ∈ os) (hr : (s.ctx o).phase = .running) :
    .harbourSwap o ∈ (swapAll s os).agenda :=
  List.mem_append_right _ (List.mem_map_of_mem (List.mem_filter.2 ⟨ho, decide_eq_true hr⟩))

theorem trip_rest {s : State} {d : Nat} (ht : tripDue s d = true) (hd : 4 ≤ d) : trip s d = powerDown (boxAdd s 0x30 0 d []) := by
  unfold trip
  simp [ht, Nat.not_lt.2 hd]

theorem trip_notDue {s : State} {d : Nat} (ht : tripDue s d = false) : trip s d = s := by
  unfold trip
  simp [ht]

end Sys2Proof.Machine

namespace Sys2Proof.Safety

open Sys2Proof.Machine

/-- Settles O59, by what each step of the power, the repair and the boot leaves of the package. -/
theorem powerAndBoot : Obligations.PowerAndBoot := by
  unfold Obligations.PowerAndBoot
  intro s d n q v domain vout treg eff iout flux r passed image sig
  refine ⟨regulatorReport_kept, fun hd => ⟨fun ha hn => ?_, fun ha => ?_, fun hr => ⟨_, rfl, riseDuty_due hr⟩, fun hr => ?_, fun ht hlt => ?_,
      fun ht hle => ?_, fun ht => ?_⟩, fun hd ho => ?_, fun hi he => ?_, ?_, fun hq => ⟨?_, ?_⟩, fun hb => ⟨?_, ?_⟩, fun hb => ⟨?_, ?_⟩, ?_⟩
  · refine ⟨_, congrArg Host.Outcome.next ((dropDuty_above hd ha n).trans (lowerDuty_above hn)), ?_, ?_, boxAdd_head _ _ _ _ _⟩
    · rw [powerOf_boxAdd, powerOf_modPower]
    · rw [powerOf_boxAdd, powerOf_modPower]
      exact Nat.min_eq_right hn.le
  · exact congrArg Host.Outcome.next (dropDuty_below hd ha n)
  · refine congrArg Host.Outcome.next ?_
    unfold riseDuty
    rw [if_neg (by rw [hr]; decide)]
  · refine ⟨_, congrArg Host.Outcome.next (trip_stack ht hlt), ?_, ?_, fun _ => rfl, fun o ho hr => swapAll_agenda ho hr⟩
    all_goals rw [powerOf_swapAll, powerOf_modPower]
  · exact ⟨_, congrArg Host.Outcome.next (trip_rest ht hle), rfl, powerDown_saved _⟩
  · exact congrArg Host.Outcome.next (trip_notDue ht)
  · refine ⟨_, congrArg Host.Outcome.next ((dropDuty_package hd n).trans (if_pos ho)), fun k hk => duty_lowerStacks s n k hk⟩
  · exact ⟨_, congrArg Host.Outcome.next (if_pos (by simp [hi, he])), powerOf_modPower _ _ _⟩
  · rintro _ hq hn hq256 hv hh rfl
    have hdiv : (8 * q + n) / 8 = q := halfNo_div hn
    rw [← hdiv] at hq
    rw [exec_marginReplan_one s (by omega) hv]
    refine ⟨fun hc hs => ⟨_, congrArg Host.Outcome.next (halfFails_lone hq hh (by rw [hdiv]; exact hc) hs), rfl, ?_⟩,
      fun o p k hc hs hr => ?_⟩
    · rw [hdiv]
      exact retireQuad_retired _ _
    · rw [← hdiv] at hc
      refine ⟨fun hx => ⟨_, congrArg Host.Outcome.next (halfFails_noSpare hq hh hc hs hr hx), rfl, retireQuad_retired _ _⟩, fun x hx => ?_⟩
      exact ⟨_, rfl, halfFails_spare_kept hq hh hc hs hr hx⟩
  · refine ⟨_, congrArg Host.Outcome.next (if_pos (by rw [hq]; rfl)), ?_⟩
    exact (congrArg (fun x : Option QuadUse => x.getD .working) (Tab.find?_erase_self _ _)).trans rfl
  · exact ⟨_, congrArg Host.Outcome.next (if_pos (by rw [hq]; rfl)), retireQuad_retired _ _⟩
  · exact ⟨_, congrArg Host.Outcome.next (if_neg (by simpa using hb)), rfl, powerOff_saved s, rfl, rfl, powerOff_spent s⟩
  · exact ⟨_, congrArg Host.Outcome.next (if_neg (by simpa using hb)), rfl, powerDown_saved s, rfl, rfl⟩
  · intro hp hi
    have hv := bootUp_bootView s
    simp only [bootView, Prod.mk.injEq] at hv
    obtain ⟨hboot, hclock, hanch, hlink, hports, hcxl, hchal⟩ := hv
    refine ⟨bootUp s, ?_, hboot, hclock, hanch, hlink, ?_, hchal⟩
    · exact exec_powerUp_passed hb (stageFails_none hp hi)
    · unfold portOf hostPort
      rw [hports, hcxl, Tab.get_put_self]
  · exact fun k hk => ⟨_, exec_powerUp_failed hb hk, rfl, rfl, rfl⟩
  · intro hb hi
    have hsvn : s.pkg.svn ≤ n := by
      unfold imagePasses at hi
      simpa using (Bool.and_eq_true_iff.1 hi).2
    refine ⟨_, congrArg Host.Outcome.next (if_pos (by rw [hb, hi]; rfl)), Nat.max_eq_right hsvn, Tab.find?_put_self _ _ _⟩

end Sys2Proof.Safety
end

section
/-! Functions that leave memory alone: those whose shape says so. -/

namespace Sys2Proof.Machine

/-! ### Functions that leave memory alone -/

@[simp] theorem forgetTimes_mem (s : State) (lo hi : Nat) : (forgetTimes s lo hi).mem = s.mem := rfl
@[simp] theorem launchConst_mem (s : State) (o : Nat) : (launchConst s o).mem = s.mem := rfl
@[simp] theorem release_mem (s : State) (c : Cmd) : (release s c).mem = s.mem := rfl
@[simp] theorem releaseSelf_mem (s : State) (c : Cmd) : (releaseSelf s c).mem = s.mem := by
  unfold releaseSelf
  split <;> rfl
@[simp] theorem modFifo_mem (s : State) (core : Nat) (f : Fifo → Fifo) : (modFifo s core f).mem = s.mem := rfl
@[simp] theorem setCmd_mem (s : State) (core : Nat) (c : Cmd) : (setCmd s core c).mem = s.mem := rfl
@[simp] theorem freeEntry_mem (s : State) (core : Nat) (c : Cmd) (code : BitVec 8) : (freeEntry s core c code).mem = s.mem := rfl
@[simp] theorem eventAdd_mem (s : State) (kind owner : Nat) (data : List Byte) : (eventAdd s kind owner data).mem = s.mem := rfl
@[simp] theorem setSpent_mem (s : State) (key : Nat) (e : Spent) : (setSpent s key e).mem = s.mem := rfl
@[simp] theorem homeClaim_mem (s : State) (domain serial chip : Word) : (homeClaim s domain serial chip).2.mem = s.mem := by
  unfold homeClaim
  dsimp only
  repeat' split
  all_goals simp
@[simp] theorem homeWithdraw_mem (s : State) (domain serial chip : Word) : (homeWithdraw s domain serial chip).mem = s.mem := by
  unfold homeWithdraw
  dsimp only
  repeat' split
  all_goals simp
@[simp] theorem homeEnd_mem (s : State) (domain serial chip : Word) (code : BitVec 8) : (homeEnd s domain serial chip code).mem = s.mem := by
  unfold homeEnd
  dsimp only
  repeat' split
  all_goals simp
@[simp] theorem sendEnd_mem (s : State) (domain serial : Word) (code : BitVec 8) : (sendEnd s domain serial code).mem = s.mem := by
  unfold sendEnd
  split <;> simp
@[simp] theorem shootDown_mem (s : State) (o lo hi : Nat) : (shootDown s o lo hi).mem = s.mem := rfl
@[simp] theorem orphanArenas_mem (s : State) (o : Nat) : (orphanArenas s o).mem = s.mem := rfl
@[simp] theorem cancelSlab_mem (s : State) (core : Nat) (sel : Nat → BitVec 32 → Bool) : (cancelSlab s core sel).mem = s.mem := rfl
@[simp] theorem recordDropped_mem (s : State) (kinds : List Nat) : (recordDropped s kinds).mem = s.mem := by
  unfold recordDropped
  exact foldl_mem _ (fun _ _ => by rfl) _ _
@[simp] theorem bindStraits_mem (s : State) (q : Nat) : (bindStraits s q).mem = s.mem := by
  unfold bindStraits
  dsimp only
  repeat' split
  all_goals simp
@[simp] theorem bindIsland_mem (s : State) (o : Nat) : (bindIsland s o).mem = s.mem := by
  unfold bindIsland
  exact foldl_mem _ (fun _ _ => by simp) _ _
@[simp] theorem withdraw_mem (s : State) (o : Nat) (sel : Nat → Bool) : (withdraw s o sel).mem = s.mem := rfl
@[simp] theorem beginLife_mem (s : State) (k : Nat) : (beginLife s k).mem = s.mem := rfl
@[simp] theorem startSlot_mem (s : State) (k : Nat) (f : Slot → Slot) : (startSlot s k f).mem = s.mem := by
  unfold startSlot
  exact foldl_mem _ (fun _ _ => by rfl) _ _
@[simp] theorem beginNode_mem (s : State) (o n : Nat) : (beginNode s o n).mem = s.mem := rfl
@[simp] theorem ringTake_mem (s : State) (core : Nat) (r : RingRec) : (ringTake s core r).2.2.mem = s.mem := rfl
@[simp] theorem finish_mem (s : State) (k len lat : Nat) (n : Next) : (finish s k len lat n).mem = s.mem := by
  unfold finish
  split <;> rfl
@[simp] theorem putBack_mem (s : State) (k : Nat) (b : Block) : (putBack s k b).mem = s.mem := by
  unfold putBack
  exact foldl_mem _ (fun _ _ => by simp) _ _
@[simp] theorem releaseBar_mem (s : State) (k : Nat) : (releaseBar s k).mem = s.mem := by
  unfold releaseBar
  dsimp only
  repeat' split
  all_goals simp
@[simp] theorem abandon_mem (s : State) (k : Nat) : (abandon s k).mem = s.mem := by
  unfold abandon
  dsimp only
  repeat' split
  all_goals simp
@[simp] theorem holdSlot_mem (s : State) (k : Nat) : (holdSlot s k).mem = s.mem := rfl
@[simp] theorem pathWait_mem (s : State) (k : Nat) (ea : Word) (need : BitVec 4) : (pathWait s k ea need).mem = s.mem := rfl
@[simp] theorem queueLatch_mem (s : State) (k b : Nat) : (queueLatch s k b).mem = s.mem := rfl
@[simp] theorem reserveLatch_mem (s : State) (k b : Nat) : (reserveLatch s k b).mem = s.mem := rfl
@[simp] theorem fillLatch_mem (s : State) (k b run : Nat) : (fillLatch s k b run).mem = s.mem := by
  unfold fillLatch
  split <;> rfl
@[simp] theorem mapInto_mem (s : State) (o seg : Nat) (rights : BitVec 4) (cxl : Bool) (n : Nat) : (mapInto s o seg rights cxl n).mem = s.mem := rfl
@[simp] theorem mapPage_mem (s : State) (o seg : Nat) (rights : BitVec 4) (n : Nat) : (mapPage s o seg rights n).mem = s.mem := rfl
@[simp] theorem spreadLease_mem (s : State) (o : Nat) (l : Lease) : (spreadLease s o l).mem = s.mem := rfl
@[simp] theorem State.modMyCore_mem (s : State) (f : CoreSt → CoreSt) : (State.modMyCore s f).mem = s.mem := rfl
@[simp] theorem sysWrite_mem (s : State) (r : SysReg) (v : Word) : (sysWrite s r v).mem = s.mem := by
  unfold sysWrite
  split <;> rfl
@[simp] theorem enqueueSlab_mem (s : State) (core : Nat) (o : SlabOp) : (enqueueSlab s core o).mem = s.mem := rfl
@[simp] theorem startFollow_mem (s : State) (core : Nat) (f : FReg) (o : SlabOp) : (startFollow s core f o).mem = s.mem := rfl
@[simp] theorem modOp_mem (s : State) (o : SlabOp) (f : Slot → Slot) : (modOp s o f).mem = s.mem := by
  unfold modOp
  exact foldl_mem _ (fun _ _ => by rfl) _ _
@[simp] theorem slabProgress_mem (s : State) (core : Nat) (o : SlabOp) : (slabProgress s core o).mem = s.mem := rfl
@[simp] theorem pieceEnd_mem (s : State) (core : Nat) (o : SlabOp) : (pieceEnd s core o).mem = s.mem := by
  unfold pieceEnd
  split <;> rfl
@[simp] theorem trigger_mem (s : State) (core : Nat) (f : FReg) : (trigger s core f).2.mem = s.mem := by
  unfold trigger
  dsimp only
  repeat' split
  all_goals simp
@[simp] theorem engCount_mem (s : State) (c : Cmd) (run : Bool) (keys : List Nat) : (engCount s c run keys).mem = s.mem := by
  unfold engCount
  exact foldl_mem _ (fun _ _ => by simp) _ _
@[simp] theorem landTile_mem (s : State) (c : Cmd) (p : Nat) (b : Byte) (poison : Bool) : (landTile s c p b poison).1.mem = s.mem := rfl
@[simp] theorem newNode_mem (s : State) (o n : Nat) (begun : Bool) : (newNode s o n begun).mem = s.mem := rfl
@[simp] theorem setBarrier_mem (s : State) (key : Nat) (b : Barrier) : (setBarrier s key b).mem = s.mem := rfl
@[simp] theorem takeTime_mem (s : State) (b : Barrier) (phase : BitVec 32) : (takeTime s b phase).mem = s.mem := rfl
@[simp] theorem setQueue_mem (s : State) (q : BitVec 3) (x : QueueSt) : (setQueue s q x).mem = s.mem := rfl
@[simp] theorem setWidthOf_mem (s : State) (core w : Nat) : (setWidthOf s core w).mem = s.mem := by
  unfold setWidthOf
  exact foldl_mem _ (fun _ _ => by rfl) _ _
@[simp] theorem bindArena_mem (s : State) (a pages : Nat) (pl : Place) : (bindArena s a pages pl).mem = s.mem := rfl
@[simp] theorem rebind_mem (s : State) (n node : Nat) : (rebind s n node).mem = s.mem := rfl
@[simp] theorem reachHome_mem (s : State) (ea : Word) (key : Nat) : (reachHome s ea key).mem = s.mem := by
  simp [reachHome]
@[simp] theorem fetchRecord_mem (s : State) (ea : Word) (key n : Nat) : (fetchRecord s ea key n).mem = s.mem := by
  unfold fetchRecord
  exact foldl_mem _ (fun _ _ => by simp) _ _
@[simp] theorem drawChallenge_mem (s : State) : (drawChallenge s).mem = s.mem := rfl
@[simp] theorem respond_mem (s : State) (tag : Word) (code : BitVec 8) (owner : Nat) : (respond s tag code owner).mem = s.mem := rfl
@[simp] theorem reply_mem (s : State) (p : Presentation) (code : BitVec 8) (handle owner : Nat) : (reply s p code handle owner).mem = s.mem := by
  unfold reply
  split <;> rfl
@[simp] theorem answer_mem (s : State) (p : Presentation) (code : BitVec 8) (handle owner : Nat) : (answer s p code handle owner).mem = s.mem := by
  unfold answer
  split <;> simp
@[simp] theorem mapRange_mem (s : State) (o seg : Nat) (rights : BitVec 4) (r : Nat × Nat) : (mapRange s o seg rights r).mem = s.mem := by
  unfold mapRange
  exact foldl_mem _ (fun _ _ => by rfl) _ _
@[simp] theorem numberFifos_mem (s : State) (o : Nat) (cores : List Nat) : (numberFifos s o cores).mem = s.mem := by
  unfold numberFifos
  exact foldl_mem _ (fun _ _ => by rfl) _ _
@[simp] theorem mapAdded_mem (s : State) (o : Nat) (w : Warrant) (r : Nat × Nat) : (mapAdded s o w r).mem = s.mem := by
  unfold mapAdded
  exact foldl_mem _ (fun _ _ => by rfl) _ _
@[simp] theorem growUnits_mem (s : State) (o : Nat) : (growUnits s o).mem = s.mem := by
  unfold growUnits
  split <;> rfl
@[simp] theorem makeWay_mem (s : State) (o : Nat) : (makeWay s o).mem = s.mem := rfl
@[simp] theorem startEntry_mem (s : State) (o : Nat) : (startEntry s o).mem = s.mem := by
  simp [startEntry]
@[simp] theorem imageNow_mem (s : State) (p : Presentation) : (imageNow s p).2.mem = s.mem := by
  unfold imageNow
  split <;> rfl
@[simp] theorem arrivePresentation_mem (s : State) (p : Presentation) : (arrivePresentation s p).mem = s.mem := by
  unfold arrivePresentation
  split <;> simp
@[simp] theorem setHandle_mem (s : State) (o n : Nat) (h : Handle) : (setHandle s o n h).mem = s.mem := rfl
@[simp] theorem partGone_mem (s : State) (o n : Nat) (h : Handle) (p : Part) (deleg : Bool) (index f : Nat) :
    (partGone s o n h p deleg index f).mem = s.mem := by
  simp [partGone]
@[simp] theorem renew_mem (s : State) (o newExp : Nat) : (renew s o newExp).mem = s.mem := by
  unfold renew
  dsimp only
  repeat' split
  all_goals simp
@[simp] theorem bankArrives_mem (s : State) (k : Nat) : (bankArrives s k).mem = s.mem := rfl
@[simp] theorem takeBerth_mem (s : State) (o : Nat) (p : Nat × Nat) : (takeBerth s o p).mem = s.mem := rfl
@[simp] theorem stopCtx_mem (s : State) (o : Nat) (cause : BitVec 8) : (stopCtx s o cause).mem = s.mem := rfl
@[simp] theorem placed_mem (s : State) (o col row : Nat) : (placed s o col row).mem = s.mem := by
  simp [placed]
@[simp] theorem rowFails_mem (s : State) (o stack : Nat) (row b : Nat) (uncorrectable : Bool) :
    (rowFails s o stack row b uncorrectable).mem = s.mem := rfl
@[simp] theorem modPort_mem (s : State) (n : Nat) (f : Port → Port) : (modPort s n f).mem = s.mem := rfl
@[simp] theorem portTo_mem (s : State) (n : Nat) (st : PortState) : (portTo s n st).mem = s.mem := rfl
@[simp] theorem setHostTime_mem (s : State) (requester : Nat) (t : Time) : (setHostTime s requester t).mem = s.mem := rfl
@[simp] theorem hostCounted_mem (s : State) (n : Nat) : (hostCounted s n).mem = s.mem := by
  unfold hostCounted
  dsimp only
  repeat' split
  all_goals simp
@[simp] theorem hostAnswer_mem (s : State) (requester : Nat) (r : HostRead) : (hostAnswer s requester r).mem = s.mem := rfl
@[simp] theorem serveBias_mem (s : State) (n : Nat) : (serveBias s n).mem = s.mem := by
  unfold serveBias
  dsimp only
  repeat' split
  all_goals simp
@[simp] theorem requestBias_mem (s : State) (n : Nat) (host : Bool) : (requestBias s n host).mem = s.mem := by
  unfold requestBias
  split <;> simp
@[simp] theorem evictPage_mem (s : State) (n : Nat) : (evictPage s n).mem = s.mem := by
  unfold evictPage
  exact foldl_mem _ (fun _ _ => by simp) _ _
@[simp] theorem dropRequests_mem (s : State) : (dropRequests s).mem = s.mem := by
  simp [dropRequests]
@[simp] theorem scrubSector_mem (s : State) (n : Nat) : (scrubSector s n).mem = s.mem := by
  unfold scrubSector
  dsimp only
  repeat' split
  all_goals simp
@[simp] theorem written_mem (s : State) (kind : Nat) (tag : Word) (payload : List Byte) : (written s kind tag payload).mem = s.mem := rfl
@[simp] theorem requested_mem (s : State) (kind : Nat) (tag : Word) (payload : List Byte) : (requested s kind tag payload).mem = s.mem := rfl
@[simp] theorem orderDone_mem (s : State) (tag : Word) (code : BitVec 8) (owner : Nat) : (orderDone s tag code owner).mem = s.mem := rfl
@[simp] theorem raiseFloor_mem (s : State) (domain floor seq : Nat) : (raiseFloor s domain floor seq).mem = s.mem := rfl
@[simp] theorem actFloor_mem (s : State) (tag : Word) (r : List Byte) : (actFloor s tag r).mem = s.mem := by
  unfold actFloor
  dsimp only
  repeat' split
  all_goals simp
@[simp] theorem moveEvent_mem (s : State) (o step left : Nat) : (moveEvent s o step left).mem = s.mem := rfl
@[simp] theorem startMove_mem (s : State) (o : Nat) (target : Word) (rounds : Nat) (tag : Word) : (startMove s o target rounds tag).mem = s.mem := by
  unfold startMove
  exact foldl_mem _ (fun _ _ => by simp) _ _
@[simp] theorem homeMove_mem (s : State) (domain serial : Word) (source target : Word) : (homeMove s domain serial source target).2.mem = s.mem := by
  unfold homeMove
  dsimp only
  repeat' split
  all_goals simp
@[simp] theorem sendMove_mem (s : State) (o : Nat) (target : Word) : (sendMove s o target).2.mem = s.mem := by
  unfold sendMove
  dsimp only
  repeat' split
  all_goals simp
@[simp] theorem pullList_mem (s : State) (m : MoveSt) : (pullList s m).2.mem = s.mem := rfl
@[simp] theorem childMoved_mem (s : State) (o : Nat) : (childMoved s o).mem = s.mem := rfl
@[simp] theorem dropLate_mem (s : State) (nonce : Word) : (dropLate s nonce).mem = s.mem := by
  unfold dropLate
  split <;> simp
@[simp] theorem modPower_mem (s : State) (d : Nat) (f : Power → Power) : (modPower s d f).mem = s.mem := rfl
@[simp] theorem riseDuty_mem (s : State) (domain : Nat) : (riseDuty s domain).mem = s.mem := by
  unfold riseDuty
  split <;> rfl
@[simp] theorem swapAll_mem (s : State) (os : List Nat) : (swapAll s os).mem = s.mem := rfl
@[simp] theorem stackBack_mem (s : State) (stack : Nat) : (stackBack s stack).mem = s.mem := rfl
@[simp] theorem retireQuad_mem (s : State) (q : Nat) : (retireQuad s q).mem = s.mem := rfl
@[simp] theorem rePair_mem (s : State) (o q : Nat) (h spare : Nat) : (rePair s o q h spare).mem = s.mem := rfl
@[simp] theorem bootRepair_mem (s : State) : (bootRepair s).mem = s.mem := by
  unfold bootRepair
  exact foldl_mem _ (fun _ _ => by rfl) _ _
@[simp] theorem actKeys_mem (s : State) (auth : List Byte × List Byte × List Byte) (index : Nat) (key : Option (List Byte)) :
    (actKeys s auth index key).mem = s.mem := by
  unfold actKeys
  dsimp only
  repeat' split
  all_goals simp
@[simp] theorem actDomains_mem (s : State) (auth : List Byte × List Byte × List Byte) (domain : Word) (members : List Word) :
    (actDomains s auth domain members).mem = s.mem := by
  unfold actDomains
  dsimp only
  repeat' split
  all_goals simp
@[simp] theorem actPodn_mem (s : State) (auth : List Byte × List Byte × List Byte) (n : Nat) : (actPodn s auth n).mem = s.mem := by
  unfold actPodn
  split <;> rfl
@[simp] theorem actCxlPort_mem (s : State) (auth : List Byte × List Byte × List Byte) (port : Nat) : (actCxlPort s auth port).mem = s.mem := by
  unfold actCxlPort
  split <;> rfl
@[simp] theorem actThreshold_mem (s : State) (auth : List Byte × List Byte × List Byte) (n : Nat) : (actThreshold s auth n).mem = s.mem := by
  unfold actThreshold
  split <;> rfl
@[simp] theorem actFluxCap_mem (s : State) (auth : List Byte × List Byte × List Byte) (domain cap : Nat) :
    (actFluxCap s auth domain cap).mem = s.mem := by
  unfold actFluxCap
  split <;> rfl
@[simp] theorem actPortLimits_mem (s : State) (auth : List Byte × List Byte × List Byte) (margin rate : Nat) :
    (actPortLimits s auth margin rate).mem = s.mem := by
  unfold actPortLimits
  split <;> rfl
@[simp] theorem actGate_mem (s : State) (open_ : Bool) : (actGate s open_).mem = s.mem := by
  unfold actGate
  split <;> rfl
@[simp] theorem startDrain_mem (s : State) (core : Nat) (o : SlabOp) (f : DrainFmt) (za : Bool) (doff : BitVec 22) (d : AReg) :
    (startDrain s core o f za doff d).mem = s.mem := rfl
@[simp] theorem setDrain_mem (s : State) (core : Nat) (d : Option Drain) : (setDrain s core d).mem = s.mem := rfl
@[simp] theorem onDie_mem (s : State) (o unit key : Nat) : (onDie s o unit key).mem = s.mem := rfl
@[simp] theorem poisonSector_mem (s : State) (key : Nat) : (poisonSector s key).mem = s.mem := by
  simp [poisonSector]
@[simp] theorem agentEvent_mem (s : State) (core : Nat) : (agentEvent s core).2.mem = s.mem := rfl
@[simp] theorem acted_mem (s : State) (p : Party) : (acted s p).mem = s.mem := rfl
@[simp] theorem setLast_mem (s : State) (k : Nat) : (setLast s k).mem = s.mem := by
  unfold setLast
  repeat' split
  all_goals rfl
@[simp] theorem fetchFill_mem (s : State) (k : Nat) (pc : Word) : (fetchFill s k pc).mem = s.mem := by
  simp [fetchFill]
@[simp] theorem countCycles_mem (s : State) : (countCycles s).mem = s.mem := by
  unfold countCycles
  exact foldl_mem _ (fun _ _ => by rfl) _ _
@[simp] theorem suppressPulse_mem (s : State) : (suppressPulse s).mem = s.mem := by
  unfold suppressPulse
  split <;> rfl
@[simp] theorem idleProgress_mem (s : State) : (idleProgress s).mem = s.mem := by
  unfold idleProgress
  exact foldl_mem _ (fun _ _ => by rfl) _ _
@[simp] theorem claimProgress_mem (s : State) : (claimProgress s).mem = s.mem := by
  unfold claimProgress
  exact foldl_mem _ (fun _ _ => by simp) _ _
@[simp] theorem hostTick_mem (s : State) : (hostTick s).mem = s.mem := by
  unfold hostTick
  split <;> rfl
@[simp] theorem holdLimits_mem (s : State) : (holdLimits s).mem = s.mem := rfl

end Sys2Proof.Machine
end

section
/-! Functions that leave memory alone: those that take an argument. -/

namespace Sys2Proof.Machine

@[simp] theorem cancelAll_mem (s : State) (o : Nat) (of_ : Cmd → Bool) : (cancelAll s o of_).mem = s.mem := by
  unfold cancelAll
  refine foldl_mem _ (fun s core => ?_) _ s
  refine foldl_mem _ (fun s c => ?_) _ s
  rw [freeEntry_mem]
/-- The function is unfolded under a name of its own: the kernel would evaluate `noticeSlot s o` to compare it with its body. -/
@[simp] theorem noticePend_mem (s : State) (o : Nat) : (noticePend s o).mem = s.mem := by
  suffices h : ∀ f, f = noticePend → (f s o).mem = s.mem from h _ rfl
  intro f hf
  delta noticePend at hf
  subst hf
  beta_reduce
  generalize noticeSlot s o = slot
  cases slot with
  | none => rfl
  | some k =>
    dsimp only
    split
    · rfl
    · exact foldl_mem _ (fun t j => State.modSlot_mem t j _) _ _
@[simp] theorem raiseTimes_mem (s : State) (o : Nat) : (raiseTimes s o).mem = s.mem := by
  unfold raiseTimes
  dsimp only
  split
  · rfl
  · simp -implicitDefEqProofs [foldl_mem]
@[simp] theorem closeCell_mem (s : State) (k : Nat) (r : FaultRec) : (closeCell s k r).mem = s.mem := by
  unfold closeCell
  simp -implicitDefEqProofs [foldl_mem]
@[simp] theorem unpop_mem (s left : State) (k : Nat) (rs : List Reg) : (unpop s left k rs).mem = left.mem :=
  foldl_mem _ (fun _ _ => by simp) _ left
@[simp] theorem leasePages_mem (s : State) (o lo hi : Nat) : (leasePages s o lo hi).mem = s.mem :=
  foldl_mem _ (fun _ _ => by split <;> rfl) _ s
theorem areaPut_mem {s t : State} {j : Nat} {e : Option Word} (h : areaPut s j e = some t) : t.mem = s.mem := by
  unfold areaPut at h
  dsimp only at h
  split at h
  · cases h
  · obtain rfl := Option.some.inj h
    rfl
theorem deliverMsg_mem {s t : State} {j : Nat} {v : Word} (h : deliverMsg s j v = some t) : t.mem = s.mem := by
  unfold deliverMsg at h
  obtain ⟨u, hu, rfl⟩ := Option.map_eq_some_iff.1 h
  refine Eq.trans rfl (b := u.mem) ?_
  split at hu
  · exact areaPut_mem hu
  · split at hu
    · cases hu
    · obtain rfl := Option.some.inj hu
      rfl
theorem deliverWake_mem {s t : State} {j : Nat} (h : deliverWake s j = some t) : t.mem = s.mem := by
  unfold deliverWake at h
  obtain ⟨u, hu, rfl⟩ := Option.map_eq_some_iff.1 h
  refine Eq.trans rfl (b := u.mem) ?_
  split at hu
  · exact areaPut_mem hu
  · obtain rfl := Option.some.inj hu
    rfl
@[simp] theorem wakePlace_mem (s : State) (wk : Bool) (a : Word) : (wakePlace s wk a).mem = s.mem := by
  unfold wakePlace
  split
  · split
    · cases h : deliverWake s _ with
      | none => rfl
      | some t => exact deliverWake_mem h
    · rfl
  · rfl
@[simp] theorem laneLoad_mem (s : State) (o : SlabOp) (ty : IntTy) (d : VReg) (l : Nat) (r : Word × State) :
    (laneLoad s o ty d l r).mem = r.2.mem := by
  unfold laneLoad
  exact modOp_mem _ _ _
@[simp] theorem engRead_mem (s : State) (core : Nat) (c : Cmd) (run : Bool) (keys : List Nat) : (engRead s core c run keys).2.2.mem = s.mem := by
  unfold engRead
  refine (foldl_keeps (fun r : List Byte × List Bool × State => r.2.2.mem) (fun r e => ?_) _ _).trans rfl
  dsimp only
  split
  · rfl
  · rw [homeFetch_mem]
    split <;> simp
@[simp] theorem engHome_mem (s : State) (c : Cmd) (run : Bool) (keys : List Nat) : (engHome s c run keys).2.2.mem = s.mem := by
  unfold engHome
  simp -implicitDefEqProofs [foldl_mem]
@[simp] theorem buildNew_mem (s : State) (o : Nat) (cores : List Nat) : (buildNew s o cores).mem = s.mem := by
  unfold buildNew
  simp -implicitDefEqProofs [foldl_mem]
@[simp] theorem joinAdded_mem (s : State) (o : Nat) (w : Warrant) (self : List Byte) (hold : Hold) : (joinAdded s o w self hold).mem = s.mem := by
  unfold joinAdded
  simp -implicitDefEqProofs [foldl_mem]
@[simp] theorem noticeDue_mem (s : State) (o n : Nat) : (noticeDue s o n).mem = s.mem := by
  unfold noticeDue
  dsimp only
  split <;> simp
@[simp] theorem fillCore_mem (s : State) (o core : Nat) : (fillCore s o core).mem = s.mem := by
  unfold fillCore
  refine (foldl_keeps (fun r : State × List (Nat × Option Word) => r.1.mem) (fun r e => ?_) _ _).trans rfl
  dsimp only
  repeat' split
  all_goals rfl
@[simp] theorem fillInboxes_mem (s : State) (o : Nat) : (fillInboxes s o).mem = s.mem := foldl_mem _ (fun _ _ => by simp) _ s
@[simp] theorem sealOut_mem (s : State) (o : Nat) : (sealOut s o).mem = s.mem := by
  unfold sealOut
  simp -implicitDefEqProofs [foldl_mem]
@[simp] theorem swapOut_mem (s : State) (o : Nat) : (swapOut s o).mem = s.mem := by
  unfold swapOut
  split
  · dsimp only
    split <;> simp
  · simp
@[simp] theorem replace_mem (s : State) (o col row : Nat) : (replace s o col row).mem = s.mem := by
  unfold replace
  simp -implicitDefEqProofs [foldl_mem]
@[simp] theorem stepNotices_mem (s : State) (before : Nat) : (stepNotices s before).mem = s.mem := foldl_mem _ (fun _ _ => by simp) _ s
@[simp] theorem stepClock_mem (s : State) (t : Nat) : (stepClock s t).mem = s.mem := by
  unfold stepClock
  dsimp only
  split <;> simp
@[simp] theorem setTime_mem (s : State) (t : Nat) : (setTime s t).mem = s.mem := by
  unfold setTime
  dsimp only
  repeat' split
  all_goals simp
@[simp] theorem actTime_mem (s : State) (tag : Word) (r : List Byte) : (actTime s tag r).mem = s.mem := by
  unfold actTime
  dsimp only
  split <;> simp
@[simp] theorem overLink_mem {s : State} {n : Nat} {act : State → State} (h : ∀ t, (act t).mem = t.mem) : (overLink s n act).mem = s.mem := by
  unfold overLink
  dsimp only
  split
  · rfl
  · simp [h]
@[simp] theorem actMove_mem (s : State) (tag : Word) (r : List Byte) (fits : Option (BitVec 8)) : (actMove s tag r fits).mem = s.mem := by
  unfold actMove
  dsimp only
  repeat' split
  all_goals simp -implicitDefEqProofs
@[simp] theorem stopMove_mem (s : State) (o : Nat) : (stopMove s o).mem = s.mem := by
  unfold stopMove
  dsimp only
  repeat' split
  all_goals simp
@[simp] theorem actTest_mem (s : State) (tag : Word) (package sig : List Byte) (quads : List Nat) :
    (actTest s tag package sig quads).mem = s.mem := by
  unfold actTest
  repeat' split
  all_goals simp -implicitDefEqProofs [foldl_mem]
@[simp] theorem fallNow_mem (s : State) (d : Nat) : (fallNow s d).mem = s.mem := (fallNow_falls s d).mem
@[simp] theorem dropDuty_mem (s : State) (d low : Nat) : (dropDuty s d low).mem = s.mem := (dropDuty_falls s d low).mem
@[simp] theorem takeReport_mem (s : State) (domain vout : BitVec 16) (iout : BitVec 32) (treg eff : BitVec 16) (flux : BitVec 32) :
    (takeReport s domain vout iout treg eff flux).mem = s.mem := by
  unfold takeReport
  dsimp only
  split <;> simp
@[simp] theorem regulatorReports_mem (s : State) : (regulatorReports s).mem = s.mem := by
  unfold regulatorReports
  split
  · rfl
  · exact foldl_mem _ (fun _ _ => by simp) _ s
@[simp] theorem recordEnds_mem (s : State) : (recordEnds s).mem = s.mem := by
  unfold recordEnds
  simp -implicitDefEqProofs [foldl_mem]
@[simp] theorem halfFails_mem (s : State) (h : Nat) : (halfFails s h).mem = s.mem := by
  unfold halfFails
  dsimp only
  repeat' split
  all_goals simp -implicitDefEqProofs [foldl_mem]
@[simp] theorem bootUp_mem (s : State) : (bootUp s).mem = s.mem := by
  unfold bootUp
  simp -implicitDefEqProofs [foldl_mem]
@[simp] theorem strikeAt_mem (s : State) (a : Config.Upset) : (strikeAt s a).mem = s.mem := by
  unfold strikeAt
  cases a
  all_goals dsimp only
  all_goals repeat' split
  all_goals simp
@[simp] theorem upsets_mem (s : State) : (upsets s).mem = s.mem := by
  unfold upsets
  dsimp only
  split <;> simp
@[simp] theorem awayProgress_mem (s : State) : (awayProgress s).mem = s.mem := by
  unfold awayProgress
  refine foldl_mem _ (fun _ _ => ?_) _ _
  dsimp only
  repeat' split
  all_goals simp
@[simp] theorem afterIssue_mem (t u : State) : (afterIssue t u).mem = u.mem := by
  unfold afterIssue
  repeat' split
  all_goals simp
end Sys2Proof.Machine
end

section
/-! What traps, ends and waits do to the slots and to the form of memory (R144, R236, R321, R350 to R358, R391 to R393). -/

namespace Sys2Proof

namespace Tab

/-- What is listed under a number after lines went by their numbers. -/
theorem get_filter {α : Type} (t : Tab α) (d : α) (p : Nat → Bool) (n : Nat) :
    get (t.filter fun e => p e.1) d n = if p n then t.get d n else d := by
  unfold get
  split
  · rename_i h
    rw [find?_filter t n _ fun _ => h]
  · rename_i h
    rw [find?_filter_none t n _ fun _ => eq_false_of_ne_true h]
    rfl

end Tab

namespace Machine

open Sys2Proof.Safety

/-- A fold of steps that keep the canonical form of memory keeps it. -/
theorem foldl_wf {α : Type} {f : State → α → State} (h : ∀ s a, Memory.wf s.mem → Memory.wf (f s a).mem) (l : List α) {s : State}
    (hs : Memory.wf s.mem) : Memory.wf (l.foldl f s).mem := by
  induction l generalizing s with
  | nil => exact hs
  | cons a l ih => exact ih (h s a hs)

/-! ### What a trap or an end does to the slots and to memory -/

/-- No slot is put to work and none retires an instruction; and memory keeps its canonical form. -/
structure Stops (s t : State) : Prop where
  halts : ∀ j, (t.slot j).running = true → (s.slot j).running = true ∧ (t.slot j).retired = (s.slot j).retired
  wf : Memory.wf s.mem → Memory.wf t.mem

namespace Stops

theorem refl (s : State) : Stops s s := ⟨fun _ h => ⟨h, rfl⟩, id⟩

theorem trans {s t u : State} (h : Stops s t) (g : Stops t u) : Stops s u := by
  refine ⟨fun j hj => ?_, g.wf ∘ h.wf⟩
  obtain ⟨ht, hr⟩ := g.halts j hj
  obtain ⟨hs, hr'⟩ := h.halts j ht
  exact ⟨hs, hr.trans hr'⟩

theorem ite {s t u : State} {c : Prop} [Decidable c] (h : Stops s t) (g : Stops s u) : Stops s (if c then t else u) := by
  split
  · exact h
  · exact g

theorem foldl {α : Type} {f : State → α → State} (h : ∀ s a, Stops s (f s a)) (l : List α) (s : State) : Stops s (l.foldl f s) := by
  induction l generalizing s with
  | nil => exact refl s
  | cons a l ih => exact (h s a).trans (ih _)

/-- A step that leaves the slots. -/
theorem of_slots {s t : State} (hs : t.slots = s.slots) (hm : Memory.wf s.mem → Memory.wf t.mem) : Stops s t := by
  have hslot : ∀ j, t.slot j = s.slot j := fun j => congrArg (fun l : Tab Slot => l.get {} j) hs
  exact ⟨fun j hj => by rw [hslot] at hj ⊢; exact ⟨hj, rfl⟩, hm⟩

/-- A step that leaves the slots and memory. -/
theorem of_eq {s t : State} (hs : t.slots = s.slots) (hm : t.mem = s.mem) : Stops s t := of_slots hs fun h => hm ▸ h

theorem of_endKeeps {s t : State} (h : EndKeeps s t) : Stops s t := of_slots h.slots h.wf

/-- A change of a slot that neither puts it to work nor retires an instruction. -/
theorem modSlot (s : State) (k : Nat) {f : Slot → Slot}
    (hf : ∀ x, (f x).running = true → x.running = true ∧ (f x).retired = x.retired) : Stops s (s.modSlot k f) := by
  refine ⟨fun j hj => ?_, fun h => h⟩
  by_cases hk : j = k
  · subst hk
    rw [State.modSlot_slot] at hj ⊢
    exact hf _ hj
  · rw [State.modSlot_slot_ne _ _ hk] at hj ⊢
    exact ⟨hj, rfl⟩

/-- A slot that is set to one that does not run. -/
theorem setSlot (s : State) (k : Nat) {x : Slot} (hx : x.running = false) : Stops s (s.setSlot k x) :=
  modSlot s k (f := fun _ => x) fun _ h => by rw [hx] at h; cases h

end Stops

theorem stop_halts (x : Slot) (h : x.stop.running = true) : x.running = true ∧ x.stop.retired = x.retired := by cases h

theorem modCtx_stops (s : State) (o : Nat) (f : Ctx → Ctx) : Stops s (s.modCtx o f) := .of_eq rfl rfl
theorem modCore_stops (s : State) (k : Nat) (f : CoreSt → CoreSt) : Stops s (s.modCore k f) := .of_eq rfl rfl
theorem setCore_stops (s : State) (k : Nat) (c : CoreSt) : Stops s (s.setCore k c) := .of_eq rfl rfl
theorem modQuad_stops (s : State) (q : Nat) (f : QuadSt → QuadSt) : Stops s (s.modQuad q f) := .of_eq rfl rfl
theorem modPkg_stops (s : State) (f : Pkg → Pkg) : Stops s (s.modPkg f) := .of_eq rfl rfl
theorem tick_stops (s : State) : Stops s s.tick.2 := .of_eq rfl rfl

/-! ### Slots, records and nodes -/

theorem eventAdd_stops (s : State) (kind o : Nat) (data : List Byte) : Stops s (eventAdd s kind o data) := .of_eq rfl rfl

theorem boxAdd_stops (s : State) (kind o unit : Nat) (data : List Byte) : Stops s (boxAdd s kind o unit data) := .of_eq rfl rfl

theorem faultAdd_stops (s : State) (o : Nat) (r : FaultRec) : Stops s (faultAdd s o r) := by
  unfold faultAdd
  refine .trans ?_ (eventAdd_stops _ _ _ _)
  refine .trans ?_ (modCtx_stops _ _ _)
  exact .trans (.of_endKeeps (deviceWrite_endKeeps _ _ _)) (.of_endKeeps (deviceWrite_endKeeps _ _ _))

theorem retireNodes_stops (s : State) (o : Nat) : Stops s (retireNodes s o) := by
  unfold retireNodes
  refine .ite (.refl s) (.foldl (fun t e => ?_) _ s)
  exact .trans (modCtx_stops t o _) (.of_endKeeps (killArenas_endKeeps _ o _))

theorem loseHandbacks_stops (s : State) (k : Nat) : Stops s (loseHandbacks s k) :=
  .foldl (fun t c => .of_endKeeps (terminal_endKeeps t _ c _)) _ s

theorem slotEnd_stops (s : State) (k : Nat) : Stops s (slotEnd s k) :=
  ((Stops.modSlot s k stop_halts).trans (loseHandbacks_stops _ k)).trans (retireNodes_stops _ _)

theorem cancelSlab_stops (s : State) (core : Nat) (sel : Nat → BitVec 32 → Bool) : Stops s (cancelSlab s core sel) := .of_eq rfl rfl

theorem cancelAll_stops (s : State) (o : Nat) (of_ : Cmd → Bool) : Stops s (cancelAll s o of_) := by
  unfold cancelAll
  refine .foldl (fun s core => ?_) _ s
  refine .foldl (fun s c => ?_) _ s
  exact .of_endKeeps (freeEntry_endKeeps s core c stCancelled)

theorem ringPush_stops (s : State) (core : Nat) (w0 w1 : Word) (prio : Bool) (node : Nat) (time : Time) :
    Stops s (ringPush s core w0 w1 prio node time) := by
  unfold ringPush
  refine .trans ?_ (modCore_stops _ _ _)
  refine .trans ?_ (.of_endKeeps (writeBytes_endKeeps _ _ _))
  exact .trans (tick_stops s) (.of_endKeeps (beforeWrite_endKeeps _ _ _ _))

/-! ### The end of a context, of a task and of a cell (R236, R321, R391 to R393) -/

theorem sendEnd_slots (s : State) (domain serial : Word) (code : BitVec 8) : (sendEnd s domain serial code).slots = s.slots := by
  unfold sendEnd homeEnd
  dsimp only
  repeat' split
  all_goals rfl

/-- The slots of an erased owner go with its bytes; the others stay. -/
theorem eraseOwner_stops (s : State) (o : Nat) : Stops s (eraseOwner s o) := by
  have hslots : (eraseOwner s o).slots = s.slots.filter fun e => ownerOf e.1 != o := by
    unfold eraseOwner
    exact congrArg (List.filter _) (foldl_keeps State.slots (fun _ _ => by rfl) _ s)
  have hslot : ∀ j, (eraseOwner s o).slot j = if ownerOf j != o then s.slot j else {} := fun j =>
    (congrArg (fun l : Tab Slot => l.get {} j) hslots).trans (Tab.get_filter s.slots {} (fun n => ownerOf n != o) j)
  refine ⟨fun j hj => ?_, fun h => ?_⟩
  · rw [hslot] at hj ⊢
    split at hj
    · rename_i ho
      rw [if_pos ho]
      exact ⟨hj, rfl⟩
    · cases hj
  · unfold eraseOwner
    refine eraseRange_wf _ _ (foldl_wf (fun s e hs => ?_) _ h)
    exact eraseRange_wf _ _ hs

theorem recordDropped_stops (s : State) (kinds : List Nat) : Stops s (recordDropped s kinds) := .foldl (fun t k => boxAdd_stops t k 0 0 []) _ s

theorem sendEnd_stops (s : State) (domain serial : Word) (code : BitVec 8) : Stops s (sendEnd s domain serial code) :=
  .of_eq (sendEnd_slots _ _ _ _) (sendEnd_mem _ _ _ _)

theorem mapCtxs_stops (s : State) (f : Nat × Ctx → Nat × Ctx) : Stops s { s with ctxs := s.ctxs.map f } := .of_eq rfl rfl

theorem ctxEnd_stops (s : State) (o : Nat) (code : BitVec 8) : Stops s (ctxEnd s o code) := by
  unfold ctxEnd
  split
  · exact .refl s
  · dsimp only
    refine .trans ?_ (.foldl (fun t h => sendEnd_stops t _ _ _) _ _)
    refine .trans ?_ (sendEnd_stops _ _ _ _)
    refine .trans ?_ (modPkg_stops _ _)
    refine .trans ?_ (recordDropped_stops _ _)
    refine .trans ?_ (mapCtxs_stops _ _)
    refine .trans ?_ (eraseOwner_stops _ _)
    refine .trans ?_ (boxAdd_stops _ _ _ _ _)
    refine .trans ?_ (eventAdd_stops _ _ _ _)
    exact (cancelAll_stops _ _ _).trans (.of_endKeeps (killArenas_endKeeps _ _ _))

theorem taskCheck_stops (s : State) (o : Nat) : Stops s (taskCheck s o) := .ite (ctxEnd_stops s o 2) (.refl s)

theorem orphanArenas_stops (s : State) (o : Nat) : Stops s (orphanArenas s o) := .of_eq rfl rfl

theorem taskAbrupt_stops (s : State) (o : Nat) (r : FaultRec) : Stops s (taskAbrupt s o r) := by
  unfold taskAbrupt
  dsimp only
  refine .trans ?_ (faultAdd_stops _ _ _)
  refine .trans ?_ (.ite (orphanArenas_stops _ _) (.of_endKeeps (killArenas_endKeeps _ _ _)))
  refine .trans ?_ (modCtx_stops _ _ _)
  refine .trans ?_ (.foldl (fun t c => modCore_stops t c _) _ _)
  refine .trans ?_ (cancelAll_stops _ _ _)
  refine .trans ?_ (.foldl (fun _ _ => cancelSlab_stops _ _ _) _ _)
  exact .foldl (fun t k => .modSlot t k stop_halts) _ s

/-- As `noticePend_mem`. -/
theorem noticePend_stops (s : State) (o : Nat) : Stops s (noticePend s o) := by
  suffices h : ∀ f, f = noticePend → Stops s (f s o) from h _ rfl
  intro f hf
  delta noticePend at hf
  subst hf
  beta_reduce
  generalize noticeSlot s o = slot
  cases slot with
  | none => exact .refl s
  | some k =>
    dsimp only
    refine .ite (.refl s) (.foldl (fun t j => .modSlot t j ?_) _ _)
    exact fun _ h => ⟨h, rfl⟩

theorem abandonMove_stops (s : State) (o : Nat) : Stops s (abandonMove s o) := by
  unfold abandonMove
  split
  · exact .refl s
  · have hkill (m : Option MoveSt) (sel : Arena → Bool) : Stops s (killArenas (s.modCtx o fun c => { c with move := m }) o sel) :=
      (modCtx_stops _ _ _).trans (.of_endKeeps (killArenas_endKeeps _ _ _))
    refine .ite (.refl s) (.ite ?_ (hkill _ _))
    exact (hkill _ _).trans (noticePend_stops _ _)

theorem bindStraits_stops (s : State) (q : Nat) : Stops s (bindStraits s q) := by
  refine .of_eq ?_ (bindStraits_mem s q)
  unfold bindStraits
  dsimp only
  split <;> rfl

theorem withdraw_stops (s : State) (o : Nat) (sel : Nat → Bool) : Stops s (withdraw s o sel) := .of_eq rfl rfl

theorem resetCell_stops (s : State) (k : Nat) : Stops s (resetCell s k) := by
  unfold resetCell
  dsimp only
  refine .trans ?_ (retireNodes_stops _ _)
  refine .trans ?_ (.foldl (fun t q => ?_) _ _)
  · refine .trans ?_ (.foldl (fun t j => .setSlot t j rfl) _ _)
    refine .trans ?_ (.foldl (fun t c => setCore_stops t c _) _ _)
    exact withdraw_stops _ _ _
  · refine .trans ?_ (bindStraits_stops _ q)
    exact .trans (.of_endKeeps (eraseRange_endKeeps _ _ _)) (modQuad_stops _ _ _)

theorem closeCell_stops (s : State) (k : Nat) (r : FaultRec) : Stops s (closeCell s k r) := by
  unfold closeCell
  dsimp only
  refine .trans ?_ (modCtx_stops _ _ _)
  refine .trans ?_ (cancelAll_stops _ _ _)
  refine .trans ?_ (.foldl (fun t q => modQuad_stops t q _) _ _)
  refine .trans ?_ (.foldl (fun t c => .trans (cancelSlab_stops t c _) (modCore_stops _ c _)) _ _)
  exact .foldl (fun t k => .modSlot t k stop_halts) _ s

theorem openCell_stops (s : State) (o : Nat) (x : Closed) : Stops s (openCell s o x) := by
  unfold openCell
  dsimp only
  refine .trans ?_ (boxAdd_stops _ _ _ _ _)
  refine .trans ?_ (faultAdd_stops _ _ _)
  exact .trans (resetCell_stops s x.slot) (modCtx_stops _ _ _)

theorem contain_stops (s : State) (k : Nat) (r : FaultRec) : Stops s (contain s k r) := by
  unfold contain
  dsimp only
  refine .ite (.refl s) (.ite (ctxEnd_stops _ _ _) ?_)
  have hclose : Stops s (closeCell (abandonMove s.tick.2 (ownerOf k)) k r) :=
    ((tick_stops s).trans (abandonMove_stops _ _)).trans (closeCell_stops _ k r)
  exact .ite (hclose.trans (openCell_stops _ _ _)) hclose

theorem consume_stops (s : State) (k : Nat) : Stops s (consume s k) :=
  (tick_stops s).trans (contain_stops _ _ _)

/-! ### Taking a trap (R354 to R358) -/

theorem putBack_slots (s : State) (k : Nat) (b : Block) : (putBack s k b).slots = s.slots :=
  foldl_keeps State.slots (fun _ _ => by simp) _ s

theorem abandon_stops (s : State) (k : Nat) : Stops s (abandon s k) := by
  unfold abandon
  dsimp only
  refine .trans ?_ (.modSlot _ k fun _ h => ⟨h, rfl⟩)
  repeat' split
  · exact .of_eq (putBack_slots _ _ _) (putBack_mem _ _ _)
  all_goals exact .refl s

theorem enterHandler_stops (s : State) (k : Nat) (cause : BitVec 8) (late : Bool) (pc tval : Word) (seq : BitVec 32) (need : BitVec 4) :
    Stops s (enterHandler s k cause late pc tval seq need) := by
  unfold enterHandler
  dsimp only
  refine .ite (.trans ?_ (taskAbrupt_stops _ _ _)) (.trans ?_ (.modSlot _ k fun _ h => ⟨h, rfl⟩))
  all_goals exact .modSlot s k fun _ h => ⟨h, rfl⟩

theorem pushAgain_stops (s : State) (core : Nat) (r : Again) : Stops s (pushAgain s core r) :=
  .ite (.of_eq rfl rfl) (ringPush_stops _ _ _ _ _ _ _)

theorem mismatch_stops (s : State) (k : Nat) (tval : Word) : Stops s (mismatch s k tval) := by
  unfold mismatch
  dsimp only
  split
  · refine .trans ?_ (pushAgain_stops _ _ _)
    refine .trans ?_ (loseHandbacks_stops _ _)
    refine .trans ?_ (.foldl (fun t j => .modSlot t j stop_halts) _ _)
    refine .trans ?_ (cancelSlab_stops _ _ _)
    refine .trans ?_ (.foldl (fun t j => .modSlot t j ?_) _ _)
    · exact (modCtx_stops _ _ _).trans (boxAdd_stops _ _ _ _ _)
    · exact fun _ h => ⟨h, rfl⟩
  · refine .trans ?_ (taskAbrupt_stops _ _ _)
    refine .trans ?_ (.foldl (fun t j => .modSlot t j ?_) _ _)
    · exact (modCtx_stops _ _ _).trans (boxAdd_stops _ _ _ _ _)
    · exact fun _ h => ⟨h, rfl⟩

theorem takeTrap_stops (s : State) (k : Nat) (t : Trap) (late : Bool) (pc : Word) (seq : BitVec 32) :
    Stops s (takeTrap s k t late pc seq) := by
  unfold takeTrap
  split
  · exact taskAbrupt_stops _ _ _
  · exact contain_stops _ _ _
  · exact mismatch_stops _ _ _
  · exact .ite (.trans (abandon_stops s k) (taskAbrupt_stops _ _ _)) (.trans (abandon_stops s k) (enterHandler_stops _ _ _ _ _ _ _ _))

theorem raise_stops (s : State) (k : Nat) (t : Trap) : Stops s (raise s k t) := takeTrap_stops _ _ _ _ _ _

/-! ### Waits, and what an instruction leaves that does not complete -/

theorem raisePair_stops (s : State) (k : Nat) (t : Trap) : Stops s (raisePair s k t) := by
  unfold raisePair
  dsimp only
  refine .ite (raise_stops _ _ _) (.ite ((raise_stops _ _ _).trans (raise_stops _ _ _)) ?_)
  exact (raise_stops _ _ _).trans (.modSlot _ _ fun _ h => ⟨h, rfl⟩)

theorem raiseOp_stops (s : State) (k : Nat) (op : Op) (t : Trap) : Stops s (raiseOp s k op t) :=
  .ite (raise_stops _ _ _) (raisePair_stops _ _ _)

theorem raiseWaiting_stops (s : State) (k : Nat) (t : Trap) : Stops s (raiseWaiting s k t) :=
  .ite (raise_stops _ _ _) (raisePair_stops _ _ _)

theorem holdSlot_stops (s : State) (k : Nat) : Stops s (holdSlot s k) := .modSlot s k fun _ h => ⟨h, rfl⟩

/-- A slot that blocks traps instead, is consumed, or waits, behind what its instruction has left. -/
theorem blockOn_cases (s : State) (k : Nat) (op : Op) (w : Wait) (left : Option State) :
    (∃ t, blockOn s k op w left = raiseOp s k op t) ∨ blockOn s k op w left = consume s k ∨
      ∃ (b : Block) (r n : Nat), blockOn s k op w left =
        { (left.getD s).modSlot k fun y => { y with blk := some b, ready := r, dead := false, skip := none } with ticket := n } := by
  unfold blockOn
  dsimp only
  split
  · exact .inl ⟨_, rfl⟩
  · split
    · exact .inr (.inl rfl)
    · exact .inr (.inr ⟨_, _, _, rfl⟩)

theorem blockOn_stops {s : State} {left : Option State} (hl : Stops s (left.getD s)) (k : Nat) (op : Op) (w : Wait) :
    Stops s (blockOn s k op w left) := by
  obtain ⟨t, h⟩ | h | ⟨b, r, n, h⟩ := blockOn_cases s k op w left
  · rw [h]
    exact raiseOp_stops _ _ _ _
  · rw [h]
    exact consume_stops _ _
  · have hw := hl.trans (.modSlot (left.getD s) k (f := fun y => { y with blk := some b, ready := r, dead := false, skip := none }) fun _ h => ⟨h, rfl⟩)
    rw [h]
    exact ⟨hw.halts, hw.wf⟩

end Machine
end Sys2Proof
end

section
/-! The frame of the scalar instructions (R22, R94, R111 to R131). -/

namespace Sys2Proof.Machine

open Sys2Proof.Safety

/-! ### Queue registers and destinations: what reading and writing them leaves alone (R22) -/

/-- Of a core and a quad, a queue holds its entries and nothing else. -/
theorem qSet_core (s : State) (c q : Nat) (es : List Word) (bad : List Bool) (k : Nat) :
    (qSet s c q es bad).core k = { s.core k with queues := ((qSet s c q es bad).core k).queues } := by
  unfold qSet
  dsimp only
  split
  · by_cases h : k = c
    · subst h; rw [State.modCore_core]
    · rw [State.modCore_core_ne _ _ h]
  · rfl

theorem readReg_core (s : State) (j : Nat) (r : Reg) (k : Nat) :
    (readReg s j r).2.core k = { s.core k with queues := ((readReg s j r).2.core k).queues } := by
  unfold readReg
  split
  · split
    · rfl
    · exact qSet_core _ _ _ _ _ _
  · rfl

theorem readRegs_core (s : State) (j : Nat) (rs : List Reg) (k : Nat) :
    (readRegs s j rs).2.core k = { s.core k with queues := ((readRegs s j rs).2.core k).queues } := by
  induction rs generalizing s with
  | nil => rfl
  | cons r t ih =>
    simp only [readRegs]
    rw [ih, readReg_core]

theorem writeReg_core (s : State) (j : Nat) (d : Reg) (v : Word) (k : Nat) :
    (writeReg s j d v).core k = { s.core k with queues := ((writeReg s j d v).core k).queues } := by
  unfold writeReg
  split
  · exact qSet_core _ _ _ _ _ _
  · rfl

/-- A write of a register that is no queue is a write to the slot. -/
theorem writeReg_general (s : State) (j : Nat) {d : Reg} (v : Word) (h : d.isQueue = false) :
    writeReg s j d v = s.modSlot j fun x => x.setG d v := by
  unfold writeReg
  rw [if_neg (by rw [h]; decide)]

/-- A slot with another value in a general register has nothing else changed but the error mark of that register. -/
theorem setG_eq (x : Slot) (d : Reg) (v : Word) : x.setG d v = { x with g := (x.setG d v).g, bad := (x.setG d v).bad } := by
  unfold Slot.setG Slot.mended
  split
  · rfl
  · split <;> rfl

/-- The current slot behind a write of a register: with the value where that is a general register. -/
theorem writeReg_slot (s : State) (j : Nat) (d : Reg) (v : Word) :
    (writeReg s j d v).slot j = if d.isQueue then s.slot j else (s.slot j).setG d v := by
  unfold writeReg
  split
  · exact congrArg (fun l : Tab Slot => l.get {} j) (qSet_slots _ _ _ _ _)
  · rw [State.modSlot_slot]

theorem writeReg_slot_ne (s : State) {j k : Nat} (d : Reg) (v : Word) (h : k ≠ j) : (writeReg s j d v).slot k = s.slot k := by
  unfold writeReg
  split
  · exact congrArg (fun l : Tab Slot => l.get {} k) (qSet_slots _ _ _ _ _)
  · exact State.modSlot_slot_ne _ _ h

/-- The current slot behind a write: only a general register and its error mark. -/
theorem writeReg_slot_eq (s : State) (j : Nat) (d : Reg) (v : Word) : (writeReg s j d v).slot j =
    { s.slot j with g := ((writeReg s j d v).slot j).g, bad := ((writeReg s j d v).slot j).bad } := by
  rw [writeReg_slot]
  split
  · rfl
  · exact setG_eq _ _ _

theorem writeReg_getG_ne (s : State) (j : Nat) {d r : Reg} (v : Word) (h : r ≠ d) :
    ((writeReg s j d v).slot j).getG r = (s.slot j).getG r := by
  rw [writeReg_slot]
  split
  · rfl
  · rw [getG_setG, if_neg h]
    split
    · rename_i hr
      rw [hr]
      rfl
    · rfl

/-! ### Bodies that compute a general register (R112 to R130) -/

/-- The flags of a float operation ORed into FFLAGS (R131). -/
def addFlags (s : State) (fl : Flags) : State := s.modMe fun x => { x with fflags := x.fflags ||| fl }

/-- A result that is a trap, or a write of a register, the flags of a float operation raised before. -/
def Gives (d : Reg) (float : Bool) (s : State) (r : Res) : Prop :=
  (∃ e, r = .error (.trap e)) ∨
    ∃ w u, r = .ok (writeReg u u.cur d w, .fall) ∧ (u = s ∨ float = true ∧ ∃ fl, u = addFlags s fl)

theorem gives_give (d : Reg) (float : Bool) (s : State) (w : Word) : Gives d float s (give s d w) := .inr ⟨w, s, rfl, .inl rfl⟩

/-- Raising flags and then writing a register. -/
theorem gives_raiseFlags (d : Reg) (s : State) (fl : Flags) (w : Word) : Gives d true s (raiseFlags s fl >>= fun t => give t d w) := by
  unfold raiseFlags
  split
  · exact .inl ⟨_, rfl⟩
  · exact .inr ⟨w, addFlags s fl, rfl, .inr ⟨rfl, fl, rfl⟩⟩

theorem gives_giveF (d : Reg) (s : State) (r : Nat × Flags) : Gives d true s (giveF s d r) := gives_raiseFlags d s r.2 _

/-- Reading the format before what gives a register. -/
theorem gives_needFF {d : Reg} {float : Bool} {s : State} {f : Fmt} {k : FF → Res} (h : ∀ ff, Gives d float s (k ff)) :
    Gives d float s (needFF f >>= k) := by
  unfold needFF
  split
  · exact h _
  · exact .inl ⟨_, rfl⟩

/-- Reading the rounding before what gives a register. -/
theorem gives_needCapture {d : Reg} {float : Bool} {s u : State} {rnd : Rnd} {k : Capture → Res} (h : ∀ c, Gives d float s (k c)) :
    Gives d float s (needCapture u rnd >>= k) := by
  unfold needCapture
  split
  · exact h _
  · exact .inl ⟨_, rfl⟩

/-- The instructions that compute a general register from integers. -/
theorem exec_computes {i : Instr} {h : Hdr} {srcs : List Reg} {d : Reg} (hc : computes i = some (h, srcs, d)) (s : State) :
    ∃ lat body, exec i s = issue { i, h, srcs, dst := some d, lat } body s ∧ ∀ v u, Gives d false u (body v u) := by
  cases i <;> cases hc <;> exact ⟨_, _, rfl, fun _ _ => gives_give _ _ _ _⟩

/-- The instructions that compute a general register from floats. -/
theorem exec_computesFloat {i : Instr} {h : Hdr} {srcs : List Reg} {d : Reg} (hc : computesFloat i = some (h, srcs, d)) (s : State) :
    ∃ lat body, exec i s = issue { i, h, srcs, dst := some d, lat } body s ∧ ∀ v u, Gives d true u (body v u) := by
  cases i <;> cases hc
  case fmin | fmax => exact ⟨_, _, rfl, fun _ _ => gives_needFF fun _ => gives_giveF _ _ _⟩
  case fsgn | fclass => exact ⟨_, _, rfl, fun _ _ => gives_needFF fun _ => gives_give _ _ _ _⟩
  case fcvt k _ _ =>
    refine ⟨_, _, rfl, fun _ _ => gives_needCapture fun c => ?_⟩
    cases k with
    | ff dst src => exact gives_needFF fun _ => gives_needFF fun _ => gives_giveF _ _ _
    | fi ty src => exact gives_needFF fun _ => gives_raiseFlags _ _ _ _
    | if_ dst ty => exact gives_needFF fun _ => gives_giveF _ _ _
  all_goals exact ⟨_, _, rfl, fun _ _ => gives_needFF fun _ => gives_needCapture fun _ => gives_giveF _ _ _⟩

/-! ### What an instruction that computes a register leaves -/

/-- The issue of an instruction that computes a register: it does not complete; or its guard is false; or it has written the register. -/
theorem issue_gives {op : Op} {body : List Word → State → Res} {d : Reg} {float : Bool} (hp : op.pair = .own)
    (hb : ∀ v u, Gives d float u (body v u)) {s t : State} (he : issue op body s = .next t) :
    Stops s t ∨ t = finish s s.cur op.i.bytes 1 .fall ∨
      ∃ w u lat, t = finish (writeReg u s.cur d w) s.cur op.i.bytes lat .fall ∧
        (u = popped s op.srcs ∨ float = true ∧ ∃ fl, u = addFlags (popped s op.srcs) fl) := by
  unfold issue at he
  dsimp only at he
  split at he
  · cases he
    exact .inl (raise_stops _ _ _)
  split at he
  · cases he
    exact .inl (consume_stops _ _)
  split at he
  · cases he
    exact .inr (.inl rfl)
  split at he
  · cases he
    exact .inl (holdSlot_stops _ _)
  rw [if_pos (by simp [hp])] at he
  cases he
  unfold perform
  split
  · exact .inl (consume_stops _ _)
  split
  · exact .inl (blockOn_stops (.refl _) _ _ _)
  split
  · exact .inl (consume_stops _ _)
  split
  · exact .inl (blockOn_stops (.refl _) _ _ _)
  dsimp only
  obtain ⟨e, hr⟩ | ⟨w, u, hr, hu⟩ := hb (readRegs s s.cur op.srcs).1 (readRegs s s.cur op.srcs).2
  · rw [hr]
    exact .inl (raiseOp_stops _ _ _ _)
  · rw [hr]
    have hcur : u.cur = s.cur := by
      obtain rfl | ⟨-, fl, rfl⟩ := hu
      · exact readRegs_cur _ _ _
      · exact readRegs_cur _ _ _
    rw [hcur]
    exact .inr (.inr ⟨w, u, _, rfl, hu⟩)

/-- What a scalar instruction leaves where it completes: no more than its destination, the flags of a float operation, and queue entries change. -/
structure ScalarKept (s t : State) (d : Reg) (srcs : List Reg) (float : Bool) : Prop where
  slot : SlotKept s.me (t.slot s.cur)
  others : Elsewhere s t
  regs : ∀ r, r ≠ d → (t.slot s.cur).getG r = s.me.getG r
  flags : float = false → (t.slot s.cur).fflags = s.me.fflags
  queues : (∀ r, r ∈ d :: srcs → r.isQueue = false) → t.cores = s.cores ∧ t.quads = s.quads

theorem scalarKept_refl (s : State) (d : Reg) (srcs : List Reg) (float : Bool) : ScalarKept s s d srcs float where
  slot := by
    unfold SlotKept
    repeat' constructor
  others := ⟨fun _ _ => rfl, rfl, rfl, rfl, rfl, rfl, rfl, rfl, rfl, fun _ => ⟨rfl, rfl, rfl, rfl, rfl, rfl, rfl, rfl⟩⟩
  regs _ _ := rfl
  flags _ := rfl
  queues _ := ⟨rfl, rfl⟩

/-- Reads of the sources. -/
theorem scalarKept_popped (s : State) (d : Reg) (srcs : List Reg) (float : Bool) : ScalarKept s (popped s srcs) d srcs float where
  slot := by
    rw [popped_slot]
    unfold SlotKept
    repeat' constructor
  others := by
    refine ⟨fun k _ => popped_slot _ _ _, popped_mem _ _, popped_full _ _, popped_poison _ _, popped_lines _ _, popped_pages _ _,
      popped_arenas _ _, popped_ctxs _ _, popped_pkg _ _, fun c => ?_⟩
    unfold popped
    rw [readRegs_core]
    repeat' constructor
  regs _ _ := by rw [popped_slot]; rfl
  flags _ := by rw [popped_slot]; rfl
  queues h := by
    unfold popped
    rw [readRegs_general _ _ _ fun r hr => h r (List.mem_cons_of_mem _ hr)]
    exact ⟨rfl, rfl⟩

section
variable {s t : State} {d : Reg} {srcs : List Reg} {float : Bool}

theorem scalarKept_addFlags (h : ScalarKept s t d srcs true) (hcur : t.cur = s.cur) (fl : Flags) :
    ScalarKept s (addFlags t fl) d srcs true := by
  obtain ⟨hslot, ⟨hothers, helse⟩, hregs, -, hqueues⟩ := h
  unfold addFlags State.modMe
  rw [hcur]
  refine ⟨?_, ⟨fun k hk => ?_, helse⟩, fun r hr => ?_, fun hf => (by cases hf), hqueues⟩
  · rw [State.modSlot_slot]
    exact hslot
  · rw [State.modSlot_slot_ne _ _ hk]
    exact hothers k hk
  · rw [State.modSlot_slot]
    exact hregs r hr

theorem scalarKept_writeReg (h : ScalarKept s t d srcs float) (w : Word) : ScalarKept s (writeReg t s.cur d w) d srcs float := by
  obtain ⟨hslot, ⟨hothers, hmem, hfull, hpoison, hlines, hpages, harenas, hctxs, hpkg, hcores⟩, hregs, hflags, hqueues⟩ := h
  refine ⟨?_, ⟨fun k hk => ?_, ?_, ?_, ?_, ?_, ?_, ?_, ?_, ?_, fun c => ?_⟩, fun r hr => ?_, fun hf => ?_, fun hq => ?_⟩
  · rw [writeReg_slot_eq]
    exact hslot
  · rw [writeReg_slot_ne _ _ _ hk]
    exact hothers k hk
  · rw [writeReg_mem, hmem]
  · rw [writeReg_full, hfull]
  · rw [writeReg_poison, hpoison]
  · rw [writeReg_lines, hlines]
  · rw [writeReg_pages, hpages]
  · rw [writeReg_arenas, harenas]
  · rw [writeReg_ctxs, hctxs]
  · rw [writeReg_pkg, hpkg]
  · rw [writeReg_core]
    exact hcores c
  · rw [writeReg_getG_ne _ _ _ hr]
    exact hregs r hr
  · rw [writeReg_slot_eq]
    exact hflags hf
  · rw [writeReg_general _ _ _ (hq d List.mem_cons_self)]
    exact hqueues hq

/-- The completion of an instruction writes only the pc, the retired count and the slot's place in the schedule. -/
theorem scalarKept_finish (h : ScalarKept s t d srcs float) (len lat : Nat) :
    ScalarKept s (finish t s.cur len lat .fall) d srcs float := by
  obtain ⟨hslot, ⟨hothers, helse⟩, hregs, hflags, hqueues⟩ := h
  unfold finish
  dsimp only
  refine ⟨?_, ⟨fun k hk => ?_, helse⟩, fun r hr => ?_, fun hf => ?_, hqueues⟩
  · rw [State.modSlot_slot]
    exact hslot
  · rw [State.modSlot_slot_ne _ _ hk]
    exact hothers k hk
  · rw [State.modSlot_slot]
    exact hregs r hr
  · rw [State.modSlot_slot]
    exact hflags hf

end

/-- A slot that goes on with one instruction more retired has not been stopped. -/
theorem not_stops_of_retired {s t : State} {k : Nat} (hr : (t.slot k).retired = (s.slot k).retired + 1) (hrun : (t.slot k).running = true) :
    ¬ Stops s t := by
  intro h
  have := (h.halts k hrun).2
  rw [hr] at this
  bv_omega

/-- What an instruction that computes a register leaves alone, where it completes. -/
theorem issue_scalarKept {i : Instr} {h : Hdr} {srcs : List Reg} {d : Reg} {lat : Nat} {float : Bool} {body : List Word → State → Res}
    (hb : ∀ v u, Gives d float u (body v u)) {s t : State} (he : issue { i, h, srcs, dst := some d, lat } body s = .next t)
    (hr : (t.slot s.cur).retired = s.me.retired + 1) (hrun : (t.slot s.cur).running = true) : ScalarKept s t d srcs float := by
  obtain hstop | rfl | ⟨w, u, n, rfl, hu⟩ := issue_gives rfl hb he
  · exact absurd hstop (not_stops_of_retired hr hrun)
  · exact scalarKept_finish (scalarKept_refl s d srcs float) _ _
  · refine scalarKept_finish (scalarKept_writeReg ?_ w) _ _
    obtain rfl | ⟨rfl, fl, rfl⟩ := hu
    · exact scalarKept_popped s d srcs float
    · exact scalarKept_addFlags (scalarKept_popped s d srcs true) (popped_cur _ _) fl

end Sys2Proof.Machine

namespace Sys2Proof.Safety

open Sys2Proof.Machine

/-- Settles O9: where the slot goes on with one instruction more retired, the instruction has completed, or its guard was false; and what
a completion writes is its destination, its flags and the queues it names. -/
theorem scalarFrame : Obligations.ScalarFrame := by
  unfold Obligations.ScalarFrame
  intro i h srcs d s t hc _ he hr hrun
  have hk : ∃ float, ScalarKept s t d srcs float ∧ (computes i = some (h, srcs, d) → float = false) := by
    obtain hc | hc := hc
    · obtain ⟨lat, body, heq, hb⟩ := exec_computes hc s
      exact ⟨false, issue_scalarKept hb (heq ▸ he) hr hrun, fun _ => rfl⟩
    · obtain ⟨lat, body, heq, hb⟩ := exec_computesFloat hc s
      refine ⟨true, issue_scalarKept hb (heq ▸ he) hr hrun, fun h => ?_⟩
      cases i <;> cases hc <;> cases h
  obtain ⟨float, ⟨hslot, hothers, hregs, hflags, hqueues⟩, hint⟩ := hk
  obtain ⟨-, hmem, -⟩ := id hothers
  exact ⟨hslot, hothers, fun a => congrArg (fun m => Tab.get m unlisted a) hmem, hregs, fun h => hflags (hint h), hqueues⟩

end Sys2Proof.Safety
end

section
/-! What keeps memory in its canonical form: accesses and the issue of an instruction (R94, R134 to R141). -/

namespace Sys2Proof.Machine

open Sys2Proof.Safety

/-- Memory in its canonical form: the model's `Memory.wf` under a name that `simp` does not take apart. -/
def Canonical (m : List Host.Cell) : Prop := Memory.wf m

theorem foldl_canonical {α : Type} {f : State → α → State} {s : State} (h : Canonical s.mem)
    (hf : ∀ s a, Canonical s.mem → Canonical (f s a).mem) (l : List α) : Canonical (l.foldl f s).mem := foldl_wf hf l h

/-- A choice between two states that both have the memory of a third. -/
theorem ite_canonical {c : Prop} [Decidable c] {t u : State} (ht : Canonical t.mem) (hu : Canonical u.mem) :
    Canonical (if c then t else u).mem := by
  split
  · exact ht
  · exact hu

/-! ### Results that leave memory in its canonical form -/

/-- What a stop has left, where it has left a state, has a memory in canonical form. -/
def Stop.Wf : Stop → Prop
  | .fault _ left | .poll _ left | .block _ (some left) => Canonical left.mem
  | _ => True

/-- A result whose value has a property, or a stop that leaves memory in canonical form. -/
def Ret {α : Type} (P : α → Prop) : Except Stop α → Prop
  | .ok a => P a
  | .error e => e.Wf

section
variable {α β : Type} {P : α → Prop} {Q : β → Prop}

theorem ret_bind {x : Except Stop α} {f : α → Except Stop β} (hx : Ret P x) (hf : ∀ a, P a → Ret Q (f a)) : Ret Q (x >>= f) := by
  cases x with
  | error e => exact hx
  | ok a => exact hf a hx

theorem ret_ite {c : Prop} [Decidable c] {x y : Except Stop α} (hx : Ret P x) (hy : Ret P y) : Ret P (if c then x else y) := by
  split
  · exact hx
  · exact hy

end

theorem stop_behind_wf {e : Stop} {s : State} (he : e.Wf) (h : Canonical s.mem) : (e.behind s).Wf := by
  cases e with
  | trap t => exact h
  | _ => exact he

theorem ret_behind {α : Type} {P : α → Prop} {x : Except Stop α} {s : State} (hx : Ret P x) (h : Canonical s.mem) :
    Ret P (x.mapError (Stop.behind s)) := by
  cases x with
  | error e => exact stop_behind_wf hx h
  | ok a => exact hx

@[simp] theorem ret_ok {α : Type} {P : α → Prop} {a : α} : Ret P (.ok a) ↔ P a := .rfl
@[simp] theorem ret_pure {α : Type} {P : α → Prop} {a : α} : Ret P (pure a) ↔ P a := .rfl
@[simp] theorem ret_error {α : Type} {P : α → Prop} {e : Stop} : Ret P (.error e) ↔ e.Wf := .rfl
@[simp] theorem ret_done {P : State × Next → Prop} {s : State} : Ret P (done s) ↔ P (s, .fall) := .rfl
@[simp] theorem trap_wf (t : Trap) : (Stop.trap t).Wf := trivial
@[simp] theorem ill_wf : ill.Wf := trivial
@[simp] theorem prot_wf (v : Word) : (prot v).Wf := trivial
@[simp] theorem hold_wf : Stop.hold.Wf := trivial
@[simp] theorem path_wf (ea : Word) (need : BitVec 4) : (Stop.path ea need).Wf := trivial
@[simp] theorem skip_wf (b : Nat) : (Stop.skip b).Wf := trivial
@[simp] theorem block_none_wf (w : Wait) : (Stop.block w none).Wf := trivial
@[simp] theorem block_some_wf {w : Wait} {s : State} : (Stop.block w (some s)).Wf ↔ Canonical s.mem := .rfl
@[simp] theorem fault_wf {t : Trap} {s : State} : (Stop.fault t s).Wf ↔ Canonical s.mem := .rfl
@[simp] theorem poll_wf {w : Wait} {s : State} : (Stop.poll w s).Wf ↔ Canonical s.mem := .rfl

/-- A result without a state. -/
abbrev Plain {α : Type} (x : Except Stop α) : Prop := Ret (fun _ => True) x

/-- A result with a state whose memory is in canonical form. -/
abbrev RetState (x : Except Stop State) : Prop := Ret (fun t => Canonical t.mem) x
abbrev RetSnd {α : Type} (x : Except Stop (α × State)) : Prop := Ret (fun r => Canonical r.2.mem) x
abbrev RetFst {α : Type} (x : Except Stop (State × α)) : Prop := Ret (fun r => Canonical r.1.mem) x

/-! ### Memory written and erased -/

section
variable {s : State} (h : Canonical s.mem)
include h

@[simp] theorem writeByte_canonical (k : Nat) (b : Byte) : Canonical (writeByte s k b).mem := writeByte_wf k b h
@[simp] theorem writeBytes_canonical (k : Nat) (bs : List Byte) : Canonical (writeBytes s k bs).mem := writeBytes_wf k bs h
@[simp] theorem eraseRange_canonical (lo hi : Nat) : Canonical (eraseRange s lo hi).mem := eraseRange_wf lo hi h
@[simp] theorem storeBytes_canonical (k key : Nat) (bs : List Byte) : Canonical (storeBytes s k key bs).mem := storeBytes_wf k key bs h
@[simp] theorem deviceWrite_canonical (key : Nat) (bs : List Byte) : Canonical (deviceWrite s key bs).mem := deviceWrite_wf key bs h
@[simp] theorem raise_canonical (k : Nat) (t : Trap) : Canonical (raise s k t).mem := (raise_stops s k t).wf h
@[simp] theorem consume_canonical (k : Nat) : Canonical (consume s k).mem := (consume_stops s k).wf h
@[simp] theorem raiseOp_canonical (k : Nat) (op : Op) (t : Trap) : Canonical (raiseOp s k op t).mem := (raiseOp_stops s k op t).wf h
@[simp] theorem raisePair_canonical (k : Nat) (t : Trap) : Canonical (raisePair s k t).mem := (raisePair_stops s k t).wf h
@[simp] theorem raiseWaiting_canonical (k : Nat) (t : Trap) : Canonical (raiseWaiting s k t).mem := (raiseWaiting_stops s k t).wf h
@[simp] theorem takeTrap_canonical (k : Nat) (t : Trap) (late : Bool) (pc : Word) (seq : BitVec 32) :
    Canonical (takeTrap s k t late pc seq).mem := (takeTrap_stops s k t late pc seq).wf h
@[simp] theorem mismatch_canonical (k : Nat) (tval : Word) : Canonical (mismatch s k tval).mem := (mismatch_stops s k tval).wf h
@[simp] theorem pushAgain_canonical (core : Nat) (r : Again) : Canonical (pushAgain s core r).mem := (pushAgain_stops s core r).wf h
@[simp] theorem contain_canonical (k : Nat) (r : FaultRec) : Canonical (contain s k r).mem := (contain_stops s k r).wf h
@[simp] theorem openCell_canonical (o : Nat) (x : Closed) : Canonical (openCell s o x).mem := (openCell_stops s o x).wf h
@[simp] theorem resetCell_canonical (k : Nat) : Canonical (resetCell s k).mem := (resetCell_stops s k).wf h
@[simp] theorem abandonMove_canonical (o : Nat) : Canonical (abandonMove s o).mem := (abandonMove_stops s o).wf h
@[simp] theorem taskAbrupt_canonical (o : Nat) (r : FaultRec) : Canonical (taskAbrupt s o r).mem := (taskAbrupt_stops s o r).wf h
@[simp] theorem taskCheck_canonical (o : Nat) : Canonical (taskCheck s o).mem := (taskCheck_stops s o).wf h
@[simp] theorem ctxEnd_canonical (o : Nat) (code : BitVec 8) : Canonical (ctxEnd s o code).mem := (ctxEnd_stops s o code).wf h
@[simp] theorem eraseOwner_canonical (o : Nat) : Canonical (eraseOwner s o).mem := (eraseOwner_stops s o).wf h
@[simp] theorem ringPush_canonical (core : Nat) (w0 w1 : Word) (prio : Bool) (node : Nat) (time : Time) :
    Canonical (ringPush s core w0 w1 prio node time).mem := (ringPush_stops s core w0 w1 prio node time).wf h
@[simp] theorem slotEnd_canonical (k : Nat) : Canonical (slotEnd s k).mem := (slotEnd_stops s k).wf h
@[simp] theorem loseHandbacks_canonical (k : Nat) : Canonical (loseHandbacks s k).mem := (loseHandbacks_stops s k).wf h
@[simp] theorem retireNodes_canonical (o : Nat) : Canonical (retireNodes s o).mem := (retireNodes_stops s o).wf h
@[simp] theorem faultAdd_canonical (o : Nat) (r : FaultRec) : Canonical (faultAdd s o r).mem := (faultAdd_stops s o r).wf h
@[simp] theorem killArenas_canonical (o : Nat) (sel : Arena → Bool) : Canonical (killArenas s o sel).mem := (killArenas_endKeeps s o sel).wf h
@[simp] theorem killArena_canonical (a : Nat) : Canonical (killArena s a).mem := (killArena_endKeeps s a).wf h
@[simp] theorem terminal_canonical (core : Nat) (c : Cmd) (code : BitVec 8) : Canonical (terminal s core c code).mem :=
  (terminal_endKeeps s core c code).wf h
@[simp] theorem writeCompletion_canonical (c : Cmd) (code : BitVec 8) : Canonical (writeCompletion s c code).mem :=
  (writeCompletion_endKeeps s c code).wf h
@[simp] theorem reachSrc_canonical (core : Nat) (c : Cmd) : Canonical (reachSrc s core c).mem := (reachSrc_endKeeps s core c).wf h
@[simp] theorem reachVis_canonical (core : Nat) (c : Cmd) : Canonical (reachVis s core c).mem := (reachVis_endKeeps s core c).wf h

end

/-! ### The accesses of a thread (R134 to R141) -/

theorem check_plain (s : State) (k : Nat) (ea : Word) (n : Nat) (need : BitVec 4) : Plain (check s k ea n need) := by
  unfold check
  split <;> simp

theorem feKey_plain (s : State) (k : Nat) (ea : Word) (n : Nat) : Plain (feKey s k ea n) := by
  unfold feKey
  split
  · exact check_plain _ _ _ _ _
  · trivial

section
variable {s : State} (h : Canonical s.mem)
include h

theorem takeLatch_ret (k key : Nat) : RetState (takeLatch s k key) := by
  unfold takeLatch
  repeat' split
  all_goals simp [h]

theorem loadRun_ret (ea : Word) (n : Nat) : RetSnd (loadRun s ea n) := by
  unfold loadRun
  refine ret_bind (check_plain _ _ _ _ _) fun key _ => ?_
  split
  · trivial
  refine ret_bind (takeLatch_ret h _ _) fun t ht => ?_
  generalize hr : loadBytes _ _ _ _ = r
  have hr : Canonical r.2.2.mem := by simp [← hr, ht]
  obtain ⟨bs, ps, u⟩ := r
  dsimp only
  split
  · exact hr
  · exact hr

theorem loadAt_ret (ea : Word) (n : Nat) : RetSnd (loadAt s ea n) := by
  unfold loadAt
  exact ret_bind (loadRun_ret h ea n) fun r hr => hr

theorem storeAt_ret (ea : Word) (n : Nat) (v : Word) : RetState (storeAt s ea n v) := by
  unfold storeAt
  refine ret_bind (check_plain _ _ _ _ _) fun key _ => ?_
  split
  · trivial
  refine ret_bind (takeLatch_ret h _ _) fun t ht => ?_
  exact storeBytes_canonical (by simp [ht]) _ _ _

theorem updateAt_ret (ea : Word) (n : Nat) {f : Word → State → Except Stop (Option Word × State)}
    (hf : ∀ v t, Canonical t.mem → RetSnd (f v t)) : RetSnd (updateAt s ea n f) := by
  unfold updateAt
  refine ret_bind (check_plain _ _ _ _ _) fun key _ => ?_
  split
  · trivial
  refine ret_bind (takeLatch_ret h _ _) fun t ht => ?_
  generalize hr : homeBytes _ _ _ _ = r
  have hr : Canonical r.2.2.mem := by simp [← hr, ht]
  obtain ⟨bs, ps, u⟩ := r
  dsimp only
  split
  · exact hr
  refine ret_bind (ret_behind (hf _ u hr) hr) fun r hn => ?_
  obtain ⟨new, t⟩ := r
  cases new with
  | none => simpa using hn
  | some v => exact writeBytes_canonical (by simpa using hn) _ _

end

/-! ### The issue of an instruction (R94, R394) -/

/-- An outcome whose next state has a memory in canonical form. -/
def Keeps (o : Host.Outcome State Fault Refusal) : Prop := ∀ t, o = .next t → Canonical t.mem

@[simp] theorem keeps_next {t : State} : Keeps (.next t) ↔ Canonical t.mem :=
  ⟨fun h => h t rfl, fun h _ ht => by cases ht; exact h⟩

theorem keeps_ite {c : Prop} [Decidable c] {x y : Host.Outcome State Fault Refusal} (hx : Keeps x) (hy : Keeps y) :
    Keeps (if c then x else y) := by
  split
  · exact hx
  · exact hy

/-- A body that leaves memory in canonical form. -/
def BodyWf (body : List Word → State → Res) : Prop := ∀ v u, Canonical u.mem → RetFst (body v u)

theorem blockOn_canonical {s : State} (h : Canonical s.mem) (k : Nat) (op : Op) (w : Wait) {left : Option State}
    (hl : Canonical (left.getD s).mem) : Canonical (blockOn s k op w left).mem := by
  obtain ⟨t, he⟩ | he | ⟨b, r, n, he⟩ := blockOn_cases s k op w left
  all_goals rw [he]
  · exact raiseOp_canonical h _ _ _
  · exact consume_canonical h _
  · exact hl

section
variable {op : Op} {body : List Word → State → Res} (hb : BodyWf body)
include hb

theorem perform_canonical {fin : State → Next → State} (hf : ∀ t n, Canonical t.mem → Canonical (fin t n).mem) {s : State}
    (h : Canonical s.mem) (k : Nat) : Canonical (perform op body fin s k).mem := by
  unfold perform
  split
  · exact consume_canonical h _
  split
  · exact blockOn_canonical h _ _ _ h
  split
  · exact consume_canonical h _
  split
  · exact blockOn_canonical h _ _ _ h
  dsimp only
  have hr := hb (readRegs s k op.srcs).1 (readRegs s k op.srcs).2 (by simp [h])
  split
  all_goals rename_i he
  all_goals rw [he] at hr
  · exact hf _ _ (by simpa using hr)
  · exact raiseOp_canonical h _ _ _
  · exact raiseOp_canonical (by simpa using hr) _ _ _
  · rename_i w left
    refine blockOn_canonical h _ _ _ ?_
    cases left with
    | none => exact h
    | some u => exact hr
  · rename_i w left
    have hl : Canonical (unpop s left k op.srcs).mem := by simpa using hr
    exact blockOn_canonical hl _ _ _ hl
  · simpa using h
  · simpa using h
  · simpa using h

theorem performJoint_canonical {s : State} (h : Canonical s.mem) (k : Nat) : Canonical (performJoint op body s k).mem := by
  unfold performJoint
  dsimp only
  split
  · exact consume_canonical h _
  split
  · simpa using h
  split
  · refine perform_canonical hb (fun t n ht => ?_) (by simpa using h) k
    split <;> simpa using ht
  · exact mismatch_canonical h _ _

theorem performLead_canonical {s : State} (h : Canonical s.mem) (k : Nat) : Canonical (performLead op body s k).mem := by
  unfold performLead
  dsimp only
  split
  · simpa using h
  · exact perform_canonical hb (fun t n ht => by simpa using ht) h k

theorem performTrail_canonical {s : State} (h : Canonical s.mem) (k : Nat) : Canonical (performTrail op body s k).mem := by
  unfold performTrail
  split
  · exact perform_canonical hb (fun t n ht => ht) h k
  · split
    · simpa using h
    · split
      · exact raise_canonical (by simpa using h) _ _
      · simpa using h
  · split
    · exact consume_canonical h _
    · dsimp only
      split
      · exact performJoint_canonical hb (by simpa using h) _
      · simpa using h

/-- The issue of an instruction keeps memory in its canonical form where its body does. -/
theorem issue_keeps {s : State} (h : Canonical s.mem) : Keeps (issue op body s) := by
  unfold issue
  dsimp only
  split
  · exact keeps_next.2 (raise_canonical h _ _)
  split
  · exact keeps_next.2 (consume_canonical h _)
  split
  · simpa using h
  split
  · simpa using h
  split
  · exact keeps_next.2 (perform_canonical hb (fun t n ht => ht) h _)
  split
  · exact keeps_next.2 (performTrail_canonical hb h _)
  split
  · exact keeps_next.2 (performLead_canonical hb h _)
  · exact keeps_next.2 (performJoint_canonical hb h _)

end

end Sys2Proof.Machine
end

section
/-! Scalar, memory, waiting and place instructions keep the canonical form of memory (R112 to R156). -/

namespace Sys2Proof.Machine

open Sys2Proof.Safety

/-! ### The commonest bodies, and those of the accesses of a thread (R137 to R156) -/

theorem needCapture_plain (s : State) (rnd : Rnd) : Plain (needCapture s rnd) := by
  unfold needCapture
  split <;> trivial

theorem wakeRoom_plain (s : State) (wk : Bool) (a : Word) : Plain (wakeRoom s wk a) := by
  unfold wakeRoom
  repeat' split
  all_goals trivial

section
variable {s : State} (h : Canonical s.mem)
include h

@[simp] theorem give_ret (d : Reg) (v : Word) : RetFst (give s d v) := by simpa [give] using h
@[simp] theorem giveP_ret (d : PReg) (b : Bool) : RetFst (giveP s d b) := by simpa [giveP] using h

theorem raiseFlags_ret (fl : Flags) : RetState (raiseFlags s fl) := by
  unfold raiseFlags
  split
  · trivial
  · exact h

theorem loadTo_ret (ty : IntTy) (d : Reg) (ea : Word) : RetFst (loadTo s ty d ea) := by
  unfold loadTo
  exact ret_bind (loadAt_ret h _ _) fun r hr => give_ret hr _ _

theorem loadConst_ret (ty : IntTy) (d : Reg) (ea : Word) : RetFst (loadConst s ty d ea) := by
  unfold loadConst
  refine ret_bind (check_plain _ _ _ _ _) fun key _ => ?_
  split
  · exact loadTo_ret h _ _ _
  split
  · trivial
  generalize hr : constBytes _ _ _ _ = r
  have hr : Canonical r.2.2.mem := by simp [← hr, h]
  obtain ⟨bs, ps, u⟩ := r
  dsimp only
  split
  · exact hr
  · exact give_ret hr _ _

theorem amoNew_ret (op : AmoOp) (ty : IntTy) (c old : Word) : RetSnd (amoNew op ty c old s) := by
  unfold amoNew
  split
  · refine ret_bind (needCapture_plain _ _) fun k _ => ?_
    generalize f32.add k 0 0 (lowBits f32 old) (lowBits f32 c) = r
    obtain ⟨r, fl⟩ := r
    refine ret_bind (raiseFlags_ret h _) fun t ht => ?_
    rw [ret_ok, apply_ite State.mem, State.modSlot_mem, ite_self]
    exact ht
  · exact h

theorem amoTo_ret (op : AmoOp) (ty : IntTy) (d : Reg) (ea c : Word) : RetFst (amoTo s op ty d ea c) := by
  unfold amoTo
  exact ret_bind (updateAt_ret h _ _ fun v t ht => amoNew_ret ht _ _ _ _) fun r hr => give_ret hr _ _

theorem takeFull_ret (ty : IntTy) (keep : Bool) (d : Reg) (ea : Word) : RetFst (takeFull s ty keep d ea) := by
  unfold takeFull
  refine ret_bind (feKey_plain _ _ _ _) fun key _ => ?_
  refine ret_bind (takeLatch_ret h _ _) fun t ht => ?_
  split
  · exact ht
  split
  · trivial
  · exact give_ret (by split <;> simpa using ht) _ _

theorem putFull_ret (ty : IntTy) (ovr : Bool) (ea v : Word) : RetFst (putFull s ty ovr ea v) := by
  unfold putFull
  refine ret_bind (feKey_plain _ _ _ _) fun key _ => ?_
  refine ret_bind (takeLatch_ret h _ _) fun t ht => ?_
  split
  · exact ht
  · simpa using storeBytes_canonical ht _ _ _

end

theorem placeEa_plain (a b : Word) (i : Imm) : Plain (placeEa a b i) := by
  unfold placeEa
  dsimp only
  repeat' split
  all_goals trivial

theorem needFF_plain (f : Fmt) : Plain (needFF f) := by
  unfold needFF
  split <;> trivial

/-- A body that gives a register, after flags or not, keeps memory. -/
theorem gives_bodyWf {d : Reg} {float : Bool} {body : List Word → State → Res} (hb : ∀ v u, Gives d float u (body v u)) : BodyWf body := by
  intro v u hu
  obtain ⟨e, he⟩ | ⟨w, t, he, ht⟩ := hb v u
  · rw [he]
    trivial
  · rw [he]
    obtain rfl | ⟨-, fl, rfl⟩ := ht
    · simpa using hu
    · simpa [addFlags] using hu

section
variable {s : State} (hs : Canonical s.mem)
include hs

theorem computes_keeps {i : Instr} {h : Hdr} {srcs : List Reg} {d : Reg} (hc : computes i = some (h, srcs, d)) : Keeps (exec i s) := by
  obtain ⟨lat, body, he, hb⟩ := exec_computes hc s
  rw [he]
  exact issue_keeps (gives_bodyWf hb) hs

theorem computesFloat_keeps {i : Instr} {h : Hdr} {srcs : List Reg} {d : Reg} (hc : computesFloat i = some (h, srcs, d)) :
    Keeps (exec i s) := by
  obtain ⟨lat, body, he, hb⟩ := exec_computesFloat hc s
  rw [he]
  exact issue_keeps (gives_bodyWf hb) hs

theorem aluP_keeps (i : Instr) (h : Hdr) (d : PReg) (srcs : List Reg) (f : List Word → Bool) : Keeps (aluP i h d srcs f s) := by
  unfold aluP
  exact issue_keeps (fun v u hu => giveP_ret hu _ _) hs

theorem fcmp_keeps (h : Hdr) (cond : FCond) (f : Fmt) (d : PReg) (a b : Reg) : Keeps (execFcmp h cond f d a b s) :=
  issue_keeps (fun _ _ hu => ret_bind (needFF_plain f) fun _ _ => ret_bind (raiseFlags_ret hu _) fun _ ht => giveP_ret ht _ _) hs

/-! ### Loads, stores, atomics and full/empty words (R137 to R143) -/

theorem ld_keeps (h : Hdr) (ty : IntTy) (d : Reg) (m : Mem) : Keeps (execLd h ty d m s) :=
  issue_keeps (fun _ _ hu => loadTo_ret hu _ _ _) hs
theorem st_keeps (h : Hdr) (ty : IntTy) (m : Mem) (c : Reg) : Keeps (execSt h ty m c s) :=
  issue_keeps (fun _ _ hu => ret_bind (storeAt_ret hu _ _ _) fun _ ht => ret_done.2 ht) hs
theorem ldc_keeps (h : Hdr) (ty : IntTy) (d : Reg) (m : Mem) : Keeps (execLdc h ty d m s) :=
  issue_keeps (fun _ _ hu => loadConst_ret hu _ _ _) hs
theorem amo_keeps (h : Hdr) (op : AmoOp) (ty : IntTy) (d : Reg) (m : Mem) (c : Reg) : Keeps (execAmo h op ty d m c s) :=
  issue_keeps (fun _ _ hu => amoTo_ret hu _ _ _ _ _) hs
theorem cas_keeps (h : Hdr) (ty : IntTy) (d a : Reg) (i : Imm) (b c : Reg) : Keeps (execCas h ty d a i b c s) :=
  issue_keeps (fun _ _ hu => ret_bind (updateAt_ret hu _ _ fun _ _ ht => ret_ok.2 ht) fun _ hr => give_ret hr _ _) hs
theorem ldfe_keeps (h : Hdr) (ty : IntTy) (keep : Bool) (d : Reg) (m : Mem) : Keeps (execLdfe h ty keep d m s) :=
  issue_keeps (fun _ _ hu => takeFull_ret hu _ _ _ _) hs
theorem stfe_keeps (h : Hdr) (ty : IntTy) (ovr : Bool) (m : Mem) (c : Reg) : Keeps (execStfe h ty ovr m c s) :=
  issue_keeps (fun _ _ hu => putFull_ret hu _ _ _ _) hs
theorem feset_keeps (h : Hdr) (full : Bool) (m : Mem) : Keeps (execFeset h full m s) :=
  issue_keeps (fun v u hu => ret_bind (feKey_plain _ _ _ _) fun key _ => ret_bind (takeLatch_ret hu _ _) fun t ht => by simpa using ht) hs
theorem feqry_keeps (h : Hdr) (d : PReg) (m : Mem) : Keeps (execFeqry h d m s) :=
  issue_keeps (fun v u hu => ret_bind (feKey_plain _ _ _ _) fun key _ => ret_bind (takeLatch_ret hu _ _) fun t ht =>
    giveP_ret (by simpa using ht) _ _) hs

/-! ### Waits, messages, wakes, fences and leases (R144 to R152) -/

theorem waita_keeps (h : Hdr) (cond : Cond) (ty : IntTy) (d : Reg) (m : Mem) (c : Reg) : Keeps (execWaita h cond ty d m c s) := by
  refine issue_keeps (fun v u hu => ret_bind (loadAt_ret hu _ _) fun r hr => ?_) hs
  obtain ⟨x, t⟩ := r
  dsimp only
  split
  · exact give_ret hr _ _
  · exact hr
theorem msg_keeps (h : Hdr) (a c : Reg) (i : Imm) : Keeps (execMsg h a c i s) := by
  refine issue_keeps (fun v u hu => ?_) hs
  split
  · trivial
  · split
    · trivial
    · rename_i ht
      simpa [deliverMsg_mem ht] using hu
theorem wait_keeps (h : Hdr) (d : Reg) (i : Imm) : Keeps (execWait h d i s) := by
  refine issue_keeps (fun v u hu => ?_) hs
  split
  · trivial
  · split
    · exact hu
    · exact give_ret (by simpa using hu) _ _
theorem waitWk_keeps (h : Hdr) (d : Reg) (i : Imm) : Keeps (execWaitWk h d i s) := by
  refine issue_keeps (fun v u hu => ?_) hs
  split
  · exact give_ret (by simpa using hu) _ _
  · trivial
theorem wake_keeps (h : Hdr) (a : Reg) : Keeps (execWake h a s) := by
  refine issue_keeps (fun v u hu => ?_) hs
  split
  · trivial
  · split
    · trivial
    · rename_i ht
      simpa [deliverWake_mem ht] using hu
theorem fence_keeps (h : Hdr) (sc : Scope) : Keeps (execFence h sc s) := issue_keeps (fun v u hu => by simpa using hu) hs
theorem touch_keeps (h : Hdr) (d : Reg) (m : Mem) : Keeps (execTouch h d m s) := issue_keeps (fun _ _ hu => give_ret hu _ _) hs
theorem lease_keeps (h : Hdr) (rights : BitVec 4) (d a : Reg) (i : Imm) (b : Reg) : Keeps (execLease h rights d a i b s) := by
  refine issue_keeps (fun v u hu => ?_) hs
  refine ret_ite trivial (ret_ite trivial (ret_ite trivial (ret_ite (give_ret hu _ _) (ret_ite trivial (give_ret ?_ _ _)))))
  rw [State.modCtx_mem, spreadLease_mem]
  split <;> simpa using hu
theorem pref_keeps (h : Hdr) (llc : Bool) (m : Mem) : Keeps (execPref h llc m s) := issue_keeps (fun _ _ hu => ret_done.2 hu) hs

/-! ### Scratch by place (R155, R156) -/

theorem rld_keeps (h : Hdr) (ty : IntTy) (d a b : Reg) (i : Imm) : Keeps (execRld h ty d a b i s) :=
  issue_keeps (fun _ _ hu => ret_bind (placeEa_plain _ _ _) fun _ _ => loadTo_ret hu _ _ _) hs
theorem rst_keeps (h : Hdr) (wk : Bool) (ty : IntTy) (a b : Reg) (i : Imm) (c : Reg) : Keeps (execRst h wk ty a b i c s) :=
  issue_keeps (fun v u hu => ret_bind (placeEa_plain _ _ _) fun ea _ => ret_bind (check_plain _ _ _ _ _) fun _ _ =>
    ret_bind (wakeRoom_plain _ _ _) fun _ _ => ret_bind (storeAt_ret hu _ _ _) fun t ht => by simpa using ht) hs
theorem ramo_keeps (h : Hdr) (op : AmoOp) (wk : Bool) (ty : IntTy) (d a b : Reg) (i : Imm) (c : Reg) :
    Keeps (execRamo h op wk ty d a b i c s) :=
  issue_keeps (fun v u hu => ret_bind (placeEa_plain _ _ _) fun ea _ => ret_bind (check_plain _ _ _ _ _) fun _ _ =>
    ret_bind (wakeRoom_plain _ _ _) fun _ _ => ret_bind (amoTo_ret hu _ _ _ _ _) fun r hr => by simpa using hr) hs

end

end Sys2Proof.Machine
end

section
/-! Traps, control and system registers keep the canonical form of memory (R31 to R37, R122 to R126, R352 to R355). -/

namespace Sys2Proof.Machine

open Sys2Proof.Safety

/-! ### Pending traps and the return from a handler (R126, R352, R354, R355) -/

section
variable {s : State} (h : Canonical s.mem)
include h

@[simp] theorem deliverPending_canonical (k : Nat) : Canonical (deliverPending s k).mem := by
  unfold deliverPending
  split
  · exact h
  · dsimp only
    split
    · exact takeTrap_canonical (by simpa using h) _ _ _ _ _
    · split
      · simpa using h
      · refine takeTrap_canonical ?_ _ _ _ _ _
        repeat' split
        all_goals simpa using h

@[simp] theorem lateFault_canonical (slot : Nat) (seq : BitVec 32) (pc : Word) (lvl : Bool) (t : Trap) :
    Canonical (lateFault s slot seq pc lvl t).mem := by
  unfold lateFault
  dsimp only
  split
  · exact contain_canonical (by simpa using h) _ _
  · exact foldl_canonical (by simpa using h) (fun _ _ ht => by simpa using ht) _

@[simp] theorem trapReturn_canonical (k : Nat) (target : Word) : Canonical (trapReturn s k target).mem :=
  deliverPending_canonical (by simpa using h) _

theorem goTo_ret (t : Word) : RetFst (goTo s t) := by
  unfold goTo
  split
  · trivial
  · exact h

theorem callTo_ret (n : Nat) (t : Word) : RetFst (callTo s n t) := goTo_ret (by simpa using h) t

end

/-! ### Control, system registers and traps (R122 to R126) -/

section
variable {s : State} (hs : Canonical s.mem)
include hs

theorem nop_keeps (h : Hdr) : Keeps (execNop h s) := issue_keeps (fun _ _ hu => ret_done.2 hu) hs
theorem pmovSet_keeps (h : Hdr) (a : Reg) : Keeps (execPmovSet h a s) := issue_keeps (fun _ _ hu => ret_done.2 (by simpa using hu)) hs
theorem br_keeps (h : Hdr) (i : Imm) : Keeps (execBr h i s) := issue_keeps (fun _ _ hu => goTo_ret hu _) hs
theorem call_keeps (h : Hdr) (i : Imm) : Keeps (execCall h i s) := issue_keeps (fun _ _ hu => callTo_ret hu _ _) hs
theorem ret_keeps (h : Hdr) (a : Reg) : Keeps (execRet h a s) := issue_keeps (fun _ _ hu => goTo_ret hu _) hs
theorem jmp_keeps (h : Hdr) (a : Reg) (i : Imm) : Keeps (execJmp h a i s) := issue_keeps (fun _ _ hu => goTo_ret hu _) hs
theorem callr_keeps (h : Hdr) (a : Reg) : Keeps (execCallr h a s) := issue_keeps (fun _ _ hu => callTo_ret hu _ _) hs
theorem mfs_keeps (h : Hdr) (r : SysReg) (d : Reg) : Keeps (execMfs h r d s) :=
  issue_keeps (fun _ _ hu => ret_ite (ret_error.2 hold_wf) (give_ret hu _ _)) hs
theorem mts_keeps (h : Hdr) (r : SysReg) (a : Reg) : Keeps (execMts h r a s) := issue_keeps (fun _ _ hu => ret_done.2 (by simpa using hu)) hs
theorem rseedWrite_keeps (h : Hdr) (a : Reg) : Keeps (execRseedWrite h a s) := issue_keeps (fun _ _ hu => ret_ok.2 (by simpa using hu)) hs
theorem fflagsWrite_keeps (h : Hdr) (a : Reg) : Keeps (execFflagsWrite h a s) :=
  issue_keeps (fun _ _ hu => ret_ite (ret_error.2 hold_wf) (ret_done.2 (by simpa using hu))) hs
theorem ringbWrite_keeps (h : Hdr) (a : Reg) : Keeps (execRingbWrite h a s) :=
  issue_keeps (fun _ _ hu => ret_ite (ret_error.2 ill_wf) (ret_done.2 (by simpa using hu))) hs
theorem ringlWrite_keeps (h : Hdr) (a : Reg) : Keeps (execRinglWrite h a s) :=
  issue_keeps (fun _ _ hu => ret_ite (ret_error.2 ill_wf) (ret_done.2 (by simpa using hu))) hs
theorem tdescWrite_keeps (h : Hdr) (t : TReg) (a : Reg) : Keeps (execTdescWrite h t a s) :=
  issue_keeps (fun _ _ hu => ret_done.2 (by simpa using hu)) hs
theorem trap_keeps (h : Hdr) (i : Imm) : Keeps (execTrap h i s) := issue_keeps (fun _ _ _ => ret_error.2 (trap_wf _)) hs
theorem brk_keeps (h : Hdr) (i : BitVec 16) : Keeps (execBrk h i s) := issue_keeps (fun _ _ _ => ret_error.2 (trap_wf _)) hs
theorem tret_keeps (h : Hdr) (a : Reg) : Keeps (execTret h a s) :=
  issue_keeps (fun _ _ hu => ret_ite (ret_error.2 ill_wf) (ret_ite (ret_error.2 (trap_wf _))
    (ret_ok.2 (trapReturn_canonical (by simpa using hu) _ _)))) hs

end

end Sys2Proof.Machine
end

section
/-! Slab instructions and their accesses keep the canonical form of memory (R26, R161 to R202). -/

namespace Sys2Proof.Machine

open Sys2Proof.Safety

/-! ### The dispatch of slab instructions (R26, R182) -/

theorem dispatch_ret {s : State} (h : Canonical s.mem) (i : Instr) (args : List Word) (ds : List TDesc) (rnd : Rnd) (cost : Nat) :
    RetState (dispatch s i args ds rnd cost) := by
  unfold dispatch
  refine ret_bind (needCapture_plain _ _) fun c _ => ?_
  dsimp only
  split
  · trivial
  · simpa using h

theorem noChecks_plain (v : List Word) (s : State) : Plain (noChecks v s) := trivial

theorem needDesc_plain (s : State) (t : TReg) (good : TDesc → Bool) : Plain (needDesc s t good) := by
  unfold needDesc
  dsimp only
  split <;> trivial

theorem mmaDescs_plain (s : State) (m : MmaOp) : Plain (mmaDescs s m) := by
  unfold mmaDescs
  dsimp only
  split <;> trivial

theorem drainChecks_plain (f : DrainFmt) (doff : BitVec 22) (vs : List Word) (s : State) : Plain (drainChecks f doff vs s) := by
  unfold drainChecks
  dsimp only
  repeat' split
  all_goals trivial

section
variable {s : State} (hs : Canonical s.mem)
include hs

theorem slab_keeps {i : Instr} {h : Hdr} {srcs : List Reg} {rnd : Rnd} {cost : Nat → Nat} {dst : Option Reg}
    {checks : List Word → State → Except Stop (List TDesc)} (hc : ∀ v u, Plain (checks v u)) :
    Keeps (slab i h srcs rnd cost checks s dst) :=
  issue_keeps (fun v u hu => ret_bind (hc v u) fun _ _ => ret_bind (dispatch_ret hu _ _ _ _ _) fun _ ht => ret_done.2 ht) hs

theorem vecAccess_keeps (i : Instr) (h : Hdr) (srcs : List Reg) (rnd : Rnd) : Keeps (vecAccess i h srcs rnd s) :=
  issue_keeps (fun _ _ hu => ret_bind (dispatch_ret hu _ _ _ _ _) fun _ ht => ret_done.2 ht) hs

theorem matrix_keeps {i : Instr} {h : Hdr} {srcs : List Reg} {rnd : List TDesc → Rnd} {cost : CoreSt → List Word → List TDesc → Nat}
    {checks : List Word → State → Except Stop (List TDesc)} (hc : ∀ v u, Plain (checks v u)) :
    Keeps (matrix i h srcs rnd cost checks s) :=
  issue_keeps (fun v u hu => ret_bind (hc v u) fun _ _ => ret_bind (dispatch_ret hu _ _ _ _ _) fun _ ht => ret_done.2 ht) hs

theorem vshf_keeps (h : VHdr) (d a b : VReg) (i : Imm) : Keeps (execVshf h d a b i s) := by
  refine slab_keeps hs fun v u => ?_
  split <;> trivial

theorem mmaq_keeps (h : Hdr) (f : FReg) (nt : BitVec 2) (op : MmaOp) : Keeps (execMmaq h f nt op s) := by
  refine issue_keeps (fun _ u hu => ret_bind (mmaDescs_plain _ _) fun _ _ => ret_bind (needCapture_plain _ _) fun _ _ => ?_) hs
  dsimp only
  split
  · trivial
  · simpa using hu

theorem mwait_keeps (h : Hdr) : Keeps (execMwait h s) :=
  issue_keeps (fun _ _ hu => ret_ite (ret_error.2 hold_wf) (ret_done.2 hu)) hs

theorem mwaitF_keeps (h : Hdr) (d : Reg) (f : FReg) : Keeps (execMwaitF h d f s) :=
  issue_keeps (fun _ _ hu => ret_ite (give_ret hu _ _) (ret_error.2 (block_none_wf _))) hs

theorem adrain_keeps (h : Hdr) (rnd : Rnd) (f : DrainFmt) (za : Bool) (doff : BitVec 22) (d : AReg) (a b c : Reg) :
    Keeps (execAdrain h rnd f za doff d a b c s) :=
  issue_keeps (fun v u hu => ret_bind (drainChecks_plain _ _ v u) fun _ _ => ret_bind (dispatch_ret hu _ _ _ _ _) fun _ ht =>
    ret_done.2 ht) hs

end

/-! ### The accesses of slab instructions (R163, R186) -/

/-- What an access of a slab instruction has left has a memory in canonical form. -/
def Access.Wf : Access → Prop
  | .performed t _ | .failed _ (some t) => Canonical t.mem
  | _ => True

theorem Access.of_wf {r : Except Stop (State × Flags)} (h : RetFst r) : (Access.of r).Wf := by
  unfold Access.of
  split
  · exact h
  · trivial
  · exact h
  · trivial
  · trivial
  · trivial

theorem Access.from_wf {a : Access} (h : a.Wf) (cur : Nat) : (a.from_ cur).Wf := by
  unfold Access.from_
  split
  · exact h
  · rename_i left
    cases left with
    | none => trivial
    | some t => exact h
  · exact h

section
variable {s : State} (h : Canonical s.mem)
include h

theorem constLane_ret (ea : Word) (n : Nat) : RetSnd (constLane s ea n) := by
  unfold constLane
  refine ret_bind (check_plain _ _ _ _ _) fun key _ => ?_
  split
  · exact loadAt_ret h _ _
  split
  · trivial
  generalize hr : constBytes _ _ _ _ = r
  have hr : Canonical r.2.2.mem := by simp [← hr, h]
  obtain ⟨bs, ps, u⟩ := r
  dsimp only
  split
  · exact hr
  · exact hr

omit h in
theorem laneLoad_ret {x : Except Stop (Word × State)} (hx : RetSnd x) (o : SlabOp) (ty : IntTy) (d : VReg) (l : Nat) :
    RetFst (x >>= fun r => .ok (laneLoad s o ty d l r, (0 : Flags))) :=
  ret_bind hx fun r hr => ret_ok.2 (by simpa using hr)

theorem lanePerform_ret (o : SlabOp) (l : Nat) : RetFst (lanePerform s o l) := by
  unfold lanePerform
  dsimp only
  split
  iterate 3 exact laneLoad_ret (loadAt_ret h _ _) _ _ _ _
  · exact laneLoad_ret (constLane_ret h _ _) _ _ _ _
  iterate 3 exact ret_bind (storeAt_ret h _ _ _) fun _ ht => ret_ok.2 ht
  · refine ret_bind (updateAt_ret h _ _ fun _ _ ht => ret_ok.2 ht) fun r hr => ?_
    obtain ⟨old, t⟩ := r
    exact ret_ok.2 (by simpa using hr)
  · exact ret_bind (placeEa_plain _ _ _) fun _ _ => ret_bind (storeAt_ret h _ _ _) fun _ ht => ret_ok.2 ht
  · exact h

theorem laneAccess_wf (o : SlabOp) (v : VHdr) (n l : Nat) : (laneAccess s o v n l).Wf := by
  unfold laneAccess
  split
  · exact Access.from_wf (Access.of_wf (lanePerform_ret (s := { s with cur := o.slot }) h o l)) _
  · exact h

omit h in
theorem pieceKey_plain (s : State) (p : Piece) (need : BitVec 4) : Plain (pieceKey s p need) := by
  unfold pieceKey
  split
  · dsimp only
    split <;> trivial
  · trivial

theorem pieceLoad_ret (p : Piece) : RetSnd (pieceLoad s p) := by
  unfold pieceLoad
  refine ret_bind (pieceKey_plain _ _ _) fun key _ => ?_
  generalize hr : loadBytes _ _ _ _ = r
  have hr : Canonical r.2.2.mem := by simp [← hr, h]
  obtain ⟨bs, ps, u⟩ := r
  dsimp only
  split
  · exact hr
  · exact hr

theorem pieceStore_ret (p : Piece) (bs : List Byte) : RetState (pieceStore s p bs) := by
  unfold pieceStore
  refine ret_bind (pieceKey_plain _ _ _) fun key _ => ?_
  exact storeBytes_canonical (by simpa using h) _ _ _

theorem piecePerform_ret (o : SlabOp) (p : Piece) : RetFst (piecePerform s o p) := by
  unfold piecePerform
  dsimp only
  split
  · exact ret_bind (pieceLoad_ret h _) fun r hr => ret_ok.2 (by simpa using hr)
  · split
    · trivial
    · exact ret_bind (pieceStore_ret h _ _) fun _ ht => ret_ok.2 ht
  · exact ret_bind (pieceLoad_ret h _) fun r hr => ret_ok.2 (by simpa using hr)
  · split
    · trivial
    · exact ret_bind (pieceStore_ret h _ _) fun _ ht => ret_ok.2 ht
  · exact h

theorem pieceAccess_wf (o : SlabOp) (p : Piece) : (pieceAccess s o p).Wf :=
  Access.from_wf (Access.of_wf (piecePerform_ret (s := { s with cur := o.slot }) h o p)) _

@[simp] theorem slabFault_canonical (core : Nat) (o : SlabOp) (t : Trap) : Canonical (slabFault s core o t).mem :=
  lateFault_canonical (by simpa using h) _ _ _ _ _

@[simp] theorem slabDiffers_canonical (o : SlabOp) : Canonical (slabDiffers s o).mem := mismatch_canonical h _ _

end

@[simp] theorem vecMemEnd_mem (s : State) (o : SlabOp) (h : VHdr) (d : Option VReg) (n : Nat) : (vecMemEnd s o h d n).mem = s.mem := by
  unfold vecMemEnd
  dsimp only
  repeat' split
  all_goals simp

@[simp] theorem accessEnd_mem (s : State) (core : Nat) (o : SlabOp) : (accessEnd s core o).mem = s.mem := by
  unfold accessEnd
  split <;> simp

end Sys2Proof.Machine
end

section
/-! The block-transfer agents keep the canonical form of memory (R204 to R226). -/

namespace Sys2Proof.Machine

open Sys2Proof.Safety

/-! ### The units of engine commands (R208 to R214, R267) -/

/-- A result whose value, where there is one, has a property. -/
def Gets {ε α : Type} (P : α → Prop) : Except ε α → Prop
  | .ok a => P a
  | .error _ => True

/-- Where nothing is claimed of the value, the claim of what follows is made for every value. -/
theorem gets_bind_any {ε α β : Type} {Q : β → Prop} {x : Except ε α} {f : α → Except ε β} (hf : ∀ a, Gets Q (f a)) :
    Gets Q (x >>= f) := by
  cases x with
  | error e => trivial
  | ok a => exact hf a

/-- A unit of a command that leaves memory in canonical form. -/
abbrev UnitWf (x : Except EngStop (State × Cmd)) : Prop := Gets (fun r => Canonical r.1.mem) x

section
variable {s : State} (h : Canonical s.mem)
include h

theorem engWrite_canonical (c : Cmd) (run : Bool) (ea : Word) (keys : List Nat) (bs : List Byte) (ps : List Bool) :
    Canonical (engWrite s c run ea keys bs ps).1.mem := by
  unfold engWrite
  refine foldl_canonical (s := engCount s c run keys) (by simpa using h) (fun t e ht => ?_) _
  simpa using deviceWrite_canonical ht _ _

theorem moveUnit_wf (core : Nat) (c : Cmd) : UnitWf (moveUnit s core c) := by
  unfold moveUnit
  refine gets_bind_any fun ks => ?_
  generalize hr : engRead s core c c.newRun ks = r
  have hr : Canonical r.2.2.mem := by simpa [← hr] using h
  obtain ⟨bs, ps, t⟩ := r
  split
  · split
    · trivial
    · exact hr
  · exact gets_bind_any fun kd => engWrite_canonical hr _ _ _ _ _ _

theorem fillUnit_wf (core : Nat) (c : Cmd) : UnitWf (fillUnit s core c) := by
  unfold fillUnit
  exact gets_bind_any fun kd => engWrite_canonical h _ _ _ _ _ _

theorem raddUnit_wf (core : Nat) (c : Cmd) : UnitWf (raddUnit s core c) := by
  unfold raddUnit
  refine gets_bind_any fun ks => gets_bind_any fun kd => ?_
  generalize hr : engRead s core c true ks = r
  have hr : Canonical r.2.2.mem := by simpa [← hr] using h
  obtain ⟨xs, px, t⟩ := r
  dsimp only
  generalize hq : engHome t c true kd = q
  have hq : Canonical q.2.2.mem := by simpa [← hq] using hr
  obtain ⟨ds, pd, u⟩ := q
  dsimp only
  split
  · exact engWrite_canonical hq _ _ _ _ _ _
  · exact engWrite_canonical hq _ _ _ _ _ _

theorem fetchIndex_wf (core : Nat) (c : Cmd) : UnitWf (fetchIndex s core c) := by
  unfold fetchIndex
  split
  · exact h
  · refine gets_bind_any fun ks => ?_
    generalize hr : engRead s core c true ks = r
    have hr : Canonical r.2.2.mem := by simpa [← hr] using h
    obtain ⟨bs, ps, t⟩ := r
    dsimp only
    split
    · trivial
    · exact hr

theorem elemUnit_wf (core : Nat) (c : Cmd) : UnitWf (elemUnit s core c) := by
  unfold elemUnit
  dsimp only
  split
  · exact h
  split
  · exact gets_bind_any fun kd => engWrite_canonical h _ _ _ _ _ _
  · refine gets_bind_any fun ks => gets_bind_any fun kd => ?_
    generalize hr : engRead s core c true ks = r
    have hr : Canonical r.2.2.mem := by simpa [← hr] using h
    obtain ⟨bs, ps, t⟩ := r
    exact engWrite_canonical hr _ _ _ _ _ _

theorem maskUnit_wf (core : Nat) (c : Cmd) : UnitWf (maskUnit s core c) := by
  unfold maskUnit
  exact gets_bind_any fun kd => engWrite_canonical h _ _ _ _ _ _

theorem nextUnit_wf (core : Nat) (c : Cmd) : UnitWf (nextUnit s core c) := by
  unfold nextUnit
  split
  · exact moveUnit_wf h _ _
  · exact moveUnit_wf h _ _
  · exact fillUnit_wf h _ _
  · exact raddUnit_wf h _ _
  iterate 2
    split
    · exact elemUnit_wf h _ _
    · exact maskUnit_wf h _ _

theorem handBackTo_canonical (core : Nat) (c : Cmd) (side : Nat) (ea : Word) : Canonical (handBackTo s core c side ea).mem := by
  unfold handBackTo
  split
  · simpa using h
  · simp -implicitDefEqProofs [foldl_mem, h]

theorem stopCmd_canonical (core : Nat) (c : Cmd) (e : EngStop) : Canonical (stopCmd s core c e).mem := by
  unfold stopCmd
  split
  · simpa using h
  · exact handBackTo_canonical h _ _ _ _
  · simpa using h

end

theorem runUnits_canonical (core n : Nat) {s : State} (h : Canonical s.mem) (c : Cmd) : Canonical (runUnits core n s c).mem := by
  induction n generalizing s c with
  | zero => simpa [runUnits] using h
  | succ n ih =>
    unfold runUnits
    split
    · simpa using h
    · have hf := fetchIndex_wf h core c
      split
      · exact stopCmd_canonical h _ _ _
      · rename_i t c1 he
        rw [he] at hf
        have hn := nextUnit_wf (s := t) hf core c1
        split
        · exact stopCmd_canonical hf _ _ _
        · rename_i he
          rw [he] at hn
          exact ih hn _

section
variable {s : State} (hs : Canonical s.mem)
include hs

theorem accept_canonical (c : Cmd) (longLen : Bool) : Canonical (accept s c longLen).mem := by
  unfold accept
  dsimp only
  have h1 : ∀ f, Canonical (if c.desc.isSome then (modFifo s s.myCore f).modCore (tileCore (ownerOf c.slot) c.w2)
      fun x => { x with slabAt := s.cycle + 1 } else modFifo s s.myCore f).mem := fun f => by split <;> simpa using hs
  split
  · exact terminal_canonical (h1 _) _ _ _
  split
  · exact reachVis_canonical (reachSrc_canonical (h1 _) _ _) _ _
  split
  · exact terminal_canonical (h1 _) _ _ _
  · exact h1 _

theorem runCmd_keeps (ty : CmdTy) (core : Nat) (cnum : BitVec 32) (units : Nat) : Keeps (runCmd ty core cnum units s) := by
  unfold runCmd
  split
  · exact keeps_next.2 hs
  · refine keeps_ite ?_ (keeps_next.2 hs)
    exact keeps_next.2 (runUnits_canonical _ _ hs _)

theorem src_keeps (core : Nat) (cnum : BitVec 32) : Keeps (execSrc core cnum s) := by
  unfold execSrc
  repeat' split
  all_goals simp [hs]

theorem vis_keeps (core : Nat) (cnum : BitVec 32) : Keeps (execVis core cnum s) := by
  unfold execVis
  repeat' split
  all_goals simp [hs]

theorem commandEnd_keeps (core : Nat) (cnum : BitVec 32) : Keeps (execCommandEnd core cnum s) := by
  unfold execCommandEnd
  repeat' split
  all_goals simp [hs]

theorem xhand_keeps (slot : Nat) : Keeps (execXhand slot s) := keeps_next.2 (deliverPending_canonical hs slot)

/-! ### The engine instructions (R205, R209, R219 to R226) -/

theorem pushCommand_canonical (w0 : Cmd0) (value : BitVec 16) (v : List Word) : Canonical (pushCommand w0 value v s).2.mem :=
  accept_canonical hs _ _

theorem tileCheck_plain (w0 : Cmd0) (value : BitVec 16) (v : List Word) : Plain (tileCheck w0 value v s) := by
  unfold tileCheck
  repeat' split
  · exact hs
  · trivial
  · trivial

theorem xpush_keeps (h : Hdr) (w0 : Cmd0) (value : BitVec 16) (d a b c : Reg) : Keeps (execXpush h w0 value d a b c s) := by
  refine issue_keeps (fun v u hu => ?_) hs
  have hp : Ret (fun r : State × Next => Canonical r.1.mem)
      (if 16 ≤ (u.core u.myCore).fifo.cmds.length then .error (wait .fifo) else done (pushCommand w0 value v u).2) :=
    ret_ite (ret_error.2 (block_none_wf _)) (ret_done.2 (pushCommand_canonical hu _ _ _))
  exact ret_ite (ret_bind (tileCheck_plain hu _ _ _) fun _ _ => hp) hp

theorem xpushb_keeps (h : Hdr) (w0 : Cmd0) (value : BitVec 16) (d a b c : Reg) : Keeps (execXpushb h w0 value d a b c s) := by
  unfold execXpushb
  dsimp only
  refine issue_keeps (fun v u hu => ?_) hs
  split
  · exact give_ret hu _ _
  · exact ret_bind (tileCheck_plain hu _ _ _) fun _ _ => give_ret (pushCommand_canonical hu _ _ _) _ _

theorem xlay_keeps (h : Hdr) (a : Reg) (id : BitVec 8) : Keeps (execXlay h a id s) :=
  issue_keeps (fun _ _ hu => ret_bind (loadRun_ret hu _ _) fun r hr => ret_done.2 (by simpa using hr)) hs
theorem xseal_keeps (h : Hdr) (d : Reg) : Keeps (execXseal h d s) :=
  issue_keeps (fun _ _ hu => ret_ite (ret_error.2 (block_none_wf _)) (give_ret (by simpa using hu) _ _)) hs
theorem xwait_keeps (h : Hdr) (vis : Bool) (d : Reg) (i : Imm) : Keeps (execXwait h vis d i s) :=
  issue_keeps (fun _ _ hu => ret_ite (give_ret hu _ _) (ret_error.2 (block_none_wf _))) hs
theorem xstat_keeps (h : Hdr) (d a : Reg) : Keeps (execXstat h d a s) := issue_keeps (fun _ _ hu => give_ret hu _ _) hs
theorem xstatSum_keeps (h : Hdr) (d : Reg) : Keeps (execXstatSum h d s) := issue_keeps (fun _ _ hu => give_ret hu _ _) hs
theorem xstatP_keeps (h : Hdr) (d a : Reg) : Keeps (execXstatP h d a s) := issue_keeps (fun _ _ hu => give_ret hu _ _) hs

@[simp] theorem cancelCmd_canonical (core : Nat) (c : Cmd) : Canonical (cancelCmd s core c).mem := by
  unfold cancelCmd
  split <;> simp [hs]

theorem xcan_keeps (h : Hdr) (batch : Bool) (d a : Reg) : Keeps (execXcan h batch d a s) :=
  issue_keeps (fun _ _ hu => give_ret (foldl_canonical hu (fun _ _ ht => cancelCmd_canonical ht _ _) _) _ _) hs
theorem xres_keeps (h : Hdr) (a : Reg) : Keeps (execXres h a s) := by
  refine issue_keeps (fun v u hu => ?_) hs
  split
  · trivial
  · exact ret_done.2 (by simpa using hu)

end

end Sys2Proof.Machine
end

section
/-! Frames, rings, barriers, places and arenas keep the canonical form of memory (R229 to R250). -/

namespace Sys2Proof.Machine

open Sys2Proof.Safety

/-! ### Frames, rings, spawn and barriers (R229 to R247) -/

theorem frameKey_plain (s : State) (fa : Word) : Plain (frameKey s fa) :=
  ret_bind (check_plain _ _ _ _ _) fun _ _ => ret_ite trivial trivial

section
variable {s : State} (hs : Canonical s.mem)
include hs

@[simp] theorem fireFrame_canonical (k : Nat) (fa : Word) (key : Nat) (time : Time) : Canonical (fireFrame s k fa key time).mem :=
  ringPush_canonical hs _ _ _ _ _ _

@[simp] theorem flushAgain_canonical (core : Nat) : Canonical (flushAgain s core).mem := by
  unfold flushAgain
  refine foldl_canonical hs (fun t r ht => ?_) _
  split
  · exact ht
  · exact ringPush_canonical (by simpa using ht) _ _ _ _ _ _

theorem decrement_ret (fa : Word) : RetState (decrement s fa) := by
  refine ret_bind (frameKey_plain _ _) fun key _ => ret_ite trivial (ret_bind (takeLatch_ret hs _ _) fun t ht => ?_)
  refine ret_ite (ret_ok.2 (faultAdd_canonical (by simpa using ht) _ _)) (ret_ite trivial (ret_ok.2 ?_))
  split <;> simp [ht]

theorem cnew_keeps (h : Hdr) (home : BitVec 2) (rstrt hi : Bool) (d a : Reg) (i : Imm) (b c : Reg) :
    Keeps (execCnew h home rstrt hi d a i b c s) := by
  refine issue_keeps (fun v u hu => ret_bind (frameKey_plain _ _) fun key _ => ?_) hs
  dsimp only
  split
  · exact give_ret hu _ _
  · refine ret_ite trivial (ret_bind (takeLatch_ret hu _ _) fun t ht => give_ret ?_ _ _)
    have hn : Canonical (newNode t u.owner ‹_› false).mem := by simpa using ht
    split
    · exact fireFrame_canonical (storeBytes_canonical hn _ _ _) _ _ _ _
    · exact storeBytes_canonical hn _ _ _

theorem dec_keeps (h : Hdr) (a : Reg) (i : Imm) : Keeps (execDec h a i s) :=
  issue_keeps (fun _ _ hu => ret_bind (decrement_ret hu _) fun _ ht => ret_done.2 ht) hs

theorem rpush_keeps (h : Hdr) (a b c : Reg) : Keeps (execRpush h a b c s) := by
  refine issue_keeps (fun v u hu => ?_) hs
  dsimp only
  split
  · trivial
  · exact ret_ite trivial (ret_ite trivial (ret_done.2 (ringPush_canonical hu _ _ _ _ _ _)))

theorem rpop_keeps (h : Hdr) (d c : Reg) : Keeps (execRpop h d c s) := by
  refine issue_keeps (fun v u hu => ?_) hs
  dsimp only
  split
  · exact ret_done.2 (by simpa using hu)
  · exact ret_done.2 (retireNodes_canonical (by simpa using hu) _)

theorem tprio_keeps (h : Hdr) (hi : Bool) : Keeps (execTprio h hi s) :=
  issue_keeps (fun _ _ hu => ret_done.2 (by simpa using hu)) hs

theorem endWork_ret : RetFst (endWork s) := by
  unfold endWork
  split
  · exact ret_ok.2 (by simpa using hs)
  · exact ret_ok.2 (foldl_canonical hs (fun _ _ ht => slotEnd_canonical ht _) _)

theorem tend_keeps (h : Hdr) : Keeps (execTend h s) := by
  refine issue_keeps (fun v u hu => ?_) hs
  exact ret_ite trivial (endWork_ret hu)

theorem cend_keeps (h : Hdr) (a : Reg) (i : BitVec 16) : Keeps (execCend h a i s) := by
  refine issue_keeps (fun v u hu => ?_) hs
  refine ret_ite trivial (ret_ite trivial ?_)
  exact ret_ite (endWork_ret hu) (ret_bind (decrement_ret hu _) fun _ ht => endWork_ret ht)

theorem spawn_keeps (h : Hdr) (narg : BitVec 3) (cdl join noin : Bool) (d a b : Reg) : Keeps (execSpawn h narg cdl join noin d a b s) := by
  refine issue_keeps (fun v u hu => ?_) hs
  dsimp only
  split
  · trivial
  · refine ret_ite trivial ?_
    split
    · refine give_ret ?_ _ _
      split <;> simpa using hu
    · exact ret_ite (give_ret hu _ _) (ret_ok.2 (by simpa using hu))

theorem nest_keeps (h : Hdr) (minch : BitVec 16) (a b c : Reg) : Keeps (execNest h minch a b c s) := by
  refine issue_keeps (fun v u hu => ?_) hs
  dsimp only
  exact ret_ite trivial (ret_done.2 (by simpa using hu))

theorem next_keeps (h : Hdr) (d : Reg) (i : Imm) : Keeps (execNext h d i s) := by
  refine issue_keeps (fun v u hu => ?_) hs
  dsimp only
  exact ret_ite (goTo_ret (by simpa using hu) _) (give_ret (by simpa using hu) _ _)

theorem arrive_ret (sc : Scope) (id : BitVec 4) (n : BitVec 16) : RetFst (arrive s sc id n) :=
  ret_ite trivial (ret_ite (ret_ok.2 (by simpa using hs)) (ret_ok.2 (by simpa using hs)))

theorem bar_keeps (h : Hdr) (sc : Scope) (id : BitVec 4) (b : Reg) : Keeps (execBar h sc id b s) := by
  unfold execBar
  dsimp only
  refine issue_keeps (fun v u hu => ?_) hs
  split
  · exact ret_ite trivial (ret_done.2 (by simpa using hu))
  · exact ret_bind (arrive_ret hu _ _ _) fun r hr => ret_ite (ret_done.2 (by simpa using hr)) (by simpa using hr)

theorem barq_keeps (h : Hdr) (sc : Scope) (id : BitVec 4) (d b : Reg) : Keeps (execBarq h sc id d b s) :=
  issue_keeps (fun _ _ hu => ret_bind (arrive_ret hu _ _ _) fun _ hr => give_ret hr _ _) hs

theorem poll_keeps (h : Hdr) (sc : Scope) (id : BitVec 4) (d : PReg) (a : Reg) : Keeps (execPoll h sc id d a s) := by
  refine issue_keeps (fun v u hu => giveP_ret ?_ _ _) hs
  split <;> simpa using hu

theorem qcfgBind_keeps (h : Hdr) (q : BitVec 3) (a : Reg) (i : Imm) : Keeps (execQcfgBind h q a i s) := by
  refine issue_keeps (fun v u hu => ?_) hs
  dsimp only
  exact ret_ite trivial (ret_ite trivial (ret_done.2 (by simpa using hu)))

theorem qcfgUnbind_keeps (h : Hdr) (q : BitVec 3) (i : Imm) : Keeps (execQcfgUnbind h q i s) := by
  refine issue_keeps (fun v u hu => ret_done.2 ?_) hs
  split <;> simpa using hu

theorem qsts_keeps (h : Hdr) (d : Reg) (q : BitVec 3) : Keeps (execQsts h d q s) := issue_keeps (fun _ _ hu => give_ret hu _ _) hs
theorem place_keeps (h : Hdr) (dx dy : BitVec 8) (d a : Reg) : Keeps (execPlace h dx dy d a s) := issue_keeps (fun _ _ hu => give_ret hu _ _) hs
theorem placeLin_keeps (h : Hdr) (d a : Reg) : Keeps (execPlaceLin h d a s) := issue_keeps (fun _ _ hu => give_ret hu _ _) hs
theorem placeQuay_keeps (h : Hdr) (d a : Reg) : Keeps (execPlaceQuay h d a s) := issue_keeps (fun _ _ hu => give_ret hu _ _) hs

theorem gang_keeps (h : Hdr) (d a : Reg) : Keeps (execGang h d a s) := by
  refine issue_keeps (fun v u hu => ret_ite (give_ret hu _ _) (ret_ite (give_ret hu _ _) (give_ret ?_ _ _))) hs
  exact foldl_canonical hu (fun _ _ ht => by simpa using ht) _

theorem chk_keeps (h : Hdr) (a : Reg) : Keeps (execChk h a s) := by
  refine issue_keeps (fun v u hu => ret_ite (ret_done.2 hu) (ret_ite (ret_done.2 (by simpa using hu)) ?_)) hs
  split
  · trivial
  · exact ret_ite (ret_done.2 (by simpa using hu)) trivial

/-! ### Arenas (R248 to R250) -/

omit hs in
theorem handleSlot_plain (a : Word) : Plain (handleSlot a) := ret_ite trivial trivial

omit hs in
theorem handleCheck_plain (a : Word) : Plain (handleCheck s a) :=
  ret_bind (handleSlot_plain _) fun _ _ => ret_ite trivial (ret_ite trivial trivial)

theorem anew_keeps (h : Hdr) (pl : Place) (d a : Reg) (i : Imm) : Keeps (execAnew h pl d a i s) := by
  refine issue_keeps (fun v u hu => ret_ite (give_ret hu _ _) ?_) hs
  split
  · exact give_ret hu _ _
  · exact ret_ite (give_ret hu _ _) (ret_ite (give_ret hu _ _) (give_ret (by simpa using hu) _ _))

theorem ahand_keeps (h : Hdr) (d a b : Reg) : Keeps (execAhand h d a b s) := by
  refine issue_keeps (fun v u hu => ret_bind (handleCheck_plain _) fun _ _ => ret_bind (frameKey_plain _ _) fun _ _ => ?_) hs
  refine ret_ite trivial ?_
  exact ret_ite (give_ret hu _ _) (ret_ite (give_ret hu _ _) (give_ret (by simpa using hu) _ _))

theorem aend_keeps (h : Hdr) (d a : Reg) : Keeps (execAend h d a s) := by
  refine issue_keeps (fun v u hu => ret_bind (handleCheck_plain _) fun _ _ => ?_) hs
  exact ret_ite (give_ret hu _ _) (ret_ite trivial (give_ret (killArena_canonical hu _) _ _))

theorem aqry_keeps (h : Hdr) (d a : Reg) : Keeps (execAqry h d a s) :=
  issue_keeps (fun _ _ hu => ret_bind (handleSlot_plain _) fun _ _ => give_ret hu _ _) hs

end

end Sys2Proof.Machine
end

section
/-! Admission and the warrant instructions keep the canonical form of memory (R251 to R256, R317). -/

namespace Sys2Proof.Machine

open Sys2Proof.Safety

/-! ### Records and images in memory (R251, R372) -/

theorem checkRecord_plain (s : State) (ea : Word) (n : Nat) (need : BitVec 4) : Plain (checkRecord s ea n need) := by
  unfold checkRecord
  dsimp only
  split
  · trivial
  · refine ret_ite trivial (ret_ite trivial ?_)
    split <;> trivial

theorem recordSpace_plain (s : State) (ea : Word) (n : Nat) : Plain (recordSpace s ea n) := by
  refine ret_bind (checkRecord_plain _ _ _ _) fun key _ => ?_
  split <;> trivial

theorem handleOf_plain (s : State) (v : Word) : Plain (handleOf s v) := by
  unfold handleOf
  split <;> trivial

section
variable {s : State} (hs : Canonical s.mem)
include hs

theorem readRecord_ret (ea : Word) (n : Nat) : RetSnd (readRecord s ea n) := by
  refine ret_bind (checkRecord_plain _ _ _ _) fun key _ => ?_
  dsimp only
  split
  · trivial
  · have hf : Canonical (fetchRecord s ea key n).mem := by simpa using hs
    exact ret_ite (fault_wf (t := ⟨.poison, ea, rR⟩).2 hf) (ret_ok.2 hf)

@[simp] theorem writeHome_canonical (key : Nat) (bs : List Byte) : Canonical (writeHome s key bs).mem :=
  writeBytes_canonical (foldl_canonical hs (fun _ _ ht => by simpa using ht) _) _ _

@[simp] theorem writeRecord_canonical (ea : Word) (key : Nat) (bs : List Byte) : Canonical (writeRecord s ea key bs).mem := by
  refine foldl_canonical (foldl_canonical hs (fun _ _ ht => ?_) _) (fun _ _ ht => ?_) _
  · simpa using ht
  · exact deviceWrite_canonical ht _ _

end

theorem readOver_ret (fresh : Bool) {s : State} (hs : Canonical s.mem) (n : Nat) (ea : Word) : RetSnd (readOver fresh s n ea) := by
  induction n generalizing fresh s ea with
  | zero => exact hs
  | succ n ih =>
    unfold readOver
    dsimp only
    split
    · refine ret_ite trivial ?_
      have h1 : ∀ key, Canonical (if fresh || key % 128 = 0 then homeFetch (reachHome s ea key) key else s).mem :=
        fun key => by split <;> simpa using hs
      exact ret_ite (fault_wf (t := ⟨.poison, ea, rR⟩).2 (h1 _)) (ret_bind (ih false (h1 _) _) fun r hr => ret_ok.2 hr)
    · exact (fault_wf (t := ‹Trap›)).2 hs

theorem readSegments_ret {s : State} (hs : Canonical s.mem) (n : Nat) (ea : Word) : RetSnd (readSegments s n ea) := by
  induction n generalizing s ea with
  | zero => exact hs
  | succ n ih =>
    refine ret_bind (readOver_ret true hs 24 ea) fun r hr => ret_ite (ret_ok.2 hr) ?_
    exact ret_bind (readOver_ret true hr _ _) fun q hq => ret_bind (ih hq _) fun p hp => ret_ok.2 hp

section
variable {s : State} (hs : Canonical s.mem)
include hs

theorem readImage_ret (ea : Word) : RetSnd (readImage s ea) :=
  ret_bind (readOver_ret true hs 16 ea) fun _ hr => ret_ite (ret_ok.2 hr) (ret_bind (readSegments_ret hr _ _) fun _ hq => ret_ok.2 hq)

/-! ### The admission engine (R252, R317) -/

theorem loadSegment_canonical (o : Nat) (g : Segment) : Canonical (loadSegment o s g).mem := by
  unfold loadSegment
  split
  · exact writeHome_canonical (by simpa using hs) _ _
  · exact hs

@[simp] theorem resetIsland_canonical (o : Nat) : Canonical (resetIsland s o).mem := by
  unfold resetIsland
  extract_lets tt s1 mine s2 s3 s4
  have h1 : Canonical s1.mem := foldl_canonical hs (fun _ _ ht => by simpa using ht) _
  have h3 : Canonical s3.mem := foldl_canonical (s := s2) h1 (fun _ _ ht => by simpa using ht) _
  have h4 : Canonical s4.mem := by
    refine foldl_canonical (s := s3) h3 (fun t q ht => ?_) _
    rw [bindStraits_mem, State.setQuad_mem]
    exact foldl_canonical ht (fun _ _ hu => eraseRange_canonical hu _ _) _
  rw [State.modCtx_mem]
  exact h4

theorem buildContext_canonical (w : Warrant) (self : List Byte) (segs : List Segment) (hold : Hold) :
    Canonical (buildContext s w self segs hold).2.mem := by
  refine resetIsland_canonical (s := numberFifos _ _ _) ?_ _
  rw [numberFifos_mem]
  refine foldl_canonical (foldl_canonical ?_ (fun _ g ht => loadSegment_canonical ht _ g) _) (fun _ _ ht => ?_) _
  · simpa using hs
  · simpa using ht

@[simp] theorem startContext_canonical (o : Nat) : Canonical (startContext s o).mem := by
  unfold startContext
  dsimp only
  split
  · exact ctxEnd_canonical hs _ _
  split
  · exact hs
  · simpa using hs

@[simp] theorem admitNow_canonical (p : Presentation) (w : Warrant) (hold : Hold) : Canonical (admitNow s p w hold).mem := by
  unfold admitNow
  dsimp only
  split
  · simpa using hs
  · have hi : Canonical (imageNow s p).2.mem := by simpa using hs
    split
    · simpa using hi
    · have hb := buildContext_canonical hi w (p.warrant.take 704) ‹List Segment› hold
      split <;> simpa using hb

theorem claimed_canonical (p : Presentation) (w : Warrant) (hold : Hold) (accept : Bool) : Canonical (claimed s p w hold accept).mem := by
  have h1 : Canonical (boxAdd s 2 0 0 [if accept then 1 else 0]).mem := by simpa using hs
  unfold claimed
  dsimp only
  split
  · simpa using hs
  split
  · simpa using hs
  · exact admitNow_canonical h1 _ _ _

theorem claimStep_canonical (p : Presentation) (w : Warrant) (hold : Hold) : Canonical (claimStep s p w hold).mem := by
  unfold claimStep
  split
  · simpa using hs
  split
  · simpa using hs
  split
  · exact claimed_canonical ((homeClaim_mem s w.domain w.serial _).symm ▸ hs) _ _ _ _
  · simpa using hs

@[simp] theorem takePresentation_canonical : Canonical (takePresentation s).mem := by
  unfold takePresentation
  split
  · dsimp only
    split
    · simpa using hs
    · exact claimStep_canonical (by simpa using hs) _ _ _
  · exact hs

/-! ### The warrant, time and key instructions (R251 to R256) -/

theorem present_keeps (add : Bool) (d a b : Reg) (i : Instr) (h : Hdr) : Keeps (present s add d a b i h) := by
  unfold present
  dsimp only
  refine issue_keeps (fun v u hu => ?_) hs
  refine ret_ite trivial ?_
  split
  · exact give_ret (by simpa using hu) _ _
  · trivial
  · refine ret_bind (readRecord_ret hu _ _) fun r hr => ?_
    have hw : ∀ q : List Byte × State, Canonical q.2.mem → ∀ p f, (Stop.block .engine (some (arrivePresentation (q.2.modMe f) p))).Wf :=
      fun q hq p f => block_some_wf.2 (by simpa using hq)
    exact ret_ite (hw _ hr _ _) (ret_bind (readImage_ret hr _) fun q hq => hw q hq _ _)

theorem splitOutcome_canonical (n : Nat) (h : Handle) (part : List Byte) (ea : Word) (key : Nat) (cls : Cls) (deleg : Bool) :
    Canonical (splitOutcome s n h part ea key cls deleg).2.mem := by
  unfold splitOutcome
  split
  · exact hs
  iterate 2
    split
    · exact hs
  by_cases hz : (if deleg then h.w.depth else h.w.splits) = 0
  · rw [if_pos hz]
    exact hs
  rw [if_neg hz]
  split
  · exact hs
  · exact hs
  · exact writeRecord_canonical (by simpa using hs) _ _ _

theorem split_keeps (deleg : Bool) (cls : Cls) (d a b c : Reg) (i : Instr) (h : Hdr) : Keeps (split s deleg cls d a b c i h) := by
  refine issue_keeps (fun v u hu => ?_) hs
  refine ret_ite trivial (ret_bind (handleOf_plain _ _) fun _ _ => ret_bind (readRecord_ret hu _ _) fun r hr => ?_)
  exact ret_bind (recordSpace_plain _ _ _) fun _ _ => ret_ite trivial (give_ret (splitOutcome_canonical hr _ _ _ _ _ _ _) _ _)

@[simp] theorem releasePages_canonical (o lo hi : Nat) : Canonical (releasePages s o lo hi).mem := by
  simp [releasePages, hs]

@[simp] theorem removeAdded_canonical (o n : Nat) (h : Handle) : Canonical (removeAdded s o n h).mem := by
  unfold removeAdded
  rw [sendEnd_mem]
  refine releasePages_canonical ?_ _ _ _
  rw [bindIsland_mem, State.modCtx_mem]
  refine foldl_canonical hs (fun t q ht => ?_) _
  rw [forgetTimes_mem]
  exact eraseRange_canonical ht _ _

theorem wsurr_keeps (h : Hdr) (d a : Reg) : Keeps (execWsurr h d a s) := by
  refine issue_keeps (fun v u hu => ret_bind (handleOf_plain _ _) fun x _ => ?_) hs
  refine ret_ite (ret_ok.2 (ctxEnd_canonical hu _ _)) ?_
  split
  · exact give_ret (ctxEnd_canonical hu _ _) _ _
  · refine ret_ite (give_ret (by simpa using hu) _ _) (ret_ite (give_ret (by simpa using hu) _ _) ?_)
    exact ret_ite (give_ret hu _ _) (give_ret (removeAdded_canonical hu _ _ _) _ _)

theorem wqry_keeps (h : Hdr) (sel : WSel) (d a : Reg) : Keeps (execWqry h sel d a s) :=
  issue_keeps (fun _ _ hu => ret_bind (handleOf_plain _ _) fun _ _ => give_ret hu _ _) hs

theorem tnow_keeps (h : Hdr) (d : Reg) : Keeps (execTnow h d s) := issue_keeps (fun _ _ hu => give_ret hu _ _) hs

theorem attest_keeps (h : Hdr) (d a b : Reg) : Keeps (execAttest h d a b s) := by
  refine issue_keeps (fun v u hu => ?_) hs
  refine ret_ite trivial (ret_bind (recordSpace_plain _ _ _) fun _ _ => ret_bind (readRecord_ret hu _ _) fun r hr => ?_)
  have hw : Canonical (r.2.tick.2).mem := by simpa using hr
  refine ret_ite trivial ?_
  dsimp only
  exact give_ret (by simpa using writeRecord_canonical hw _ _ _) _ _

theorem klease_keeps (h : Hdr) (d a : Reg) : Keeps (execKlease h d a s) := by
  refine issue_keeps (fun v u hu => ?_) hs
  refine ret_ite trivial (ret_bind (readRecord_ret hu _ _) fun r hr => ret_ite trivial (give_ret ?_ _ _))
  split <;> simpa using hr

end

end Sys2Proof.Machine
end

section
/-! The events of a core, of an island and of pages keep the canonical form of memory (R153, R233, R286, R340 to R349, R359 to R368, R402). -/

namespace Sys2Proof.Machine

open Sys2Proof.Safety

section
variable {s : State} (hs : Canonical s.mem)
include hs

/-! ### Banks and dispatch (R153, R154, R233) -/

theorem bankcfg_keeps (h : Hdr) (mode : BankMode) (d a : Reg) : Keeps (execBankcfg h mode d a s) := by
  unfold execBankcfg
  dsimp only
  refine issue_keeps (fun v u hu => ?_) ?_
  · refine ret_ite trivial (ret_ite trivial (ret_ite (give_ret (by simpa using hu) _ _) (ret_ok.2 ?_)))
    simpa using hu
  · split <;> simpa using hs

@[simp] theorem zeroBank_canonical (quad b : Nat) : Canonical (zeroBank s quad b).mem := by
  simp [zeroBank, hs]

@[simp] theorem performSwitch_canonical (quad : Nat) (w : Switch) : Canonical (performSwitch s quad w).mem := by
  unfold performSwitch
  extract_lets q old banks scr fifo victims s1 s2 s3 op t s4
  have h1 : Canonical s1.mem := foldl_canonical hs (fun _ _ ht => zeroBank_canonical ht _ _) _
  have h2 : Canonical s2.mem := by simpa only [s2, State.modQuad_mem] using h1
  have h3 : Canonical s3.mem := foldl_canonical h2 (fun _ _ ht => by simpa using ht) _
  have ht : Canonical t.mem := by simpa only [t, finish_mem, writeReg_mem] using h3
  have h4 : Canonical s4.mem := ite_canonical (ite_canonical (by simpa using ht) ht) h3
  exact foldl_canonical (s := s4.tick.2) (by simpa using h4) (fun _ _ ht => raiseWaiting_canonical ht _ _) _

theorem bankModeSwitch_keeps (quad : Nat) : Keeps (execBankModeSwitch quad s) := by
  unfold execBankModeSwitch
  split
  · exact keeps_next.2 hs
  · exact keeps_ite (keeps_next.2 hs) (keeps_next.2 (performSwitch_canonical hs _ _))

@[simp] theorem moveBack_canonical (core : Nat) : Canonical (moveBack s core).mem := by
  unfold moveBack
  dsimp only
  split
  · refine ite_canonical ?_ (by simpa using hs)
    rw [State.modCore_mem]
    exact writeBytes_canonical (by simpa using hs) _ _
  · exact hs

@[simp] theorem dispatchInto_canonical (core k : Nat) (r : RingRec) : Canonical (dispatchInto s core k r).mem := by
  unfold dispatchInto
  generalize hr : ringTake s core r = q
  have hq : Canonical q.2.2.mem := by simpa [← hr] using hs
  obtain ⟨w0, w1, t⟩ := q
  have h2 : Canonical (beginNode (startSlot t k (dispatched s r w0 w1)) (ownerOf core) r.node).mem := by simpa using hq
  dsimp only
  split
  · exact h2
  · refine foldl_canonical h2 (fun u j hu => ?_) _
    split
    · exact raise_canonical hu _ _
    · exact hu

theorem slotDispatch_keeps (core : Nat) : Keeps (execSlotDispatch core s) := by
  unfold execSlotDispatch
  split
  · exact keeps_ite (keeps_next.2 (moveBack_canonical (dispatchInto_canonical hs _ _ _) _)) (keeps_next.2 hs)
  · exact keeps_next.2 hs

/-! ### Waits, time and ends (R144, R260, R286, R312) -/

theorem waitLimit_keeps (slot : Nat) : Keeps (execWaitLimit slot s) := by
  unfold execWaitLimit
  split
  · exact keeps_next.2 hs
  · exact keeps_ite (keeps_next.2 (raiseWaiting_canonical (by simpa using hs) _ _)) (keeps_next.2 hs)

@[simp] theorem deadlockTrap_canonical (e : Nat × Block) : Canonical (deadlockTrap s e).mem := by
  unfold deadlockTrap
  dsimp only
  split
  · exact hs
  split
  · split
    · exact hs
    · exact foldl_canonical hs (fun _ _ ht => by simpa using ht) _
  · exact raiseWaiting_canonical hs _ _

@[simp] theorem snapshot_canonical (o : Nat) : Canonical (snapshot s o).mem := by
  unfold snapshot
  exact foldl_canonical (foldl_canonical hs (fun _ _ ht => by simpa using ht) _) (fun _ _ ht => deadlockTrap_canonical ht _) _

theorem deadlockSnapshot_keeps (owner : Nat) : Keeps (execDeadlockSnapshot owner s) := keeps_next.2 (snapshot_canonical hs _)

theorem logicalTimeTick_keeps (core : Nat) : Keeps (execLogicalTimeTick core s) := by
  refine keeps_ite (keeps_next.2 ?_) (keeps_next.2 hs)
  rw [raiseTimes_mem]
  exact foldl_canonical hs (fun _ _ ht => by simpa using ht) _

theorem expiryNotice_keeps (owner : Nat) : Keeps (execExpiryNotice owner s) :=
  keeps_ite (keeps_next.2 (by simpa using hs)) (keeps_next.2 hs)
theorem termExpired_keeps (owner : Nat) : Keeps (execTermExpired owner s) :=
  keeps_ite (keeps_next.2 (ctxEnd_canonical hs _ _)) (keeps_next.2 hs)
theorem termKeylease_keeps (owner : Nat) : Keeps (execTermKeylease owner s) :=
  keeps_ite (keeps_next.2 (ctxEnd_canonical hs _ _)) (keeps_next.2 hs)

/-! ### Swap and restore (R359 to R368) -/

theorem harbourSwap_keeps (owner : Nat) : Keeps (execHarbourSwap owner s) := by
  have h1 : Canonical (if (s.ctx owner).phase = .running then stopCtx s owner 1 else s).mem := ite_canonical (by simpa using hs) hs
  exact keeps_next.2 (ite_canonical (by simpa using h1) h1)

theorem sliceEnd_keeps (owner : Nat) : Keeps (execSliceEnd owner s) :=
  keeps_ite (keeps_next.2 (ite_canonical (by simpa using hs) (by simpa using hs))) (keeps_next.2 hs)

@[simp] theorem restore_canonical (o : Nat) : Canonical (restore s o).mem := by
  unfold restore
  refine ite_canonical (ctxEnd_canonical hs _ _) ?_
  simpa using hs

theorem contextRestore_keeps (owner : Nat) : Keeps (execContextRestore owner s) :=
  keeps_next.2 (ite_canonical (restore_canonical hs _) hs)

theorem restoreElsewhere_keeps (owner col row : Nat) : Keeps (execRestoreElsewhere owner col row s) :=
  keeps_ite (keeps_next.2 (restore_canonical (by simpa using hs) _)) (keeps_next.2 hs)

theorem harbourScrub_keeps (stack row : Nat) (uncorrectable : Bool) : Keeps (execHarbourScrub stack row uncorrectable s) := by
  refine keeps_ite (keeps_next.2 ?_) (keeps_next.2 hs)
  split <;> split <;> simpa using hs

/-! ### Pages and the host (R340 to R349, R402, R403) -/

@[simp] theorem hostLine_canonical (requester : Nat) (write : Bool) (data : List Byte) (base : Nat) (part : Nat × Nat) :
    Canonical (hostLine requester write data base s part).mem := by
  unfold hostLine
  dsimp only
  split <;> simp [hs]

@[simp] theorem hostAccess_canonical (requester : Nat) (addr : Word) (write : Bool) (data : List Byte) :
    Canonical (hostAccess s requester addr write data).mem := by
  unfold hostAccess
  dsimp only
  split
  · exact hs
  split
  · exact ite_canonical hs (by simpa using hs)
  split
  · exact hs
  · have ht := foldl_canonical (foldl_canonical hs (fun t e ht => hostLine_canonical ht requester write data addr.toNat e)
      (lineParts addr.toNat data.length)) (fun _ n ht => (hostCounted_mem _ n).symm ▸ ht)
      (((lineParts addr.toNat data.length).map fun p => p.1 / 2 ^ 15).dedup)
    exact ite_canonical ht (by simpa using ht)

theorem hostAccess_keeps (requester : Nat) (addr : Word) (write : Bool) (data : List Byte) :
    Keeps (execHostAccess requester addr write data s) := keeps_next.2 (hostAccess_canonical hs _ _ _ _)

@[simp] theorem releaseHost_canonical : Canonical (releaseHost s).mem :=
  foldl_canonical (s := { s with held := [] }) hs (fun _ _ ht => hostAccess_canonical ht _ _ _ _) _

theorem pageMigration_keeps (page pkg : Nat) : Keeps (execPageMigration page pkg s) :=
  keeps_ite (keeps_next.2 (by simpa using hs)) (keeps_next.2 hs)

theorem migrationComplete_keeps (page : Nat) : Keeps (execMigrationComplete page s) := by
  unfold execMigrationComplete
  dsimp only
  split
  · exact keeps_next.2 hs
  · exact keeps_next.2 (releaseHost_canonical (by simpa using hs))

theorem counterClear_keeps : Keeps (execCounterClear s) := keeps_next.2 hs
theorem biasRequest_keeps (page : Nat) (host : Bool) : Keeps (execBiasRequest page host s) := keeps_next.2 (by simpa using hs)
theorem biasFlipStart_keeps (page : Nat) : Keeps (execBiasFlipStart page s) := keeps_next.2 (ite_canonical (by simpa using hs) hs)

theorem flipDone_canonical (n : Nat) (bias : Bias) : Canonical (flipDone s n bias).mem := releaseHost_canonical (by simpa using hs)

@[simp] theorem hostBiasReached_canonical (n : Nat) : Canonical (hostBiasReached s n).mem := flipDone_canonical (by simpa using hs) _ _

theorem biasFlipComplete_keeps (page : Nat) (back : List (Nat × Byte)) : Keeps (execBiasFlipComplete page back s) := by
  unfold execBiasFlipComplete
  split
  · exact keeps_next.2 (hostBiasReached_canonical hs _)
  · exact keeps_next.2 (flipDone_canonical (foldl_canonical hs (fun _ _ ht => deviceWrite_canonical ht _ _) _) _ _)
  · exact keeps_next.2 hs

@[simp] theorem poisonLine_canonical (line : Nat) : Canonical (poisonLine s line).mem := by simp [poisonLine, hs]

@[simp] theorem hostDown_canonical (dirty : List Nat) : Canonical (hostDown s dirty).mem := by
  unfold hostDown
  extract_lets back lines s1 s2 s3 s4 s5
  have h1 : Canonical s1.mem := foldl_canonical hs (fun _ _ ht => poisonLine_canonical ht _) _
  have h2 : Canonical s2.mem := foldl_canonical h1 (fun _ _ ht => by simpa using ht) _
  have h5 : Canonical s5.mem := by simpa only [s5, s4, s3, State.modPkg_mem, dropRequests_mem] using h2
  exact ite_canonical h5 (by simpa using h5)

theorem hostLinkDown_keeps (dirty : List Nat) : Keeps (execHostLinkDown dirty s) :=
  keeps_next.2 (ite_canonical (hostDown_canonical hs _) hs)
theorem backInvalidationTimeout_keeps (page : Nat) (dirty : List Nat) : Keeps (execBackInvalidationTimeout page dirty s) :=
  keeps_next.2 (ite_canonical (hostDown_canonical hs _) hs)
theorem patrolScrub_keeps (addr : Nat) : Keeps (execPatrolScrub addr s) := keeps_next.2 (by simpa using hs)
theorem tdispRequest_keeps (owner : Nat) (state : BitVec 2) : Keeps (execTdispRequest owner state s) :=
  keeps_ite (keeps_next.2 (by simpa using hs)) (keeps_next.2 hs)

end

end Sys2Proof.Machine
end

section
/-! The events of the package and the slab side keep the canonical form of memory (R305 to R311, R397 to R423). -/

namespace Sys2Proof.Machine

open Sys2Proof.Safety

/-- An action that leaves memory in its canonical form. -/
abbrev ActWf (act : State → State) : Prop := ∀ t, Canonical t.mem → Canonical (act t).mem

section
variable {s : State} (hs : Canonical s.mem)
include hs

/-! ### The mailbox, its orders and the order of R309 -/

theorem inOrder_canonical (o : Order) {act : State → State} (ha : ActWf act) : Canonical (inOrder s o act).mem :=
  ite_canonical (ha s hs) (by simpa using hs)

theorem setting_canonical (o : Order) {act : State → State} (ha : ActWf act) : Canonical (setting s o act).mem :=
  ite_canonical (inOrder_canonical hs o ha) hs

theorem submit_canonical (kind : Nat) (tag : Word) (payload : List Byte) {act : State → State} (ha : ActWf act) :
    Canonical (submit s kind tag payload act).mem :=
  ite_canonical hs (ite_canonical (ha _ (by simpa using hs)) (by simpa using hs))

theorem overLink_canonical (n : Nat) {act : State → State} (ha : ActWf act) : Canonical (overLink s n act).mem := by
  refine ite_canonical hs (ha _ ?_)
  simpa using hs

@[simp] theorem openCells_canonical (o : Nat) : Canonical (openCells s o).mem :=
  foldl_canonical hs (fun _ _ ht => openCell_canonical ht _ _) _

@[simp] theorem relaunch_canonical (o : Nat) : Canonical (relaunch s o).mem := by
  unfold relaunch
  extract_lets t
  have ht : Canonical t.mem := by simpa only [t, State.modCtx_mem] using resetIsland_canonical (openCells_canonical hs o) o
  exact ite_canonical (startContext_canonical ht _) ht

theorem actLaunch_canonical (tag serial : Word) (holderKey proof : List Byte) : Canonical (actLaunch s tag serial holderKey proof).mem := by
  unfold actLaunch
  have ht : Canonical (if proof.isEmpty then s else drawChallenge s).mem := ite_canonical hs (by simpa using hs)
  dsimp only
  split
  · simpa only [orderDone_mem] using ht
  · refine ite_canonical ?_ ?_
    · simpa only [orderDone_mem] using relaunch_canonical ht _
    · simpa only [orderDone_mem] using ht

theorem actOrder_canonical (o : Order) : Canonical (actOrder s o).mem := by
  cases o with
  | launch tag serial key proof => exact actLaunch_canonical hs _ _ _ _
  | _ => simpa [actOrder] using hs

@[simp] theorem takeQueued_canonical : Canonical (takeQueued s).mem := by
  unfold takeQueued
  split
  · exact actOrder_canonical (by simpa using hs) _
  · exact takePresentation_canonical hs

@[simp] theorem admissionStep_canonical : Canonical (admissionStep s).mem := by
  have h1 : Canonical s.tick.2.mem := by simpa using hs
  unfold admissionStep
  dsimp only
  split
  · exact ite_canonical (startContext_canonical h1 _) (takeQueued_canonical h1)
  · exact takeQueued_canonical h1

/-! ### Live migration (R410 to R412) -/

@[simp] theorem freeSource_canonical (o : Nat) : Canonical (freeSource s o).mem := eraseOwner_canonical (by simpa using hs) _

@[simp] theorem switchSource_canonical (o : Nat) (m : MoveSt) : Canonical (switchSource s o m).mem := by
  unfold switchSource
  generalize hr : sendMove s o m.target = r
  have hr : Canonical r.2.mem := by simpa [← hr] using hs
  obtain ⟨ok, t⟩ := r
  dsimp only
  split
  · refine ite_canonical (freeSource_canonical ?_ _) ?_ <;> simpa using hr
  · rw [State.modPkg_mem, respond_mem]
    exact retireNodes_canonical (abandonMove_canonical hr _) _

@[simp] theorem switchTarget_canonical (o : Nat) (m : MoveSt) : Canonical (switchTarget s o m).mem := by
  unfold switchTarget
  extract_lets s1 s2 s3 asked
  have h2 : Canonical s2.mem := ite_canonical (by simpa [s1] using hs) (by simpa [s1] using hs)
  have h3 : Canonical s3.mem := retireNodes_canonical (killArenas_canonical h2 _ _) _
  rw [moveEvent_mem]
  exact foldl_canonical h3 (fun _ _ ht => by simpa using ht) _

@[simp] theorem takeIn_canonical (o : Nat) (a : Arrival) : Canonical (takeIn s o a).mem := by
  unfold takeIn
  extract_lets sent c old s1 held s2 s3 s4
  have h2 : Canonical s2.mem := foldl_canonical (s := s1) hs (fun _ _ ht => writeHome_canonical ht _ _) _
  have h3 : Canonical s3.mem := foldl_canonical h2 (fun _ _ ht => by simpa using ht) _
  have h4 : Canonical s4.mem := foldl_canonical h3 (fun _ _ ht => by simpa using ht) _
  exact foldl_canonical h4 (fun _ _ ht => by simpa using ht) _

@[simp] theorem arriveMove_canonical (o : Nat) : Canonical (arriveMove s o).mem := by
  have h1 : Canonical s.tick.2.mem := by simpa using hs
  unfold arriveMove
  dsimp only
  split
  · exact h1
  · refine ite_canonical (switchTarget_canonical ?_ _ _) h1
    simpa only [replace_mem] using takeIn_canonical h1 _ _

theorem moveSwitch_keeps (owner : Nat) : Keeps (execMoveSwitch owner s) := by
  refine keeps_next.2 ?_
  split
  · exact ite_canonical hs (overLink_canonical hs _ fun _ ht => arriveMove_canonical ht _)
  · refine ite_canonical (overLink_canonical hs _ fun _ ht => ?_) hs
    exact ite_canonical (switchTarget_canonical ht _ _) (switchSource_canonical ht _ _)

@[simp] theorem pullPage_canonical (o : Nat) (m : MoveSt) : Canonical (pullPage s o m).mem := by
  unfold pullPage
  extract_lets rest s1
  have h1 : Canonical s1.mem := by simpa [s1] using hs
  refine ite_canonical (ite_canonical (releaseHost_canonical h1) h1) (ite_canonical (releaseHost_canonical ?_) (freeSource_canonical h1 _))
  simpa using h1

theorem pull_keeps (owner page : Nat) : Keeps (execPull owner page s) := by
  refine keeps_next.2 ?_
  split
  · exact hs
  · exact ite_canonical (overLink_canonical hs _ fun _ ht => pullPage_canonical ht _ _) hs

theorem pullFails_canonical (o page : Nat) : Canonical (pullFails s o page).mem := by
  unfold pullFails
  split
  · exact hs
  · refine ite_canonical ?_ hs
    split
    · exact ctxEnd_canonical (taskAbrupt_canonical (by simpa using hs) _ _) _ _
    · simpa using hs

theorem pullTimeout_keeps (owner page : Nat) : Keeps (execPullTimeout owner page s) := keeps_next.2 (pullFails_canonical hs _ _)

theorem moveStop_keeps (owner : Nat) : Keeps (execMoveStop owner s) :=
  keeps_ite (keeps_next.2 (overLink_canonical hs _ fun _ ht => by simpa using ht)) (keeps_next.2 hs)

theorem presentRequest_keeps (tag : Word) (warrant image holderKey proof : List Byte) : Keeps (execPresent tag warrant image holderKey proof s) :=
  keeps_next.2 (submit_canonical hs _ _ _ fun _ ht => by simpa using ht)
theorem time_keeps (tag : Word) (token : List Byte) : Keeps (execTime tag token s) :=
  keeps_next.2 (submit_canonical hs _ _ _ fun _ ht => inOrder_canonical ht _ fun _ hu => by simpa using hu)
theorem floor_keeps (tag : Word) (order : List Byte) : Keeps (execFloor tag order s) :=
  keeps_next.2 (submit_canonical hs _ _ _ fun _ ht => inOrder_canonical ht _ fun _ hu => by simpa using hu)
theorem launch_keeps (tag serial : Word) (holderKey proof : List Byte) : Keeps (execLaunch tag serial holderKey proof s) :=
  keeps_next.2 (submit_canonical hs _ _ _ fun _ ht => inOrder_canonical ht _ fun _ hu => actLaunch_canonical hu _ _ _ _)
theorem move_keeps (tag : Word) (order : List Byte) (fits : Option (BitVec 8)) : Keeps (execMove tag order fits s) :=
  keeps_next.2 (submit_canonical hs _ _ _ fun _ ht => inOrder_canonical ht _ fun _ hu => by simpa using hu)
theorem test_keeps (tag : Word) (package sig : List Byte) (quads : List Nat) : Keeps (execTest tag package sig quads s) :=
  keeps_next.2 (submit_canonical hs _ _ _ fun _ ht => inOrder_canonical ht _ fun _ hu => by simpa using hu)
theorem slewEnd_keeps : Keeps (execSlewEnd s) := keeps_next.2 (ite_canonical (by simpa using hs) hs)
theorem clockSave_keeps : Keeps (execClockSave s) := keeps_next.2 (ite_canonical (by simpa using hs) hs)

/-! ### Redemption messages and ports (R305 to R309, R400, R408, R409) -/

theorem claim_keeps (serial domain chip nonce : Word) : Keeps (execClaim serial domain chip nonce s) :=
  keeps_next.2 (overLink_canonical hs _ fun _ ht => ite_canonical (by simpa using ht) ht)

theorem claimAnswer_keeps (nonce : Word) (accept : Bool) : Keeps (execClaimAnswer nonce accept s) := by
  refine keeps_next.2 (overLink_canonical hs _ fun t ht => ?_)
  split
  · exact ht
  · exact claimed_canonical (by simpa using ht) _ _ _ _

theorem claimTimeout_keeps (nonce : Word) : Keeps (execClaimTimeout nonce s) := keeps_next.2 (by simpa using hs)
theorem withdrawal_keeps (serial domain chip : Word) : Keeps (execWithdrawal serial domain chip s) :=
  keeps_next.2 (overLink_canonical hs _ fun _ ht => ite_canonical (by simpa using ht) ht)
theorem endNotice_keeps (serial domain chip : Word) (code : BitVec 8) : Keeps (execEndNotice serial domain chip code s) :=
  keeps_next.2 (overLink_canonical hs _ fun _ ht => ite_canonical (by simpa using ht) ht)
theorem moveNotice_keeps (serial domain source target : Word) : Keeps (execMoveNotice serial domain source target s) :=
  keeps_next.2 (overLink_canonical hs _ fun _ ht => ite_canonical (by simpa using ht) ht)
theorem homeConfirmation_keeps (serial domain : Word) : Keeps (execHomeConfirmation serial domain s) :=
  keeps_next.2 (overLink_canonical hs _ fun _ ht => by simpa using ht)

theorem telemetryReport_keeps (port : Nat) (margin : List Nat) (rate replays loss : Nat) :
    Keeps (execTelemetryReport port margin rate replays loss s) :=
  keeps_ite (keeps_next.2 hs) (keeps_next.2 (ite_canonical (by simpa using hs) (ite_canonical (by simpa using hs) (by simpa using hs))))
theorem portRecovery_keeps (port : Nat) : Keeps (execPortRecovery port s) := keeps_next.2 (ite_canonical (by simpa using hs) hs)
theorem laneFail_keeps (port : Nat) : Keeps (execLaneFail port s) := keeps_next.2 (ite_canonical (by simpa using hs) hs)
theorem portDown_keeps (port : Nat) : Keeps (execPortDown port s) := keeps_next.2 (ite_canonical hs (by simpa using hs))
theorem portTraining_keeps (port : Nat) (partner : Partner) : Keeps (execPortTraining port partner s) :=
  keeps_ite (keeps_next.2 hs) (keeps_next.2 (ite_canonical (by simpa using hs) (ite_canonical (by simpa using hs) (by simpa using hs))))
theorem rekey_keeps (port : Nat) : Keeps (execRekey port s) := keeps_next.2 (ite_canonical (by simpa using hs) hs)
theorem noRoute_keeps (owner : Nat) : Keeps (execNoRoute owner s) := keeps_next.2 (ite_canonical (ctxEnd_canonical hs _ _) hs)

/-! ### Power, repair, boot and settings (R310, R397, R398, R414 to R423) -/

omit hs in
/-- Power takes all of memory with it. -/
theorem powerOff_canonical (s : State) : Canonical (powerOff s).mem := ⟨List.Pairwise.nil, fun _ hc => absurd hc List.not_mem_nil⟩

theorem trip_canonical (domain : Nat) : Canonical (trip s domain).mem :=
  ite_canonical hs (ite_canonical (by simpa using hs) (powerOff_canonical _))

theorem dutyDrop_keeps (domain d : Nat) : Keeps (execDutyDrop domain d s) := keeps_next.2 (by simpa using hs)
theorem regulatorReport_keeps (domain vout : BitVec 16) (iout : BitVec 32) (treg eff : BitVec 16) (flux : BitVec 32) :
    Keeps (execRegulatorReport domain vout iout treg eff flux s) := keeps_next.2 (by simpa using hs)
theorem dutyRise_keeps (domain : Nat) : Keeps (execDutyRise domain s) := keeps_next.2 (by simpa using hs)
theorem powerLoss_keeps : Keeps (execPowerLoss s) := keeps_next.2 (ite_canonical hs (powerOff_canonical _))
theorem orderlyPowerDown_keeps : Keeps (execOrderlyPowerDown s) := keeps_next.2 (ite_canonical hs (powerOff_canonical _))
theorem thermalTrip_keeps (domain : Nat) : Keeps (execThermalTrip domain s) := keeps_next.2 (trip_canonical hs _)
theorem stackIdleEnd_keeps (stack : Nat) : Keeps (execStackIdleEnd stack s) := keeps_next.2 (ite_canonical (by simpa using hs) hs)

theorem marginReplan_keeps (margins : List (Nat × Nat)) : Keeps (execMarginReplan margins s) :=
  keeps_next.2 (foldl_canonical hs (fun _ _ ht => by simpa using ht) _)
theorem testEnd_keeps (quad : Nat) (pass : Bool) : Keeps (execTestEnd quad pass s) :=
  keeps_next.2 (ite_canonical (ite_canonical (by simpa using hs) (by simpa using hs)) hs)

theorem powerUp_keeps (passed : List Bool) : Keeps (execPowerUp passed s) := by
  refine keeps_next.2 (ite_canonical hs ?_)
  split <;> simpa using hs

theorem recoveryFirmware_keeps (version : Nat) (image sig : List Byte) : Keeps (execRecoveryFirmware version image sig s) :=
  keeps_next.2 (ite_canonical (by simpa using hs) hs)

theorem operatorKeyTable_keeps (auth : List Byte × List Byte × List Byte) (index : Nat) (key : Option (List Byte)) :
    Keeps (execOperatorKeyTable auth index key s) := keeps_next.2 (setting_canonical hs _ fun _ ht => by simpa using ht)
theorem domainsAndMemberLists_keeps (auth : List Byte × List Byte × List Byte) (domain : Word) (members : List Word) :
    Keeps (execDomainsAndMemberLists auth domain members s) := keeps_next.2 (setting_canonical hs _ fun _ ht => by simpa using ht)
theorem podn_keeps (auth : List Byte × List Byte × List Byte) (n : Nat) : Keeps (execPodn auth n s) :=
  keeps_next.2 (setting_canonical hs _ fun _ ht => by simpa using ht)
theorem hostFacingCxlPort_keeps (auth : List Byte × List Byte × List Byte) (port : Nat) : Keeps (execHostFacingCxlPort auth port s) :=
  keeps_next.2 (setting_canonical hs _ fun _ ht => by simpa using ht)
theorem migrationThreshold_keeps (auth : List Byte × List Byte × List Byte) (n : Nat) : Keeps (execMigrationThreshold auth n s) :=
  keeps_next.2 (setting_canonical hs _ fun _ ht => by simpa using ht)
theorem fluxCaps_keeps (auth : List Byte × List Byte × List Byte) (domain cap : Nat) : Keeps (execFluxCaps auth domain cap s) :=
  keeps_next.2 (setting_canonical hs _ fun _ ht => by simpa using ht)
theorem portThresholds_keeps (auth : List Byte × List Byte × List Byte) (margin rate : Nat) : Keeps (execPortThresholds auth margin rate s) :=
  keeps_next.2 (setting_canonical hs _ fun _ ht => by simpa using ht)
theorem debugGateRequest_keeps (open_ : Bool) : Keeps (execDebugGateRequest open_ s) :=
  keeps_next.2 (setting_canonical hs _ fun _ ht => by simpa using ht)

/-! ### The steps of the slab side (R26, R201, R352) -/

theorem drainFault_canonical (core : Nat) (d : Drain) (ea : Nat) : Canonical (drainFault s core d ea).mem :=
  lateFault_canonical (by simpa using hs) _ _ _ _ _

theorem drainPush_canonical (core : Nat) (d : Drain) : Canonical (drainPush s core d).mem := by
  refine ite_canonical hs (foldl_canonical ?_ (fun _ _ ht => by simpa using ht) _)
  rw [State.modCore_mem, setDrain_mem]
  exact ringPush_canonical hs _ _ _ _ _ _

end

theorem drainWrites_canonical (core n : Nat) {s : State} (hs : Canonical s.mem) (d : Drain) : Canonical (drainWrites core n s d).mem := by
  induction n generalizing s d with
  | zero => simpa [drainWrites] using hs
  | succ n ih =>
    unfold drainWrites
    split
    · simpa using hs
    · exact ite_canonical (by simpa using hs) (ite_canonical (drainFault_canonical hs _ _ _) (ih (deviceWrite_canonical hs _ _) _))

theorem runAccesses_canonical (core n : Nat) (l : List (State → SlabOp → Access))
    (hl : ∀ a ∈ l, ∀ t o, Canonical t.mem → (a t o).Wf) {s : State} (hs : Canonical s.mem) (o : SlabOp) :
    Canonical (runAccesses core n l s o).mem := by
  induction l generalizing n s o with
  | nil =>
    unfold runAccesses
    exact ite_canonical (slabDiffers_canonical hs _) (ite_canonical (by simpa using hs) (by simpa using hs))
  | cons a rest ih =>
    cases n with
    | zero => simpa [runAccesses] using hs
    | succ n =>
      have ha := hl a List.mem_cons_self s o hs
      unfold runAccesses
      split
      · rename_i he
        rw [he] at ha
        exact ih n (fun b hb => hl b (List.mem_cons_of_mem _ hb)) ha _
      · simpa using hs
      · simpa using hs
      · simpa using hs
      · rename_i left he
        rw [he] at ha
        refine slabFault_canonical ?_ _ _ _
        cases left with
        | none => simpa using hs
        | some t => simpa using show Canonical t.mem from ha

/-- Each access of an instruction leaves memory in its canonical form. -/
theorem accesses_wf {c : CoreSt} {o : SlabOp} : ∀ a ∈ accesses c o, ∀ t p, Canonical t.mem → (a t p).Wf := by
  unfold accesses
  split
  · intro a ha t p ht
    obtain ⟨l, -, rfl⟩ := List.mem_map.1 ha
    exact laneAccess_wf ht _ _ _ _
  · intro a ha t p ht
    obtain ⟨q, -, rfl⟩ := List.mem_map.1 ha
    exact pieceAccess_wf ht _ _

section
variable {s : State} (hs : Canonical s.mem)
include hs

theorem adrainPush_keeps (core : Nat) : Keeps (execAdrainPush core s) := by
  unfold execAdrainPush
  split
  · exact keeps_next.2 hs
  · exact keeps_ite (keeps_next.2 (drainPush_canonical hs _ _)) (keeps_next.2 (drainWrites_canonical _ _ (s := s.tick.2) (by simpa using hs) _))

@[simp] theorem slabStep_canonical (core : Nat) (o : SlabOp) : Canonical (slabStep s core o).mem := by
  have h1 : Canonical s.tick.2.mem := by simpa using hs
  refine ite_canonical (slabFault_canonical h1 _ _ _) (ite_canonical (slabDiffers_canonical hs _) ?_)
  split
  · simpa using hs
  · refine ite_canonical (runAccesses_canonical _ _ _ (fun a ha => accesses_wf a (List.mem_of_mem_drop ha)) h1 _) ?_
    split
    · simpa using hs
    · simpa using hs
    · simpa using hs
    · exact slabFault_canonical h1 _ _ _
    · simpa using hs

theorem slabCompletion_keeps (core : Nat) : Keeps (execSlabCompletion core s) := by
  unfold execSlabCompletion
  split
  · exact keeps_next.2 hs
  · exact keeps_next.2 (slabStep_canonical hs _ _)

theorem lateTrapDelivery_keeps (slot : Nat) : Keeps (execLateTrapDelivery slot s) := keeps_next.2 (deliverPending_canonical hs _)

theorem followOnMmaStart_keeps (core : Nat) (f : FReg) : Keeps (execFollowOnMmaStart core f s) := by
  unfold execFollowOnMmaStart
  split
  · exact keeps_next.2 hs
  · exact keeps_ite (keeps_next.2 (by simpa using hs)) (keeps_next.2 hs)

end

end Sys2Proof.Machine
end

section
/-! Every instruction and event keeps the canonical form of memory: one line for each row of the opcode table. -/

namespace Sys2Proof.Machine

open Sys2Proof.Safety

/-! ### Every instruction and every event -/

theorem exec_keeps {s : State} (hs : Canonical s.mem) (i : Instr) : Keeps (exec i s) := by
  cases i with
  | add | addi | sub | rsbi | mul | muli | mulh | mad | div | rem | min | max | and | andi | or | ori | xor | xori | andn | shl | shli | shr
  | shri | sar | sari | rot | roti | clz | ctz | popc | brev | bswap | ext | bfx | bfi | crc | hash | li | lih | lea | mov | sel
  | pmovToGeneral | pmovGet => exact computes_keeps hs rfl
  | fadd | fsub | fmul | ffma | fdiv | fsqrt | fmin | fmax | fcvt | fsgn | fclass | fround => exact computesFloat_keeps hs rfl
  | nop => exact nop_keeps hs _
  | cmp => exact (aluP_keeps hs _ _ _ _ _ : Keeps (execCmp _ _ _ _ _ _ s))
  | cmpi => exact (aluP_keeps hs _ _ _ _ _ : Keeps (execCmpi _ _ _ _ _ _ s))
  | plog => exact (aluP_keeps hs _ _ _ _ _ : Keeps (execPlog _ _ _ _ _ s))
  | pmov => exact (aluP_keeps hs _ _ _ _ _ : Keeps (execPmov _ _ _ s))
  | pmovSet => exact pmovSet_keeps hs _ _
  | br => exact br_keeps hs _ _
  | call => exact call_keeps hs _ _
  | ret => exact ret_keeps hs _ _
  | jmp => exact jmp_keeps hs _ _ _
  | callr => exact callr_keeps hs _ _
  | mfs => exact mfs_keeps hs _ _ _
  | mts => exact mts_keeps hs _ _ _
  | rseedWrite => exact rseedWrite_keeps hs _ _
  | fflagsWrite => exact fflagsWrite_keeps hs _ _
  | ringbWrite => exact ringbWrite_keeps hs _ _
  | ringlWrite => exact ringlWrite_keeps hs _ _
  | tdescWrite => exact tdescWrite_keeps hs _ _ _
  | trap => exact trap_keeps hs _ _
  | brk => exact brk_keeps hs _ _
  | tret => exact tret_keeps hs _ _
  | fcmp => exact fcmp_keeps hs _ _ _ _ _ _
  | ld => exact ld_keeps hs _ _ _ _
  | st => exact st_keeps hs _ _ _ _
  | ldc => exact ldc_keeps hs _ _ _ _
  | amo => exact amo_keeps hs _ _ _ _ _ _
  | cas => exact cas_keeps hs _ _ _ _ _ _ _
  | ldfe => exact ldfe_keeps hs _ _ _ _ _
  | stfe => exact stfe_keeps hs _ _ _ _ _
  | feset => exact feset_keeps hs _ _ _
  | feqry => exact feqry_keeps hs _ _ _
  | waita => exact waita_keeps hs _ _ _ _ _ _
  | fence => exact fence_keeps hs _ _
  | touch => exact touch_keeps hs _ _ _
  | lease => exact lease_keeps hs _ _ _ _ _ _
  | pref => exact pref_keeps hs _ _ _
  | msg => exact msg_keeps hs _ _ _ _
  | wait => exact wait_keeps hs _ _ _
  | waitWk => exact waitWk_keeps hs _ _ _
  | wake => exact wake_keeps hs _ _
  | bankcfg => exact bankcfg_keeps hs _ _ _ _
  | ramo => exact ramo_keeps hs _ _ _ _ _ _ _ _ _
  | rst => exact rst_keeps hs _ _ _ _ _ _ _
  | rld => exact rld_keeps hs _ _ _ _ _ _
  | vld => exact (vecAccess_keeps hs _ _ _ _ : Keeps (execVld _ _ _ _ _ s))
  | vst => exact (vecAccess_keeps hs _ _ _ _ : Keeps (execVst _ _ _ _ _ s))
  | vlds => exact (vecAccess_keeps hs _ _ _ _ : Keeps (execVlds _ _ _ _ _ _ s))
  | vsts => exact (vecAccess_keeps hs _ _ _ _ : Keeps (execVsts _ _ _ _ _ _ s))
  | vldc => exact (vecAccess_keeps hs _ _ _ _ : Keeps (execVldc _ _ _ _ _ s))
  | vgth => exact (vecAccess_keeps hs _ _ _ _ : Keeps (execVgth _ _ _ _ _ _ _ s))
  | vsct => exact (vecAccess_keeps hs _ _ _ _ : Keeps (execVsct _ _ _ _ _ _ _ s))
  | vrst => exact (vecAccess_keeps hs _ _ _ _ : Keeps (execVrst _ _ _ _ _ _ _ s))
  | vamo => exact (vecAccess_keeps hs _ _ _ _ : Keeps (execVamo _ _ _ _ _ _ _ _ s))
  | vadd => exact (slab_keeps hs noChecks_plain : Keeps (execVadd _ _ _ _ _ _ _ s))
  | vsub => exact (slab_keeps hs noChecks_plain : Keeps (execVsub _ _ _ _ _ _ _ s))
  | vmul => exact (slab_keeps hs noChecks_plain : Keeps (execVmul _ _ _ _ _ _ _ s))
  | vfma => exact (slab_keeps hs noChecks_plain : Keeps (execVfma _ _ _ _ _ _ _ _ s))
  | vdot => exact (slab_keeps hs noChecks_plain : Keeps (execVdot _ _ _ _ _ _ _ s))
  | vdiv => exact (slab_keeps hs noChecks_plain : Keeps (execVdiv _ _ _ _ _ _ s))
  | vsqrt => exact (slab_keeps hs noChecks_plain : Keeps (execVsqrt _ _ _ _ s))
  | vmin => exact (slab_keeps hs noChecks_plain : Keeps (execVmin _ _ _ _ _ s))
  | vmax => exact (slab_keeps hs noChecks_plain : Keeps (execVmax _ _ _ _ _ s))
  | vabs => exact (slab_keeps hs noChecks_plain : Keeps (execVabs _ _ _ _ _ s))
  | vneg => exact (slab_keeps hs noChecks_plain : Keeps (execVneg _ _ _ _ _ s))
  | vsgn => exact (slab_keeps hs noChecks_plain : Keeps (execVsgn _ _ _ _ _ s))
  | vand => exact (slab_keeps hs noChecks_plain : Keeps (execVand _ _ _ _ s))
  | vor => exact (slab_keeps hs noChecks_plain : Keeps (execVor _ _ _ _ s))
  | vxor => exact (slab_keeps hs noChecks_plain : Keeps (execVxor _ _ _ _ s))
  | vshl => exact (slab_keeps hs noChecks_plain : Keeps (execVshl _ _ _ _ s))
  | vshr => exact (slab_keeps hs noChecks_plain : Keeps (execVshr _ _ _ _ s))
  | vsar => exact (slab_keeps hs noChecks_plain : Keeps (execVsar _ _ _ _ s))
  | vcnt => exact (slab_keeps hs noChecks_plain : Keeps (execVcnt _ _ _ _ s))
  | vcmp => exact (slab_keeps hs noChecks_plain : Keeps (execVcmp _ _ _ _ _ s))
  | vsel => exact (slab_keeps hs noChecks_plain : Keeps (execVsel _ _ _ _ _ s))
  | vmsk => exact (slab_keeps hs noChecks_plain : Keeps (execVmsk _ _ _ _ _ s))
  | vmskCnt => exact (slab_keeps hs noChecks_plain : Keeps (execVmskCnt _ _ _ s))
  | vmskFfs => exact (slab_keeps hs noChecks_plain : Keeps (execVmskFfs _ _ _ s))
  | vmskFirst => exact (slab_keeps hs noChecks_plain : Keeps (execVmskFirst _ _ _ s))
  | vcvt => exact (slab_keeps hs noChecks_plain : Keeps (execVcvt _ _ _ _ _ _ s))
  | vsat => exact (slab_keeps hs noChecks_plain : Keeps (execVsat _ _ _ _ _ s))
  | vpack => exact (slab_keeps hs noChecks_plain : Keeps (execVpack _ _ _ _ _ s))
  | vunpk => exact (slab_keeps hs noChecks_plain : Keeps (execVunpk _ _ _ s))
  | vperm => exact (slab_keeps hs noChecks_plain : Keeps (execVperm _ _ _ _ s))
  | vshf => exact vshf_keeps hs _ _ _ _ _
  | vbcast => exact (slab_keeps hs noChecks_plain : Keeps (execVbcast _ _ _ s))
  | vins => exact (slab_keeps hs noChecks_plain : Keeps (execVins _ _ _ _ _ s))
  | vext => exact (slab_keeps hs noChecks_plain : Keeps (execVext _ _ _ _ _ _ s))
  | vidx => exact (slab_keeps hs noChecks_plain : Keeps (execVidx _ _ _ _ s))
  | vmov => exact (slab_keeps hs noChecks_plain : Keeps (execVmov _ _ _ s))
  | vred => exact (slab_keeps hs noChecks_plain : Keeps (execVred _ _ _ _ _ _ _ s))
  | vscan => exact (slab_keeps hs noChecks_plain : Keeps (execVscan _ _ _ _ _ _ _ s))
  | vrcp => exact (slab_keeps hs noChecks_plain : Keeps (execVrcp _ _ _ _ s))
  | vrsq => exact (slab_keeps hs noChecks_plain : Keeps (execVrsq _ _ _ _ s))
  | vexp2 => exact (slab_keeps hs noChecks_plain : Keeps (execVexp2 _ _ _ _ s))
  | vlog2 => exact (slab_keeps hs noChecks_plain : Keeps (execVlog2 _ _ _ _ s))
  | tld => exact (matrix_keeps hs fun _ _ => needDesc_plain _ _ _ : Keeps (execTld _ _ _ _ _ _ _ s))
  | tst => exact (matrix_keeps hs fun _ _ => needDesc_plain _ _ _ : Keeps (execTst _ _ _ _ _ _ _ s))
  | tzero => exact (slab_keeps hs noChecks_plain : Keeps (execTzero _ _ s))
  | tmov => exact (slab_keeps hs noChecks_plain : Keeps (execTmov _ _ _ s))
  | tfill => exact (slab_keeps hs fun _ _ => needDesc_plain _ _ _ : Keeps (execTfill _ _ _ _ s))
  | mma => exact (matrix_keeps hs fun _ _ => mmaDescs_plain _ _ : Keeps (execMma _ _ s))
  | mmaq => exact mmaq_keeps hs _ _ _ _
  | mwait => exact mwait_keeps hs _
  | mwaitF => exact mwaitF_keeps hs _ _ _
  | azero => exact (slab_keeps hs noChecks_plain : Keeps (execAzero _ _ s))
  | aload => exact (matrix_keeps hs noChecks_plain : Keeps (execAload _ _ _ _ _ s))
  | aread => exact (matrix_keeps hs noChecks_plain : Keeps (execAread _ _ _ _ _ s))
  | acvt => exact (matrix_keeps hs fun _ _ => needDesc_plain _ _ _ : Keeps (execAcvt _ _ _ _ s))
  | adrain => exact adrain_keeps hs _ _ _ _ _ _ _ _ _
  | ared => exact (slab_keeps hs noChecks_plain : Keeps (execAred _ _ _ _ _ _ s))
  | ascal => exact (slab_keeps hs noChecks_plain : Keeps (execAscal _ _ _ _ _ s))
  | xpush => exact xpush_keeps hs _ _ _ _ _ _ _
  | xpushb => exact xpushb_keeps hs _ _ _ _ _ _ _
  | xlay => exact xlay_keeps hs _ _ _
  | xseal => exact xseal_keeps hs _ _
  | xwait => exact xwait_keeps hs _ _ _ _
  | xstat => exact xstat_keeps hs _ _ _
  | xstatSum => exact xstatSum_keeps hs _ _
  | xstatP => exact xstatP_keeps hs _ _ _
  | xcan => exact xcan_keeps hs _ _ _ _
  | xres => exact xres_keeps hs _ _
  | spawn => exact spawn_keeps hs _ _ _ _ _ _ _ _
  | dec => exact dec_keeps hs _ _ _
  | rpush => exact rpush_keeps hs _ _ _ _
  | rpop => exact rpop_keeps hs _ _ _
  | cnew => exact cnew_keeps hs _ _ _ _ _ _ _ _ _
  | cend => exact cend_keeps hs _ _ _
  | tend => exact tend_keeps hs _
  | tprio => exact tprio_keeps hs _ _
  | nest => exact nest_keeps hs _ _ _ _ _
  | next => exact next_keeps hs _ _ _
  | bar => exact bar_keeps hs _ _ _ _
  | barq => exact barq_keeps hs _ _ _ _ _
  | poll => exact poll_keeps hs _ _ _ _ _
  | qcfgBind => exact qcfgBind_keeps hs _ _ _ _
  | qcfgUnbind => exact qcfgUnbind_keeps hs _ _ _
  | qsts => exact qsts_keeps hs _ _ _
  | place => exact place_keeps hs _ _ _ _ _
  | placeLin => exact placeLin_keeps hs _ _ _
  | placeQuay => exact placeQuay_keeps hs _ _ _
  | gang => exact gang_keeps hs _ _ _
  | chk => exact chk_keeps hs _ _
  | anew => exact anew_keeps hs _ _ _ _ _
  | ahand => exact ahand_keeps hs _ _ _ _
  | aend => exact aend_keeps hs _ _ _
  | aqry => exact aqry_keeps hs _ _ _
  | wpresAdd => exact (present_keeps hs _ _ _ _ _ _ : Keeps (execWpresAdd _ _ _ s))
  | wpresChild => exact (present_keeps hs _ _ _ _ _ _ : Keeps (execWpresChild _ _ _ _ s))
  | wsplit => exact (split_keeps hs _ _ _ _ _ _ _ _ : Keeps (execWsplit _ _ _ _ _ _ s))
  | wdeleg => exact (split_keeps hs _ _ _ _ _ _ _ _ : Keeps (execWdeleg _ _ _ _ _ _ s))
  | wsurr => exact wsurr_keeps hs _ _ _
  | wqry => exact wqry_keeps hs _ _ _ _
  | tnow => exact tnow_keeps hs _ _
  | attest => exact attest_keeps hs _ _ _ _
  | klease => exact klease_keeps hs _ _ _
  | bankModeSwitch => exact bankModeSwitch_keeps hs _
  | adrainPush => exact adrainPush_keeps hs _
  | slabCompletion => exact slabCompletion_keeps hs _
  | lateTrapDelivery => exact lateTrapDelivery_keeps hs _
  | followOnMmaStart => exact followOnMmaStart_keeps hs _ _
  | copy => exact (runCmd_keeps hs _ _ _ _ : Keeps (execCopy _ _ _ s))
  | copyNd => exact (runCmd_keeps hs _ _ _ _ : Keeps (execCopyNd _ _ _ s))
  | gather => exact (runCmd_keeps hs _ _ _ _ : Keeps (execGather _ _ _ s))
  | scatter => exact (runCmd_keeps hs _ _ _ _ : Keeps (execScatter _ _ _ s))
  | reduceAdd => exact (runCmd_keeps hs _ _ _ _ : Keeps (execReduceAdd _ _ _ s))
  | fill => exact (runCmd_keeps hs _ _ _ _ : Keeps (execFill _ _ _ s))
  | xhand => exact xhand_keeps hs _
  | src => exact src_keeps hs _ _
  | vis => exact vis_keeps hs _ _
  | commandEnd => exact commandEnd_keeps hs _ _
  | slotDispatch => exact slotDispatch_keeps hs _
  | waitLimit => exact waitLimit_keeps hs _
  | deadlockSnapshot => exact deadlockSnapshot_keeps hs _
  | logicalTimeTick => exact logicalTimeTick_keeps hs _
  | expiryNotice => exact expiryNotice_keeps hs _
  | termExpired => exact termExpired_keeps hs _
  | termKeylease => exact termKeylease_keeps hs _
  | sliceEnd => exact sliceEnd_keeps hs _
  | harbourSwap => exact harbourSwap_keeps hs _
  | contextRestore => exact contextRestore_keeps hs _
  | pageMigration => exact pageMigration_keeps hs _ _
  | migrationComplete => exact migrationComplete_keeps hs _
  | biasRequest => exact biasRequest_keeps hs _ _
  | biasFlipStart => exact biasFlipStart_keeps hs _
  | counterClear => exact counterClear_keeps hs
  | clockSave => exact clockSave_keeps hs
  | slewEnd => exact slewEnd_keeps hs
  | portRecovery => exact portRecovery_keeps hs _
  | stackIdleEnd => exact stackIdleEnd_keeps hs _
  | restoreElsewhere => exact restoreElsewhere_keeps hs _ _ _
  | harbourScrub => exact harbourScrub_keeps hs _ _ _
  | present => exact presentRequest_keeps hs _ _ _ _ _
  | time => exact time_keeps hs _ _
  | floor => exact floor_keeps hs _ _
  | launch => exact launch_keeps hs _ _ _ _
  | move => exact move_keeps hs _ _ _
  | moveStop => exact moveStop_keeps hs _
  | moveSwitch => exact moveSwitch_keeps hs _
  | pull => exact pull_keeps hs _ _
  | pullTimeout => exact pullTimeout_keeps hs _ _
  | test => exact test_keeps hs _ _ _ _
  | claim => exact claim_keeps hs _ _ _ _
  | claimAnswer => exact claimAnswer_keeps hs _ _
  | claimTimeout => exact claimTimeout_keeps hs _
  | withdrawal => exact withdrawal_keeps hs _ _ _
  | endNotice => exact endNotice_keeps hs _ _ _ _
  | moveNotice => exact moveNotice_keeps hs _ _ _ _
  | homeConfirmation => exact homeConfirmation_keeps hs _ _
  | hostAccess => exact hostAccess_keeps hs _ _ _ _
  | biasFlipComplete => exact biasFlipComplete_keeps hs _ _
  | backInvalidationTimeout => exact backInvalidationTimeout_keeps hs _ _
  | patrolScrub => exact patrolScrub_keeps hs _
  | hostLinkDown => exact hostLinkDown_keeps hs _
  | tdispRequest => exact tdispRequest_keeps hs _ _
  | telemetryReport => exact telemetryReport_keeps hs _ _ _ _ _
  | laneFail => exact laneFail_keeps hs _
  | portDown => exact portDown_keeps hs _
  | portTraining => exact portTraining_keeps hs _ _
  | rekey => exact rekey_keeps hs _
  | noRoute => exact noRoute_keeps hs _
  | regulatorReport => exact regulatorReport_keeps hs _ _ _ _ _ _
  | dutyDrop => exact dutyDrop_keeps hs _ _
  | dutyRise => exact dutyRise_keeps hs _
  | thermalTrip => exact thermalTrip_keeps hs _
  | marginReplan => exact marginReplan_keeps hs _
  | testEnd => exact testEnd_keeps hs _ _
  | powerUp => exact powerUp_keeps hs _
  | powerLoss => exact powerLoss_keeps hs
  | orderlyPowerDown => exact orderlyPowerDown_keeps hs
  | recoveryFirmware => exact recoveryFirmware_keeps hs _ _ _
  | operatorKeyTable => exact operatorKeyTable_keeps hs _ _ _
  | domainsAndMemberLists => exact domainsAndMemberLists_keeps hs _ _ _
  | podn => exact podn_keeps hs _ _
  | hostFacingCxlPort => exact hostFacingCxlPort_keeps hs _ _
  | migrationThreshold => exact migrationThreshold_keeps hs _ _
  | fluxCaps => exact fluxCaps_keeps hs _ _ _
  | portThresholds => exact portThresholds_keeps hs _ _ _
  | debugGateRequest => exact debugGateRequest_keeps hs _

end Sys2Proof.Machine
end

section
/-! Every step keeps the canonical form of memory (R38, R136). -/

namespace Sys2Proof.Machine

open Sys2Proof.Safety

/-! ### The passing of a cycle (R263, R332, R341, R391, R412, R414) -/

section
variable {s : State} (hs : Canonical s.mem)
include hs

@[simp] theorem cacheProgress_canonical : Canonical (cacheProgress s).mem := by
  have h1 : Canonical s.tick.2.mem := by simpa using hs
  unfold cacheProgress
  dsimp only
  refine ite_canonical h1 ?_
  split
  · exact ite_canonical h1 (by rw [evictLine_mem]; exact h1)
  · exact h1

@[simp] theorem cellProgress_canonical : Canonical (cellProgress s).mem := by
  refine foldl_canonical hs (fun t e ht => ?_) _
  have h1 : Canonical t.tick.2.mem := by simpa using ht
  exact ite_canonical (openCell_canonical h1 _ _) h1

@[simp] theorem pageProgress_canonical : Canonical (pageProgress s).mem := by
  refine foldl_canonical hs (fun t e ht => ?_) _
  have h1 : Canonical t.tick.2.mem := by simpa using ht
  exact ite_canonical h1 (ite_canonical h1 (hostBiasReached_canonical h1 _))

@[simp] theorem pullProgress_canonical : Canonical (pullProgress s).mem :=
  foldl_canonical hs (fun _ _ ht => pullFails_canonical ht _ _) _

@[simp] theorem powerProgress_canonical : Canonical (powerProgress s).mem :=
  foldl_canonical (s := regulatorReports s) (by simpa using hs)
    (fun _ _ ht => by simpa using trip_canonical ht _) _

@[simp] theorem advance_canonical : Canonical (advance s).mem := by
  unfold advance
  extract_lets s0 s1 s2 due
  have h0 : Canonical s0.mem := by simpa only [s0, suppressPulse_mem, State.modPkg_mem] using hs
  have h1 : Canonical s1.mem := by
    simp only [s1, holdLimits_mem, countCycles_mem, hostTick_mem]
    exact ite_canonical h0 (powerProgress_canonical h0)
  have h2 : Canonical s2.mem := by
    simp only [s2, upsets_mem]
    refine cacheProgress_canonical (cellProgress_canonical ?_)
    rw [claimProgress_mem]
    refine pullProgress_canonical ?_
    rw [awayProgress_mem, idleProgress_mem]
    exact pageProgress_canonical h1
  exact h2

theorem endCycle_canonical : Canonical (endCycle s).mem := ite_canonical (advance_canonical hs) hs

/-! ### What follows an instruction or an event -/

theorem serveWord_canonical (e : Nat × Instr) : Canonical (serveWord s e).mem := by
  unfold serveWord
  extract_lets t r
  have ht : Canonical t.mem := hs
  have hr : Keeps r := by
    simp only [r]
    split
    · exact ldfe_keeps ht _ _ _ _ _
    · exact stfe_keeps ht _ _ _ _ _
    · exact keeps_next.2 ht
  clear_value r
  cases r with
  | next u => exact hr u rfl
  | _ => exact hs

end

theorem serveWords_canonical (n : Nat) {s : State} (hs : Canonical s.mem) : Canonical (serveWords n s).mem := by
  induction n generalizing s with
  | zero => exact hs
  | succ n ih =>
    unfold serveWords
    split
    · exact hs
    · exact ih (serveWord_canonical hs _)

section
variable {s : State} (hs : Canonical s.mem)
include hs

theorem settle_canonical : Canonical (settle s).mem := by
  unfold settle
  extract_lets sc s0 s1 s2 s3
  have hc : Canonical sc.mem := foldl_canonical hs (fun _ _ ht => by simpa using ht) _
  have h0 : Canonical s0.mem := foldl_canonical hc (fun _ _ ht => flushAgain_canonical ht _) _
  have h1 : Canonical s1.mem := serveWords_canonical _ h0
  have h2 : Canonical s2.mem := foldl_canonical h1 (fun _ _ ht => by simpa using ht) _
  have h3 : Canonical s3.mem := foldl_canonical h2 (fun _ _ ht => taskCheck_canonical ht _) _
  exact h3

/-! ### The plan of a step -/

omit hs in
/-- A plan that begins from a state whose memory is in canonical form. -/
def Plan.Wf : Plan → Prop
  | .event _ t | .instr _ t | .internal t => Canonical t.mem
  | .stop => True

omit hs in
theorem plan_ite_wf {c : Prop} [Decidable c] {p q : Plan} (hp : p.Wf) (hq : q.Wf) : (if c then p else q).Wf := by
  split
  · exact hp
  · exact hq

theorem planIssue_wf (p : Party) (k : Nat) : (planIssue s p k).Wf := by
  unfold planIssue
  split
  · exact plan_ite_wf hs (by simpa [Plan.Wf] using hs)
  · simpa [Plan.Wf] using hs
  · change Canonical (acted (setLast (raise _ _ _) _) _).mem
    rw [acted_mem, setLast_mem]
    exact raise_canonical (by simpa using hs) _ _

theorem planParty_wf (p : Party) : (planParty s p).Wf := by
  have ha : ∀ p, Canonical (acted s p).mem := fun p => by simpa using hs
  unfold planParty
  split
  · exact deliverPending_canonical hs _
  cases p with
  | issue core =>
    dsimp only
    split
    · exact planIssue_wf hs _ _
    · exact ha _
  | quay phys =>
    dsimp only
    split
    · exact planIssue_wf hs _ _
    · exact ha _
  | engine core =>
    dsimp only
    generalize hr : agentEvent s core = r
    have hr : Canonical r.2.mem := by simpa [← hr] using hs
    obtain ⟨i, t⟩ := r
    cases i with
    | some i => exact show Canonical (acted t _).mem by simpa using hr
    | none => exact show Canonical (acted t _).mem by simpa using hr
  | admission => exact show Canonical (acted (admissionStep s) _).mem by simpa using admissionStep_canonical hs
  | slab | drain | dispatch | banks => exact ha _

theorem plan_wf : (plan s).Wf := by
  unfold plan
  split
  · exact hs
  · refine plan_ite_wf trivial ?_
    dsimp only
    split
    · exact planParty_wf (by simpa using hs) _
    · exact endCycle_canonical hs

theorem step_keeps : Keeps (step s) := by
  have hp := plan_wf hs
  unfold step
  split
  · exact fun _ h => nomatch h
  · rename_i he
    rw [he] at hp
    exact keeps_next.2 (settle_canonical hp)
  all_goals
    rename_i i t he
    rw [he] at hp
    have hx := exec_keeps (s := t) hp i
    split
    · rename_i u hu
      have hu : Canonical u.mem := hx u hu
      exact keeps_next.2 (settle_canonical (by simpa using hu))
    · exact hx

end

/-- Settles O11: memory changes only by writing bytes, by erasing ranges and by losing power, each of which keeps the canonical form; every
instruction, event and part of a step is made of these. -/
theorem stepKeepsMemoryCanonical : Obligations.StepKeepsMemoryCanonical := fun _ _ hs ht => step_keeps hs _ ht

end Sys2Proof.Machine
end

section
/-! Scalar floating point: results that round once, their flags and FP_EXC, and the conversions (R111, R127 to R131). -/

namespace Sys2Proof.Machine
open Sys2Proof.Safety

section
variable {s : State} {fl : Flags}

/-- Flags that FEN does not enable accrue in FFLAGS (R131). -/
theorem raiseFlags_quiet (h : fl &&& s.me.fen = 0) :
    raiseFlags s fl = .ok (s.modMe fun x => { x with fflags := x.fflags ||| fl }) := if_neg (by simp [h])

/-- A flag that FEN enables is a trap that carries the flags (R131). -/
theorem raiseFlags_trap (h : fl &&& s.me.fen ≠ 0) : raiseFlags s fl = .error (.trap ⟨.fpExc, fl.zeroExtend 64, 0⟩) :=
  if_pos (by simpa using h)

/-- A result without an enabled flag is written behind its flags. -/
theorem giveF_quiet {d : Reg} {r : Nat × Flags} (h : r.2 &&& s.me.fen = 0) :
    giveF s d r = .ok (writeReg (s.modMe fun x => { x with fflags := x.fflags ||| r.2 }) s.cur d (BitVec.ofNat 64 r.1), .fall) := by
  rw [giveF, raiseFlags_quiet h]; rfl

/-- A result with an enabled flag traps in place of its write. -/
theorem giveF_trap {d : Reg} {r : Nat × Flags} (h : r.2 &&& s.me.fen ≠ 0) :
    giveF s d r = .error (.trap ⟨.fpExc, r.2.zeroExtend 64, 0⟩) := by
  rw [giveF, raiseFlags_trap h]; rfl

/-- The capture of an instruction whose mode is no reserved one, behind its pops (R33). -/
theorem needCapture_popped {srcs : List Reg} {rnd : Rnd} {c : Capture} (h : captureOf (popped s srcs).me s.cur rnd = some c) :
    needCapture (popped s srcs) rnd = .ok c := by
  simp only [needCapture, popped_cur, h]

/-- The format of a code that names one. -/
theorem needFF_ok {f : Fmt} {ff : FF} (h : FF.ofFmt f = some ff) : needFF f = .ok ff := by
  simp only [needFF, h]

variable {i : Instr} {h : Hdr} {srcs : List Reg} {d : Reg} {lat : Nat} {body : List Word → State → Res} {r : Nat × Flags}

/-- A ready instruction that gives a float result without an enabled flag completes with it. -/
theorem issue_giveF_quiet (hr : ready i h srcs (some d) s = true) (hn : orderedOp i = false)
    (hb : body (operands s srcs) (popped s srcs) = giveF (popped s srcs) d r) (hf : r.2 &&& (popped s srcs).me.fen = 0) :
    issue { i, h, srcs, dst := some d, lat } body s = .next (finish (writeReg ((popped s srcs).modMe fun x =>
      { x with fflags := x.fflags ||| r.2 }) s.cur d (BitVec.ofNat 64 r.1)) s.cur i.bytes lat .fall) := by
  rw [giveF_quiet hf, popped_cur] at hb
  exact issue_done hr hn hb

/-- A ready instruction that gives a float result with an enabled flag takes FP_EXC (R131). -/
theorem issue_giveF_trap (hr : ready i h srcs (some d) s = true)
    (hb : body (operands s srcs) (popped s srcs) = giveF (popped s srcs) d r) (hf : r.2 &&& (popped s srcs).me.fen ≠ 0) :
    issue { i, h, srcs, dst := some d, lat } body s = .next (raise s s.cur ⟨.fpExc, r.2.zeroExtend 64, 0⟩) :=
  issue_traps hr (.inl rfl) (hb.trans (giveF_trap hf))

end

/-- An instruction whose body gives, once its format and its capture stand, the result of an operation on its operands' low bits rounds. -/
theorem issue_rounds {i : Instr} {h : Hdr} {f : Fmt} {rnd : Rnd} {srcs : List Reg} {d : Reg} {lat : Nat}
    {op : FF → Capture → Nat → Nat → Nat → Nat × Flags} {body : List Word → State → Res} (hn : orderedOp i = false)
    (he : ∀ s, exec i s = issue { i, h, srcs, dst := some d, lat } body s)
    (hb : ∀ (v : List Word) (s : State) (ff : FF) (c : Capture), FF.ofFmt f = some ff → needCapture s rnd = .ok c →
      body v s = giveF s d (op ff c (lowBits ff (arg v 0)) (lowBits ff (arg v 1)) (lowBits ff (arg v 2)))) :
    Rounds i h f rnd srcs d lat op := by
  rintro s ff c r hr hff hc rfl
  have hbody := hb (operands s srcs) (popped s srcs) ff c hff (needCapture_popped hc)
  rw [he]
  exact ⟨issue_giveF_quiet hr hn hbody, issue_giveF_trap hr hbody⟩

/-- The scalar operations that round once (R55, R127). -/
theorem rounding_rounds {i : Instr} {h : Hdr} {f : Fmt} {rnd : Rnd} {srcs : List Reg} {d : Reg} {lat : Nat}
    {op : FF → Capture → Nat → Nat → Nat → Nat × Flags} (hn : orderedOp i = false)
    (he : ∀ s, exec i s = rounding i h f rnd d srcs lat op s) : Rounds i h f rnd srcs d lat op :=
  issue_rounds hn he fun v s ff c hff hc => by
    simp only [needFF_ok hff, hc, bind, Except.bind]

/-- Settles O19: each of these instructions is a `rounding`. -/
theorem floatArithmetic : Obligations.FloatArithmetic := by
  unfold Obligations.FloatArithmetic
  refine fun h f rnd d a b c => ⟨?sum, ?difference, ?product, ?fused, ?quotient, ?root, ?integral⟩
  all_goals exact rounding_rounds rfl fun _ => rfl

/-- Settles O21: a conversion into a float gives its rounded result, one into an integer raises its flags and writes the integer. -/
theorem floatConversions : Obligations.FloatConversions := by
  unfold Obligations.FloatConversions
  rintro h x y fx fy ty rnd d a s c v hx hy hc rfl
  refine ⟨?floats, ?toInteger, ?fromInteger⟩
  case floats =>
    refine issue_rounds rfl (fun _ => exec_fcvt ..) fun v s ff c hff hc => ?_
    simp only [needFF_ok hx, needFF_ok hff, hc, bind, Except.bind]
  case toInteger =>
    rintro r hr rfl hf
    refine issue_done hr rfl ?_
    simp only [needFF_ok hy, needCapture_popped hc, lowBits, bind, Except.bind, raiseFlags_quiet hf, give, done, State.modMe_cur, popped_cur]
  case fromInteger =>
    rintro r hr rfl hf
    refine issue_giveF_quiet hr rfl ?_ hf
    simp only [needFF_ok hx, needCapture_popped hc, bind, Except.bind]
end Sys2Proof.Machine
end

section
/-! What the operations of R128 and R129 deliver for a NaN (R44). -/

namespace Sys2Proof.Machine

theorem FVal.isNan_iff {v : FVal} : v.isNan = true ↔ ∃ sig, v = .nan sig := by
  cases v <;> simp [FVal.isNan]

@[simp] theorem FVal.isNan_negate (v : FVal) : v.negate.isNan = v.isNan := by cases v <;> rfl

/-- A product with a NaN is a NaN (R48). -/
theorem FVal.isNan_mul {a b : FVal} (h : a.isNan = true ∨ b.isNan = true) : (a.mul b).1.isNan = true := by
  simp only [FVal.isNan_iff] at h
  obtain ⟨sig, rfl⟩ | ⟨sig, rfl⟩ := h
  · cases b <;> rfl
  · cases a <;> rfl

/-- A sum with a NaN among its terms is the canonical NaN (R44, R46). -/
theorem FF.roundSum_nan (f : FF) (c : Capture) (fzo : Bool) (l g : Nat) {ts : List FVal} (h : ts.any (·.isNan) = true) :
    (f.roundSum c fzo l g ts).1 = f.qnan := by
  simp [FF.roundSum, h, FF.special]

section
variable (f : FF) (c : Capture) (l g : Nat) {a b x : Nat}

/-- The rounding of a product (R128). -/
theorem FF.mul_value : (f.mul c l g a b).1 = (f.roundSum c c.fzo l g [((f.read c.fzi a).mul (f.read c.fzi b)).1]).1 := rfl

/-- The rounding of a fused product, negated or not, and its addend (R128, R167). -/
theorem FF.fma_value (neg : Bool) : (f.fma c l g neg a b x).1 = (f.roundSum c c.fzo l g
    [if neg then ((f.read c.fzi a).mul (f.read c.fzi b)).1.negate else ((f.read c.fzi a).mul (f.read c.fzi b)).1, f.read c.fzi x]).1 := rfl

theorem FF.add_nan (h : (f.read c.fzi a).isNan = true ∨ (f.read c.fzi b).isNan = true) : (f.add c l g a b).1 = f.qnan :=
  f.roundSum_nan _ _ _ _ (by simpa using h)

theorem FF.sub_nan (h : (f.read c.fzi a).isNan = true ∨ (f.read c.fzi b).isNan = true) : (f.sub c l g a b).1 = f.qnan :=
  f.roundSum_nan _ _ _ _ (by simpa using h)

theorem FF.mul_nan (h : (f.read c.fzi a).isNan = true ∨ (f.read c.fzi b).isNan = true) : (f.mul c l g a b).1 = f.qnan := by
  have hp := FVal.isNan_mul h
  rw [FF.mul_value]
  exact f.roundSum_nan _ _ _ _ (by simpa using hp)

/-- A factor of a fused product that is a NaN, or an addend. -/
theorem FF.fma_nan (neg : Bool) (h : ((f.read c.fzi a).isNan = true ∨ (f.read c.fzi b).isNan = true) ∨ (f.read c.fzi x).isNan = true) :
    (f.fma c l g neg a b x).1 = f.qnan := by
  have hp := h.imp_left FVal.isNan_mul
  rw [FF.fma_value]
  refine f.roundSum_nan _ _ _ _ ?_
  cases neg <;> simpa using hp

theorem FF.div_nan (h : (f.read c.fzi a).isNan = true ∨ (f.read c.fzi b).isNan = true) : (f.div c l g a b).1 = f.qnan := by
  simp only [FVal.isNan_iff] at h
  unfold FF.div
  obtain ⟨sig, ha⟩ | ⟨sig, hb⟩ := h
  · rw [ha]
    cases f.read c.fzi b <;> rfl
  · rw [hb]
    cases f.read c.fzi a <;> rfl

theorem FF.sqrt_nan (h : (f.read c.fzi x).isNan = true) : (f.sqrt c l g x).1 = f.qnan := by
  obtain ⟨sig, hx⟩ := FVal.isNan_iff.1 h
  simp [FF.sqrt, hx, FF.special]

theorem FF.integral_nan (h : (f.read c.fzi x).isNan = true) : (f.integral c l g x).1 = f.qnan := by
  obtain ⟨sig, hx⟩ := FVal.isNan_iff.1 h
  simp [FF.integral, hx, FF.special]

end

/-- Settles O22: sums find the NaN among their terms, a product with a NaN is one, and the others ask for it first. -/
theorem naNsAreCanonical : Obligations.NaNsAreCanonical := by
  unfold Obligations.NaNsAreCanonical
  refine fun f c l g a b x neg m => ⟨fun h => ⟨f.add_nan c l g h, f.sub_nan c l g h, f.mul_nan c l g h, f.div_nan c l g h,
    f.fma_nan c l g neg (.inl h)⟩, fun h => ⟨f.fma_nan c l g neg (.inr h), f.sqrt_nan c l g h, f.integral_nan c l g h⟩,
    fun ha hb => ?both, fun ha hb => ?first, fun ha hb => ?second, fun _ _ _ => rfl, fun _ => rfl⟩
  all_goals simp [FF.minmax, ha, hb]
end Sys2Proof.Machine
end

section
/-! Reductions whose order cannot be seen: the tree of `vred.add` over natural lanes, and a group of an integer product (R61, R64, R177). -/

namespace Sys2Proof.Machine
open Sys2Proof.Safety

/-- The lane of a node, 0 where it is absent. -/
def nodeWord (a : TreeNode) : Lane := a.elim 0 (·.1)

@[simp] theorem nodeWord_none : nodeWord none = 0 := rfl
@[simp] theorem nodeWord_some (p : Lane × Flags) : nodeWord (some p) = p.1 := rfl

/-- Where a node adds its two lanes, so do two nodes of which one or both may be absent. -/
theorem nodeWord_joinNodes {f : Lane → Lane → Lane × Flags} (hf : ∀ x y, (f x y).1 = x + y) (a b : TreeNode) :
    nodeWord (joinNodes f a b) = nodeWord a + nodeWord b := by
  rcases a with _ | ⟨x, fx⟩ <;> rcases b with _ | ⟨y, fy⟩ <;> simp [joinNodes, hf]

/-- A sum over twice as many terms, pair by pair. -/
theorem sum_range_pairs {M : Type} [AddCommMonoid M] (g : Nat → M) (m : Nat) :
    ((List.range m).map fun i => g (2 * i) + g (2 * i + 1)).sum = ((List.range (2 * m)).map g).sum := by
  induction m with
  | zero => rfl
  | succ m ih =>
    rw [List.range_succ, List.map_append, List.sum_append, ih, Nat.mul_succ, List.range_succ, List.range_succ]
    simp

/-- The level above a level of `2 m` nodes (R64). -/
theorem nextLevel_range (f : Nat → Nat → Lane → Lane → Lane × Flags) (j m : Nat) (ns : Nat → TreeNode) :
    nextLevel f j ((List.range (2 * m)).map ns) =
      (List.range m).map fun i => joinNodes (f (2 ^ (j + 1) * i) (j + 1)) (ns (2 * i)) (ns (2 * i + 1)) := by
  unfold nextLevel
  rw [List.length_map, List.length_range, Nat.mul_div_cancel_left m two_pos]
  refine List.map_congr_left fun i hi => ?_
  have him : i < m := List.mem_range.1 hi
  have h0 : 2 * i < 2 * m := by omega
  have h1 : 2 * i + 1 < 2 * m := by omega
  simp [List.getD, h0, h1]

/-- The top of a tree with a level more is the top of the tree over the next level. -/
theorem treeTop_succ (f : Nat → Nat → Lane → Lane → Lane × Flags) (k j : Nat) (ns : List TreeNode) :
    treeTop (treeLevels f (k + 1) j ns) = treeTop (treeLevels f k (j + 1) (nextLevel f j ns)) := by
  cases k <;> rfl

/-- A tree of additions adds up its leaves (R64). -/
theorem nodeWord_treeTop {f : Nat → Nat → Lane → Lane → Lane × Flags} (hf : ∀ l g x y, (f l g x y).1 = x + y) (k j : Nat)
    (ns : Nat → TreeNode) :
    nodeWord (treeTop (treeLevels f k j ((List.range (2 ^ k)).map ns))) = ((List.range (2 ^ k)).map fun l => nodeWord (ns l)).sum := by
  induction k generalizing j ns with
  | zero => simp [treeLevels, treeTop]
  | succ k ih =>
    rw [treeTop_succ, Nat.pow_succ', nextLevel_range, ih]
    simp only [nodeWord_joinNodes (hf _ _)]
    exact sum_range_pairs (fun l => nodeWord (ns l)) (2 ^ k)

/-- A node of `add` over natural lanes adds modulo 2^32 (R177). -/
theorem redNode_add_n32 (c : Capture) (l g : Nat) (x y : Lane) : (redNode .add .n32 false c l g x y).1 = x + y := by
  simp [redNode, intLane, laneInt, BitVec.ofInt_add]

/-- A sum of lanes is the sum of their numbers modulo 2^32. -/
theorem toNat_sum_lanes {α : Type} (w : α → Lane) (ls : List α) : (ls.map w).sum.toNat = (ls.map fun l => (w l).toNat).sum % 2 ^ 32 := by
  induction ls with
  | nil => rfl
  | cons l ls ih => simp [BitVec.toNat_add, ih]

/-- What `add` over natural lanes delivers is the lane of the top node, 0 where no lane is active (R177). -/
theorem redResult_add_n32 (c : Capture) (top : TreeNode) :
    ((top.map (redResult .add .n32 c)).getD (redIdentity .add .n32, 0)).1 = nodeWord top := by
  cases top <;> rfl

/-- A leaf of the tree counts where its lane is active. -/
theorem toNat_nodeWord_leaf (v : VHdr) (x : Slot) (n : Nat) (c : Capture) (a : VReg) (l : Nat) :
    (nodeWord (if laneOn v x n l then some (redLeaf .n32 c (x.getV a l)) else none)).toNat =
      if (x.getM n v.mask).getLsbD l then (x.getV a l).toNat else 0 := by
  unfold laneOn
  split <;> rfl

/-- What `vred.add` over natural lanes gives where the lanes are a power of two: the sum of the active ones modulo 2^32 (R64, R177). -/
theorem vredOut_add_n32 (o : SlabOp) (x : Slot) (v : VHdr) (d : Reg) (a : VReg) {n : Nat} (hn : 2 ^ lanesLog n = n) :
    (vredOut o x n v .add .n32 false d a).g = some (d, BitVec.ofNat 64
      (((List.range n).map fun l => if (x.getM n v.mask).getLsbD l then (x.getV a l).toNat else 0).sum % 2 ^ 32)) := by
  have hsum := nodeWord_treeTop (redNode_add_n32 o.cap) (lanesLog n) 0
    fun l => if laneOn v x n l then some (redLeaf .n32 o.cap (x.getV a l)) else none
  rw [hn] at hsum
  simp only [vredOut, reduceCtorEq, if_false, redResult_add_n32, treeLeaves]
  rw [hsum, BitVec.zeroExtend, ← BitVec.ofNat_toNat, toNat_sum_lanes]
  simp only [toNat_nodeWord_leaf]

/-- A vector instruction without accesses that gives a general register outside a pair leaves its value there (R159, R172, R177). -/
theorem slabCompletion_word {s : State} {core : Nat} {o : SlabOp} {rest : List SlabOp} {r : VOut} {d : Reg} {w : Word}
    (hq : (s.core core).slabQ = o :: rest) (hs : soundOp s core o) (hm : slabMemory o.instr = false)
    (hd : ∀ h rnd f za doff d a b c, o.instr ≠ .adrain h rnd f za doff d a b c) (ha : aredOut (s.core core) o = none)
    (hv : vecOut o (s.slot o.slot) (lanes (s.core core).gangw) = some r) (hc : (s.slot o.slot).chk = 0) (hg : r.g = some (d, w))
    (hrv : r.v = none) (hrm : r.m = none) (h0 : d ≠ 0) :
    ∃ t, exec (.slabCompletion core) s = .next t ∧ t.mem = s.mem ∧ (t.slot o.slot).getG d = w := by
  refine ⟨_, slabCompletion_vector hq hs hm hd ha hv, by simp, ?_⟩
  have hput : (putOut s o (lanes (s.core core).gangw) r).slot o.slot = (s.slot o.slot).setG d w := by
    simp [putOut, modOp_alone _ hc, hrv, hrm, hg]
  have hchk : ((s.slot o.slot).setG d w).chk = 0 := by
    unfold Slot.setG; split
    · exact hc
    · rw [mended_eq]; exact hc
  rw [slabDone_slot core r.fl (by rw [hput, hchk]), hput]
  exact (getG_setG _ d d w).trans (by rw [if_neg h0, if_pos rfl])

/-- The clamp of an accumulator integer to 36 bits (R61). -/
theorem sat36_value (y : Int) :
    (sat36 y).1 = if y < -(2 ^ 35) then -(2 ^ 35) else if 2 ^ 35 - 1 < y then 2 ^ 35 - 1 else y := rfl

/-- Settles O33: the nodes of the tree add modulo 2^32, so it adds up its leaves, and a group of an integer product is one clamped sum. -/
theorem reductionsAreExact : Obligations.ReductionsAreExact := by
  unfold Obligations.ReductionsAreExact
  refine ⟨?tree, ?group⟩
  case tree =>
    rintro v rnd d a s core n o rest x hq hi rfl hs hc hd rfl hg
    have hn : ∀ w ∈ [1, 2, 4], 2 ^ lanesLog (lanes w) = lanes w := by decide
    have hv : vecOut o (s.slot o.slot) (lanes (s.core core).gangw) =
        some (vredOut o (s.slot o.slot) (lanes (s.core core).gangw) v .add .n32 false d a) := by rw [vecOut, hi]
    obtain ⟨t, ht, -, hw⟩ := slabCompletion_word hq hs (by rw [hi]; rfl) (by simp [hi]) (by rw [aredOut, hi]) hv hc
      (vredOut_add_n32 o _ v d a (hn _ hg)) rfl rfl hd
    exact ⟨t, ht, hw⟩
  case group =>
    rintro cap l g cell ab y rfl
    rw [← sat36_value]
    rfl
end Sys2Proof.Machine
end

section
/-! The completion of a product (R60, R189 to R192, R351). -/

namespace Sys2Proof.Machine

/-- The completion event is a step of the oldest instruction of the slab queue (R26). -/
theorem exec_slabCompletion_oldest {s : State} {core : Nat} {o : SlabOp} {rest : List SlabOp} (hq : (s.core core).slabQ = o :: rest) :
    exec (.slabCompletion core) s = .next (slabStep s core o) := by
  rw [exec_slabCompletion, execSlabCompletion, hq]

/-- An instruction with an effect on its core alone, without accesses, completes as the oldest of its slab queue with this effect (R26). -/
theorem slabCompletion_coreEffect {s : State} {core : Nat} {o : SlabOp} {rest : List SlabOp} {c : CoreSt} {fl : Flags}
    (hq : (s.core core).slabQ = o :: rest) (hb : badVector (s.slot o.slot) (lanes (s.core core).gangw) o.instr = false)
    (hc : badCells (s.core core) o = false) (hu : o.upset = false) (hm : slabMemory o.instr = false)
    (hd : ∀ h rnd f za doff d a b c, o.instr ≠ .adrain h rnd f za doff d a b c) (ha : aredOut (s.core core) o = none)
    (hv : vecOut o (s.slot o.slot) (lanes (s.core core).gangw) = none) (he : coreEffect (s.core core) o = some (some (c, fl))) :
    exec (.slabCompletion core) s = .next (slabDone (s.setCore core c) core o fl) := by
  rw [exec_slabCompletion_oldest hq, slabStep, if_neg (by simp [hb, hc]), if_neg (by simp [hu])]
  split
  · rename_i h; exact absurd h (hd _ _ _ _ _ _ _ _ _)
  · simp only [hm, Bool.false_eq_true, if_false, ha, hv, he]

/-- The instruction is the product `op`, whether issued by itself or from a follow-on slot (R189, R193). -/
def IsProduct (i : Instr) (op : MmaOp) : Prop := (∃ h, i = .mma h op) ∨ ∃ h f nt, i = .mmaq h f nt op

section
variable {o : SlabOp} {op : MmaOp} (hi : IsProduct o.instr op)
include hi

/-- A product reads no vector and no mask register. -/
theorem IsProduct.badVector (x : Slot) (n : Nat) : badVector x n o.instr = false := by
  obtain ⟨h, hi⟩ | ⟨h, f, nt, hi⟩ := hi <;> rw [hi] <;> exact badVector_none rfl rfl

theorem IsProduct.slabMemory : slabMemory o.instr = false := by
  obtain ⟨h, hi⟩ | ⟨h, f, nt, hi⟩ := hi <;> rw [hi] <;> rfl

theorem IsProduct.ne_adrain (h : Hdr) (rnd : Rnd) (f : DrainFmt) (za : Bool) (doff : BitVec 22) (d : AReg) (a b c : Reg) :
    o.instr ≠ .adrain h rnd f za doff d a b c := by
  obtain ⟨h, hi⟩ | ⟨h, f, nt, hi⟩ := hi <;> rw [hi] <;> nofun

theorem IsProduct.aredOut (c : CoreSt) : aredOut c o = none := by
  obtain ⟨h, hi⟩ | ⟨h, f, nt, hi⟩ := hi <;> rw [Machine.aredOut, hi]

theorem IsProduct.vecOut (x : Slot) (n : Nat) : vecOut o x n = none := by
  obtain ⟨h, hi⟩ | ⟨h, f, nt, hi⟩ := hi <;> rw [Machine.vecOut, hi]

/-- The effect of a product of legal operands without poison (R60, R191). -/
theorem IsProduct.coreEffect {c : CoreSt} {k : MmaKind} (hp : mmaPoison c op (o.desc 0) (o.desc 1) = false)
    (hk : mmaKind op.sr op.af op.bf = some k) :
    coreEffect c o = some (some (putRows c op.acc.toNat (mmaRows c o.cap op k (o.desc 0) (o.desc 1) c.gangw))) := by
  obtain ⟨h, hi⟩ | ⟨h, f, nt, hi⟩ := hi <;> simp [Machine.coreEffect, hi, hp, hk]

end

/-- Settles O37: a product is an instruction with an effect on its core alone. -/
theorem productCompletes : Obligations.ProductCompletes := by
  unfold Obligations.ProductCompletes
  rintro s core o rest h op k c r hq hi rfl hp hc hu hk rfl
  have hi : IsProduct o.instr op := hi.imp (⟨h, ·⟩) fun ⟨f, nt, hi⟩ => ⟨_, f, nt, hi⟩
  exact slabCompletion_coreEffect hq (hi.badVector _ _) hc hu hi.slabMemory hi.ne_adrain (hi.aredOut _) (hi.vecOut _ _)
    (hi.coreEffect hp hk)
end Sys2Proof.Machine
end

section
/-! Fields of a word, put together and read again: the parts that `fit` and `++` lay side by side (R93, R97 to R99). -/

namespace Sys2Proof

/-! ### Bits of a layout

The lemmas on `fit` match the width of an append written as the sum of its parts, so `simp` uses them without `Nat.reduceAdd`; what they ask
of the numerals `decide` answers. -/

theorem getLsbD_fit {n w j : Nat} (x : BitVec n) (h : j < w) : (fit w x).getLsbD j = x.getLsbD j := by
  simp [fit, h]

theorem extractLsb'_fit {n w start len : Nat} (x : BitVec n) (h : start + len ≤ w) :
    (fit w x).extractLsb' start len = x.extractLsb' start len := by
  apply BitVec.eq_of_getLsbD_eq
  intro j hj
  simp [fit, show start + j < w by omega]

/-- A field below the topmost seam of a layout is one of its lower part. -/
@[simp] theorem extractLsb'_fit_lower {n v w start len : Nat} (x : BitVec v) (y : BitVec w) (hw : start + len ≤ w) (hn : start + len ≤ n) :
    (fit n (x ++ y)).extractLsb' start len = y.extractLsb' start len := by
  rw [extractLsb'_fit _ hn, BitVec.extractLsb'_append_eq_of_add_le hw]

/-- A field above the lowest part of a layout is one of the parts above it. -/
@[simp] theorem extractLsb'_fit_upper {n v w start len : Nat} (x : BitVec v) (y : BitVec w) (hw : w ≤ start) (hn : start + len ≤ n) :
    (fit n (x ++ y)).extractLsb' start len = x.extractLsb' (start - w) len := by
  rw [extractLsb'_fit _ hn, BitVec.extractLsb'_append_eq_of_le hw]

@[simp] theorem getLsbD_fit_lower {n v w j : Nat} (x : BitVec v) (y : BitVec w) (hw : j < w) (hn : j < n) :
    (fit n (x ++ y)).getLsbD j = y.getLsbD j := by
  rw [getLsbD_fit _ hn, BitVec.getLsbD_append, if_pos (by simpa)]

@[simp] theorem getLsbD_fit_upper {n v w j : Nat} (x : BitVec v) (y : BitVec w) (hw : w ≤ j) (hn : j < n) :
    (fit n (x ++ y)).getLsbD j = x.getLsbD (j - w) := by
  rw [getLsbD_fit _ hn, BitVec.getLsbD_append, if_neg (by simpa using hw)]

@[simp] theorem getLsbD_bit1 (b : Bool) : (bit1 b).getLsbD 0 = b := by cases b <;> rfl

/-! ### Numbers in register fields (R100) -/

@[simp] theorem p2_fld2 (x : BitVec 2) : Fields.p2 ((fld2 x).getD 0#6) = x := by
  rw [fld2, Option.getD_some, Fields.p2, extractLsb'_fit _ (by decide), BitVec.extractLsb'_eq_self]

@[simp] theorem p3_fld3 (x : BitVec 3) : Fields.p3 ((fld3 x).getD 0#6) = x := by
  rw [fld3, Option.getD_some, Fields.p3, extractLsb'_fit _ (by decide), BitVec.extractLsb'_eq_self]

@[simp] theorem p4_fld4 (x : BitVec 4) : Fields.p4 ((fld4 x).getD 0#6) = x := by
  rw [fld4, Option.getD_some, Fields.p4, extractLsb'_fit _ (by decide), BitVec.extractLsb'_eq_self]

@[simp] theorem p3_qReg (q : BitVec 3) : Fields.p3 ((qReg q).getD 0#6) = q := by
  rw [qReg, Option.getD_some, Fields.p3, extractLsb'_fit_lower _ _ (by decide) (by decide), BitVec.extractLsb'_eq_self]

/-! ### A word of 128 bits (R97 to R99) -/

namespace Fields

/-- What of X belongs to a word with this LEN: nothing, the low 32 bits or all of it (R97 to R99). -/
def extOf (len : BitVec 2) (x : BitVec 64) : BitVec 64 := if len = 0 then 0 else if len = 1 then fit 64 (x.extractLsb' 0 32) else x

@[simp] theorem extractLsb'_toRaw_ext (f : Fields) : f.toRaw.extractLsb' 64 64 = f.ext := by
  simp (disch := decide) [-Nat.reduceAdd, toRaw, BitVec.extractLsb'_append_eq_of_le]

@[simp] theorem extractLsb'_toRaw_len (f : Fields) : f.toRaw.extractLsb' 0 2 = f.len := by
  simp (disch := decide) [-Nat.reduceAdd, toRaw]

/-- The fields of a word read back from it, where X holds nothing beyond the length. -/
theorem ofRaw_toRaw {f : Fields} (hx : extOf f.len f.ext = f.ext) : ofRaw f.toRaw = f := by
  have hlow : f.toRaw.extractLsb' 64 32 = f.ext.extractLsb' 0 32 := by
    simp (disch := decide) [-Nat.reduceAdd, toRaw, BitVec.extractLsb'_append_eq_of_le]
  rw [ofRaw, extractLsb'_toRaw_len, extractLsb'_toRaw_ext, hlow]
  change mk _ _ _ _ _ _ _ _ _ _ (extOf f.len f.ext) = f
  rw [hx]
  simp (disch := decide) [-Nat.reduceAdd, -BitVec.getLsbD_eq_getElem, toRaw, BitVec.extractLsb'_append_eq_of_le,
    BitVec.extractLsb'_append_eq_of_add_le, BitVec.getLsbD_append]

/-- X is the upper half of the word. -/
theorem toNat_ext (f : Fields) : f.ext.toNat = f.toRaw.toNat / 2 ^ 64 := by
  rw [← extractLsb'_toRaw_ext f, BitVec.extractLsb'_toNat, Nat.shiftRight_eq_div_pow, Nat.mod_eq_of_lt]
  have := f.toRaw.isLt
  omega

/-- With what belongs to its LEN in X, a word is as short as LEN says (R88). -/
theorem extOf_bound {len : BitVec 2} (hl : len ≠ 3) (x : BitVec 64) : 2 ^ 64 * ((extOf len x).toNat + 1) ≤ 256 ^ lenBytes len := by
  have hlen : len = 0 ∨ len = 1 ∨ len = 2 := by
    revert len
    decide
  obtain rfl | rfl | rfl := hlen
  · exact Nat.le_refl (2 ^ 64)
  · have hlow := (x.extractLsb' 0 32).isLt
    have hfit : (fit 64 (x.extractLsb' 0 32)).toNat = (x.extractLsb' 0 32).toNat := by
      rw [fit, BitVec.toNat_setWidth, Nat.mod_eq_of_lt (Nat.lt_trans hlow (by decide))]
    change 2 ^ 64 * ((fit 64 (x.extractLsb' 0 32)).toNat + 1) ≤ 256 ^ 12
    omega
  · have hx := x.isLt
    change 2 ^ 64 * (x.toNat + 1) ≤ 256 ^ 16
    omega

/-- A word has no bits above its length (R88). -/
theorem toRaw_lt {f : Fields} (hl : f.len ≠ 3) (hx : extOf f.len f.ext = f.ext) : f.toRaw.toNat < 256 ^ lenBytes f.len :=
  calc f.toRaw.toNat
    _ < 2 ^ 64 * (f.toRaw.toNat / 2 ^ 64 + 1) := Nat.lt_mul_div_succ _ (by decide)
    _ = 2 ^ 64 * ((extOf f.len f.ext).toNat + 1) := by rw [hx, toNat_ext]
    _ ≤ 256 ^ lenBytes f.len := extOf_bound hl f.ext

end Fields
end Sys2Proof
end

section
/-! Each subfield code is decoded to what it stands for (R51, R102 to R105). -/

namespace Sys2Proof

@[simp] theorem IntTy.ofCode_code (c : IntTy) : IntTy.ofCode c.code = c := by cases c <;> rfl
@[simp] theorem Cond.ofCode_code (c : Cond) : Cond.ofCode c.code = c := by cases c <;> rfl
@[simp] theorem FCond.ofCode_code (c : FCond) : FCond.ofCode c.code = c := by cases c <;> rfl
@[simp] theorem Rnd.ofCode_code (r : Rnd) : Rnd.ofCode r.code = r := by
  cases r with
  | slot => rfl
  | own m => cases m <;> rfl
@[simp] theorem Fmt.ofCode_code (c : Fmt) : Fmt.ofCode c.code = c := by cases c <;> rfl
@[simp] theorem Scope.ofCode_code (c : Scope) : Scope.ofCode c.code = c := by cases c <;> rfl
@[simp] theorem SysReg.ofCode_code (r : SysReg) : SysReg.ofCode r.code = r := by
  cases r with
  | tdesc t => revert t; decide
  | nest n => revert n; decide
  | _ => rfl
@[simp] theorem AmoOp.ofCode_code (c : AmoOp) : AmoOp.ofCode c.code = c := by cases c <;> rfl
@[simp] theorem SgnOp.ofCode_code (c : SgnOp) : SgnOp.ofCode c.code = c := by cases c <;> rfl
@[simp] theorem BankMode.ofCode_code (c : BankMode) : BankMode.ofCode c.code = c := by cases c <;> rfl
@[simp] theorem LaneTy.ofCode_code (c : LaneTy) : LaneTy.ofCode c.code = c := by cases c <;> rfl
@[simp] theorem DotFmt.ofCode_code (c : DotFmt) : DotFmt.ofCode c.code = c := by cases c <;> rfl
@[simp] theorem CntOp.ofCode_code (c : CntOp) : CntOp.ofCode c.code = c := by cases c <;> rfl
@[simp] theorem VCmp.ofCode_code (c : VCmp) : VCmp.ofCode c.lane.code c.code = c := by
  cases c with
  | n32 c | s32 c => cases c <;> rfl
  | f32 c => cases c <;> rfl
@[simp] theorem Elt.ofCode_code (e : Elt) : Elt.ofCode e.code e.natural = e := by cases e <;> rfl
@[simp] theorem B4Ty.ofCode_code (c : B4Ty) : B4Ty.ofCode c.code = c := by cases c <;> rfl
@[simp] theorem RedOp.ofCode_code (c : RedOp) : RedOp.ofCode c.code = c := by cases c <;> rfl
@[simp] theorem Semi.ofCode_code (c : Semi) : Semi.ofCode c.code = c := by cases c <;> rfl
@[simp] theorem DrainFmt.ofCode_code (c : DrainFmt) : DrainFmt.ofCode c.code = c := by cases c <;> rfl
@[simp] theorem CmdTy.ofCode_code (c : CmdTy) : CmdTy.ofCode c.code = c := by cases c <;> rfl
@[simp] theorem RaddElt.ofCode_code (c : RaddElt) : RaddElt.ofCode c.code = c := by cases c <;> rfl
@[simp] theorem Place.ofCode_code (c : Place) : Place.ofCode c.code = c := by cases c <;> rfl
@[simp] theorem Cls.ofCode_code (c : Cls) : Cls.ofCode c.code = c := by cases c <;> rfl
@[simp] theorem WSel.ofCode_code (c : WSel) : WSel.ofCode c.code = c := by cases c <;> rfl

/-- Of SAT and RND a lane type has one, so that the four bits they share give both (R158, R168, R177). -/
theorem LaneTy.read_satOrRnd {lt : LaneTy} {sat : Bool} {rnd : Rnd} (h : lt.modsOk sat rnd = true) :
    (!decide (lt = .f32) && (satOrRnd sat rnd).getLsbD 0) = sat ∧
      (if lt = .f32 then Rnd.ofCode (satOrRnd sat rnd) else .slot) = rnd := by
  cases lt with
  | f32 =>
    obtain rfl : sat = false := by simpa [modsOk] using h
    simp [satOrRnd]
  | n32 | s32 =>
    obtain rfl : rnd = .slot := by simpa [modsOk] using h
    cases sat <;> simp [satOrRnd, Rnd.code]

/-- A lane type takes neither SAT nor RND as well (R158). -/
theorem LaneTy.modsOk_none (lt : LaneTy) : lt.modsOk false .slot = true := by cases lt <;> rfl

/-- A reduction that the encoding has takes SAT or RND as its lane type does, or neither (R177). -/
theorem RedOp.modsOk_of_ok {op : RedOp} {lt : LaneTy} {sat : Bool} {rnd : Rnd} (h : op.ok lt sat rnd = true) :
    lt.modsOk sat rnd = true := by
  cases op with
  | add => exact h
  | min | max =>
    obtain ⟨rfl, rfl⟩ : sat = false ∧ rnd = .slot := by simpa [ok] using h
    exact lt.modsOk_none
  | or =>
    obtain ⟨⟨-, rfl⟩, rfl⟩ : (lt = .n32 ∧ sat = false) ∧ rnd = .slot := by simpa [ok] using h
    exact lt.modsOk_none

@[simp] theorem FReg.of_folCode (f : Option FReg) :
    (if (folCode f).getLsbD 2 then some ((folCode f).extractLsb' 0 2) else none) = f := by
  cases f with
  | none => rfl
  | some f => simp (disch := decide) [-Nat.reduceAdd, -BitVec.getLsbD_eq_getElem, folCode]
end Sys2Proof
end

section
/-! The decoder reads an instruction back from the fields of its encoding (R97 to R107). -/

namespace Sys2Proof

/-- The immediate that an encoding carries; another form reads as its IMM16. -/
def ImmForm.toImm : ImmForm → Imm
  | .imm i => i
  | f => .short f.imm16

@[simp] theorem ImmForm.toImm_imm (i : Imm) : (ImmForm.imm i).toImm = i := rfl
@[simp] theorem ImmForm.imm16_fix (v : BitVec 16) : (ImmForm.fix v).imm16 = v := rfl
@[simp] theorem ImmForm.imm16_ext (v : BitVec 16) (x : BitVec 64) : (ImmForm.ext v x).imm16 = v := rfl
@[simp] theorem ImmForm.high_ext (v : BitVec 16) (x : BitVec 64) : (ImmForm.ext v x).high = x := rfl

/-- A long immediate put together from IMM16 and the 32 bits above it (R98). -/
theorem fit_long_parts (v : BitVec 48) : fit 48 ((fit 64 (v.extractLsb' 16 32)).extractLsb' 0 32 ++ v.extractLsb' 0 16) = v := by
  rw [extractLsb'_fit _ (by decide), BitVec.extractLsb'_eq_self, fit, BitVec.extractLsb'_append_extractLsb'_eq_extractLsb' (by decide)]
  simp

/-! ### The fields of an encoding -/

namespace Shape
variable (s : Shape)

@[simp] theorem fields_len : s.fields.len = s.imm.len := rfl
@[simp] theorem fields_hdr : s.fields.hdr = s.hdr := rfl
@[simp] theorem fields_sf : s.fields.sf = s.sf := rfl
@[simp] theorem fields_d : s.fields.d = s.d.getD 0#6 := rfl
@[simp] theorem fields_a : s.fields.a = s.a.getD 0#6 := rfl
@[simp] theorem fields_b : s.fields.b = s.b.getD 0#6 := rfl
@[simp] theorem fields_c : s.fields.c = s.c.getD 0#6 := rfl
@[simp] theorem fields_md : s.fields.md = s.md := rfl
@[simp] theorem fields_imm16 : s.fields.imm16 = s.imm.imm16 := rfl
@[simp] theorem fields_ext : s.fields.ext = s.imm.high := rfl
@[simp] theorem fields_ty : s.fields.ty = .ofCode (s.md.extractLsb' 0 3) := rfl
@[simp] theorem fields_fmt : s.fields.fmt = .ofCode (s.md.extractLsb' 0 4) := rfl
@[simp] theorem fields_rnd : s.fields.rnd = .ofCode (s.md.extractLsb' 4 4) := rfl
@[simp] theorem fields_sc : s.fields.sc = s.md.extractLsb' 3 2 := rfl
@[simp] theorem fields_opx : s.fields.opx = s.md.extractLsb' 5 3 := rfl
@[simp] theorem fields_bit (n : Nat) : s.fields.bit n = s.md.getLsbD n := rfl
@[simp] theorem fields_lane : s.fields.lane = .ofCode (s.md.extractLsb' 0 2) := rfl
@[simp] theorem fields_id4 : s.fields.id4 = s.imm.imm16.extractLsb' 0 4 := rfl
@[simp] theorem fields_v : s.fields.v = ⟨s.hdr, s.sf.getLsbD 0, Fields.p3 (s.c.getD 0#6)⟩ := rfl
@[simp] theorem fields_satI (lt : LaneTy) : s.fields.satI lt = if lt = .f32 then false else s.md.getLsbD 4 := rfl
@[simp] theorem fields_rndF (lt : LaneTy) : s.fields.rndF lt = if lt = .f32 then .ofCode (s.md.extractLsb' 4 4) else .slot := rfl

@[simp] theorem fields_imm : s.fields.imm = s.imm.toImm := by
  obtain ⟨op, hdr, sf, d, a, b, c, md, mdFree, bFree, imm⟩ := s
  cases imm with
  | imm i =>
    cases i with
    | short v => rfl
    | long v => exact congrArg Imm.long (fit_long_parts v)
  | _ => rfl

@[simp] theorem fields_mem : s.fields.mem =
    if s.sf = 1 then .idx (s.a.getD 0#6) (s.b.getD 0#6) (s.md.extractLsb' 3 2) else .disp (s.a.getD 0#6) s.imm.toImm := by
  rw [← fields_imm]
  rfl

@[simp] theorem fields_leaMem : s.fields.leaMem =
    if s.sf = 1 then .idx (s.a.getD 0#6) (s.b.getD 0#6) (s.md.extractLsb' 0 2) else .disp (s.a.getD 0#6) s.imm.toImm := by
  rw [← fields_imm]
  rfl

/-- No encoding has the LEN of a fill word (R88, R89). -/
theorem len_ne_fill : s.imm.len ≠ 3 := by
  rcases s.imm with _ | _ | _ | (_ | _) | _
  all_goals simp [ImmForm.len]

/-- An encoding keeps X within its length (R97 to R99). -/
theorem extOf_fields : Fields.extOf s.fields.len s.fields.ext = s.fields.ext := by
  obtain ⟨op, hdr, sf, d, a, b, c, md, mdFree, bFree, imm⟩ := s
  cases imm with
  | imm i =>
    cases i with
    | short v => rfl
    | long v =>
      show fit 64 ((fit 64 (v.extractLsb' 16 32)).extractLsb' 0 32) = _
      rw [extractLsb'_fit _ (by decide), BitVec.extractLsb'_eq_self]
      rfl
  | _ => rfl

/-- The fields of an encoding pass its own check (R95, R97). -/
theorem check_fields : s.check s.fields = none := by
  have hr (o : Option (BitVec 6)) : regOk o (o.getD 0#6) = true := by cases o <;> simp [regOk]
  have hi : s.imm.imm16Ok s.imm.imm16 = true := by cases s.imm <;> simp [ImmForm.imm16Ok]
  simp [check, hr, hi]

end Shape

/-- A memory operand read back from the fields that it fixes (R119, R133). -/
@[simp] theorem Mem.of_parts (m : Mem) :
    (if m.sf = 1#2 then .idx m.base (m.index.getD 0#6) m.scale else .disp m.base m.imm.toImm) = m := by
  cases m <;> rfl

@[simp] theorem VHdr.getLsbD_sf (v : VHdr) : v.sf.getLsbD 0 = v.z := by
  rw [VHdr.sf, getLsbD_fit_lower _ _ (by decide) (by decide), getLsbD_bit1]

/-! ### MOD of a memory instruction (R132) -/

section
variable (opx : BitVec 3) (sc : BitVec 2) (ty : BitVec 3)

@[simp] theorem extractLsb'_memMd_ty : (memMd opx sc ty).extractLsb' 0 3 = ty := by
  simp (disch := decide) [-Nat.reduceAdd, memMd]

@[simp] theorem extractLsb'_memMd_sc : (memMd opx sc ty).extractLsb' 3 2 = sc := by
  simp (disch := decide) [-Nat.reduceAdd, memMd, BitVec.extractLsb'_append_eq_of_add_le]

@[simp] theorem extractLsb'_memMd_opx : (memMd opx sc ty).extractLsb' 5 3 = opx := by
  simp (disch := decide) [-Nat.reduceAdd, memMd, BitVec.extractLsb'_append_eq_of_le]

@[simp] theorem getLsbD_memMd_opx : (memMd opx sc ty).getLsbD 5 = opx.getLsbD 0 := by
  simp (disch := decide) [-Nat.reduceAdd, -BitVec.getLsbD_eq_getElem, memMd, BitVec.getLsbD_append]

end

/-! ### The arm of each opcode -/

/-- Reading the fields of an instruction's encoding gives the instruction: each operand is read from the part of the word that it was laid
in.  `congrArg some` takes the arm that the opcode names.  Only the registers with a row of their own, and the bits that SAT and RND share,
need the well-formedness. -/
theorem Fields.read_fields {i : Instr} {s : Shape} (hs : i.shape = some s) (hw : i.wf = true) : s.fields.read = some i := by
  cases i with
  -- whole register fields and fixed words
  | nop | add | sub | mul | mad | and | or | xor | andn | shl | shr | sar | rot | clz | ctz | popc | brev | bswap | hash | mov | pmovGet
  | pmovSet | ret | callr | rseedWrite | fflagsWrite | ringbWrite | ringlWrite | brk | tret | wake | mwait | xseal | xstat | xstatSum
  | xstatP | xres | rpush | rpop | cend | tend | placeLin | placeQuay | gang | chk | ahand | aend | aqry | wsurr | tnow | attest | klease =>
    cases hs
    rfl
  -- immediates, and numbers of the other register classes
  | addi | rsbi | muli | andi | ori | xori | shli | shri | sari | roti | bfi | li | lih | sel | pmov | pmovToGeneral | br | call | jmp
  | trap | cas | msg | vsel | vmskCnt | vmskFfs | vmskFirst | tzero | tmov | tfill | mwaitF | azero | aload | aread | dec | next
  | qcfgBind | qcfgUnbind | qsts | wpresAdd | wpresChild =>
    cases hs
    refine congrArg some ?_
    simp
  -- memory operands
  | lea | ld | st | ldc | amo | ldfe | stfe | feset | feqry | waita | touch | pref =>
    cases hs
    refine congrArg some ?_
    simp (disch := decide) [-Nat.reduceAdd, -BitVec.getLsbD_eq_getElem, memShape]
  -- values that share MOD, IMM16 or X with others
  | mulh | div | rem | min | max | ext | bfx | crc | cmp | cmpi | plog | mfs | fadd | fsub | fmul | ffma | fdiv | fsqrt | fmin | fmax
  | fcmp | fsgn | fclass | fround | fence | lease | wait | waitWk | bankcfg | ramo | rst | rld | vmsk | vext | tld | tst | acvt | adrain
  | ared | ascal | xlay | xwait | xcan | spawn | cnew | tprio | nest | bar | barq | poll | place | anew | wsplit | wdeleg | wqry | vld
  | vst | vlds | vsts | vldc | vgth | vsct | vrst | vamo | vadd | vsub | vmul | vfma | vdiv | vsqrt | vmin | vmax | vabs | vneg | vsgn
  | vand | vor | vxor | vshl | vshr | vsar | vcnt | vcmp | vcvt | vsat | vpack | vunpk | vperm | vshf | vbcast | vins | vidx | vmov
  | vrcp | vrsq | vexp2 | vlog2 | mma | mmaq | xpush | xpushb =>
    cases hs
    refine congrArg some ?_
    simp (disch := decide) [-Nat.reduceAdd, -BitVec.getLsbD_eq_getElem, vShape, laneMd, vcvtImm, mmaShape, Fields.mma, MmaOp.x, Fields.cmd0,
      Cmd0.x, BitVec.extractLsb'_append_eq_of_le, BitVec.extractLsb'_append_eq_of_add_le, BitVec.getLsbD_append]
  | vdot v pf sat rnd =>
    cases hs
    obtain ⟨hsat, hrnd⟩ := LaneTy.read_satOrRnd (lt := pf.lane) hw
    refine congrArg some ?_
    simp (disch := decide) [-Nat.reduceAdd, -BitVec.getLsbD_eq_getElem, vShape, hsat, hrnd, BitVec.extractLsb'_append_eq_of_le,
      BitVec.extractLsb'_append_eq_of_add_le, BitVec.getLsbD_append]
  | vred v op lt sat rnd | vscan v op lt sat rnd =>
    cases hs
    have hok : op.ok lt sat rnd = true := by simp_all [Instr.wf]
    obtain ⟨hsat, hrnd⟩ := LaneTy.read_satOrRnd (RedOp.modsOk_of_ok hok)
    refine congrArg some ?_
    simp (disch := decide) [-Nat.reduceAdd, -BitVec.getLsbD_eq_getElem, vShape, hsat, hrnd, BitVec.extractLsb'_append_eq_of_le,
      BitVec.extractLsb'_append_eq_of_add_le, BitVec.getLsbD_append]
  | fcvt h k =>
    cases hs
    refine congrArg some ?_
    cases k <;> simp (disch := decide) [-Nat.reduceAdd, -BitVec.getLsbD_eq_getElem, Fields.cvt, Cvt.sf, Cvt.md, Cvt.imm]
  | mts h r =>
    cases hs
    have hr : ((r = .rmode ∨ r = .wlim) ∨ r = .tvec) ∨ r = .tscr := by simpa [Instr.wf] using hw
    obtain ((rfl | rfl) | rfl) | rfl := hr <;> rfl
  | tdescWrite h t =>
    cases hs
    have ht : ∀ t : TReg, t = 0 ∨ t = 1 ∨ t = 2 ∨ t = 3 ∨ t = 4 ∨ t = 5 ∨ t = 6 ∨ t = 7 := by decide
    obtain rfl | rfl | rfl | rfl | rfl | rfl | rfl | rfl := ht t <;> rfl
  -- an event has no word
  | _ => cases hs

/-- The fields of a well-formed instruction's encoding decode to it (R95). -/
theorem decodeFields_fields {i : Instr} {s : Shape} (hs : i.shape = some s) (hw : i.wf = true) : decodeFields s.fields = .ok i := by
  rw [decodeFields, if_neg (by simpa using s.len_ne_fill), Fields.read_fields hs hw]
  simp only [hs, s.check_fields, hw, if_true]

/-- The word of a well-formed instruction decodes to it (R97 to R107). -/
theorem decodeWord_toRaw {i : Instr} {s : Shape} (hs : i.shape = some s) (hw : i.wf = true) : decodeWord s.fields.toRaw = .ok i := by
  rw [decodeWord, Fields.ofRaw_toRaw s.extOf_fields, decodeFields_fields hs hw]
end Sys2Proof
end

section
/-! Words and their bytes in memory, and the round trip through the encoder (R7, R88). -/

namespace Sys2Proof

@[simp] theorem length_leBytes (n v : Nat) : (leBytes n v).length = n := by
  induction n generalizing v with
  | zero => rfl
  | succ n ih => simp [leBytes, ih]

theorem leNat_leBytes (n v : Nat) : leNat n (leBytes n v) = v % 256 ^ n := by
  induction n generalizing v with
  | zero => simp [leNat, Nat.mod_one]
  | succ n ih => simp [leNat, leBytes, ih, pow_succ', Nat.mod_mul]

theorem lenBytes_pos (len : BitVec 2) : 0 < lenBytes len := by
  revert len
  decide

/-- The bytes of a word without bits above its length decode as the word, with its length (R88). -/
theorem decodeBytes_leBytes {w : BitVec 128} {n : Nat} {i : Instr} (hn : n = lenBytes (w.extractLsb' 0 2)) (hw : w.toNat < 256 ^ n)
    (hi : decodeWord w = .ok i) : decodeBytes (leBytes n w.toNat) = .ok (i, n) := by
  have hpos : 0 < n := hn ▸ lenBytes_pos _
  obtain ⟨m, hm⟩ := Nat.exists_eq_succ_of_ne_zero hpos.ne'
  have hfirst : lenBytes ((BitVec.ofNat 8 w.toNat).extractLsb' 0 2) = n := by
    rw [hn]
    congr 1
    ext j hj
    simp [show j < 8 by omega]
  have hcons : leBytes n w.toNat = BitVec.ofNat 8 w.toNat :: leBytes m (w.toNat / 256) := by rw [hm]; rfl
  have hword : BitVec.ofNat 128 (leNat n (leBytes n w.toNat)) = w := by
    rw [leNat_leBytes, Nat.mod_eq_of_lt hw, BitVec.ofNat_toNat, BitVec.setWidth_eq]
  rw [hcons] at hword ⊢
  simp only [decodeBytes, hfirst, hword, hi]
  rw [← hcons, length_leBytes, if_neg (Nat.lt_irrefl n)]

/-- Settles O3: the fields that the encoder lays into a word are those the decoder reads from it, and from these each opcode's arm gives the
instruction back; nothing stands above the word's length, so its bytes hold it whole. -/
theorem decodeEncodeRoundTrip : Obligations.DecodeEncodeRoundTrip := by
  unfold Obligations.DecodeEncodeRoundTrip
  intro i w hwf he
  obtain ⟨f, hf, rfl⟩ := Option.map_eq_some_iff.1 he
  obtain ⟨s, hs, rfl⟩ := Option.map_eq_some_iff.1 hf
  have hword := decodeWord_toRaw hs hwf
  have hbytes : i.bytes = lenBytes s.fields.len := by rw [Instr.bytes, hs]; rfl
  refine ⟨hword, ?_⟩
  rw [encodeBytes, he]
  refine decodeBytes_leBytes ?_ ?_ hword
  · rw [Fields.extractLsb'_toRaw_len, hbytes]
  · rw [hbytes]
    exact Fields.toRaw_lt s.len_ne_fill s.extOf_fields
end Sys2Proof
end

section
/-! Words written out from the encodings (R93, R97 to R107). -/

namespace Sys2Proof

/-- Settles O2: the decoder is run on each word. -/
theorem decodedWords : Obligations.DecodedWords := by
  unfold Obligations.DecodedWords
  exact ⟨rfl, rfl, rfl, rfl, rfl, rfl, rfl, rfl, rfl, rfl, rfl, rfl, rfl⟩
end Sys2Proof
end

section
/-! Every instruction and every event answers a next state (R95, R109). -/

namespace Sys2Proof.Machine

/-- The outcome is a next state: it neither faults nor refuses. -/
def Answers (o : Host.Outcome State Fault Refusal) : Prop := ∃ t, o = .next t

theorem answers_next (t : State) : Answers (.next t) := ⟨t, rfl⟩

theorem answers_ite {c : Prop} [Decidable c] {o p : Host.Outcome State Fault Refusal} (ho : Answers o) (hp : Answers p) :
    Answers (if c then o else p) := by
  split
  · exact ho
  · exact hp

/-- Each check of an issue, and each way to perform it, gives a next state. -/
theorem issue_answers (op : Op) (body : List Word → State → Res) (s : State) : Answers (issue op body s) := by
  unfold issue
  repeat' apply answers_ite
  all_goals exact answers_next _

/-- A choice between two next states. -/
theorem answers_either {c : Prop} [Decidable c] (t u : State) : Answers (if c then .next t else .next u) :=
  answers_ite (answers_next t) (answers_next u)

theorem runCmd_answers (ty : CmdTy) (core : Nat) (cnum : BitVec 32) (units : Nat) (s : State) : Answers (runCmd ty core cnum units s) := by
  unfold runCmd
  split
  · exact answers_next s
  · exact answers_either _ _

/-- An event moves the state on, or leaves it where what it is about is not there. -/
theorem event_answers {i : Instr} (hi : i.shape = none) (s : State) : Answers (exec i s) := by
  cases i <;> cases hi
  case copy | copyNd | gather | scatter | reduceAdd | fill => exact runCmd_answers _ _ _ _ s
  case bankModeSwitch =>
    rw [exec_bankModeSwitch, execBankModeSwitch]
    split
    · exact answers_next s
    · exact answers_either _ _
  case adrainPush =>
    rw [exec_adrainPush, execAdrainPush]
    split
    · exact answers_next s
    · exact answers_either _ _
  case slabCompletion =>
    rw [exec_slabCompletion, execSlabCompletion]
    split
    · exact answers_next s
    · exact answers_next _
  case followOnMmaStart =>
    rw [exec_followOnMmaStart, execFollowOnMmaStart]
    split
    · exact answers_next s
    · exact answers_either _ _
  case src =>
    rw [exec_src, execSrc]
    split
    · exact answers_next s
    · exact answers_either _ _
  case vis =>
    rw [exec_vis, execVis]
    split
    · exact answers_next s
    · exact answers_either _ _
  case commandEnd =>
    rw [exec_commandEnd, execCommandEnd]
    split
    · exact answers_next s
    · split
      · exact answers_next s
      · exact answers_next _
  case slotDispatch =>
    rw [exec_slotDispatch, execSlotDispatch]
    split
    · exact answers_either _ _
    · exact answers_next s
  case waitLimit =>
    rw [exec_waitLimit, execWaitLimit]
    split
    · exact answers_next s
    · exact answers_either _ _
  case migrationComplete =>
    simp only [exec_migrationComplete, execMigrationComplete]
    split
    · exact answers_next s
    · exact answers_next _
  case biasFlipComplete =>
    rw [exec_biasFlipComplete, execBiasFlipComplete]
    split
    · exact answers_next _
    · exact answers_next _
    · exact answers_next s
  case logicalTimeTick | expiryNotice | termExpired | termKeylease | sliceEnd | pageMigration | restoreElsewhere | harbourScrub | moveStop
    | tdispRequest | telemetryReport | portTraining => exact answers_either _ _
  all_goals exact answers_next _

theorem exec_answers (i : Instr) (s : State) : Answers (exec i s) := by
  cases hs : i.shape with
  | none => exact event_answers hs s
  | some sh =>
    obtain ⟨op, body, u, he, -⟩ := exec_eq_issue hs s
    exact he ▸ issue_answers op body u

/-- Settles O5: an instruction with an encoding is an `issue`, every branch of which is a next state, and so is every branch of an event. -/
theorem everyInstructionAnswers : Obligations.EveryInstructionAnswers := exec_answers
end Sys2Proof.Machine
end

section
/-! A step runs the instruction at the pc of the slot that the scan picks (R88 to R91, R95, R272). -/

namespace Sys2Proof.Machine

/-! ### The fetch (R88 to R91, R329) -/

/-- The entry of a page in the PLB of a core changes nothing but that PLB (R329). -/
theorem plbFill_setCore (s : State) (c key o : Nat) (w : Window) (ea : Word) :
    plbFill s c key o w ea = s ∨ ∃ plb, plbFill s c key o w ea = s.setCore c { s.core c with plb } := by
  unfold plbFill
  split
  · exact .inl rfl
  · dsimp only
    split
    · exact .inl rfl
    · exact .inr ⟨_, rfl⟩

/-- What a fetch leaves: everything but the PLB of the slot's core. -/
theorem fetchFill_frame (s : State) (k : Nat) (pc : Word) :
    (fetchFill s k pc).slots = s.slots ∧ (fetchFill s k pc).quads = s.quads ∧ (fetchFill s k pc).ctxs = s.ctxs ∧
      (fetchFill s k pc).pages = s.pages ∧ (fetchFill s k pc).mem = s.mem ∧ (fetchFill s k pc).pkg = s.pkg ∧
      ∀ c, (fetchFill s k pc).core c = { s.core c with plb := ((fetchFill s k pc).core c).plb } := by
  rw [fetchFill]
  obtain h | ⟨plb, h⟩ := plbFill_setCore s (coreOf k) (offsetOf pc) (ownerOf k) .global pc
  · rw [h]
    exact ⟨rfl, rfl, rfl, rfl, rfl, rfl, fun _ => rfl⟩
  · rw [h]
    refine ⟨rfl, rfl, rfl, rfl, rfl, rfl, fun c => ?_⟩
    by_cases hc : c = coreOf k
    · subst hc
      rw [State.setCore_core]
    · rw [State.setCore_core_ne _ _ hc]

/-- Writing a slot's own pc to it leaves every slot. -/
theorem slot_modSlot_pc {s : State} {k : Nat} {pc : Word} (hp : pc = (s.slot k).pc) (j : Nat) :
    (s.modSlot k fun x => { x with pc }).slot j = s.slot j := by
  by_cases hj : j = k
  · subst hj
    rw [State.modSlot_slot, hp]
  · rw [State.modSlot_slot_ne _ _ hj]

/-- No fill word is stepped over where none stands at the pc. -/
theorem skipFill_start {s : State} {k n : Nat} {pc : Word} (hf : fetchOk s k pc = true) (hw : leNat 4 (blockBytes s pc 4) ≠ 3) :
    skipFill s k (n + 1) pc = .ok pc := by
  simp [skipFill, hf, hw]

/-- The fetch at bytes that may be fetched, are no fill word, decode and do not cross a boundary gives their instruction (R88 to R91, R95). -/
theorem fetch_instr {s : State} {k n : Nat} {pc : Word} {i : Instr} (hp : (s.slot k).pc = pc) (hf : fetchOk s k pc = true)
    (hw : leNat 4 (blockBytes s pc 4) ≠ 3) (hd : decodeBytes (blockBytes s pc 16) = .ok (i, n))
    (hc : pc.toNat / 32 = (pc.toNat + n - 1) / 32) : fetch s k = .instr pc i := by
  simp [fetch, hp, skipFill_start hf hw, hw, hd, crosses, hc]

/-! ### The plan of a step -/

/-- An event that has arrived is run first (DESIGN CHOICE log 5). -/
theorem plan_event {s : State} {i : Instr} {rest : List Instr} (h : s.agenda = i :: rest) :
    plan s = .event i { s with agenda := rest } := by
  rw [plan, h]

theorem plan_stop {s : State} (ha : s.agenda = []) (hb : s.pkg.boot ≠ .on) : plan s = .stop := by
  simp [plan, ha, hb]

/-- One party that waits alone for its turn has it. -/
theorem turns_single {s : State} {p : Party} (hp : s.pending = [p]) : turns s = [p] := by
  by_cases hd : p.isDispatch = true
  · simp [turns, hp, hd]
  by_cases hl : p ∈ s.latched
  · by_cases hg : p.atGang s = true <;> simp [turns, hp, hd, hl, hg]
  · simp [turns, hp, hd, hl]

theorem plan_single {s : State} {p : Party} (ha : s.agenda = []) (hb : s.pkg.boot = .on) (hp : s.pending = [p]) :
    plan s = planParty s.tick.2 p := by
  rw [plan, ha]
  simp [hb, turns_single hp, choose]

/-- The party of a core or of a quay core, with no trap to take first, issues for the slot that its scan picks (R272). -/
theorem planParty_issue {s : State} {p : Party} {k : Nat} (hd : dueSlots s p = [])
    (hp : (p = .issue (coreOf k) ∧ pickSlot s (coreOf k) = some k) ∨ ∃ q, p = .quay q ∧ pickQuay s q = some k) :
    planParty s p = planIssue s p k := by
  obtain ⟨rfl, hk⟩ | ⟨q, rfl, hk⟩ := hp
  · simp only [planParty, hd, hk]
  · simp only [planParty, hd, hk]

/-- Where one party waits, no instruction stands back for others of its cycle (R147, R246). -/
theorem planIssue_instr {s : State} {p q : Party} {k : Nat} {pc : Word} {i : Instr} (hf : fetch s k = .instr pc i) (hp : s.pending = [q]) :
    planIssue s p k = .instr i { (fetchFill s k pc).modSlot k fun x => { x with pc } with cur := k } := by
  simp [planIssue, hf, hp]

/-! ### The step -/

theorem step_event {s t : State} {i : Instr} (hp : plan s = .event i t) : ∃ u, exec i t = .next u ∧ step s = .next (settle u) := by
  obtain ⟨u, hu⟩ := exec_answers i t
  exact ⟨u, hu, by rw [step, hp]; simp only [hu]⟩

theorem step_instr {s t : State} {i : Instr} (hp : plan s = .instr i t) :
    ∃ u, exec i t = .next u ∧ step s = .next (settle (afterIssue t u)) := by
  obtain ⟨u, hu⟩ := exec_answers i t
  exact ⟨u, hu, by rw [step, hp]; simp only [hu]⟩

/-- Settles O4: the plan of such a step is the instruction that the fetch decodes, every instruction and event answers, and the fetch leaves
all but a PLB. -/
theorem stepRunsTheDecodedInstruction : Obligations.StepRunsTheDecodedInstruction := by
  unfold Obligations.StepRunsTheDecodedInstruction
  refine ⟨?issue, fun s i rest ha => step_event (plan_event ha), fun s ha hb => ?stop⟩
  case issue =>
    rintro s v t p k n i pc ha hb hp rfl hk hd hpc hf hw hdec hc rfl
    have hplan : plan s = .instr i { (fetchFill s.tick.2 k pc).modSlot k fun x => { x with pc } with cur := k } := by
      rw [plan_single ha hb hp, planParty_issue hd hk, planIssue_instr (fetch_instr (s := s.tick.2) hpc.symm hf hw hdec hc) hp]
    obtain ⟨hslots, hquads, hctxs, hpages, hmem, hpkg, hcore⟩ := fetchFill_frame s.tick.2 k pc
    refine ⟨step_instr hplan, fun j => ?_, hquads, hctxs, hpages, hmem, hpkg, hcore⟩
    have hslot (j : Nat) : (fetchFill s.tick.2 k pc).slot j = s.slot j := by rw [State.slot, hslots]; rfl
    exact (slot_modSlot_pc (hpc.trans (congrArg Slot.pc (hslot k).symm)) j).trans (hslot j)
  case stop => rw [step, plan_stop ha hb]
end Sys2Proof.Machine
end

section
/-! An instruction with a false guard (R94): what it does, and the record of a held access that it clears against O6. -/

namespace Sys2Proof.Machine

/-- The guard is p[PG] xor PN, so it is false where the two are equal (R94). -/
theorem guardOf_eq_false {x : Slot} {h : Hdr} : guardOf x h = false ↔ x.getP h.pg = h.pn := by
  rw [guardOf, bne_eq_false_iff_eq]

/-- An instruction with a false guard goes on to the next one after a cycle, and does nothing else (R94). -/
theorem exec_guard_false {i : Instr} {sh : Shape} {s : State} (hs : i.shape = some sh) (ha : absent s s.cur i = false)
    (hb : s.me.bad.get false (badPred sh.hdr.pg.toNat) = false) (hg : s.me.getP sh.hdr.pg = sh.hdr.pn) :
    exec i s = .next (finish s s.cur i.bytes 1 .fall) := by
  obtain ⟨op, body, u, he, rfl, hh, hu⟩ := exec_eq_issue hs s
  rw [← hh] at hb hg
  have hg := guardOf_eq_false.2 hg
  obtain rfl | hr := hu
  · rw [he, issue_skips ha hb hg]
  · simp [reachesBody, hg] at hr

/-- Slot 0 with an access that has been held in the memory path. -/
def pathHeldSlot : State := { slots := [(0, { touch := some (0, 0) })] }

/-- Refutes O6: whatever completes issue, an annulled instruction too, takes back the slot's record of an access held in the memory path
(`touch`), which the next state of the statement keeps. -/
theorem not_falseGuardOnlyAdvances : ¬ Obligations.FalseGuardOnlyAdvances := by
  unfold Obligations.FalseGuardOnlyAdvances
  rintro ⟨hf, -⟩
  have hstated := hf (.nop ⟨0, false⟩) _ pathHeldSlot rfl (by decide) (by decide) (by decide)
  have hdone : exec (.nop ⟨0, false⟩) pathHeldSlot = .next (finish pathHeldSlot 0 8 1 .fall) :=
    exec_guard_false rfl (by decide) (by decide) (by decide)
  have htouch := congrArg (fun t => t.me.touch) (Host.Outcome.next.inj (hdone.symm.trans hstated))
  exact absurd htouch (by decide)
end Sys2Proof.Machine
end

section
/-! Control transfers (R91, R123). -/

namespace Sys2Proof.Machine
open Sys2Proof.Safety

/-- A target that is a multiple of 4 is gone to (R91). -/
theorem goTo_aligned {t : Word} (ht : t.toNat % 4 = 0) (s : State) : goTo s t = .ok (s, .to t) := by
  rw [goTo, if_neg (by simpa using ht)]

/-- Any other target traps MISALIGN with itself as TVAL (R91). -/
theorem goTo_misaligned {t : Word} (ht : t.toNat % 4 ≠ 0) (s : State) : goTo s t = .error (.trap ⟨.misalign, t, 0⟩) := by
  rw [goTo, if_pos (by simpa using ht)]

/-- The length of an instruction with an immediate is that of the immediate (R98). -/
theorem bytes_of_imm {i : Instr} {sh : Shape} {m : Imm} (hs : i.shape = some sh) (hm : sh.imm = .imm m) : i.bytes = m.bytes := by
  rw [Instr.bytes, hs]
  cases m <;> simp [hm, ImmForm.len, lenBytes, Imm.bytes]

/-- A ready control transfer of `n` bytes whose body goes to a target. -/
theorem issue_transfers {i : Instr} {h : Hdr} {srcs : List Reg} {dst : Option Reg} {body : List Word → State → Res} {s t : State}
    {n : Nat} {pc : Word} (hr : ready i h srcs dst s = true) (ho : orderedOp i = false) (hn : i.bytes = n)
    (hb : body (operands s srcs) (popped s srcs) = .ok (t, .to pc)) :
    issue { i, h, srcs, dst } body s = .next (finish t s.cur n 1 (.to pc)) := hn ▸ issue_done hr ho hb

/-- Settles O16: each transfer is an `issue` whose body goes to its target, a call after setting ln. -/
theorem controlTransfers : Obligations.ControlTransfers := by
  unfold Obligations.ControlTransfers
  refine ⟨fun h a i s => ?aligned, fun h a i s => ?misaligned⟩
  case aligned =>
    refine ⟨fun hr ht => ?br, fun hr ht => ?call, fun hr ht => ?ret, fun hr ht => ?jmp, fun hr ht => ?callr⟩
    case br | call | jmp =>
      refine issue_transfers hr rfl (bytes_of_imm rfl rfl) ?_
      exact goTo_aligned ht _
    case ret | callr =>
      refine issue_transfers hr rfl rfl ?_
      exact goTo_aligned ht _
  case misaligned =>
    refine ⟨fun hr ht => ?br, fun hr ht => ?call, fun hr ht => ?ret, fun hr ht => ?jmp, fun hr ht => ?callr⟩
    all_goals
      refine issue_traps hr (.inl rfl) ?_
      exact goTo_misaligned ht _
end Sys2Proof.Machine
end

section
/-! Scalar integer instructions that compute a general register or a predicate (R111 to R122). -/

namespace Sys2Proof.Machine
open Sys2Proof.Safety

/-- A ready instruction that each slot performs for itself, and whose body gives a state behind the pops, completes with that state.  The body
may also read the state before the pops: the predicates (R118, R122), which the pops leave alone. -/
theorem completes_of_body {i : Instr} {h : Hdr} {srcs : List Reg} {dst : Option Reg} {lat : Nat} {body : State → List Word → State → Res}
    {t : State → List Word → State} (he : ∀ s, exec i s = issue { i, h, srcs, dst, lat } (body s) s)
    (hb : ∀ s v, body s v (popped s srcs) = .ok (t (popped s srcs) v, .fall)) : Completes i h srcs dst lat t := by
  rintro s u hr rfl
  rw [he]
  exact issue_completes hr (.inl rfl) (hb _ _)

/-! ### Arithmetic (R112, R113) -/

/-- The quotient of R113. -/
theorem divRem_quotient (ty : IntTy) (x y : Word) : (divRem ty x y).1 =
    if ty.int y = 0 then 0
    else if ty.signed = true ∧ ty.int x = -(2 ^ (ty.bits - 1)) ∧ ty.int y = -1 then ty.int x
    else (ty.int x).tdiv (ty.int y) := by
  simp only [divRem, Bool.and_eq_true, beq_iff_eq, and_assoc, apply_ite Prod.fst]

/-- The remainder of R113: what the truncated quotient leaves of the dividend. -/
theorem divRem_remainder (ty : IntTy) (x y : Word) : (divRem ty x y).2 =
    if ty.int y = 0 then ty.int x
    else if ty.signed = true ∧ ty.int x = -(2 ^ (ty.bits - 1)) ∧ ty.int y = -1 then 0
    else ty.int x - (ty.int x).tdiv (ty.int y) * ty.int y := by
  simp only [divRem, Bool.and_eq_true, beq_iff_eq, and_assoc, apply_ite Prod.snd, Int.tmod_def, Int.mul_comm]

/-- Settles O12: `nop` has a body without effect, the others are an `alu` of their latency, and `div` and `rem` write the parts of `divRem`. -/
theorem integerArithmetic : Obligations.IntegerArithmetic := by
  unfold Obligations.IntegerArithmetic
  intro h ty d a b c i
  simp only [← divRem_quotient, ← divRem_remainder]
  refine ⟨?nop, ?add, ?addi, ?sub, ?rsbi, ?mul, ?muli, ?mulh, ?mad, ?div, ?rem, ?min, ?max⟩
  all_goals exact completes_of_body (fun _ => rfl) fun _ _ => rfl

/-! ### Logic, fields and moves (R114 to R119) -/

/-- Settles O13: each of these instructions is an `alu` of latency 1. -/
theorem logicAndShifts : Obligations.LogicAndShifts := by
  unfold Obligations.LogicAndShifts
  intro h d a b i
  refine ⟨?and, ?andi, ?or, ?ori, ?xor, ?xori, ?andn, ?shl, ?shli, ?shr, ?shri, ?sar, ?sari, ?rot, ?roti⟩
  all_goals exact completes_of_body (fun _ => rfl) fun _ _ => rfl

/-- Settles O14: each of these instructions is an `alu`; `sel` reads a predicate, which the pops of its sources leave alone. -/
theorem bitFieldsAndMoves : Obligations.BitFieldsAndMoves := by
  unfold Obligations.BitFieldsAndMoves
  intro h sg k d a b i m c
  refine ⟨?clz, ?ctz, ?popc, ?brev, ?bswap, ?ext, ?bfx, ?bfi, ?crc, ?hash, ?li, ?lih, ?lea, ?mov, ?sel⟩
  case sel => exact completes_of_body (fun _ => rfl) fun _ _ => by simp only [popped_me]; rfl
  all_goals exact completes_of_body (fun _ => rfl) fun _ _ => rfl

/-! ### Predicates (R122, R389) -/

/-- What `pmov.set` does: it writes p0 to p6, and takes their error marks away with the old values (R122, R389). -/
theorem pmovSet_completes (h : Hdr) (a : Reg) : Completes (.pmovSet h a) h [a] none 1 (fun s v => s.modMe fun x =>
    { x with p := (arg v 0).setWidth 7, bad := x.bad.filter fun e => e.1 < badPred 0 || badIndex 0 ≤ e.1 }) :=
  completes_of_body (fun _ => rfl) fun _ _ => rfl

/-- Slot 0 with an uncorrectable error in p0. -/
def badPredicateSlot : State := { slots := [(0, { bad := [(badPred 0, true)] })] }

/-- Refutes O15, in its clause on `pmov.set`: the write of p0 takes away the error mark of p0 (R389), which the next state of the
statement keeps. -/
theorem not_comparesAndPredicates : ¬ Obligations.ComparesAndPredicates := by
  unfold Obligations.ComparesAndPredicates
  intro hall
  obtain ⟨-, -, -, -, -, -, hset⟩ := hall ⟨7, false⟩ .eq .s64 0 0 0 0 0 0 0 (.short 0)
  have hr : ready (.pmovSet ⟨7, false⟩ 0) ⟨7, false⟩ [0] none badPredicateSlot = true := by decide
  have hstated := hset badPredicateSlot _ hr rfl
  have hdone := pmovSet_completes ⟨7, false⟩ 0 badPredicateSlot _ hr rfl
  have hmark := congrArg (fun t => t.me.bad.get false (badPred 0)) (Host.Outcome.next.inj (hdone.symm.trans hstated))
  exact absurd hmark (by decide)

end Sys2Proof.Machine
end

section
/-! `trap`, `brk` and `tret`, and the entry of the handler (R125, R126, R354, R355). -/

namespace Sys2Proof.Machine
open Sys2Proof.Safety

/-- Entries put back into queues leave the handler of a core. -/
theorem putBack_tvec (s : State) (k : Nat) (b : Block) (c : Nat) : ((putBack s k b).core c).tvec = (s.core c).tvec :=
  foldl_keeps (fun t => (t.core c).tvec) (fun _ _ => by rw [qSet_core]) _ s

/-- A slot that leaves its wait leaves the handler of a core. -/
theorem abandon_tvec (s : State) (k c : Nat) : ((abandon s k).core c).tvec = (s.core c).tvec := by
  unfold abandon
  dsimp only
  rw [State.modSlot_get_core]
  repeat' split
  · exact putBack_tvec _ _ _ _
  all_goals rfl

/-- The slot at the entry of a handler (R354). -/
theorem enterHandler_slot {s : State} {k : Nat} (hv : (s.core (coreOf k)).tvec ≠ 0) (cause : BitVec 8) (late : Bool) (pc tval : Word)
    (seq : BitVec 32) (need : BitVec 4) : (enterHandler s k cause late pc tval seq need).slot k =
      { s.slot k with cause, late, txpc := pc, tval, tseq := if late then seq else (s.slot k).tseq, tlvl := true, dead := false,
                      ready := s.cycle + 1, offer := none, skip := none,
                      pc := ((s.core (coreOf k)).tvec ++ (0 : BitVec 2)).zeroExtend 64 } := by
  unfold enterHandler
  dsimp only
  rw [if_neg hv, State.modSlot_slot, State.modSlot_slot]

/-- A TRAP or BRK at level 0 abandons what the slot waits for and enters the handler (R354). -/
theorem raise_eq_enterHandler {s : State} {t : Trap} (hc : t.cause = .trap ∨ t.cause = .brk) (hl : s.me.tlvl = false) :
    raise s s.cur t = enterHandler (abandon s s.cur) s.cur t.cause.code false s.me.pc t.tval 0 t.need := by
  obtain ⟨cause, tval, need⟩ := t
  obtain rfl | rfl := hc
  all_goals exact if_neg (ne_true_of_eq_false hl)

/-- What a TRAP or BRK at level 0 records in its slot, and where the handler begins (R354). -/
theorem raise_slot_handler {s : State} {t : Trap} (hc : t.cause = .trap ∨ t.cause = .brk) (hl : s.me.tlvl = false)
    (hv : (s.core s.myCore).tvec ≠ 0) : ∃ y, y = (raise s s.cur t).slot s.cur ∧ y.cause = t.cause.code ∧ y.late = false ∧
      y.txpc = s.me.pc ∧ y.tval = t.tval ∧ y.tlvl = true ∧ y.pc = ((s.core s.myCore).tvec ++ (0 : BitVec 2)).zeroExtend 64 := by
  refine ⟨_, rfl, ?_⟩
  have hv' : ((abandon s s.cur).core (coreOf s.cur)).tvec ≠ 0 := abandon_tvec s _ _ ▸ hv
  rw [raise_eq_enterHandler hc hl, enterHandler_slot hv', abandon_tvec]
  exact ⟨rfl, rfl, rfl, rfl, rfl, rfl⟩

/-- `trap` takes its trap (R125). -/
theorem exec_trap_ready {h : Hdr} {i : Imm} {s : State} (hr : ready (.trap h i) h [] none s = true) :
    exec (.trap h i) s = .next (raise s s.cur ⟨.trap, i.zext, 0⟩) := issue_traps hr (.inl rfl) rfl

/-- `brk` takes its trap (R125). -/
theorem exec_brk_ready {h : Hdr} {n : BitVec 16} {s : State} (hr : ready (.brk h n) h [] none s = true) :
    exec (.brk h n) s = .next (raise s s.cur ⟨.brk, n.zeroExtend 64, 0⟩) := issue_traps hr (.inl rfl) rfl

/-- Settles O18: `trap` and `brk` raise, and a raise at level 0 enters the handler; `tret` checks the level, then its target, and returns. -/
theorem trapInstructions : Obligations.TrapInstructions := by
  unfold Obligations.TrapInstructions
  refine fun h a i n s => ⟨exec_trap_ready, exec_brk_ready, fun hr hl hv => ?trapEntry, fun hr hl hv => ?brkEntry, fun hr => ?tret⟩
  case trapEntry =>
    obtain ⟨y, hy⟩ := raise_slot_handler (t := ⟨.trap, i.zext, 0⟩) (.inl rfl) hl hv
    exact ⟨_, y, exec_trap_ready hr, hy⟩
  case brkEntry =>
    obtain ⟨y, hy⟩ := raise_slot_handler (t := ⟨.brk, n.zeroExtend 64, 0⟩) (.inr rfl) hl hv
    exact ⟨_, y, exec_brk_ready hr, hy⟩
  case tret =>
    refine ⟨fun hl => ?level, fun hl ha => ?misaligned, fun hl ha => ?returns⟩
    case level => exact issue_traps hr (.inl rfl) (if_pos (by simpa using hl))
    case misaligned =>
      refine issue_traps hr (.inl rfl) ((if_neg ?_).trans (if_pos ?_))
      · simpa using hl
      · simpa using ha
    case returns =>
      refine issue_done (n := .gone) hr rfl ((if_neg ?_).trans ((if_neg ?_).trans ?_))
      · simpa using hl
      · simpa using ha
      · rw [popped_cur]; rfl

end Sys2Proof.Machine
end

section
/-! Float comparisons, minima and maxima, signs and classes (R111, R129, R131). -/

namespace Sys2Proof.Machine
open Sys2Proof.Safety

/-- What follows the reading of a format that the code names. -/
theorem needFF_bind {f : Fmt} {ff : FF} (h : FF.ofFmt f = some ff) (k : FF → Res) : (needFF f >>= k) = k ff := by
  rw [needFF_ok h]; rfl

/-- What follows flags that FEN does not enable (R131). -/
theorem raiseFlags_bind_quiet {s : State} {fl : Flags} (h : fl &&& s.me.fen = 0) (k : State → Res) :
    (raiseFlags s fl >>= k) = k (s.modMe fun x => { x with fflags := x.fflags ||| fl }) := by
  rw [raiseFlags_quiet h]; rfl

/-- A register written behind the pops is one of the current slot. -/
theorem give_popped (s : State) (srcs : List Reg) (d : Reg) (v : Word) :
    give (popped s srcs) d v = .ok (writeReg (popped s srcs) s.cur d v, .fall) := by
  rw [give, popped_cur]; rfl

/-- The sources of `fsgn`: the signs that do not come from B do not read it (R97, R129). -/
theorem sgnReadsB_sources (op : SgnOp) (a b : Reg) :
    (if sgnReadsB op then [a, b] else [a]) = if op = .abs ∨ op = .neg then [a] else [a, b] := by
  cases op <;> rfl

/-- Settles O20: `fmin` and `fmax` give a float result, `fcmp` raises its flags and writes its predicate, `fsgn` and `fclass` write a
value and raise nothing. -/
theorem floatComparesSignsAndClasses : Obligations.FloatComparesSignsAndClasses := by
  unfold Obligations.FloatComparesSignsAndClasses
  refine fun h f ff cond op d a b q s hff => ⟨?minmax, ?compare, ?sign, fun hr => ?classes⟩
  case minmax =>
    rintro g r hr rfl hf
    cases g
    all_goals exact issue_giveF_quiet hr rfl (needFF_bind hff _) hf
  case compare =>
    rintro r hr rfl hf
    exact issue_done hr rfl ((needFF_bind hff _).trans (raiseFlags_bind_quiet hf _))
  case sign =>
    rintro srcs hs hr
    rw [← sgnReadsB_sources] at hs
    subst hs
    exact issue_done hr rfl ((needFF_bind hff _).trans (give_popped _ _ _ _))
  case classes => exact issue_done hr rfl ((needFF_bind hff _).trans (give_popped _ _ _ _))

end Sys2Proof.Machine
end

section
/-! Loads and stores, also by place and on the constant path (R135 to R138, R156). -/

namespace Sys2Proof.Machine
open Sys2Proof.Safety

/-! ### Bodies that complete -/

/-- A ready instruction outside a checked pair, whose body gives a state wherever a property holds, goes on with each such state. -/
theorem runs_of_body {i : Instr} {h : Hdr} {srcs : List Reg} {dst : Option Reg} {pair : Pairing} {body : List Word → State → Res}
    {p : List Word → State → State → Prop} (he : ∀ s, exec i s = issue { i, h, srcs, dst, pair } body s)
    (hb : ∀ v s t, p v s t → body v s = .ok (t, .fall)) : Runs i h srcs dst p := by
  intro s t hr hu hp
  rw [he]
  exact issue_completes hr (.inr (by simpa [unpaired] using hu)) (hb _ _ _ hp)

/-- What follows a result that is there. -/
theorem bind_of_ok {α β : Type} {x : Except Stop α} {a : α} (h : x = .ok a) (f : α → Except Stop β) : (x >>= f) = f a := by
  rw [h]; rfl

theorem loadTo_of_loadAt {s u : State} {ty : IntTy} {ea x : Word} (h : loadAt s ea ty.bytes = .ok (x, u)) (d : Reg) :
    loadTo s ty d ea = .ok (writeReg u u.cur d (ty.val x), .fall) := bind_of_ok h _

/-- Settles O23: each of these instructions is an `issue` whose body is the access that the statement names, behind its checks. -/
theorem loadsAndStores : Obligations.LoadsAndStores := by
  unfold Obligations.LoadsAndStores
  intro h ty d a b c m i wk
  refine ⟨runs_of_body (fun _ => rfl) ?ld, runs_of_body (fun _ => rfl) ?ldc, runs_of_body (fun _ => rfl) ?st,
    runs_of_body (fun _ => rfl) ?rld, runs_of_body (fun _ => rfl) ?rst⟩
  case ld =>
    rintro v s t ⟨x, u, hl, rfl⟩
    exact loadTo_of_loadAt hl d
  case ldc =>
    rintro v s t ⟨key, hc, ht⟩
    refine (bind_of_ok hc _).trans ?_
    split at ht
    · rename_i hk
      obtain ⟨x, u, hl, rfl⟩ := ht
      rw [if_pos hk]
      exact loadTo_of_loadAt hl d
    · rename_i hk
      obtain ⟨hbusy, bs, ps, u, hr, hps, rfl⟩ := ht
      rw [if_neg hk, hbusy, if_neg Bool.false_ne_true]
      simp only [hr, hps]
      rfl
  case st =>
    intro v s t hs
    exact bind_of_ok hs _
  case rld =>
    rintro v s t ⟨ea, x, u, he, hl, rfl⟩
    exact (bind_of_ok he _).trans (loadTo_of_loadAt hl d)
  case rst =>
    rintro v s t ⟨ea, u, he, hw, hs, rfl⟩
    obtain ⟨key, -, hc, -⟩ := storeAt_ok hs
    exact (bind_of_ok he _).trans ((bind_of_ok hc _).trans ((bind_of_ok hw _).trans (bind_of_ok hs _)))

end Sys2Proof.Machine
end

section
/-! What an access of a thread may change (R134 to R142, R156, R261 to R268, R329, R332, R340, R387, R411). -/

namespace Sys2Proof.Machine
open Sys2Proof.Safety

/-! ### Records that an access keeps -/

/-- Of a slot, only its general registers, FFLAGS, its logical time and what it has seen on the constant path have changed. -/
def SlotAccessed (x y : Slot) : Prop :=
  y = { x with g := y.g, bad := y.bad, fflags := y.fflags, tt := y.tt, constSeen := y.constSeen }

/-- Of a core, only its copies, its PLB, its bank latches and its queues have changed. -/
def CoreAccessed (x y : CoreSt) : Prop :=
  y = { x with copies := y.copies, ccopies := y.ccopies, plb := y.plb, latches := y.latches, queues := y.queues }

/-- Of a quad, only its copies and FIFO banks have changed. -/
def QuadAccessed (x y : QuadSt) : Prop := y = { x with ways := y.ways, ccopies := y.ccopies, fifos := y.fifos, fifoBad := y.fifoBad }

/-- Of a page, only its access counters have changed. -/
def PageAccessed (x y : Page) : Prop := y = { x with counters := y.counters, devCount := y.devCount, asked := y.asked }

/-- Of a context, only its error counts and the pages that a move has to copy have changed. -/
def CtxAccessed (x y : Ctx) : Prop := y = { x with counts := y.counts, move := y.move }

/-- Of the package, only its black box has changed. -/
def PkgAccessed (x y : Pkg) : Prop := y = { x with box := y.box, boxSeq := y.boxSeq }

/-- What an access may change beside these: a general register, FFLAGS, and some bytes with the tag of their word. -/
structure Footprint where
  reg : Option Reg
  float : Bool
  lo : Nat
  len : Nat

/-- A step of slot `k` changes no more than a footprint and the records of accesses; and memory keeps its canonical form. -/
structure Confined (p : Footprint) (k : Nat) (s t : State) : Prop where
  cur : t.cur = s.cur
  slot : SlotAccessed (s.slot k) (t.slot k)
  regs : ∀ r, p.reg ≠ some r → (t.slot k).getG r = (s.slot k).getG r
  flags : p.float = false → (t.slot k).fflags = (s.slot k).fflags
  slots : ∀ j, j ≠ k → t.slot j = s.slot j
  core : ∀ c, CoreAccessed (s.core c) (t.core c)
  quad : ∀ q, QuadAccessed (s.quad q) (t.quad q)
  page : ∀ n, PageAccessed (s.page n) (t.page n)
  arenas : t.arenas = s.arenas
  ctx : ∀ o, CtxAccessed (s.ctx o) (t.ctx o)
  pkg : PkgAccessed s.pkg t.pkg
  bytes : ∀ a, a < p.lo ∨ p.lo + p.len ≤ a → readByte t a = readByte s a
  full : ∀ m, m ≠ p.lo / 8 → t.full.get false m = s.full.get false m
  wf : Memory.wf s.mem → Memory.wf t.mem

namespace Confined
variable {p : Footprint} {k : Nat} {s t u : State}

theorem refl (p : Footprint) (k : Nat) (s : State) : Confined p k s s :=
  ⟨rfl, rfl, fun _ _ => rfl, fun _ => rfl, fun _ _ => rfl, fun _ => rfl, fun _ => rfl, fun _ => rfl, rfl, fun _ => rfl, rfl, fun _ _ => rfl,
    fun _ _ => rfl, id⟩

theorem trans (h : Confined p k s t) (g : Confined p k t u) : Confined p k s u where
  cur := g.cur.trans h.cur
  slot := Eq.trans g.slot (by rw [h.slot])
  regs r hr := (g.regs r hr).trans (h.regs r hr)
  flags hf := (g.flags hf).trans (h.flags hf)
  slots j hj := (g.slots j hj).trans (h.slots j hj)
  core c := Eq.trans (g.core c) (by rw [h.core c])
  quad q := Eq.trans (g.quad q) (by rw [h.quad q])
  page n := Eq.trans (g.page n) (by rw [h.page n])
  arenas := g.arenas.trans h.arenas
  ctx o := Eq.trans (g.ctx o) (by rw [h.ctx o])
  pkg := Eq.trans g.pkg (by rw [h.pkg])
  bytes a ha := (g.bytes a ha).trans (h.bytes a ha)
  full m hm := (g.full m hm).trans (h.full m hm)
  wf := g.wf ∘ h.wf

theorem ite {c : Prop} [Decidable c] (h : Confined p k s t) (g : Confined p k s u) : Confined p k s (if c then t else u) := by
  split
  · exact h
  · exact g

theorem foldl {α : Type} {f : State → α → State} (h : ∀ s a, Confined p k s (f s a)) (l : List α) (s : State) :
    Confined p k s (l.foldl f s) := by
  induction l generalizing s with
  | nil => exact refl p k s
  | cons a l ih => exact (h s a).trans (ih _)

/-- A step that leaves the tables which hold what a program or the device sees, and does to memory and its tags what the footprint allows. -/
theorem of_tables (hcur : t.cur = s.cur) (hslots : t.slots = s.slots) (hcores : t.cores = s.cores) (hquads : t.quads = s.quads)
    (hpages : t.pages = s.pages) (harenas : t.arenas = s.arenas) (hctxs : t.ctxs = s.ctxs) (hpkg : t.pkg = s.pkg)
    (hbytes : ∀ a, a < p.lo ∨ p.lo + p.len ≤ a → readByte t a = readByte s a)
    (hfull : ∀ m, m ≠ p.lo / 8 → t.full.get false m = s.full.get false m) (hwf : Memory.wf s.mem → Memory.wf t.mem) : Confined p k s t := by
  have hslot (j : Nat) : t.slot j = s.slot j := congrArg (fun l : Tab Slot => l.get {} j) hslots
  have hcore (c : Nat) : t.core c = s.core c := congrArg (fun l : Tab CoreSt => l.get (buildCore c) c) hcores
  have hquad (q : Nat) : t.quad q = s.quad q := congrArg (fun l : Tab QuadSt => l.get {} q) hquads
  have hpage (n : Nat) : t.page n = s.page n := congrArg (fun l : Tab Page => l.get {} n) hpages
  have hctx (o : Nat) : t.ctx o = s.ctx o := congrArg (fun l : Tab Ctx => l.get {} o) hctxs
  refine ⟨hcur, ?_, fun _ _ => ?_, fun _ => ?_, fun j _ => hslot j, fun c => ?_, fun q => ?_, fun n => ?_, harenas, fun o => ?_, ?_, hbytes,
    hfull, hwf⟩
  · rw [hslot]; rfl
  · rw [hslot]
  · rw [hslot]
  · rw [hcore]; rfl
  · rw [hquad]; rfl
  · rw [hpage]; rfl
  · rw [hctx]; rfl
  · rw [hpkg]; rfl

/-- A step that leaves these tables, memory and its tags. -/
theorem of_eq (hcur : t.cur = s.cur) (hslots : t.slots = s.slots) (hcores : t.cores = s.cores) (hquads : t.quads = s.quads)
    (hpages : t.pages = s.pages) (harenas : t.arenas = s.arenas) (hctxs : t.ctxs = s.ctxs) (hpkg : t.pkg = s.pkg) (hmem : t.mem = s.mem)
    (hfull : t.full = s.full) : Confined p k s t :=
  of_tables hcur hslots hcores hquads hpages harenas hctxs hpkg (fun a _ => readByte_congr hmem a) (fun _ _ => by rw [hfull]) fun h => hmem ▸ h

/-- A change of the slot's registers and time that keeps to the footprint. -/
theorem modSlot {f : Slot → Slot} (hs : SlotAccessed (s.slot k) (f (s.slot k)))
    (hr : ∀ r, p.reg ≠ some r → (f (s.slot k)).getG r = (s.slot k).getG r)
    (hf : p.float = false → (f (s.slot k)).fflags = (s.slot k).fflags) : Confined p k s (s.modSlot k f) :=
  { refl p k s with
    slot := by rw [State.modSlot_slot]; exact hs
    regs := by rw [State.modSlot_slot]; exact hr
    flags := by rw [State.modSlot_slot]; exact hf
    slots := fun j hj => State.modSlot_slot_ne s f hj }

theorem modTime (s : State) (time : Slot → Time) : Confined p k s (s.modSlot k fun x => { x with tt := time x }) := by
  refine modSlot ?_ (fun _ _ => ?_) fun _ => ?_
  all_goals rfl

theorem modCore (s : State) (j : Nat) {f : CoreSt → CoreSt} (hf : ∀ c, CoreAccessed c (f c)) : Confined p k s (s.modCore j f) :=
  { refl p k s with
    core := fun c => by
      by_cases h : c = j
      · rw [h, State.modCore_core]; exact hf _
      · rw [State.modCore_core_ne _ _ h]; rfl }

theorem modQuad (s : State) (j : Nat) {f : QuadSt → QuadSt} (hf : ∀ q, QuadAccessed q (f q)) : Confined p k s (s.modQuad j f) :=
  { refl p k s with
    quad := fun q => by
      by_cases h : q = j
      · rw [h, State.modQuad_quad]; exact hf _
      · rw [State.modQuad_quad_ne _ _ h]; rfl }

theorem modPage (s : State) (j : Nat) {f : Page → Page} (hf : ∀ x, PageAccessed x (f x)) : Confined p k s (s.modPage j f) :=
  { refl p k s with
    page := fun n => by
      by_cases h : n = j
      · rw [h, State.modPage_page]; exact hf _
      · rw [State.modPage_page_ne _ _ h]; rfl }

theorem modCtx (s : State) (j : Nat) {f : Ctx → Ctx} (hf : ∀ c, CtxAccessed c (f c)) : Confined p k s (s.modCtx j f) :=
  { refl p k s with
    ctx := fun o => by
      by_cases h : o = j
      · rw [h, State.modCtx_ctx]; exact hf _
      · rw [State.modCtx_ctx_ne _ _ h]; rfl }

/-- A confined step neither puts a slot to work nor retires an instruction. -/
theorem stops (h : Confined p k s t) : Stops s t := by
  refine ⟨fun j hj => ?_, h.wf⟩
  by_cases hk : j = k
  · have hs : t.slot k = _ := h.slot
    rw [hk, hs] at hj ⊢
    exact ⟨hj, rfl⟩
  · rw [h.slots j hk] at hj ⊢
    exact ⟨hj, rfl⟩

end Confined

section
variable (p : Footprint) (k : Nat) (s : State)

/-! ### The home of a line -/

theorem setPoison_confined (a : Nat) (bs : List Bool) : Confined p k s (setPoison s a bs) := by
  induction bs generalizing s a with
  | nil => exact .refl p k s
  | cons b t ih =>
    refine .trans (t := { s with poison := s.poison.set false a b }) ?_ (ih _ _)
    exact .of_eq rfl rfl rfl rfl rfl rfl rfl rfl rfl rfl

theorem boxAdd_confined (kind owner unit : Nat) (data : List Byte) : Confined p k s (boxAdd s kind owner unit data) :=
  { Confined.refl p k s with pkg := rfl }

theorem addCount_confined (o : Nat) (f : Ctx → Counts) : Confined p k s (s.modCtx o fun c => { c with counts := f c }) := .modCtx s o fun _ => rfl

theorem fillSector_confined (ln : Nat) (held : BitVec 128) (i : Nat) : Confined p k s (fillSector s ln held i) := by
  unfold fillSector
  dsimp only
  refine .ite (.refl p k s) (.ite (addCount_confined p k s _ _) (.trans ?_ (boxAdd_confined p k _ _ _ _ _)))
  refine .trans ?_ (addCount_confined p k _ _ _)
  exact (addCount_confined p k s _ _).trans (setPoison_confined p k _ _ _)

theorem setLlc_confined (l : Tab LlcLine) : Confined p k s { s with llc := l } := .of_eq rfl rfl rfl rfl rfl rfl rfl rfl rfl rfl

theorem homeFetch_confined (key : Nat) : Confined p k s (homeFetch s key) := by
  unfold homeFetch
  dsimp only
  refine .ite (.refl p k s) ?_
  refine .trans ?_ (setLlc_confined p k _ _)
  exact .foldl (fun s i => fillSector_confined p k s _ _ i) _ s

/-- A counter that asks changes only what has been asked. -/
theorem ask_accessed {x y : Page} (h : PageAccessed x y) (yes : Bool) (which : Nat) : PageAccessed x (y.ask yes which) := by
  unfold Page.ask
  split
  · rw [PageAccessed, h]
  · exact h

theorem addEvent_confined (i : Instr) : Confined p k s { s with agenda := s.agenda ++ [i] } := .of_eq rfl rfl rfl rfl rfl rfl rfl rfl rfl rfl

theorem countAccess_confined (key pkg : Nat) : Confined p k s (countAccess s key pkg) := by
  unfold countAccess
  dsimp only
  refine .ite (.refl p k s) (.ite (.refl p k s) ?_)
  generalize hu : s.modPage _ _ = u
  have h : Confined p k s u := by
    rw [← hu]
    refine .modPage s _ fun x => ?_
    have hown := ask_accessed (x := x) (y := { x with counters := x.counters.put pkg ((s.page (key / 2 ^ 15)).counters.get 0 pkg + 1) }) rfl
    split
    · refine ask_accessed ?_ _ _
      rw [PageAccessed, hown]
    · exact hown _ _
  exact .ite (.ite (h.trans (addEvent_confined p k _ _)) h) (.ite (h.trans (addEvent_confined p k _ _)) h)

theorem homeStore_confined (key n : Nat) : Confined p k s (homeStore s key n) := .ite (.refl p k s) (setLlc_confined p k s _)

theorem keepVersion_confined (w : Option Nat) (key n : Nat) : Confined p k s (keepVersion s w key n) :=
  .ite (.refl p k s) (.of_eq rfl rfl rfl rfl rfl rfl rfl rfl rfl rfl)

theorem dirtyPage_confined (key : Nat) : Confined p k s (dirtyPage s key) := by
  unfold dirtyPage
  dsimp only
  refine .ite (.refl p k s) ?_
  split
  · exact .refl p k s
  · refine .modCtx s _ fun _ => ?_
    rfl

theorem beforeWrite_confined (w : Option Nat) (key n : Nat) : Confined p k s (beforeWrite s w key n) :=
  ((dirtyPage_confined p k s key).trans (keepVersion_confined p k _ w key n)).trans (homeStore_confined p k _ key n)

theorem setLine_confined (n : Nat) (l : Line) : Confined p k s (setLine s n l) := .of_eq rfl rfl rfl rfl rfl rfl rfl rfl rfl rfl

theorem homeBytes_confined (j key n : Nat) : Confined p k s (homeBytes s j key n).2.2 :=
  (countAccess_confined p k s _ _).trans (homeFetch_confined p k _ _)

theorem constHome_confined (j key : Nat) : Confined p k s (constHome s j key).2 :=
  (countAccess_confined p k s _ _).trans (homeFetch_confined p k _ _)

/-! ### The core of the slot, and its quad -/

theorem putCopy_confined (c ln : Nat) (cp : LineCopy) : Confined p k s (s.modCore c fun x => { x with copies := x.copies.put ln cp }) :=
  .modCore s c fun _ => rfl

theorem plbFill_confined (core key o : Nat) (w : Window) (ea : Word) : Confined p k s (plbFill s core key o w ea) := by
  obtain h | ⟨plb, h⟩ := plbFill_setCore s core key o w ea
  · rw [h]
    exact .refl p k s
  · rw [h]
    refine .modCore s core (f := fun c => { c with plb }) fun _ => ?_
    rfl

theorem takeLatch_confined {u : State} {j key : Nat} (h : takeLatch s j key = .ok u) : Confined p k s u := by
  obtain rfl | ⟨b, l, -, rfl⟩ := takeLatch_cases h
  · exact .refl p k _
  · refine .modCore _ _ fun _ => ?_
    rfl

theorem refreshCopy_confined (j key : Nat) : Confined p k s (refreshCopy s j key) := by
  unfold refreshCopy
  dsimp only
  split
  · exact .refl p k s
  · exact .modCore s _ (f := fun c => { c with copies := _ }) fun _ => rfl

theorem fetch_confined (key n ln core : Nat) : Confined p k s (loadBytes.fetch k key n s ln core).2.2 := by
  unfold loadBytes.fetch
  dsimp only
  refine .trans ?_ (.modTime _ _)
  refine .ite (setLine_confined p k s _ _) ?_
  have h := (setLine_confined p k s ln { s.line ln with rts := Time.later (s.line ln).rts (Time.later (s.slot k).tt ((s.line ln).wts + 1) + 16) }).trans
    (putCopy_confined p k _ core ln (lineCopy s ln (s.line ln).wts (Time.later (s.slot k).tt ((s.line ln).wts + 1) + 16) (s.core core).age))
  refine .ite h (h.trans (.modQuad _ _ fun _ => ?_))
  rfl

theorem fromCopy_confined (key n : Nat) (cp : LineCopy) : Confined p k s (loadBytes.fromCopy k key n s cp).2.2 := by
  unfold loadBytes.fromCopy
  dsimp only
  exact .modTime s fun x => Time.later x.tt (cp.wts + 1)

theorem loadBytes_confined (key n : Nat) : Confined p k s (loadBytes s k key n).2.2 := by
  unfold loadBytes
  dsimp only
  split
  · exact fromCopy_confined p k s _ _ _
  · split
    · exact fetch_confined p k s _ _ _ _
    · split
      · exact (putCopy_confined p k s _ _ _).trans (fromCopy_confined p k _ _ _ _)
      · exact ((countAccess_confined p k s _ _).trans (homeFetch_confined p k _ _)).trans (fetch_confined p k _ _ _ _ _)

theorem storeTime_confined (key : Nat) : Confined p k s (storeTime s k key) := by
  unfold storeTime
  exact (setLine_confined p k s _ _).trans (.modTime _ _)

theorem holdConst_confined (j ln : Nat) (e : List Byte × List Bool) : Confined p k s (holdConst s j ln e) := by
  unfold holdConst
  dsimp only
  have h : Confined p k s (s.modCore (coreOf j) fun c => { c with ccopies := c.ccopies.put ln e }) := .modCore s _ fun _ => rfl
  refine .trans (.ite h (h.trans ?_)) (.of_eq rfl rfl rfl rfl rfl rfl rfl rfl rfl rfl)
  exact .modQuad _ _ (f := fun q => { q with ccopies := q.ccopies.put ln e }) fun _ => rfl

theorem sawConst_confined (key n at_ : Nat) : Confined p k s (sawConst s k key n at_) :=
  .modSlot (f := fun x => { x with constSeen := _ }) rfl (fun _ _ => rfl) fun _ => rfl

theorem tick_confined : Confined p k s s.tick.2 := .of_eq rfl rfl rfl rfl rfl rfl rfl rfl rfl rfl

theorem constBytes_confined (key n : Nat) : Confined p k s (constBytes s k key n).2.2 := by
  unfold constBytes
  dsimp only
  refine .trans (.trans ?_ (holdConst_confined p k _ _ _ _)) (sawConst_confined p k _ _ _ _)
  have h := tick_confined p k s
  exact .ite h (h.trans (constHome_confined p k _ _ _))

end

/-! ### Bytes and tags -/

section
variable {p : Footprint} {k : Nat} (s : State)

/-- A write of bytes changes memory and its poison. -/
theorem writeBytes_eq (a : Nat) (bs : List Byte) :
    writeBytes s a bs = { s with mem := (writeBytes s a bs).mem, poison := (writeBytes s a bs).poison } := by
  induction bs generalizing s a with
  | nil => rfl
  | cons b t ih => exact ih _ _

theorem writeBytes_confined {bs : List Byte} (hb : bs.length ≤ p.len) : Confined p k s (writeBytes s p.lo bs) := by
  have h := writeBytes_eq s p.lo bs
  refine .of_tables ?_ ?_ ?_ ?_ ?_ ?_ ?_ ?_ (fun a ha => readByte_writeBytes_out s _ _ a (by omega)) (fun _ _ => ?_) (writeBytes_wf _ _)
  all_goals rw [h]

theorem setFull_confined (b : Bool) : Confined p k s (setFull s p.lo b) :=
  { Confined.refl p k s with full := fun _ hm => Tab.get_set_ne _ _ _ hm }

theorem storeBytes_confined {bs : List Byte} (hb : bs.length ≤ p.len) : Confined p k s (storeBytes s k p.lo bs) := by
  unfold storeBytes
  refine .trans (.trans (.trans (.trans ?_ (beforeWrite_confined p k _ _ _ _)) (storeTime_confined p k _ _)) (writeBytes_confined _ hb))
    (refreshCopy_confined p k _ _ _)
  exact countAccess_confined p k s _ _

/-! ### Registers -/

theorem setG_accessed (x : Slot) (d : Reg) (v : Word) : SlotAccessed x (x.setG d v) := by
  rw [SlotAccessed, setG_eq]

theorem getG_setG_ne (x : Slot) {d r : Reg} (v : Word) (h : r ≠ d) : (x.setG d v).getG r = x.getG r := by
  rw [getG_setG, if_neg h]
  split
  · rename_i hr
    rw [hr]
    rfl
  · rfl

theorem qSet_confined (c q : Nat) (es : List Word) (bad : List Bool) : Confined p k s (qSet s c q es bad) := by
  unfold qSet
  dsimp only
  split
  · exact .modCore s c (f := fun c => { c with queues := _ }) fun _ => rfl
  · exact .modQuad s _ (f := fun y => { y with fifos := _, fifoBad := _ }) fun _ => rfl

theorem writeReg_confined {d : Reg} (hd : p.reg = some d) (v : Word) : Confined p k s (writeReg s k d v) := by
  unfold writeReg
  split
  · exact qSet_confined s _ _ _ _
  · refine .modSlot (setG_accessed _ d v) (fun r hr => getG_setG_ne _ v fun h => hr (by rw [hd, h])) fun _ => ?_
    rw [setG_eq]

theorem readReg_confined (j : Nat) (r : Reg) : Confined p k s (readReg s j r).2 := by
  unfold readReg
  split
  · split
    · exact .refl p k s
    · exact qSet_confined s _ _ _ _
  · exact .refl p k s

theorem readRegs_confined (j : Nat) (rs : List Reg) : Confined p k s (readRegs s j rs).2 := by
  induction rs generalizing s with
  | nil => exact .refl p k s
  | cons r t ih => exact (readReg_confined s j r).trans (ih _)

theorem popped_confined (rs : List Reg) : Confined p k s (popped s rs) := readRegs_confined s s.cur rs

/-- Flags raised by a float operation. -/
theorem addFlags_confined (hk : s.cur = k) (hf : p.float = true) (fl : Flags) : Confined p k s (addFlags s fl) := by
  rw [addFlags, State.modMe, hk]
  refine .modSlot ?_ (fun _ _ => ?_) fun h => ?_
  · rfl
  · rfl
  · rw [hf] at h
    cases h

end

end Sys2Proof.Machine
end

section
/-! The frame of the instructions with one access to memory (R135 to R142, R156). -/

namespace Sys2Proof.Machine
open Sys2Proof.Safety

/-! ### Results that keep to a footprint -/

/-- What a stop has left has put no slot to work and retired nothing. -/
def Stop.Leaves (s : State) : Stop → Prop
  | .fault _ left | .poll _ left | .block _ (some left) => Stops s left
  | _ => True

/-- A result whose value has a property, or a stop that leaves nothing done. -/
def Leads {α : Type} (s : State) (P : α → Prop) : Except Stop α → Prop
  | .ok a => P a
  | .error e => e.Leaves s

section
variable {α β : Type} {s : State} {P : α → Prop} {Q : β → Prop}

theorem leads_bind {x : Except Stop α} {f : α → Except Stop β} (hx : Leads s P x) (hf : ∀ a, P a → Leads s Q (f a)) : Leads s Q (x >>= f) := by
  cases x with
  | error e => exact hx
  | ok a => exact hf a hx

theorem leads_mono {P' : α → Prop} {x : Except Stop α} (hx : Leads s P x) (h : ∀ a, P a → P' a) : Leads s P' x := by
  cases x with
  | error e => exact hx
  | ok a => exact h a hx

/-- A trap behind an access leaves what the access has done. -/
theorem leads_behind {t : State} {x : Except Stop α} (hx : Leads s P x) (ht : Stops s t) : Leads s P (x.mapError (Stop.behind t)) := by
  cases x with
  | ok a => exact hx
  | error e =>
    cases e with
    | trap e => exact ht
    | _ => exact hx

end

/-- The key of a check is that of the address in its window. -/
theorem checkAccess_key {s : State} {k node n key : Nat} {extra : List Nat} {ea : Word} {align : Bool} {need : BitVec 4}
    (h : checkAccess s k node extra ea n align need = .ok key) : ∃ w, window s k ea = some w ∧ key = w.key ea := by
  unfold checkAccess at h
  split at h
  · cases h
  · rename_i w hw
    refine ⟨w, hw, ?_⟩
    dsimp only at h
    repeat' split at h
    all_goals cases h
    all_goals rfl

theorem check_key {s : State} {k n key : Nat} {ea : Word} {need : BitVec 4} (h : check s k ea n need = .ok key) :
    ∃ w, window s k ea = some w ∧ key = w.key ea := by
  unfold check at h
  split at h
  · rename_i hc
    cases h
    exact checkAccess_key hc
  · cases h

/-- What a step of the current slot with an access at an address may do: change a general register, FFLAGS, and as many bytes at the address. -/
def AccessAt (reg : Option Reg) (float : Bool) (len : Nat) (ea : Word) (s t : State) : Prop :=
  ∃ w, window s s.cur ea = some w ∧ Confined ⟨reg, float, w.key ea, len⟩ s.cur s t

theorem check_leads (s t : State) (ea : Word) (n : Nat) (need : BitVec 4) :
    Leads t (fun key => ∃ w, window s s.cur ea = some w ∧ key = w.key ea) (check s s.cur ea n need) := by
  cases h : check s s.cur ea n need with
  | ok key => exact check_key h
  | error e =>
    unfold check at h
    split at h
    · cases h
    · cases h
      trivial

theorem takeLatch_leads (p : Footprint) (s t : State) (k j key : Nat) : Leads t (fun u => Confined p k s u) (takeLatch s j key) := by
  cases h : takeLatch s j key with
  | ok u => exact takeLatch_confined p k s h
  | error e =>
    unfold takeLatch at h
    repeat' split at h
    all_goals cases h
    trivial

/-! ### Accesses (R135, R136, R139) -/

theorem loadRun_leads (reg : Option Reg) (float : Bool) (len : Nat) (s : State) (ea : Word) (n : Nat) :
    Leads s (fun r => AccessAt reg float len ea s r.2) (loadRun s ea n) := by
  unfold loadRun
  refine leads_bind (check_leads s s ea n rR) ?_
  rintro key ⟨w, hw, rfl⟩
  split
  · trivial
  refine leads_bind (takeLatch_leads ⟨reg, float, w.key ea, len⟩ s s s.cur _ _) fun l hl => ?_
  have h := (hl.trans (plbFill_confined _ _ l s.myCore (w.key ea) s.owner ((window s s.cur ea).getD .global) ea)).trans
    (loadBytes_confined _ _ _ (w.key ea) n)
  dsimp only
  split
  · exact h.stops
  · exact ⟨w, hw, h⟩

theorem loadAt_leads (reg : Option Reg) (float : Bool) (len : Nat) (s : State) (ea : Word) (n : Nat) :
    Leads s (fun r => AccessAt reg float len ea s r.2) (loadAt s ea n) :=
  leads_bind (loadRun_leads reg float len s ea n) fun _ h => h

theorem storeAt_leads (reg : Option Reg) (float : Bool) (s : State) (ea : Word) (n : Nat) (v : Word) :
    Leads s (fun t => AccessAt reg float n ea s t) (storeAt s ea n v) := by
  unfold storeAt
  refine leads_bind (check_leads s s ea n rW) ?_
  rintro key ⟨w, hw, rfl⟩
  split
  · trivial
  refine leads_bind (takeLatch_leads ⟨reg, float, w.key ea, n⟩ s s s.cur _ _) fun l hl => ?_
  have h := hl.trans (plbFill_confined _ _ l s.myCore (w.key ea) s.owner ((window s s.cur ea).getD .global) ea)
  exact ⟨w, hw, h.trans (storeBytes_confined _ (by rw [length_leBytes]))⟩

/-- The function of a read-modify-write keeps to the footprint. -/
theorem updateAt_leads (reg : Option Reg) (float : Bool) (s : State) (ea : Word) (n : Nat)
    {f : Word → State → Except Stop (Option Word × State)}
    (hf : ∀ p old t, p.float = float → Confined p s.cur s t → Leads s (fun r => Confined p s.cur t r.2) (f old t)) :
    Leads s (fun r => AccessAt reg float n ea s r.2) (updateAt s ea n f) := by
  unfold updateAt
  refine leads_bind (check_leads s s ea n _) ?_
  rintro key ⟨w, hw, rfl⟩
  split
  · trivial
  refine leads_bind (takeLatch_leads ⟨reg, float, w.key ea, n⟩ s s s.cur _ _) fun l hl => ?_
  have h := (hl.trans (plbFill_confined _ _ l s.myCore (w.key ea) s.owner ((window s s.cur ea).getD .global) ea)).trans
    (homeBytes_confined _ _ _ s.cur (w.key ea) n)
  dsimp only
  split
  · exact h.stops
  refine leads_bind (leads_behind (hf _ _ _ rfl h) h.stops) fun r hr => ?_
  obtain ⟨new, t⟩ := r
  have h := h.trans hr
  cases new with
  | none => exact ⟨w, hw, h.trans (storeTime_confined _ _ _ _)⟩
  | some v =>
    have h := (h.trans (beforeWrite_confined _ _ t (some s.cur) (w.key ea) n)).trans (storeTime_confined _ _ _ (w.key ea))
    exact ⟨w, hw, h.trans (writeBytes_confined _ (by rw [length_leBytes]))⟩

theorem feKey_leads (s t : State) (ea : Word) (n : Nat) :
    Leads t (fun key => ∃ w, window s s.cur ea = some w ∧ key = w.key ea) (feKey s s.cur ea n) := by
  unfold feKey
  split
  · exact check_leads s t ea n rR
  · trivial

/-! ### Bodies (R137 to R142, R156) -/

theorem give_leads {d : Reg} {float : Bool} {len : Nat} {ea : Word} {s t : State} (h : AccessAt (some d) float len ea s t) (v : Word) :
    Leads s (fun r => AccessAt (some d) float len ea s r.1 ∧ r.2 = .fall) (give t d v) := by
  obtain ⟨w, hw, h⟩ := h
  refine ⟨⟨w, hw, h.trans ?_⟩, rfl⟩
  rw [h.cur]
  exact writeReg_confined t rfl v

theorem loadTo_leads (s : State) (ty : IntTy) (d : Reg) (ea : Word) :
    Leads s (fun r => AccessAt (some d) false 0 ea s r.1 ∧ r.2 = .fall) (loadTo s ty d ea) :=
  leads_bind (loadAt_leads _ _ _ s ea ty.bytes) fun _ h => give_leads h _

theorem loadConst_leads (s : State) (ty : IntTy) (d : Reg) (ea : Word) :
    Leads s (fun r => AccessAt (some d) false 0 ea s r.1 ∧ r.2 = .fall) (loadConst s ty d ea) := by
  unfold loadConst
  refine leads_bind (check_leads s s ea _ rR) ?_
  rintro key ⟨w, hw, rfl⟩
  split
  · exact loadTo_leads s ty d ea
  split
  · trivial
  have h := (plbFill_confined ⟨some d, false, w.key ea, 0⟩ s.cur s s.myCore (w.key ea) s.owner ((window s s.cur ea).getD .global) ea).trans
    (constBytes_confined _ _ _ (w.key ea) ty.bytes)
  dsimp only
  split
  · exact h.stops
  · exact give_leads ⟨w, hw, h⟩ _

theorem takeFull_leads (s : State) (ty : IntTy) (keep : Bool) (d : Reg) (ea : Word) :
    Leads s (fun r => AccessAt (some d) false 0 ea s r.1 ∧ r.2 = .fall) (takeFull s ty keep d ea) := by
  unfold takeFull
  refine leads_bind (feKey_leads s s ea _) ?_
  rintro key ⟨w, hw, rfl⟩
  refine leads_bind (takeLatch_leads ⟨some d, false, w.key ea, 0⟩ s s s.cur _ _) fun l hl => ?_
  split
  · exact hl.stops
  split
  · trivial
  rw [hl.cur]
  have h := hl.trans (storeTime_confined _ _ l (w.key ea))
  refine give_leads ⟨w, hw, .ite h (h.trans (setFull_confined _ false))⟩ _

theorem putFull_leads (s : State) (ty : IntTy) (ovr : Bool) (ea v : Word) :
    Leads s (fun r => AccessAt none false ty.bytes ea s r.1 ∧ r.2 = .fall) (putFull s ty ovr ea v) := by
  unfold putFull
  refine leads_bind (feKey_leads s s ea _) ?_
  rintro key ⟨w, hw, rfl⟩
  refine leads_bind (takeLatch_leads ⟨none, false, w.key ea, ty.bytes⟩ s s s.cur _ _) fun l hl => ?_
  split
  · exact hl.stops
  · rw [hl.cur]
    have h := hl.trans (storeBytes_confined l (bs := leBytes ty.bytes v.toNat) (by rw [length_leBytes]))
    exact ⟨⟨w, hw, h.trans (setFull_confined _ true)⟩, rfl⟩

theorem needCapture_leads (s t : State) (rnd : Rnd) : Leads s (fun _ => True) (needCapture t rnd) := by
  unfold needCapture
  split <;> trivial

theorem raiseFlags_leads (s t : State) (fl : Flags) : Leads s (fun u => u = addFlags t fl) (raiseFlags t fl) := by
  unfold raiseFlags
  split
  · trivial
  · rfl

theorem amoNew_leads {s t : State} (hs : s.me.chk = 0) (op : AmoOp) (ty : IntTy) (c old : Word) {p : Footprint} (hp : p.float = (op == .fadd))
    (h : Confined p s.cur s t) : Leads s (fun r => Confined p s.cur t r.2) (amoNew op ty c old t) := by
  unfold amoNew
  split
  · refine leads_bind (P := fun _ => True) (needCapture_leads s t _) fun k _ => ?_
    generalize f32.add k 0 0 (lowBits f32 old) (lowBits f32 c) = r
    obtain ⟨r, fl⟩ := r
    have hchk : t.me.chk = 0 := by
      have hslot : t.slot s.cur = _ := h.slot
      rw [State.me, h.cur, hslot]
      exact hs
    refine leads_bind (raiseFlags_leads s t fl) ?_
    rintro u rfl
    rw [hchk, if_neg (by decide)]
    exact addFlags_confined t h.cur hp fl
  · exact .refl _ _ _

theorem amoTo_leads {s : State} (hs : s.me.chk = 0) (op : AmoOp) (ty : IntTy) (d : Reg) (ea c : Word) :
    Leads s (fun r => AccessAt (some d) (op == .fadd) ty.bytes ea s r.1 ∧ r.2 = .fall) (amoTo s op ty d ea c) :=
  leads_bind (updateAt_leads (some d) (op == .fadd) s ea _ fun _ _ _ hp h => amoNew_leads hs op ty c _ hp h) fun _ h => give_leads h _

theorem placeEa_leads (s : State) (a b : Word) (i : Imm) : Leads s (fun ea => placeEa a b i = .ok ea) (placeEa a b i) := by
  cases h : placeEa a b i with
  | ok ea => rfl
  | error e =>
    unfold placeEa at h
    dsimp only at h
    repeat' split at h
    all_goals cases h
    all_goals trivial

theorem wakeRoom_leads (s t : State) (wk : Bool) (a : Word) : Leads s (fun _ => True) (wakeRoom t wk a) := by
  unfold wakeRoom
  repeat' split
  all_goals trivial

theorem wakePlace_false (s : State) (a : Word) : wakePlace s false a = s := by
  unfold wakePlace
  split <;> rfl

theorem casAt_leads (s : State) (ty : IntTy) (d : Reg) (ea b c : Word) :
    Leads s (fun r => AccessAt (some d) false ty.bytes ea s r.2) (updateAt s ea ty.bytes fun old s =>
      .ok (if old.setWidth ty.bits = b.setWidth ty.bits then some c else none, s)) :=
  updateAt_leads (some d) false s ea _ fun _ _ _ _ _ => .refl _ _ _

/-! ### The issue of an instruction outside a checked pair -/

theorem unpop_stops {s left : State} (h : Stops s left) (k : Nat) (rs : List Reg) : Stops s (unpop s left k rs) := by
  refine h.trans (.of_eq ?_ (unpop_mem _ _ _ _))
  unfold unpop
  exact foldl_keeps State.slots (fun _ _ => qSet_slots _ _ _ _ _) _ left

theorem pathWait_stops (s : State) (k : Nat) (ea : Word) (need : BitVec 4) : Stops s (pathWait s k ea need) :=
  .trans (.modSlot s k (f := fun x => { x with touch := some (ea, need) }) fun _ h => ⟨h, rfl⟩) (holdSlot_stops _ _)

/-- What the issue of an instruction outside a checked pair comes to: it does not complete; or its guard is false; or its body has given a
state, with which it goes on. -/
theorem issue_leads {op : Op} {body : List Word → State → Res} {s t : State} {P : State × Next → Prop} (hu : unpaired s = true)
    (hb : Leads (popped s op.srcs) P (body (operands s op.srcs) (popped s op.srcs))) (he : issue op body s = .next t) :
    Stops s t ∨ t = finish s s.cur op.i.bytes 1 .fall ∨ ∃ u n lat, P (u, n) ∧ t = finish u s.cur op.i.bytes lat n := by
  have hp : Stops s (popped s op.srcs) := .of_eq (popped_slots _ _) (popped_mem _ _)
  unfold issue at he
  dsimp only at he
  split at he
  · cases he
    exact .inl (raise_stops _ _ _)
  split at he
  · cases he
    exact .inl (consume_stops _ _)
  split at he
  · cases he
    exact .inr (.inl rfl)
  split at he
  · cases he
    exact .inl (holdSlot_stops _ _)
  rw [if_pos (by simp [show s.me.chk = 0 by simpa [unpaired] using hu])] at he
  cases he
  unfold perform
  split
  · exact .inl (consume_stops _ _)
  split
  · exact .inl (blockOn_stops (.refl _) _ _ _)
  split
  · exact .inl (consume_stops _ _)
  split
  · exact .inl (blockOn_stops (.refl _) _ _ _)
  dsimp only
  rw [operands, popped] at hb
  split
  all_goals rename_i hr
  all_goals rw [hr] at hb
  · exact .inr (.inr ⟨_, _, _, hb, rfl⟩)
  · exact .inl (raiseOp_stops _ _ _ _)
  · exact .inl ((unpop_stops (hp.trans hb) _ _).trans (raiseOp_stops _ _ _ _))
  · rename_i w left
    refine .inl (blockOn_stops ?_ _ _ _)
    cases left with
    | none => exact .refl s
    | some u => exact hp.trans hb
  · exact .inl ((unpop_stops (hp.trans hb) _ _).trans (blockOn_stops (.refl _) _ _ _))
  · exact .inl (holdSlot_stops _ _)
  · exact .inl (pathWait_stops _ _ _ _)
  · refine .inl (.trans (t := reserveLatch s s.cur _) ?_ (holdSlot_stops _ _))
    exact (modCore_stops _ _ _).trans (.modSlot _ _ fun _ h => ⟨h, rfl⟩)

/-! ### The frame -/

/-- Each of these instructions issues a body that makes its access and goes on to the next instruction. -/
theorem exec_access {i : Instr} {srcs : List Reg} {f : List Word → Except Stop Word} {n : Nat} {d : Option Reg} {store : Bool}
    (ha : accessOf i = some (srcs, f, n, d, store)) (s : State) : ∃ h pair body, exec i s = issue { i, h, srcs, dst := d, pair } body s ∧
      ∀ v u, u.me.chk = 0 → Leads u (fun r => (∃ ea, f v = .ok ea ∧ AccessAt d (addsFloat i) (if store then n else 0) ea u r.1) ∧ r.2 = .fall)
        (body v u) := by
  have hat {P : Word → State → Prop} {v : List Word} {u : State} {ea : Word} {x : Res} (hf : f v = .ok ea)
      (hx : Leads u (fun r => P ea r.1 ∧ r.2 = .fall) x) : Leads u (fun r => (∃ ea, f v = .ok ea ∧ P ea r.1) ∧ r.2 = .fall) x :=
    leads_mono hx fun r hr => ⟨⟨ea, hf, hr.1⟩, hr.2⟩
  cases i
  case rst h wk ty a b i c =>
    cases wk <;> cases ha
    refine ⟨_, _, _, rfl, fun v u _ => leads_bind (placeEa_leads u _ _ _) fun ea he => hat he ?_⟩
    refine leads_bind (check_leads u u ea _ _) fun _ _ => leads_bind (wakeRoom_leads u u _ _) fun _ _ => ?_
    refine leads_bind (storeAt_leads none false u ea _ _) fun t ht => ?_
    rw [wakePlace_false]
    exact ⟨ht, rfl⟩
  case ramo h op wk ty d a b i c =>
    cases wk <;> cases ha
    refine ⟨_, _, _, rfl, fun v u hu => leads_bind (placeEa_leads u _ _ _) fun ea he => hat he ?_⟩
    refine leads_bind (check_leads u u ea _ _) fun _ _ => leads_bind (wakeRoom_leads u u _ _) fun _ _ => ?_
    refine leads_bind (amoTo_leads hu op ty d ea _) fun r hr => ?_
    obtain ⟨t, n⟩ := r
    dsimp only
    rw [wakePlace_false]
    exact hr
  all_goals cases ha
  case ld => exact ⟨_, _, _, rfl, fun v u _ => hat rfl (loadTo_leads u _ _ _)⟩
  case ldc => exact ⟨_, _, _, rfl, fun v u _ => hat rfl (loadConst_leads u _ _ _)⟩
  case ldfe => exact ⟨_, _, _, rfl, fun v u _ => hat rfl (takeFull_leads u _ _ _ _)⟩
  case rld => exact ⟨_, _, _, rfl, fun v u _ => leads_bind (placeEa_leads u _ _ _) fun ea he => hat he (loadTo_leads u _ _ _)⟩
  case st => exact ⟨_, _, _, rfl, fun v u _ => hat rfl (leads_bind (storeAt_leads none false u _ _ _) fun t ht => ⟨ht, rfl⟩)⟩
  case stfe => exact ⟨_, _, _, rfl, fun v u _ => hat rfl (putFull_leads u _ _ _ _)⟩
  case amo => exact ⟨_, _, _, rfl, fun v u hu => hat rfl (amoTo_leads hu _ _ _ _ _)⟩
  case cas => exact ⟨_, _, _, rfl, fun v u _ => hat rfl (leads_bind (casAt_leads u _ _ _ _ _) fun r hr => give_leads hr _)⟩

/-- Where such an instruction completes, a state within its footprint goes on to the next instruction; the footprint lies at the address that
it accesses. -/
theorem access_completed {i : Instr} {srcs : List Reg} {f : List Word → Except Stop Word} {n : Nat} {d : Option Reg} {store : Bool}
    {s t : State} (ha : accessOf i = some (srcs, f, n, d, store)) (hu : unpaired s = true) (he : exec i s = .next t)
    (hr : (t.slot s.cur).retired = s.me.retired + 1) (hrun : (t.slot s.cur).running = true) :
    ∃ u lat, t = finish u s.cur i.bytes lat .fall ∧ (∃ lo, Confined ⟨d, addsFloat i, lo, if store then n else 0⟩ s.cur s u) ∧
      ∀ ea w, f (operands s srcs) = .ok ea → window (popped s srcs) s.cur ea = some w →
        Confined ⟨d, addsFloat i, w.key ea, if store then n else 0⟩ s.cur s u := by
  obtain ⟨h, pair, body, hexec, hb⟩ := exec_access ha s
  rw [hexec] at he
  have hchk : (popped s srcs).me.chk = 0 := by simpa [unpaired] using hu
  obtain hstop | rfl | ⟨u, nx, lat, ⟨⟨ea, hea, w, hw, hc⟩, rfl⟩, rfl⟩ := issue_leads hu (hb _ _ hchk) he
  · exact absurd hstop (not_stops_of_retired hr hrun)
  · exact ⟨s, 1, rfl, ⟨0, .refl _ _ _⟩, fun _ _ _ _ => .refl _ _ _⟩
  · rw [popped_cur] at hw hc
    have hc := (popped_confined s srcs).trans hc
    refine ⟨u, lat, rfl, ⟨_, hc⟩, fun ea' w' hea' hw' => ?_⟩
    cases hea.symm.trans hea'
    cases hw.symm.trans hw'
    exact hc

/-- What the slot keeps that goes on. -/
theorem finish_slotKept {p : Footprint} {s u : State} (h : Confined p s.cur s u) (len lat : Nat) :
    SlotKept { s.me with tt := ((finish u s.cur len lat .fall).slot s.cur).tt } ((finish u s.cur len lat .fall).slot s.cur) := by
  have hslot : u.slot s.cur = _ := h.slot
  unfold finish
  rw [State.modSlot_slot, hslot]
  unfold SlotKept
  repeat' constructor

end Sys2Proof.Machine

namespace Sys2Proof.Safety
open Sys2Proof.Machine

/-- Settles O10: where the slot goes on with one instruction more retired, the instruction has made its access or its guard was false, and an
access changes no more than its footprint. -/
theorem memoryFrame : Obligations.MemoryFrame := by
  unfold Obligations.MemoryFrame
  intro i srcs f n d store s t ha hu he hr hrun
  obtain ⟨u, lat, rfl, ⟨lo, hc⟩, hat⟩ := access_completed ha hu he hr hrun
  have hme : (finish u s.cur i.bytes lat .fall).slot s.cur = _ := State.modSlot_slot u s.cur _
  refine ⟨finish_slotKept hc _ _, fun hf => ?_, fun k hk => ?_, fun r hd => ?_, hc.core, hc.quad, hc.page, hc.arenas, hc.ctx, hc.pkg, fun hs a => ?_,
    fun ea w hea hw => ?_⟩
  · rw [hme]
    exact hc.flags hf
  · exact (State.modSlot_slot_ne u _ hk).trans (hc.slots k hk)
  · rw [hme]
    exact hc.regs r hd
  · refine hc.bytes a ?_
    rw [hs]
    exact Nat.lt_or_ge a lo
  · have h := hat ea w hea hw
    refine ⟨fun a ha => h.bytes a ?_, h.full⟩
    dsimp only
    split <;> omega

end Sys2Proof.Safety
end

section
/-! Scratch memory: its loads, stores and atomics (R137, R139, R140, R156, R261, R278). -/

namespace Sys2Proof.Machine
open Sys2Proof.Safety

/-! ### Bytes of a number (R7) -/

/-- Each byte of a number is its own eight bits. -/
theorem getElem_leBytes {n v i : Nat} (h : i < (leBytes n v).length) : (leBytes n v)[i] = BitVec.ofNat 8 (v / 2 ^ (8 * i)) := by
  induction n generalizing v i with
  | zero => cases h
  | succ n ih =>
    cases i with
    | zero => simp [leBytes]
    | succ i =>
      have hp : 256 * 2 ^ (8 * i) = 2 ^ (8 * (i + 1)) := by rw [show 8 * (i + 1) = 8 + 8 * i by omega, Nat.pow_add]
      simp only [leBytes, List.getElem_cons_succ, ih, Nat.div_div_eq_div_mul, hp]

theorem leWord_readBytes (s : State) (key n : Nat) : leWord (readBytes s key n) = leNat n (readBytes s key n) := by
  rw [leWord, length_readBytes]

theorem leNat_readBytes_writeBytes (s : State) (key n v : Nat) :
    leNat n (readBytes (writeBytes s key (leBytes n v)) key n) = v % 2 ^ (8 * n) := by
  have h := readBytes_writeBytes s key (leBytes n v)
  rw [length_leBytes] at h
  rw [h, leNat_leBytes, Nat.pow_mul]

/-! ### Scratch memory: what stands at the home of its lines alone, and on no path (R134, R138, R270, R329, R332, R337) -/

section
variable {key : Nat} (h : isScratchKey key = true)
include h

theorem scratchKey_le : 2 ^ 56 ≤ key := by simpa [isScratchKey] using h

theorem pathBusy_scratch (s : State) : pathBusy s key = false := by
  have hk := scratchKey_le h
  rw [pathBusy, pageBusy, if_pos hk, stackBusy, decide_eq_false (Nat.not_lt.2 hk)]
  rfl

theorem ownershipHeld_scratch (s : State) : ownershipHeld s key = false := by
  have hk : 2 ^ 55 ≤ key := by have := scratchKey_le h; omega
  rw [ownershipHeld, inDevBias, decide_eq_true hk]
  rfl

theorem plbFill_scratch (s : State) (c o : Nat) (w : Window) (ea : Word) : plbFill s c key o w ea = s := if_pos (scratchKey_le h)
theorem homeFetch_scratch (s : State) : homeFetch s key = s := if_pos (scratchKey_le h)
theorem homeStore_scratch (s : State) (n : Nat) : homeStore s key n = s := if_pos (scratchKey_le h)
theorem dirtyPage_scratch (s : State) : dirtyPage s key = s := if_pos (scratchKey_le h)
theorem keepVersion_scratch (s : State) (w : Option Nat) (n : Nat) : keepVersion s w key n = s := if_pos h
theorem countAccess_scratch (s : State) (p : Nat) : countAccess s key p = s := if_pos (by have := scratchKey_le h; omega)

theorem beforeWrite_scratch (s : State) (w : Option Nat) (n : Nat) : beforeWrite s w key n = s := by
  rw [beforeWrite, dirtyPage_scratch h, keepVersion_scratch h, homeStore_scratch h]

theorem homeBytes_scratch (s : State) (k n : Nat) : homeBytes s k key n = (readBytes s key n, poisoned s key n, s) := by
  simp only [homeBytes, countAccess_scratch h, homeFetch_scratch h]

/-- A load from scratch memory that finds no copy reads the home (R261, R263). -/
theorem loadBytes_scratch {s : State} {k : Nat} (hc : (s.core (coreOf k)).copies.find? (lineOf key) = none) (n : Nat) :
    loadBytes s k key n = loadBytes.fetch k key n s (lineOf key) (coreOf k) := by
  unfold loadBytes
  simp only [hc, h, Option.filter_none, if_true]

/-- What the read of a home gives: the bytes that stand there, under a time behind the last store to the line (R261). -/
theorem fetch_scratch (s : State) (k n ln core : Nat) : ∃ u, loadBytes.fetch k key n s ln core = (readBytes s key n, poisoned s key n, u) ∧
    u.cur = s.cur ∧ u.mem = s.mem ∧ (u.slot k).tt = Time.later (s.slot k).tt ((s.line ln).wts + 1) := by
  refine ⟨_, rfl, ?_, ?_, ?_⟩
  · simp [h, setLine]
  · simp [h, setLine]
  · simp [h]

end

/-- Taking a latch leaves the times of the lines and the copies of the cores. -/
theorem takeLatch_line {s u : State} {k key : Nat} (h : takeLatch s k key = .ok u) (ln : Nat) : u.line ln = s.line ln := by
  obtain rfl | ⟨_, _, _, rfl⟩ := takeLatch_cases h <;> rfl

theorem takeLatch_copies {s u : State} {k key : Nat} (h : takeLatch s k key = .ok u) (c : Nat) : (u.core c).copies = (s.core c).copies := by
  obtain rfl | ⟨_, _, _, rfl⟩ := takeLatch_cases h
  · rfl
  · by_cases hc : c = coreOf k
    · rw [hc, State.modCore_core]
    · rw [State.modCore_core_ne _ _ hc]

/-- The state behind a load from scratch memory whose line no copy of the core holds (R261). -/
theorem loadAt_scratch {s l : State} {ea : Word} {n key : Nat} (hc : check s s.cur ea n rR = .ok key) (hk : isScratchKey key = true)
    (hl : takeLatch s s.cur key = .ok l) (hcopy : (s.core s.myCore).copies.find? (lineOf key) = none) (hp : anyPoison s key n = false) :
    ∃ u, loadAt s ea n = .ok (BitVec.ofNat 64 (leNat n (readBytes s key n)), u) ∧ u.cur = s.cur ∧ u.mem = s.mem ∧
      (u.slot s.cur).tt = Time.later s.me.tt ((s.line (lineOf key)).wts + 1) := by
  obtain ⟨hlcur, hlslots, -, hlmem, -, -, hlp⟩ := takeLatch_same hl
  rw [← takeLatch_copies hl, State.myCore] at hcopy
  obtain ⟨u, hu, hcur, hmem, htt⟩ := fetch_scratch hk l s.cur n (lineOf key) (coreOf s.cur)
  rw [← loadBytes_scratch hk hcopy] at hu
  have hrun : loadRun s ea n = .ok (readBytes l key n, u) := by
    refine (bind_of_ok hc _).trans ?_
    rw [pathBusy_scratch hk, Bool.false_and, if_neg Bool.false_ne_true]
    refine (bind_of_ok hl _).trans ?_
    rw [plbFill_scratch hk, hu]
    exact if_neg (by rw [← anyPoison, hlp, hp]; exact Bool.false_ne_true)
  refine ⟨u, ?_, hcur.trans hlcur, hmem.trans hlmem, ?_⟩
  · rw [← readBytes_congr hlmem, ← leWord_readBytes]
    exact bind_of_ok hrun _
  · rw [htt, takeLatch_line hl, State.slot, hlslots]
    rfl

/-- A store to scratch memory is the write of its bytes, behind the latch. -/
theorem storeAt_scratch {s l : State} {ea : Word} {n key : Nat} (v : Word) (hc : check s s.cur ea n rW = .ok key)
    (hk : isScratchKey key = true) (hl : takeLatch s s.cur key = .ok l) :
    storeAt s ea n v = .ok (storeBytes l s.cur key (leBytes n v.toNat)) := by
  refine (bind_of_ok hc _).trans ?_
  rw [pathBusy_scratch hk, ownershipHeld_scratch hk, Bool.or_self, if_neg Bool.false_ne_true]
  refine (bind_of_ok hl _).trans ?_
  rw [plbFill_scratch hk]

theorem refreshCopy_slots (s : State) (k key : Nat) : (refreshCopy s k key).slots = s.slots := by
  unfold refreshCopy
  dsimp only
  split <;> rfl

/-- The time of a thread that stores to scratch memory (R261). -/
theorem storeBytes_scratch_tt {key : Nat} (hk : isScratchKey key = true) (s : State) (k : Nat) (bs : List Byte) :
    ((storeBytes s k key bs).slot k).tt = Time.later (s.slot k).tt (s.line (lineOf key)).rts := by
  unfold storeBytes
  rw [State.slot, refreshCopy_slots, (writeBytes_endKeeps _ _ _).slots, countAccess_scratch hk, beforeWrite_scratch hk]
  exact congrArg Slot.tt (State.modSlot_slot _ _ _)

theorem storeBytes_cur (s : State) (k key : Nat) (bs : List Byte) : (storeBytes s k key bs).cur = s.cur :=
  (storeBytes_confined (p := ⟨none, false, key, bs.length⟩) s (Nat.le_refl _)).cur

/-- A byte behind a store: one of the number that has been stored, or as before. -/
theorem readByte_storeBytes (s : State) (k key n v a : Nat) : readByte (storeBytes s k key (leBytes n v)) a =
    if key ≤ a ∧ a < key + n then BitVec.ofNat 8 (v / 2 ^ (8 * (a - key))) else readByte s a := by
  rw [readByte_congr (storeBytes_mem s k key _)]
  split
  · rename_i h
    have hi : a - key < (leBytes n v).length := by rw [length_leBytes]; omega
    have hr := readByte_writeBytes_in s key (leBytes n v) (a - key) hi
    rw [show key + (a - key) = a by omega, getElem_leBytes hi] at hr
    exact hr
  · rename_i h
    exact readByte_writeBytes_out s key _ a (by rw [length_leBytes]; omega)

/-- Settles O24: a scratch key is on no path and in no page, so that behind the check and the latch only the read or the write of the home is
left. -/
theorem scratchLoadsAndStores : Obligations.ScratchLoadsAndStores := by
  unfold Obligations.ScratchLoadsAndStores
  intro s l ea v n key hc hk hl hcopy
  refine ⟨fun hp => ?load, fun hw => ?store⟩
  case load =>
    obtain ⟨u, hu, hcur, hmem, htt⟩ := loadAt_scratch hc hk hl hcopy hp
    exact ⟨u, hu, by rw [State.me, hcur, htt], readByte_congr hmem⟩
  case store =>
    obtain ⟨hlcur, hlslots, -, hlmem, -⟩ := takeLatch_same hl
    refine ⟨_, storeAt_scratch v hw hk hl, ?_, fun a => ?_⟩
    · rw [State.me, storeBytes_cur, hlcur, storeBytes_scratch_tt hk, takeLatch_line hl, State.slot, hlslots]
      rfl
    · rw [readByte_storeBytes, readByte_congr hlmem]

/-! ### Atomics (R139, R140, R156) -/

theorem amoTo_of_updateAt {s u : State} {op : AmoOp} {ty : IntTy} {ea c old : Word}
    (h : updateAt s ea ty.bytes (amoNew op ty c) = .ok (old, u)) (d : Reg) :
    amoTo s op ty d ea c = .ok (writeReg u u.cur d (ty.val old), .fall) := bind_of_ok h _

/-- An operation on integers gives its combination and leaves the state. -/
theorem amoNew_int {op : AmoOp} (h : op ≠ .fadd) (ty : IntTy) (c old : Word) (s : State) :
    amoNew op ty c old s = .ok (some (amoInt op ty old c), s) := by
  cases op
  case fadd => exact absurd rfl h
  all_goals rfl

/-- A read-modify-write of a scratch word without poison whose function only combines: the old value, and the combination in its place. -/
theorem updateAt_scratch {s l : State} {ea : Word} {n key : Nat} {f : Word → State → Except Stop (Option Word × State)} {g : Word → Word}
    (hf : ∀ old t, f old t = .ok (some (g old), t)) (hc : check s s.cur ea n (rR ||| rW) = .ok key) (hk : isScratchKey key = true)
    (hl : takeLatch s s.cur key = .ok l) (hp : anyPoison s key n = false) :
    ∃ old u, updateAt s ea n f = .ok (old, u) ∧ old = BitVec.ofNat 64 (leNat n (readBytes s key n)) ∧
      leNat n (readBytes u key n) = (g old).toNat % 2 ^ (8 * n) := by
  obtain ⟨-, -, -, hmem, -, -, hlp⟩ := takeLatch_same hl
  refine ⟨BitVec.ofNat 64 (leWord (readBytes l key n)), _, ?_, by rw [leWord_readBytes, readBytes_congr hmem],
    leNat_readBytes_writeBytes (storeTime l s.cur key) key n _⟩
  refine (bind_of_ok hc _).trans ?_
  rw [pathBusy_scratch hk, ownershipHeld_scratch hk, Bool.or_self, if_neg Bool.false_ne_true]
  refine (bind_of_ok hl _).trans ?_
  rw [plbFill_scratch hk, homeBytes_scratch hk]
  refine (if_neg (by rw [← anyPoison, hlp, hp]; exact Bool.false_ne_true)).trans ?_
  dsimp only
  rw [hf]
  exact congrArg (fun t => Except.ok (_, writeBytes (storeTime t s.cur key) key _)) (beforeWrite_scratch hk l _ _)

/-- Settles O25: each of these instructions is an `issue` whose body is the read-modify-write behind its checks, and on a scratch word that is
the read and the write of the home. -/
theorem atomics : Obligations.Atomics := by
  unfold Obligations.Atomics
  refine ⟨fun h op ty d a b c m i wk => ⟨runs_of_body (fun _ => rfl) ?amo, runs_of_body (fun _ => rfl) ?cas, runs_of_body (fun _ => rfl) ?ramo⟩,
    fun s l op ty ea c key hop _ hc hk hl hp => ?scratch⟩
  case amo =>
    rintro v s t ⟨old, u, hu, rfl⟩
    exact amoTo_of_updateAt hu d
  case cas =>
    rintro v s t ⟨old, u, hu, rfl⟩
    exact bind_of_ok hu _
  case ramo =>
    rintro v s t ⟨ea, old, u, he, hw, hu, rfl⟩
    obtain ⟨key, -, hc, -⟩ := updateAt_ok hu
    exact (bind_of_ok he _).trans ((bind_of_ok hc _).trans ((bind_of_ok hw _).trans (bind_of_ok (amoTo_of_updateAt hu d) _)))
  case scratch => exact updateAt_scratch (fun old t => amoNew_int hop ty c old t) hc hk hl hp

end Sys2Proof.Machine
end

section
/-! Full/empty words, waits on a value, messages and wakes (R141 to R148, R258, R278). -/

namespace Sys2Proof.Machine
open Sys2Proof.Safety

/-! ### Full/empty words (R141 to R143) -/

/-- Taking a latch leaves the tags. -/
theorem takeLatch_isFull {s u : State} {k key : Nat} (h : takeLatch s k key = .ok u) (a : Nat) : isFull u a = isFull s a := by
  obtain ⟨-, -, -, -, hfull, -⟩ := takeLatch_same h
  rw [isFull, hfull]
  rfl

theorem setFull_cur (s : State) (key : Nat) (b : Bool) : (setFull s key b).cur = s.cur := rfl

section
variable {s u : State} {ty : IntTy} {ea : Word} {key : Nat} (hk : feKey s s.cur ea ty.bytes = .ok key) (hl : takeLatch s s.cur key = .ok u)
include hk hl

/-- `ldfe` of a FULL word without poison (R142). -/
theorem takeFull_full (hf : isFull s key = true) (hp : anyPoison s key ty.bytes = false) (keep : Bool) (d : Reg) :
    takeFull s ty keep d ea = .ok (writeReg (if keep then storeTime u s.cur key else setFull (storeTime u s.cur key) key false) s.cur d
      (ty.val (BitVec.ofNat 64 (leNat ty.bytes (readBytes s key ty.bytes)))), .fall) := by
  obtain ⟨hcur, -, -, hmem, -, -, hup⟩ := takeLatch_same hl
  refine (bind_of_ok hk _).trans ((bind_of_ok hl _).trans ?_)
  rw [takeLatch_isFull hl, hf, hup, hp, Bool.not_true, if_neg Bool.false_ne_true, if_neg Bool.false_ne_true]
  dsimp only
  rw [give, hcur, leWord_readBytes, readBytes_congr hmem]
  have hdone : (if keep then storeTime u s.cur key else setFull (storeTime u s.cur key) key false).cur = s.cur := by
    split
    · rw [storeTime_cur, hcur]
    · rw [setFull_cur, storeTime_cur, hcur]
  rw [hdone]
  rfl

/-- `stfe` of an EMPTY word, or of any with `ovr` (R142). -/
theorem putFull_empty {ovr : Bool} (h : isFull s key = false ∨ ovr = true) (v : Word) :
    putFull s ty ovr ea v = .ok (setFull (storeBytes u s.cur key (leBytes ty.bytes v.toNat)) key true, .fall) := by
  obtain ⟨hcur, -⟩ := takeLatch_same hl
  refine (bind_of_ok hk _).trans ((bind_of_ok hl _).trans ?_)
  have hgo : (isFull s key && !ovr) = false := by
    obtain h | h := h
    · rw [h, Bool.false_and]
    · rw [h, Bool.not_true, Bool.and_false]
  rw [takeLatch_isFull hl, hgo, if_neg Bool.false_ne_true, hcur]
  rfl

end

/-- Settles O26: each of these instructions is an `issue` whose body acts behind the check of its word and the latch of its bank. -/
theorem fullEmptyWords : Obligations.FullEmptyWords := by
  unfold Obligations.FullEmptyWords
  intro h ty keep ovr full d c q m
  refine ⟨runs_of_body (fun _ => rfl) ?ldfe, runs_of_body (fun _ => rfl) ?stfe, runs_of_body (fun _ => rfl) ?feset,
    runs_of_body (fun _ => rfl) ?feqry⟩
  case ldfe =>
    rintro v s t ⟨key, u, hk, hl, hf, hp, rfl⟩
    exact takeFull_full hk hl hf hp keep d
  case stfe =>
    rintro v s t ⟨key, u, hk, hl, hf, rfl⟩
    exact putFull_empty hk hl hf _
  case feset =>
    rintro v s t ⟨key, u, hk, hl, rfl⟩
    obtain ⟨hcur, -⟩ := takeLatch_same hl
    refine (bind_of_ok hk _).trans ((bind_of_ok hl _).trans ?_)
    rw [hcur]
    rfl
  case feqry =>
    rintro v s t ⟨key, u, hk, hl, rfl⟩
    obtain ⟨hcur, -⟩ := takeLatch_same hl
    refine (bind_of_ok hk _).trans ((bind_of_ok hl _).trans ?_)
    rw [hcur, takeLatch_isFull hl]
    rfl

/-! ### Waits, messages and wakes (R144 to R148) -/

/-- What a change of a slot keeps of it, every slot keeps. -/
theorem modSlot_keeps {α : Type} (g : Slot → α) {f : Slot → Slot} (hf : ∀ x, g (f x) = g x) (s : State) (k j : Nat) :
    g ((s.modSlot k f).slot j) = g (s.slot j) := by
  by_cases h : j = k
  · rw [h, State.modSlot_slot, hf]
  · rw [State.modSlot_slot_ne _ _ h]

/-- Where the context of a slot runs, a message finds room while the inbox holds less than 4 and the message area none for the slot (R146,
R148). -/
theorem deliverMsg_running {s : State} {j : Nat} (v : Word) (hp : (s.ctx (ownerOf j)).phase = .running) (hn : (s.slot j).inbox.length < 4)
    (ha : ((s.ctx (ownerOf j)).messageTo.get [] (coreOf j)).contains j = false) :
    ∃ t, deliverMsg s j v = some t ∧ (t.slot j).inbox = (s.slot j).inbox ++ [v] ∧ t.mem = s.mem := by
  have hroom : ((s.slot j).inbox.length ≥ 4 || ((s.ctx (ownerOf j)).messageTo.get [] (coreOf j)).contains j) ≠ true := by
    rw [ha, Bool.or_false]
    simpa using hn
  unfold deliverMsg
  dsimp only
  rw [hp, if_neg (by decide), if_neg hroom]
  rw [Option.map_some]
  refine ⟨_, rfl, ?_, rfl⟩
  rw [State.modMe, modSlot_keeps Slot.inbox, modSlot_keeps Slot.inbox, State.modSlot_slot]
  all_goals exact fun _ => rfl

/-- Where the context of a slot runs, a wake sets its latch and leaves its inbox (R146, R148). -/
theorem deliverWake_running {s : State} {j : Nat} (hp : (s.ctx (ownerOf j)).phase = .running) :
    ∃ t, deliverWake s j = some t ∧ (t.slot j).wake = true ∧ (t.slot j).inbox = (s.slot j).inbox ∧ t.mem = s.mem := by
  unfold deliverWake
  dsimp only
  rw [hp, if_neg (by decide)]
  rw [Option.map_some]
  refine ⟨_, rfl, ?_, ?_, rfl⟩
  · rw [State.modMe, modSlot_keeps Slot.wake, modSlot_keeps Slot.wake, State.modSlot_slot]
    all_goals exact fun _ => rfl
  · rw [State.modMe, modSlot_keeps Slot.inbox, modSlot_keeps Slot.inbox, State.modSlot_slot]
    all_goals exact fun _ => rfl

/-- Settles O27: each of these instructions is an `issue` whose body completes under the condition of its wait; and a message or wake finds room at
a slot of a running context. -/
theorem waitsMessagesAndWakes : Obligations.WaitsMessagesAndWakes := by
  unfold Obligations.WaitsMessagesAndWakes
  refine ⟨fun h cond ty d a c m i => ⟨runs_of_body (fun _ => rfl) ?waita, runs_of_body (fun _ => rfl) ?msg, runs_of_body (fun _ => rfl) ?wait,
    runs_of_body (fun _ => rfl) ?waitWk, runs_of_body (fun _ => rfl) ?wake⟩, fun s j v hp =>
    ⟨fun hn ha => deliverMsg_running v hp hn ha, deliverWake_running hp⟩⟩
  case waita =>
    rintro v s t ⟨x, u, hl, hc, rfl⟩
    exact (bind_of_ok hl _).trans (if_pos hc)
  case msg =>
    rintro v s t ⟨j, hj, ht⟩
    simp only [hj, ht]
    rfl
  case wait =>
    rintro v s t ⟨x, rest, hx, hb, rfl⟩
    simp only [hx, hb]
    rfl
  case waitWk =>
    rintro v s t ⟨hw, rfl⟩
    exact if_pos hw
  case wake =>
    rintro v s t ⟨j, hj, ht⟩
    simp only [hj, ht]
    rfl

end Sys2Proof.Machine
end

section
/-! Fences, hints, touch and lease (R149 to R152, R268, R327, R336). -/

namespace Sys2Proof.Machine
open Sys2Proof.Safety

/-- An instruction of `n` bytes that both slots of a pair perform as one and that does not order memory, outside a pair: where its body gives
a state, it goes on with it after one cycle. -/
theorem issue_joint_free {i : Instr} {h : Hdr} {srcs : List Reg} {dst : Option Reg} {body : List Word → State → Res} {s t : State} {n : Nat}
    (hr : ready i h srcs dst s = true) (hu : unpaired s = true) (ho : orderedOp i = false) (hn : i.bytes = n)
    (hb : body (operands s srcs) (popped s srcs) = .ok (t, .fall)) :
    issue { i, h, srcs, dst, pair := .joint } body s = .next (finish t s.cur n 1 .fall) := by
  rw [issue_joint hr hu hb, latencyOf_free ho, hn]

/-- The pages that a lease maps leave the current slot. -/
theorem leasePages_cur (s : State) (o lo hi : Nat) : (leasePages s o lo hi).cur = s.cur := by
  refine foldl_keeps State.cur (fun t i => ?_) _ s
  split <;> rfl

/-- A range that lies in the global window, and is not empty, does not lie in the arena window (R38, R150). -/
theorem globalRange_not_arena {n off : Nat} {tag : BitVec 8} (hn : n ≠ 0) (ht : tag = 0) (ho : off + n ≤ 2 ^ 55) :
    (tag == 0 && decide (off + n ≤ 2 ^ 55)) = true ∧ (decide (2 ^ 55 ≤ off) && decide (off + n ≤ 3 * 2 ^ 54)) = false := by
  rw [ht, decide_eq_true ho, decide_eq_false (by omega)]
  exact ⟨rfl, rfl⟩

/-- Settles O28: the bodies of `fence`, `pref` and `touch` complete at once; that of `lease`, over a range of the global window, gives its code, or
maps the pages and enters the range where they are resident. -/
theorem fencesHintsAndLeases : Obligations.FencesHintsAndLeases := by
  unfold Obligations.FencesHintsAndLeases
  intro h sc llc rights d a b m i s ea lo hi n u
  refine ⟨completes_of_body (fun _ => rfl) fun _ _ => rfl, completes_of_body (fun _ => rfl) fun _ _ => rfl, runs_of_body (fun _ => rfl) ?touch,
    fun hr hu hp hea hn hne htag hend hlo hhi => ?lease⟩
  case touch =>
    rintro v s t rfl
    rfl
  case lease =>
    subst hp
    obtain ⟨hglob, harena⟩ := globalRange_not_arena hne htag hend
    have hbytes : (Instr.lease h rights d a i b).bytes = i.bytes := bytes_of_imm rfl rfl
    refine ⟨fun hcode => issue_joint_free hr hu rfl hbytes ?refused, fun hcode hres => issue_joint_free hr hu rfl hbytes ?made⟩
    all_goals
      dsimp only
      rw [← hea, ← hn, ← hlo, ← hhi, hglob, harena, decide_eq_false hne]
      simp only [Bool.false_or, Bool.true_or, Bool.not_true, Bool.false_and, Bool.false_eq_true, if_false, if_true]
    case refused =>
      rw [if_pos (by simpa using hcode), give, popped_cur]
      rfl
    case made =>
      rw [if_neg (by simpa using hcode), hres, if_neg (by decide), give, State.modCtx_cur, spreadLease, leasePages_cur, popped_cur]
      rfl

end Sys2Proof.Machine
end

section
/-! The notice of an end time (R312): where its moment has passed with no step of the clock, it falls due before the clock's value. -/

namespace Sys2Proof.Machine
open Sys2Proof.Safety

/-- The record of a notice for the slot that takes it leaves the contexts.  The function is unfolded under a name of its own: the kernel would
evaluate `noticeSlot s o` to compare it with its body. -/
theorem noticePend_ctxs (s : State) (o : Nat) : (noticePend s o).ctxs = s.ctxs := by
  suffices h : ∀ f, f = noticePend → (f s o).ctxs = s.ctxs from h _ rfl
  intro f hf
  delta noticePend at hf
  subst hf
  beta_reduce
  generalize noticeSlot s o = slot
  cases slot with
  | none => rfl
  | some k =>
    dsimp only
    split
    · rfl
    · exact foldl_keeps State.ctxs (fun _ _ => State.modSlot_ctxs _ _ _) _ _

/-- A notice falls due at the value that it is given. -/
theorem noticeDue_notice (s : State) (o n : Nat) : ((noticeDue s o n).ctx o).notice = some n := by
  have hset : ((s.modCtx o fun c => { c with notice := some n }).ctx o).notice = some n := by rw [State.modCtx_ctx]
  unfold noticeDue
  dsimp only
  split
  · rw [State.modCtx_ctx]
    exact hset
  · rw [State.ctx, noticePend_ctxs]
    exact hset

/-- The notice of a ready context falls due 1,000 µs before its end time (R312). -/
theorem expiryNotice_notice {s t : State} {o : Nat} (hr : noticeReady s o = true) (he : exec (.expiryNotice o) s = .next t) :
    (t.ctx o).notice = some ((endTime s o).1 - 1000) := by
  rw [exec_expiryNotice, execExpiryNotice, if_pos hr] at he
  cases he
  exact noticeDue_notice _ _ _

/-- A context that has started at 1,500 µs, when its end time of 2,000 µs lay nearer than 1,000 µs. -/
def noticePast : State :=
  { ctxs := [(1, { phase := .running, handles := [(0, { w := { notAfter := 2000 } })], expiry := 2000 })], pkg := { clock := 1500 } }

/-- Refutes O51, in its clause on the notice: where E − 1,000 µs has passed with no step of the clock, the notice falls due at E − 1,000 µs
(R312), and not at the clock's value as the clause has it. -/
theorem not_timeAndWaitEvents : ¬ Obligations.TimeAndWaitEvents := by
  unfold Obligations.TimeAndWaitEvents
  intro hall
  obtain ⟨-, -, -, -, hnotice, -⟩ := hall noticePast 0 0 1
  have hr : noticeReady noticePast 1 = true := by decide
  obtain ⟨t, he, hstated, -⟩ := hnotice hr
  have hend : (endTime noticePast 1).1 - 1000 = 1000 := by decide
  have hdue := (expiryNotice_notice hr he).symm.trans hstated
  rw [hend] at hdue
  exact absurd hdue (by decide)

end Sys2Proof.Machine
end

section
/-! Bank modes (R153, R154): in a table of quads out of order, a quad that takes its place in the order of arrival gains a second entry. -/

namespace Sys2Proof.Machine
open Sys2Proof.Safety

/-- A table of quads out of order: quad 0, which stands behind quad 64, has an open `bankcfg` whose mode goes to queue q56 of core 0.  That
queue has six entries of eight. -/
def strayQuads : State :=
  { quads := [(64, {}), (0, { switches := [{ slot := 0, dst := 56, banks := 0, mode := .scr, waitFor := [], drains := [] }] })]
    cores := [(0, { buildCore 0 with queues := [(0, { entries := List.replicate 6 0 })] })] }

/-- Whether an instruction's outcome leaves the current slot blocked. -/
def blocksSlot : Host.Outcome State Fault Refusal → Bool
  | .next t => t.me.blk.isSome
  | _ => false

/-- Refutes O48, in its clause on a `bankcfg` that waits its turn.  As its place in the order is written, a quad that stands out of order in
the table of quads gains a second entry; the room that its open `bankcfg` keeps in the destination queue then counts twice, the queue has none
left, and the slot blocks for room (R22) where the clause holds it.  The tables of `strayQuads` are such; no clause asks for ordered ones. -/
theorem not_gangsBanksAndChecks : ¬ Obligations.GangsBanksAndChecks := by
  unfold Obligations.GangsBanksAndChecks
  intro hall
  obtain ⟨-, hbank, -⟩ := hall ⟨7, false⟩ .scr 56 0 strayQuads _ _ 0 [] _
  have hready : ready (.bankcfg ⟨7, false⟩ .scr 56 0) ⟨7, false⟩ [0] (some 56) strayQuads = true := by decide
  have hunpaired : unpaired strayQuads = true := by decide
  obtain ⟨hwaits, -⟩ := hbank hready hunpaired rfl rfl rfl
  have hturn : bankTurn strayQuads strayQuads.cur = false := by decide
  have hblocks : blocksSlot (exec (.bankcfg ⟨7, false⟩ .scr 56 0) strayQuads) = true := by decide
  have hheld : blocksSlot (.next (holdSlot (bankArrives strayQuads strayQuads.cur) strayQuads.cur)) = false := by decide
  rw [hwaits hturn, hheld] at hblocks
  contradiction

end Sys2Proof.Machine
end

section
/-! Vector instructions that give a mask or a general register: what their completion leaves (R159, R169, R171, R172). -/

namespace Sys2Proof.Machine
open Sys2Proof.Safety

section
variable {o : SlabOp} {x : Slot} {n : Nat} {r : VOut} (hv : vecOut o x n = some r)
include hv

/-- An instruction that gives lanes, a mask or a register when it completes makes no accesses. -/
theorem slabMemory_of_vecOut : slabMemory o.instr = false := by
  unfold vecOut at hv
  split at hv
  case h_43 => cases hv
  all_goals
    rename_i hi
    rw [hi]
    rfl

/-- Nor is it a drain. -/
theorem ne_adrain_of_vecOut (h : Hdr) (rnd : Rnd) (f : DrainFmt) (za : Bool) (doff : BitVec 22) (d : AReg) (a b c : Reg) :
    o.instr ≠ .adrain h rnd f za doff d a b c := by
  intro hi
  rw [vecOut, hi] at hv
  cases hv

/-- Nor does it reduce the rows of an accumulator. -/
theorem aredOut_of_vecOut (c : CoreSt) : aredOut c o = none := by
  unfold aredOut
  split
  · rename_i hi
    rw [vecOut, hi] at hv
    cases hv
  · rfl

end

/-! ### Masks as bits -/

/-- The lanes below `n` are those of the full mask. -/
theorem getLsbD_fullMask (n : Nat) {l : Nat} (hl : l < 256) : (fullMask n).getLsbD l = decide (l < n) := by
  rw [fullMask, BitVec.getLsbD_ofNat, Nat.testBit_two_pow_sub_one, decide_eq_true hl, Bool.true_and]

/-- A mask register but m7 reads the bits just written, in the lanes of the core (R21, R23). -/
theorem getLsbD_getM_setM (x : Slot) {d : MReg} (m : BitVec 256) {n l : Nat} (hd : d ≠ 7) (hl : l < n) (hn : n ≤ 256) :
    ((x.setM n d m).getM n d).getLsbD l = m.getLsbD l := by
  rw [Slot.setM, Slot.getM, if_neg hd, if_neg hd, mended_eq, Tab.get_set_self, BitVec.getLsbD_and, BitVec.getLsbD_and,
    getLsbD_fullMask n (hl.trans_le hn), decide_eq_true hl, Bool.and_true, Bool.and_true]

/-- Writing a mask leaves whether the slot is in a pair. -/
theorem setM_chk (x : Slot) (n : Nat) (d : MReg) (m : BitVec 256) : (x.setM n d m).chk = x.chk := by
  unfold Slot.setM
  split
  · rfl
  · rw [mended_eq]

/-- A mask made of one bit for each lane. -/
theorem getLsbD_laneBits (f : Nat → Bool) {n l : Nat} (hl : l < n) (hn : n ≤ 256) :
    ((BitVec.ofBoolListLE ((List.range n).map f)).setWidth 256).getLsbD l = f l := by
  rw [BitVec.getLsbD_setWidth, decide_eq_true (hl.trans_le hn), Bool.true_and, BitVec.getLsbD_ofBoolListLE]
  simp [List.getD, hl]

/-! ### Completion -/

/-- A result that is a mask alone leaves an unpaired slot whose mask register reads the bits given. -/
theorem getLsbD_putOut_mask {s : State} {o : SlabOp} {n l : Nat} {d : MReg} {m : BitVec 256} {fl : Flags} (hc : (s.slot o.slot).chk = 0)
    (hd : d ≠ 7) (hl : l < n) (hn : n ≤ 256) :
    (((putOut s o n { m := some (d, m), fl }).slot o.slot).getM n d).getLsbD l = m.getLsbD l := by
  simp only [putOut, modOp_alone _ hc, State.modSlot_slot]
  split <;> exact getLsbD_getM_setM _ m hd hl hn

/-- It leaves the slot in no pair. -/
theorem putOut_mask_chk {s : State} {o : SlabOp} (n : Nat) (d : MReg) (m : BitVec 256) (fl : Flags) (hc : (s.slot o.slot).chk = 0) :
    ((putOut s o n { m := some (d, m), fl }).slot o.slot).chk = 0 := by
  simp only [putOut, modOp_alone _ hc, State.modSlot_slot]
  split <;> exact (setM_chk _ n d m).trans hc

/-- An instruction that gives a mask alone leaves its bits in the mask register (R159, R169, R171). -/
theorem slabMask_of_vecOut {i : Instr} {d : MReg} {f : SlabOp → Slot → Nat → Nat → Bool}
    (hv : ∀ o x n, o.instr = i → ∃ m fl, vecOut o x n = some { m := some (d, m), fl } ∧ ∀ l, l < n → n ≤ 256 → m.getLsbD l = f o x n l) :
    SlabMask i d f := by
  rintro s core n o rest x hq hi hs rfl hc hd rfl hn
  obtain ⟨m, fl, hv, hbits⟩ := hv o (s.slot o.slot) (lanes (s.core core).gangw) hi
  refine ⟨_, slabCompletion_vector hq hs (slabMemory_of_vecOut hv) (ne_adrain_of_vecOut hv) (aredOut_of_vecOut hv _) hv, by simp,
    fun l hl => ?_⟩
  rw [slabDone_slot core fl (putOut_mask_chk _ d m fl hc), ← hbits l hl hn]
  exact getLsbD_putOut_mask hc hd hl hn

/-- An instruction that gives a general register alone leaves its value there (R159, R171, R172). -/
theorem slabWord_of_vecOut {i : Instr} {d : Reg} {f : SlabOp → Slot → Nat → Word}
    (hv : ∀ o x n, o.instr = i → vecOut o x n = some { g := some (d, f o x n) }) : SlabWord i d f := by
  rintro s core o rest x hq hi hs rfl hc hd
  have hv := hv o (s.slot o.slot) (lanes (s.core core).gangw) hi
  exact slabCompletion_word hq hs (slabMemory_of_vecOut hv) (ne_adrain_of_vecOut hv) (aredOut_of_vecOut hv _) hv hc rfl rfl rfl hd

/-- The bit that a comparison gives in a lane: the comparison itself where the lane is active, else 0 under Z, else the bit that stands
(R157, R169). -/
theorem vcmp_slabMask {v : VHdr} {k : VCmp} {d : MReg} {a b : VReg} {f : SlabOp → Slot → Nat → Bool}
    (hf : ∀ o x l, f o x l = match k with
      | .n32 c => c.holds (x.getV a l).toNat (x.getV b l).toNat
      | .s32 c => c.holds (x.getV a l).toInt (x.getV b l).toInt
      | .f32 c => (f32.compare o.cap.fzi c (x.getV a l).toNat (x.getV b l).toNat).1) :
    SlabMask (.vcmp v k d a b) d fun o x n l => if (x.getM n v.mask).getLsbD l then f o x l else !v.z && (x.getM n d).getLsbD l := by
  refine slabMask_of_vecOut fun o x n hi => ⟨_, _, by rw [vecOut, hi]; rfl, fun l hl hn => ?_⟩
  rw [List.map_map, getLsbD_laneBits _ hl hn, Function.comp_apply, laneOn, hf]
  cases k <;> split <;> rfl

/-- Settles O32: each instruction gives one mask or one general register, and the completion of an unpaired slot writes it. -/
theorem vectorMasksAndWords : Obligations.VectorMasksAndWords := by
  unfold Obligations.VectorMasksAndWords
  intro h v k tt sg a b m ma mb g g2 i
  refine ⟨vcmp_slabMask fun _ _ _ => rfl, vcmp_slabMask fun _ _ _ => rfl, fun f => vcmp_slabMask fun _ _ _ => rfl,
    slabMask_of_vecOut ?truth, slabMask_of_vecOut ?first, slabWord_of_vecOut ?count, slabWord_of_vecOut ?lowest, slabWord_of_vecOut ?lane⟩
  case truth =>
    exact fun o x n hi => ⟨_, _, by rw [vecOut, hi]; rfl, fun l hl hn => getLsbD_laneBits _ hl hn⟩
  case first =>
    refine fun o x n hi => ⟨_, _, by rw [vecOut, hi]; rfl, fun l hl hn => ?_⟩
    exact (getLsbD_fullMask _ (hl.trans_le hn)).trans (decide_eq_decide.2 (lt_min_iff.trans (and_iff_left hl)))
  case count | lowest | lane =>
    intro o x n hi
    rw [vecOut, hi]
    rfl

end Sys2Proof.Machine
end

section
/-! Vector loads (R157, R162, R277, R278): behind its last lane an instruction whose access holds the latch of a scratch bank waits for the turn
of the bank, and its inactive lanes stand until it completes. -/

namespace Sys2Proof.Machine
open Sys2Proof.Safety

/-- An instruction of which one access is left makes it, whatever the free value says. -/
theorem slabCompletion_oneLeft {s : State} {core : Nat} {o : SlabOp} {rest : List SlabOp} {left : List (State → SlabOp → Access)}
    (hq : (s.core core).slabQ = o :: rest) (hs : soundOp s core o) (hm : slabMemory o.instr = true)
    (hl : (accesses (s.core core) o).drop o.done = left) (hone : left.length = 1) :
    exec (.slabCompletion core) s = .next (runAccesses core 1 left s.tick.2 o) := by
  obtain ⟨hb, hc, hu⟩ := hs
  rw [exec_slabCompletion_oldest hq, slabStep, if_neg (by simp [hb, hc]), if_neg (by simp [hu])]
  split
  case h_1 hi =>
    rw [hi] at hm
    cases hm
  case h_2 =>
    have hcount : 1 + Config.freeChoice s.fresh % Nat.max 1 1 = 1 := congrArg (1 + ·) (Nat.mod_one _)
    rw [if_pos hm]
    dsimp only
    rw [hl, hone, hcount]

/-- An outcome that is no stop gives a value. -/
theorem exists_of_isOk {ε α : Type} {r : Except ε α} (h : r.isOk = true) : ∃ a, r = .ok a := by
  cases r with
  | ok a => exact ⟨a, rfl⟩
  | error e => cases h

/-- `vld.n32.z v1, [g2], m0` before its last lane, with the base of the scratch window in its operand. -/
def scratchLoad : SlabOp :=
  { instr := .vld ⟨⟨7, false⟩, true, 0⟩ .n32 1 2 (.short 0), slot := slotKey 1 0, seq := 0, pc := 0
    cap := ⟨.rne, false, false, 0, 0, 0⟩, args := [0x00C0000000000000], descs := [], done := 63 }

/-- The load as the oldest slab instruction of its core, where lane 63 alone is active and lane 0 of v1 holds 5. -/
def beforeLastLane : State :=
  { ctxs := [(1, { phase := .running, handles := [(0, { w := {} })], nodes := [(1, true)] })]
    slots := [(slotKey 1 0, { running := true, node := 1, m := [(0, 1 <<< 63)], v := [(256, 5)] })]
    cores := [(coreOf (slotKey 1 0), { buildCore (coreOf (slotKey 1 0)) with slabQ := [scratchLoad] })] }

/-- The load stands before its last lane, which is active, as the clause on `vld` asks. -/
theorem beforeLastLane_atLastLane : atLastLane scratchLoad.instr ⟨⟨7, false⟩, true, 0⟩ beforeLastLane (coreOf (slotKey 1 0)) 64 scratchLoad
    (beforeLastLane.slot (slotKey 1 0)) := by
  unfold atLastLane soundOp
  decide

/-- The access of its last lane gives a word: it takes the open latch of its bank (R278). -/
theorem beforeLastLane_loads : (loadAt { beforeLastLane.tick.2 with cur := slotKey 1 0 }
    (arg scratchLoad.args 0 + (Imm.short 0).sext + BitVec.ofNat 64 (63 * 4)) 4).isOk = true := by
  decide

/-- What the step with that access leaves. -/
def behindLastLane : State :=
  runAccesses (coreOf (slotKey 1 0)) 1 ((accesses (beforeLastLane.core (coreOf (slotKey 1 0))) scratchLoad).drop 63) beforeLastLane.tick.2 scratchLoad

/-- With all 64 accesses made the load stands in the slab queue still, for the turn of the bank (R277, R278), and lane 0 still holds 5. -/
theorem behindLastLane_waits : ((behindLastLane.core (coreOf (slotKey 1 0))).slabQ.map (·.done) = [64]) ∧
    (behindLastLane.slot (slotKey 1 0)).getV 1 0 = 5 := by
  decide

/-- Refutes O31, in its clause on `vld`.  The access of the last lane fills the latch of its scratch bank, and the instruction ends behind the
turn of the bank (R277, R278); the step that makes the access does not complete it.  Z has not taken effect yet (R157), so the inactive lane 0
holds 5 where the clause has it 0. -/
theorem not_vectorLanes : ¬ Obligations.VectorLanes := by
  unfold Obligations.VectorLanes
  rintro ⟨-, -, -, hmemory⟩
  obtain ⟨hvld, -⟩ := hmemory ⟨⟨7, false⟩, true, 0⟩ .n32 0 .swap 1 0 2 0 (.short 0)
  obtain ⟨⟨w, u⟩, hload⟩ := exists_of_isOk beforeLastLane_loads
  obtain ⟨t, he, -, hlanes⟩ := hvld beforeLastLane u _ 64 scratchLoad _ w beforeLastLane_atLastLane hload
  have hstated : (t.slot (slotKey 1 0)).getV 1 0 = 0 := hlanes 0 (by decide)
  have hone : ((accesses (beforeLastLane.core (coreOf (slotKey 1 0))) scratchLoad).drop 63).length = 1 := by decide
  obtain ⟨-, -, hs, -⟩ := beforeLastLane_atLastLane
  rw [slabCompletion_oneLeft rfl hs rfl rfl hone] at he
  cases he
  obtain ⟨-, hlane⟩ := behindLastLane_waits
  exact absurd (hlane.symm.trans hstated) (by decide)

end Sys2Proof.Machine
end

section
/-! The dispatch of tile and accumulator instructions, and their effects as the oldest of the slab queue (R26, R179, R182, R185, R186, R188,
R196 to R199). -/

namespace Sys2Proof.Machine
open Sys2Proof.Safety

/-! ### Dispatch -/

/-- A matrix instruction is dispatched where its checks pass, with an execution time that may depend on its descriptors (R179, R182). -/
theorem matrix_dispatches {i : Instr} {h : Hdr} {srcs : List Reg} {rnd : List TDesc → Rnd} {cost : CoreSt → List Word → List TDesc → Nat}
    {checks : List Word → State → Except Stop (List TDesc)} (he : ∀ s, exec i s = matrix i h srcs rnd cost checks s)
    (hn : orderedOp i = false) : Dispatches i h srcs none rnd (fun s => cost (s.core s.myCore)) checks := by
  rintro s p c ds o hr hu rfl hchecks hcap rfl hroom
  rw [he]
  refine issue_joint_free hr hu hn rfl ?_
  have hcap : captureOf (popped s srcs).me (popped s srcs).cur (rnd ds) = some c := by rwa [popped_cur]
  exact (bind_of_ok hchecks _).trans (bind_of_ok (dispatch_ok hcap hroom) _)

/-- A matrix instruction traps where its dispatch check does (R179). -/
theorem matrix_traps {i : Instr} {h : Hdr} {srcs : List Reg} {rnd : List TDesc → Rnd} {cost : CoreSt → List Word → List TDesc → Nat}
    {checks : List Word → State → Except Stop (List TDesc)} {p : List Word → State → Prop} {t : List Word → State → Trap}
    (he : ∀ s, exec i s = matrix i h srcs rnd cost checks s) (hc : ∀ v s, p v s → checks v s = .error (.trap (t v s))) :
    Traps i h srcs none p t := by
  intro s hr hu hp
  rw [he]
  refine issue_traps hr (.inr (by simpa [unpaired] using hu)) ?_
  simp only [hc _ _ hp, bind, Except.bind]

/-- A descriptor that fails the check of R30, or the one of its instruction, is ILLEGAL. -/
theorem needDesc_bad {s : State} {t : TReg} {good : TDesc → Bool} (h : (tdescOf s t).ok = false ∨ good (tdescOf s t) = false) :
    needDesc s t good = .error ill := by
  refine if_neg ?_
  rw [Bool.and_eq_true, not_and_or]
  exact h.imp ne_true_of_eq_false ne_true_of_eq_false

/-! ### Completion -/

/-- An instruction with an effect on its core alone reads no vector register, makes no access, is no drain and gives no lanes. -/
theorem coreEffect_instr {c : CoreSt} {o : SlabOp} {e : Option (CoreSt × Flags)} (he : coreEffect c o = some e) :
    (maskReads o.instr = [] ∧ vecReads o.instr = ([], [])) ∧ slabMemory o.instr = false ∧
    (∀ h rnd f za doff d a b c, o.instr ≠ .adrain h rnd f za doff d a b c) ∧ aredOut c o = none ∧ ∀ x n, vecOut o x n = none := by
  unfold coreEffect at he
  split at he
  case h_9 => cases he
  all_goals
    rename_i hi
    refine ⟨?_, ?_, ?_, ?_, fun x n => ?_⟩
    · rw [hi]; exact ⟨rfl, rfl⟩
    · rw [hi]; rfl
    · rw [hi]; nofun
    · rw [aredOut, hi]
    · rw [vecOut, hi]

/-- An instruction with an effect on its core alone, which consumes no poison and reads no bad cell, completes with it (R26, R188, R196 to R199). -/
theorem slabCompletion_of_coreEffect {s : State} {core : Nat} {o : SlabOp} {rest : List SlabOp} {c : CoreSt} {fl : Flags}
    (hq : (s.core core).slabQ = o :: rest) (hc : badCells (s.core core) o = false) (hu : o.upset = false)
    (he : coreEffect (s.core core) o = some (some (c, fl))) :
    exec (.slabCompletion core) s = .next (slabDone (s.setCore core c) core o fl) := by
  obtain ⟨⟨hmask, hvec⟩, hmem, hdrain, hared, hout⟩ := coreEffect_instr he
  exact slabCompletion_coreEffect hq (badVector_none hmask hvec) hc hu hmem hdrain hared (hout _ _) he

/-- `ared` completes with its rows in the lanes of its destination (R198). -/
theorem slabCompletion_ared {s : State} {core : Nat} {o : SlabOp} {rest : List SlabOp} {r : VOut}
    (hq : (s.core core).slabQ = o :: rest) (hc : badCells (s.core core) o = false) (hu : o.upset = false)
    (hr : aredOut (s.core core) o = some r) :
    exec (.slabCompletion core) s = .next (slabDone (putOut s o (lanes (s.core core).gangw) r) core o r.fl) := by
  obtain ⟨h, op, lt, rnd, d, a, hi⟩ : ∃ h op lt rnd d a, o.instr = .ared h op lt rnd d a := by
    unfold aredOut at hr
    split at hr
    · exact ⟨_, _, _, _, _, _, ‹_›⟩
    · cases hr
  have hv : badVector (s.slot o.slot) (lanes (s.core core).gangw) o.instr = false := by rw [hi]; exact badVector_none rfl rfl
  rw [exec_slabCompletion_oldest hq, slabStep, if_neg (by simp [hv, hc]), if_neg (by simp [hu])]
  split
  case h_1 hd => rw [hi] at hd; cases hd
  case h_2 => rw [if_neg (by rw [hi]; nofun), hr]

/-- An instruction with accesses, whose registers are sound, makes at least one of those that are left, or ends behind its last (R26, R163, R186). -/
theorem slabCompletion_accesses {s : State} {core : Nat} {o : SlabOp} {rest : List SlabOp} (hq : (s.core core).slabQ = o :: rest)
    (hb : badVector (s.slot o.slot) (lanes (s.core core).gangw) o.instr = false) (hc : badCells (s.core core) o = false)
    (hm : slabMemory o.instr = true) :
    ∃ n, 1 ≤ n ∧ exec (.slabCompletion core) s =
      .next (runAccesses core n ((accesses (s.core core) o).drop o.done) s.tick.2 o) := by
  refine ⟨1 + Config.freeChoice s.fresh % Nat.max 1 ((accesses (s.core core) o).drop o.done).length, Nat.le_add_right _ _, ?_⟩
  rw [exec_slabCompletion_oldest hq, slabStep, if_neg (by simp [hb, hc]), if_neg (by simp [hm])]
  split
  case h_1 hd => rw [hd] at hm; cases hm
  case h_2 => rw [if_pos hm]

/-- Behind its last access an instruction completes unless it waits for a turn or for room (R163, R186, R277). -/
theorem runAccesses_nil {s : State} {o : SlabOp} (core n : Nat) (hu : o.upset = false) (hw : endWaits s o = false) :
    runAccesses core n [] s o = slabDone (accessEnd s core o) core o o.fl := by
  rw [runAccesses, if_neg (by simp [hu]), if_neg (by simp [hw])]

/-- Settles O34: each instruction is a `slab` or a `matrix` with its checks; as the oldest of the slab queue one has an effect on its core alone,
gives the lanes of `ared`, or makes accesses. -/
theorem tileAndAccumulatorDispatch : Obligations.TileAndAccumulatorDispatch := by
  unfold Obligations.TileAndAccumulatorDispatch
  intro h seg t t2 a b c i z v op lt int rnd
  refine ⟨?tld, ?tst, ?tzero, ?tmov, ?tfill, ?azero, ?aload, ?aread, ?acvt, ?ared, ?ascal, ?tldTraps, ?tstTraps, ?tfillTraps, ?acvtTraps,
    ?effects⟩
  case tld => exact matrix_dispatches (exec_tld h seg t a i b c) rfl
  case tst => exact matrix_dispatches (exec_tst h seg t a i b c) rfl
  case tzero => exact slab_dispatches (exec_tzero h t) rfl
  case tmov => exact slab_dispatches (exec_tmov h t t2) rfl
  case tfill => exact slab_dispatches (exec_tfill h t a i) rfl
  case azero => exact slab_dispatches (exec_azero h z) rfl
  case aload => exact matrix_dispatches (exec_aload h z a i b) rfl
  case aread => exact matrix_dispatches (exec_aread h z a i b) rfl
  case acvt => exact matrix_dispatches (exec_acvt h rnd t z) rfl
  case ared => exact slab_dispatches (exec_ared h op lt rnd v z) rfl
  case ascal => exact slab_dispatches (exec_ascal h int rnd z i) rfl
  case tldTraps => exact matrix_traps (exec_tld h seg t a i b c) fun _ _ hp => needDesc_bad hp
  case tstTraps => exact matrix_traps (exec_tst h seg t a i b c) fun _ _ hp => needDesc_bad hp
  case tfillTraps => exact slab_traps (exec_tfill h t a i) fun _ _ hp => needDesc_bad (.inl hp)
  case acvtTraps =>
    refine matrix_traps (exec_acvt h rnd t z) fun _ s hp => needDesc_bad (hp.imp_right fun hp => ?_)
    simpa [imp_iff_not_or, or_assoc] using hp
  case effects =>
    rintro s core o rest x hq rfl hb hu
    refine ⟨fun hi => ?tzero, fun hi hp => ?tmov, fun hi => ?tfill, fun hi => ?azero, fun hi r hr => ?acvt, fun hi rows hr => ?ared,
      fun hi r hr => ?ascal, fun hi => ?accesses⟩
    case tzero | tfill | azero => exact slabCompletion_of_coreEffect hq hb hu (by rw [coreEffect, hi])
    case tmov => exact slabCompletion_of_coreEffect hq hb hu (by rw [coreEffect, hi]; exact if_neg (by simp [hp]))
    case acvt | ascal => exact slabCompletion_of_coreEffect hq hb hu (by rw [coreEffect, hi, hr])
    case ared => exact slabCompletion_ared hq hb hu (by rw [aredOut, hi, hr])
    case accesses =>
      have hv : badVector (s.slot o.slot) (lanes (s.core core).gangw) o.instr = false := by
        obtain hi | hi | hi | hi := hi <;> rw [hi] <;> exact badVector_none rfl rfl
      have hm : slabMemory o.instr = true := by
        obtain hi | hi | hi | hi := hi <;> rw [hi] <;> rfl
      obtain ⟨n, hn, he⟩ := slabCompletion_accesses hq hv hb hm
      refine ⟨⟨n, hn, he⟩, fun hdone hw => ?_⟩
      rw [he, hdone, runAccesses_nil core n hu hw]

end Sys2Proof.Machine
end
section
/-! Products, follow-on slots, drains and the waits for slab instructions (R182, R189, R193, R195, R200). -/

namespace Sys2Proof.Machine
open Sys2Proof.Safety

/-- Descriptors that do not suit a product are ILLEGAL at its dispatch (R189). -/
theorem mmaDescs_bad {s : State} {op : MmaOp} (h : mmaOk op (tdescOf s op.ta) (tdescOf s op.tb) = false) : mmaDescs s op = .error ill :=
  if_neg (ne_true_of_eq_false h)

/-- A slot whose mode is no reserved one captures it (R33, R52). -/
theorem needCapture_of_captureOf {s : State} {rnd : Rnd} {c : Capture} (h : captureOf s.me s.cur rnd = some c) : needCapture s rnd = .ok c := by
  rw [needCapture, h]

/-- Settles O35: each is an instruction that a pair performs as one, whose body completes under its premise. -/
theorem productsDrainsAndWaits : Obligations.ProductsDrainsAndWaits := by
  unfold Obligations.ProductsDrainsAndWaits
  intro h f nt op rnd df za doff z d a b c s p cap ds o
  refine ⟨?mma, ?traps, fun hr hu hdescs hcap hempty => ?mmaq, fun hr hu hp hchecks hcap ho hroom => ?adrain, fun hr hu hidle => ?mwait,
    fun hr hu hidle => ?mwaitF⟩
  case mma => exact matrix_dispatches (exec_mma h op) rfl
  case traps => exact matrix_traps (exec_mma h op) fun _ _ hp => mmaDescs_bad hp
  case mmaq =>
    refine issue_joint_free hr hu rfl rfl ?_
    refine (bind_of_ok hdescs _).trans ((bind_of_ok (needCapture_of_captureOf hcap) _).trans (if_neg ?_))
    rw [popped_nil, hempty]
    nofun
  case adrain =>
    subst hp ho
    have hcap : captureOf (popped s [a, b, c]).me (popped s [a, b, c]).cur (drainRnd df rnd) = some cap := by rwa [popped_me, popped_cur]
    rw [← popped_me s [a, b, c]] at hroom ⊢
    refine issue_joint_free hr hu rfl rfl ?_
    exact (bind_of_ok hchecks _).trans (bind_of_ok (dispatch_ok hcap hroom) _)
  case mwait => exact issue_joint_free hr hu rfl rfl (if_neg (ne_true_of_eq_false hidle))
  case mwaitF => exact issue_joint_free hr hu rfl rfl (if_pos hidle)

end Sys2Proof.Machine
end

section
/-! The completion of `azero` and `tzero` (R188, R196). -/

namespace Sys2Proof.Machine

/-! ### A core as a completion leaves it -/

@[simp] theorem modOp_core (s : State) (o : SlabOp) (f : Slot → Slot) (k : Nat) : (modOp s o f).core k = s.core k := by
  unfold modOp
  exact foldl_keeps (fun t : State => t.core k) (fun t j => State.modSlot_get_core t j k f) _ s

@[simp] theorem slabDone_cell (s : State) (core : Nat) (o : SlabOp) (fl : Flags) (a m n : Nat) :
    ((slabDone s core o fl).core core).cell a m n = (s.core core).cell a m n := by
  simp [slabDone, seqDone, CoreSt.cell]

@[simp] theorem slabDone_tileByte (s : State) (core : Nat) (o : SlabOp) (fl : Flags) (t g b : Nat) :
    ((slabDone s core o fl).core core).tileByte t g b = (s.core core).tileByte t g b := by
  simp [slabDone, seqDone, CoreSt.tileByte]

@[simp] theorem slabDone_tilePoisoned (s : State) (core : Nat) (o : SlabOp) (fl : Flags) (t g b : Nat) :
    ((slabDone s core o fl).core core).tilePoisoned t g b = (s.core core).tilePoisoned t g b := by
  simp [slabDone, seqDone, CoreSt.tilePoisoned]

/-! ### Cells and tile bytes that are cleared -/

/-- The number of a cell names its accumulator (R25). -/
theorem accKey_div {a m n : Nat} (hm : m < 64) (hn : n < 256) : accKey a m n / 16384 = a := by
  unfold accKey
  omega

/-- The number of a tile byte names its tile (R25). -/
theorem tileKey_div {t g b : Nat} (hg : g < 4) (hb : b < tileSpan) : tileKey t g b / tileSpan / 4 = t := by
  unfold tileKey tileSpan at *
  omega

/-- A cleared accumulator holds zeros, the others stay. -/
theorem clearAcc_cell (c : CoreSt) (a y : Nat) {m n : Nat} (hm : m < 64) (hn : n < 256) :
    (c.clearAcc a).cell y m n = if y = a then 0 else c.cell y m n := by
  rw [CoreSt.cell, CoreSt.clearAcc]
  dsimp only
  rw [Tab.get_filter c.acc 0 (fun k => k / 16384 != a), accKey_div hm hn]
  by_cases h : y = a <;> simp [h, CoreSt.cell]

/-- A tile that is cleared whole holds zeros, the others stay. -/
theorem clearTile_tileByte (c : CoreSt) (t y : Nat) {g b : Nat} (hg : g < 4) (hb : b < tileSpan) :
    (c.clearTile t fun _ => false).tileByte y g b = if y = t then 0 else c.tileByte y g b := by
  rw [CoreSt.tileByte, CoreSt.clearTile]
  dsimp only
  rw [Tab.get_filter c.tile 0 (fun k => k / tileSpan / 4 != t || false), tileKey_div hg hb]
  by_cases h : y = t <;> simp [h, CoreSt.tileByte]

/-- A tile that is cleared whole holds no poison, the others hold theirs. -/
theorem clearTile_tilePoisoned (c : CoreSt) (t y : Nat) {g b : Nat} (hg : g < 4) (hb : b < tileSpan) :
    (c.clearTile t fun _ => false).tilePoisoned y g b = if y = t then false else c.tilePoisoned y g b := by
  rw [CoreSt.tilePoisoned, CoreSt.clearTile]
  dsimp only
  rw [Tab.get_filter c.tilePoison false (fun k => k / tileSpan / 4 != t || false), tileKey_div hg hb]
  by_cases h : y = t <;> simp [h, CoreSt.tilePoisoned]

/-- Settles O36: each completes with its effect on its core, and the completion leaves accumulators and tiles as that effect does. -/
theorem zeroingCompletes : Obligations.ZeroingCompletes := by
  unfold Obligations.ZeroingCompletes
  intro s core o rest hq hu
  refine ⟨fun h z hi => ?azero, fun h d hi => ?tzero⟩
  case azero =>
    have hc : badCells (s.core core) o = false := by rw [badCells, hi, Bool.and_false]
    refine ⟨_, slabCompletion_of_coreEffect hq hc hu (by rw [coreEffect, hi]), by simp, fun y m n hm hn => ?_⟩
    rw [slabDone_cell, State.setCore_core, clearAcc_cell _ _ _ hm hn]
    simp only [BitVec.toNat_inj]
  case tzero =>
    have hc : badCells (s.core core) o = false := by rw [badCells, hi, Bool.and_false]
    refine ⟨_, slabCompletion_of_coreEffect hq hc hu (by rw [coreEffect, hi]), by simp, fun y g b hg hb => ?_⟩
    rw [slabDone_tileByte, slabDone_tilePoisoned, State.setCore_core, clearTile_tileByte _ _ _ hg hb, clearTile_tilePoisoned _ _ _ hg hb]
    simp only [BitVec.toNat_inj, and_self]

end Sys2Proof.Machine
end

section
/-! The engine's queries and cancellation, the events of a command, and its units on scratch memory (R208, R214 to R216, R222, R223). -/

namespace Sys2Proof.Machine
open Sys2Proof.Safety

/-! ### Queries and cancellation (R222, R223) -/

/-- Settles O39: each of these instructions is an `issue` whose body gives its word, `xcan` behind the cancellations. -/
theorem engineQueries : Obligations.EngineQueries := by
  unfold Obligations.EngineQueries
  intro h batch d a
  refine ⟨runs_of_body (fun _ => rfl) ?stat, runs_of_body (fun _ => rfl) ?sum, runs_of_body (fun _ => rfl) ?poisoned,
    runs_of_body (fun _ => rfl) ?cancel⟩
  case stat =>
    rintro v s t rfl
    rfl
  case sum =>
    rintro v s t rfl
    rfl
  case poisoned =>
    rintro v s t ⟨n, rfl, rfl⟩
    rfl
  case cancel =>
    rintro v s t ⟨hit, u, rfl, rfl, rfl⟩
    rfl

/-! ### The events of a command (R208, R216) -/

/-- A command as a run takes it up: one that is queued starts. -/
def Cmd.started (c : Cmd) : Cmd := { c with state := if c.state = .queued then .running else c.state }

/-- A run of units of a command's type performs them, where the command may run (R208, R215). -/
theorem runCmd_of_mayRun {s : State} {core : Nat} {n : BitVec 32} {c : Cmd} (hc : findCmd s core n = some c) (hr : mayRun s core c = true)
    (units : Nat) : runCmd c.w0.ty core n units s =
      .next (runUnits core (if readHeld (s.core core).fifo c then 0 else units) s c.started) := by
  unfold runCmd
  rw [hc]
  exact if_pos (by rw [hr, Bool.and_true, beq_self_eq_true])

/-- The run event of a type of command (R208). -/
def runEvent (ty : CmdTy) (core : Nat) (n : BitVec 32) (units : Nat) : Instr :=
  match ty with
  | .copy => .copy core n units
  | .nd => .copyNd core n units
  | .gth => .gather core n units
  | .sct => .scatter core n units
  | .radd => .reduceAdd core n units
  | .fill => .fill core n units

/-- Each of the six run events runs the units of its type. -/
theorem exec_runEvent (ty : CmdTy) (core : Nat) (n : BitVec 32) (units : Nat) (s : State) :
    exec (runEvent ty core n units) s = runCmd ty core n units s := by
  cases ty <;> rfl

theorem execSrc_of_maySrc {s : State} {core : Nat} {n : BitVec 32} {c : Cmd} (hc : findCmd s core n = some c) (h : maySrc s core c = true) :
    execSrc core n s = .next (reachSrc s core c) := by
  unfold execSrc
  rw [hc]
  exact if_pos h

theorem execVis_of_mayVis {s : State} {core : Nat} {n : BitVec 32} {c : Cmd} (hc : findCmd s core n = some c) (h : mayVis c = true) :
    execVis core n s = .next (reachVis s core c) := by
  unfold execVis
  rw [hc]
  exact if_pos h

theorem execCommandEnd_of_ended {s : State} {core : Nat} {n : BitVec 32} {c : Cmd} {code : BitVec 8} (hc : findCmd s core n = some c)
    (h : c.ended = some code) : execCommandEnd core n s = .next (terminal s core c code) := by
  unfold execCommandEnd
  rw [hc]
  dsimp only
  rw [h]

/-- Settles O40: each event finds its command, which may take the step, and takes it. -/
theorem engineSteps : Obligations.EngineSteps := by
  unfold Obligations.EngineSteps
  intro s core units n c hc
  refine ⟨fun hr => ⟨runEvent c.w0.ty core n units, ?event, ?run⟩, execSrc_of_maySrc hc, execVis_of_mayVis hc,
    fun code => execCommandEnd_of_ended hc⟩
  case event => cases c.w0.ty <;> rfl
  case run =>
    rw [exec_runEvent]
    exact runCmd_of_mayRun hc hr units

/-! ### One unit on scratch memory (R208, R214, R267) -/

/-- A command that may run has a unit left. -/
theorem mayRun_units {s : State} {core : Nat} {c : Cmd} (h : mayRun s core c = true) : c.done < c.units := by
  simp only [mayRun, Bool.and_eq_true, decide_eq_true_eq] at h
  obtain ⟨⟨⟨-, hdone⟩, -⟩, -⟩ := h
  exact hdone

/-- The checks of an access of one byte are those of the byte. -/
theorem engKeys_one {s : State} {core : Nat} {c : Cmd} {ea : Word} {need : BitVec 4} {side key : Nat}
    (h : engKey s core c ea need side = .ok key) : engKeys s core c ea need side 1 = .ok [key] := by
  simp only [engKeys, BitVec.add_zero, bind, Except.bind, h, List.nil_append]

/-- A byte of scratch memory is read at its home, which no copy in cache ways stands for. -/
theorem engRead_scratch {key : Nat} (hk : isScratchKey key = true) (s : State) (core : Nat) (c : Cmd) (run : Bool) :
    engRead s core c run [key] = ([readByte s key], [poisonAt s key], s.tick.2) := by
  have hw : wayCopy s.tick.2 core c key = none := if_pos (by rw [hk, Bool.or_true])
  simp only [engRead, List.zipIdx_cons, List.zipIdx_nil, List.foldl_cons, List.foldl_nil, hw, Option.filter_none,
    countAccess_scratch hk, ite_self, homeFetch_scratch hk, List.nil_append]
  rfl

/-- Memory behind a device write of one byte (R267). -/
theorem readByte_deviceWrite_one (s : State) (key : Nat) (b : Byte) (a : Nat) :
    readByte (deviceWrite s key [b]) a = if a = key then b else readByte s a := by
  rw [readByte_congr (deviceWrite_mem s key [b])]
  split
  case isTrue h => rw [h]; exact readByte_writeBytes_in s key [b] 0 Nat.one_pos
  case isFalse h => exact readByte_writeBytes_out s key [b] a (by rw [List.length_singleton]; omega)

/-- Memory behind the write of one byte by the engine, whose poison stands apart from memory (R381). -/
theorem readByte_engWrite_one (s : State) (c : Cmd) (run : Bool) (ea : Word) (key : Nat) (b : Byte) (p : Bool) (a : Nat) :
    readByte (engWrite s c run ea [key] [b] [p]).1 a = if a = key then b else readByte s a := by
  have hm : (engWrite s c run ea [key] [b] [p]).1.mem = (deviceWrite (engCount s c run [key]) key [b]).mem := setPoison_mem _ _ _
  rw [readByte_congr hm, readByte_deviceWrite_one, readByte_congr (engCount_mem s c run [key])]

/-- Where a command has no index to read, a run of one unit performs the next unit. -/
theorem runUnits_one {s : State} {core : Nat} {c : Cmd} {r : State × Cmd} (hu : c.done < c.units) (hi : c.indexed = false)
    (hn : nextUnit s core c = .ok r) :
    runUnits core 1 s c = setCmd r.1 core { r.2 with done := r.2.done + 1, index := none, touch := none } := by
  have hf : fetchIndex s core c = .ok (s, c) := if_pos (by rw [hi]; rfl)
  simp only [runUnits, if_neg (Nat.not_le.2 hu), hf, hn]

/-- A unit of a fill whose byte passes its checks writes the byte of the pattern. -/
theorem nextUnit_fill {s : State} {core kd : Nat} {c : Cmd} (hty : c.w0.ty = .fill)
    (hd : engKey s core c (c.dstAt c.done) rW 1 = .ok kd) :
    nextUnit s core c = .ok (engWrite s c c.newRun (c.dstAt c.done) [kd] [patByte c.w1.toNat c.done] [false]) := by
  rw [nextUnit, hty, fillUnit, engKeys_one hd]
  rfl

/-- A unit of a copy from scratch memory to memory, both of whose bytes pass their checks, writes the byte that it reads. -/
theorem nextUnit_copy {s : State} {core ks kd : Nat} {c : Cmd} (hty : c.w0.ty = .copy) (ht : c.desc = none)
    (hk : isScratchKey ks = true) (hs : engKey s core c (c.srcAt c.done) rR 0 = .ok ks) (hd : engKey s core c (c.dstAt c.done) rW 1 = .ok kd) :
    nextUnit s core c = .ok (engWrite s.tick.2 c c.newRun (c.dstAt c.done) [kd] [readByte s ks] [poisonAt s ks]) := by
  rw [nextUnit, hty, moveUnit, engKeys_one hs, ht, engKeys_one hd]
  simp only [bind, Except.bind, engRead_scratch hk]
  rfl

/-- A run event of one unit, where the command has no index to read: memory is as the unit leaves it. -/
theorem runEvent_one {s : State} {core : Nat} {n : BitVec 32} {c : Cmd} {ty : CmdTy} {r : State × Cmd} (hc : findCmd s core n = some c)
    (hr : mayRun s core c = true) (hf : readHeld (s.core core).fifo c = false) (hty : c.w0.ty = ty) (hi : c.indexed = false)
    (hn : nextUnit s core c.started = .ok r) : ∃ t, exec (runEvent ty core n 1) s = .next t ∧ t.mem = r.1.mem := by
  have hu : c.started.done < c.started.units := mayRun_units (c := c) hr
  have hx := runCmd_of_mayRun hc hr 1
  rw [hf, if_neg Bool.false_ne_true, runUnits_one hu hi hn, hty, ← exec_runEvent] at hx
  exact ⟨_, hx, setCmd_mem _ _ _⟩

/-- Settles O41: the unit's checks give the keys of its bytes, and its write changes the byte at the destination's key alone. -/
theorem engineUnitsMoveBytes : Obligations.EngineUnitsMoveBytes := by
  unfold Obligations.EngineUnitsMoveBytes
  intro s core ks kd n c hc hr hf ht hks _ hd
  refine ⟨fun hty => ?fill, fun hty hs => ?copy⟩
  case fill =>
    obtain ⟨t, hx, hm⟩ := runEvent_one hc hr hf hty (by rw [Cmd.indexed, hty]; rfl) (nextUnit_fill (c := c.started) hty hd)
    exact ⟨t, hx, fun k => by rw [readByte_congr hm, readByte_engWrite_one]; rfl⟩
  case copy =>
    obtain ⟨t, hx, hm⟩ := runEvent_one hc hr hf hty (by rw [Cmd.indexed, hty]; rfl) (nextUnit_copy (c := c.started) hty ht hks hs hd)
    exact ⟨t, hx, fun k => by rw [readByte_congr hm, readByte_engWrite_one, readByte_congr (State.tick_mem s)]⟩

end Sys2Proof.Machine
end

section
/-! Frames, rings, priorities and the ends of a slot's work (R229 to R235, R278, R357). -/

namespace Sys2Proof.Machine
open Sys2Proof.Safety

/-! ### Instructions of a slot that is in no pair -/

/-- A slot in no checked pair has CHK 0 (R32). -/
theorem chk_of_unpaired {s : State} (hu : unpaired s = true) : s.me.chk = 0 := by simpa [unpaired] using hu

/-- An instruction that both slots of a pair perform as one, outside a pair: where its body gives a state and where the slot goes on, it goes
on there with that state. -/
theorem issue_joint_next {i : Instr} {h : Hdr} {srcs also : List Reg} {dst : Option Reg} {body : List Word → State → Res} {s t : State}
    {n : Next} (hr : ready i h srcs dst s also = true) (hu : unpaired s = true) (hb : body (operands s srcs) (popped s srcs) = .ok (t, n)) :
    issue { i, h, srcs, dst, also, pair := .joint } body s = .next (finish t s.cur i.bytes (latencyOf t s.cur i 1) n) :=
  issue_completes hr (.inr (chk_of_unpaired hu)) hb

/-! ### The ends of a slot's work (R235, R238) -/

/-- The work of a slot in no pair that no inlined child has interrupted ends with the slot idle (R235). -/
theorem endWork_idle {s : State} (hc : s.me.chk = 0) (hi : s.me.inl = []) : endWork s = .ok (slotEnd s s.cur, .gone) := by
  have hpair : pairOf s s.cur = [s.cur] := if_neg (by rw [show s.slot s.cur = s.me from rfl, hc]; decide)
  unfold endWork
  rw [hi]
  dsimp only
  rw [hpair]
  rfl

/-- The end of an inlined child goes back to the instruction behind its `spawn` (R238). -/
theorem endWork_inlined {s : State} {r : Word} {rest : List Word} (hi : s.me.inl = r :: rest) :
    endWork s = .ok (s.modMe fun x => { x with inl := rest }, .to r) := by
  unfold endWork
  rw [hi]

section
variable {h : Hdr} {a : Reg} {i : BitVec 16} {s u t : State} {n : Next}

/-- `tend` behind the slab instructions of its slot is the end of the slot's work (R235, R353). -/
theorem tend_ends (hr : ready (.tend h) h [] none s = true) (hu : unpaired s = true) (hb : slabBusy s s.cur = false)
    (he : endWork s = .ok (u, n)) : exec (.tend h) s = .next (finish u s.cur 8 (latencyOf u s.cur (.tend h) 1) n) := by
  refine issue_joint_next hr hu ?_
  rw [popped_nil, hb, if_neg Bool.false_ne_true, he]

/-- `cend` of a codelet, behind the slab instructions of its slot, decrements unless A is g0, and is then the end of the slot's work (R235). -/
theorem cend_ends (hr : ready (.cend h a i) h [a] none s = true) (hu : unpaired s = true) (hm : s.me.mode = false)
    (hb : slabBusy (popped s [a]) s.cur = false)
    (hd : if a = 0 then t = popped s [a] else decrement (popped s [a]) (arg (operands s [a]) 0 + i.signExtend 64) = .ok t)
    (he : endWork t = .ok (u, n)) :
    exec (.cend h a i) s = .next (finish u s.cur (Instr.cend h a i).bytes (latencyOf u s.cur (.cend h a i) 1) n) := by
  refine issue_joint_next hr hu ?_
  dsimp only
  rw [popped_me, popped_cur, hm, hb, if_neg Bool.false_ne_true, if_neg Bool.false_ne_true, ← he]
  split at hd
  · rename_i ha
    rw [if_pos ha, hd]
    rfl
  · rename_i ha
    rw [if_neg ha]
    exact bind_of_ok hd _

end

/-- Settles O42: each is an `issue` whose body acts as the statement says; the body of `cend` is the decrement with the end of the slot's work
behind it. -/
theorem framesRingsAndEnds : Obligations.FramesRingsAndEnds := by
  unfold Obligations.FramesRingsAndEnds
  intro h home rstrt hi d a b c i i16
  refine ⟨runs_of_body (fun _ => rfl) ?cnew, runs_of_body (fun _ => rfl) ?dec, runs_of_body (fun _ => rfl) ?rpush,
    runs_of_body (fun _ => rfl) ?rpop, runs_of_body (fun _ => rfl) ?tprio, fun s hr hu hb => ⟨fun hinl => ?idle, fun r rest hinl => ?inlined⟩,
    fun s u p hr hu hp hm hb ht hcur hchk hinl => ?cend⟩
  case cnew =>
    rintro v s t ⟨key, join, l, u, hk, rfl, ht⟩
    refine (bind_of_ok hk _).trans ?_
    cases hn : freeNode s.myCtx with
    | none =>
      rw [hn] at ht
      rw [ht]
      rfl
    | some n =>
      rw [hn] at ht
      obtain ⟨hroom, hl, rfl, rfl⟩ := ht
      refine (if_neg ?_).trans (bind_of_ok hl _)
      simpa using hroom
  case dec =>
    intro v s t ht
    exact bind_of_ok ht _
  case rpush =>
    rintro v s t ⟨j, hj, hquay, hroom, rfl⟩
    simp only [hj, hquay, hroom]
    rfl
  case rpop =>
    intro v s t ht
    cases hn : ringNext (s.core s.myCore) with
    | none =>
      rw [hn] at ht
      rw [ht]
      rfl
    | some r =>
      rw [hn] at ht
      obtain ⟨w0, w1, u, htake, rfl⟩ := ht
      simp only [htake]
      rfl
  case tprio =>
    rintro v s t rfl
    rfl
  case idle => exact tend_ends hr hu hb (endWork_idle (chk_of_unpaired hu) hinl)
  case inlined => exact tend_ends hr hu hb (endWork_inlined hinl)
  case cend =>
    subst hp
    have hend : endWork u = .ok (slotEnd u s.cur, .gone) := by
      rw [← hcur] at hchk ⊢
      exact endWork_idle hchk hinl
    exact cend_ends hr hu hm hb ht hend

/-! ### The decrement of a join counter (R232) -/

/-- A number of `n` bytes is below 256^n (R7). -/
theorem leNat_lt (n : Nat) (bs : List Byte) : leNat n bs < 256 ^ n := by
  induction n generalizing bs with
  | zero => simp [leNat]
  | succ n ih =>
    cases bs with
    | nil => simp [leNat]
    | cons b t =>
      have hb := b.isLt
      have ht := ih t
      rw [leNat, Nat.pow_succ]
      omega

/-- The number that a store has put in memory (R7, R261). -/
theorem leNat_readBytes_storeBytes (s : State) (k key n v : Nat) :
    leNat n (readBytes (storeBytes s k key (leBytes n v)) key n) = v % 256 ^ n := by
  rw [readBytes_congr (storeBytes_mem s k key _), leNat_readBytes_writeBytes, Nat.pow_mul]

section
variable {s l : State} {fa : Word} {key : Nat} (hk : frameKey s fa = .ok key) (hl : takeLatch s s.cur key = .ok l)
  (hp : anyPoison s key 4 = false)
include hk hl hp

/-- Behind its checks and the latch of its bank, the decrement looks at the counter (R232). -/
theorem decrement_eq : decrement s fa =
    if leNat 4 (readBytes s key 4) = 0 then
      .ok (faultAdd (storeTime l s.cur key) s.owner { cause := 0x80, tid := tidOf s.cur, pc := s.me.pc, addr := fa })
    else if leNat 4 (readBytes s key 4) = 1 && ringFull (s.core (frameCore s key)) then .error (ringWait (frameCore s key))
    else
      let t := storeBytes l s.cur key (leBytes 4 (leNat 4 (readBytes s key 4) - 1))
      .ok (if leNat 4 (readBytes s key 4) = 1 then fireFrame t s.cur fa key t.me.tt else t) := by
  obtain ⟨hcur, hslots, -, hmem, -⟩ := takeLatch_same hl
  have hring : ringFull (l.core (frameCore s key)) = ringFull (s.core (frameCore s key)) := by
    rw [(takeLatch_confined ⟨none, false, key, 4⟩ s.cur s hl).core]
    rfl
  have hhome : frameCore l key = frameCore s key := by rw [frameCore, readByte_congr hmem]; rfl
  have hme : l.me = s.me := by rw [State.me, State.slot, hcur, hslots]; rfl
  refine (bind_of_ok hk _).trans ?_
  rw [hp, if_neg Bool.false_ne_true]
  refine (bind_of_ok hl _).trans ?_
  rw [readBytes_congr hmem, hhome, hring, hme, State.owner, hcur]
  rfl

omit hk hp in
/-- The store of the count changes the four bytes of the counter and the records of accesses (R232). -/
theorem count_confined (n : Nat) : Confined ⟨none, false, key, 4⟩ s.cur s (storeBytes l s.cur key (leBytes 4 n)) :=
  .trans (takeLatch_confined _ _ s hl) (storeBytes_confined (p := ⟨none, false, key, 4⟩) l (by rw [length_leBytes]))

end

/-- Settles O43: the decrement behind its checks is a store of the count, which changes its four bytes alone, or the record of a late one. -/
theorem joinCountersCountDown : Obligations.JoinCountersCountDown := by
  unfold Obligations.JoinCountersCountDown
  rintro s l fa key old hk hl hp rfl
  have hlt : leNat 4 (readBytes s key 4) < 256 ^ 4 := leNat_lt _ _
  rw [decrement_eq hk hl hp]
  refine ⟨fun h2 => ?more, fun h1 hroom => ?last, fun h0 => ?late⟩
  case more =>
    rw [if_neg (by omega), decide_eq_false (by omega), Bool.false_and, if_neg Bool.false_ne_true]
    dsimp only
    rw [if_neg (by omega)]
    have hkept := count_confined hl (leNat 4 (readBytes s key 4) - 1)
    refine ⟨_, rfl, ?_, hkept.bytes, fun c => ?_⟩
    · rw [leNat_readBytes_storeBytes, Nat.mod_eq_of_lt (by omega)]
    · rw [hkept.core]
  case last =>
    rw [h1, if_neg Nat.one_ne_zero, hroom, Bool.and_false, if_neg Bool.false_ne_true]
    exact ⟨_, leNat_readBytes_storeBytes l s.cur key 4 0, (count_confined hl 0).bytes, rfl⟩
  case late =>
    rw [h0, if_pos rfl]
    obtain ⟨-, -, -, hmem, -⟩ := takeLatch_same hl
    exact ⟨_, readByte_congr ((storeTime_mem l s.cur key).trans hmem), rfl⟩

end Sys2Proof.Machine
end

section
/-! Spawn, the iteration fetcher, barriers, queues and places (R20, R237 to R245, R262). -/

namespace Sys2Proof.Machine
open Sys2Proof.Safety

/-! ### Spawn (R237, R238) -/

section
variable {h : Hdr} {narg : BitVec 3} {cdl join noin : Bool} {d a b : Reg} {s p t : State} {pc : Word} {core : Nat} {node : Option Nat}
  (hr : ready (.spawn h narg cdl join noin d a b) h [a, b] (some d) s (argRegs narg.toNat) = true) (hu : unpaired s = true)
  (hp : p = popped s [a, b]) (hplace : placeCore p (arg (operands s [a, b]) 0) = some core) (hpc : pc = arg (operands s [a, b]) 1)
  (halign : pc.toNat % 4 = 0) (hnode : node = if join then some p.me.node else freeNode p.myCtx)
include hr hu hp hplace hpc halign hnode

/-- Where a slot of the core is idle and a node is there, the child starts and the slot's number is given (R238). -/
theorem spawn_starts {k n : Nat} (hk : idleSlot p core = some k) (hn : node = some n)
    (ht : t = startSlot (if join then p else newNode p p.owner n true) k (childSlot p narg.toNat cdl n pc)) :
    exec (.spawn h narg cdl join noin d a b) s = .next (finish (writeReg t t.cur d (BitVec.ofNat 64 (slotNo k))) s.cur 16
      (latencyOf (writeReg t t.cur d (BitVec.ofNat 64 (slotNo k))) s.cur (.spawn h narg cdl join noin d a b) 1) .fall) := by
  refine issue_joint_next hr hu ?_
  dsimp only
  rw [← hp, hplace, ← hpc]
  dsimp only
  rw [if_neg (by simpa using halign), ← hnode, hk, hn, ht]
  rfl

/-- Where no slot of the core is idle or no node is there, the child is refused or runs inline (R238). -/
theorem spawn_unplaced (hfull : idleSlot p core = none ∨ node = none) {n : Next}
    (he : (if noin || 8 ≤ p.me.inl.length then give p d (-1)
      else .ok ((writeReg p p.cur d 16).modMe fun x => { x with inl := (x.pc + 16) :: x.inl }, .to pc)) = Except.ok (t, n)) :
    exec (.spawn h narg cdl join noin d a b) s =
      .next (finish t s.cur 16 (latencyOf t s.cur (.spawn h narg cdl join noin d a b) 1) n) := by
  refine issue_joint_next hr hu ?_
  dsimp only
  rw [← hp, hplace, ← hpc]
  dsimp only
  rw [if_neg (by simpa using halign), ← hnode]
  obtain hf | hf := hfull
  · rw [hf]
    exact he
  · rw [hf]
    cases idleSlot p core with
    | none => exact he
    | some k => exact he

end

/-- Settles O44: behind its checks, `spawn` starts the child where a slot and a node are free, and else refuses it or runs it inline. -/
theorem spawnStartsAChild : Obligations.SpawnStartsAChild := by
  unfold Obligations.SpawnStartsAChild
  intro h narg cdl join noin d a b s p pc core node hr hu hp hplace hpc halign hnode
  have hcur : p.cur = s.cur := by rw [hp, popped_cur]
  refine ⟨fun k n t u hk hn ht hv => ?starts, fun hfull => ⟨fun u hno hv => ?refused, fun u hno hlen hv => ?inlined⟩⟩
  case starts =>
    rw [hv]
    exact spawn_starts hr hu hp hplace hpc halign hnode hk hn ht
  case refused =>
    refine spawn_unplaced hr hu hp hplace hpc halign hnode hfull ?_
    rw [if_pos (by simpa using hno), hv, ← hcur]
    rfl
  case inlined =>
    refine spawn_unplaced hr hu hp hplace hpc halign hnode hfull ?_
    rw [if_neg (by simp [hno, hlen]), hv, ← hcur]

/-! ### The iteration fetcher (R239, R240) -/

/-- Settles O45: the body of `nest` sets the counter; that of `next` claims a chunk, or branches where none is left. -/
theorem nestsAndChunks : Obligations.NestsAndChunks := by
  unfold Obligations.NestsAndChunks
  intro h minch d a b c i s es q o n first
  refine ⟨runs_of_body (fun _ => rfl) ?nest, fun hr hu hrem ho hn hfirst => ?chunk, fun hr hu hrem halign => ?exhausted⟩
  case nest =>
    rintro v s t ⟨es, p, rfl, rfl, hgap, rfl⟩
    refine (if_neg ?_).trans rfl
    rw [hgap]
    exact Bool.false_ne_true
  case chunk =>
    refine issue_joint_free hr hu rfl (bytes_of_imm rfl rfl) ((if_neg hrem).trans ?_)
    subst hfirst hn ho
    rfl
  case exhausted =>
    have hgo : exec (.next h d i) s = _ := issue_joint_next hr hu ((if_pos hrem).trans (goTo_aligned halign (writeReg s s.cur d 0)))
    rw [hgo, latencyOf_free rfl, bytes_of_imm (m := i) rfl rfl]

/-! ### Barriers (R20, R241, R242, R262) -/

/-- The unit of a level is told by the contexts (R20). -/
theorem unitOf_congr {s t : State} (hc : t.ctxs = s.ctxs) (k : Nat) (sc : Scope) : unitOf t k sc = unitOf s k sc := by
  have hctx : t.ctx = s.ctx := by unfold State.ctx; rw [hc]
  have hstack : stackOf t k = stackOf s k := by
    simp only [stackOf, physStack, State.physQuay, State.physQuad, State.quayCores, State.rects, hctx]
  cases sc with
  | sk => exact hstack
  | th | cr | qd | pk | pd => rfl

@[simp] theorem barKey_popped (s : State) (rs : List Reg) (k : Nat) (sc : Scope) (id : BitVec 4) : barKey (popped s rs) k sc id = barKey s k sc id := by
  rw [barKey, unitOf_congr (popped_ctxs s rs)]
  rfl

@[simp] theorem barrier_popped (s : State) (rs : List Reg) (key : Nat) : barrier (popped s rs) key = barrier s key := by
  rw [barrier, State.myCtx, State.owner, popped_cur, State.ctx, popped_ctxs]
  rfl

/-- A slot in no pair leads itself (R32, R394). -/
theorem slot_leadOf_unpaired {s : State} (hu : unpaired s = true) : s.slot (leadOf s.me s.cur) = s.me := by
  rw [leadOf, if_neg (by rw [chk_of_unpaired hu]; decide)]
  rfl

section
variable {h : Hdr} {sc : Scope} {id : BitVec 4} {b : Reg} {s t : State} (hu : unpaired s = true)
include hu

/-- A `bar` that has not arrived goes on where its arrival completes the phase (R242). -/
theorem bar_arrives (hj : s.me.joined = none) (hr : ready (.bar h sc id b) h [b] none s = true)
    (ha : arrive (popped s [b]) sc id ((arg (operands s [b]) 0).extractLsb' 0 16) = .ok (t, true)) {u : State}
    (ht : u = takeTime t (barrier t (barKey s s.cur sc id)) (barrier s (barKey s s.cur sc id)).phase) :
    exec (.bar h sc id b) s = .next (finish u s.cur 8 (latencyOf u s.cur (.bar h sc id b) 1) .fall) := by
  rw [exec_bar, execBar, slot_leadOf_unpaired hu, hj]
  refine issue_joint_next hr hu ?_
  dsimp only
  rw [popped_me, hj, popped_cur, barKey_popped, barrier_popped, ht]
  exact bind_of_ok ha _

/-- A `bar` that has arrived goes on where the phase is over (R242). -/
theorem bar_returns {p : BitVec 32} (hj : s.me.joined = some p) (hr : ready (.bar h sc id b) h (unpopped [b]) none s = true)
    (hover : (barrier s (barKey s s.cur sc id)).phase ≠ p) {u : State}
    (ht : u = takeTime (popped s (unpopped [b])) (barrier s (barKey s s.cur sc id)) p) :
    exec (.bar h sc id b) s = .next (finish u s.cur 8 (latencyOf u s.cur (.bar h sc id b) 1) .fall) := by
  rw [exec_bar, execBar, slot_leadOf_unpaired hu, hj]
  refine issue_joint_next hr hu ?_
  dsimp only
  rw [popped_me, hj, popped_cur, barKey_popped, barrier_popped, ht]
  exact if_neg hover

end

/-- Settles O46: an arrival that completes the phase, or the end of the phase behind the wait, takes `bar` on; `barq` and `poll` complete at once. -/
theorem barriers : Obligations.Barriers := by
  unfold Obligations.Barriers
  intro h sc id d a b q s
  refine ⟨fun hj t u hr hu ha ht => bar_arrives hu hj hr ha ht, fun p u hj hr hu hover ht => bar_returns hu hj hr hover ht,
    runs_of_body (fun _ => rfl) ?barq, runs_of_body (fun _ => rfl) ?poll⟩
  case barq =>
    rintro v s t ⟨u, e, ha, rfl⟩
    exact bind_of_ok ha _
  case poll =>
    rintro v s t ⟨n, o, u, rfl, rfl, rfl, rfl⟩
    rw [Bool.decide_and]
    rfl

/-! ### Queues and places (R243 to R245) -/

/-- Settles O47: each is an `issue` whose body completes at once, `qcfg.bind` behind its checks of the bank, the queue and the limit. -/
theorem queuesAndPlaces : Obligations.QueuesAndPlaces := by
  unfold Obligations.QueuesAndPlaces
  intro h q dx dy d a i
  refine ⟨runs_of_body (fun _ => rfl) ?bind, runs_of_body (fun _ => rfl) ?unbind, runs_of_body (fun _ => rfl) ?status,
    runs_of_body (fun _ => rfl) ?move, runs_of_body (fun _ => rfl) ?linear, runs_of_body (fun _ => rfl) ?quay⟩
  case bind =>
    rintro v s t ⟨hmode, hempty, hlim, rfl⟩
    refine (if_neg ?_).trans ((if_neg ?_).trans rfl)
    · rw [hmode]
      decide
    · rw [hempty, decide_eq_false (Nat.not_lt.2 hlim)]
      decide
  case unbind | status | move =>
    rintro v s t rfl
    rfl
  case linear =>
    rintro v s t ⟨k, lx, ly, rfl, rfl, rfl, rfl⟩
    rfl
  case quay =>
    rintro v s t ⟨w, rfl, rfl⟩
    rfl

end Sys2Proof.Machine
end

section
/-! Arenas (R248 to R250, R343 to R345). -/

namespace Sys2Proof.Machine
open Sys2Proof.Safety

/-! ### What making and ending an arena do to it and to memory -/

/-- The arena slot behind its binding (R248). -/
theorem bindArena_arena (s : State) (x pages : Nat) (pl : Place) : (bindArena s x pages pl).arena x =
    { s.arena x with
      holder := s.owner, node := s.me.node, place := pl, pages, pkg := lpkgOf s.cur
      time := if (s.arena x).last = s.owner then (s.arena x).time else none } := by
  unfold bindArena
  rw [State.modCtx_get_arena, State.modArena_arena]

/-- A dead arena leaves its slot free, one generation on (R250). -/
theorem killArena_arena (s : State) (x : Nat) :
    ∃ time, (killArena s x).arena x = { gen := (s.arena x).gen + 1, last := (s.arena x).holder, time } :=
  ⟨_, Tab.get_put_self _ _ _ _⟩

/-- Behind the ends of its commands, the bytes of a dead arena are erased (R250, R346). -/
theorem killArena_mem (s : State) (x : Nat) : (killArena s x).mem =
    (eraseRange (arenaCommands s (s.arena x).holder x) (arenaBase x) (arenaBase (x + 1))).mem := rfl

/-- The bytes of a dead arena read 0 (R250). -/
theorem readByte_killArena (s : State) {x k : Nat} (hlo : arenaBase x ≤ k) (hhi : k < arenaBase (x + 1)) : readByte (killArena s x) k = 0 := by
  rw [readByte_congr (killArena_mem s x)]
  exact readByte_eraseRange_in _ _ _ k hlo hhi

/-! ### The instructions -/

/-- `anew` answers 1 to 4 where it cannot make an arena, else binds the lowest free slot and gives its handle (R248). -/
theorem anew_runs (h : Hdr) (pl : Place) (d a : Reg) (i : Imm) :
    Runs (.anew h pl d a i) h [a] (some d) (fun v s t => ∃ n pages, n = (arg v 0 + i.zext).toNat ∧ pages = (n + 2 ^ 15 - 1) / 2 ^ 15 ∧
      ((n = 0 ∨ 2 ^ 40 < n) ∧ t = writeReg s s.cur d 1 ∨
       1 ≤ n ∧ n ≤ 2 ^ 40 ∧ freeArena s = none ∧ t = writeReg s s.cur d 2 ∨
       ∃ x, 1 ≤ n ∧ n ≤ 2 ^ 40 ∧ freeArena s = some x ∧
         (placeRoom s s.owner pl < pages ∧ t = writeReg s s.cur d 3 ∨
          pages ≤ placeRoom s s.owner pl ∧ 64 ≤ s.myCtx.leases.length ∧ t = writeReg s s.cur d 4 ∨
          pages ≤ placeRoom s s.owner pl ∧ s.myCtx.leases.length < 64 ∧
            t = writeReg (bindArena s x pages pl) s.cur d (handleWord (s.arena x).gen x)))) := by
  refine runs_of_body (fun _ => rfl) ?_
  rintro v s t ⟨n, pages, hn, hpages, ht⟩
  dsimp only
  rw [← hn, ← hpages]
  obtain ⟨hsize, rfl⟩ | ⟨h1, h40, hfree, rfl⟩ | ⟨x, h1, h40, hfree, ht⟩ := ht
  · rw [if_pos (by simpa using hsize)]
    rfl
  · rw [if_neg (by simp; omega), hfree]
    rfl
  · rw [if_neg (by simp; omega), hfree]
    dsimp only
    obtain ⟨hroom, rfl⟩ | ⟨hroom, hleases, rfl⟩ | ⟨hroom, hleases, rfl⟩ := ht
    · rw [if_pos hroom]
      rfl
    · rw [if_neg (Nat.not_lt.2 hroom), if_pos hleases]
      rfl
    · rw [if_neg (Nat.not_lt.2 hroom), if_neg (Nat.not_le.2 hleases)]
      rfl

/-- Settles O49: each instruction is an `issue` whose body answers by cases; a bound slot and a dead one are as the updates of its record leave
them. -/
theorem arenasAreMadeHandedAndEnded : Obligations.ArenasAreMadeHandedAndEnded := by
  unfold Obligations.ArenasAreMadeHandedAndEnded
  refine ⟨fun h pl d a b i => ⟨anew_runs h pl d a i, runs_of_body (fun _ => rfl) ?ahand, runs_of_body (fun _ => rfl) ?aend,
    runs_of_body (fun _ => rfl) ?aqry⟩, fun s x pages pl => ?bound,
    fun s x => ⟨killArena_arena s x, fun k hlo hhi => readByte_killArena s hlo hhi⟩⟩
  case ahand =>
    rintro v s t ⟨n, key, hn, hk, hp, ht⟩
    refine (bind_of_ok hn _).trans ((bind_of_ok hk _).trans ?_)
    rw [hp, if_neg Bool.false_ne_true]
    dsimp only
    obtain ⟨hb, rfl⟩ | ⟨hb, hnode, rfl⟩ | ⟨hb, hnode, rfl⟩ := ht
    · rw [hb]
      rfl
    · rw [hb, hnode]
      rfl
    · rw [hb, Option.isNone_eq_false_iff.2 hnode]
      rfl
  case aend =>
    rintro v s t ⟨n, hn, ht⟩
    refine (bind_of_ok hn _).trans ?_
    obtain ⟨hb, rfl⟩ | ⟨hb, hm, rfl⟩ := ht
    · rw [hb]
      rfl
    · rw [hb, hm]
      rfl
  case aqry =>
    rintro v s t ⟨n, hn, rfl⟩
    exact bind_of_ok hn _
  case bound =>
    rw [bindArena_arena]
    exact ⟨rfl, rfl, rfl, rfl, rfl, readByte_congr (bindArena_mem s x pages pl)⟩

end Sys2Proof.Machine
end

section
/-! Warrant, time and key instructions (R228, R251 to R256, R325, R326). -/

namespace Sys2Proof.Machine
open Sys2Proof.Safety

/-! ### Presentation (R252) -/

/-- The answer that waits for a slot in no pair at its pc (R228, R252). -/
theorem askedHere_unpaired {s : State} {ans : Option Word} (hu : unpaired s = true) (ha : s.me.asked = some (s.me.pc, ans)) :
    askedHere s = some ans := by
  rw [askedHere, slot_leadOf_unpaired hu, ha]
  exact if_pos rfl

theorem askedHere_popped (s : State) (rs : List Reg) : askedHere (popped s rs) = askedHere s := by
  rw [askedHere, popped_me, popped_cur, popped_slot]
  rfl

/-- A `wpres` that has its answer gives it; its queue registers have been popped at its first issue (R228, R252). -/
theorem present_runs {i : Instr} {h : Hdr} {d a b : Reg} {srcs : List Reg} {add : Bool} (he : ∀ s, exec i s = present s add d a b i h)
    (hs : srcs = if add then [a] else [a, b]) : Runs i h (unpopped srcs) (some d) (fun _ s t => ∃ ans, s.me.mode = true ∧
      s.me.asked = some (s.me.pc, some ans) ∧ t = writeReg (s.modMe fun x => { x with asked := none }) s.cur d ans) := by
  rintro s t hr hu ⟨ans, hm, ha, rfl⟩
  rw [popped_me] at hm ha
  have hasked := askedHere_unpaired hu ha
  rw [he, present, ← hs, hasked]
  refine issue_joint_next hr hu ?_
  dsimp only
  rw [popped_me, hm, askedHere_popped, hasked]
  rfl

/-! ### Sub-warrants (R253, R323) -/

/-- A split or a delegation whose wait for the engine has come to its end gives the engine's code (R228, R253). -/
theorem split_runs {i : Instr} {h : Hdr} {deleg : Bool} {cls : Cls} {d a b c : Reg} (he : ∀ s, exec i s = split s deleg cls d a b c i h) :
    Runs i h [a, b, c] (some d) (fun v s t => ∃ n x part key u w code, s.me.mode = true ∧ inEngineWait s.me = true ∧
      handleOf s (arg v 0) = .ok (n, x) ∧ readRecord s (arg v 1) 128 = .ok (part, w) ∧ recordSpace s (arg v 2) 2048 = .ok key ∧
      splitOutcome w n x part (arg v 2) key cls deleg = (code, u) ∧ t = writeReg u u.cur d (code.zeroExtend 64)) := by
  refine runs_of_body he ?_
  rintro v s t ⟨n, x, part, key, u, w, code, hm, hw, hh, hr, hk, ho, rfl⟩
  rw [hm]
  refine (bind_of_ok hh _).trans ((bind_of_ok hr _).trans ((bind_of_ok hk _).trans ?_))
  dsimp only
  rw [hw, ho]
  rfl

/-! ### Surrender (R254, R325, R373) -/

/-- The surrender of handle 0 ends the context (R254). -/
theorem wsurr_self {h : Hdr} {d a : Reg} {s : State} {x : Handle} (hr : ready (.wsurr h d a) h [a] (some d) s = true) (hu : unpaired s = true)
    (hh : handleOf (popped s [a]) (arg (operands s [a]) 0) = .ok (0, x)) :
    exec (.wsurr h d a) s = .next (ctxEnd (popped s [a]) s.owner 2) := by
  have hown : (popped s [a]).owner = s.owner := congrArg ownerOf (popped_cur s [a])
  rw [← hown]
  exact issue_joint_next (n := .gone) hr hu (bind_of_ok hh _)

/-- The surrender of another handle ends its child, wherever it is, drops the handle of one that has ended, or gives an added warrant back
unless it is in use (R254, R325, R373). -/
theorem wsurr_runs (h : Hdr) (d a : Reg) : Runs (.wsurr h d a) h [a] (some d) (fun v s t => ∃ n x, handleOf s (arg v 0) = .ok (n, x) ∧ n ≠ 0 ∧
    ((∃ o, x.child = some o ∧ t = writeReg (ctxEnd s o 2) (ctxEnd s o 2).cur d 0) ∨
     x.child = none ∧ x.childState = 2 ∧ t = writeReg (s.modCtx s.owner fun c => { c with handles := c.handles.erase n }) s.cur d 0 ∨
     x.child = none ∧ x.childState ≠ 2 ∧ x.away.isSome ∧
       t = writeReg (setHandle s s.owner n { x with away := none, childState := 2, childEnd := 2 }) s.cur d 0 ∨
     x.child = none ∧ x.childState ≠ 2 ∧ x.away = none ∧ addedInUse s s.owner x = true ∧ t = writeReg s s.cur d 1 ∨
     x.child = none ∧ x.childState ≠ 2 ∧ x.away = none ∧ addedInUse s s.owner x = false ∧
       t = writeReg (removeAdded s s.owner n x) (removeAdded s s.owner n x).cur d 0)) := by
  refine runs_of_body (fun _ => rfl) ?_
  rintro v s t ⟨n, x, hh, hn, ht⟩
  refine (bind_of_ok hh _).trans ?_
  dsimp only
  rw [if_neg hn]
  obtain ⟨o, hc, rfl⟩ | ⟨hc, hended, rfl⟩ | ⟨hc, hended, haway, rfl⟩ | ⟨hc, hended, haway, huse, rfl⟩ |
    ⟨hc, hended, haway, huse, rfl⟩ := ht
  case inl =>
    rw [hc]
    rfl
  all_goals
    rw [hc]
    dsimp only
  · rw [if_pos hended]
    rfl
  · rw [if_neg hended, if_pos haway]
    rfl
  all_goals
    rw [if_neg hended, haway, huse]
    rfl

/-- Settles O50: each is an `issue` whose body gives its answer once the premises have taken it past its checks and its wait for the engine. -/
theorem warrantInstructions : Obligations.WarrantInstructions := by
  unfold Obligations.WarrantInstructions
  intro h cls sel d a b c
  refine ⟨present_runs (b := 0) (fun _ => rfl) rfl, present_runs (fun _ => rfl) rfl, split_runs fun _ => rfl, split_runs fun _ => rfl,
    fun s x hr hu hh => wsurr_self hr hu hh, wsurr_runs h d a, runs_of_body (fun _ => rfl) ?query, runs_of_body (fun _ => rfl) ?time,
    runs_of_body (fun _ => rfl) ?attest, runs_of_body (fun _ => rfl) ?renew⟩
  case query =>
    rintro v s t ⟨n, x, hh, rfl⟩
    exact bind_of_ok hh _
  case time =>
    rintro v s t rfl
    rfl
  case attest =>
    rintro v s t ⟨key, nonce, r, u, w, hm, hw, hk, hr, hreport, hu, ht⟩
    rw [hm]
    refine (bind_of_ok hk _).trans ((bind_of_ok hr _).trans ?_)
    dsimp only
    rw [hw, ht, hu, hreport]
    rfl
  case renew =>
    rintro v s t ⟨r, u, w, hm, hw, hr, hu, ht⟩
    rw [hm]
    refine (bind_of_ok hr _).trans ?_
    dsimp only
    rw [hw, ht, hu]
    rfl

end Sys2Proof.Machine
end

section
/-! Settings of the operator and the debug gate (R303, R305, R340, R343, R400, R409, R415, R420, R422, R423). -/

namespace Sys2Proof.Machine
open Sys2Proof.Safety

/-- With the package booted and nothing before it in the order, a setting acts at once (R309, R422). -/
theorem next_setting {s t : State} {o : Order} {act : State → State} (hb : s.pkg.boot = .on) (hw : s.pkg.waiting = []) (h : act s = t) :
    (.next (setting s o act) : Host.Outcome State Fault Refusal) = .next t := by
  rw [setting, inOrder, hb, hw]
  exact congrArg Host.Outcome.next h

/-! ### The key table and the domains (R305, R420, R422) -/

section
variable {s : State} {auth : List Byte × List Byte × List Byte}

/-- An enrolment takes effect where it is the first, or signed. -/
theorem actKeys_enrols {index : Nat} (hi : index < 16) (hok : s.pkg.keys = [] ∨ authOk s auth = true) (key : List Byte) :
    actKeys s auth index (some key) = s.modPkg fun p =>
      { p with keys := p.keys.put index key
               operatorCert := if s.pkg.keys.isEmpty then Config.certificate key Config.identityKey else p.operatorCert } := by
  have hok : (s.pkg.keys.isEmpty || authOk s auth) = true := by simpa using hok
  simp [actKeys, hi, hok]

theorem actKeys_unsigned (index : Nat) (key : List Byte) (hk : s.pkg.keys ≠ []) (ha : authOk s auth = false) :
    actKeys s auth index (some key) = s := by
  simp [actKeys, hk, ha]

theorem actDomains_new {domain : Word} {members : List Word} (ha : authOk s auth = true) (hd : s.pkg.domains.find? domain.toNat = none)
    (hm : members ≠ []) (hlen : members.length ≤ 256) (hroom : s.pkg.domains.length < 4) :
    actDomains s auth domain members = s.modPkg fun p => { p with domains := p.domains.put domain.toNat { members } } := by
  simp [actDomains, ha, hd, hm, Nat.not_lt.2 hlen, Nat.not_le.2 hroom]

/-- A domain is written once. -/
theorem actDomains_known {domain : Word} {members : List Word} (ha : authOk s auth = true) (hd : (s.pkg.domains.find? domain.toNat).isSome)
    (hm : members ≠ []) : actDomains s auth domain members = s := by
  simp [actDomains, ha, hd, hm]

end

/-- The package number is written where no arena lives. -/
theorem actPodn_free {s : State} {auth : List Byte × List Byte × List Byte} {n : Nat} (ha : authOk s auth = true) (hn : n ≤ 63)
    (hfree : ∀ e, e ∈ s.arenas → e.2.holder = 0) : actPodn s auth n = s.modPkg fun p => { p with podn := n } := by
  have hnone : (s.arenas.any fun e => e.2.holder != 0) = false := by simpa using fun k x hx => hfree (k, x) hx
  simp [actPodn, ha, hn, hnone]

/-- Settles O60: a setting acts at once, and each of them acts where it is signed and within its bounds, and leaves the state otherwise. -/
theorem operatorSettings : Obligations.OperatorSettings := by
  unfold Obligations.OperatorSettings
  intro s auth index n d cap key domain members hb hw
  refine ⟨fun hk hi => ?first, fun ha => ⟨fun hi => ?enrol, fun hd hm hlen hroom => ?domain, fun hd hm => ?known, fun hn hfree => ?podn,
    fun hn => ?port, fun hlo hhi => ?threshold, fun hd hlo hhi => ?cap, ?limits⟩, fun ha => ⟨fun hk => ?keys, ?_, ?_, ?_, ?_, ?_, ?_⟩,
    fun hc => ?opens, fun hc => ?closed, ?shut⟩
  case first =>
    refine ⟨_, next_setting hb hw (actKeys_enrols hi (.inl hk) key), Tab.find?_put_self _ _ _, ?_⟩
    rw [hk]
    rfl
  case enrol => exact ⟨_, next_setting hb hw (actKeys_enrols hi (.inr ha) key), Tab.find?_put_self _ _ _⟩
  case domain => exact ⟨_, next_setting hb hw (actDomains_new ha hd hm hlen hroom), Tab.find?_put_self _ _ _⟩
  case known => exact next_setting hb hw (actDomains_known ha hd hm)
  case podn => exact ⟨_, next_setting hb hw (actPodn_free ha hn hfree), rfl⟩
  case port => exact ⟨_, next_setting hb hw (if_pos (by simp [ha, hn])), rfl⟩
  case threshold => exact ⟨_, next_setting hb hw (if_pos (by simp [ha, hlo, hhi])), rfl⟩
  case cap => exact ⟨_, next_setting hb hw (if_pos (by simp [ha, hd, hlo, hhi])), powerOf_modPower _ _ _⟩
  case limits => exact ⟨_, next_setting hb hw (if_pos ha), rfl⟩
  case keys => exact next_setting hb hw (actKeys_unsigned index key hk ha)
  case opens => exact ⟨_, next_setting hb hw (if_neg (by simp [hc])), rfl⟩
  case closed => exact next_setting hb hw (if_pos (by simp [hc]))
  case shut => exact ⟨_, next_setting hb hw (if_neg (by simp)), rfl⟩
  · exact next_setting hb hw (if_pos (by simp [ha]))
  all_goals exact next_setting hb hw (if_neg (by simp [ha]))

end Sys2Proof.Machine
end

section
/-! Messages over the Ostik links, and the spent-serial store (R306 to R308, R408, R410). -/

namespace Sys2Proof.Machine
open Sys2Proof.Safety

theorem sameMemory_of_mem {s t : State} (h : t.mem = s.mem) : SameMemory s t := fun a => readByte_congr h a

/-! ### A message over a link (R408) -/

theorem overLink_dead {s : State} (hl : liveOstik s = []) (n : Nat) (act : State → State) : overLink s n act = s := by
  simp [overLink, hl]

/-- Where some link is authenticated, one of them carries the message. -/
theorem overLink_live {s : State} (hl : liveOstik s ≠ []) (n : Nat) : ∃ v, OnLink s n v ∧ ∀ act, overLink s n act = act v := by
  have hport : Config.freeChoice s.fresh % (liveOstik s).length < (liveOstik s).length := Nat.mod_lt _ (List.length_pos_iff.2 hl)
  refine ⟨_, ⟨(liveOstik s).getD (Config.freeChoice s.fresh % (liveOstik s).length) 0, ?_, rfl⟩, fun act => ?_⟩
  · rw [List.getD_eq_getElem _ _ hport]
    exact List.getElem_mem hport
  · rw [overLink, List.isEmpty_eq_false_iff.2 hl]
    rfl

end Sys2Proof.Machine

namespace Sys2Proof.Safety.OnLink
open Sys2Proof.Machine

variable {s v : State} {n : Nat} (hv : OnLink s n v)
include hv

/-- Of the package, a message changes only the port that carries it. -/
theorem pkg : v.pkg = { s.pkg with ports := v.pkg.ports } := by
  obtain ⟨port, -, rfl⟩ := hv
  rfl

theorem mem : v.mem = s.mem := by
  obtain ⟨port, -, rfl⟩ := hv
  rfl

theorem spent : v.pkg.spent = s.pkg.spent := by rw [hv.pkg]

theorem domains : v.pkg.domains = s.pkg.domains := by rw [hv.pkg]

theorem claims : v.pkg.claims = s.pkg.claims := by rw [hv.pkg]

theorem openClaims : v.pkg.openClaims = s.pkg.openClaims := by rw [hv.pkg]

theorem notices : v.pkg.notices = s.pkg.notices := by rw [hv.pkg]

theorem noticed_eq (serial domain : Word) : noticed v serial domain = noticed s serial domain := by
  rw [noticed, hv.notices, noticed]

theorem homeHere_eq (domain serial : Word) : homeHere v domain serial = homeHere s domain serial := by
  obtain ⟨port, -, rfl⟩ := hv
  rfl

theorem late_eq (c : OpenClaim) : c.late v = c.late s := by
  obtain ⟨port, -, rfl⟩ := hv
  rfl

theorem belowFloor_eq (w : Warrant) : belowFloor v w = belowFloor s w := by
  rw [belowFloor, hv.domains, belowFloor]

end Sys2Proof.Safety.OnLink

namespace Sys2Proof.Machine
open Sys2Proof.Safety

/-! ### The store of a home (R306, R308) -/

/-- A serial without an entry: the floor and the room of the store decide. -/
theorem homeClaim_absent {s : State} {domain serial : Word} (chip : Word) (hs : s.pkg.spent.find? (spentKey domain serial) = none) :
    homeClaim s domain serial chip =
      if serial.toNat / 2 ^ 32 < ((s.pkg.domains.find? domain.toNat).getD { members := [] }).floor then (false, s)
      else if s.pkg.spent.length ≥ 1048576 then (false, s.modPkg fun p => { p with storeFull := true })
      else (true, setSpent s (spentKey domain serial) (.live chip)) := by
  simp only [homeClaim, hs]

/-- A serial that a chip holds: its own claim succeeds where the floor allows it. -/
theorem homeClaim_held {s : State} {domain serial x : Word} (chip : Word)
    (hs : s.pkg.spent.find? (spentKey domain serial) = some (.held x)) : homeClaim s domain serial chip =
      if x = chip ∧ ((s.pkg.domains.find? domain.toNat).getD { members := [] }).floor ≤ serial.toNat / 2 ^ 32 then
        (true, setSpent s (spentKey domain serial) (.live chip))
      else (false, s) := by
  simp only [homeClaim, hs]
  simp

/-- A serial that is LIVE or SPENT is refused. -/
theorem homeClaim_refused {s : State} {domain serial : Word} {e : Spent} (chip : Word)
    (hs : s.pkg.spent.find? (spentKey domain serial) = some e) (he : ∀ x, e ≠ .held x) : homeClaim s domain serial chip = (false, s) := by
  cases e with
  | held x => exact absurd rfl (he x)
  | live x => simp only [homeClaim, hs]
  | spent => simp only [homeClaim, hs]

@[simp] theorem find?_setSpent (s : State) (key : Nat) (e : Spent) : (setSpent s key e).pkg.spent.find? key = some e := Tab.find?_put_self _ _ _

/-- An entry that stands as `e` becomes `f`; any other stays. -/
theorem find?_entryTo (s : State) (key : Nat) (e f : Spent) :
    (if s.pkg.spent.find? key = some e then setSpent s key f else s).pkg.spent.find? key =
      if s.pkg.spent.find? key = some e then some f else s.pkg.spent.find? key := by
  split
  · exact find?_setSpent s key f
  · rfl

theorem homeMove_snd (s : State) (domain serial source target : Word) : (homeMove s domain serial source target).2 =
    if s.pkg.spent.find? (spentKey domain serial) = some (.live source) then setSpent s (spentKey domain serial) (.live target) else s :=
  apply_ite Prod.snd _ _ _

theorem spentKey_domain (domain serial : Word) : spentKey domain serial / 2 ^ 64 = domain.toNat := by
  have := serial.isLt
  unfold spentKey
  omega

theorem spentKey_root (domain serial : Word) : spentKey domain serial % 2 ^ 64 / 2 ^ 32 = serial.toNat / 2 ^ 32 := by
  have := serial.isLt
  unfold spentKey
  omega

/-- A raised floor discards the entries whose ROOT lies below it. -/
theorem find?_raiseFloor (s : State) (domain serial : Word) (f seq : Nat) :
    (raiseFloor s domain.toNat f seq).pkg.spent.find? (spentKey domain serial) =
      if serial.toNat / 2 ^ 32 < f then none else s.pkg.spent.find? (spentKey domain serial) := by
  rw [raiseFloor, State.modPkg_pkg]
  split
  next hlt =>
    refine Tab.find?_filter_none _ _ _ fun e => ?_
    simp [-Nat.reducePow, spentKey_domain, spentKey_root, hlt]
  next hle =>
    refine Tab.find?_filter _ _ _ fun e => ?_
    simp [-Nat.reducePow, spentKey_domain, spentKey_root, Nat.le_of_not_lt hle]

/-! ### The messages of redemption (R306 to R308, R410) -/

section
variable {s v : State} {domain serial : Word}

/-- What a claim makes of the entry of its serial: new, HELD by the chip, or in any other state. -/
theorem homeClaim_entry (hv : OnLink s 1 v) (chip : Word) {key floor : Nat} (hkey : key = spentKey domain serial)
    (hfloor : floor = ((s.pkg.domains.find? domain.toNat).getD { members := [] }).floor) :
    (s.pkg.spent.find? key = none →
      if floor ≤ serial.toNat / 2 ^ 32 ∧ s.pkg.spent.length < 1048576 then
        (homeClaim v domain serial chip).1 = true ∧ (homeClaim v domain serial chip).2.pkg.spent.find? key = some (.live chip)
      else (homeClaim v domain serial chip).1 = false ∧ (homeClaim v domain serial chip).2.pkg.spent = s.pkg.spent ∧
        (floor ≤ serial.toNat / 2 ^ 32 → (homeClaim v domain serial chip).2.pkg.storeFull = true)) ∧
    (∀ x, s.pkg.spent.find? key = some (.held x) →
      if x = chip ∧ floor ≤ serial.toNat / 2 ^ 32 then
        (homeClaim v domain serial chip).1 = true ∧ (homeClaim v domain serial chip).2.pkg.spent.find? key = some (.live chip)
      else (homeClaim v domain serial chip).1 = false ∧ (homeClaim v domain serial chip).2 = v) ∧
    ∀ e, s.pkg.spent.find? key = some e → (∀ x, e ≠ .held x) →
      (homeClaim v domain serial chip).1 = false ∧ (homeClaim v domain serial chip).2 = v := by
  subst hkey hfloor
  rw [← hv.spent, ← hv.domains]
  refine ⟨fun hs => ?_, fun x hs => ?_, fun e hs he => ?_⟩
  · rw [homeClaim_absent chip hs]
    by_cases hbelow : serial.toNat / 2 ^ 32 < ((v.pkg.domains.find? domain.toNat).getD { members := [] }).floor
    · rw [if_pos hbelow, if_neg fun h => Nat.not_le.2 hbelow h.1]
      exact ⟨rfl, rfl, fun h => absurd h (Nat.not_le.2 hbelow)⟩
    · rw [if_neg hbelow]
      by_cases hfull : v.pkg.spent.length ≥ 1048576
      · rw [if_pos hfull, if_neg fun h => Nat.not_lt.2 hfull h.2]
        exact ⟨rfl, rfl, fun _ => rfl⟩
      · rw [if_neg hfull, if_pos ⟨Nat.le_of_not_lt hbelow, Nat.lt_of_not_le hfull⟩]
        exact ⟨rfl, find?_setSpent _ _ _⟩
  · rw [homeClaim_held chip hs]
    split
    · exact ⟨rfl, find?_setSpent _ _ _⟩
    · exact ⟨rfl, rfl⟩
  · rw [homeClaim_refused chip hs he]
    exact ⟨rfl, rfl⟩

/-- A claim whose time has run out is an open one, and its presentation is UNREACHABLE. -/
theorem dropLate_late {nonce : Word} {c : OpenClaim} (hc : s.pkg.claims.find? (fun c => c.nonce == nonce && c.late s) = some c) :
    dropLate s nonce = answer (s.modPkg fun p =>
      { p with claims := p.claims.filter fun x => x.nonce != nonce, openClaims := p.openClaims ++ [(c.w.serial, c.w.domain)] }) c.p 9 0 0 := by
  rw [dropLate, hc]

/-- Whether a confirmation clears an open withdrawal, and not an end notice: where both are open a free value says which. -/
def clearsWithdrawal (s : State) (serial domain : Word) : Bool :=
  s.pkg.openClaims.contains (serial, domain) && (!noticed s serial domain || Config.freeKeep s.fresh)

/-- The state behind a confirmation. -/
def confirmed (s : State) (serial domain : Word) : State :=
  s.tick.2.modPkg fun p =>
    if clearsWithdrawal s serial domain then { p with openClaims := p.openClaims.filter (· != (serial, domain)) }
    else { p with notices := p.notices.eraseP fun e => e.1 == serial && e.2.1 == domain }

theorem exec_homeConfirmation_live (hact : ∀ act, overLink s 1 act = act v) :
    exec (.homeConfirmation serial domain) s = .next (confirmed v serial domain) := congrArg Host.Outcome.next (hact _)

theorem confirmed_withdrawal (h : clearsWithdrawal s serial domain = true) : (confirmed s serial domain).pkg =
    { s.pkg with openClaims := s.pkg.openClaims.filter (· != (serial, domain)) } := if_pos h

theorem confirmed_notice (h : clearsWithdrawal s serial domain = false) : (confirmed s serial domain).pkg =
    { s.pkg with notices := s.pkg.notices.eraseP fun e => e.1 == serial && e.2.1 == domain } := if_neg (by rw [h]; decide)

end

/-- Settles O56: a message reaches its receiver over a live link and finds the store, the claims and the notices as they were. -/
theorem redemptionEvents : Obligations.RedemptionEvents := by
  unfold Obligations.RedemptionEvents
  intro s serial domain chip source target nonce accept code key floor seq hkey hfloor
  refine ⟨fun hhome hl => ?home, fun f => hkey ▸ find?_raiseFloor s domain serial f seq, fun hl c hc => ?answered, fun hl hc => ?discarded,
    fun c hc => ?timeout, fun hl => ?confirmation, fun hl => ?dead⟩
  case home =>
    obtain ⟨v, hv, hact⟩ := overLink_live hl 1
    have hhere : homeHere v domain serial = true := (hv.homeHere_eq domain serial).trans hhome
    refine ⟨⟨v, (homeClaim v domain serial chip).1, (homeClaim v domain serial chip).2, hv, rfl,
       congrArg Host.Outcome.next ((hact _).trans (if_pos hhere)), ?claim⟩,
      ⟨_, congrArg Host.Outcome.next ((hact _).trans (if_pos hhere)), ?withdrawal⟩,
      ⟨_, congrArg Host.Outcome.next ((hact _).trans (if_pos hhere)), ?endNotice⟩,
      ⟨_, congrArg Host.Outcome.next ((hact _).trans (if_pos hhere)), ?moveNotice⟩⟩
    case claim =>
      obtain ⟨hnew, hheld, hother⟩ := homeClaim_entry hv chip hkey hfloor
      cases hs : s.pkg.spent.find? key with
      | none => exact hnew hs
      | some e =>
        cases e with
        | held x => exact hheld x hs
        | live x => exact hother _ hs fun y => Spent.noConfusion
        | spent => exact hother _ hs fun y => Spent.noConfusion
    case withdrawal =>
      rw [hkey, ← hv.spent]
      exact find?_entryTo _ _ _ _
    case endNotice =>
      rw [hkey, ← hv.spent]
      exact find?_entryTo _ _ _ _
    case moveNotice =>
      rw [hkey, ← hv.spent, homeMove_snd]
      exact find?_entryTo _ _ _ _
  case answered =>
    obtain ⟨v, hv, hact⟩ := overLink_live hl 1
    refine ⟨v, _, hv, rfl, congrArg Host.Outcome.next ((hact _).trans ?_)⟩
    simp only [hv.claims, hv.late_eq, hc, hv.belowFloor_eq]
  case discarded =>
    obtain ⟨v, hv, hact⟩ := overLink_live hl 1
    refine ⟨v, hv, congrArg Host.Outcome.next ((hact _).trans ?_)⟩
    simp only [hv.claims, hv.late_eq, hc]
  case timeout =>
    refine ⟨_, ?_, ?_, ?_, congrArg Host.Outcome.next (dropLate_late hc)⟩
    · rfl
    · rfl
    · exact sameMemory_of_mem rfl
  case confirmation =>
    obtain ⟨v, hv, hact⟩ := overLink_live hl 1
    refine ⟨_, exec_homeConfirmation_live hact, sameMemory_of_mem hv.mem, ?_⟩
    rw [← hv.openClaims, ← hv.notices, ← hv.noticed_eq]
    cases hw : clearsWithdrawal v serial domain with
    | true =>
      rw [confirmed_withdrawal hw]
      have hopen : (serial, domain) ∈ v.pkg.openClaims := by simpa using (Bool.and_eq_true_iff.1 hw).1
      have hgone : (serial, domain) ∉ v.pkg.openClaims.filter (· != (serial, domain)) := by simp
      exact ⟨.inl ⟨hgone, rfl⟩, fun _ => hgone, fun h => absurd hopen h⟩
    | false =>
      rw [confirmed_notice hw]
      refine ⟨.inr ⟨rfl, rfl⟩, fun hn => ?_, fun _ => rfl⟩
      simpa [clearsWithdrawal, hn] using hw
  case dead => exact ⟨congrArg Host.Outcome.next (overLink_dead hl _ _), congrArg Host.Outcome.next (overLink_dead hl _ _),
    congrArg Host.Outcome.next (overLink_dead hl _ _), congrArg Host.Outcome.next (overLink_dead hl _ _),
    congrArg Host.Outcome.next (overLink_dead hl _ _), congrArg Host.Outcome.next (overLink_dead hl _ _)⟩

end Sys2Proof.Machine
end

section
/-! The mailbox orders and their answers (R304, R308, R309, R311, R338, R397, R404 to R406, R410). -/

namespace Sys2Proof.Machine
open Sys2Proof.Safety

/-! ### The mailbox (R404 to R406) -/

section
variable {s : State} {kind : Nat} {tag : Word} {payload : List Byte} {act : State → State}

theorem submit_closed (hc : mailboxOpen s = false) : submit s kind tag payload act = s := by simp [submit, hc]

/-- A request that fits the buffer acts behind its arrival. -/
theorem submit_open (ho : mailboxOpen s = true) (hlen : payload.length ≤ 32736) :
    submit s kind tag payload act = act (requested s kind tag payload) := by
  have h : 32 + payload.length ≤ 32768 := by omega
  simp [submit, ho, h]

/-- With the mailbox open and nothing before it, an order acts at once (R309). -/
theorem submit_order {o : Order} (ho : mailboxOpen s = true) (hw : s.pkg.waiting = []) (hlen : payload.length ≤ 32736) :
    submit s kind tag payload (inOrder · o act) = act (requested s kind tag payload) := by
  have hfirst : (requested s kind tag payload).pkg.waiting = [] := hw
  rw [submit_open ho hlen, inOrder, hfirst]
  rfl

end

theorem length_requestHeader (kind : Nat) (tag : Word) (payload : List Byte) : (requestHeader kind tag payload).length = 32 := by
  simp [requestHeader, le, zeros]

theorem length_hostWhere (f : Nat) (bytes : List Byte) : (hostWhere f bytes).length = 16 := by simp [hostWhere, le]

/-- A request begins with its header. -/
theorem requested_header (s : State) (kind : Nat) (tag : Word) (payload : List Byte) :
    (requested s kind tag payload).pkg.req.take 32 = requestHeader kind tag payload := by
  change List.take 32 (List.take 32768 (requestHeader kind tag payload ++ payload ++ _)) = _
  rw [List.take_take, List.append_assoc]
  exact List.take_left' (length_requestHeader kind tag payload)

/-- A state with some request and some counter of free values in place of its own. -/
def withRequest (s : State) (fresh doorbell : Nat) (req : List Byte) : State :=
  { s with fresh, pkg := { s.pkg with request := true, doorbell, req } }

/-- A request changes the mailbox and the counter of free values alone. -/
theorem requested_eq (s : State) (kind : Nat) (tag : Word) (payload : List Byte) :
    ∃ fresh doorbell req, requested s kind tag payload = withRequest s fresh doorbell req := ⟨_, _, _, rfl⟩

theorem arrivePresentation_waits {s : State} (h : (s.pkg.waiting.filter Queued.isPres).length < 16) (p : Presentation) :
    arrivePresentation s p = s.modPkg fun q => { q with waiting := q.waiting ++ [.pres p] } := if_neg (Nat.not_le.2 h)

theorem orderDone_answered (s : State) (tag : Word) (code : BitVec 8) (owner : Nat) : Answered (orderDone s tag code owner) tag code owner :=
  ⟨rfl, rfl⟩

theorem orderDone_clock (s : State) (tag : Word) (code : BitVec 8) (owner : Nat) : (orderDone s tag code owner).pkg.clock = s.pkg.clock := by
  simp only [orderDone, respond, boxAdd, State.modPkg_pkg]

theorem orderDone_slew (s : State) (tag : Word) (code : BitVec 8) (owner : Nat) : (orderDone s tag code owner).pkg.slew = s.pkg.slew := by
  simp only [orderDone, respond, boxAdd, State.modPkg_pkg]

theorem orderDone_anchored (s : State) (tag : Word) (code : BitVec 8) (owner : Nat) :
    (orderDone s tag code owner).pkg.anchored = s.pkg.anchored := by
  simp only [orderDone, respond, boxAdd, State.modPkg_pkg]

theorem respond_answered (s : State) (tag : Word) (code : BitVec 8) (owner : Nat) : Answered (respond s tag code owner) tag code owner :=
  ⟨rfl, rfl⟩

/-! ### Time (R311, R312) -/

/-- The record of a notice for the slot that takes it leaves the package. -/
theorem noticePend_pkg (s : State) (o : Nat) : (noticePend s o).pkg = s.pkg := by
  suffices h : ∀ f, f = noticePend → (f s o).pkg = s.pkg from h _ rfl
  intro f hf
  delta noticePend at hf
  subst hf
  beta_reduce
  generalize noticeSlot s o = slot
  cases slot with
  | none => rfl
  | some k =>
    dsimp only
    split
    · rfl
    · exact foldl_keeps State.pkg (fun _ _ => State.modSlot_pkg _ _ _) _ _

theorem noticeDue_pkg (s : State) (o n : Nat) : (noticeDue s o n).pkg = s.pkg := by
  unfold noticeDue
  dsimp only
  split
  · rfl
  · exact noticePend_pkg _ o

theorem stepNotices_pkg (s : State) (before : Nat) : (stepNotices s before).pkg = s.pkg := by
  unfold stepNotices
  refine foldl_keeps State.pkg (fun u e => ?_) _ s
  exact noticeDue_pkg u e.1 _

/-- A step of the clock takes it to the new value, and ends a slew. -/
theorem stepClock_pkg (s : State) (t : Nat) : (stepClock s t).pkg = { s.pkg with clock := t, slew := none } := by
  have hnotices : (stepNotices (s.modPkg fun p => { p with clock := t, slew := none }) s.pkg.clock).pkg =
      { s.pkg with clock := t, slew := none } := stepNotices_pkg _ _
  unfold stepClock
  dsimp only
  split
  · exact hnotices
  · exact hnotices

section
variable {s : State} {t : Nat}

/-- The first valid token anchors the clock. -/
theorem setTime_anchors (ha : s.pkg.anchored = false) (ht : s.pkg.clock ≤ t) :
    setTime s t = s.modPkg fun p => { p with clock := t, anchored := true } := by
  simp [setTime, ha, ht]

/-- The clock is never set back. -/
theorem setTime_past (ha : s.pkg.anchored = true) (ht : t ≤ s.pkg.clock) : setTime s t = s := by simp [setTime, ha, ht]

theorem setTime_slews (ha : s.pkg.anchored = true) (hlo : s.pkg.clock < t) (hhi : t ≤ s.pkg.clock + 10000000) :
    setTime s t = s.modPkg fun p => { p with slew := some (t - s.pkg.clock) } := by
  simp [setTime, ha, Nat.not_le.2 hlo, Nat.not_lt.2 hhi]

theorem setTime_steps (ha : s.pkg.anchored = true) (ht : s.pkg.clock + 10000000 < t) : setTime s t = stepClock s t := by
  have hlo : ¬ t ≤ s.pkg.clock := by omega
  simp [setTime, ha, hlo, ht]

end

theorem actTime_refused {s : State} {r : List Byte} (tag : Word) (hc : tokenCode s r ≠ 0) :
    actTime s tag r = orderDone s tag (tokenCode s r) 0 := by
  unfold actTime
  dsimp only
  rw [if_neg hc]

theorem actTime_valid {s : State} {r : List Byte} (tag : Word) (hc : tokenCode s r = 0) :
    actTime s tag r = orderDone (setTime (drawChallenge s) (field r 80 8)) tag 0 0 := by
  simp [actTime, hc]

/-- A token acts: it is answered with its code, and a valid one anchors the clock, steps it forward or has it slew. -/
theorem actTime_effect (s : State) (tag : Word) (r : List Byte) :
    Answered (actTime s tag r) tag (tokenCode s r) 0 ∧ SameMemory s (actTime s tag r) ∧
      (tokenCode s r ≠ 0 → (actTime s tag r).pkg.clock = s.pkg.clock) ∧
      (tokenCode s r = 0 → s.pkg.anchored = false → s.pkg.clock ≤ field r 80 8 →
        (actTime s tag r).pkg.clock = field r 80 8 ∧ (actTime s tag r).pkg.anchored = true) ∧
      (tokenCode s r = 0 → s.pkg.anchored = true → field r 80 8 ≤ s.pkg.clock →
        (actTime s tag r).pkg.clock = s.pkg.clock ∧ (actTime s tag r).pkg.slew = s.pkg.slew) ∧
      (tokenCode s r = 0 → s.pkg.anchored = true → s.pkg.clock < field r 80 8 → field r 80 8 ≤ s.pkg.clock + 10000000 →
        (actTime s tag r).pkg.clock = s.pkg.clock ∧ (actTime s tag r).pkg.slew = some (field r 80 8 - s.pkg.clock)) ∧
      (tokenCode s r = 0 → s.pkg.anchored = true → s.pkg.clock + 10000000 < field r 80 8 →
        (actTime s tag r).pkg.clock = field r 80 8 ∧ (actTime s tag r).pkg.slew = none) := by
  refine ⟨orderDone_answered _ _ _ _, sameMemory_of_mem (actTime_mem s tag r), fun hc => ?_, fun hc ha ht => ?_, fun hc ha ht => ?_,
    fun hc ha hlo hhi => ?_, fun hc ha ht => ?_⟩
  · rw [actTime_refused tag hc, orderDone_clock]
  all_goals rw [actTime_valid tag hc, orderDone_clock]
  · rw [orderDone_anchored, setTime_anchors (s := drawChallenge s) ha ht]
    exact ⟨rfl, rfl⟩
  · rw [orderDone_slew, setTime_past (s := drawChallenge s) ha ht]
    exact ⟨rfl, rfl⟩
  · rw [orderDone_slew, setTime_slews (s := drawChallenge s) ha hlo hhi]
    exact ⟨rfl, rfl⟩
  · rw [orderDone_slew, setTime_steps (s := drawChallenge s) ha ht, stepClock_pkg]
    exact ⟨rfl, rfl⟩

/-! ### The floor (R308) -/

/-- A floor order acts: it is answered with its code, and a valid one raises the floor of its domain. -/
theorem actFloor_effect (s : State) (tag : Word) (r : List Byte) :
    Answered (actFloor s tag r) tag (floorCode s r) 0 ∧ SameMemory s (actFloor s tag r) ∧
      (floorCode s r ≠ 0 → (actFloor s tag r).pkg.domains = s.pkg.domains ∧ (actFloor s tag r).pkg.spent = s.pkg.spent) ∧
      (floorCode s r = 0 → ∀ d, s.pkg.domains.find? (field r 64 8) = some d →
        (actFloor s tag r).pkg.domains.find? (field r 64 8) = some { d with floor := field r 72 4, seq := field r 80 8 }) := by
  refine ⟨orderDone_answered _ _ _ _, sameMemory_of_mem (actFloor_mem s tag r), fun hc => ?_, fun hc d hd => ?_⟩
  · rw [actFloor, if_neg hc]
    exact ⟨rfl, rfl⟩
  · rw [actFloor, if_pos hc]
    have hget : s.pkg.domains.get { members := [] } (field r 64 8) = d := by rw [Tab.get, hd, Option.getD_some]
    refine (Tab.find?_put_self _ _ _).trans ?_
    rw [hget]

/-! ### Launch (R338) -/

/-- The challenge that a holder's proof has used is drawn anew. -/
def proofUsed (s : State) (proof : List Byte) : State := if proof.isEmpty then s else drawChallenge s

theorem proofUsed_slots (s : State) (proof : List Byte) : (proofUsed s proof).slots = s.slots := by
  unfold proofUsed
  split
  · rfl
  · rfl

theorem proofUsed_mem (s : State) (proof : List Byte) : (proofUsed s proof).mem = s.mem := by
  unfold proofUsed
  split
  · rfl
  · rfl

section
variable {s : State} {serial : Word}

theorem actLaunch_absent (tag : Word) (key proof : List Byte) (h : ctxOfSerial s serial (fun c => c.phase == .abrupt && !c.gone) = none) :
    actLaunch s tag serial key proof = orderDone (proofUsed s proof) tag 3 0 := by
  simp only [actLaunch, h]
  rfl

theorem actLaunch_found {o : Nat} (tag : Word) (key proof : List Byte)
    (h : ctxOfSerial s serial (fun c => c.phase == .abrupt && !c.gone) = some o) : actLaunch s tag serial key proof =
      if launchProof s o key proof then orderDone (relaunch (proofUsed s proof) o) tag 0 o else orderDone (proofUsed s proof) tag 2 0 := by
  simp only [actLaunch, h]
  rfl

end

/-! ### Move orders (R410) -/

theorem actMove_malformed {s : State} {r : List Byte} (tag : Word) (fits : Option (BitVec 8)) (h : moveOk r = false) :
    actMove s tag r fits = orderDone s tag 1 0 := by
  simp [actMove, h]

section
variable {s : State} {r : List Byte} {o : Nat} (hok : moveOk r = true) (hsig : signedBy r (operatorKey s (signerOf r)) = true)
  (ho : ctxOfSerial s (fieldWord r 64) (fun c => c.phase != .building) = some o)
include hok hsig ho

theorem actMove_moving (tag : Word) (fits : Option (BitVec 8)) (hm : (s.ctx o).move.isSome = true) :
    actMove s tag r fits = orderDone s tag 13 0 := by
  simp [actMove, hok, hsig, ho, hm]

/-- The target has answered over a link. -/
theorem actMove_fits (tag : Word) (code : BitVec 8) (hm : (s.ctx o).move = none) (hl : liveOstik s ≠ []) : actMove s tag r (some code) =
    if code = 0 then overLink s (1 + copyFlits (domainPages s o).length) fun s =>
      orderDone (startMove s o (fieldWord r 72) (field r 80 1) tag) tag 0 0
    else overLink s 1 (orderDone · tag (if code = 6 then 6 else 10) 0) := by
  have hlive : ((some code).filter fun _ => !(liveOstik s).isEmpty) = some code := by simp [hl]
  simp [actMove, hok, hsig, ho, hm, hlive]

theorem actMove_silent (tag : Word) (fits : Option (BitVec 8)) (hm : (s.ctx o).move = none) (hl : fits = none ∨ liveOstik s = []) :
    actMove s tag r fits = orderDone s tag 9 0 := by
  have hnone : (fits.filter fun _ => !(liveOstik s).isEmpty) = none := by
    obtain rfl | hl := hl
    · rfl
    · cases fits <;> simp [hl]
  simp [actMove, hok, hsig, ho, hm, hnone]

end

/-! ### Test packages (R397) -/

theorem recordedAnswer_quads (s : State) (tag : Word) (code : BitVec 8) (data : List Byte) :
    (respond (boxAdd s 0x20 0 0 data) tag code 0).pkg.quads = s.pkg.quads := by
  simp only [respond, boxAdd, State.modPkg_pkg]

/-- The quads that a test package takes. -/
def testQuads (s : State) (l : List Nat) : State := l.foldl (fun s q => s.modPkg fun p => { p with quads := p.quads.put q .testing }) s

theorem testQuads_quads (l : List Nat) (s : State) (q : Nat) :
    (testQuads s l).pkg.quads.get .working q = if q ∈ l then .testing else s.pkg.quads.get .working q := by
  induction l generalizing s with
  | nil => rfl
  | cons k l ih =>
    have hk : (testQuads s (k :: l)).pkg.quads.get .working q = _ := ih (s.modPkg fun p => { p with quads := p.quads.put k .testing })
    rw [hk, State.modPkg_pkg]
    by_cases h : q = k
    · subst h
      simp [Tab.get_put_self]
    · simp [h, Tab.get_put_ne _ _ _ h]

section
variable {s : State} {package sig : List Byte}

theorem actTest_malformed (tag : Word) (quads : List Nat) (h : parseImage package = none) :
    actTest s tag package sig quads = respond (boxAdd s 0x20 0 0 [1]) tag 1 0 := by
  simp [actTest, h]

theorem actTest_unsigned (tag : Word) (quads : List Nat) (h : (parseImage package).isSome = true)
    (hs : Config.falconVerify Config.vendorKey (shake256 package 64) sig = false) :
    actTest s tag package sig quads = respond (boxAdd s 0x20 0 0 [2]) tag 2 0 := by
  simp [actTest, Option.isSome_iff_ne_none.1 h, hs]

theorem actTest_signed (tag : Word) (quads : List Nat) (h : (parseImage package).isSome = true)
    (hs : Config.falconVerify Config.vendorKey (shake256 package 64) sig = true) :
    actTest s tag package sig quads = respond (boxAdd (testQuads s (quads.filter (idlePhysical s))) 0x20 0 0 [0]) tag 0 0 := by
  simp [actTest, Option.isSome_iff_ne_none.1 h, hs, testQuads]

end

/-! ### Each order acts on the state with its request (R309, R405) -/

section
variable {s : State} (ho : mailboxOpen s = true) (hw : s.pkg.waiting = [])
include ho hw

theorem exec_time_first (tag : Word) {r : List Byte} (hr : r.length ≤ 32736) :
    exec (.time tag r) s = .next (actTime (requested s 2 tag r) tag r) := congrArg Host.Outcome.next (submit_order ho hw hr)

theorem exec_floor_first (tag : Word) {r : List Byte} (hr : r.length ≤ 32736) :
    exec (.floor tag r) s = .next (actFloor (requested s 3 tag r) tag r) := congrArg Host.Outcome.next (submit_order ho hw hr)

theorem exec_launch_first (tag serial : Word) {key proof : List Byte} (hlen : key.length + proof.length ≤ 32720) :
    exec (.launch tag serial key proof) s =
      .next (actLaunch (requested s 4 tag (le 8 serial.toNat ++ key ++ proof)) tag serial key proof) := by
  refine congrArg Host.Outcome.next (submit_order ho hw ?_)
  simp only [List.length_append, le, length_leBytes]
  omega

theorem exec_move_first (tag : Word) {r : List Byte} (fits : Option (BitVec 8)) (hr : r.length ≤ 32736) :
    exec (.move tag r fits) s = .next (actMove (requested s 5 tag r) tag r fits) := congrArg Host.Outcome.next (submit_order ho hw hr)

theorem exec_test_first (tag : Word) (package sig : List Byte) (quads : List Nat) : exec (.test tag package sig quads) s =
    .next (actTest (requested s 6 tag (hostWhere s.fresh (package ++ sig))) tag package sig quads) := by
  refine congrArg Host.Outcome.next (submit_order ho hw ?_)
  rw [length_hostWhere]
  omega

end

/-- Settles O55: an order acts on the state with its request, which differs from the one before in the mailbox and the free values alone. -/
theorem mailboxOrders : Obligations.MailboxOrders := by
  unfold Obligations.MailboxOrders
  intro s tag serial r image key proof sig fits quads hlen
  have hr : r.length ≤ 32736 := by omega
  have hkey : key.length + proof.length ≤ 32720 := by omega
  refine ⟨fun ho hroom => ?present, fun ho hw => ?first, fun hc => ?closed⟩
  case present =>
    have hpayload : (r ++ hostWhere s.fresh image ++ key ++ proof).length ≤ 32736 := by
      simp only [List.length_append, length_hostWhere]
      omega
    have hheader := requested_header s 1 tag (r ++ hostWhere s.fresh image ++ key ++ proof)
    rw [exec_present, execPresent, submit_open ho hpayload]
    obtain ⟨fresh, doorbell, req, hq⟩ := requested_eq s 1 tag (r ++ hostWhere s.fresh image ++ key ++ proof)
    rw [hq] at hheader ⊢
    exact ⟨_, congrArg Host.Outcome.next (arrivePresentation_waits (s := withRequest s fresh doorbell req) hroom _), rfl, rfl, hheader⟩
  case first =>
    obtain ⟨f2, d2, q2, htime⟩ := requested_eq s 2 tag r
    obtain ⟨f3, d3, q3, hfloor⟩ := requested_eq s 3 tag r
    obtain ⟨f4, d4, q4, hlaunch⟩ := requested_eq s 4 tag (le 8 serial.toNat ++ key ++ proof)
    obtain ⟨f5, d5, q5, hmove⟩ := requested_eq s 5 tag r
    obtain ⟨f6, d6, q6, htest⟩ := requested_eq s 6 tag (hostWhere s.fresh (r ++ sig))
    rw [exec_time_first ho hw tag hr, exec_floor_first ho hw tag hr, exec_launch_first ho hw tag serial hkey,
      exec_move_first ho hw tag fits hr, exec_test_first ho hw, htime, hfloor, hlaunch, hmove, htest]
    refine ⟨⟨_, rfl, actTime_effect (withRequest s f2 d2 q2) tag r⟩, ⟨_, rfl, actFloor_effect (withRequest s f3 d3 q3) tag r⟩,
      fun hnone => ?absent, fun o hfound => ⟨fun hp => ?unproved, fun hp => ?launched⟩, fun hbad => ?badMove,
      fun o hok hsig hfound => ⟨fun hm => ?moving, fun hm hf hl => ?fits, fun code hm hf hc hl => ?refused, fun hm hf => ?silent⟩,
      fun hp => ?badTest, fun hp hs => ?unsigned, fun hp hs => ?tested⟩
    case absent =>
      rw [actLaunch_absent (s := withRequest s f4 d4 q4) tag key proof hnone]
      exact ⟨_, rfl, orderDone_answered _ _ _ _, sameMemory_of_mem (proofUsed_mem _ _)⟩
    case unproved =>
      rw [actLaunch_found (s := withRequest s f4 d4 q4) tag key proof hfound, hp, if_neg Bool.false_ne_true]
      exact ⟨_, rfl, orderDone_answered _ _ _ _, sameMemory_of_mem (proofUsed_mem _ _)⟩
    case launched =>
      rw [actLaunch_found (s := withRequest s f4 d4 q4) tag key proof hfound, hp, if_pos rfl]
      exact ⟨proofUsed (withRequest s f4 d4 q4) proof, proofUsed_slots _ _, sameMemory_of_mem (proofUsed_mem _ _), rfl⟩
    case badMove =>
      rw [actMove_malformed (s := withRequest s f5 d5 q5) tag fits hbad]
      exact ⟨_, rfl, orderDone_answered _ _ _ _, sameMemory_of_mem (orderDone_mem _ _ _ _)⟩
    case moving =>
      rw [actMove_moving (s := withRequest s f5 d5 q5) hok hsig hfound tag fits hm]
      exact ⟨_, rfl, orderDone_answered _ _ _ _⟩
    case fits =>
      obtain ⟨v, hv, hact⟩ := overLink_live (s := withRequest s f5 d5 q5) hl (1 + copyFlits (domainPages s o).length)
      rw [hf, actMove_fits (s := withRequest s f5 d5 q5) hok hsig hfound tag 0 hm hl, if_pos rfl]
      exact ⟨v, hv, congrArg Host.Outcome.next (hact _)⟩
    case refused =>
      obtain ⟨v, hv, hact⟩ := overLink_live (s := withRequest s f5 d5 q5) hl 1
      rw [hf, actMove_fits (s := withRequest s f5 d5 q5) hok hsig hfound tag code hm hl, if_neg hc, hact]
      exact ⟨_, rfl, orderDone_answered _ _ _ _⟩
    case silent =>
      rw [actMove_silent (s := withRequest s f5 d5 q5) hok hsig hfound tag fits hm hf]
      exact ⟨_, rfl, orderDone_answered _ _ _ _⟩
    case badTest =>
      rw [actTest_malformed tag quads hp]
      exact ⟨_, rfl, respond_answered _ _ _ _, recordedAnswer_quads _ _ _ _⟩
    case unsigned =>
      rw [actTest_unsigned tag quads hp hs]
      exact ⟨_, rfl, respond_answered _ _ _ _, recordedAnswer_quads _ _ _ _⟩
    case tested =>
      rw [actTest_signed tag quads hp hs]
      refine ⟨_, rfl, respond_answered _ _ _ _, fun q => ?_⟩
      rw [recordedAnswer_quads, testQuads_quads]
      simp only [List.mem_filter]
      rfl
  case closed => simp only [exec_present, execPresent, exec_time, execTime, exec_floor, execFloor, exec_launch, execLaunch, exec_move, execMove,
    exec_test, execTest, submit_closed hc, and_self]

end Sys2Proof.Machine
end

section
/-! Pre-emption: the stop, the swap, the restore, slices and the harbour scrub (R316, R359 to R368). -/

namespace Sys2Proof

theorem Tab.mem_of_find? {α : Type} {t : Tab α} {n : Nat} {v : α} (h : Tab.find? t n = some v) : (n, v) ∈ t := by
  induction t with
  | nil => cases h
  | cons e t ih =>
    obtain ⟨k, w⟩ := e
    by_cases hk : n = k
    · subst hk
      have hw : w = v := by simpa [Tab.find?] using h
      exact hw ▸ List.mem_cons_self
    · have ht : Tab.find? t n = some v := by simpa [Tab.find?, hk] using h
      exact List.mem_cons_of_mem _ (ih ht)

/-- The parts of a table's values behind a put that leaves those of the number's own value: the same elements, whatever the table's order. -/
theorem Tab.mem_flatMap_put {α β : Type} {t : Tab α} {d v : α} {n : Nat} {g : α → List β} (hd : g d = []) (hv : g v = g (t.get d n)) (b : β) :
    b ∈ (t.put n v).flatMap (fun e => g e.2) ↔ b ∈ t.flatMap fun e => g e.2 := by
  induction t with
  | nil =>
    have hnil : g v = [] := hv.trans hd
    simp [Tab.put, hnil]
  | cons e t ih =>
    obtain ⟨k, w⟩ := e
    by_cases hk : n = k
    · subst hk
      have hw : g v = g w := by simpa [Tab.get, Tab.find?] using hv
      simp [Tab.put, hw]
    · have hv' : g v = g (Tab.get t d n) := by simpa [Tab.get, Tab.find?, hk] using hv
      have hfound : b ∈ g v → b ∈ t.flatMap fun e => g e.2 := by
        rw [hv', Tab.get]
        cases hf : Tab.find? t n with
        | none => simp [hd]
        | some u => exact fun hb => List.mem_flatMap.2 ⟨(n, u), Tab.mem_of_find? hf, hb⟩
      simp only [Tab.put, if_neg hk]
      split
      · rw [List.flatMap_cons, List.mem_append]
        exact ⟨fun h => h.elim (fun hb => List.mem_append_right _ (hfound hb)) id, .inr⟩
      · rw [List.flatMap_cons, List.flatMap_cons, List.mem_append, List.mem_append, ih hv']

namespace Machine
open Sys2Proof.Safety

/-- What an update leaves of a context it leaves of every context. -/
theorem ctx_modCtx_keeps {β : Type} (g : Ctx → β) {f : Ctx → Ctx} (hf : ∀ c, g (f c) = g c) (s : State) (o x : Nat) :
    g ((s.modCtx o f).ctx x) = g (s.ctx x) := by
  by_cases h : x = o
  · subst h
    rw [State.modCtx_ctx, hf]
  · rw [State.modCtx_ctx_ne s f h]

/-! ### The stop (R359) -/

section
variable (s : State) (o : Nat) (cause : BitVec 8)

theorem stopCtx_ctx : (stopCtx s o cause).ctx o = { s.ctx o with phase := .stopping, cause, outAt := s.cycle } := State.modCtx_ctx _ _ _

theorem stopCtx_drained : drained (stopCtx s o cause) o = drained s o := by
  simp only [drained, State.coresOf, State.quadsOf, State.quaysOf, State.quayCores, stopCtx_ctx]
  rfl

theorem stopCtx_rects (x : Nat) : (stopCtx s o cause).rects x = s.rects x :=
  ctx_modCtx_keeps (fun c : Ctx => c.rect :: c.handles.filterMap fun e : Nat × Handle => e.2.rect) (fun _ => by rfl) s o x

theorem stopCtx_physQuad (k : Nat) : (stopCtx s o cause).physQuad k = s.physQuad k := by
  simp only [State.physQuad, stopCtx_rects]

theorem stopCtx_quadsHeld : quadsHeld (stopCtx s o cause) o = quadsHeld s o := by
  have hphys : (stopCtx s o cause).physQuad = s.physQuad := funext (stopCtx_physQuad s o cause)
  simp only [quadsHeld, State.quadsOf, State.hasQuad, stopCtx_ctx, hphys]

/-- A stop frees no berth and takes none. -/
theorem stopCtx_berthsUsed (b : Nat) : b ∈ berthsUsed (stopCtx s o cause) ↔ b ∈ berthsUsed s := by
  rw [berthsUsed, berthsUsed, List.mem_append, List.mem_append]
  refine or_congr ?_ Iff.rfl
  exact Tab.mem_flatMap_put (t := s.ctxs) (d := {}) (n := o) (v := { s.ctx o with phase := .stopping, cause, outAt := s.cycle })
    (g := fun c => c.berthsOwn ++ c.berthsHeld) rfl rfl b

theorem stopCtx_berthFor (p : Nat × Nat) : berthFor (stopCtx s o cause) o p = berthFor s o p := by
  have hfree : ∀ own : List Nat, (berthsOf p).filter (fun b => !(own ++ berthsUsed (stopCtx s o cause)).contains b) =
      (berthsOf p).filter fun b => !(own ++ berthsUsed s).contains b := by
    refine fun own => List.filter_congr fun b _ => ?_
    simp only [List.contains_eq_mem, List.mem_append, stopCtx_berthsUsed]
  simp only [berthFor, stopCtx_ctx, hfree]

theorem stopCtx_mustSpill : mustSpill (stopCtx s o cause) o = mustSpill s o := by
  have hspill : ∀ p, spilling (stopCtx s o cause) o p = spilling s o p := fun p => by
    simp only [spilling, stopCtx_berthFor]
    rfl
  simp only [mustSpill, stopCtx_ctx, stopCtx_quadsHeld, hspill]

end

/-! ### What berths, straits and inboxes leave of a context -/

/-- Where a context stands, with its cause, the cycle in which it got its quads, and whether its image is good. -/
def standing (c : Ctx) : Phase × BitVec 8 × Nat × Rect × Bool := (c.phase, c.cause, c.ranAt, c.rect, c.badImage)

theorem takeBerth_standing (s : State) (o : Nat) (p : Nat × Nat) (x : Nat) :
    standing ((takeBerth s o p).ctx x) = standing (s.ctx x) := by
  refine ctx_modCtx_keeps standing (fun c => ?_) s o x
  dsimp only
  split
  · rfl
  · split
    · rfl
    · rfl

theorem takeBerths_standing (s : State) (o : Nat) (l : List (Nat × Nat)) (x : Nat) :
    standing ((l.foldl (fun s p => takeBerth s o p) s).ctx x) = standing (s.ctx x) :=
  foldl_keeps (fun s : State => standing (s.ctx x)) (fun t p => takeBerth_standing t o p x) l s

theorem takeBerths_slots (s : State) (o : Nat) (l : List (Nat × Nat)) : (l.foldl (fun s p => takeBerth s o p) s).slots = s.slots :=
  foldl_keeps State.slots (fun _ _ => by rfl) l s

theorem bindStraits_standing (s : State) (q x : Nat) : standing ((bindStraits s q).ctx x) = standing (s.ctx x) := by
  unfold bindStraits
  dsimp only
  split
  · exact ctx_modCtx_keeps standing (fun _ => by rfl) s _ x
  · rfl

theorem bindIsland_standing (s : State) (o x : Nat) : standing ((bindIsland s o).ctx x) = standing (s.ctx x) := by
  unfold bindIsland
  refine (foldl_keeps (fun s : State => standing (s.ctx x)) (fun t q => bindStraits_standing t q x) _ _).trans ?_
  exact ctx_modCtx_keeps standing (fun _ => by rfl) s o x

/-- The delivery of waiting messages changes inboxes, wakes and the message area alone. -/
theorem fillCore_standing (s : State) (o core x : Nat) : standing ((fillCore s o core).ctx x) = standing (s.ctx x) := by
  unfold fillCore
  refine (ctx_modCtx_keeps standing (fun _ => by rfl) _ o x).trans (congrArg (fun l : Tab Ctx => standing (l.get {} x)) ?_)
  refine (foldl_keeps (fun r : State × List (Nat × Option Word) => r.1.ctxs) (fun r e => ?_) _ _).trans rfl
  dsimp only
  repeat' split
  all_goals rfl

theorem fillInboxes_standing (s : State) (o x : Nat) : standing ((fillInboxes s o).ctx x) = standing (s.ctx x) := by
  unfold fillInboxes
  refine foldl_keeps (fun s : State => standing (s.ctx x)) (fun t e => ?_) _ s
  exact fillCore_standing t o e.1 x

/-! ### The swap (R359 to R364) -/

/-- The images of a context move to their berths: it is swapped out, and a cause that has been given stays. -/
theorem sealOut_ctx (s : State) (o : Nat) :
    ((sealOut s o).ctx o).phase = .swapped ∧ ((sealOut s o).ctx o).cause = if (s.ctx o).cause = 0 then 1 else (s.ctx o).cause := by
  have hcores : ∀ (l : List Nat) (t : State), (l.foldl (fun s k => s.modCore k fun c => { c with plb := [] }) t).ctx o = t.ctx o :=
    fun l t => foldl_keeps (fun s : State => s.ctx o) (fun t k => State.modCore_get_ctx t k o _) l t
  have hcause := congrArg (fun c => c.2.1) (takeBerths_standing s o (quadsHeld s o) o)
  unfold sealOut
  dsimp only
  rw [State.modCtx_ctx, hcores]
  exact ⟨rfl, congrArg (fun c : BitVec 8 => if c = 0 then 1 else c) hcause⟩

theorem sealOut_slots (s : State) (o : Nat) : (sealOut s o).slots = s.slots := by
  unfold sealOut
  dsimp only
  rw [State.modCtx_slots, foldl_keeps State.slots fun t k => State.modCore_slots t k _, takeBerths_slots]

/-- A swap moves the images, or leaves the context where it stands, to wait for room in the spill area. -/
theorem swapOut_cases (s : State) (o : Nat) : (∃ u, u.ctxs = s.ctxs ∧ u.slots = s.slots ∧ swapOut s o = sealOut u o) ∨
    mustSpill s o = true ∧ swapOut s o = s.tick.2.modCtx o fun c => { c with spillWait := true } := by
  unfold swapOut
  split
  next hm =>
    dsimp only
    split
    · exact .inl ⟨s.tick.2, rfl, rfl, rfl⟩
    · exact .inr ⟨hm, rfl⟩
  · exact .inl ⟨s, rfl, rfl, rfl⟩

/-- The swap of a stopped context for the cause 1. -/
theorem swapOut_stopped {s : State} {o : Nat} (hphase : (s.ctx o).phase = .stopping) (hcause : (s.ctx o).cause = 1) :
    (swapOut s o).slots = s.slots ∧ ((swapOut s o).ctx o).cause = 1 ∧
      (mustSpill s o = false → ((swapOut s o).ctx o).phase = .swapped) ∧
      (((swapOut s o).ctx o).phase = .swapped ∨ ((swapOut s o).ctx o).phase = .stopping ∧ ((swapOut s o).ctx o).spillWait = true) := by
  obtain ⟨u, hctxs, hslots, h⟩ | ⟨hm, h⟩ := swapOut_cases s o
  · have hu : (u.ctx o).cause = 1 := by rw [State.ctx, hctxs]; exact hcause
    obtain ⟨hout, hc⟩ := sealOut_ctx u o
    rw [hu, if_neg (by decide)] at hc
    rw [h]
    exact ⟨(sealOut_slots u o).trans hslots, hc, fun _ => hout, .inl hout⟩
  · rw [h, hm, State.modCtx_ctx]
    exact ⟨rfl, hcause, Bool.noConfusion, .inr ⟨hphase, rfl⟩⟩

theorem exec_harbourSwap_running {s : State} {o : Nat} (hr : (s.ctx o).phase = .running) : exec (.harbourSwap o) s =
    .next (if drained s o then swapOut (stopCtx s o 1) o else stopCtx s o 1) := by
  simp only [exec_harbourSwap, execHarbourSwap, hr, if_true, stopCtx_ctx, stopCtx_drained, decide_true, Bool.true_and]

/-! ### The restore (R363 to R368) -/

/-- A context whose images are good runs again. -/
theorem restore_good {s : State} {o : Nat} (h : (s.ctx o).badImage = false) :
    standing ((restore s o).ctx o) = (.running, 0, s.cycle + 1, (s.ctx o).rect, false) ∧ (restore s o).mem = s.mem := by
  unfold restore
  rw [h, if_neg Bool.false_ne_true]
  refine ⟨(fillInboxes_standing _ o o).trans ?_, fillInboxes_mem _ o⟩
  rw [State.modCtx_ctx, standing]
  exact congrArg (fun b => (Phase.running, (0 : BitVec 8), s.cycle + 1, (s.ctx o).rect, b)) h

/-- At its new place a context keeps all but the corner of its rectangle. -/
theorem replace_standing (s : State) (o col row : Nat) :
    standing ((replace s o col row).ctx o) = standing { s.ctx o with rect := { (s.ctx o).rect with col, row } } := by
  unfold replace
  refine (takeBerths_standing _ o _ o).trans ((ctx_modCtx_keeps standing (fun _ => by rfl) _ o o).trans ?_)
  refine (bindIsland_standing _ o o).trans ?_
  rw [State.modCtx_ctx]
  rfl

/-! ### Slices and the scrub (R316, R364) -/

/-- A row found failing is retired; the context whose image lies in it keeps its slots and its memory. -/
theorem harbourScrub_kept {s : State} {stack row : Nat} (bad : Bool) (hs : stack < 4) (hr : row < 16384)
    (hnew : (s.pkg.rows.get [] stack).contains row = false) : ∃ t, exec (.harbourScrub stack row bad) s = .next t ∧
      t.pkg.rows.get [] stack = row :: s.pkg.rows.get [] stack ∧ t.slots = s.slots ∧ SameMemory s t := by
  refine ⟨_, if_pos (by rw [hnew]; simp [hs, hr]), ?_⟩
  split
  all_goals split
  all_goals exact ⟨Tab.get_put_self _ _ _ _, rfl, sameMemory_of_mem rfl⟩

/-- Settles O53: a stop leaves what a swap depends on as it was, and the parts of a swap and of a restore are followed in `standing` and memory;
a slice and the scrub are one update. -/
theorem preemptionEvents : Obligations.PreemptionEvents := by
  unfold Obligations.PreemptionEvents
  intro s o col row stack bad
  refine ⟨fun hr hd => ?swap, fun hr hd => ?stop, fun hr hb => ?back, fun hr hb => ?broken, fun hr hc he => ?slice,
    fun hw hf hb => ?elsewhere, fun hs hr hnew => harbourScrub_kept bad hs hr hnew⟩
  case swap =>
    rw [exec_harbourSwap_running hr, hd, if_pos rfl, ← stopCtx_mustSpill s o 1]
    obtain ⟨hslots, hcause, hfits, hphase⟩ := swapOut_stopped (s := stopCtx s o 1) (o := o) (by rw [stopCtx_ctx]) (by rw [stopCtx_ctx])
    exact ⟨_, rfl, hslots, sameMemory_of_mem (swapOut_mem _ o), hcause, hfits, hphase⟩
  case stop =>
    rw [exec_harbourSwap_running hr, hd, if_neg Bool.false_ne_true]
    exact ⟨_, rfl, by rw [stopCtx_ctx], rfl, sameMemory_of_mem (stopCtx_mem s o 1)⟩
  case back =>
    obtain ⟨hstand, hmem⟩ := restore_good hb
    simp only [standing, Prod.mk.injEq] at hstand
    obtain ⟨hphase, hcause, hran, -, -⟩ := hstand
    exact ⟨_, congrArg Host.Outcome.next (if_pos hr), hphase, hcause, hran, sameMemory_of_mem hmem⟩
  case broken => exact congrArg Host.Outcome.next ((if_pos hr).trans (if_pos hb))
  case slice =>
    refine ⟨_, if_pos (by simp [hr, hc, he]), ?_⟩
    have hslice : ((s.modCtx o fun c => { c with sliceEnd := s.pkg.clock + 10000 }).ctx o).sliceEnd = s.pkg.clock + 10000 := by
      rw [State.modCtx_ctx]
    split
    · exact ⟨hslice, sameMemory_of_mem rfl, rfl⟩
    · exact ⟨hslice, sameMemory_of_mem rfl, (List.append_nil _).symm⟩
  case elsewhere =>
    have hplace := replace_standing s o col row
    simp only [standing, Prod.mk.injEq] at hplace
    obtain ⟨-, -, -, hrect, hgood⟩ := hplace
    obtain ⟨hstand, hmem⟩ := restore_good (hgood.trans hb)
    simp only [standing, Prod.mk.injEq] at hstand
    obtain ⟨hphase, -, -, hkept, -⟩ := hstand
    have hnew := hkept.trans hrect
    refine ⟨_, if_pos (by rw [hw, hf]; rfl), hphase, ?_, ?_, sameMemory_of_mem (hmem.trans (replace_mem s o col row))⟩
    · rw [hnew]
    · rw [hnew]

end Machine
end Sys2Proof
end

section
/-! The entry of a trap handler and its frame (R354 to R356, R126). -/

namespace Sys2Proof.Machine
open Sys2Proof.Safety

/-- What a withdrawn barrier arrival may change: entries of queues and FIFO banks, and the barriers of a context (R225, R285). -/
structure Withdraws (s u : State) : Prop where
  rest : u = { s with cores := u.cores, quads := u.quads, ctxs := u.ctxs }
  core : ∀ o, u.core o = { s.core o with queues := (u.core o).queues }
  quad : ∀ q, u.quad q = { s.quad q with fifos := (u.quad q).fifos, fifoBad := (u.quad q).fifoBad }
  ctx : ∀ o, u.ctx o = { s.ctx o with bars := (u.ctx o).bars }

namespace Withdraws

theorem refl (s : State) : Withdraws s s := ⟨rfl, fun _ => rfl, fun _ => rfl, fun _ => rfl⟩

theorem trans {s t u : State} (h : Withdraws s t) (g : Withdraws t u) : Withdraws s u where
  rest := by rw [g.rest, h.rest]
  core o := by rw [g.core, h.core]
  quad q := by rw [g.quad, h.quad]
  ctx o := by rw [g.ctx, h.ctx]

theorem foldl {α : Type} {f : State → α → State} (h : ∀ s a, Withdraws s (f s a)) (l : List α) (s : State) : Withdraws s (l.foldl f s) := by
  induction l generalizing s with
  | nil => exact refl s
  | cons a l ih => exact (h s a).trans (ih _)

theorem qSet (s : State) (c q : Nat) (es : List Word) (bad : List Bool) : Withdraws s (qSet s c q es bad) where
  rest := by unfold Machine.qSet; dsimp only; split <;> rfl
  core := qSet_core s c q es bad
  quad k := by
    unfold Machine.qSet
    dsimp only
    split
    · rfl
    · by_cases h : k = quadOf c
      · subst h; rw [State.modQuad_quad]
      · rw [State.modQuad_quad_ne _ _ h]
  ctx o := by
    have h : (Machine.qSet s c q es bad).ctx o = s.ctx o := congrArg (fun l : Tab Ctx => l.get {} o) (qSet_ctxs s c q es bad)
    rw [h]

theorem modBars (s : State) (o : Nat) (f : Tab Barrier → Tab Barrier) : Withdraws s (s.modCtx o fun c => { c with bars := f c.bars }) where
  rest := rfl
  core _ := rfl
  quad _ := rfl
  ctx x := by
    by_cases h : x = o
    · subst h; rw [State.modCtx_ctx]
    · rw [State.modCtx_ctx_ne s _ h]

end Withdraws

theorem putBack_withdraws (s : State) (k : Nat) (b : Block) : Withdraws s (putBack s k b) := .foldl (fun t _ => .qSet t _ _ _ _) _ s

/-- A slot that leaves its wait: the wait and the accesses it has under way go, behind the withdrawal of a barrier arrival. -/
theorem abandon_cases (s : State) (k : Nat) : ∃ u, Withdraws s u ∧ ((s.slot k).blk = none → u = s) ∧
    abandon s k = u.modSlot k fun x => { x with blk := none, joined := none, touch := none, skip := none } := by
  unfold abandon
  cases hb : (s.slot k).blk with
  | none => exact ⟨s, .refl s, fun _ => rfl, rfl⟩
  | some b =>
    dsimp only
    split
    next sc n id p hw =>
      exact ⟨_, (Withdraws.modBars s _ fun l => l.put (barKey s k sc id) ((l.get {} (barKey s k sc id)).withdrawn k)).trans (putBack_withdraws _ k b),
        nofun, rfl⟩
    next => exact ⟨s, .refl s, nofun, rfl⟩

/-- Every cause but POISON, LEASE_OUT and CHK_MISMATCH leaves the wait of the slot and enters the handler, or ends the task at level 1. -/
theorem takeTrap_enters {c : Cause} (hp : c ≠ .poison) (hl : c ≠ .leaseOut) (hm : c ≠ .chkMismatch) (s : State) (k : Nat) (tval pc : Word)
    (need : BitVec 4) (late : Bool) (seq : BitVec 32) : takeTrap s k ⟨c, tval, need⟩ late pc seq =
      if (s.slot k).tlvl then taskAbrupt (abandon s k) (ownerOf k) (recordOf s k c.code late pc tval need seq)
      else enterHandler (abandon s k) k c.code late pc tval seq need := by
  cases c
  case poison => exact absurd rfl hp
  case leaseOut => exact absurd rfl hl
  case chkMismatch => exact absurd rfl hm
  all_goals rfl

namespace Withdraws
variable {s u : State} (hu : Withdraws s u)
include hu

theorem slots : u.slots = s.slots := by rw [hu.rest]

theorem slot (j : Nat) : u.slot j = s.slot j := congrArg (fun l : Tab Slot => l.get {} j) hu.slots

end Withdraws

/-- Where TVEC is not 0 the handler is entered by updates of the slot alone. -/
theorem enterHandler_modSlot {s : State} {k : Nat} (hv : (s.core (coreOf k)).tvec ≠ 0) (cause : BitVec 8) (late : Bool) (pc tval : Word)
    (seq : BitVec 32) (need : BitVec 4) : ∃ f g, enterHandler s k cause late pc tval seq need = (s.modSlot k f).modSlot k g :=
  ⟨_, _, if_neg hv⟩

/-- Where TVEC is 0 the task ends with the record of the trap. -/
theorem enterHandler_ends {s : State} {k : Nat} (hv : (s.core (coreOf k)).tvec = 0) (cause : BitVec 8) (late : Bool) (pc tval : Word)
    (seq : BitVec 32) (need : BitVec 4) : ∃ u, enterHandler s k cause late pc tval seq need =
      taskAbrupt u (ownerOf k) (recordOf u k cause late pc tval need seq) :=
  ⟨_, if_pos hv⟩

/-- Nothing pends at a return, so nothing is delivered (R126, R355). -/
theorem trapReturn_quiet {s : State} {k : Nat} (h : (s.slot k).pend = []) (pc : Word) :
    trapReturn s k pc = s.modSlot k fun x => { x with tlvl := false, pc } := by
  have hnone : pendNow (s.modSlot k fun x => { x with tlvl := false, pc }) k = none := by
    simp [pendNow, Slot.nextPend, h]
  rw [trapReturn, deliverPending, hnone]

/-- Settles O8: a slot leaves its wait by `Withdraws` and one update of itself, and enters the handler by updates of itself. -/
theorem trapEntry : Obligations.TrapEntry := by
  unfold Obligations.TrapEntry
  intro s k c tval pc need late seq hp hl hm
  have htake := takeTrap_enters hp hl hm s k tval pc need late seq
  refine ⟨fun hlvl hv => ?enters, fun hlvl hv => ?noHandler, fun hlvl => ?nested, fun h => trapReturn_quiet h pc⟩
  case enters =>
    obtain ⟨u, hu, hsame, ha⟩ := abandon_cases s k
    have hv' : ((abandon s k).core (coreOf k)).tvec ≠ 0 := abandon_tvec s k _ ▸ hv
    have hcycle : u.cycle = s.cycle := by rw [hu.rest]
    rw [if_neg (ne_true_of_eq_false hlvl)] at htake
    refine ⟨_, _, htake, rfl, ?slot, ?_⟩
    case slot =>
      rw [enterHandler_slot hv', abandon_tvec, ha, State.modSlot_slot, hu.slot, State.modSlot_cycle, hcycle]
    obtain ⟨f, g, he⟩ := enterHandler_modSlot hv' c.code late pc tval seq need
    rw [he, ha]
    refine ⟨fun j hj => ?others, ?_⟩
    case others => rw [State.modSlot_slot_ne _ _ hj, State.modSlot_slot_ne _ _ hj, State.modSlot_slot_ne _ _ hj, hu.slot]
    simp only [State.modSlot_mem, State.modSlot_full, State.modSlot_poison, State.modSlot_lines, State.modSlot_pages, State.modSlot_arenas,
      State.modSlot_pkg, State.modSlot_get_core, State.modSlot_get_quad, State.modSlot_get_ctx, State.modSlot_cores, State.modSlot_quads,
      State.modSlot_ctxs]
    refine ⟨?_, ?_, ?_, ?_, ?_, ?_, ?_, hu.core, hu.quad, hu.ctx, fun hb => ?idle⟩
    case idle => rw [hsame hb]; exact ⟨rfl, rfl, rfl⟩
    all_goals rw [hu.rest]
  case noHandler =>
    have hv' : ((abandon s k).core (coreOf k)).tvec = 0 := (abandon_tvec s k _).trans hv
    obtain ⟨u, hu⟩ := enterHandler_ends hv' c.code late pc tval seq need
    rw [if_neg (ne_true_of_eq_false hlvl)] at htake
    exact ⟨u, _, rfl, rfl, rfl, htake.trans hu⟩
  case nested =>
    rw [if_pos hlvl] at htake
    exact ⟨_, _, rfl, rfl, rfl, htake⟩

end Sys2Proof.Machine
end

section
/-! The end of a flip to host bias, which writes the page's LLC lines back (R348, R349): a case in which a clause of O54 fails. -/

namespace Sys2Proof.Machine
open Sys2Proof.Safety

/-- An LLC line of owner 1 with nothing written in it. -/
def heldLine : LlcLine := { owner := 1, held := 0, dirty := 0, slice := 0 }

/-- Page 0 of owner 1 flips to host bias, and the LLC holds its line 0. -/
def flipping : State := { pages := [(0, { holder := 1, bias := .toHost })], llc := [(0, heldLine)] }

/-- The end of the flip takes the line out of the LLC (R349). -/
theorem llc_hostBiasReached_flipping : (hostBiasReached flipping 0).llc = [] := rfl

/-- The dropping of the copies alone leaves it there. -/
theorem llc_flipDone_flipping : (flipDone (dropCopies flipping (pageLo 0) (pageHi 0)) 0 .host).llc = [(0, heldLine)] := rfl

/-- Refutes O54, in its clause on a flip to host bias: its completion writes back and evicts the LLC lines of the page, where the statement
only drops the copies of the page, so that line 0 would stay in the LLC. -/
theorem not_pageAndHostEvents : ¬ Obligations.PageAndHostEvents := by
  unfold Obligations.PageAndHostEvents
  intro h
  obtain ⟨-, -, -, -, hflip, -⟩ := h flipping 0 0 0 0 0 [] false [] [] 0
  have hdone : hostBiasReached flipping 0 = flipDone (dropCopies flipping (pageLo 0) (pageHi 0)) 0 .host :=
    Host.Outcome.next.inj (hflip rfl)
  have hllc := congrArg State.llc hdone
  rw [llc_hostBiasReached_flipping, llc_flipDone_flipping] at hllc
  cases hllc

end Sys2Proof.Machine
end

section
/-! The steps of a live migration (R408, R410 to R412). -/

namespace Sys2Proof.Safety.OnLink
open Sys2Proof.Machine

variable {s v : State} {n : Nat} (hv : OnLink s n v)
include hv

theorem slots : v.slots = s.slots := by
  obtain ⟨port, -, rfl⟩ := hv
  rfl

theorem ctx_eq (o : Nat) : v.ctx o = s.ctx o := by
  obtain ⟨port, -, rfl⟩ := hv
  rfl

theorem drained_eq (o : Nat) : drained v o = drained s o := by
  obtain ⟨port, -, rfl⟩ := hv
  rfl

theorem mustSpill_eq (o : Nat) : mustSpill v o = mustSpill s o := by
  obtain ⟨port, -, rfl⟩ := hv
  rfl

end Sys2Proof.Safety.OnLink

namespace Sys2Proof.Machine
open Sys2Proof.Safety

/-! ### Where a context stands on its quads and in its berths (R362, R363) -/

/-- What of a context its quads, its berths and its class come from. -/
def footing (c : Ctx) : Rect × Tab Handle × Nat × Nat × BitVec 2 × List Nat × List Nat :=
  (c.rect, c.handles, c.wq, c.hq, c.cls, c.berthsOwn, c.berthsHeld)

section
variable {f : Ctx → Ctx} (hf : ∀ c, footing (f c) = footing c) (s : State) (o : Nat)
include hf

theorem modCtx_rects (x : Nat) : (s.modCtx o f).rects x = s.rects x :=
  congrArg (fun c : Rect × Tab Handle × _ => c.1 :: c.2.1.filterMap fun e : Nat × Handle => e.2.rect) (ctx_modCtx_keeps footing hf s o x)

theorem modCtx_physQuad (k : Nat) : (s.modCtx o f).physQuad k = s.physQuad k := by
  simp only [State.physQuad, modCtx_rects hf]

theorem modCtx_quadsHeld (x : Nat) : quadsHeld (s.modCtx o f) x = quadsHeld s x := by
  have hphys : (s.modCtx o f).physQuad = s.physQuad := funext (modCtx_physQuad hf s o)
  have hfoot := ctx_modCtx_keeps footing hf s o x
  simp only [footing, Prod.mk.injEq] at hfoot
  obtain ⟨-, hhandles, hwq, hhq, -, -, -⟩ := hfoot
  simp only [quadsHeld, State.quadsOf, State.hasQuad, hphys, hhandles, hwq, hhq]

theorem modCtx_berthsUsed (b : Nat) : b ∈ berthsUsed (s.modCtx o f) ↔ b ∈ berthsUsed s := by
  rw [berthsUsed, berthsUsed, List.mem_append, List.mem_append]
  refine or_congr ?_ Iff.rfl
  exact Tab.mem_flatMap_put (t := s.ctxs) (d := {}) (n := o) (v := f (s.ctx o)) (g := fun c => c.berthsOwn ++ c.berthsHeld) rfl
    (congrArg (fun c => c.2.2.2.2.2.1 ++ c.2.2.2.2.2.2) (hf (s.ctx o))) b

theorem modCtx_berthFor (x : Nat) (p : Nat × Nat) : berthFor (s.modCtx o f) x p = berthFor s x p := by
  have hown : ((s.modCtx o f).ctx x).berthsOwn = (s.ctx x).berthsOwn :=
    congrArg (fun c => c.2.2.2.2.2.1) (ctx_modCtx_keeps footing hf s o x)
  have hfree : ∀ own : List Nat, (berthsOf p).filter (fun b => !(own ++ berthsUsed (s.modCtx o f)).contains b) =
      (berthsOf p).filter fun b => !(own ++ berthsUsed s).contains b := by
    refine fun own => List.filter_congr fun b _ => ?_
    simp only [List.contains_eq_mem, List.mem_append, modCtx_berthsUsed hf]
  simp only [berthFor, hown, hfree]

theorem modCtx_mustSpill (x : Nat) : mustSpill (s.modCtx o f) x = mustSpill s x := by
  have hcls : ((s.modCtx o f).ctx x).cls = (s.ctx x).cls := congrArg (fun c => c.2.2.2.2.1) (ctx_modCtx_keeps footing hf s o x)
  have hspill : ∀ p, spilling (s.modCtx o f) x p = spilling s x p := fun p => by
    simp only [spilling, modCtx_berthFor hf]
    rfl
  simp only [mustSpill, hcls, modCtx_quadsHeld hf, hspill]

end

/-! ### The stop of a move (R411) -/

theorem moveEvent_slots (s : State) (o step left : Nat) : (moveEvent s o step left).slots = s.slots := rfl

theorem moveEvent_ctx (s : State) (o step left x : Nat) : (moveEvent s o step left).ctx x = s.ctx x := rfl

/-- The rounds of a context's move are over. -/
def roundsOver (s : State) (o : Nat) : State := s.modCtx o fun c => { c with move := c.move.map fun m => { m with stopped := true } }

theorem roundsOver_ctx (s : State) (o : Nat) :
    (roundsOver s o).ctx o = { s.ctx o with move := (s.ctx o).move.map fun m => { m with stopped := true } } := State.modCtx_ctx _ _ _

theorem roundsOver_drained (s : State) (o : Nat) : drained (roundsOver s o) o = drained s o := by
  simp only [drained, State.coresOf, State.quadsOf, State.quaysOf, State.quayCores, roundsOver_ctx]
  rfl

theorem roundsOver_mustSpill (s : State) (o : Nat) : mustSpill (roundsOver s o) o = mustSpill s o := modCtx_mustSpill (fun _ => by rfl) s o o

/-- A drained running context is swapped out by the stop of its move. -/
theorem stopMove_drained {s : State} {o : Nat} (hr : (s.ctx o).phase = .running) (hd : drained s o = true) :
    ∃ left, stopMove s o = moveEvent (swapOut (stopCtx (roundsOver s o) o 2) o) o 2 left := by
  have hstopped : drained (stopCtx (roundsOver s o) o 2) o = true := by rw [stopCtx_drained, roundsOver_drained, hd]
  unfold stopMove
  dsimp only
  rw [if_pos hr, ← roundsOver, hstopped, if_pos (by simp [hr])]
  exact ⟨_, rfl⟩

/-- The images take their berths: the move of a context goes on. -/
theorem sealOut_move (s : State) (o : Nat) : ((sealOut s o).ctx o).move = (s.ctx o).move := by
  have hcores : ∀ (l : List Nat) (t : State), (l.foldl (fun s k => s.modCore k fun c => { c with plb := [] }) t).ctx o = t.ctx o :=
    fun l t => foldl_keeps (fun s : State => s.ctx o) (fun t k => State.modCore_get_ctx t k o _) l t
  have hberths : ∀ (l : List (Nat × Nat)) (t : State), ((l.foldl (fun s p => takeBerth s o p) t).ctx o).move = (t.ctx o).move := by
    refine fun l t => foldl_keeps (fun s : State => (s.ctx o).move) (fun t p => ?_) l t
    refine ctx_modCtx_keeps (·.move) (fun c => ?_) t o o
    dsimp only
    repeat' split
    all_goals rfl
  unfold sealOut
  dsimp only
  rw [State.modCtx_ctx, hcores]
  exact hberths _ s

/-- The swap of a stopped context leaves its slots and its move; it is swapped out, or waits for room in the spill area. -/
theorem swapOut_stopping {s : State} {o : Nat} (hphase : (s.ctx o).phase = .stopping) :
    (swapOut s o).slots = s.slots ∧ ((swapOut s o).ctx o).move = (s.ctx o).move ∧
      (mustSpill s o = false → ((swapOut s o).ctx o).phase = .swapped) ∧
      (((swapOut s o).ctx o).phase = .swapped ∨ ((swapOut s o).ctx o).phase = .stopping ∧ ((swapOut s o).ctx o).spillWait = true) := by
  obtain ⟨u, hctxs, hslots, h⟩ | ⟨hm, h⟩ := swapOut_cases s o
  · have hu : u.ctx o = s.ctx o := by rw [State.ctx, hctxs, State.ctx]
    have hout := (sealOut_ctx u o).1
    rw [h]
    exact ⟨(sealOut_slots u o).trans hslots, by rw [sealOut_move, hu], fun _ => hout, .inl hout⟩
  · rw [h, hm, State.modCtx_ctx]
    exact ⟨rfl, rfl, Bool.noConfusion, .inr ⟨hphase, rfl⟩⟩

/-- What the stop of a move leaves of a drained running context. -/
theorem stopMove_effect {s : State} {o : Nat} {m : MoveSt} (hm : (s.ctx o).move = some m) (hr : (s.ctx o).phase = .running)
    (hd : drained s o = true) :
    ((stopMove s o).ctx o).move = some { m with stopped := true } ∧ (stopMove s o).slots = s.slots ∧
      (mustSpill s o = false → ((stopMove s o).ctx o).phase = .swapped) ∧
      (((stopMove s o).ctx o).phase = .swapped ∨ ((stopMove s o).ctx o).phase = .stopping ∧ ((stopMove s o).ctx o).spillWait = true) := by
  obtain ⟨left, hstop⟩ := stopMove_drained hr hd
  have hmove : ((stopCtx (roundsOver s o) o 2).ctx o).move = some { m with stopped := true } := by
    rw [stopCtx_ctx, roundsOver_ctx, hm]
    rfl
  obtain ⟨hslots, hkept, hfits, hphase⟩ := swapOut_stopping (s := stopCtx (roundsOver s o) o 2) (o := o) (by rw [stopCtx_ctx])
  rw [stopCtx_mustSpill, roundsOver_mustSpill] at hfits
  rw [hstop, moveEvent_ctx, moveEvent_slots]
  exact ⟨hkept.trans hmove, hslots, hfits, hphase⟩

/-! ### The switch (R410, R411) -/

section
variable {s u w : State} {o : Nat} {m : MoveSt} {p : List Nat}

/-- The home has taken the notice, and pages are still to be pulled. -/
theorem switchSource_pulls (hs : sendMove s o m.target = (true, u)) (hp : pullList u m = (p, w)) (hne : p ≠ []) :
    switchSource s o m = moveEvent ((childMoved w o).modCtx o fun c => { c with move := some { m with away := true, pulls := p } }) o 3 p.length := by
  simp [switchSource, hs, hp, hne]

/-- The home has refused the notice: the move is abandoned with 3. -/
theorem switchSource_refused (hs : sendMove s o m.target = (false, u)) :
    switchSource s o m = (respond (retireNodes (abandonMove u o) o) m.tag 3 0).modPkg fun q => { q with request := u.pkg.request } := by
  simp [switchSource, hs]

theorem exec_moveSwitch_out (hm : (s.ctx o).move = some m) (hp : (s.ctx o).phase = .swapped) (hs : m.stopped = true) (ha : m.away = false) :
    exec (.moveSwitch o) s = .next (overLink s 1 fun s => if m.role then switchTarget s o m else switchSource s o m) := by
  simp [exec_moveSwitch, execMoveSwitch, hm, hp, hs, ha]

theorem exec_moveSwitch_absent (hc : s.ctxs.find? o = none) (hb : s.pkg.boot = .on) :
    exec (.moveSwitch o) s = .next (overLink s 1 (arriveMove · o)) := by
  have hm : (s.ctx o).move = none := by rw [State.ctx, Tab.get, hc]; rfl
  simp [exec_moveSwitch, execMoveSwitch, hm, hc, hb]

/-- Another chip has sent no context. -/
theorem arriveMove_none (h : Config.arriving s.fresh = none) : arriveMove s o = s.tick.2 := by
  simp [arriveMove, State.tick, h]

/-- A context that another chip has sent is taken in where it fits. -/
theorem arriveMove_some {a : Arrival} (h : Config.arriving s.fresh = some a) : arriveMove s o =
    if arrivalFits s.tick.2 o a then switchTarget (replace (takeIn s.tick.2 o a) o a.ctx.rect.col a.ctx.rect.row) o a.move else s.tick.2 := by
  simp [arriveMove, State.tick, h]

/-! ### Pulls (R411, R412) -/

theorem exec_pull_ready {page : Nat} (hm : (s.ctx o).move = some m) (hr : pullReady m page = true) :
    exec (.pull o page) s = .next (overLink s 128 (pullPage · o m)) := by
  simp [exec_pull, execPull, hm, hr]

/-- The move of a context goes on with some pages still to be pulled. -/
def pullsLeft (s : State) (o : Nat) (m : MoveSt) (rest : List Nat) : State :=
  moveEvent (s.modCtx o fun c => { c with move := some { m with pulls := rest } }) o 4 rest.length

theorem pullsLeft_move (s : State) (o : Nat) (m : MoveSt) (rest : List Nat) :
    ((pullsLeft s o m rest).ctx o).move = some { m with pulls := rest } := by
  rw [pullsLeft, moveEvent_ctx, State.modCtx_ctx]

theorem pullsLeft_slots (s : State) (o : Nat) (m : MoveSt) (rest : List Nat) : (pullsLeft s o m rest).slots = s.slots := rfl

theorem pullsLeft_mem (s : State) (o : Nat) (m : MoveSt) (rest : List Nat) : (pullsLeft s o m rest).mem = s.mem := rfl

/-- What a pull of the next page does on the source and on the target, and behind the last page. -/
theorem pullPage_cons {page : Nat} {rest : List Nat} (hp : m.pulls = page :: rest) : pullPage s o m =
    if rest = [] then
      if m.role then releaseHost ((pullsLeft s o m rest).modCtx o fun c => { c with move := none }) else freeSource (pullsLeft s o m rest) o
    else if m.role then releaseHost (pullsLeft s o m rest) else pullsLeft s o m rest := by
  cases rest <;> simp [pullPage, pullsLeft, hp]

section
variable {page : Nat} (hm : (s.ctx o).move = some m) (hr : m.role = true) (hs : m.stopped = false) (hp : page ∈ m.pulls)
include hm hr hs hp

/-- A pull that does not come to the target ends the task that has touched the page, and the context. -/
theorem pullFails_touched {r : FaultRec} (ht : pullTouch s o page = some r) :
    pullFails s o page = ctxEnd (taskAbrupt s.tick.2 o r) o 5 := by
  simp [pullFails, hm, hr, hs, hp, ht]

/-- Until an access touches the page, that its pull has not come is noted. -/
theorem pullFails_untouched (ht : pullTouch s o page = none) :
    pullFails s o page = s.modCtx o fun c => { c with move := some { m with lost := insertPage page m.lost } } := by
  simp [pullFails, hm, hr, hs, hp, ht]

end

end

/-- No message comes while no link is authenticated: a move stands still (R408). -/
theorem move_unlinked {s : State} (hl : liveOstik s = []) {o : Nat} {m : MoveSt} (hm : (s.ctx o).move = some m) (page : Nat) :
    exec (.pull o page) s = .next s ∧ exec (.moveSwitch o) s = .next s ∧ exec (.moveStop o) s = .next s := by
  simp [exec_pull, execPull, exec_moveSwitch, execMoveSwitch, exec_moveStop, execMoveStop, hm, overLink_dead hl]

/-- Settles O57: each step of a move acts over a live link on its context; the stop is followed through the swap in `footing` and the move. -/
theorem moveEvents : Obligations.MoveEvents := by
  unfold Obligations.MoveEvents
  refine ⟨fun s o hc hb hl => ?arrival, fun s o page m hm => ⟨fun hl hrole haway hstop hset hrun hd => ?stop, fun hl hout hstop haway => ?switch,
    fun hl hready rest hp => ?pull, fun hl => move_unlinked hl hm page, fun hrole hstop hpage => ?timeout⟩⟩
  case arrival =>
    obtain ⟨v, hv, hact⟩ := overLink_live hl 1
    rw [exec_moveSwitch_absent hc hb, hact]
    refine ⟨v, hv, fun hn => by rw [arriveMove_none hn], fun a ha => ?_⟩
    rw [arriveMove_some ha]
    exact ⟨fun hf => by rw [hf]; rfl, fun hf => by rw [hf]; rfl⟩
  case stop =>
    have hexec : exec (.moveStop o) s = .next (overLink s _ (stopMove · o)) := if_pos (by simp [Ctx.moving, hm, hrole, haway, hstop, hset])
    obtain ⟨v, hv, hact⟩ := overLink_live hl _
    rw [hexec, hact, ← hv.mustSpill_eq o]
    have hctx := hv.ctx_eq o
    obtain ⟨hmove, hslots, hfits, hphase⟩ := stopMove_effect (s := v) (hctx ▸ hm) (hctx ▸ hrun) ((hv.drained_eq o).trans hd)
    exact ⟨_, rfl, hmove, hslots.trans hv.slots, sameMemory_of_mem ((stopMove_mem v o).trans hv.mem), hfits, hphase⟩
  case switch =>
    obtain ⟨v, hv, hact⟩ := overLink_live hl 1
    rw [exec_moveSwitch_out hm hout hstop haway, hact]
    refine ⟨v, hv, fun hrole u hs p w hp hne => ?pulls, fun hrole u hs => ?refused, fun hrole => by rw [hrole]; rfl⟩
    case pulls =>
      rw [if_neg (ne_true_of_eq_false hrole), switchSource_pulls hs hp hne]
      exact ⟨_, rfl, by rw [moveEvent_ctx, State.modCtx_ctx], sameMemory_of_mem rfl⟩
    case refused =>
      rw [if_neg (ne_true_of_eq_false hrole), switchSource_refused hs]
      obtain ⟨hresp, -⟩ := respond_answered (retireNodes (abandonMove u o) o) m.tag 3 0
      refine ⟨_, rfl, ?_, ?_⟩
      all_goals rw [State.modPkg_pkg]
      exact hresp
  case pull =>
    obtain ⟨v, hv, hact⟩ := overLink_live hl 128
    have hmem : SameMemory s (pullsLeft v o m rest) := sameMemory_of_mem ((pullsLeft_mem v o m rest).trans hv.mem)
    rw [exec_pull_ready hm hready, hact, pullPage_cons hp]
    refine ⟨fun hne hrole => ?source, fun hne hrole => ?target, fun hnil hrole => ?sourceLast, fun hnil hrole => ?targetLast⟩
    case source =>
      rw [if_neg hne, if_neg (ne_true_of_eq_false hrole)]
      exact ⟨_, rfl, pullsLeft_move v o m rest, (pullsLeft_slots v o m rest).trans hv.slots, hmem⟩
    case target =>
      rw [if_neg hne, if_pos hrole]
      exact ⟨_, pullsLeft_move v o m rest, hmem, rfl⟩
    case sourceLast =>
      rw [if_pos hnil, if_neg (ne_true_of_eq_false hrole)]
      exact ⟨_, hmem, rfl⟩
    case targetLast =>
      rw [if_pos hnil, if_pos hrole]
      exact ⟨(pullsLeft v o m rest).modCtx o fun c => { c with move := none }, by rw [State.modCtx_ctx], hmem, rfl⟩
  case timeout =>
    rw [exec_pullTimeout, execPullTimeout]
    refine ⟨fun r ht => congrArg Host.Outcome.next (pullFails_touched hm hrole hstop hpage ht), fun ht => ?_⟩
    rw [pullFails_untouched hm hrole hstop hpage ht]
    exact ⟨_, rfl, by rw [State.modCtx_ctx], rfl, sameMemory_of_mem rfl⟩

end Sys2Proof.Machine
end

section
/-! The ports of the package (R400, R401, R403, R408, R409). -/

namespace Sys2Proof.Machine
open Sys2Proof.Safety

section
variable (s : State) (n : Nat)

theorem portOf_modPort (f : Port → Port) : portOf (modPort s n f) n = f (portOf s n) := Tab.get_put_self _ _ _ _

theorem portOf_portTo (st : PortState) : portOf (portTo s n st) n = { portOf s n with state := st, good := 0 } :=
  portOf_modPort s n fun p => { p with state := st, good := 0 }

theorem modPort_agenda (f : Port → Port) : (modPort s n f).agenda = s.agenda := rfl

theorem portTo_fresh (st : PortState) : (portTo s n st).fresh = s.fresh := rfl

theorem portTo_agenda (st : PortState) : (portTo s n st).agenda = s.agenda := rfl

/-- A port's new state is recorded (R407). -/
theorem portTo_evCount (st : PortState) : (portTo s n st).pkg.evCount = s.pkg.evCount + 1 := by
  rw [portTo, eventAdd, State.modPkg_pkg]
  rfl

theorem portTo_linkUp (st : PortState) : (portTo s n st).pkg.linkUp = s.pkg.linkUp := by
  rw [portTo, eventAdd, State.modPkg_pkg]
  rfl

/-! ### Reports and recovery (R409) -/

/-- The port keeps the values of a report and counts its good seconds. -/
def reported (margin : List Nat) (rate replays loss : Nat) : State :=
  modPort s n fun p => { p with margin, rate, replays, loss, good := if portGood s margin rate then p.good + 1 else 0 }

theorem portOf_reported (margin : List Nat) (rate replays loss : Nat) : portOf (reported s n margin rate replays loss) n =
    { portOf s n with margin, rate, replays, loss, good := if portGood s margin rate then (portOf s n).good + 1 else 0 } :=
  portOf_modPort s n _

theorem reported_evCount (margin : List Nat) (rate replays loss : Nat) :
    (reported s n margin rate replays loss).pkg.evCount = s.pkg.evCount := rfl

end

section
variable {s : State} {n rate replays loss : Nat} {margin : List Nat}

theorem exec_telemetryReport_degrades (hn : n < 20) (hu : (portOf s n).state = .up) (hg : portGood s margin rate = false) :
    exec (.telemetryReport n margin rate replays loss) s = .next (portTo (reported s n margin rate replays loss) n .degraded) := by
  simp [exec_telemetryReport, execTelemetryReport, reported, portOf_modPort, Nat.not_le.2 hn, hu, hg]

theorem exec_telemetryReport_recovers (hn : n < 20) (hl : (portOf s n).state.low = true) (hg : portGood s margin rate = true)
    (h60 : 60 ≤ (portOf s n).good + 1) : exec (.telemetryReport n margin rate replays loss) s =
      .next { reported s n margin rate replays loss with agenda := s.agenda ++ [.portRecovery n] } := by
  simp [exec_telemetryReport, execTelemetryReport, reported, portOf_modPort, modPort_agenda, Nat.not_le.2 hn, hl, hg, h60]

theorem exec_telemetryReport_kept (hn : n < 20) (hu : (portOf s n).state ≠ .up ∨ portGood s margin rate = true)
    (hd : ¬ ((portOf s n).state.low = true ∧ portGood s margin rate = true ∧ 60 ≤ (portOf s n).good + 1)) :
    exec (.telemetryReport n margin rate replays loss) s = .next (reported s n margin rate replays loss) := by
  cases hg : portGood s margin rate with
  | false =>
    have hup : (portOf s n).state ≠ .up := hu.resolve_right (by rw [hg]; decide)
    simp [exec_telemetryReport, execTelemetryReport, reported, portOf_modPort, Nat.not_le.2 hn, hg, hup]
  | true =>
    cases hl : (portOf s n).state.low with
    | false => simp [exec_telemetryReport, execTelemetryReport, reported, portOf_modPort, Nat.not_le.2 hn, hg, hl]
    | true =>
      have h60 : ¬ 59 ≤ (portOf s n).good := fun h => hd ⟨hl, hg, Nat.succ_le_succ h⟩
      simp [exec_telemetryReport, execTelemetryReport, reported, portOf_modPort, Nat.not_le.2 hn, hg, hl, h60]

/-- What a report leaves: the port has its values, and its state changes only where it degrades an UP port. -/
theorem telemetryReport_effect (hn : n < 20) : ∃ t, exec (.telemetryReport n margin rate replays loss) s = .next t ∧ SameMemory s t ∧
    ((portOf s n).state = .up → portGood s margin rate = false →
      portOf t n = { portOf s n with margin, rate, replays, loss, good := 0, state := .degraded } ∧ t.pkg.evCount = s.pkg.evCount + 1) ∧
    ((portOf s n).state ≠ .up ∨ portGood s margin rate = true →
      portOf t n = { portOf s n with margin, rate, replays, loss, good := if portGood s margin rate then (portOf s n).good + 1 else 0 } ∧
      t.pkg.evCount = s.pkg.evCount) ∧
    t.agenda = s.agenda ++ if (portOf s n).state.low ∧ portGood s margin rate = true ∧ 60 ≤ (portOf s n).good + 1 then [.portRecovery n] else [] := by
  have hport := portOf_reported s n margin rate replays loss
  by_cases hu : (portOf s n).state ≠ .up ∨ portGood s margin rate = true
  · have hno : (portOf s n).state = .up → portGood s margin rate ≠ false := by
      rintro hup hbad
      simp [hup, hbad] at hu
    by_cases hd : (portOf s n).state.low = true ∧ portGood s margin rate = true ∧ 60 ≤ (portOf s n).good + 1
    · rw [if_pos hd]
      obtain ⟨hl, hg, h60⟩ := hd
      rw [exec_telemetryReport_recovers hn hl hg h60]
      exact ⟨_, rfl, sameMemory_of_mem rfl, fun hup hbad => absurd hbad (hno hup), fun _ => ⟨hport, rfl⟩, rfl⟩
    · rw [if_neg hd, exec_telemetryReport_kept hn hu hd]
      exact ⟨_, rfl, sameMemory_of_mem rfl, fun hup hbad => absurd hbad (hno hup), fun _ => ⟨hport, rfl⟩, (List.append_nil _).symm⟩
  · obtain ⟨hup, hbad⟩ : (portOf s n).state = .up ∧ portGood s margin rate = false := by simpa using hu
    have hdue : ¬ ((portOf s n).state.low = true ∧ portGood s margin rate = true ∧ 60 ≤ (portOf s n).good + 1) := by simp [hbad]
    rw [if_neg hdue, exec_telemetryReport_degrades hn hup hbad]
    refine ⟨_, rfl, sameMemory_of_mem (portTo_mem _ _ _), fun _ _ => ⟨?_, ?_⟩, fun h => absurd h hu, ?_⟩
    · rw [portOf_portTo, hport]
    · rw [portTo_evCount, reported_evCount]
    · rw [portTo_agenda, List.append_nil, reported, modPort_agenda]

theorem exec_portRecovery_due (hl : (portOf s n).state.low = true) (h60 : 60 ≤ (portOf s n).good) :
    exec (.portRecovery n) s = .next (portTo s n .up) := congrArg Host.Outcome.next (if_pos (by simp [hl, h60]))

theorem exec_portRecovery_early (h : (portOf s n).state.low = false ∨ (portOf s n).good < 60) : exec (.portRecovery n) s = .next s := by
  refine congrArg Host.Outcome.next (if_neg ?_)
  obtain hl | hg := h
  · simp [hl]
  · simp [Nat.not_le.2 hg]

/-! ### Lanes, losses and keys (R408, R409) -/

theorem exec_laneFail_degraded (h : (portOf s n).state = .degraded) :
    exec (.laneFail n) s = .next (modPort s n fun p => { p with state := .degraded4 }) := congrArg Host.Outcome.next (if_pos (by simp [h]))

theorem exec_laneFail_other (h : (portOf s n).state ≠ .degraded) : exec (.laneFail n) s = .next s :=
  congrArg Host.Outcome.next (if_neg (by simpa using h))

theorem exec_portDown_live (he : portExists n = true) (hd : (portOf s n).state ≠ .down) : exec (.portDown n) s = .next (portTo s n .down) :=
  congrArg Host.Outcome.next (if_neg (by simp [he, hd]))

theorem exec_rekey_live (h4 : 4 ≤ n) (hn : n < 20) (hd : (portOf s n).state ≠ .down) :
    exec (.rekey n) s = .next (modPort s n fun p => { p with keys := p.keys + 1, flits := 0 }) :=
  congrArg Host.Outcome.next (if_pos (by simp [h4, hn, hd]))

theorem exec_noRoute_parted {o : Nat} (hc : (s.ctxs.find? o).isSome = true) (hp : (s.ctx o).npkg ≠ 1) : exec (.noRoute o) s = .next (ctxEnd s o 3) :=
  congrArg Host.Outcome.next (if_pos (by simp [hc, hp]))

/-! ### Training (R401, R403, R408) -/

theorem drawChallenge_challenge (s : State) : (drawChallenge s).pkg.challenge = Config.randomBytes s.fresh 32 := by
  rw [drawChallenge, State.tick, State.modPkg_pkg]

theorem drawChallenge_linkUp (s : State) : (drawChallenge s).pkg.linkUp = s.pkg.linkUp := by
  rw [drawChallenge, State.tick, State.modPkg_pkg]

theorem portOf_drawChallenge (s : State) (n : Nat) : portOf (drawChallenge s) n = portOf s n := by
  rw [drawChallenge, State.tick, portOf, State.modPkg_pkg, portOf]

section
variable {partner : Partner}

theorem exec_portTraining_refused (hp : partnerOk s n partner = false) : exec (.portTraining n partner) s = .next s := by
  simp [exec_portTraining, execPortTraining, hp]

section
variable (he : portExists n = true) (hd : (portOf s n).state = .down) (hb : s.pkg.boot ≠ .off) (hp : partnerOk s n partner = true)
include he hd hb hp

/-- On an Ostik port the two agree a key, and the host link stays as it is, also where the port faces the host. -/
theorem exec_portTraining_ostik (hh : n = hostPort s → s.pkg.boot = .on) (h4 : 4 ≤ n) (hn : n < 20) :
    exec (.portTraining n partner) s = .next (modPort (portTo s n .up) n fun p => { p with keys := p.keys + 1, flits := 0 }) := by
  have hfaces : ¬ (n = hostPort s ∧ ¬ s.pkg.boot = .on) := fun h => h.2 (hh h.1)
  simp [exec_portTraining, execPortTraining, he, hd, hb, hp, h4, hn, hfaces]

theorem exec_portTraining_other (ho : ¬ (4 ≤ n ∧ n < 20)) (hh : n ≠ hostPort s) :
    exec (.portTraining n partner) s = .next (portTo s n .up) := by
  simp [exec_portTraining, execPortTraining, he, hd, hb, hp, ho, hh]

omit hb in
/-- The host link comes up with its port, with a new challenge. -/
theorem exec_portTraining_host (ho : ¬ (4 ≤ n ∧ n < 20)) (hh : n = hostPort s) (hon : s.pkg.boot = .on) (hl : s.pkg.linkUp = false) :
    exec (.portTraining n partner) s = .next (drawChallenge ((portTo s n .up).modPkg fun p => { p with linkUp := true })) := by
  have hdown : (portTo s n .up).pkg.linkUp = false := hl
  simp [exec_portTraining, execPortTraining, he, hd, hp, ho, ← hh, hon, hdown]

end
end
end

/-- A package whose host-facing port is set to the Ostik port 4, which is DOWN with the host link; no operator can set it so (R400). -/
def ostikFacesHost : State := { pkg := { cxlPort := 4, linkUp := false } }

/-- The host link does not come up where the host-facing port is an Ostik port, so O58 says that the part is of the form with host, whose
host-facing port is the UCIe port whatever is set (R400).  The form is a free value, so that O58 is neither proved nor refuted. -/
theorem portEvents_iff_form : Obligations.PortEvents ↔ Config.form = .host := by
  unfold Obligations.PortEvents
  refine ⟨fun h => ?onlyHost, fun hform s n o rate replays loss margin partner => ⟨telemetryReport_effect, fun hl h60 => ?recovers,
    exec_portRecovery_early, fun hd => ?lane, exec_laneFail_other, fun he hd => ?down, fun he hd hb hp => ⟨fun hh => ?trains, fun hh hon hl => ?host⟩,
    exec_portTraining_refused, fun h4 hn hd => ?rekey, exec_noRoute_parted⟩⟩
  case onlyHost =>
    by_contra hform
    obtain ⟨-, -, -, -, -, -, htrain, -⟩ := h ostikFacesHost 4 0 0 0 0 [] ⟨true, []⟩
    have hfaces : 4 = hostPort ostikFacesHost := (if_neg hform).symm
    obtain ⟨-, hhost⟩ := htrain rfl rfl (by decide) rfl
    obtain ⟨t, hexec, -, hlink, -⟩ := hhost hfaces rfl rfl
    rw [exec_portTraining_ostik rfl rfl (by decide) rfl (fun _ => rfl) (by decide) (by decide)] at hexec
    rw [← Host.Outcome.next.inj hexec] at hlink
    cases hlink
  case recovers =>
    rw [exec_portRecovery_due hl h60]
    exact ⟨_, rfl, portOf_portTo s n .up, portTo_evCount s n .up, sameMemory_of_mem (portTo_mem s n .up)⟩
  case lane =>
    rw [exec_laneFail_degraded hd]
    exact ⟨_, rfl, portOf_modPort s n _, sameMemory_of_mem rfl⟩
  case down =>
    rw [exec_portDown_live he hd]
    exact ⟨_, rfl, portOf_portTo s n .down, portTo_evCount s n .down, sameMemory_of_mem (portTo_mem s n .down)⟩
  case trains =>
    by_cases ho : 4 ≤ n ∧ n < 20
    · rw [exec_portTraining_ostik he hd hb hp (fun h => absurd h hh) ho.1 ho.2, if_pos ho]
      refine ⟨_, rfl, portTo_linkUp s n .up, sameMemory_of_mem (portTo_mem s n .up), ?_⟩
      rw [portOf_modPort, portOf_portTo]
    · rw [exec_portTraining_other he hd hb hp ho hh, if_neg ho]
      exact ⟨_, rfl, portTo_linkUp s n .up, sameMemory_of_mem (portTo_mem s n .up), portOf_portTo s n .up⟩
  case host =>
    have hucie : n = 20 := hh.trans (if_pos hform)
    have ho : ¬ (4 ≤ n ∧ n < 20) := by omega
    rw [exec_portTraining_host he hd hp ho hh hon hl]
    refine ⟨_, rfl, ?_, ?_, ?_, sameMemory_of_mem ?_⟩
    · rw [portOf_drawChallenge]
      exact congrArg Port.state (portOf_portTo s n .up)
    · rw [drawChallenge_linkUp, State.modPkg_pkg]
    · rw [drawChallenge_challenge, State.modPkg_fresh, portTo_fresh]
    · rw [drawChallenge_mem, State.modPkg_mem, portTo_mem]
  case rekey =>
    rw [exec_rekey_live h4 hn hd]
    exact ⟨_, rfl, portOf_modPort s n _, sameMemory_of_mem rfl⟩

end Sys2Proof.Machine
end
